-- ==== Sys2Proof/Word.lean ====
section
/-! DEFINITION. The word types of the machine, the sparse map that every keyed store uses, and the types
of the measured inputs that the hardware and host events carry (no operation on them stands here). -/

namespace Sys2Proof

/-- A byte of memory. -/
abbrev Byte := BitVec 8
/-- An instruction word (R60). -/
abbrev Word := BitVec 32
/-- One lane's part of a frame register, a program counter, an address (R10, R33). -/
abbrev Lane := BitVec 64
/-- A lane mask: bit l stands for lane l (R36). -/
abbrev Mask := BitVec 32

/-- A sparse map from numbers: pairs in strictly rising key order. -/
abbrev NMap (α : Type) := List (Nat × α)

/-- A unit of the self-test (R394). -/
inductive FaultUnit where
  /-- physical lane (core, lane 0 to 64) -/
  | lane (core phys : Nat)
  /-- register-file bank of 16 granules (core, bank 0 to 15) -/
  | rfBank (core bank : Nat)
  /-- row of an array of the core: 0 scratchpad, 1 tile file, 2 accumulator memory, 3 L1 -/
  | arrayRow (core array row : Nat)
  /-- way of an L2 slice (slice 0 to 319, set, way) -/
  | l2Way (slice set way : Nat)
  /-- lane of an Irend port (port 0 to 11, rail 0 to 4, lane 0 to 3) -/
  | irendLane (port rail lane : Nat)
  /-- lane of a die-to-die link (die, link lane) -/
  | dieLink (die lane : Nat)
  /-- row of an HBM4E stack (stack 0 to 7, row) -/
  | hbmRow (stack row : Nat)
  deriving DecidableEq, Repr

/-- Where a detected error stands (R34, R189, R212, R238, R321). -/
inductive ErrorSite where
  /-- an error corrected in place: nothing is poisoned -/
  | corrected
  /-- a residue check that fails in a physical lane, or a double-bit error of its operand latches (R189, R238) -/
  | residue
  /-- one half of a lane's part of a physical register: key of the lane in the register file, half -/
  | regHalf (core key : Nat) (high : Bool)
  /-- an aligned 64-bit word of memory, of the cache or memory array that the unit lies in, at a physical address -/
  | memWord (pa : Nat)
  /-- an aligned 64-bit word of a team's version line (R321, R335) -/
  | versionWord (team place : Nat)
  /-- a 64-bit word of the tile file -/
  | tileWord (core word : Nat)
  /-- a 64-bit word of the accumulator memory -/
  | accWord (core word : Nat)
  deriving DecidableEq, Repr

/-- What the sensors give at a 10 microsecond sample (R302, R303, R307, R308). -/
structure Sample where
  /-- plot temperatures in degrees, key 40 x die + plot -/
  temps : NMap Nat
  /-- plot energies of the interval in nJ, same key -/
  energy : NMap Nat
  /-- package power of the interval in mW -/
  powerMw : Nat
  deriving DecidableEq, Repr

/-- A frame that reaches an Ethernet port (R382, R383, R390). -/
inductive NetFrame where
  /-- a launch frame: checks passed by FCS and UDP checksum, source address (16 bytes), UDP port, payload -/
  | launch (sumsGood : Bool) (source : BitVec 128) (udpPort : Nat) (payload : List Byte)
  /-- an IEEE 1588 message whose offset the clock servo measured, in ns: positive is forward -/
  | ieee1588 (offset : Int)
  /-- any other frame -/
  | other
  deriving DecidableEq, Repr

/-- One flit as received on a rail: 72 bytes, or nothing by 64 ns after the group's first flit (R387, R388). -/
abbrev Flit := Option (List Byte)

end Sys2Proof
end

