-- ==== Sys2Proof/Machine/Formats.lean ====
section
/-! DEFINITION. The number formats of R10 to R32: exact values, decoding, rounding, comparison and conversion.
An exact value is a fraction of two natural numbers, so every result is computed exactly and narrowed once. -/

namespace Sys2Proof.Machine

/-- The kind column of R10. -/
inductive Kind where
  | int
  | nat
  | ieee
  | tapered
  | bits
  deriving DecidableEq, Repr

/-- Kind of a 4-bit type code (R10). -/
def kindOf (t : Nat) : Kind :=
  if t < 4 then .int else if t < 8 then .nat else if t < 12 then .ieee else if t < 15 then .tapered else .bits

/-- Width in bits of a type code (R10). -/
def widthOf (t : Nat) : Nat :=
  match t with
  | 0 | 4 | 12 => 8
  | 1 | 5 | 8 | 9 | 13 => 16
  | 2 | 6 | 10 | 14 => 32
  | _ => 64

/-- Sub-elements in a lane (R10). -/
def countOf (t : Nat) : Nat := 64 / widthOf t

/-- The signed reading of the low w bits of n. -/
def signedOf (w n : Nat) : Int := if n % 2 ^ w < 2 ^ (w - 1) then (n % 2 ^ w : Nat) else (n % 2 ^ w : Nat) - (2 ^ w : Nat)

/-- The low w bits of an integer. -/
def lowBits (w : Nat) (z : Int) : Nat := (z % (2 ^ w : Nat)).toNat

/-- Least and greatest value of an integer type (R12). -/
def minOf (t : Nat) : Int := if kindOf t = .int then -(2 ^ (widthOf t - 1) : Nat) else 0
/-- See `minOf`. -/
def maxOf (t : Nat) : Int :=
  if kindOf t = .int then (2 ^ (widthOf t - 1) : Nat) - 1 else (2 ^ widthOf t : Nat) - 1

/-- The integer that a sub-element of an I, N or B64 type holds (R12, R105). -/
def intOf (t n : Nat) : Int := if kindOf t = .int then signedOf (widthOf t) n else (n % 2 ^ widthOf t : Nat)

/-- The rounding modes of R16. -/
inductive Mode where
  /-- to nearest, ties to even -/
  | rn
  /-- toward zero -/
  | rz
  /-- toward minus infinity -/
  | rm
  /-- toward plus infinity -/
  | rp
  /-- to nearest, ties away from zero -/
  | ra
  deriving DecidableEq, Repr

/-- A mode code of R16; 5 to 7 are no mode. -/
def modeOfCode : Nat → Option Mode
  | 0 => some .rn
  | 1 => some .rz
  | 2 => some .rm
  | 3 => some .rp
  | 4 => some .ra
  | _ => none

/-- Whether the magnitude moves up: rest / whole is the part cut off, odd the last bit kept, neg the sign (R16, R19). -/
def roundUp (mode : Mode) (neg odd : Bool) (rest whole : Nat) : Bool :=
  match mode with
  | .rn => decide (2 * rest > whole) || (2 * rest == whole && odd)
  | .ra => decide (2 * rest ≥ whole)
  | .rz => false
  | .rp => decide (rest > 0) && !neg
  | .rm => decide (rest > 0) && neg

/-- num / den rounded to a natural number. -/
def roundQuotient (mode : Mode) (neg : Bool) (num den : Nat) : Nat :=
  let q := num / den
  if roundUp mode neg (q % 2 == 1) (num % den) den then q + 1 else q

/-- An exact value, or the special values of a format. -/
inductive Val where
  /-- NaN of an IEEE format, NaR of a tapered one -/
  | nan
  /-- an infinity; true is negative -/
  | inf (neg : Bool)
  /-- (-1)^neg num / den, den positive; a zero keeps its sign -/
  | fin (neg : Bool) (num den : Nat)
  deriving DecidableEq, Repr

/-- num x 2^e as a fraction. -/
def scaled (neg : Bool) (num : Nat) (e : Int) : Val := .fin neg (num * 2 ^ e.toNat) (2 ^ (-e).toNat)

/-- An integer as an exact value. -/
def Val.ofInt (z : Int) : Val := .fin (z < 0) z.natAbs 1

/-- Floor of log2 (num / den), for num and den positive. -/
def floorLog2 (num den : Nat) : Int :=
  let t : Int := (Nat.log2 num : Int) - Nat.log2 den
  if num * 2 ^ (-t).toNat < den * 2 ^ t.toNat then t - 1 else t

/-- A binary format of R14. -/
structure IeeeFmt where
  ebits : Nat
  fbits : Nat
  /-- code of the largest finite magnitude -/
  maxFinite : Nat
  /-- code of positive infinity; none for E4M3 -/
  infCode : Option Nat
  nanCode : Nat
  deriving DecidableEq, Repr

/-- R14 F16. -/
def fmtF16 : IeeeFmt := ⟨5, 10, 0x7BFF, some 0x7C00, 0x7E00⟩
/-- R14 BF16. -/
def fmtBF16 : IeeeFmt := ⟨8, 7, 0x7F7F, some 0x7F80, 0x7FC0⟩
/-- R14 F32. -/
def fmtF32 : IeeeFmt := ⟨8, 23, 0x7F7FFFFF, some 0x7F800000, 0x7FC00000⟩
/-- R14 F64. -/
def fmtF64 : IeeeFmt := ⟨11, 52, 0x7FEFFFFFFFFFFFFF, some 0x7FF0000000000000, 0x7FF8000000000000⟩
/-- R14 E4M3. -/
def fmtE4M3 : IeeeFmt := ⟨4, 3, 0x7E, none, 0x7F⟩
/-- R14 E5M2. -/
def fmtE5M2 : IeeeFmt := ⟨5, 2, 0x7B, some 0x7C, 0x7E⟩

/-- Exponent bias. -/
def IeeeFmt.bias (f : IeeeFmt) : Nat := 2 ^ (f.ebits - 1) - 1
/-- Width in bits. -/
def IeeeFmt.width (f : IeeeFmt) : Nat := 1 + f.ebits + f.fbits
/-- The sign bit in place. -/
def IeeeFmt.sign (f : IeeeFmt) (neg : Bool) : Nat := if neg then 2 ^ (f.ebits + f.fbits) else 0

/-- The format of type codes 8 to 11. -/
def ieeeFmt (t : Nat) : IeeeFmt :=
  match t with
  | 8 => fmtF16
  | 9 => fmtBF16
  | 10 => fmtF32
  | _ => fmtF64

/-- Value of a code (R14). A magnitude above the largest finite one is the infinity or a NaN. -/
def decodeIeee (f : IeeeFmt) (c : Nat) : Val :=
  let neg := c / 2 ^ (f.ebits + f.fbits) % 2 == 1
  let mag := c % 2 ^ (f.ebits + f.fbits)
  let e := mag / 2 ^ f.fbits
  let frac := mag % 2 ^ f.fbits
  if mag > f.maxFinite then (if f.infCode = some mag then .inf neg else .nan)
  else if e = 0 then scaled neg frac (1 - (f.bias : Int) - f.fbits)
  else scaled neg (frac + 2 ^ f.fbits) ((e : Int) - f.bias - f.fbits)

/-- IEEE overflow by sign and mode; E4M3 has 0x7F in place of an infinity (R31). -/
def overflowIeee (f : IeeeFmt) (mode : Mode) (sat neg : Bool) : Nat :=
  let toInf := match mode with
    | .rn | .ra => true
    | .rz => false
    | .rp => !neg
    | .rm => neg
  if sat || !toInf then f.sign neg + f.maxFinite
  else match f.infCode with
    | some i => f.sign neg + i
    | none => f.nanCode

/-- Rounding of an exact value to a binary format, once (R15, R31). -/
def roundIeee (f : IeeeFmt) (mode : Mode) (sat : Bool) : Val → Nat
  | .nan => f.nanCode
  | .inf neg =>
    if sat then f.sign neg + f.maxFinite
    else match f.infCode with
      | some i => f.sign neg + i
      | none => f.nanCode
  | .fin neg num den =>
    if num = 0 then f.sign neg
    else
      let emin : Int := 1 - (f.bias : Int)
      let t := floorLog2 num den
      let e := if t < emin then emin else t
      let unit : Int := e - f.fbits
      let m := roundQuotient mode neg (num * 2 ^ (-unit).toNat) (den * 2 ^ unit.toNat)
      let mag := if m < 2 ^ f.fbits then m else (e + f.bias).toNat * 2 ^ f.fbits + (m - 2 ^ f.fbits)
      if mag > f.maxFinite then overflowIeee f mode sat neg else f.sign neg + mag

/-- A tapered format (R18). -/
structure TapFmt where
  n : Nat
  es : Nat
  deriving DecidableEq, Repr

/-- The format of type codes 12 to 14. -/
def tapFmt (t : Nat) : TapFmt :=
  match t with
  | 12 => ⟨8, 0⟩
  | 13 => ⟨16, 1⟩
  | _ => ⟨32, 2⟩

/-- Length of the run of bits equal to b from bit i - 1 of m downward. -/
def runLength (m : Nat) (b : Bool) : Nat → Nat
  | 0 => 0
  | i + 1 => if m.testBit i == b then 1 + runLength m b i else 0

/-- decode_tf of R18. -/
def decodeTap (f : TapFmt) (code : Nat) : Val :=
  let c := code % 2 ^ f.n
  if c = 0 then .fin false 0 1
  else if c = 2 ^ (f.n - 1) then .nan
  else
    let neg := c.testBit (f.n - 1)
    let m := if neg then 2 ^ f.n - c else c
    let b := m.testBit (f.n - 2)
    let len := runLength m b (f.n - 1)
    let k : Int := if b then (len : Int) - 1 else -(len : Int)
    let left := f.n - 1 - len - 1
    let eb := min f.es left
    let fb := left - eb
    let e := m / 2 ^ fb % 2 ^ eb * 2 ^ (f.es - eb)
    let frac := m % 2 ^ fb
    scaled neg (2 ^ fb + frac) (k * (2 ^ f.es : Nat) + e - fb)

/-- round_tf of R19. -/
def roundTap (f : TapFmt) (mode : Mode) : Val → Nat
  | .nan => 2 ^ (f.n - 1)
  | .inf _ => 2 ^ (f.n - 1)
  | .fin neg num den =>
    if num = 0 then 0
    else
      let lim := 2 ^ ((f.n - 2) * 2 ^ f.es)
      let m :=
        if num ≥ den * lim then 2 ^ (f.n - 1) - 1
        else if num * lim ≤ den then 1
        else
          let t := floorLog2 num den
          let k : Int := t / (2 ^ f.es : Nat)
          let e := (t - k * (2 ^ f.es : Nat)).toNat
          let regime := if k ≥ 0 then (2 ^ (k.toNat + 1) - 1) * 2 else 1
          let len := if k ≥ 0 then k.toNat + 2 else (-k).toNat + 1
          let a := num * 2 ^ (-t).toNat
          let b := den * 2 ^ t.toNat
          let sh : Int := (f.n : Int) - 1 - len - f.es
          roundQuotient mode neg (((regime * 2 ^ f.es + e - 1) * b + a) * 2 ^ sh.toNat) (b * 2 ^ (-sh).toNat)
      if neg then 2 ^ f.n - m else m

/-- Value of a sub-element of a float or tapered type. -/
def decodeVal (t c : Nat) : Val :=
  match kindOf t with
  | .ieee => decodeIeee (ieeeFmt t) (c % 2 ^ widthOf t)
  | .tapered => decodeTap (tapFmt t) c
  | _ => Val.ofInt (intOf t c)

/-- An exact value rounded once to a float or tapered type; NaN and NaR by R15 and R20. -/
def roundVal (t : Nat) (mode : Mode) (v : Val) : Nat :=
  match kindOf t with
  | .ieee => roundIeee (ieeeFmt t) mode false v
  | .tapered => roundTap (tapFmt t) mode v
  | _ => 0

/-- An exact value rounded to an integer (R31). -/
def roundInt (mode : Mode) (neg : Bool) (num den : Nat) : Int :=
  let q := roundQuotient mode neg num den
  if neg then -(q : Int) else q

/-- The nearest value of an integer type (R13, R31). -/
def clampInt (t : Nat) (z : Int) : Int := if z < minOf t then minOf t else if z > maxOf t then maxOf t else z

/-! ### Arithmetic on exact values -/

/-- Negation. -/
def Val.neg : Val → Val
  | .nan => .nan
  | .inf s => .inf (!s)
  | .fin s n d => .fin (!s) n d

/-- Magnitude. -/
def Val.abs : Val → Val
  | .nan => .nan
  | .inf _ => .inf false
  | .fin _ n d => .fin false n d

/-- Signed numerator. -/
def signedNum (neg : Bool) (n : Nat) : Int := if neg then -(n : Int) else n

/-- Exact sum. A zero sum is +0, or -0 under RM, and keeps the common sign of two zeros of one sign (R114). -/
def Val.add (mode : Mode) : Val → Val → Val
  | .nan, _ => .nan
  | _, .nan => .nan
  | .inf a, .inf b => if a = b then .inf a else .nan
  | .inf a, .fin _ _ _ => .inf a
  | .fin _ _ _, .inf b => .inf b
  | .fin s n d, .fin s' n' d' =>
    let z := signedNum s (n * d') + signedNum s' (n' * d)
    if z = 0 then
      (if n = 0 ∧ n' = 0 ∧ s = s' then .fin s 0 1 else .fin (mode = .rm) 0 1)
    else .fin (z < 0) z.natAbs (d * d')

/-- Exact product; 0 times an infinity is NaN. -/
def Val.mul : Val → Val → Val
  | .nan, _ => .nan
  | _, .nan => .nan
  | .inf a, .inf b => .inf (a != b)
  | .inf a, .fin s n _ => if n = 0 then .nan else .inf (a != s)
  | .fin s n _, .inf b => if n = 0 then .nan else .inf (s != b)
  | .fin s n d, .fin s' n' d' => .fin (s != s') (n * n') (d * d')

/-- Order of two values neither of which is NaN; -0 and +0 are equal. -/
def Val.cmp : Val → Val → Ordering
  | .inf a, .inf b => compare (!a) (!b)
  | .inf a, _ => if a then .lt else .gt
  | _, .inf b => if b then .gt else .lt
  | .fin s n d, .fin s' n' d' => compare (signedNum s (n * d')) (signedNum s' (n' * d))
  | _, _ => .eq

/-- Quotient by IEEE 754; the tapered rule x / 0 = NaR is R20's. -/
def Val.div (tapered : Bool) : Val → Val → Val
  | .nan, _ => .nan
  | _, .nan => .nan
  | .inf _, .inf _ => .nan
  | .inf a, .fin s _ _ => .inf (a != s)
  | .fin s _ _, .inf b => .fin (s != b) 0 1
  | .fin s n d, .fin s' n' d' =>
    if n' = 0 then (if tapered || n == 0 then .nan else .inf (s != s')) else .fin (s != s') (n * d') (d * n')

/-- Comparison conditions of R110. -/
inductive Cond where
  | eq
  | ne
  | lt
  | le
  | gt
  | ge
  | un
  deriving DecidableEq, Repr

/-- A condition code; 7 is none. -/
def condOfCode : Nat → Option Cond
  | 0 => some .eq
  | 1 => some .ne
  | 2 => some .lt
  | 3 => some .le
  | 4 => some .gt
  | 5 => some .ge
  | 6 => some .un
  | _ => none

/-- Whether an order meets a condition. -/
def Cond.holds (c : Cond) (o : Ordering) : Bool :=
  match c with
  | .eq => o == .eq
  | .ne => o != .eq
  | .lt => o == .lt
  | .le => o != .gt
  | .gt => o == .gt
  | .ge => o != .lt
  | .un => false

/-- CMP of two sub-elements (R110; R17 for IEEE, R21 for tapered). -/
def compareSub (t : Nat) (c : Cond) (x y : Nat) : Bool :=
  match kindOf t with
  | .ieee =>
    match decodeVal t x, decodeVal t y with
    | .nan, _ => c == .ne || c == .un
    | _, .nan => c == .ne || c == .un
    | a, b => c.holds (a.cmp b)
  | .tapered => c.holds (compare (signedOf (widthOf t) x) (signedOf (widthOf t) y))
  | _ => c.holds (compare (intOf t x) (intOf t y))

/-- Sign of a value that is not NaN. -/
def Val.isNeg : Val → Bool
  | .nan => false
  | .inf s => s
  | .fin s _ _ => s

/-- MIN (least = true) and MAX of float and tapered codes (R17, R22). -/
def minMaxFloat (t : Nat) (least : Bool) (x y : Nat) : Nat :=
  match kindOf t with
  | .ieee =>
    match decodeVal t x, decodeVal t y with
    | .nan, .nan => (ieeeFmt t).nanCode
    | .nan, _ => y
    | _, .nan => x
    | a, b =>
      let first := match a.cmp b with
        | .lt => true
        | .gt => false
        | .eq => a.isNeg
      if first == least then x else y
  | _ =>
    let w := widthOf t
    if x = 2 ^ (w - 1) ∨ y = 2 ^ (w - 1) then 2 ^ (w - 1)
    else if (decide (signedOf w x ≤ signedOf w y)) == least then x else y

/-- MIN and MAX of integer codes. -/
def minMaxInt (t : Nat) (least : Bool) (x y : Nat) : Nat :=
  if (decide (intOf t x ≤ intOf t y)) == least then x else y

/-- Negation of a code (R114). -/
def negFloat (t x : Nat) : Nat :=
  match kindOf t with
  | .ieee => match decodeVal t x with
    | .nan => (ieeeFmt t).nanCode
    | _ => Nat.xor x (2 ^ (widthOf t - 1))
  | _ => (2 ^ widthOf t - x) % 2 ^ widthOf t

/-- Magnitude of a code (R114). -/
def absFloat (t x : Nat) : Nat :=
  match kindOf t with
  | .ieee => match decodeVal t x with
    | .nan => (ieeeFmt t).nanCode
    | _ => x % 2 ^ (widthOf t - 1)
  | _ => if x ≥ 2 ^ (widthOf t - 1) then (2 ^ widthOf t - x) % 2 ^ widthOf t else x

/-- RINT: the integral value in the mode in force, the sign of a zero result kept (R114). -/
def rintVal (mode : Mode) : Val → Val
  | .fin s n d => .fin s (roundQuotient mode s n d) 1
  | v => v

/-- TEST's class mask against a code (R113). -/
def classMatches (t mask x : Nat) : Bool :=
  let v := decodeVal t x
  let nonNan := v != .nan
  let zero := match v with
    | .fin _ n _ => n == 0
    | _ => false
  let infinite := match v with
    | .inf _ => true
    | _ => false
  let negative := nonNan && x.testBit (widthOf t - 1)
  let subnormal := kindOf t == .ieee && !zero &&
    (x / 2 ^ (ieeeFmt t).fbits % 2 ^ (ieeeFmt t).ebits == 0)
  (mask.testBit 0 && zero) || (mask.testBit 1 && negative) || (mask.testBit 2 && nonNan && !negative) ||
  (mask.testBit 3 && !nonNan) || (mask.testBit 4 && infinite) || (mask.testBit 5 && subnormal)

/-! ### Conversion -/

/-- A value converted to a binary format. A NaN gives the canonical NaN, a tapered or integer zero +0 (R31). -/
def toIeee (f : IeeeFmt) (mode : Mode) (sat : Bool) (v : Val) : Nat := roundIeee f mode sat v

/-- Conversion of one sub-element from type s to type d (R31, R32). To the same type it is the identity, but that the saturating form
replaces an infinity there too (R31; the model's reading of its list beside its table, log 58). -/
def convert (d s : Nat) (mode : Mode) (sat : Bool) (x : Nat) : Nat :=
  let w := widthOf d
  if kindOf d = .bits ∨ kindOf s = .bits then x % 2 ^ w
  else match kindOf s with
    | .int | .nat =>
      let z := intOf s x
      match kindOf d with
      | .int | .nat => lowBits w (if sat then clampInt d z else z)
      | .ieee => toIeee (ieeeFmt d) mode sat (Val.ofInt z)
      | _ => roundTap (tapFmt d) mode (Val.ofInt z)
    | _ =>
      let v := decodeVal s x
      if s = d ∧ !(sat && kindOf d == .ieee && (v == .inf true || v == .inf false)) then (if kindOf d = .ieee ∧ v = .nan then (ieeeFmt d).nanCode else x)
      else match kindOf d with
        | .int | .nat =>
          match v with
          | .nan => 0
          | .inf neg => lowBits w (if neg then minOf d else maxOf d)
          | .fin neg n den => lowBits w (clampInt d (roundInt mode neg n den))
        | .ieee => toIeee (ieeeFmt d) mode sat v
        | _ => roundTap (tapFmt d) mode v

/-- Conversion of one sub-element to E4M3 (format 0) or E5M2 (format 1) (R31, R117). -/
def convertFp8 (e5m2 : Bool) (s : Nat) (mode : Mode) (sat : Bool) (x : Nat) : Nat :=
  toIeee (if e5m2 then fmtE5M2 else fmtE4M3) mode sat (decodeVal s x)

/-! ### The exact accumulator -/

/-- The sticky code (R23). -/
def stickyCode : Nat := 2 ^ 127

/-- An element plus a multiple of 2^-56, both read as in R23; a sum outside the range is the sticky code (R25). -/
def exactAdd (a : Nat) (p : Option Int) : Nat :=
  if a = stickyCode then stickyCode
  else match p with
    | none => stickyCode
    | some z =>
      let sum := signedOf 128 a + z
      if sum.natAbs > 2 ^ 127 - 1 then stickyCode else lowBits 128 sum

/-- read_exact of R26. -/
def readExact (t : Nat) (mode : Mode) (a : Nat) : Nat :=
  if a = stickyCode then roundVal t mode .nan
  else
    let z := signedOf 128 a
    roundVal t mode (.fin (z < 0) z.natAbs (2 ^ 56))

end Sys2Proof.Machine
end

