-- ==== Sys2Proof/Machine/NMap.lean ====
section
/-! DEFINITION. Operations on sparse maps: association lists in strictly rising key order. `store` keeps in addition the
canonical form of a map with a default: no entry equal to what an unlisted key reads as. -/

namespace Sys2Proof.Machine

/-- The entry of a key. -/
def NMap.find {α : Type} : NMap α → Nat → Option α
  | [], _ => none
  | (k, v) :: rest, key => if k = key then some v else NMap.find rest key

/-- The entry of a key, or what an unlisted key reads as. -/
def NMap.get {α : Type} (m : NMap α) (d : α) (key : Nat) : α := (NMap.find m key).getD d

/-- Sets the entry of a key. -/
def NMap.put {α : Type} : NMap α → Nat → α → NMap α
  | [], key, x => [(key, x)]
  | (k, v) :: rest, key, x =>
    if key < k then (key, x) :: (k, v) :: rest
    else if key = k then (key, x) :: rest
    else (k, v) :: NMap.put rest key x

/-- Takes the entry of a key out. -/
def NMap.del {α : Type} (m : NMap α) (key : Nat) : NMap α := m.filter fun e => e.1 != key

/-- Sets the entry of a key, a value equal to the default taking the entry out. -/
def NMap.store {α : Type} [DecidableEq α] (m : NMap α) (d : α) (key : Nat) (x : α) : NMap α :=
  if x = d then NMap.del m key else NMap.put m key x

/-- Keys rise strictly, and all are above a bound. -/
def NMap.risesFrom {α : Type} : Nat → NMap α → Bool
  | _, [] => true
  | lo, (k, _) :: rest => decide (lo ≤ k) && NMap.risesFrom (k + 1) rest

/-- Keys rise strictly. -/
def NMap.rises {α : Type} (m : NMap α) : Bool := NMap.risesFrom 0 m

/-- The keys. -/
def NMap.keys {α : Type} (m : NMap α) : List Nat := m.map Prod.fst

/-- The entries whose keys and values pass a test. -/
def NMap.keep {α : Type} (m : NMap α) (p : Nat → α → Bool) : NMap α := m.filter fun e => p e.1 e.2

/-- Many settings, in list order. -/
def NMap.storeAll {α : Type} [DecidableEq α] (m : NMap α) (d : α) (l : List (Nat × α)) : NMap α :=
  l.foldl (fun m e => NMap.store m d e.1 e.2) m

/-- Changes an entry. -/
def NMap.change {α : Type} (m : NMap α) (d : α) (key : Nat) (f : α → α) : NMap α := NMap.put m key (f (NMap.get m d key))

/-- Changes an entry where it stands. -/
def NMap.changeIf {α : Type} (m : NMap α) (key : Nat) (f : α → α) : NMap α :=
  match NMap.find m key with
  | some v => NMap.put m key (f v)
  | none => m

end Sys2Proof.Machine
end

