-- ==== Sys2Proof/Config.lean ====
section
/-! DEFINITION. What an implementation fixes and what the spec leaves open. An `opaque` constant has no
body here: no proof can use a value of it. -/

namespace Sys2Proof.Config

/-- Free value of a scratchpad byte that nothing has written since its allotment (R192: "Its contents
are undefined at creation"): the stamp is the allotment's, drawn from the free-value counter. Log 6. -/
opaque scratchByte (stamp offset : Nat) : Byte

/-- SHA-256 of the firmware image, of the Almanac bitstream and of the fuse configuration (R392). Log 9. -/
opaque firmwareDigest : BitVec 256
/-- See `firmwareDigest`. -/
opaque bitstreamDigest : BitVec 256
/-- See `firmwareDigest`. -/
opaque fuseDigest : BitVec 256
/-- Byte i of the SLH-DSA-SHA2-128s signature over the 144 report bytes, made with a key that never
leaves the package (R392). Log 9. -/
opaque signatureByte (report : List Byte) (i : Nat) : Byte
/-- The CRC-32 of a flit's first 68 bytes (R387); the spec names no polynomial. Log 10. -/
opaque flitCrc (bytes : List Byte) : BitVec 32

/-- Whether a die's firmware image and Almanac bitstream verify at a start (R391 steps 1 and 5). Log 9. -/
opaque imageVerifies (die : Nat) : Bool

/-- RATIO of CSTALL where every executed cycle was a memory stall: 256 does not fit its eight bits (R302). Log 14. -/
opaque fullRatio : BitVec 8

/-- Line transfers that an HBM4E stack has in a window of 1 microsecond (R323); the spec gives only a rate in round figures. Log 17. -/
opaque windowTransfers : Nat

/-- The row of its HBM4E stack that holds a byte, and the spare rows of a stack (R394); the spec gives no geometry. Log 43. -/
opaque hbmRowOf (place : Nat) : Nat
/-- See `hbmRowOf`. -/
opaque hbmSpares (stack : Nat) : Nat

/-- What SUBW of an N type of width w writes where d < a (R106): the exact difference is negative, no natural of width 2w is it, and the
widening forms neither wrap nor saturate (R13, R106). Log 57. -/
opaque subwBelow (w d a : Nat) : Nat

/-- Core cycles that a TLD, TST, ZLD or ZST takes beyond its busy ones: those of R141 for where its data lies, which R141 does not promise
(R227). The argument counts such operations. Log 65. -/
opaque transferLatency (n : Nat) : Nat

/-- Whether a lost flit group touches a packet of a link transfer (R388, R389): the transfer stands at a place of a link ring's list of those sent;
the first argument counts such losses. Log 45. -/
opaque groupTouches (n ring place : Nat) : Bool

/-- Which line of its set a failed L2 way held, as a place in the set's 16 ways (R334); the spec says of no line which way it takes. The
argument counts such verdicts. Log 16. -/
opaque lineOfWay (n : Nat) : Nat

/-- cr.laneremap as the fuses give it at core reset (R187): no lane fused off. Log 7. -/
def fuseRemap : BitVec 64 := 0x00000000007F7F00#64

end Sys2Proof.Config
end

