-- ==== Sys2Proof/Syntax.lean ====
section
/-! DEFINITION. The instructions of spec/opcode_table.json, one constructor per row and in its order: 158 words
(the fields of the word, as wide as the table gives them) and 85 hardware and host events (what the event is about
and what its sensors or its record give). -/

namespace Sys2Proof

/-- One row of the opcode table. -/
inductive Instr where
  /-- ILLEGAL (R66): SYS sub-op 0, including the all-zero word, always raises the illegal-instruction trap. -/
  | illegal (i : BitVec 21)
  /-- NOP (R161): No operation; imm21 is ignored. -/
  | nop (x : BitVec 21)
  /-- SYSCALL (R162): Closes both slots' windows, parks the issuing slot and sends a system-call record to the host. -/
  | syscall (c : BitVec 21)
  /-- CRRD (R161): Reads a control register into v(d) of every lane of the slot. -/
  | crrd (d : BitVec 6) (n : BitVec 8)
  /-- CRWR (R161): Writes a control register, per lane or from the lowest lane of the slot. -/
  | crwr (s : BitVec 6) (n : BitVec 8)
  /-- ENQ (R164): Device-side launch: checks the record address and queue, then releases at scope and sends the record to the queue's descriptor home slice. -/
  | enq (a : BitVec 6) (q : BitVec 15)
  /-- HIMM (R69): IMM hint supplying the low 24 bits of a wide immediate for the next instruction of its slot. -/
  | himm (i : BitVec 24)
  /-- HIMMHI (R69): IMMHI hint supplying bits [47:24] or [63:48] of a wide immediate. -/
  | himmhi (i : BitVec 24)
  /-- HMOD (R70): MOD hint selecting rounding, saturation, guard negation, scope and cache policy for the bound instruction. -/
  | hmod (e : BitVec 1) (r : BitVec 3) (s : BitVec 1) (n : BitVec 1) (x : BitVec 1) (o : BitVec 3) (c : BitVec 1) (k : BitVec 3)
  /-- HSCHED (R71): SCHED hint carrying YIELD and the lookahead of an SFU instruction. -/
  | hsched (y : BitVec 1) (l : BitVec 4)
  /-- HOFF (R72): OFFSET hint adding a signed 24-bit byte offset to the base address. -/
  | hoff (o : BitVec 24)
  /-- BRA (R132): Unguarded branch taking every lane of the slot to the target. -/
  | bra (o : BitVec 24)
  /-- BRA_GUARDED (R132): Guarded branch whose predicate lanes are taken, splitting the slot by R37 when both sides are non-empty. -/
  | braGuarded (p : BitVec 3) (o : BitVec 21)
  /-- BRA_ANY (R132): Whole slot branches if any lane of the slot has its predicate set. -/
  | braAny (p : BitVec 3) (o : BitVec 21)
  /-- BRA_ALL (R132): Whole slot branches if every lane of the slot has its predicate set. -/
  | braAll (p : BitVec 3) (o : BitVec 21)
  /-- RECONV (R39): Arms join entry k with the slot's mask, join address and current depth. -/
  | reconv (k : BitVec 4) (o : BitVec 20)
  /-- JOIN (R39): Records the slot's lanes as arrived at join entry k and empties the slot. -/
  | join (k : BitVec 4)
  /-- EXIT (R135): Ends the lanes its predicate names, removing them from join entries. -/
  | exit (p : BitVec 3)
  /-- BRX (R133): Branches the active lanes that share the lowest active lane's register target, one target per execution. -/
  | brx (t : BitVec 6) (p : BitVec 3)
  /-- CALL (R137): Calls with a declared demand, holding the other slot and waiting for the callee's new granules. -/
  | call (d : BitVec 6) (o : BitVec 21)
  /-- IALU_ADD (R105): Integer add per sub-element, wrapping or saturating. -/
  | ialuAdd (t : BitVec 3) (d : BitVec 6) (a : BitVec 6) (b : BitVec 6) (p : BitVec 3)
  /-- IALU_SUB (R105): Integer subtract per sub-element. -/
  | ialuSub (t : BitVec 3) (d : BitVec 6) (a : BitVec 6) (b : BitVec 6) (p : BitVec 3)
  /-- IALU_MUL (R105): Integer multiply keeping the low w bits. -/
  | ialuMul (t : BitVec 3) (d : BitVec 6) (a : BitVec 6) (b : BitVec 6) (p : BitVec 3)
  /-- IALU_MIN (R105): d := min(d, a) for integers. -/
  | ialuMin (t : BitVec 3) (d : BitVec 6) (a : BitVec 6) (p : BitVec 3)
  /-- IALU_MAX (R105): d := max(d, a) for integers. -/
  | ialuMax (t : BitVec 3) (d : BitVec 6) (a : BitVec 6) (p : BitVec 3)
  /-- IALU_NEG (R105): Integer negate of a. -/
  | ialuNeg (t : BitVec 3) (d : BitVec 6) (a : BitVec 6) (p : BitVec 3)
  /-- IALU_ABS (R105): Integer absolute value of a. -/
  | ialuAbs (t : BitVec 3) (d : BitVec 6) (a : BitVec 6) (p : BitVec 3)
  /-- ABSDIFF (R105): d := |d - a|. -/
  | absdiff (t : BitVec 3) (d : BitVec 6) (a : BitVec 6) (p : BitVec 3)
  /-- AVG (R105): d := floor((d + a + 1) / 2). -/
  | avg (t : BitVec 3) (d : BitVec 6) (a : BitVec 6) (p : BitVec 3)
  /-- MULHI (R105): d := high w bits of d × a. -/
  | mulhi (t : BitVec 3) (d : BitVec 6) (a : BitVec 6) (p : BitVec 3)
  /-- MULW (R106): Widening multiply into the register pair d, d+1. -/
  | mulw (t : BitVec 3) (d : BitVec 6) (a : BitVec 6) (p : BitVec 3)
  /-- ADDW (R106): Widening add into a register pair. -/
  | addw (t : BitVec 3) (d : BitVec 6) (a : BitVec 6) (p : BitVec 3)
  /-- SUBW (R106): Widening subtract into a register pair. -/
  | subw (t : BitVec 3) (d : BitVec 6) (a : BitVec 6) (p : BitVec 3)
  /-- IALUI_ADD (R105): Unguarded integer add of a short or wide immediate. -/
  | ialuiAdd (t : BitVec 3) (d : BitVec 6) (a : BitVec 6) (i : BitVec 11)
  /-- MOV_IMM (R105): Writes a sign-extended or wide immediate to all 64 bits of d. -/
  | movImm (d : BitVec 6) (i : BitVec 11)
  /-- LOP (R107): Bitwise logic on the 64-bit lane value by a 4-bit truth table. -/
  | lop (t : BitVec 4) (d : BitVec 6) (a : BitVec 6) (b : BitVec 6) (p : BitVec 3)
  /-- SHL (R108): Shifts each sub-element left by the count in b. -/
  | shl (t : BitVec 4) (d : BitVec 6) (a : BitVec 6) (b : BitVec 6) (p : BitVec 3)
  /-- SHR (R108): Shifts each sub-element right, arithmetic for I types. -/
  | shr (t : BitVec 4) (d : BitVec 6) (a : BitVec 6) (b : BitVec 6) (p : BitVec 3)
  /-- BFX (R109): Extracts a bit field zero-extended. -/
  | bfx (d : BitVec 6) (a : BitVec 6) (b : BitVec 6) (p : BitVec 3)
  /-- BFXS (R109): Extracts a bit field sign-extended. -/
  | bfxs (d : BitVec 6) (a : BitVec 6) (b : BitVec 6) (p : BitVec 3)
  /-- BFI (R109): Inserts the low bits of a into a field of d. -/
  | bfi (d : BitVec 6) (a : BitVec 6) (b : BitVec 6) (p : BitVec 3)
  /-- POPC (R109): Counts the 1 bits of a. -/
  | popc (d : BitVec 6) (a : BitVec 6) (p : BitVec 3)
  /-- CLZ (R109): Counts leading zeros of a. -/
  | clz (d : BitVec 6) (a : BitVec 6) (p : BitVec 3)
  /-- CTZ (R109): Counts trailing zeros of a. -/
  | ctz (d : BitVec 6) (a : BitVec 6) (p : BitVec 3)
  /-- BREV (R109): Reverses the 64 bits of a. -/
  | brev (d : BitVec 6) (a : BitVec 6) (p : BitVec 3)
  /-- ROL (R109): Rotates a left by b mod 64. -/
  | rol (d : BitVec 6) (a : BitVec 6) (b : BitVec 6) (p : BitVec 3)
  /-- ROR (R109): Rotates a right by b mod 64. -/
  | ror (d : BitVec 6) (a : BitVec 6) (b : BitVec 6) (p : BitVec 3)
  /-- LOPI (R107): Truth-table logic with an immediate as b. -/
  | lopi (t : BitVec 4) (d : BitVec 6) (a : BitVec 6) (i : BitVec 11)
  /-- CMP (R110): Compares a and b per sub-element into a predicate. -/
  | cmp (t : BitVec 4) (c : BitVec 3) (q : BitVec 3) (a : BitVec 6) (b : BitVec 6) (p : BitVec 3)
  /-- SEL (R111): Selects a or b per sub-element by a predicate. -/
  | sel (t : BitVec 4) (d : BitVec 6) (a : BitVec 6) (b : BitVec 6) (p : BitVec 3)
  /-- PLOP (R112): Combines two predicates bit by bit through a truth table. -/
  | plop (t : BitVec 4) (d : BitVec 3) (a : BitVec 3) (b : BitVec 3) (p : BitVec 3)
  /-- TEST (R113): Sets a predicate from the class of a float or tapered value. -/
  | test (t : BitVec 3) (q : BitVec 3) (a : BitVec 6) (m : BitVec 6) (p : BitVec 3)
  /-- CMPI (R110): Unguarded compare against an immediate. -/
  | cmpi (t : BitVec 4) (c : BitVec 3) (q : BitVec 3) (a : BitVec 6) (i : BitVec 11)
  /-- FALU_ADD (R114): Float or tapered add rounded once. -/
  | faluAdd (t : BitVec 3) (d : BitVec 6) (a : BitVec 6) (b : BitVec 6) (p : BitVec 3)
  /-- FALU_SUB (R114): Float or tapered subtract rounded once. -/
  | faluSub (t : BitVec 3) (d : BitVec 6) (a : BitVec 6) (b : BitVec 6) (p : BitVec 3)
  /-- FALU_MUL (R114): Float or tapered multiply rounded once. -/
  | faluMul (t : BitVec 3) (d : BitVec 6) (a : BitVec 6) (b : BitVec 6) (p : BitVec 3)
  /-- FALU_MIN (R114): Float or tapered minimum of d and a. -/
  | faluMin (t : BitVec 3) (d : BitVec 6) (a : BitVec 6) (p : BitVec 3)
  /-- FALU_MAX (R114): Float or tapered maximum of d and a. -/
  | faluMax (t : BitVec 3) (d : BitVec 6) (a : BitVec 6) (p : BitVec 3)
  /-- FALU_NEG (R114): Float or tapered negation of a. -/
  | faluNeg (t : BitVec 3) (d : BitVec 6) (a : BitVec 6) (p : BitVec 3)
  /-- FALU_ABS (R114): Float or tapered absolute value of a. -/
  | faluAbs (t : BitVec 3) (d : BitVec 6) (a : BitVec 6) (p : BitVec 3)
  /-- RINT (R114): Rounds a to an integral value in the mode in force. -/
  | rint (t : BitVec 3) (d : BitVec 6) (a : BitVec 6) (p : BitVec 3)
  /-- FMA (R115): Fused a × b + d rounded once. -/
  | fma (t : BitVec 3) (d : BitVec 6) (a : BitVec 6) (b : BitVec 6) (p : BitVec 3)
  /-- MAD (R115): Integer multiply-add a × b + d. -/
  | mad (t : BitVec 3) (d : BitVec 6) (a : BitVec 6) (b : BitVec 6) (p : BitVec 3)
  /-- FMS (R115): Fused a × b − d rounded once. -/
  | fms (t : BitVec 3) (d : BitVec 6) (a : BitVec 6) (b : BitVec 6) (p : BitVec 3)
  /-- FNMA (R115): Fused −(a × b) + d rounded once. -/
  | fnma (t : BitVec 3) (d : BitVec 6) (a : BitVec 6) (b : BitVec 6) (p : BitVec 3)
  /-- DOT4 (R116): Two four-way byte dot products accumulated into the words of d. -/
  | dot4 (t : BitVec 4) (d : BitVec 6) (a : BitVec 6) (b : BitVec 6) (p : BitVec 3)
  /-- CVT (R117): Converts each source sub-element to the destination type by R31 or R32. -/
  | cvt (t : BitVec 4) (d : BitVec 6) (a : BitVec 6) (s : BitVec 4) (p : BitVec 3)
  /-- CVT_FP8 (R117): Converts each source sub-element to E4M3 or E5M2 bytes. -/
  | cvtFp8 (f : BitVec 1) (d : BitVec 6) (a : BitVec 6) (s : BitVec 4) (p : BitVec 3)
  /-- ROUTE_PICK (R119): Every element takes the element at an absolute number, or the same sub-element of a named lane. -/
  | routePick (t : BitVec 4) (d : BitVec 6) (a : BitVec 6) (b : BitVec 6) (p : BitVec 3)
  /-- ROUTE_SLIDE (R119): Every element takes the element a signed distance away, keeping its own past the ends. -/
  | routeSlide (t : BitVec 4) (d : BitVec 6) (a : BitVec 6) (b : BitVec 6) (p : BitVec 3)
  /-- ROUTE_ROT (R119): Every element takes the element a distance away modulo the element count. -/
  | routeRot (t : BitVec 4) (d : BitVec 6) (a : BitVec 6) (b : BitVec 6) (p : BitVec 3)
  /-- ROUTE_FLIP (R119): Every element takes the element whose number differs by an exclusive or. -/
  | routeFlip (t : BitVec 4) (d : BitVec 6) (a : BitVec 6) (b : BitVec 6) (p : BitVec 3)
  /-- VOTE (R120): Combines bit 0 of a predicate over the active lanes into every active lane. -/
  | vote (o : BitVec 2) (d : BitVec 6) (q : BitVec 3) (p : BitVec 3)
  /-- REDUCE (R121): Fixed-tree reduction over the active lanes per sub-element position. -/
  | reduce (t : BitVec 4) (d : BitVec 6) (a : BitVec 6) (o : BitVec 3) (p : BitVec 3)
  /-- SCAN (R122): Inclusive or exclusive prefix over the participating lanes in ascending order. -/
  | scan (t : BitVec 4) (d : BitVec 6) (a : BitVec 6) (x : BitVec 1) (o : BitVec 3) (p : BitVec 3)
  /-- MATCH (R123): Gives each active lane the mask of active lanes holding an equal 64-bit value. -/
  | matchB64 (d : BitVec 6) (a : BitVec 6) (p : BitVec 3)
  /-- RCP (R125): Reciprocal on the pipe's SFU, rounded once, with deferred write. -/
  | rcp (t : BitVec 3) (d : BitVec 6) (a : BitVec 6) (p : BitVec 3)
  /-- RSQRT (R125): Reciprocal square root on the SFU. -/
  | rsqrt (t : BitVec 3) (d : BitVec 6) (a : BitVec 6) (p : BitVec 3)
  /-- SQRT (R125): Square root on the SFU. -/
  | sqrt (t : BitVec 3) (d : BitVec 6) (a : BitVec 6) (p : BitVec 3)
  /-- EXP2 (R125): Base-2 exponential on the SFU. -/
  | exp2 (t : BitVec 3) (d : BitVec 6) (a : BitVec 6) (p : BitVec 3)
  /-- LOG2 (R125): Base-2 logarithm on the SFU. -/
  | log2 (t : BitVec 3) (d : BitVec 6) (a : BitVec 6) (p : BitVec 3)
  /-- SIN (R125): Sine in radians on the SFU. -/
  | sin (t : BitVec 3) (d : BitVec 6) (a : BitVec 6) (p : BitVec 3)
  /-- COS (R125): Cosine in radians on the SFU. -/
  | cos (t : BitVec 3) (d : BitVec 6) (a : BitVec 6) (p : BitVec 3)
  /-- TANH (R125): Hyperbolic tangent on the SFU. -/
  | tanh (t : BitVec 3) (d : BitVec 6) (a : BitVec 6) (p : BitVec 3)
  /-- DIV (R125): Float or tapered division on the SFU. -/
  | div (t : BitVec 3) (d : BitVec 6) (a : BitVec 6) (b : BitVec 6) (p : BitVec 3)
  /-- IDIV (R126): Integer quotient truncated toward zero on the SFU. -/
  | idiv (t : BitVec 3) (d : BitVec 6) (a : BitVec 6) (b : BitVec 6) (p : BitVec 3)
  /-- IREM (R126): Integer remainder with the sign of a on the SFU. -/
  | irem (t : BitVec 3) (d : BitVec 6) (a : BitVec 6) (b : BitVec 6) (p : BitVec 3)
  /-- LD (R143): Checks addresses, raises LD and opens a lookahead window for a per-lane load. -/
  | ld (l : BitVec 4) (d : BitVec 6) (b : BitVec 6) (p : BitVec 3) (w : BitVec 3)
  /-- LDA (R145): Acquire load at the scope in its sub-op. -/
  | lda (l : BitVec 4) (d : BitVec 6) (b : BitVec 6) (p : BitVec 3) (w : BitVec 3) (s : BitVec 3)
  /-- ST (R144): Checks addresses and data poison, raises ST and writes the low bytes of each active lane. -/
  | st (s : BitVec 6) (b : BitVec 6) (p : BitVec 3) (w : BitVec 2)
  /-- STR (R145): Release store performed after every earlier access of the group at its scope. -/
  | str (s : BitVec 6) (b : BitVec 6) (p : BitVec 3) (w : BitVec 2) (c : BitVec 3)
  /-- ATOM_ADD (R148): Atomic add per active lane, returning the old value. -/
  | atomAdd (l : BitVec 4) (d : BitVec 6) (b : BitVec 6) (p : BitVec 3) (o : BitVec 2) (s : BitVec 1)
  /-- ATOM_MIN_I (R148): Atomic signed minimum. -/
  | atomMinI (l : BitVec 4) (d : BitVec 6) (b : BitVec 6) (p : BitVec 3) (o : BitVec 2) (s : BitVec 1)
  /-- ATOM_MAX_I (R148): Atomic signed maximum. -/
  | atomMaxI (l : BitVec 4) (d : BitVec 6) (b : BitVec 6) (p : BitVec 3) (o : BitVec 2) (s : BitVec 1)
  /-- ATOM_MIN_N (R148): Atomic unsigned minimum. -/
  | atomMinN (l : BitVec 4) (d : BitVec 6) (b : BitVec 6) (p : BitVec 3) (o : BitVec 2) (s : BitVec 1)
  /-- ATOM_MAX_N (R148): Atomic unsigned maximum. -/
  | atomMaxN (l : BitVec 4) (d : BitVec 6) (b : BitVec 6) (p : BitVec 3) (o : BitVec 2) (s : BitVec 1)
  /-- ATOM_AND (R148): Atomic bitwise and. -/
  | atomAnd (l : BitVec 4) (d : BitVec 6) (b : BitVec 6) (p : BitVec 3) (o : BitVec 2) (s : BitVec 1)
  /-- ATOM_OR (R148): Atomic bitwise or. -/
  | atomOr (l : BitVec 4) (d : BitVec 6) (b : BitVec 6) (p : BitVec 3) (o : BitVec 2) (s : BitVec 1)
  /-- ATOM_XOR (R148): Atomic bitwise exclusive or. -/
  | atomXor (l : BitVec 4) (d : BitVec 6) (b : BitVec 6) (p : BitVec 3) (o : BitVec 2) (s : BitVec 1)
  /-- ATOM_XCHG (R148): Atomic exchange. -/
  | atomXchg (l : BitVec 4) (d : BitVec 6) (b : BitVec 6) (p : BitVec 3) (o : BitVec 2) (s : BitVec 1)
  /-- ATOM_CAS (R148): Atomic compare with v(d) and swap in v(d+1). -/
  | atomCas (l : BitVec 4) (d : BitVec 5) (b : BitVec 6) (p : BitVec 3) (o : BitVec 2) (s : BitVec 1)
  /-- ATOM_FADD (R148): Atomic F32 add rounded in RN. -/
  | atomFadd (l : BitVec 4) (d : BitVec 6) (b : BitVec 6) (p : BitVec 3) (o : BitVec 2)
  /-- FENCE (R150): Closes windows and waits until every earlier access of the group is performed at its scope. -/
  | fence (s : BitVec 3)
  /-- WAIT (R151): Stalls the slot until a path's in-flight counter is at most a threshold. -/
  | wait (t : BitVec 6) (h : BitVec 3)
  /-- POP (R157): Consumes the head entry of a load queue into v(d), stalling until it is FULL. -/
  | pop (d : BitVec 6) (n : BitVec 2) (p : BitVec 3)
  /-- PUSH (R157): Fills the next free entry of a store queue with active bytes and a byte mask. -/
  | push (s : BitVec 6) (n : BitVec 2) (p : BitVec 3)
  /-- QLD (R154): Access stream: checks, reserves a queue entry and fills it from a shape. -/
  | qld (i : BitVec 4) (n : BitVec 2) (k : BitVec 4)
  /-- QST (R154): Access stream: binds the oldest pushed entry and writes it through a shape once FULL. -/
  | qst (i : BitVec 4) (n : BitVec 2) (k : BitVec 4)
  /-- YOP_REG (R155): Access-stream scalar arithmetic on two y registers. -/
  | yopReg (d : BitVec 4) (a : BitVec 4) (o : BitVec 4) (b : BitVec 4)
  /-- YOP_IMM (R155): Access-stream scalar arithmetic with a 9-bit immediate. -/
  | yopImm (d : BitVec 4) (a : BitVec 4) (o : BitVec 4) (i : BitVec 9)
  /-- YOP_HRD (R155): Access stream reads a shape-register field into a y register. -/
  | yopHrd (d : BitVec 4) (a : BitVec 4) (s : BitVec 4)
  /-- YOP_HWAIT (R155): Access stream stalls until a shape register's RANK is nonzero. -/
  | yopHwait (a : BitVec 4)
  /-- YBR (R156): Access stream compares two y registers and branches. -/
  | ybr (a : BitVec 4) (b : BitVec 4) (c : BitVec 3) (o : BitVec 11)
  /-- ADONE (R156): Sets the access stream DONE. -/
  | adone
  /-- HRD (R159): Reads a shape-register field into v(d) of active lanes. -/
  | hrd (d : BitVec 6) (k : BitVec 4) (p : BitVec 3) (s : BitVec 4)
  /-- HWR (R159): Writes a shape-register field from the lowest active lane. -/
  | hwr (d : BitVec 6) (k : BitVec 4) (p : BitVec 3) (s : BitVec 4)
  /-- TCFG (R208): Writes a tile configuration word after earlier users of the old one. -/
  | tcfg (t : BitVec 3) (s : BitVec 6)
  /-- TLD (R214): Checks and loads the rows of a tile from memory. -/
  | tld (t : BitVec 3) (b : BitVec 6)
  /-- TST (R214): Checks and stores the rows of a tile to memory. -/
  | tst (t : BitVec 3) (b : BitVec 6)
  /-- TZERO (R215): Clears a tile's configured bytes and their poison. -/
  | tzero (t : BitVec 3)
  /-- TTRANS (R215): Writes the transpose of one tile into another. -/
  | ttrans (d : BitVec 3) (s : BitVec 3)
  /-- MMA (R218): Votes on the format word and queues a matrix multiply-accumulate into an F32 or I32 tile. -/
  | mma (k : BitVec 4) (f : BitVec 6) (a : BitVec 3) (b : BitVec 3)
  /-- MMA_EXACT (R219): Tapered products added exactly into an exact accumulator tile. -/
  | mmaExact (k : BitVec 4) (f : BitVec 6) (a : BitVec 3) (b : BitVec 3)
  /-- MMA_SB (R220): Sand-block products with two-level scaling into an F32 tile. -/
  | mmaSb (k : BitVec 4) (f : BitVec 6) (a : BitVec 3) (b : BitVec 3)
  /-- MMA_WIDE (R221): F32 product synthesised from BF16 slices. -/
  | mmaWide (k : BitVec 4) (f : BitVec 6) (a : BitVec 3) (b : BitVec 3)
  /-- ZRD (R224): Scales and reads an accumulator tile into a tile, rounding once. -/
  | zrd (k : BitVec 4) (r : BitVec 6) (d : BitVec 3)
  /-- ZCLR (R225): Sets an accumulator tile's kind and zeroes it. -/
  | zclr (k : BitVec 4) (n : BitVec 3)
  /-- ZLD (R226): Sets an accumulator tile's kind and loads its memory image. -/
  | zld (k : BitVec 4) (b : BitVec 6) (n : BitVec 3)
  /-- ZST (R226): Stores an accumulator tile's memory image. -/
  | zst (k : BitVec 4) (b : BitVec 6)
  /-- COPY (R252): Checks a copy record and shapes, then queues a background copy raising CPY. -/
  | copy (r : BitVec 6)
  /-- COPYH (R251): Copy described by two shape registers. -/
  | copyh (d : BitVec 4) (s : BitVec 4)
  /-- GATHER (R253): Copy of source slices selected by per-lane indices. -/
  | gather (i : BitVec 6) (r : BitVec 6) (p : BitVec 3) (w : BitVec 1)
  /-- RECFENCE (R255): Waits for earlier stores at scope, then drops a copy record from record caches. -/
  | recfence (r : BitVec 6)
  /-- BARINIT (R262): Sets a barrier object's mask, clears arrivals and advances its generation. -/
  | barinit (m : BitVec 6) (b : BitVec 6) (k : BitVec 2)
  /-- ARRIVE (R263): Waits for earlier accesses at scope, then arrives at a barrier object and returns the generation. -/
  | arrive (t : BitVec 6) (b : BitVec 6)
  /-- WAITB (R263): Stalls until the object's generation passes the token, then acts as an acquire. -/
  | waitb (t : BitVec 6) (b : BitVec 6)
  /-- BARSYNC (R263): Arrives and waits for the same generation. -/
  | barsync (b : BitVec 6)
  /-- BARMASK (R262): Replaces, adds to or removes from a barrier object's membership mask. -/
  | barmask (m : BitVec 6) (b : BitVec 6) (k : BitVec 2)
  /-- DISCARD (R339): Drops the lines of a range without write-back. -/
  | discard (l : BitVec 6) (b : BitVec 6)
  /-- ADOBEQ (R340): Queries adobe page, slice or context reservation state. -/
  | adobeq (d : BitVec 6) (s : BitVec 6) (p : BitVec 3) (k : BitVec 2)
  /-- TLBINV (R341): Supervisor: invalidates translations of a range, context or all contexts. -/
  | tlbinv (l : BitVec 6) (a : BitVec 6) (k : BitVec 2)
  /-- MAPPG (R342): Supervisor: maps or unmaps one page, returning a result word. -/
  | mappg (d : BitVec 6) (a : BitVec 6) (k : BitVec 3)
  /-- FRET_RESUME (R175): Ends the handler and resumes the stopping slot at cr.tresume. -/
  | fretResume
  /-- FRET_ESCALATE (R175): Ends the handler, keeps the group STOPPED and sends a fault record to the host. -/
  | fretEscalate
  /-- FRET_KILL (R175): Ends the handler and kills the gang, reported. -/
  | fretKill
  /-- FRET_POOL_EMPTY (R175): Escalates to the host with the first-touch-pool-empty record. -/
  | fretPoolEmpty
  /-- BURN (R235): Sets the group's burn request. -/
  | burn (s : BitVec 6) (p : BitVec 3)
  /-- SHUNT (R235): Sets the group's shunt request. -/
  | shunt (s : BitVec 6) (p : BitVec 3)
  /-- BALRD (R236): Reads cr.bal into active lanes. -/
  | balrd (d : BitVec 6) (p : BitVec 3)
  /-- BALCLASS (R236): Sets the team's balance class. -/
  | balclass (s : BitVec 6) (p : BitVec 3)
  /-- TRAP (R163): Stops the group precisely with a trap code and enters the handler. -/
  | trap (c : BitVec 21)
  /-- BKPT (R176): Breakpoint: stops for a debugger or enters the handler. -/
  | bkpt (g : BitVec 21)
  /-- RET (R138): Returns from the current depth, freeing the frame and refilling the caller's. -/
  | ret
  /-- UNWIND (R139): Returns through several depths at once to depth t. -/
  | unwind (t : BitVec 8)
  /-- CALLX (R137): Calls the address in a register with a declared demand. -/
  | callx (t : BitVec 6) (d : BitVec 6)
  /-- RAND (R129): Draws random bits or uniform values per active lane. -/
  | rand (t : BitVec 4) (d : BitVec 6) (p : BitVec 3)
  /-- SEED (R129): Sets each active lane's generator KEY and CTR. -/
  | seed (a : BitVec 6) (b : BitVec 6) (p : BitVec 3)
  /-- CATSAMPLE (R130): Draws one category for the group from element weights. -/
  | catsample (t : BitVec 1) (d : BitVec 6) (a : BitVec 6) (p : BitVec 3)
  /-- GRANULE_GRANT (R42): Freed granules are offered to waiting frame requests in age order and granted where they fit. -/
  | granuleGrant (core : Nat)
  /-- SILT_TRIGGER (R44): After 256 cycles without issue and with a group blocked on frames, the silt engine acts. -/
  | siltTrigger (core : Nat)
  /-- SILT_SPILL (R45): A frame's owned granules have been written to the spill area and SPILLED is set. -/
  | siltSpill (core : Nat)
  /-- FRAME_REFILL (R48): A spilled frame's granules are reloaded from the spill area and its link record updated. -/
  | frameRefill (gid : Nat)
  /-- LOAD_RETURN (R143): A load's data arrives for every active lane and LD falls in order. -/
  | loadReturn (gid op : Nat)
  /-- STORE_PERFORMED (R144): A store's writes are performed at its scope and ST falls in order. -/
  | storePerformed (gid op : Nat)
  /-- ATOMIC_PERFORMED (R148): Each lane's read-modify-write is performed and the old values returned. -/
  | atomicPerformed (gid op : Nat)
  /-- SFU_START (R127): An SFU operation starts when the unit is free and all earlier queued operations have started. -/
  | sfuStart (core pipe : Nat)
  /-- SFU_RESULT (R127): An SFU result arrives, frees its queue entry and lowers the SFU counter. -/
  | sfuResult (core pipe : Nat)
  /-- QUEUE_ENTRY_FILL (R49): An access-stream reply fills a RESERVED queue entry, which becomes FULL. -/
  | queueEntryFill (gid op : Nat)
  /-- QST_WRITE_PERFORMED (R154): A QST's writes are performed at device scope, freeing its entry and lowering QS. -/
  | qstWritePerformed (gid op : Nat)
  /-- HANDLER_ENTRY (R172): After the group's SFU results drain, the trap record is written. -/
  | handlerEntry (gid : Nat)
  /-- HANDLER_FRAME_GRANT (R172): A handler frame is granted from the reserve and the handler slot starts. -/
  | handlerFrameGrant (gid : Nat)
  /-- GROUP_SAVE (R55): After a stopped group drains, its state is written to the save area. -/
  | groupSave (gid : Nat)
  /-- GROUP_DRAINED (R58): A DRAINING group's counters reach 0; it becomes ENDED and frees its resources. -/
  | groupDrained (gid : Nat)
  /-- BARRIER_ARRIVAL (R263): An arrival reaches the barrier object and is counted in its generation. -/
  | barrierArrival (gid : Nat)
  /-- ENQ_APPEND (R164): At the queue descriptor's home slice an ENQ record is written to the ring when room exists and TAIL advances. -/
  | enqAppend (gid op : Nat)
  /-- COPY_COMPLETE (R256): Every write of a copy is performed at its scope and CPY falls. -/
  | copyComplete (core : Nat)
  /-- MATRIX_OP_START (R227): A queued matrix-side operation starts when the unit is free and its interlocks clear. -/
  | matrixOpStart (core gid : Nat)
  /-- MATRIX_OP_COMPLETE (R227): A matrix-side operation completes and its counter falls. -/
  | matrixOpComplete (core : Nat)
  /-- ERROR_DETECTION (R393): A corrected or uncorrectable error is detected, logged and a targeted self-test begins. -/
  | errorDetection (unit : FaultUnit) (site : ErrorSite)
  /-- SELF_TEST_PASS (R394): A self-test pass finishes and the unit's verdict is updated. -/
  | selfTestPass (unit : FaultUnit) (reproduced : Bool)
  /-- OCCURRENCE_EXPIRY (R394): A fault occurrence expires 1 s after it happened. -/
  | occurrenceExpiry (unit : FaultUnit)
  /-- ISSUE_RESUME (R189): Issue resumes on the new lane mapping after the pause. -/
  | issueResume (core : Nat)
  /-- ESTIMATE_WINDOW_END (R196): At the end of a 64-cycle window the core computes OWNEST, ABURN and applies requested levels. -/
  | estimateWindowEnd (core : Nat)
  /-- MIDPOINT_SAMPLE (R199): The stack-pair midpoint is sampled every 10 ns and the heavier core throttled at 20 mV. -/
  | midpointSample (upper : Nat) (dev : BitVec 16)
  /-- THROTTLE_RELEASE (R199): After 100 consecutive samples below 15 mV the throttle ends. -/
  | throttleRelease (core : Nat)
  /-- IMBALANCE_TRAP (R200): A 40 mV deviation held for 200 samples traps every LIVE group of both cores. -/
  | imbalanceTrap (upper : Nat)
  /-- WAKE_REGISTER_WRITE (R276): A host write to a wake register sets PENDING by release ATOM.OR and notifies the home Almanac. -/
  | wakeRegisterWrite (queue : Nat)
  /-- QUEUE_SCAN (R277): On WBATCH or LATTOL, the Almanac clears PENDING, reads TAIL and releases records in ring order. -/
  | queueScan (die slot : Nat)
  /-- QUEUE_MAP (R278): A queue with PENDING set is mapped when a slot is free or made free. -/
  | queueMap (die queue : Nat)
  /-- CLUSTER_PLACEMENT (R290): An eligible cluster is placed on the best fitting rectangle and its teams created. -/
  | clusterPlacement (launch cluster : Nat)
  /-- START_TIME_REACHED (R286): cr.time reaches a cluster's START and it may become eligible. -/
  | startTimeReached (launch : Nat)
  /-- TEAM_COMPLETION (R285): A team completes; its bitmap bit and DONE are set by release atomics. -/
  | teamCompletion (team : Nat)
  /-- VERSION_COMMIT (R336): A versioned team's version lines merge into committed lines at their homes. -/
  | versionCommit (team : Nat)
  /-- SPATIAL_PREEMPTION (R292): The dispatcher vacates lower-priority teams on the cores a cluster needs. -/
  | spatialPreemption (launch cluster origin : Nat)
  /-- TEAM_RESTORE (R293): A saved team is restored on the best fitting core and its cluster map entry rewritten. -/
  | teamRestore (team : Nat)
  /-- PLACEMENT_TIMEOUT (R296): A cluster eligible for 100 µs without fitting pre-empts or fences a rectangle. -/
  | placementTimeout (launch cluster : Nat)
  /-- HOT_SPOT_MIGRATION (R295): At a 10 µs sample one team in a hot plot is saved and restored in a cooler plot. -/
  | hotSpotMigration (die : Nat)
  /-- GANG_KILL (R267): Every group of a gang stops, paths drain or are abandoned, resources are freed and a record sent. -/
  | gangKill (gang : Nat)
  /-- GANG_RELAUNCH (R269): A killed gang meeting R268 is placed again from its retained launch record. -/
  | gangRelaunch (gang : Nat)
  /-- STALL_SAMPLE (R302): Every 10 µs CSTALL is rewritten for each core. -/
  | stallSample (sample : Sample)
  /-- PLOT_REQUEST (R304): A frequency request reaches a plot's DVFS state machine. -/
  | plotRequest (die plot : Nat) (code : BitVec 4)
  /-- RAIL_SWITCH_SETTLE (R304): A rail switch settles after 20 ns and a queued request becomes the target. -/
  | railSwitchSettle (die plot : Nat)
  /-- FREQUENCY_STEP (R304): Every 40 ns in STEP the frequency moves one code toward the target. -/
  | frequencyStep (die plot : Nat)
  /-- DROOP_INJECTION (R305): A sensed droop or matrix start connects the plot to the high rail or stretches its clock. -/
  | droopInjection (die plot : Nat) (sensed : Bool)
  /-- INJECTION_END (R305): An 8-cycle injection ends. -/
  | injectionEnd (die plot : Nat)
  /-- PLOTCTL_WRITE (R306): A host write to PLOTCTL sets override, cap, high-rail permission and injector enable. -/
  | plotctlWrite (die plot : Nat) (value : BitVec 64)
  /-- DIE_OFFLINE (R337): A die goes out of service; its queues, teams and lines move or are lost. -/
  | dieOffline (die : Nat) (byFault : Bool)
  /-- SLICECFG_WRITE (R319): A write of ADW and VW to a slice, refused if it would undercut reservations. -/
  | slicecfgWrite (slice : Nat) (value : BitVec 64)
  /-- REGISTER_WRITE (R8): A write to a management register without behaviour of its own. -/
  | registerWrite (offset : Nat) (value : BitVec 64)
  /-- HBM_REQUEST_SLOT (R323): At each request slot a stack serves a bandwidth class by MIN and MAX: `pending` says which of
  the class's waiting requests. -/
  | hbmRequestSlot (stack pending : Nat)
  /-- PAGE_WALK (R326): A TLB miss walks the page table, checks entries, sets A/D and fills the TLB. -/
  | pageWalk (core ctx : Nat) (va : BitVec 64)
  /-- PINNED_RETRY (R356): An outside access to a pinned line is retried until the pin is released. -/
  | pinnedRetry (gid op : Nat)
  /-- HOST_READ (R362): A host read of device memory is performed at its home slice. -/
  | hostRead (id : Nat) (addr : BitVec 64) (len : Nat)
  /-- HOST_POSTED_WRITE (R362): A posted host write is performed at its home slice at system scope in order. -/
  | hostPostedWrite (addr : BitVec 64) (bytes : List Byte)
  /-- HOST_READ_ABORT (R362): A host read still retried after 10 ms completes with Completer Abort. -/
  | hostReadAbort (id : Nat)
  /-- RING_RECORD_WRITE (R379): A host ring record is written when its slot is free and the MSI-X message sent. -/
  | ringRecordWrite (ring : Nat)
  /-- MSIX_DEFERRED_SEND (R379): A coalesced MSI-X message is sent at the end of its 1 µs. -/
  | msixDeferredSend (ring : Nat)
  /-- SETCTXT (R381): Command giving the Almanacs the context table address. -/
  | setctxt (pa : BitVec 64)
  /-- SETQT (R381): Command giving the Almanacs the queue table address. -/
  | setqt (pa : BitVec 64)
  /-- MAP (R381): Command mapping a page as MAPPG kinds 1 to 3. -/
  | map (ctx va attr kind : BitVec 64)
  /-- UNMAP (R381): Command unmapping a page as MAPPG kind 4. -/
  | unmap (ctx va : BitVec 64)
  /-- INVAL (R381): Command invalidating translations as TLBINV. -/
  | inval (kind ctx va len : BitVec 64)
  /-- ICINV (R381): Command invalidating every L1 instruction cache after earlier writes. -/
  | icinv
  /-- RESUME (R381): Command resuming a stopped group as FRET #0 or killing its gang. -/
  | resume (tag action : BitVec 64)
  /-- KILL (R381): Command killing and reporting the named gangs. -/
  | kill (task cluster : BitVec 64)
  /-- SYSRET (R381): Command delivering a system-call result and resuming the parked group. -/
  | sysret (tag result : BitVec 64)
  /-- DIEON (R381): Command cold-starting a die and returning it to service. -/
  | dieon (die : BitVec 64)
  /-- ATTEST (R381): Command starting the attestation report in the background. -/
  | attest (nonce : BitVec 256) (addr : BitVec 64)
  /-- ATTEST_REPORT (R392): The signed attestation report is written to host memory. -/
  | attestReport
  /-- TIMESET (R381): Command stepping the time base forward. -/
  | timeset (time : BitVec 64)
  /-- FRAME_RECEIVE (R385): An Ethernet frame is checked, filtered and its launch records appended to the ring. -/
  | frameReceive (port : Nat) (frame : NetFrame)
  /-- FLIT_GROUP_RECEIVE (R388): A flit group is delivered, rebuilt from the XOR rail, or lost. -/
  | flitGroupReceive (port : Nat) (flits : List Flit)
  /-- FLIT_TIMEOUT (R388): A flit not arrived 64 ns after its group's first counts as absent. -/
  | flitTimeout (port rail : Nat)
  /-- LINK_TRANSFER_START (R389): A producer-word release notifies the link engine, which reads a descriptor and sends the transfer. -/
  | linkTransferStart (die ring : Nat)
  /-- LINK_REMOTE_TRANSFER (R389): The remote package performs the writes and a release increment of RSIG. -/
  | linkRemoteTransfer (dst rsig : BitVec 64) (bytes : List Byte)
  /-- LINK_ACK (R389): On the remote acknowledgement the engine releases an increment of LSIG. -/
  | linkAck (die ring : Nat)
  /-- COLD_START (R391): Power loss or a cold reset runs the full start sequence and resets the time base. -/
  | coldStart
  /-- WARM_START (R391): A hot reset or FLR with WARMOK 1 restarts keeping HBM, ECTR and the time base. -/
  | warmStart
  /-- WORD_NOT_AN_INSTRUCTION (R66): A word that matches no assigned instruction issues and raises the illegal-instruction trap at that word. This covers major 0x1F, hint kinds 5 to 7, and unassigned sub-ops, minors and selectors. -/
  | wordNotAnInstruction (w : Word)
  /-- DROOP_CLEAR (R305): The sensed supply droop of a plot clears, which ends the one-in-four edge suppression that followed a denied injection. -/
  | droopClear (die plot : Nat)
  /-- CONTEXT_TEARDOWN (R334): The host tears down a context, and that context's adobe lines are dropped as on unmap. -/
  | contextTeardown (ctx : Nat)
  /-- COMMAND_BAD_OPCODE (R381): A command record with an unassigned opcode is taken from the command ring and completed with STATUS 0x81. -/
  | commandBadOpcode (op : Byte)
  /-- IEEE_1588_MESSAGE_SEND (R382): An Ethernet port transmits an IEEE 1588 message as an ordinary clock, timestamped at the MAC. -/
  | ieee1588MessageSend (port : Nat)
  deriving DecidableEq, Repr

end Sys2Proof
end

