-- ==== Sys2Proof/WellFormed.lean ====
section
/-! DEFINITION. The checks that a word of one of the rows must pass beyond its fixed bits (R63, R64 and the
'Illegal forms' of each class), each check under its own name. -/

namespace Sys2Proof

/-- Why a word that has a row's fixed bits is still no instruction. -/
inductive Defect where
  /-- a type code outside those the form accepts (R63) -/
  | typeNotAccepted
  /-- an odd d where a pair d, d+1 is named (R106, R147) -/
  | oddPair
  /-- a compare or branch condition that is illegal with the form (R110, R156) -/
  | conditionIllegal
  /-- a class mask of 0 (R113) -/
  | maskZero
  /-- an operation code or pairing that is not assigned (R121, R155) -/
  | operationIllegal
  /-- a width value that is not assigned (R142) -/
  | widthIllegal
  /-- a scope of 5 to 7 (R142, R150) -/
  | scopeIllegal
  /-- a path of 6 or 7 (R151) -/
  | pathIllegal
  /-- a shape-register selector of 14 or 15, or 13 in YOP.HRD (R51, R155) -/
  | selectorIllegal
  /-- a kind that is not assigned (R222, R262, R338) -/
  | kindIllegal
  /-- a field that the form marks 0 (R66) -/
  | fieldNotZero
  /-- an event of the hardware or the host: it has no word -/
  | notAWord
  deriving DecidableEq, Repr

namespace Instr

/-- The first of the listed checks that fails. -/
def firstDefect : List (Bool × Defect) → Option Defect
  | [] => none
  | (good, why) :: rest => if good then firstDefect rest else some why

/-- Types of the float forms: a 3-bit type field 0 to 6 stands for the codes 8 to 14 (R63). -/
def floatType (t : BitVec 3) : List (Bool × Defect) := [(t ≠ 7, .typeNotAccepted)]

/-- REDUCE and SCAN pairings (R121). -/
def reduceForm (t : BitVec 4) (o : BitVec 3) : List (Bool × Defect) :=
  [(o.toNat ≤ 5, .operationIllegal),
   (if o.toNat ≤ 2 then t.toNat ≤ 14 else t.toNat ≤ 7 ∨ t = 15, .typeNotAccepted)]

/-- The checks of each row; an empty list is a row whose fixed bits are all there is to check. -/
def checks : Instr → List (Bool × Defect)
  | mulw _ d _ _ => [(d.toNat % 2 = 0, .oddPair)]
  | addw _ d _ _ => [(d.toNat % 2 = 0, .oddPair)]
  | subw _ d _ _ => [(d.toNat % 2 = 0, .oddPair)]
  | shl t _ _ _ _ => [(t.toNat ≤ 7 ∨ t = 15, .typeNotAccepted)]
  | shr t _ _ _ _ => [(t.toNat ≤ 7 ∨ t = 15, .typeNotAccepted)]
  | cmp t c _ _ _ _ =>
    [(c ≠ 7, .conditionIllegal), (c ≠ 6 ∨ (8 ≤ t.toNat ∧ t.toNat ≤ 11), .conditionIllegal)]
  | cmpi t c _ _ _ =>
    [(t.toNat ≤ 7 ∨ (12 ≤ t.toNat ∧ t.toNat ≤ 14), .typeNotAccepted), (c.toNat ≤ 5, .conditionIllegal)]
  | test t _ _ m _ => [(t ≠ 7, .typeNotAccepted), (m ≠ 0, .maskZero)]
  | faluAdd t _ _ _ _ => floatType t
  | faluSub t _ _ _ _ => floatType t
  | faluMul t _ _ _ _ => floatType t
  | faluMin t _ _ _ => floatType t
  | faluMax t _ _ _ => floatType t
  | faluNeg t _ _ _ => floatType t
  | faluAbs t _ _ _ => floatType t
  | rint t _ _ _ => floatType t
  | fma t _ _ _ _ => floatType t
  | fms t _ _ _ _ => floatType t
  | fnma t _ _ _ _ => floatType t
  | dot4 t _ _ _ _ => [(t = 0 ∨ t = 4 ∨ t = 12, .typeNotAccepted)]
  | cvtFp8 _ _ _ s _ => [(s ≠ 15, .typeNotAccepted)]
  | reduce t _ _ o _ => reduceForm t o
  | scan t _ _ _ o _ => reduceForm t o
  | rcp t _ _ _ => floatType t
  | rsqrt t _ _ _ => floatType t
  | sqrt t _ _ _ => floatType t
  | exp2 t _ _ _ => floatType t
  | log2 t _ _ _ => floatType t
  | sin t _ _ _ => floatType t
  | cos t _ _ _ => floatType t
  | tanh t _ _ _ => floatType t
  | div t _ _ _ _ => floatType t
  | ld _ _ _ _ w => [(w ≠ 7, .widthIllegal)]
  | lda _ _ _ _ w s => [(w ≠ 7, .widthIllegal), (s.toNat ≤ 4, .scopeIllegal)]
  | str _ _ _ _ c => [(c.toNat ≤ 4, .scopeIllegal)]
  | fence s => [(s.toNat ≤ 4, .scopeIllegal)]
  | wait _ h => [(h.toNat ≤ 5, .pathIllegal)]
  | yopReg _ a o _ => [(o.toNat ≤ 10, .operationIllegal), (o ≠ 10 ∨ a = 0, .fieldNotZero)]
  | yopImm _ a o _ => [(o.toNat ≤ 10, .operationIllegal), (o ≠ 10 ∨ a = 0, .fieldNotZero)]
  | yopHrd _ _ s => [(s.toNat ≤ 12, .selectorIllegal)]
  | ybr a b c _ => [(c ≠ 7, .conditionIllegal), (c ≠ 6 ∨ (a = 0 ∧ b = 0), .fieldNotZero)]
  | hrd _ _ _ s => [(s.toNat ≤ 13, .selectorIllegal)]
  | hwr _ _ _ s => [(s.toNat ≤ 13, .selectorIllegal)]
  | zclr _ n => [(n.toNat ≤ 2, .kindIllegal)]
  | zld _ _ n => [(n.toNat ≤ 2, .kindIllegal)]
  | barinit m _ k => [(k ≠ 3, .kindIllegal), (k = 0 ∨ m = 0, .fieldNotZero)]
  | barmask m _ k => [(k ≠ 3 ∨ m = 0, .fieldNotZero)]
  | adobeq _ _ _ k => [(k ≠ 3, .kindIllegal)]
  | tlbinv l a k => [(k ≠ 3, .kindIllegal), (k = 0 ∨ (l = 0 ∧ a = 0), .fieldNotZero)]
  | mappg _ _ k => [(k.toNat ≤ 4, .kindIllegal)]
  | rand t _ _ => [((4 ≤ t.toNat ∧ t.toNat ≤ 8) ∨ t = 10, .typeNotAccepted)]
  | _ => []

/-- Rows of the opcode table that are words. -/
def isWord : Instr → Bool
  | granuleGrant _ => false
  | siltTrigger _ => false
  | siltSpill _ => false
  | frameRefill _ => false
  | loadReturn _ _ => false
  | storePerformed _ _ => false
  | atomicPerformed _ _ => false
  | sfuStart _ _ => false
  | sfuResult _ _ => false
  | queueEntryFill _ _ => false
  | qstWritePerformed _ _ => false
  | handlerEntry _ => false
  | handlerFrameGrant _ => false
  | groupSave _ => false
  | groupDrained _ => false
  | barrierArrival _ => false
  | enqAppend _ _ => false
  | copyComplete _ => false
  | matrixOpStart _ _ => false
  | matrixOpComplete _ => false
  | errorDetection _ _ => false
  | selfTestPass _ _ => false
  | occurrenceExpiry _ => false
  | issueResume _ => false
  | estimateWindowEnd _ => false
  | midpointSample _ _ => false
  | throttleRelease _ => false
  | imbalanceTrap _ => false
  | wakeRegisterWrite _ => false
  | queueScan _ _ => false
  | queueMap _ _ => false
  | clusterPlacement _ _ => false
  | startTimeReached _ => false
  | teamCompletion _ => false
  | versionCommit _ => false
  | spatialPreemption _ _ _ => false
  | teamRestore _ => false
  | placementTimeout _ _ => false
  | hotSpotMigration _ => false
  | gangKill _ => false
  | gangRelaunch _ => false
  | stallSample _ => false
  | plotRequest _ _ _ => false
  | railSwitchSettle _ _ => false
  | frequencyStep _ _ => false
  | droopInjection _ _ _ => false
  | injectionEnd _ _ => false
  | plotctlWrite _ _ _ => false
  | dieOffline _ _ => false
  | slicecfgWrite _ _ => false
  | registerWrite _ _ => false
  | hbmRequestSlot _ _ => false
  | pageWalk _ _ _ => false
  | pinnedRetry _ _ => false
  | hostRead _ _ _ => false
  | hostPostedWrite _ _ => false
  | hostReadAbort _ => false
  | ringRecordWrite _ => false
  | msixDeferredSend _ => false
  | setctxt _ => false
  | setqt _ => false
  | map _ _ _ _ => false
  | unmap _ _ => false
  | inval _ _ _ _ => false
  | icinv => false
  | resume _ _ => false
  | kill _ _ => false
  | sysret _ _ => false
  | dieon _ => false
  | attest _ _ => false
  | attestReport => false
  | timeset _ => false
  | frameReceive _ _ => false
  | flitGroupReceive _ _ => false
  | flitTimeout _ _ => false
  | linkTransferStart _ _ => false
  | linkRemoteTransfer _ _ _ => false
  | linkAck _ _ => false
  | coldStart => false
  | warmStart => false
  | wordNotAnInstruction _ => false
  | droopClear _ _ => false
  | contextTeardown _ => false
  | commandBadOpcode _ => false
  | ieee1588MessageSend _ => false
  | _ => true

/-- The first check that the instruction fails. -/
def defect (i : Instr) : Option Defect := firstDefect ((i.isWord, .notAWord) :: i.checks)

/-- A word instruction all of whose fields its form admits. -/
def wellFormed (i : Instr) : Bool := i.defect.isNone

end Instr
end Sys2Proof
end

