-- ==== Sys2Proof/Decode.lean ====
section
/-! DEFINITION. Decoding of words (R60 to R64) and of command records (R381), total, with a name for each refusal;
and the encoder, written from the same encodings. -/

namespace Sys2Proof

/-- Bits [hi : lo] of a word. -/
def bits (w hi lo : Nat) : Nat := w / 2 ^ lo % 2 ^ (hi + 1 - lo)

/-- The n-bit field of a word whose lowest bit is lo. -/
def fieldAt (n lo w : Nat) : BitVec n := BitVec.ofNat n (w / 2 ^ lo)

/-- Why a word is no instruction (R66). -/
inductive DecodeError where
  /-- major 0x1F (R63) -/
  | unassignedMajor
  /-- a selector, a kind, a reserved field or a hint kind that no row of the opcode map has -/
  | noSuchForm
  /-- a row has the fixed bits, and the named check of its form fails -/
  | illFormed (why : Defect)
  deriving DecidableEq, Repr

/-- Major 0x0 (R63, R64). -/
def decodeSys (w : Nat) : Option Instr :=
  if bits w 26 21 = 0 then
    some (.illegal (fieldAt 21 0 w))
  else if bits w 26 21 = 1 then
    some (.nop (fieldAt 21 0 w))
  else if bits w 26 21 = 2 then
    some (.syscall (fieldAt 21 0 w))
  else if bits w 26 21 = 3 ∧ bits w 6 0 = 0 then
    some (.crrd (fieldAt 6 15 w) (fieldAt 8 7 w))
  else if bits w 26 21 = 4 ∧ bits w 6 0 = 0 then
    some (.crwr (fieldAt 6 15 w) (fieldAt 8 7 w))
  else if bits w 26 21 = 5 then
    some (.enq (fieldAt 6 15 w) (fieldAt 15 0 w))
  else none

/-- Major 0x1 (R63, R64). -/
def decodeHint (w : Nat) : Option Instr :=
  if bits w 26 24 = 0 then
    some (.himm (fieldAt 24 0 w))
  else if bits w 26 24 = 1 then
    some (.himmhi (fieldAt 24 0 w))
  else if bits w 26 24 = 2 ∧ bits w 9 0 = 0 then
    some (.hmod (fieldAt 1 23 w) (fieldAt 3 20 w) (fieldAt 1 19 w) (fieldAt 1 18 w) (fieldAt 1 17 w) (fieldAt 3 14 w) (fieldAt 1 13 w) (fieldAt 3 10 w))
  else if bits w 26 5 = 1572864 then
    some (.hsched (fieldAt 1 4 w) (fieldAt 4 0 w))
  else if bits w 26 24 = 4 then
    some (.hoff (fieldAt 24 0 w))
  else none

/-- Major 0x2 (R63, R64). -/
def decodeBr (w : Nat) : Option Instr :=
  if bits w 26 24 = 0 then
    some (.bra (fieldAt 24 0 w))
  else if bits w 26 24 = 1 then
    some (.braGuarded (fieldAt 3 21 w) (fieldAt 21 0 w))
  else if bits w 26 24 = 2 then
    some (.braAny (fieldAt 3 21 w) (fieldAt 21 0 w))
  else if bits w 26 24 = 3 then
    some (.braAll (fieldAt 3 21 w) (fieldAt 21 0 w))
  else if bits w 26 24 = 4 then
    some (.reconv (fieldAt 4 20 w) (fieldAt 20 0 w))
  else if bits w 26 24 = 5 ∧ bits w 19 0 = 0 then
    some (.join (fieldAt 4 20 w))
  else if bits w 26 24 = 6 ∧ bits w 20 0 = 0 then
    some (.exit (fieldAt 3 21 w))
  else if bits w 26 24 = 7 ∧ bits w 14 0 = 0 then
    some (.brx (fieldAt 6 18 w) (fieldAt 3 15 w))
  else none

/-- Major 0x3 (R63, R64). -/
def decodeCall (w : Nat) : Option Instr :=
  some (.call (fieldAt 6 21 w) (fieldAt 21 0 w))

/-- Major 0x4 (R63, R64). -/
def decodeIalu (w : Nat) : Option Instr :=
  if bits w 26 26 = 0 ∧ bits w 1 0 = 0 then
    some (.ialuAdd (fieldAt 3 23 w) (fieldAt 6 17 w) (fieldAt 6 11 w) (fieldAt 6 5 w) (fieldAt 3 2 w))
  else if bits w 26 26 = 0 ∧ bits w 1 0 = 1 then
    some (.ialuSub (fieldAt 3 23 w) (fieldAt 6 17 w) (fieldAt 6 11 w) (fieldAt 6 5 w) (fieldAt 3 2 w))
  else if bits w 26 26 = 0 ∧ bits w 1 0 = 2 then
    some (.ialuMul (fieldAt 3 23 w) (fieldAt 6 17 w) (fieldAt 6 11 w) (fieldAt 6 5 w) (fieldAt 3 2 w))
  else if bits w 26 26 = 0 ∧ bits w 10 5 = 1 ∧ bits w 1 0 = 3 then
    some (.ialuMin (fieldAt 3 23 w) (fieldAt 6 17 w) (fieldAt 6 11 w) (fieldAt 3 2 w))
  else if bits w 26 26 = 0 ∧ bits w 10 5 = 2 ∧ bits w 1 0 = 3 then
    some (.ialuMax (fieldAt 3 23 w) (fieldAt 6 17 w) (fieldAt 6 11 w) (fieldAt 3 2 w))
  else if bits w 26 26 = 0 ∧ bits w 10 5 = 3 ∧ bits w 1 0 = 3 then
    some (.ialuNeg (fieldAt 3 23 w) (fieldAt 6 17 w) (fieldAt 6 11 w) (fieldAt 3 2 w))
  else if bits w 26 26 = 0 ∧ bits w 10 5 = 4 ∧ bits w 1 0 = 3 then
    some (.ialuAbs (fieldAt 3 23 w) (fieldAt 6 17 w) (fieldAt 6 11 w) (fieldAt 3 2 w))
  else if bits w 26 26 = 0 ∧ bits w 10 5 = 5 ∧ bits w 1 0 = 3 then
    some (.absdiff (fieldAt 3 23 w) (fieldAt 6 17 w) (fieldAt 6 11 w) (fieldAt 3 2 w))
  else if bits w 26 26 = 0 ∧ bits w 10 5 = 6 ∧ bits w 1 0 = 3 then
    some (.avg (fieldAt 3 23 w) (fieldAt 6 17 w) (fieldAt 6 11 w) (fieldAt 3 2 w))
  else if bits w 26 26 = 0 ∧ bits w 10 5 = 7 ∧ bits w 1 0 = 3 then
    some (.mulhi (fieldAt 3 23 w) (fieldAt 6 17 w) (fieldAt 6 11 w) (fieldAt 3 2 w))
  else if bits w 26 26 = 0 ∧ bits w 10 5 = 8 ∧ bits w 1 0 = 3 then
    some (.mulw (fieldAt 3 23 w) (fieldAt 6 17 w) (fieldAt 6 11 w) (fieldAt 3 2 w))
  else if bits w 26 26 = 0 ∧ bits w 10 5 = 9 ∧ bits w 1 0 = 3 then
    some (.addw (fieldAt 3 23 w) (fieldAt 6 17 w) (fieldAt 6 11 w) (fieldAt 3 2 w))
  else if bits w 26 26 = 0 ∧ bits w 10 5 = 10 ∧ bits w 1 0 = 3 then
    some (.subw (fieldAt 3 23 w) (fieldAt 6 17 w) (fieldAt 6 11 w) (fieldAt 3 2 w))
  else none

/-- Major 0x5 (R63, R64). -/
def decodeIalui (w : Nat) : Option Instr :=
  if bits w 26 26 = 0 then
    some (.ialuiAdd (fieldAt 3 23 w) (fieldAt 6 17 w) (fieldAt 6 11 w) (fieldAt 11 0 w))
  else if bits w 26 23 = 15 ∧ bits w 16 11 = 0 then
    some (.movImm (fieldAt 6 17 w) (fieldAt 11 0 w))
  else none

/-- Major 0x6 (R63, R64). -/
def decodeLogic (w : Nat) : Option Instr :=
  if bits w 1 0 = 0 then
    some (.lop (fieldAt 4 23 w) (fieldAt 6 17 w) (fieldAt 6 11 w) (fieldAt 6 5 w) (fieldAt 3 2 w))
  else if bits w 1 0 = 1 then
    some (.shl (fieldAt 4 23 w) (fieldAt 6 17 w) (fieldAt 6 11 w) (fieldAt 6 5 w) (fieldAt 3 2 w))
  else if bits w 1 0 = 2 then
    some (.shr (fieldAt 4 23 w) (fieldAt 6 17 w) (fieldAt 6 11 w) (fieldAt 6 5 w) (fieldAt 3 2 w))
  else if bits w 26 23 = 0 ∧ bits w 1 0 = 3 then
    some (.bfx (fieldAt 6 17 w) (fieldAt 6 11 w) (fieldAt 6 5 w) (fieldAt 3 2 w))
  else if bits w 26 23 = 1 ∧ bits w 1 0 = 3 then
    some (.bfxs (fieldAt 6 17 w) (fieldAt 6 11 w) (fieldAt 6 5 w) (fieldAt 3 2 w))
  else if bits w 26 23 = 2 ∧ bits w 1 0 = 3 then
    some (.bfi (fieldAt 6 17 w) (fieldAt 6 11 w) (fieldAt 6 5 w) (fieldAt 3 2 w))
  else if bits w 26 23 = 3 ∧ bits w 10 5 = 0 ∧ bits w 1 0 = 3 then
    some (.popc (fieldAt 6 17 w) (fieldAt 6 11 w) (fieldAt 3 2 w))
  else if bits w 26 23 = 4 ∧ bits w 10 5 = 0 ∧ bits w 1 0 = 3 then
    some (.clz (fieldAt 6 17 w) (fieldAt 6 11 w) (fieldAt 3 2 w))
  else if bits w 26 23 = 5 ∧ bits w 10 5 = 0 ∧ bits w 1 0 = 3 then
    some (.ctz (fieldAt 6 17 w) (fieldAt 6 11 w) (fieldAt 3 2 w))
  else if bits w 26 23 = 6 ∧ bits w 10 5 = 0 ∧ bits w 1 0 = 3 then
    some (.brev (fieldAt 6 17 w) (fieldAt 6 11 w) (fieldAt 3 2 w))
  else if bits w 26 23 = 7 ∧ bits w 1 0 = 3 then
    some (.rol (fieldAt 6 17 w) (fieldAt 6 11 w) (fieldAt 6 5 w) (fieldAt 3 2 w))
  else if bits w 26 23 = 8 ∧ bits w 1 0 = 3 then
    some (.ror (fieldAt 6 17 w) (fieldAt 6 11 w) (fieldAt 6 5 w) (fieldAt 3 2 w))
  else none

/-- Major 0x7 (R63, R64). -/
def decodeLogici (w : Nat) : Option Instr :=
  some (.lopi (fieldAt 4 23 w) (fieldAt 6 17 w) (fieldAt 6 11 w) (fieldAt 11 0 w))

/-- Major 0x8 (R63, R64). -/
def decodeCmp (w : Nat) : Option Instr :=
  if bits w 1 0 = 0 then
    some (.cmp (fieldAt 4 23 w) (fieldAt 3 20 w) (fieldAt 3 17 w) (fieldAt 6 11 w) (fieldAt 6 5 w) (fieldAt 3 2 w))
  else if bits w 1 0 = 1 then
    some (.sel (fieldAt 4 23 w) (fieldAt 6 17 w) (fieldAt 6 11 w) (fieldAt 6 5 w) (fieldAt 3 2 w))
  else if bits w 22 20 = 0 ∧ bits w 16 14 = 0 ∧ bits w 10 8 = 0 ∧ bits w 1 0 = 2 then
    some (.plop (fieldAt 4 23 w) (fieldAt 3 17 w) (fieldAt 3 11 w) (fieldAt 3 5 w) (fieldAt 3 2 w))
  else if bits w 26 26 = 1 ∧ bits w 22 20 = 0 ∧ bits w 1 0 = 3 then
    some (.test (fieldAt 3 23 w) (fieldAt 3 17 w) (fieldAt 6 11 w) (fieldAt 6 5 w) (fieldAt 3 2 w))
  else none

/-- Major 0x9 (R63, R64). -/
def decodeCmpi (w : Nat) : Option Instr :=
  some (.cmpi (fieldAt 4 23 w) (fieldAt 3 20 w) (fieldAt 3 17 w) (fieldAt 6 11 w) (fieldAt 11 0 w))

/-- Major 0xa (R63, R64). -/
def decodeFalu (w : Nat) : Option Instr :=
  if bits w 26 26 = 1 ∧ bits w 1 0 = 0 then
    some (.faluAdd (fieldAt 3 23 w) (fieldAt 6 17 w) (fieldAt 6 11 w) (fieldAt 6 5 w) (fieldAt 3 2 w))
  else if bits w 26 26 = 1 ∧ bits w 1 0 = 1 then
    some (.faluSub (fieldAt 3 23 w) (fieldAt 6 17 w) (fieldAt 6 11 w) (fieldAt 6 5 w) (fieldAt 3 2 w))
  else if bits w 26 26 = 1 ∧ bits w 1 0 = 2 then
    some (.faluMul (fieldAt 3 23 w) (fieldAt 6 17 w) (fieldAt 6 11 w) (fieldAt 6 5 w) (fieldAt 3 2 w))
  else if bits w 26 26 = 1 ∧ bits w 10 5 = 1 ∧ bits w 1 0 = 3 then
    some (.faluMin (fieldAt 3 23 w) (fieldAt 6 17 w) (fieldAt 6 11 w) (fieldAt 3 2 w))
  else if bits w 26 26 = 1 ∧ bits w 10 5 = 2 ∧ bits w 1 0 = 3 then
    some (.faluMax (fieldAt 3 23 w) (fieldAt 6 17 w) (fieldAt 6 11 w) (fieldAt 3 2 w))
  else if bits w 26 26 = 1 ∧ bits w 10 5 = 3 ∧ bits w 1 0 = 3 then
    some (.faluNeg (fieldAt 3 23 w) (fieldAt 6 17 w) (fieldAt 6 11 w) (fieldAt 3 2 w))
  else if bits w 26 26 = 1 ∧ bits w 10 5 = 4 ∧ bits w 1 0 = 3 then
    some (.faluAbs (fieldAt 3 23 w) (fieldAt 6 17 w) (fieldAt 6 11 w) (fieldAt 3 2 w))
  else if bits w 26 26 = 1 ∧ bits w 10 5 = 10 ∧ bits w 1 0 = 3 then
    some (.rint (fieldAt 3 23 w) (fieldAt 6 17 w) (fieldAt 6 11 w) (fieldAt 3 2 w))
  else none

/-- Major 0xb (R63, R64). -/
def decodeFma (w : Nat) : Option Instr :=
  if bits w 26 26 = 1 ∧ bits w 1 0 = 0 then
    some (.fma (fieldAt 3 23 w) (fieldAt 6 17 w) (fieldAt 6 11 w) (fieldAt 6 5 w) (fieldAt 3 2 w))
  else if bits w 26 26 = 0 ∧ bits w 1 0 = 0 then
    some (.mad (fieldAt 3 23 w) (fieldAt 6 17 w) (fieldAt 6 11 w) (fieldAt 6 5 w) (fieldAt 3 2 w))
  else if bits w 26 26 = 1 ∧ bits w 1 0 = 1 then
    some (.fms (fieldAt 3 23 w) (fieldAt 6 17 w) (fieldAt 6 11 w) (fieldAt 6 5 w) (fieldAt 3 2 w))
  else if bits w 26 26 = 1 ∧ bits w 1 0 = 2 then
    some (.fnma (fieldAt 3 23 w) (fieldAt 6 17 w) (fieldAt 6 11 w) (fieldAt 6 5 w) (fieldAt 3 2 w))
  else if bits w 1 0 = 3 then
    some (.dot4 (fieldAt 4 23 w) (fieldAt 6 17 w) (fieldAt 6 11 w) (fieldAt 6 5 w) (fieldAt 3 2 w))
  else none

/-- Major 0xc (R63, R64). -/
def decodeCvt (w : Nat) : Option Instr :=
  if bits w 10 9 = 0 ∧ bits w 1 0 = 0 then
    some (.cvt (fieldAt 4 23 w) (fieldAt 6 17 w) (fieldAt 6 11 w) (fieldAt 4 5 w) (fieldAt 3 2 w))
  else if bits w 26 24 = 0 ∧ bits w 10 9 = 0 ∧ bits w 1 0 = 1 then
    some (.cvtFp8 (fieldAt 1 23 w) (fieldAt 6 17 w) (fieldAt 6 11 w) (fieldAt 4 5 w) (fieldAt 3 2 w))
  else none

/-- Major 0xd (R63, R64). -/
def decodeXlane (w : Nat) : Option Instr :=
  if bits w 1 0 = 0 then
    some (.routePick (fieldAt 4 23 w) (fieldAt 6 17 w) (fieldAt 6 11 w) (fieldAt 6 5 w) (fieldAt 3 2 w))
  else if bits w 1 0 = 1 then
    some (.routeSlide (fieldAt 4 23 w) (fieldAt 6 17 w) (fieldAt 6 11 w) (fieldAt 6 5 w) (fieldAt 3 2 w))
  else if bits w 1 0 = 2 then
    some (.routeRot (fieldAt 4 23 w) (fieldAt 6 17 w) (fieldAt 6 11 w) (fieldAt 6 5 w) (fieldAt 3 2 w))
  else if bits w 1 0 = 3 then
    some (.routeFlip (fieldAt 4 23 w) (fieldAt 6 17 w) (fieldAt 6 11 w) (fieldAt 6 5 w) (fieldAt 3 2 w))
  else none

/-- Major 0xe (R63, R64). -/
def decodeVote (w : Nat) : Option Instr :=
  if bits w 26 25 = 0 ∧ bits w 16 14 = 0 ∧ bits w 10 5 = 0 ∧ bits w 1 0 = 0 then
    some (.vote (fieldAt 2 23 w) (fieldAt 6 17 w) (fieldAt 3 11 w) (fieldAt 3 2 w))
  else if bits w 10 8 = 0 ∧ bits w 1 0 = 1 then
    some (.reduce (fieldAt 4 23 w) (fieldAt 6 17 w) (fieldAt 6 11 w) (fieldAt 3 5 w) (fieldAt 3 2 w))
  else if bits w 10 9 = 0 ∧ bits w 1 0 = 2 then
    some (.scan (fieldAt 4 23 w) (fieldAt 6 17 w) (fieldAt 6 11 w) (fieldAt 1 8 w) (fieldAt 3 5 w) (fieldAt 3 2 w))
  else if bits w 26 23 = 15 ∧ bits w 10 5 = 0 ∧ bits w 1 0 = 3 then
    some (.matchB64 (fieldAt 6 17 w) (fieldAt 6 11 w) (fieldAt 3 2 w))
  else none

/-- Major 0xf (R63, R64). -/
def decodeSfu (w : Nat) : Option Instr :=
  if bits w 26 26 = 1 ∧ bits w 10 5 = 0 ∧ bits w 1 0 = 0 then
    some (.rcp (fieldAt 3 23 w) (fieldAt 6 17 w) (fieldAt 6 11 w) (fieldAt 3 2 w))
  else if bits w 26 26 = 1 ∧ bits w 10 5 = 1 ∧ bits w 1 0 = 0 then
    some (.rsqrt (fieldAt 3 23 w) (fieldAt 6 17 w) (fieldAt 6 11 w) (fieldAt 3 2 w))
  else if bits w 26 26 = 1 ∧ bits w 10 5 = 2 ∧ bits w 1 0 = 0 then
    some (.sqrt (fieldAt 3 23 w) (fieldAt 6 17 w) (fieldAt 6 11 w) (fieldAt 3 2 w))
  else if bits w 26 26 = 1 ∧ bits w 10 5 = 3 ∧ bits w 1 0 = 0 then
    some (.exp2 (fieldAt 3 23 w) (fieldAt 6 17 w) (fieldAt 6 11 w) (fieldAt 3 2 w))
  else if bits w 26 26 = 1 ∧ bits w 10 5 = 4 ∧ bits w 1 0 = 0 then
    some (.log2 (fieldAt 3 23 w) (fieldAt 6 17 w) (fieldAt 6 11 w) (fieldAt 3 2 w))
  else if bits w 26 26 = 1 ∧ bits w 10 5 = 5 ∧ bits w 1 0 = 0 then
    some (.sin (fieldAt 3 23 w) (fieldAt 6 17 w) (fieldAt 6 11 w) (fieldAt 3 2 w))
  else if bits w 26 26 = 1 ∧ bits w 10 5 = 6 ∧ bits w 1 0 = 0 then
    some (.cos (fieldAt 3 23 w) (fieldAt 6 17 w) (fieldAt 6 11 w) (fieldAt 3 2 w))
  else if bits w 26 26 = 1 ∧ bits w 10 5 = 7 ∧ bits w 1 0 = 0 then
    some (.tanh (fieldAt 3 23 w) (fieldAt 6 17 w) (fieldAt 6 11 w) (fieldAt 3 2 w))
  else if bits w 26 26 = 1 ∧ bits w 1 0 = 1 then
    some (.div (fieldAt 3 23 w) (fieldAt 6 17 w) (fieldAt 6 11 w) (fieldAt 6 5 w) (fieldAt 3 2 w))
  else if bits w 26 26 = 0 ∧ bits w 1 0 = 2 then
    some (.idiv (fieldAt 3 23 w) (fieldAt 6 17 w) (fieldAt 6 11 w) (fieldAt 6 5 w) (fieldAt 3 2 w))
  else if bits w 26 26 = 0 ∧ bits w 1 0 = 3 then
    some (.irem (fieldAt 3 23 w) (fieldAt 6 17 w) (fieldAt 6 11 w) (fieldAt 6 5 w) (fieldAt 3 2 w))
  else none

/-- Major 0x10 (R63, R64). -/
def decodeLd (w : Nat) : Option Instr :=
  if bits w 4 0 = 0 then
    some (.ld (fieldAt 4 23 w) (fieldAt 6 17 w) (fieldAt 6 11 w) (fieldAt 3 8 w) (fieldAt 3 5 w))
  else if bits w 4 3 = 1 then
    some (.lda (fieldAt 4 23 w) (fieldAt 6 17 w) (fieldAt 6 11 w) (fieldAt 3 8 w) (fieldAt 3 5 w) (fieldAt 3 0 w))
  else none

/-- Major 0x11 (R63, R64). -/
def decodeSt (w : Nat) : Option Instr :=
  if bits w 26 23 = 0 ∧ bits w 7 7 = 0 ∧ bits w 4 0 = 0 then
    some (.st (fieldAt 6 17 w) (fieldAt 6 11 w) (fieldAt 3 8 w) (fieldAt 2 5 w))
  else if bits w 26 23 = 0 ∧ bits w 7 7 = 0 ∧ bits w 4 3 = 1 then
    some (.str (fieldAt 6 17 w) (fieldAt 6 11 w) (fieldAt 3 8 w) (fieldAt 2 5 w) (fieldAt 3 0 w))
  else none

/-- Major 0x12 (R63, R64). -/
def decodeAtom (w : Nat) : Option Instr :=
  if bits w 4 0 = 0 then
    some (.atomAdd (fieldAt 4 23 w) (fieldAt 6 17 w) (fieldAt 6 11 w) (fieldAt 3 8 w) (fieldAt 2 6 w) (fieldAt 1 5 w))
  else if bits w 4 0 = 1 then
    some (.atomMinI (fieldAt 4 23 w) (fieldAt 6 17 w) (fieldAt 6 11 w) (fieldAt 3 8 w) (fieldAt 2 6 w) (fieldAt 1 5 w))
  else if bits w 4 0 = 2 then
    some (.atomMaxI (fieldAt 4 23 w) (fieldAt 6 17 w) (fieldAt 6 11 w) (fieldAt 3 8 w) (fieldAt 2 6 w) (fieldAt 1 5 w))
  else if bits w 4 0 = 3 then
    some (.atomMinN (fieldAt 4 23 w) (fieldAt 6 17 w) (fieldAt 6 11 w) (fieldAt 3 8 w) (fieldAt 2 6 w) (fieldAt 1 5 w))
  else if bits w 4 0 = 4 then
    some (.atomMaxN (fieldAt 4 23 w) (fieldAt 6 17 w) (fieldAt 6 11 w) (fieldAt 3 8 w) (fieldAt 2 6 w) (fieldAt 1 5 w))
  else if bits w 4 0 = 5 then
    some (.atomAnd (fieldAt 4 23 w) (fieldAt 6 17 w) (fieldAt 6 11 w) (fieldAt 3 8 w) (fieldAt 2 6 w) (fieldAt 1 5 w))
  else if bits w 4 0 = 6 then
    some (.atomOr (fieldAt 4 23 w) (fieldAt 6 17 w) (fieldAt 6 11 w) (fieldAt 3 8 w) (fieldAt 2 6 w) (fieldAt 1 5 w))
  else if bits w 4 0 = 7 then
    some (.atomXor (fieldAt 4 23 w) (fieldAt 6 17 w) (fieldAt 6 11 w) (fieldAt 3 8 w) (fieldAt 2 6 w) (fieldAt 1 5 w))
  else if bits w 4 0 = 8 then
    some (.atomXchg (fieldAt 4 23 w) (fieldAt 6 17 w) (fieldAt 6 11 w) (fieldAt 3 8 w) (fieldAt 2 6 w) (fieldAt 1 5 w))
  else if bits w 17 17 = 0 ∧ bits w 4 0 = 9 then
    some (.atomCas (fieldAt 4 23 w) (fieldAt 5 18 w) (fieldAt 6 11 w) (fieldAt 3 8 w) (fieldAt 2 6 w) (fieldAt 1 5 w))
  else if bits w 5 0 = 10 then
    some (.atomFadd (fieldAt 4 23 w) (fieldAt 6 17 w) (fieldAt 6 11 w) (fieldAt 3 8 w) (fieldAt 2 6 w))
  else none

/-- Major 0x13 (R63, R64). -/
def decodeSync (w : Nat) : Option Instr :=
  if bits w 26 8 = 0 ∧ bits w 4 0 = 0 then
    some (.fence (fieldAt 3 5 w))
  else if bits w 26 17 = 0 ∧ bits w 10 8 = 0 ∧ bits w 4 0 = 1 then
    some (.wait (fieldAt 6 11 w) (fieldAt 3 5 w))
  else none

/-- Major 0x14 (R63, R64). -/
def decodeQueue (w : Nat) : Option Instr :=
  if bits w 18 9 = 736 ∧ bits w 4 0 = 4 then
    some (.yopHrd (fieldAt 4 23 w) (fieldAt 4 19 w) (fieldAt 4 5 w))
  else if bits w 26 23 = 0 ∧ bits w 18 0 = 393220 then
    some (.yopHwait (fieldAt 4 19 w))
  else if bits w 26 23 = 0 ∧ bits w 16 13 = 0 ∧ bits w 7 0 = 0 then
    some (.pop (fieldAt 6 17 w) (fieldAt 2 11 w) (fieldAt 3 8 w))
  else if bits w 26 23 = 0 ∧ bits w 16 13 = 0 ∧ bits w 7 0 = 1 then
    some (.push (fieldAt 6 17 w) (fieldAt 2 11 w) (fieldAt 3 8 w))
  else if bits w 26 23 = 0 ∧ bits w 16 15 = 0 ∧ bits w 10 0 = 2 then
    some (.qld (fieldAt 4 19 w) (fieldAt 2 17 w) (fieldAt 4 11 w))
  else if bits w 26 23 = 0 ∧ bits w 16 15 = 0 ∧ bits w 10 0 = 3 then
    some (.qst (fieldAt 4 19 w) (fieldAt 2 17 w) (fieldAt 4 11 w))
  else if bits w 14 9 = 0 ∧ bits w 4 0 = 4 then
    some (.yopReg (fieldAt 4 23 w) (fieldAt 4 19 w) (fieldAt 4 15 w) (fieldAt 4 5 w))
  else if bits w 14 14 = 1 ∧ bits w 4 0 = 4 then
    some (.yopImm (fieldAt 4 23 w) (fieldAt 4 19 w) (fieldAt 4 15 w) (fieldAt 9 5 w))
  else if bits w 4 0 = 5 then
    some (.ybr (fieldAt 4 23 w) (fieldAt 4 19 w) (fieldAt 3 16 w) (fieldAt 11 5 w))
  else if bits w 26 0 = 6 then
    some .adone
  else none

/-- Major 0x15 (R63, R64). -/
def decodeShape (w : Nat) : Option Instr :=
  if bits w 26 23 = 0 ∧ bits w 16 15 = 0 ∧ bits w 7 4 = 0 then
    some (.hrd (fieldAt 6 17 w) (fieldAt 4 11 w) (fieldAt 3 8 w) (fieldAt 4 0 w))
  else if bits w 26 23 = 0 ∧ bits w 16 15 = 0 ∧ bits w 7 4 = 1 then
    some (.hwr (fieldAt 6 17 w) (fieldAt 4 11 w) (fieldAt 3 8 w) (fieldAt 4 0 w))
  else none

/-- Major 0x16 (R63, R64). -/
def decodeTile (w : Nat) : Option Instr :=
  if bits w 26 20 = 0 ∧ bits w 10 0 = 0 then
    some (.tcfg (fieldAt 3 17 w) (fieldAt 6 11 w))
  else if bits w 26 20 = 0 ∧ bits w 10 0 = 1 then
    some (.tld (fieldAt 3 17 w) (fieldAt 6 11 w))
  else if bits w 26 20 = 0 ∧ bits w 10 0 = 2 then
    some (.tst (fieldAt 3 17 w) (fieldAt 6 11 w))
  else if bits w 26 20 = 0 ∧ bits w 16 0 = 3 then
    some (.tzero (fieldAt 3 17 w))
  else if bits w 26 20 = 0 ∧ bits w 16 14 = 0 ∧ bits w 10 0 = 4 then
    some (.ttrans (fieldAt 3 17 w) (fieldAt 3 11 w))
  else none

/-- Major 0x17 (R63, R64). -/
def decodeMma (w : Nat) : Option Instr :=
  if bits w 26 21 = 0 ∧ bits w 4 0 = 0 then
    some (.mma (fieldAt 4 17 w) (fieldAt 6 11 w) (fieldAt 3 8 w) (fieldAt 3 5 w))
  else if bits w 26 21 = 0 ∧ bits w 4 0 = 1 then
    some (.mmaExact (fieldAt 4 17 w) (fieldAt 6 11 w) (fieldAt 3 8 w) (fieldAt 3 5 w))
  else if bits w 26 21 = 0 ∧ bits w 4 0 = 2 then
    some (.mmaSb (fieldAt 4 17 w) (fieldAt 6 11 w) (fieldAt 3 8 w) (fieldAt 3 5 w))
  else if bits w 26 21 = 0 ∧ bits w 4 0 = 3 then
    some (.mmaWide (fieldAt 4 17 w) (fieldAt 6 11 w) (fieldAt 3 8 w) (fieldAt 3 5 w))
  else if bits w 26 21 = 0 ∧ bits w 7 0 = 4 then
    some (.zrd (fieldAt 4 17 w) (fieldAt 6 11 w) (fieldAt 3 8 w))
  else if bits w 26 21 = 0 ∧ bits w 16 8 = 0 ∧ bits w 4 0 = 5 then
    some (.zclr (fieldAt 4 17 w) (fieldAt 3 5 w))
  else if bits w 26 21 = 0 ∧ bits w 10 8 = 0 ∧ bits w 4 0 = 6 then
    some (.zld (fieldAt 4 17 w) (fieldAt 6 11 w) (fieldAt 3 5 w))
  else if bits w 26 21 = 0 ∧ bits w 10 0 = 7 then
    some (.zst (fieldAt 4 17 w) (fieldAt 6 11 w))
  else none

/-- Major 0x18 (R63, R64). -/
def decodeCopy (w : Nat) : Option Instr :=
  if bits w 26 17 = 0 ∧ bits w 10 0 = 0 then
    some (.copy (fieldAt 6 11 w))
  else if bits w 26 21 = 0 ∧ bits w 16 15 = 0 ∧ bits w 10 0 = 1 then
    some (.copyh (fieldAt 4 17 w) (fieldAt 4 11 w))
  else if bits w 26 23 = 0 ∧ bits w 7 6 = 0 ∧ bits w 4 0 = 2 then
    some (.gather (fieldAt 6 17 w) (fieldAt 6 11 w) (fieldAt 3 8 w) (fieldAt 1 5 w))
  else if bits w 26 17 = 0 ∧ bits w 10 0 = 3 then
    some (.recfence (fieldAt 6 11 w))
  else none

/-- Major 0x19 (R63, R64). -/
def decodeBar (w : Nat) : Option Instr :=
  if bits w 26 23 = 0 ∧ bits w 10 7 = 0 ∧ bits w 4 0 = 0 then
    some (.barinit (fieldAt 6 17 w) (fieldAt 6 11 w) (fieldAt 2 5 w))
  else if bits w 26 23 = 0 ∧ bits w 10 0 = 1 then
    some (.arrive (fieldAt 6 17 w) (fieldAt 6 11 w))
  else if bits w 26 23 = 0 ∧ bits w 10 0 = 2 then
    some (.waitb (fieldAt 6 17 w) (fieldAt 6 11 w))
  else if bits w 26 17 = 0 ∧ bits w 10 0 = 3 then
    some (.barsync (fieldAt 6 11 w))
  else if bits w 26 23 = 0 ∧ bits w 10 7 = 0 ∧ bits w 4 0 = 4 then
    some (.barmask (fieldAt 6 17 w) (fieldAt 6 11 w) (fieldAt 2 5 w))
  else none

/-- Major 0x1a (R63, R64). -/
def decodePage (w : Nat) : Option Instr :=
  if bits w 26 23 = 0 ∧ bits w 10 0 = 0 then
    some (.discard (fieldAt 6 17 w) (fieldAt 6 11 w))
  else if bits w 26 23 = 0 ∧ bits w 7 7 = 0 ∧ bits w 4 0 = 1 then
    some (.adobeq (fieldAt 6 17 w) (fieldAt 6 11 w) (fieldAt 3 8 w) (fieldAt 2 5 w))
  else if bits w 26 23 = 0 ∧ bits w 10 7 = 0 ∧ bits w 4 0 = 2 then
    some (.tlbinv (fieldAt 6 17 w) (fieldAt 6 11 w) (fieldAt 2 5 w))
  else if bits w 26 23 = 0 ∧ bits w 10 8 = 0 ∧ bits w 4 0 = 3 then
    some (.mappg (fieldAt 6 17 w) (fieldAt 6 11 w) (fieldAt 3 5 w))
  else if bits w 26 0 = 4 then
    some .fretResume
  else if bits w 26 0 = 36 then
    some .fretEscalate
  else if bits w 26 0 = 68 then
    some .fretKill
  else if bits w 26 0 = 100 then
    some .fretPoolEmpty
  else none

/-- Major 0x1b (R63, R64). -/
def decodeBal (w : Nat) : Option Instr :=
  if bits w 26 17 = 0 ∧ bits w 10 5 = 0 ∧ bits w 1 0 = 0 then
    some (.burn (fieldAt 6 11 w) (fieldAt 3 2 w))
  else if bits w 26 17 = 0 ∧ bits w 10 5 = 0 ∧ bits w 1 0 = 1 then
    some (.shunt (fieldAt 6 11 w) (fieldAt 3 2 w))
  else if bits w 26 23 = 0 ∧ bits w 16 5 = 0 ∧ bits w 1 0 = 2 then
    some (.balrd (fieldAt 6 17 w) (fieldAt 3 2 w))
  else if bits w 26 17 = 0 ∧ bits w 10 5 = 0 ∧ bits w 1 0 = 3 then
    some (.balclass (fieldAt 6 11 w) (fieldAt 3 2 w))
  else none

/-- Major 0x1c (R63, R64). -/
def decodeTrap (w : Nat) : Option Instr :=
  if bits w 26 21 = 0 then
    some (.trap (fieldAt 21 0 w))
  else if bits w 26 21 = 1 then
    some (.bkpt (fieldAt 21 0 w))
  else none

/-- Major 0x1d (R63, R64). -/
def decodeFrame (w : Nat) : Option Instr :=
  if bits w 26 0 = 0 then
    some .ret
  else if bits w 26 8 = 8192 then
    some (.unwind (fieldAt 8 0 w))
  else if bits w 26 21 = 2 ∧ bits w 8 0 = 0 then
    some (.callx (fieldAt 6 15 w) (fieldAt 6 9 w))
  else none

/-- Major 0x1e (R63, R64). -/
def decodeRng (w : Nat) : Option Instr :=
  if bits w 16 5 = 0 ∧ bits w 1 0 = 0 then
    some (.rand (fieldAt 4 23 w) (fieldAt 6 17 w) (fieldAt 3 2 w))
  else if bits w 26 17 = 0 ∧ bits w 1 0 = 1 then
    some (.seed (fieldAt 6 11 w) (fieldAt 6 5 w) (fieldAt 3 2 w))
  else if bits w 26 25 = 2 ∧ bits w 23 23 = 0 ∧ bits w 10 5 = 0 ∧ bits w 1 0 = 2 then
    some (.catsample (fieldAt 1 24 w) (fieldAt 6 17 w) (fieldAt 6 11 w) (fieldAt 3 2 w))
  else none

/-- The row whose fixed bits a word has, by its major opcode. -/
def decodeForm (w : Nat) : Option Instr :=
  match bits w 31 27 with
  | 0 => decodeSys w
  | 1 => decodeHint w
  | 2 => decodeBr w
  | 3 => decodeCall w
  | 4 => decodeIalu w
  | 5 => decodeIalui w
  | 6 => decodeLogic w
  | 7 => decodeLogici w
  | 8 => decodeCmp w
  | 9 => decodeCmpi w
  | 10 => decodeFalu w
  | 11 => decodeFma w
  | 12 => decodeCvt w
  | 13 => decodeXlane w
  | 14 => decodeVote w
  | 15 => decodeSfu w
  | 16 => decodeLd w
  | 17 => decodeSt w
  | 18 => decodeAtom w
  | 19 => decodeSync w
  | 20 => decodeQueue w
  | 21 => decodeShape w
  | 22 => decodeTile w
  | 23 => decodeMma w
  | 24 => decodeCopy w
  | 25 => decodeBar w
  | 26 => decodePage w
  | 27 => decodeBal w
  | 28 => decodeTrap w
  | 29 => decodeFrame w
  | 30 => decodeRng w
  | _ => none

/-- A word read as an instruction, or refused by name. -/
def decode (w : Word) : Except DecodeError Instr :=
  if bits w.toNat 31 27 = 31 then .error .unassignedMajor
  else match decodeForm w.toNat with
    | none => .error .noSuchForm
    | some i => match i.defect with
      | none => .ok i
      | some why => .error (.illFormed why)

/-- The word in four bytes stored little-endian (R7, R60). -/
def wordOfBytes (b0 b1 b2 b3 : Byte) : Word := b3 ++ b2 ++ b1 ++ b0

/-- Decoding of bytes as they lie in memory: an instruction is four bytes (R60). -/
def decodeBytes : List Byte → Except DecodeError Instr
  | b0 :: b1 :: b2 :: b3 :: _ => decode (wordOfBytes b0 b1 b2 b3)
  | _ => .error .noSuchForm

/-- Byte k of a number laid out little-endian. -/
def byteOf (w k : Nat) : Byte := BitVec.ofNat 8 (w / 2 ^ (8 * k))

/-- What the decoder reads from an instruction of nbits bits numbered as the opcode table numbers them: a word is 32 bits,
so bits above nbits are 0. -/
def decodeTableWord (nbits w : Nat) : Option Instr :=
  let v := w % 2 ^ nbits
  match decodeBytes [byteOf v 0, byteOf v 1, byteOf v 2, byteOf v 3] with
  | .ok i => some i
  | .error _ => none

/-- A field in its place: its value times two to the number of its lowest bit. -/
def place {n : Nat} (f : BitVec n) (lo : Nat) : Nat := f.toNat * 2 ^ lo

/-- Fixed bits and placed fields added up. -/
def word (fixed : Nat) : List Nat → Nat
  | [] => fixed
  | f :: rest => word fixed rest + f

/-- The word of an instruction as a number: the fixed bits of its row and its fields in their places. -/
def encodeNat : Instr → Nat
  | .illegal i => word 0x0 [place i 0]
  | .nop x => word 0x200000 [place x 0]
  | .syscall c => word 0x400000 [place c 0]
  | .crrd d n => word 0x600000 [place d 15, place n 7]
  | .crwr s n => word 0x800000 [place s 15, place n 7]
  | .enq a q => word 0xa00000 [place a 15, place q 0]
  | .himm i => word 0x8000000 [place i 0]
  | .himmhi i => word 0x9000000 [place i 0]
  | .hmod e r s n x o c k => word 0xa000000 [place e 23, place r 20, place s 19, place n 18, place x 17, place o 14, place c 13, place k 10]
  | .hsched y l => word 0xb000000 [place y 4, place l 0]
  | .hoff o => word 0xc000000 [place o 0]
  | .bra o => word 0x10000000 [place o 0]
  | .braGuarded p o => word 0x11000000 [place p 21, place o 0]
  | .braAny p o => word 0x12000000 [place p 21, place o 0]
  | .braAll p o => word 0x13000000 [place p 21, place o 0]
  | .reconv k o => word 0x14000000 [place k 20, place o 0]
  | .join k => word 0x15000000 [place k 20]
  | .exit p => word 0x16000000 [place p 21]
  | .brx t p => word 0x17000000 [place t 18, place p 15]
  | .call d o => word 0x18000000 [place d 21, place o 0]
  | .ialuAdd t d a b p => word 0x20000000 [place t 23, place d 17, place a 11, place b 5, place p 2]
  | .ialuSub t d a b p => word 0x20000001 [place t 23, place d 17, place a 11, place b 5, place p 2]
  | .ialuMul t d a b p => word 0x20000002 [place t 23, place d 17, place a 11, place b 5, place p 2]
  | .ialuMin t d a p => word 0x20000023 [place t 23, place d 17, place a 11, place p 2]
  | .ialuMax t d a p => word 0x20000043 [place t 23, place d 17, place a 11, place p 2]
  | .ialuNeg t d a p => word 0x20000063 [place t 23, place d 17, place a 11, place p 2]
  | .ialuAbs t d a p => word 0x20000083 [place t 23, place d 17, place a 11, place p 2]
  | .absdiff t d a p => word 0x200000a3 [place t 23, place d 17, place a 11, place p 2]
  | .avg t d a p => word 0x200000c3 [place t 23, place d 17, place a 11, place p 2]
  | .mulhi t d a p => word 0x200000e3 [place t 23, place d 17, place a 11, place p 2]
  | .mulw t d a p => word 0x20000103 [place t 23, place d 17, place a 11, place p 2]
  | .addw t d a p => word 0x20000123 [place t 23, place d 17, place a 11, place p 2]
  | .subw t d a p => word 0x20000143 [place t 23, place d 17, place a 11, place p 2]
  | .ialuiAdd t d a i => word 0x28000000 [place t 23, place d 17, place a 11, place i 0]
  | .movImm d i => word 0x2f800000 [place d 17, place i 0]
  | .lop t d a b p => word 0x30000000 [place t 23, place d 17, place a 11, place b 5, place p 2]
  | .shl t d a b p => word 0x30000001 [place t 23, place d 17, place a 11, place b 5, place p 2]
  | .shr t d a b p => word 0x30000002 [place t 23, place d 17, place a 11, place b 5, place p 2]
  | .bfx d a b p => word 0x30000003 [place d 17, place a 11, place b 5, place p 2]
  | .bfxs d a b p => word 0x30800003 [place d 17, place a 11, place b 5, place p 2]
  | .bfi d a b p => word 0x31000003 [place d 17, place a 11, place b 5, place p 2]
  | .popc d a p => word 0x31800003 [place d 17, place a 11, place p 2]
  | .clz d a p => word 0x32000003 [place d 17, place a 11, place p 2]
  | .ctz d a p => word 0x32800003 [place d 17, place a 11, place p 2]
  | .brev d a p => word 0x33000003 [place d 17, place a 11, place p 2]
  | .rol d a b p => word 0x33800003 [place d 17, place a 11, place b 5, place p 2]
  | .ror d a b p => word 0x34000003 [place d 17, place a 11, place b 5, place p 2]
  | .lopi t d a i => word 0x38000000 [place t 23, place d 17, place a 11, place i 0]
  | .cmp t c q a b p => word 0x40000000 [place t 23, place c 20, place q 17, place a 11, place b 5, place p 2]
  | .sel t d a b p => word 0x40000001 [place t 23, place d 17, place a 11, place b 5, place p 2]
  | .plop t d a b p => word 0x40000002 [place t 23, place d 17, place a 11, place b 5, place p 2]
  | .test t q a m p => word 0x44000003 [place t 23, place q 17, place a 11, place m 5, place p 2]
  | .cmpi t c q a i => word 0x48000000 [place t 23, place c 20, place q 17, place a 11, place i 0]
  | .faluAdd t d a b p => word 0x54000000 [place t 23, place d 17, place a 11, place b 5, place p 2]
  | .faluSub t d a b p => word 0x54000001 [place t 23, place d 17, place a 11, place b 5, place p 2]
  | .faluMul t d a b p => word 0x54000002 [place t 23, place d 17, place a 11, place b 5, place p 2]
  | .faluMin t d a p => word 0x54000023 [place t 23, place d 17, place a 11, place p 2]
  | .faluMax t d a p => word 0x54000043 [place t 23, place d 17, place a 11, place p 2]
  | .faluNeg t d a p => word 0x54000063 [place t 23, place d 17, place a 11, place p 2]
  | .faluAbs t d a p => word 0x54000083 [place t 23, place d 17, place a 11, place p 2]
  | .rint t d a p => word 0x54000143 [place t 23, place d 17, place a 11, place p 2]
  | .fma t d a b p => word 0x5c000000 [place t 23, place d 17, place a 11, place b 5, place p 2]
  | .mad t d a b p => word 0x58000000 [place t 23, place d 17, place a 11, place b 5, place p 2]
  | .fms t d a b p => word 0x5c000001 [place t 23, place d 17, place a 11, place b 5, place p 2]
  | .fnma t d a b p => word 0x5c000002 [place t 23, place d 17, place a 11, place b 5, place p 2]
  | .dot4 t d a b p => word 0x58000003 [place t 23, place d 17, place a 11, place b 5, place p 2]
  | .cvt t d a s p => word 0x60000000 [place t 23, place d 17, place a 11, place s 5, place p 2]
  | .cvtFp8 f d a s p => word 0x60000001 [place f 23, place d 17, place a 11, place s 5, place p 2]
  | .routePick t d a b p => word 0x68000000 [place t 23, place d 17, place a 11, place b 5, place p 2]
  | .routeSlide t d a b p => word 0x68000001 [place t 23, place d 17, place a 11, place b 5, place p 2]
  | .routeRot t d a b p => word 0x68000002 [place t 23, place d 17, place a 11, place b 5, place p 2]
  | .routeFlip t d a b p => word 0x68000003 [place t 23, place d 17, place a 11, place b 5, place p 2]
  | .vote o d q p => word 0x70000000 [place o 23, place d 17, place q 11, place p 2]
  | .reduce t d a o p => word 0x70000001 [place t 23, place d 17, place a 11, place o 5, place p 2]
  | .scan t d a x o p => word 0x70000002 [place t 23, place d 17, place a 11, place x 8, place o 5, place p 2]
  | .matchB64 d a p => word 0x77800003 [place d 17, place a 11, place p 2]
  | .rcp t d a p => word 0x7c000000 [place t 23, place d 17, place a 11, place p 2]
  | .rsqrt t d a p => word 0x7c000020 [place t 23, place d 17, place a 11, place p 2]
  | .sqrt t d a p => word 0x7c000040 [place t 23, place d 17, place a 11, place p 2]
  | .exp2 t d a p => word 0x7c000060 [place t 23, place d 17, place a 11, place p 2]
  | .log2 t d a p => word 0x7c000080 [place t 23, place d 17, place a 11, place p 2]
  | .sin t d a p => word 0x7c0000a0 [place t 23, place d 17, place a 11, place p 2]
  | .cos t d a p => word 0x7c0000c0 [place t 23, place d 17, place a 11, place p 2]
  | .tanh t d a p => word 0x7c0000e0 [place t 23, place d 17, place a 11, place p 2]
  | .div t d a b p => word 0x7c000001 [place t 23, place d 17, place a 11, place b 5, place p 2]
  | .idiv t d a b p => word 0x78000002 [place t 23, place d 17, place a 11, place b 5, place p 2]
  | .irem t d a b p => word 0x78000003 [place t 23, place d 17, place a 11, place b 5, place p 2]
  | .ld l d b p w => word 0x80000000 [place l 23, place d 17, place b 11, place p 8, place w 5]
  | .lda l d b p w s => word 0x80000008 [place l 23, place d 17, place b 11, place p 8, place w 5, place s 0]
  | .st s b p w => word 0x88000000 [place s 17, place b 11, place p 8, place w 5]
  | .str s b p w c => word 0x88000008 [place s 17, place b 11, place p 8, place w 5, place c 0]
  | .atomAdd l d b p o s => word 0x90000000 [place l 23, place d 17, place b 11, place p 8, place o 6, place s 5]
  | .atomMinI l d b p o s => word 0x90000001 [place l 23, place d 17, place b 11, place p 8, place o 6, place s 5]
  | .atomMaxI l d b p o s => word 0x90000002 [place l 23, place d 17, place b 11, place p 8, place o 6, place s 5]
  | .atomMinN l d b p o s => word 0x90000003 [place l 23, place d 17, place b 11, place p 8, place o 6, place s 5]
  | .atomMaxN l d b p o s => word 0x90000004 [place l 23, place d 17, place b 11, place p 8, place o 6, place s 5]
  | .atomAnd l d b p o s => word 0x90000005 [place l 23, place d 17, place b 11, place p 8, place o 6, place s 5]
  | .atomOr l d b p o s => word 0x90000006 [place l 23, place d 17, place b 11, place p 8, place o 6, place s 5]
  | .atomXor l d b p o s => word 0x90000007 [place l 23, place d 17, place b 11, place p 8, place o 6, place s 5]
  | .atomXchg l d b p o s => word 0x90000008 [place l 23, place d 17, place b 11, place p 8, place o 6, place s 5]
  | .atomCas l d b p o s => word 0x90000009 [place l 23, place d 18, place b 11, place p 8, place o 6, place s 5]
  | .atomFadd l d b p o => word 0x9000000a [place l 23, place d 17, place b 11, place p 8, place o 6]
  | .fence s => word 0x98000000 [place s 5]
  | .wait t h => word 0x98000001 [place t 11, place h 5]
  | .pop d n p => word 0xa0000000 [place d 17, place n 11, place p 8]
  | .push s n p => word 0xa0000001 [place s 17, place n 11, place p 8]
  | .qld i n k => word 0xa0000002 [place i 19, place n 17, place k 11]
  | .qst i n k => word 0xa0000003 [place i 19, place n 17, place k 11]
  | .yopReg d a o b => word 0xa0000004 [place d 23, place a 19, place o 15, place b 5]
  | .yopImm d a o i => word 0xa0004004 [place d 23, place a 19, place o 15, place i 5]
  | .yopHrd d a s => word 0xa005c004 [place d 23, place a 19, place s 5]
  | .yopHwait a => word 0xa0060004 [place a 19]
  | .ybr a b c o => word 0xa0000005 [place a 23, place b 19, place c 16, place o 5]
  | .adone => word 0xa0000006 []
  | .hrd d k p s => word 0xa8000000 [place d 17, place k 11, place p 8, place s 0]
  | .hwr d k p s => word 0xa8000010 [place d 17, place k 11, place p 8, place s 0]
  | .tcfg t s => word 0xb0000000 [place t 17, place s 11]
  | .tld t b => word 0xb0000001 [place t 17, place b 11]
  | .tst t b => word 0xb0000002 [place t 17, place b 11]
  | .tzero t => word 0xb0000003 [place t 17]
  | .ttrans d s => word 0xb0000004 [place d 17, place s 11]
  | .mma k f a b => word 0xb8000000 [place k 17, place f 11, place a 8, place b 5]
  | .mmaExact k f a b => word 0xb8000001 [place k 17, place f 11, place a 8, place b 5]
  | .mmaSb k f a b => word 0xb8000002 [place k 17, place f 11, place a 8, place b 5]
  | .mmaWide k f a b => word 0xb8000003 [place k 17, place f 11, place a 8, place b 5]
  | .zrd k r d => word 0xb8000004 [place k 17, place r 11, place d 8]
  | .zclr k n => word 0xb8000005 [place k 17, place n 5]
  | .zld k b n => word 0xb8000006 [place k 17, place b 11, place n 5]
  | .zst k b => word 0xb8000007 [place k 17, place b 11]
  | .copy r => word 0xc0000000 [place r 11]
  | .copyh d s => word 0xc0000001 [place d 17, place s 11]
  | .gather i r p w => word 0xc0000002 [place i 17, place r 11, place p 8, place w 5]
  | .recfence r => word 0xc0000003 [place r 11]
  | .barinit m b k => word 0xc8000000 [place m 17, place b 11, place k 5]
  | .arrive t b => word 0xc8000001 [place t 17, place b 11]
  | .waitb t b => word 0xc8000002 [place t 17, place b 11]
  | .barsync b => word 0xc8000003 [place b 11]
  | .barmask m b k => word 0xc8000004 [place m 17, place b 11, place k 5]
  | .discard l b => word 0xd0000000 [place l 17, place b 11]
  | .adobeq d s p k => word 0xd0000001 [place d 17, place s 11, place p 8, place k 5]
  | .tlbinv l a k => word 0xd0000002 [place l 17, place a 11, place k 5]
  | .mappg d a k => word 0xd0000003 [place d 17, place a 11, place k 5]
  | .fretResume => word 0xd0000004 []
  | .fretEscalate => word 0xd0000024 []
  | .fretKill => word 0xd0000044 []
  | .fretPoolEmpty => word 0xd0000064 []
  | .burn s p => word 0xd8000000 [place s 11, place p 2]
  | .shunt s p => word 0xd8000001 [place s 11, place p 2]
  | .balrd d p => word 0xd8000002 [place d 17, place p 2]
  | .balclass s p => word 0xd8000003 [place s 11, place p 2]
  | .trap c => word 0xe0000000 [place c 0]
  | .bkpt g => word 0xe0200000 [place g 0]
  | .ret => word 0xe8000000 []
  | .unwind t => word 0xe8200000 [place t 0]
  | .callx t d => word 0xe8400000 [place t 15, place d 9]
  | .rand t d p => word 0xf0000000 [place t 23, place d 17, place p 2]
  | .seed a b p => word 0xf0000001 [place a 11, place b 5, place p 2]
  | .catsample t d a p => word 0xf4000002 [place t 24, place d 17, place a 11, place p 2]
  | _ => 0

/-- The word of a word instruction; an event has none. -/
def encode (i : Instr) : Option Word :=
  if i.isWord then some (BitVec.ofNat 32 (encodeNat i)) else none

/-- Operand word k of a 64-byte command record (R381): the 64-bit little-endian word at byte 8 + 8k. -/
def commandOperand (record k : Nat) : BitVec 64 := BitVec.ofNat 64 (record / 2 ^ (64 + 64 * k))

/-- A command record read as a command (R381): opcode in byte 0, operands in their order. What it makes of nonzero unused bytes and high
bits is the command's own affair. -/
def decodeCommand (record : Nat) : Instr :=
  let o (k : Nat) : BitVec 64 := commandOperand record k
  match record % 256 with
  | 0x01 => .setctxt (o 0)
  | 0x02 => .setqt (o 0)
  | 0x03 => .map (o 0) (o 1) (o 2) (o 3)
  | 0x04 => .unmap (o 0) (o 1)
  | 0x05 => .inval (o 0) (o 1) (o 2) (o 3)
  | 0x06 => .icinv
  | 0x07 => .resume (o 0) (o 1)
  | 0x08 => .kill (o 0) (o 1)
  | 0x09 => .sysret (o 0) (o 1)
  | 0x0A => .dieon (o 0)
  | 0x0B => .attest (BitVec.ofNat 256 (record / 2 ^ 64)) (o 4)
  | 0x0C => .timeset (o 0)
  | op => .commandBadOpcode (BitVec.ofNat 8 op)

end Sys2Proof
end

