-- ==== Sys2Proof/Machine/State.lean ====
section
/-! DEFINITION. The state of the package: everything the spec gives the machine, as plain data, and the state after a cold
start (R391). Sparse maps (`NMap`) list only what differs from what an unlisted key reads as. -/

namespace Sys2Proof.Machine

/-- One instruction-issuing place of a group. -/
inductive Source where
  /-- execute stream, slot A (R36) -/
  | slotA
  /-- execute stream, slot B (R36) -/
  | slotB
  /-- the handler slot (R172) -/
  | handler
  /-- the access stream (R152) -/
  | access
  deriving DecidableEq, Repr

/-- States of a slot (R36). -/
inductive SlotLife where
  | empty
  | ready
  | stalled
  | held
  | parked
  deriving DecidableEq, Repr

/-- A hint word that its slot has issued and that has not bound yet (R68). -/
structure Hint where
  addr : Lane
  word : Word
  deriving DecidableEq, Repr

/-- A PC slot (R36). -/
structure Slot where
  life : SlotLife := .empty
  pc : Lane := 0
  mask : Mask := 0
  /-- of a HELD slot: the caller's depth -/
  tag : Nat := 0
  /-- number of the issue the slot made last since it left EMPTY; 0 for none -/
  issued : Nat := 0
  hints : List Hint := []
  /-- the slot waits in WAITB or BARSYNC (R197, R263) -/
  atBarrier : Bool := false
  /-- the slot waits on a load result, a POP, a full queue, or a WAIT on LD, ST, CPY or QS (R302) -/
  onMemory : Bool := false
  deriving DecidableEq, Repr

/-- A join entry (R39). -/
structure Join where
  armed : Bool := false
  expected : Mask := 0
  arrived : Mask := 0
  pc : Lane := 0
  depth : Nat := 0
  deriving DecidableEq, Repr

/-- A record of the divergence stack (R38). -/
structure DivRec where
  pc : Lane
  mask : Mask
  kind : Nat
  depth : Nat
  deriving DecidableEq, Repr

/-- A frame of the call chain and its link record (R41, R43). -/
structure Frame where
  link : Lane := 0
  /-- granules the frame owns -/
  own : Nat := 0
  /-- lowest owned granule as the link record gives it -/
  base : Nat := 0
  spilled : Bool := false
  topKept : Bool := false
  /-- registers of the frame -/
  size : Nat := 8
  /-- granules in the file, in register order: all, the kept top one, or none -/
  grans : List Nat := []
  deriving DecidableEq, Repr

/-- Access-stream states (R152). -/
inductive StreamLife where
  | running
  | stalled
  | done
  deriving DecidableEq, Repr

/-- Queue entry states (R49). -/
inductive EntryLife where
  | free
  | reserved
  | full
  deriving DecidableEq, Repr

/-- An entry of an operand queue: 32 lanes of 8 bytes (R49). -/
structure QEntry where
  life : EntryLife := .free
  data : NMap Lane := []
  /-- byte mask of a store-queue entry, by lane -/
  mask : NMap Byte := []
  /-- poison of the halves, bit 0 low and bit 1 high, by lane -/
  poison : NMap (BitVec 2) := []
  /-- a QST has bound the entry (R154) -/
  bound : Bool := false
  deriving DecidableEq, Repr

/-- An operand queue: entries 0 to 7, and those in use in reservation or push order (R49). -/
structure Queue where
  entries : NMap QEntry := []
  order : List Nat := []
  /-- entry after the one taken last -/
  next : Nat := 0
  deriving DecidableEq, Repr

/-- The in-flight paths of R53. -/
inductive Path where
  | ld
  | st
  | cpy
  | mma
  | qs
  | sfu
  deriving DecidableEq, Repr

/-- One lane's access: where it goes and the register cell of the file it fills. -/
structure LaneAcc where
  lane : Nat
  va : Lane
  /-- physical address, or on-chip physical window address -/
  place : Nat
  /-- cell of the register file, 32 x register + lane -/
  cell : Nat := 0
  /-- operand of a store or an atomic -/
  operand : Lane := 0
  /-- new value of a CAS -/
  swap : Lane := 0
  /-- result, once the lane has been performed -/
  value : Lane := 0
  /-- result poisoned -/
  bad : Bool := false
  /-- the lane has been performed -/
  done : Bool := false
  /-- bytes of the access that have been performed on their own, with the poison read (R354) -/
  got : NMap (Byte × Bool) := []
  /-- the memory value of an atomic has been read and not yet written (R149) -/
  half : Bool := false
  deriving DecidableEq, Repr

/-- A write to part of a register cell (R73, R74). -/
structure CellWrite where
  cell : Nat
  /-- the bits written -/
  bits : Lane
  value : Lane
  /-- halves marked poisoned, bit 0 low and bit 1 high -/
  poison : BitVec 2 := 0
  deriving DecidableEq, Repr

/-- Atomic operations of R148. -/
inductive AtomOp where
  | add
  | minI
  | maxI
  | minN
  | maxN
  | and
  | or
  | xor
  | xchg
  | cas
  | fadd
  deriving DecidableEq, Repr

/-- One end of a copied element: its pieces, start and bytes, and whether it was reached through an on-chip window (R193, R245). -/
structure End where
  segs : List (Nat × Nat)
  window : Bool := false
  deriving DecidableEq, Repr

/-- One element of a copy: a source or a constant, and every place it is still to be written to (R250). -/
structure Move where
  /-- source; none takes the constant -/
  src : Option End
  const : Lane := 0
  dsts : List End
  /-- places that it has been written to -/
  did : List End := []
  bytes : Nat
  /-- what has been read: each byte with the poison of the 64-bit word it came from (R250) -/
  held : Option (List (Byte × Bool)) := none
  deriving DecidableEq, Repr

/-- Whose bandwidth an HBM4E transfer counts against (R322). -/
inductive Traffic where
  /-- a bandwidth class of a launch record or of the host port -/
  | launch (cls : Nat)
  /-- walks, saves, management reads and writes, late frame assignment -/
  | management
  deriving DecidableEq, Repr

/-- One write of an operation of the matrix unit that is still to be performed: place, bytes, poison. -/
structure UnitWrite where
  place : Nat
  bytes : List Byte
  bad : Bool
  deriving DecidableEq, Repr

/-- A TILE or MMA operation (R211). -/
structure UnitOp where
  ins : Instr
  scalar : Lane := 0
  /-- rounding mode or cache policy -/
  mode : Nat := 0
  /-- kind of its accumulator tile; for ZCLR and ZLD the kind before it -/
  kind : Nat := 0
  /-- memory in row order -/
  segs : List (Nat × Nat) := []
  /-- of a TLD or ZLD: the pieces of its memory that have been read, by number, each byte with the poison of its word -/
  got : NMap (List (Byte × Bool)) := []
  started : Bool := false
  /-- what a TST or ZST has read and not yet written -/
  out : List UnitWrite := []
  /-- core cycle at which its counter may fall, once it has started (R227) -/
  ends : Nat := 0
  deriving DecidableEq, Repr

/-- What an operation in flight is. -/
inductive Work where
  /-- LD and LDA (R143, R145): bytes, sign-extended, acquire scope, cache policy -/
  | load (bytes : Nat) (signed : Bool) (lanes : List LaneAcc) (acquire : Option Nat) (cache : Nat)
  /-- ST (none) and STR (R144, R145), and the cache policy -/
  | store (bytes : Nat) (release : Option Nat) (cache : Nat) (lanes : List LaneAcc)
  /-- ATOM (R148), and the cache policy -/
  | atomic (op : AtomOp) (bytes : Nat) (order scope cache : Nat) (lanes : List LaneAcc)
  /-- an SFU operation (R127): its pipe, its latency, the cycles for which it holds the unit, and once it has started the core cycle at which its result arrives -/
  | sfu (pipe latency busy : Nat) (arrives : Option Nat) (writes : List CellWrite)
  /-- ADOBEQ (R340) -/
  | adobeq (writes : List CellWrite)
  /-- DISCARD (R339): lines -/
  | discard (lines : List Nat)
  /-- ENQ (R164): bytes of the record, queue, scope -/
  | enq (places : List (Nat × Nat)) (queue scope : Nat)
  /-- a TILE or MMA operation (R211) -/
  | matrix (op : UnitOp)
  /-- a copy (R256): scope, cache policy, moves, place of the completion word, and the ranges of virtual addresses it translated (R258) -/
  | copy (scope cache : Nat) (moves : List Move) (signal : Option (Nat × Bool)) (ranges : List (Nat × Nat))
  /-- QLD (R154): queue, entry, elements (lane, sub-element, place; none is padding already in place), element bytes -/
  | qld (queue entry bytes : Nat) (elements : List (Nat × Nat × Nat))
  /-- QST (R154): queue, entry, shape, first index, masked elements once checked -/
  | qst (queue entry : Nat) (shape : BitVec 512) (index : Lane) (bytes : Nat) (elements : Option (List (Nat × Nat × Nat)))
  deriving DecidableEq, Repr

/-- An operation in flight: its counter holds it from its issue until it and every older one of its path has finished (R53). -/
structure Op where
  id : Nat
  path : Path
  src : Source
  finished : Bool := false
  work : Work
  deriving DecidableEq, Repr

/-- A deferred write and what is left of its window (R73, R74). -/
structure Deferred where
  op : Nat
  src : Source
  left : Nat
  /-- registers of the file it will write -/
  regs : List Nat
  /-- the writes, once the result has arrived -/
  writes : Option (List CellWrite) := none
  /-- physical lanes whose residue check has failed since the issue: the halves that they write are poisoned (R189) -/
  hit : List Nat := []
  deriving DecidableEq, Repr

/-- The trap record, control registers 0x20 to 0x25 (R169). -/
structure TrapRecord where
  cause : Lane := 0
  pc : Lane := 0
  resume : Lane := 0
  mask : Lane := 0
  addr : NMap Lane := []
  info : NMap Lane := []
  deriving DecidableEq, Repr

/-- How a stop goes on (R166, R168, R176). -/
inductive Fate where
  | handler
  | debugger
  | gang
  deriving DecidableEq, Repr

/-- A stop taken, its record not yet written (R172). -/
structure Stop where
  src : Option Source
  record : TrapRecord
  fate : Fate
  deriving DecidableEq, Repr

/-- Stages of a STOPPED group (R172, R175). -/
inductive Stage where
  /-- not stopped -/
  | running
  /-- the stop has taken effect; the record waits for SFU results and deferred writes -/
  | draining
  /-- the record is written; a handler frame is awaited -/
  | frameWait
  /-- the handler slot runs -/
  | inHandler
  /-- escalated or held for a debugger: the host decides -/
  | escalated
  /-- the gang is to be killed -/
  | doomed
  deriving DecidableEq, Repr

/-- Life of a group (R56). -/
inductive Life where
  | pending
  | live
  | stopped
  | saved
  | draining
  | ended
  deriving DecidableEq, Repr

/-- Kinds of waiting frame request (R42). -/
inductive FrameKind where
  /-- CALL and CALLX: demand in registers, target, link -/
  | call (size : Nat) (target link : Lane)
  /-- RET and UNWIND (with the LINK to go on at) and EXIT (none), once they have left the deeper frames (R48, R138) -/
  | refill (link : Option Lane)
  /-- the first refill of a restored group (R55) -/
  | restore
  /-- the launch frame of a PENDING group -/
  | launch
  deriving DecidableEq, Repr

/-- A waiting frame request (R42). -/
structure FrameReq where
  gid : Nat
  src : Source
  kind : FrameKind
  grans : Nat
  /-- core cycle in which it began to wait -/
  since : Nat := 0
  deriving DecidableEq, Repr

/-- An arrival on its way to its barrier object (R263). -/
structure Arrival where
  src : Source
  object : Nat
  /-- register cells that take the generation -/
  cells : List Nat
  /-- BARSYNC: the slot goes on waiting for its generation -/
  sync : Bool
  deriving DecidableEq, Repr

/-- A group (R33). -/
structure Group where
  team : Nat := 0
  core : Nat := 0
  /-- core group number (R185) -/
  number : Nat := 0
  /-- cr.group and cr.role (R52) -/
  index : Nat := 0
  role : Nat := 0
  life : Life := .pending
  stage : Stage := .running
  a : Slot := {}
  b : Slot := {}
  h : Slot := {}
  /-- slot that a YIELD prefers at the next choice (R71) -/
  prefer : Option Source := none
  /-- number of the group's last issue; 0 for none (R185) -/
  issued : Nat := 0
  /-- predicates p1 to p7, 32 x p + lane (R35) -/
  preds : NMap Byte := []
  joins : NMap Join := []
  /-- divergence stack, top first (R38) -/
  div : List DivRec := []
  /-- frames, current one first (R41) -/
  frames : List Frame := []
  handlerGrans : List Nat := []
  accessPc : Lane := 0
  accessLife : StreamLife := .done
  y : NMap Lane := []
  queues : NMap Queue := []
  shapes : NMap (BitVec 512) := []
  /-- operations in flight when a shape register was last written: the access stream goes after them (R359) -/
  shapeAfter : NMap (List Nat) := []
  flight : List Op := []
  defers : List Deferred := []
  /-- generator (R128) -/
  keys : NMap Lane := []
  ctrs : NMap Lane := []
  trap : TrapRecord := {}
  hwin : Lane := 0
  stop : Option Stop := none
  frameReq : Option FrameReq := none
  /-- arrivals of its slots on their way to their objects, oldest first (R263) -/
  arrivals : List Arrival := []
  /-- BARSYNC of a slot whose arrival has counted: its generation, slot A then slot B (R263) -/
  token : NMap Nat := []
  /-- tag of the record that a parked slot or an escalated stop waits on (R380) -/
  tag : Option Nat := none
  /-- result of a system call that arrived while the group was saved (R162) -/
  sysret : Option Lane := none
  /-- the host resumed the stop while the group was saved (R175, R381) -/
  resumed : Bool := false
  /-- a cause 0x30 to be taken at the next instruction boundary (R200) -/
  imbalance : Bool := false
  /-- offsets of the stack records that memory has held current since the group stopped (R38, R43) -/
  shown : List Nat := []
  /-- a pre-emption request is in force (R57) -/
  preempt : Bool := false
  burn : Nat := 0
  shunt : Nat := 0
  /-- tile allotment: first tile register of the core and count (R206) -/
  tile0 : Nat := 0
  tiles : Nat := 0
  /-- accumulator allotment: first slot of the core that z0 names and count (R206) -/
  acc0 : Nat := 0
  accs : Nat := 0
  zshared : Bool := false
  pbase : Lane := 0
  psize : Lane := 0
  lrec : Lane := 0
  qdir : BitVec 4 := 0
  task : Lane := 0
  /-- protected launch mode (R181), versioned launch (R335), SYSCALL permitted (R166) -/
  prot : Bool := false
  versioned : Bool := false
  syscalls : Bool := false
  deriving DecidableEq, Repr

/-- Life of a team. -/
inductive TeamLife where
  | live
  | saving
  | saved
  | ended
  deriving DecidableEq, Repr

/-- A team (R242, R274, R285). -/
structure Team where
  gang : Nat := 0
  launch : Nat := 0
  rank : Nat := 0
  /-- tile coordinates and team number (R281) -/
  tx : Nat := 0
  ty : Nat := 0
  number : Nat := 0
  core : Nat := 0
  life : TeamLife := .live
  groups : List Nat := []
  prio : Nat := 0
  /-- scratch allotment: first byte, bytes, and stamp of its undefined contents (R192) -/
  scratch : Nat := 0
  ssize : Nat := 0
  stamp : Nat := 0
  /-- accumulator slots of the team: first and count (R206) -/
  slot0 : Nat := 0
  slots : Nat := 0
  balClass : BitVec 2 := 0
  idempotent : Bool := false
  /-- version lines allocated and allowed (R335) -/
  vcount : Nat := 0
  vbudget : Nat := 0
  /-- the context and its descriptor's fields as read at placement or restore (R274) -/
  ctx : Nat := 0
  handler : Lane := 0
  debug : Bool := false
  ptroot : Nat := 0
  ftpool : Nat := 0
  bwc : Nat := 0
  savebase : Nat := 0
  savesize : Nat := 0
  /-- clock at its placement, or its last restore (R295) -/
  placed : Nat := 0
  /-- its version has begun to be merged, and the merge goes on whatever happens to its gang (R336) (log 40) -/
  committing : Bool := false
  /-- set once the completion atomics are done (R285) -/
  completed : Bool := false
  /-- being saved for a migration: temperature of the hot plot (R295) -/
  migrate : Option Nat := none
  deriving DecidableEq, Repr

/-- A barrier object (R259). -/
structure Barrier where
  gen : BitVec 32 := 0
  arrived : BitVec 384 := 0
  mask : BitVec 384 := 0
  deriving DecidableEq, Repr

/-- Why a gang is to be killed, and the group whose record goes to the host (R266, R267). -/
structure Kill where
  cause : Nat
  group : Option Nat
  /-- address of the handler instruction of a double fault (R174) -/
  handlerPc : Lane := 0
  deriving DecidableEq, Repr

/-- A cluster's teams, placed together (R241, R266). -/
structure Gang where
  launch : Nat := 0
  cluster : Nat := 0
  die : Nat := 0
  teams : List Nat := []
  /-- cluster map: core of each rank (R242) -/
  map : List Nat := []
  /-- barrier objects by cluster-relative number, and how many (R259) -/
  barriers : NMap Barrier := []
  nb : Nat := 0
  relaunches : Nat := 0
  kill : Option Kill := none
  /-- the kill has been carried out; its record is not written yet, or a relaunch waits (R267) -/
  killed : Bool := false
  /-- ranks that a relaunch creates again, if the gang is relaunched (R268, R269) -/
  again : Option (List Nat) := none
  deriving DecidableEq, Repr

/-- Progress of one cluster of a launch. -/
inductive ClusterLife where
  /-- not yet placed; the clock since which it has been eligible without fitting -/
  | waiting (since : Option Nat)
  | placed (gang : Nat)
  /-- killed, to be placed again from its dead gang (R269); the clock since which it has not fitted -/
  | relaunch (gang : Nat) (since : Option Nat)
  | ended
  /-- ended with a team that never completes (R285), or dropped (R287) -/
  | failed
  deriving DecidableEq, Repr

/-- A retained launch (R273). -/
structure Launch where
  die : Nat := 0
  queue : Nat := 0
  /-- index of the record in its ring -/
  index : Nat := 0
  ctx : Nat := 0
  record : BitVec 1024 := 0
  prio : Nat := 0
  /-- order of release -/
  released : Nat := 0
  clusters : NMap ClusterLife := []
  /-- error code of R282, or the code it ends with -/
  status : Nat := 0
  /-- no further cluster is placed (R282, R287) -/
  closed : Bool := false
  /-- clusters of it have been dropped: the later records of its queue wait until HEAD has passed it (R287) -/
  dropped : Bool := false
  /-- it has ended and its completion record is on its way (R380) -/
  finished : Bool := false
  /-- its completion record is written: HEAD may pass (R379) -/
  written : Bool := false
  deriving DecidableEq, Repr

/-- A write on its way from a core's L1 to its home slice (R349). -/
structure L1Write where
  gid : Nat
  op : Nat
  team : Nat
  place : Nat
  bytes : List Byte
  /-- the write carries the poison mark -/
  bad : Bool := false
  /-- a handler's write (R175) -/
  handler : Bool := false
  /-- cache policy of the write (R320) -/
  cache : Nat := 0
  deriving DecidableEq, Repr

/-- What the last instruction that a pipe issued writes to registers: cells that it wrote at once, and the operation whose deferred write
or result follows; `fresh` until the next instruction issues (R189; the model's reading, log 76). -/
structure Wrote where
  writes : List CellWrite := []
  op : Option Nat := none
  fresh : Bool := false
  deriving DecidableEq, Repr

/-- Silt engine states that last (R46). -/
structure Silt where
  /-- cycles without issue while a group is blocked on frames (R44) -/
  count : Nat := 0
  /-- the group being spilled -/
  chosen : Option Nat := none
  deriving DecidableEq, Repr

/-- A completion word to be incremented: the team of its copy, its place, and whether it was reached through an on-chip window (R256, R258). -/
structure Signal where
  team : Nat
  place : Nat
  window : Bool := false
  deriving DecidableEq, Repr

/-- A cached copy record (R254). -/
structure CachedRecord where
  team : Nat
  va : Lane
  record : BitVec 1536
  deriving DecidableEq, Repr

/-- A translation held by a plot TLB (R247). -/
structure TlbEntry where
  ctx : Nat
  /-- first address of the page and its bytes -/
  page : Nat
  bytes : Nat
  /-- first physical address of the frame -/
  frame : Nat
  r : Bool
  w : Bool
  x : Bool
  sup : Bool
  adobe : Bool
  /-- D has been set through this entry -/
  dirty : Bool := false
  deriving DecidableEq, Repr

/-- A core. -/
structure Core where
  /-- register file: 32 x register + lane, registers 0 to 2047 (R41) -/
  rf : NMap Lane := []
  /-- poison of the halves of a cell, bit 0 low and bit 1 high (R34) -/
  rfPoison : NMap (BitVec 2) := []
  /-- free granules, and free granules of the handler reserve (R173), rising -/
  free : List Nat := List.range 248
  reserve : List Nat := [248, 249, 250, 251, 252, 253, 254, 255]
  /-- frame requests in the order they began to wait (R42) -/
  requests : List FrameReq := []
  silt : Silt := {}
  /-- scratchpad bytes written since their allotment (R190, R192) -/
  scratch : NMap Byte := []
  scratchPoison : NMap Bool := []
  /-- tile file bytes, tile configuration words, poison of its 64-bit words (R206, R208, R212) -/
  tile : NMap Byte := []
  tileCfg : NMap Lane := []
  tilePoison : NMap Bool := []
  /-- accumulator memory: bytes, slot kinds (0 F32, 1 I32, 2 EXACT, 3 continuation), poison (R207, R212) -/
  acc : NMap Byte := []
  accKind : NMap Nat := []
  accPoison : NMap Bool := []
  /-- matrix-side operations from issue to completion, oldest first: group and operation (R211) -/
  matrix : List (Nat × Nat) := []
  /-- core cycle at which the matrix unit can serve another operation (R227) -/
  unitFree : Nat := 0
  /-- copies in issue order: group and operation (R256) -/
  copies : List (Nat × Nat) := []
  /-- completion words of finished copies still to be incremented (R256) -/
  signals : List Signal := []
  /-- record cache, most recently used first (R254) -/
  records : List CachedRecord := []
  /-- SFU result queues of pipes 0 and 1, oldest first: group and operation (R127) -/
  sfu0 : List (Nat × Nat) := []
  sfu1 : List (Nat × Nat) := []
  /-- core cycle at which the SFU of a pipe is free again (R127) -/
  sfuFree : NMap Nat := []
  /-- writes in the L1 data cache that have not reached their homes, oldest first (R349) -/
  l1 : List L1Write := []
  /-- L1 instruction cache: words by physical address / 4 (R363), and its lines, most recently filled first (R190) -/
  icache : NMap Word := []
  icodes : List Nat := []
  /-- by pipe, what its last instruction writes: a residue check that fails poisons its halves (R189) -/
  wrote : NMap Wrote := []
  /-- this core's share of its plot's TLB, most recently used first (R247) -/
  tlb : List TlbEntry := []
  laneremap : Lane := Config.fuseRemap
  /-- issue is paused for a change of lane mapping, and the register's next value (R189) -/
  paused : Bool := false
  nextRemap : Lane := 0
  /-- a pre-emption has vacated the core and nothing has been created on it since (R201, R292) -/
  vacated : Bool := false
  /-- granules withdrawn from use (R394) -/
  withdrawn : List Nat := []
  cycle : Lane := 0
  /-- cr.bal fields (R203) -/
  dev : BitVec 16 := 0
  ownest : Nat := 0
  mateest : Nat := 0
  aburn : Nat := 0
  eburn : Nat := 0
  shuntlvl : Nat := 0
  throttled : Bool := false
  /-- activity in the window, that of cycles after its end, and its executed cycles so far (R196) -/
  act : Nat := 0
  actNext : Nat := 0
  window : Nat := 0
  /-- core group number of the access stream that issued last (R195) -/
  streamLast : Nat := 31
  /-- cr.balstat fields (R204) -/
  stretch : BitVec 32 := 0
  traps : Nat := 0
  overs : Nat := 0
  /-- consecutive samples below 15 mV (R199) -/
  calm : Nat := 0
  /-- clock edges modulo 4, for the stretching of R199 and R305 -/
  edge : Nat := 0
  /-- counts of the interval: executed cycles, cycles with an issue, memory-stall cycles (R302), and whether this cycle has issued -/
  cyc : Nat := 0
  issues : Nat := 0
  mstall : Nat := 0
  issuedNow : Bool := false
  /-- the stream engine has issued in this cycle, and line requests that it still has to send, one a cycle (R156, R196) -/
  streamNow : Bool := false
  toSend : Nat := 0
  cstall : Lane := 0
  /-- cycles of each context's groups in the interval (R307) -/
  share : NMap Nat := []
  deriving DecidableEq, Repr

/-- A 128-byte line held for a team until it commits: bytes written by offset (R335). -/
structure VersionLine where
  team : Nat
  line : Nat
  bytes : NMap Byte
  poison : NMap Bool := []
  deriving DecidableEq, Repr

/-- A normal line of an L2 set (R318). -/
structure L2Line where
  line : Nat
  /-- .KEEP mark (R320) -/
  keep : Bool := false
  /-- of a dirty line: whose write last dirtied it (R322) -/
  writer : Option Traffic := none
  deriving DecidableEq, Repr

/-- A line transfer that waits for an HBM4E stack (R322, R323). -/
structure HbmRequest where
  line : Nat
  traffic : Traffic
  /-- a miss, which fills a way of the line's set, or a write-back -/
  fill : Bool
  /-- cache policy of the access that missed (R320) -/
  policy : Nat := 0
  writer : Option Traffic := none
  deriving DecidableEq, Repr

/-- A pinned line (R355). -/
structure Pin where
  core : Nat
  team : Nat
  line : Nat
  deriving DecidableEq, Repr

/-- An adobe identity that a mapped page holds (R328, R329). -/
structure Adobe where
  ctx : Nat
  /-- first address of the identity, and bytes of the page -/
  base : Nat
  bytes : Nat
  va : Nat
  /-- some line has been lost since mapping (R340) -/
  lost : Bool := false
  deriving DecidableEq, Repr

/-- L2 way configuration of a slice (R319). -/
structure Slice where
  adw : Nat := 4
  vw : Nat := 2
  refused : Bool := false
  deriving DecidableEq, Repr

/-- DVFS states (R304). -/
inductive Dvfs where
  | steady
  | rail
  | step
  deriving DecidableEq, Repr

/-- A plot's rail, clock and sensor state (R300 to R306). -/
structure Plot where
  /-- PLOTCTL fields -/
  ovr : Bool := false
  fovr : Nat := 7
  fcap : Nat := 14
  highOk : Bool := true
  injEn : Bool := true
  /-- PLOTSTAT fields -/
  dvfs : Dvfs := .steady
  highRail : Bool := false
  fcur : Nat := 7
  ftgt : Nat := 7
  fque : Nat := 0
  queued : Bool := false
  /-- the governor's request of the last sample, on its way (R303) -/
  request : Option Nat := none
  /-- clock at which it was made -/
  askedAt : Nat := 0
  /-- rail-down requests refused at the floor -/
  refusals : Nat := 0
  temp : Nat := 0
  /-- clock at which the state was entered or the last step made (R304) -/
  since : Nat := 0
  /-- plot cycles, what is left of a cycle in thousandths, and the first cycle and the end of each injection of the last 1,024 (R305, R313) -/
  cycle : Nat := 0
  phase : Nat := 0
  injections : List (Nat × Nat) := []
  /-- long operations that matrix units of the plot have started from idle and that the injector has still to answer (R305) -/
  heavy : Nat := 0
  /-- injector: connected to the high rail for a droop, or stretching one edge in four -/
  injecting : Bool := false
  denied : Bool := false
  /-- the supply is sensed 30 mV or more below the rail -/
  drooping : Bool := false
  /-- consecutive samples on the high rail at 700 MHz or less (R304), and at 110 degrees or more (R308) -/
  cool : Nat := 0
  hot : Nat := 0
  deriving DecidableEq, Repr

/-- A queue slot of an Almanac (R273, R277). -/
structure QSlot where
  queue : Nat
  read : Nat
  lastRelease : Nat := 0
  /-- clock at which PENDING was first seen since the last scan -/
  seen : Option Nat := none
  /-- a scan is in progress: it has cleared PENDING and waits for room to retain the records left (R273, R278) -/
  scanning : Bool := false
  deriving DecidableEq, Repr

/-- A fence: cluster of a launch, origin core (R296). -/
structure Fence where
  launch : Nat
  cluster : Nat
  origin : Nat
  deriving DecidableEq, Repr

/-- A pre-emption request: a cluster that is to be created on a rectangle, and the teams that leave for it (R292, R294). -/
structure Preempt where
  launch : Nat
  cluster : Nat
  origin : Nat
  /-- teams that it has stopped; once they are saved they wait for the cluster's creation before they join a restore list -/
  victims : List Nat := []
  deriving DecidableEq, Repr

/-- A link transfer that has been sent (R389): its bytes go to DST of a package, RSIG and LSIG are raised. -/
structure Transfer where
  pkg : Nat
  port : Nat
  dst : Nat
  rsig : Nat
  lsig : Nat
  bytes : List Byte
  deriving DecidableEq, Repr

/-- A link ring of a die (R389). -/
structure LinkRing where
  base : Lane := 0
  ctl : Lane := 0
  prod : Lane := 0
  cons : Lane := 0
  /-- transfers sent and not acknowledged, oldest first -/
  pending : List Transfer := []
  deriving DecidableEq, Repr

/-- A die. -/
structure Die where
  offline : Bool := false
  /-- offline for a thermal emergency, not a fault (R337) -/
  thermal : Bool := false
  /-- its image or bitstream did not verify at the last start: it stays in boot (R272, R391) -/
  boot : Bool := false
  slots : List QSlot := []
  restore : List Nat := []
  /-- time of the last migration (R295) -/
  migrated : Option Nat := none
  fences : List Fence := []
  links : NMap LinkRing := []
  /-- rails of its die-to-die links that have failed (R394) (log 43) -/
  failedRails : List Nat := []
  /-- other readable or writable registers of the die's management block, by offset -/
  regs : NMap Lane := []
  deriving DecidableEq, Repr

/-- What follows once a record is written (R379). -/
inductive After where
  | nothing
  /-- HEAD passes the launch's record -/
  | launch (launch : Nat)
  /-- the kill of the gang is complete -/
  | kill (gang : Nat)
  deriving DecidableEq, Repr

/-- A record waiting for its slot (R379, R380): its bytes without PHASE, and its index where it carries no TAG. -/
structure HostRec where
  tagged : Bool
  bytes : List Byte
  after : After := .nothing
  deriving DecidableEq, Repr

/-- A host ring (R378). -/
structure Ring where
  base : Lane := 0
  ctl : Lane := 0
  pidx : BitVec 32 := 0
  cidx : BitVec 32 := 0
  /-- records waiting for a free slot, oldest first -/
  waiting : List HostRec := []
  /-- clock at the last MSI-X message, and a message due -/
  lastMsi : Option Nat := none
  due : Bool := false
  /-- MSI-X messages sent -/
  sent : Nat := 0
  deriving DecidableEq, Repr

/-- A host read that is being retried at a pinned line (R362). -/
structure HeldRead where
  id : Nat
  addr : Nat
  len : Nat
  arrived : Nat
  deriving DecidableEq, Repr

/-- What a completed host read gave: bytes and poison, or Completer Abort (R321, R362). -/
structure HostAnswer where
  id : Nat
  bytes : List Byte
  poisoned : Bool
  /-- Completer Abort (R362), and Unsupported Request (R378) -/
  abort : Bool := false
  unsupported : Bool := false
  deriving DecidableEq, Repr

/-- The host port (R375 to R381). -/
structure HostPort where
  cfg : Lane := 0
  pkgId : BitVec 16 := 0
  rings : NMap Ring := []
  reads : List HeldRead := []
  /-- posted writes held at a pinned line, in order (R362) -/
  posted : List (Nat × List Byte) := []
  answers : List HostAnswer := []
  ctxTable : Nat := 0
  queueTable : Nat := 0
  /-- nonce and address of a report being made (R392) -/
  attest : Option (BitVec 256 × Lane) := none
  /-- gangs whose ends the command at the head of the ring waits for: a KILL or a RESUME with action 2 that has been begun (R381) -/
  killing : Option (List Nat) := none
  /-- open tags: tag, group, parked slot or none for a stop (R380) -/
  tags : List (Nat × Nat × Option Source) := []
  nextTag : Nat := 0
  deriving DecidableEq, Repr

/-- An Irend port (R386 to R388). -/
structure Irend where
  /-- rails that have failed -/
  failed : List Nat := []
  /-- clock at each rail's absent flits -/
  absent : NMap (List Nat) := []
  /-- rails whose flit of the group being received has timed out -/
  late : List Nat := []
  down : Bool := false
  /-- flits delivered, oldest first -/
  delivered : List (List Byte) := []
  /-- flit groups lost -/
  lost : Nat := 0
  deriving DecidableEq, Repr

/-- Self-test record of a unit (R393, R394). -/
structure TestUnit where
  unit : FaultUnit
  /-- clock at each occurrence counted -/
  occurrences : List Nat := []
  testing : Bool := false
  /-- passes of the running test that have finished -/
  passes : Nat := 0
  /-- a verdict was lasting, and how many such verdicts there have been -/
  lasting : Bool := false
  verdicts : Nat := 0
  /-- the last verdict found no spare -/
  spent : Bool := false
  /-- errors logged as corrected (R238) -/
  corrected : Nat := 0
  deriving DecidableEq, Repr

/-- Who moves next (the model's own; log 1). -/
inductive Act where
  /-- a pipe issues (R185) -/
  | pipe (core pipe : Nat)
  /-- a slot of a group tries its instruction again -/
  | slot (gid : Nat) (src : Source)
  /-- a stream engine issues for a group (R195) -/
  | stream (gid : Nat)
  /-- a hardware or host event of the opcode table -/
  | event (ins : Instr)
  /-- the host port takes the next command record (R381) -/
  | command
  /-- a write of a core's L1 is applied at its home, the k-th one that waits (R349) -/
  | drain (core k : Nat)
  /-- a write that waits in a core's L1 comes apart after its first n bytes: nothing orders the bytes of one store (R354) -/
  | split (core k n : Nat)
  /-- one part of an operation in flight is performed: a lane, a byte of one, a line, a row, an element (R354, R360) -/
  | part (gid op i : Nat)
  /-- the version lines of an ended team at one slice are merged there (R336) -/
  | merge (team slice : Nat)
  /-- the condition that a stalled slot waits for clears (R36) -/
  | clears (gid : Nat) (src : Source)
  /-- a core drops an instruction-cache line (R363) or its least recently used TLB entry (R247) -/
  | dropCode (core line : Nat)
  | dropTlb (core : Nat)
  deriving DecidableEq, Repr, Inhabited

/-- One turn: what happens, and the time that passes before it; the clock edges that fall in it follow from the plots' frequencies (R313). -/
structure Turn where
  act : Act
  ns : Nat := 0
  deriving DecidableEq, Repr, Inhabited

end Sys2Proof.Machine

namespace Sys2Proof.Config

/-- The turn that comes where none is listed: which agent acts, what reaches the package from outside, and the time and clock edges that pass
are free values (log 1). -/
opaque turn (n : Nat) : Sys2Proof.Machine.Turn

end Sys2Proof.Config

namespace Sys2Proof.Machine

/-- Whose instruction the step carries out (the model's own; log 1). -/
structure Actor where
  gid : Nat := 0
  src : Source := .slotA
  deriving DecidableEq, Repr

/-- The package. -/
structure State where
  /-- turns to come (model's own, log 1) -/
  sched : List Turn
  /-- who issues (model's own, log 1) -/
  actor : Actor
  /-- counter of free values (model's own, log 2) -/
  free : Nat
  /-- next identifier, and number of issues so far (model's own, log 1) -/
  nextId : Nat
  issueNo : Nat
  /-- time base in nanoseconds (R390) -/
  time : BitVec 64
  /-- nanoseconds that have passed: every interval is measured on it, and no step of the time base touches it (R304, R390) (log 67) -/
  clock : Nat
  /-- time of the last sample (R302) -/
  sampledAt : Nat
  /-- the last start was warm (R392) -/
  warm : Bool
  /-- HBM4E and host memory bytes (R315) -/
  mem : List Host.Cell
  /-- bytes at home slices that memory does not have: dirty lines and adobe lines (R317, R318, R329) -/
  l2 : NMap Byte
  /-- poisoned halves of 64-bit words of memory, by address / 8, bit 0 low and bit 1 high; a word with either is poisoned (R45, R321) -/
  poison : NMap (BitVec 2)
  /-- the same for words at their home slices; a word that L2 holds whole and does not list is clean there (R321) -/
  l2bad : NMap (BitVec 2)
  /-- normal lines of the L2 sets, by 768 x slice + set, most recently used first (R318) -/
  l2ways : NMap (List L2Line)
  /-- sets that may hold more lines than they have ways (model's own, log 51) -/
  crowded : List Nat
  /-- transfers that wait for the HBM4E stacks, oldest first (R322) -/
  hbmQueue : List HbmRequest
  /-- lines of the cores' L1 data caches, most recently used first (R190) -/
  l1Tags : NMap (List Nat)
  pins : List Pin
  versions : List VersionLine
  /-- adobe pages mapped, adobe lines present, lines lost (R329, R331) -/
  adobes : List Adobe
  adobeLines : NMap Bool
  adobeLost : NMap Bool
  /-- whose write last dirtied an adobe line (R322) -/
  adobeWriters : NMap Traffic
  /-- lines of adobe pages whose reservation a new home has refused (R334, R337) -/
  unreserved : List Nat
  slices : NMap Slice
  groups : NMap Group
  teams : NMap Team
  gangs : NMap Gang
  launches : NMap Launch
  /-- pre-emption requests whose cluster has not been created yet, oldest first (R292, R294) -/
  preempts : List Preempt
  cores : NMap Core
  plots : NMap Plot
  dies : NMap Die
  host : HostPort
  /-- Irend ports, Ethernet counters and filters, energy counters and other package registers (R307, R384, R386) -/
  irend : NMap Irend
  ectr : NMap Lane
  powerMw : Nat
  /-- clock at which a thermal emergency last took a die offline (R308) -/
  thermalAt : Option Nat
  /-- die that a thermal emergency is to take offline (R308) -/
  thermalDue : Option Nat
  filters : NMap (BitVec 256)
  netCounters : NMap Lane
  /-- time of the last IEEE 1588 message that each port sent (R390) -/
  sentAt : NMap Lane
  tests : List TestUnit
  /-- HBM transfers of the window by stack x 16 + class, and the class served last by stack (R323) -/
  hbmCount : NMap Nat
  hbmLast : NMap Nat
  bwclass : NMap Lane
  deriving DecidableEq, Repr

/-- Why the machine stops. The spec stops nothing: every stop of a group is a next state. -/
inductive Fault where
  /-- raised by the meaning of a word when the actor names no group that may issue; safe, and no step of the machine meets it -/
  | noIssuer
  deriving DecidableEq, Repr

/-- Why an instruction has no meaning. -/
inductive Refusal where
  /-- raised by an arm of exec whose instruction has no meaning yet; safe -/
  | notModelled (mnemonic : String)
  deriving DecidableEq, Repr

/-- The package right after a cold start (R391): no group, no launch, memory with nothing listed. -/
def State.reset : State where
  sched := []
  actor := {}
  free := 0
  nextId := 1
  issueNo := 0
  time := 0
  clock := 0
  sampledAt := 0
  warm := false
  mem := []
  l2 := []
  poison := []
  l2bad := []
  l2ways := []
  crowded := []
  hbmQueue := []
  l1Tags := []
  pins := []
  versions := []
  adobes := []
  adobeLines := []
  adobeLost := []
  adobeWriters := []
  unreserved := []
  slices := []
  groups := []
  teams := []
  gangs := []
  launches := []
  preempts := []
  cores := []
  plots := []
  dies := []
  host := {}
  irend := []
  ectr := []
  powerMw := 0
  thermalAt := none
  thermalDue := none
  filters := []
  netCounters := []
  sentAt := []
  tests := []
  hbmCount := []
  hbmLast := []
  bwclass := []

end Sys2Proof.Machine
end

