-- ==== Sys2Proof/Machine/Memory.lean ====
section
/-! DEFINITION. Memory as the home slices, the cores and the teams see it (R315 to R321, R335, R349), page-table walks and
translation (R324 to R326), the on-chip windows (R193, R243) and the checks of R140. -/

namespace Sys2Proof.Machine

/-! ### Reaching the parts of the package -/

/-- A core. -/
def State.core (st : State) (c : Nat) : Core := NMap.get st.cores {} c
/-- Replaces a core. -/
def State.setCore (st : State) (c : Nat) (x : Core) : State := { st with cores := NMap.put st.cores c x }
/-- Changes a core. -/
def State.onCore (st : State) (c : Nat) (f : Core → Core) : State := st.setCore c (f (st.core c))
/-- A group that exists. -/
def State.group? (st : State) (gid : Nat) : Option Group := NMap.find st.groups gid
/-- Replaces a group. -/
def State.setGroup (st : State) (gid : Nat) (g : Group) : State := { st with groups := NMap.put st.groups gid g }
/-- Changes a group, if it exists. -/
def State.onGroup (st : State) (gid : Nat) (f : Group → Group) : State := { st with groups := NMap.changeIf st.groups gid f }
/-- A team; one that does not exist reads as an ended team. -/
def State.team (st : State) (t : Nat) : Team := NMap.get st.teams { life := .ended } t
/-- Changes a team, if it exists. -/
def State.onTeam (st : State) (t : Nat) (f : Team → Team) : State := { st with teams := NMap.changeIf st.teams t f }
/-- A gang. -/
def State.gang (st : State) (g : Nat) : Gang := NMap.get st.gangs {} g
/-- Changes a gang, if it exists. -/
def State.onGang (st : State) (g : Nat) (f : Gang → Gang) : State := { st with gangs := NMap.changeIf st.gangs g f }
/-- Changes a launch, if it exists. -/
def State.onLaunch (st : State) (l : Nat) (f : Launch → Launch) : State := { st with launches := NMap.changeIf st.launches l f }
/-- A die. -/
def State.die (st : State) (d : Nat) : Die := NMap.get st.dies {} d
/-- Changes a die. -/
def State.onDie (st : State) (d : Nat) (f : Die → Die) : State := { st with dies := NMap.put st.dies d (f (st.die d)) }
/-- A plot, numbered 40 x die + plot. -/
def State.plot (st : State) (p : Nat) : Plot := NMap.get st.plots {} p
/-- Changes a plot. -/
def State.onPlot (st : State) (p : Nat) (f : Plot → Plot) : State := { st with plots := NMap.put st.plots p (f (st.plot p)) }
/-- An L2 slice. -/
def State.slice (st : State) (s : Nat) : Slice := NMap.get st.slices {} s
/-- The time as a number. -/
def State.now (st : State) : Nat := st.time.toNat

/-! ### Coordinates (R2) -/

/-- Die of a package core. -/
def dieOf (c : Nat) : Nat := c / 160
/-- Column of a core on its die. -/
def colOf (c : Nat) : Nat := c % 160 % 16
/-- Row of a core on its die. -/
def rowOf (c : Nat) : Nat := c % 160 / 16
/-- Core at column x and row y of a die. -/
def coreAt (die x y : Nat) : Nat := 160 * die + 16 * y + x
/-- Plot of a core, numbered 40 x die + plot. -/
def plotOf (c : Nat) : Nat := 40 * dieOf c + 8 * (rowOf c / 2) + colOf c / 2
/-- The four cores of a plot. -/
def plotCores (p : Nat) : List Nat :=
  let d := p / 40
  let x := 2 * (p % 40 % 8)
  let y := 2 * (p % 40 / 8)
  [coreAt d x y, coreAt d (x + 1) y, coreAt d x (y + 1), coreAt d (x + 1) (y + 1)]
/-- The core stacked in series with a core (R2). -/
def mateOf (c : Nat) : Nat := if rowOf c % 2 = 0 then c + 16 else c - 16
/-- A core in the upper layer (R2, R203). -/
def isUpper (c : Nat) : Bool := rowOf c % 2 == 0

/-! ### Places -/

/-- First physical window address (R193). -/
def chipBase : Nat := 0xFFFFFF8000000000
/-- On-chip physical window address of an offset of a core (R193). -/
def chipPlace (core offset : Nat) : Nat := chipBase + 2 ^ 24 * core + offset
/-- First adobe identity (R315). -/
def adobeBase : Nat := 0x8000000000
/-- First host address (R315). -/
def hostBase : Nat := 0x0100000000000000
/-- A place of the on-chip windows. -/
def isChip (place : Nat) : Bool := decide (chipBase ≤ place)
/-- A place in adobe space (R315). -/
def isAdobe (place : Nat) : Bool := decide (adobeBase ≤ place) && decide (place < 2 * adobeBase)
/-- A place in HBM4E (R315). -/
def isHbm (place : Nat) : Bool := decide (place < adobeBase)
/-- A place in host memory (R315). -/
def isHost (place : Nat) : Bool := decide (hostBase ≤ place) && decide (place < 2 * hostBase)
/-- Line number of a place. -/
def lineOf (place : Nat) : Nat := place / 128

/-- home_slice of R316. -/
def State.homeSlice (st : State) (pa : Nat) : Nat :=
  let l := pa / 128 % 2 ^ 50
  let h := Nat.xor (Nat.xor l (l / 2 ^ 17)) (l / 2 ^ 31) % 2 ^ 32 * 0x9E3779B9 % 2 ^ 32
  let s := h / 256 % 320
  if (st.die (s / 80)).offline then
    let online := (List.range 4).filter fun d => !(st.die d).offline
    let g := h / 256 / 320 % online.length
    80 * online.getD g 0 + s % 80
  else s

/-- set_of of R316. -/
def setOf (pa : Nat) : Nat :=
  let l := pa / 128 % 2 ^ 50
  Nat.xor l (l / 2 ^ 10) % 768

/-! ### Numbers and records -/

/-- Little-endian number of bytes (R7). -/
def numOf : List Byte → Nat
  | [] => 0
  | b :: rest => b.toNat + 256 * numOf rest

/-- Little-endian bytes of a number (R7). -/
def bytesOf (n : Nat) : Nat → List Byte
  | 0 => []
  | k + 1 => BitVec.ofNat 8 n :: bytesOf (n / 256) k

/-- Bytes of a record of a size from its fields: offset and 64-bit value. -/
def recordBytes (size : Nat) (fields : List (Nat × Nat)) : List Byte :=
  bytesOf (fields.foldl (fun n f => n + f.2 % 2 ^ 64 * 256 ^ f.1) 0) size

/-- The first eight bytes of a record: KIND, STATUS or relaunch count, TAG (R380); PHASE and an index are filled in at the write. -/
def recordHeader (kind byte2 tag : Nat) : Nat × Nat := (0, kind % 256 * 256 + byte2 % 256 * 2 ^ 16 + tag % 2 ^ 32 * 2 ^ 32)

/-- A ring. -/
def HostPort.ring (h : HostPort) (n : Nat) : Ring := NMap.get h.rings {} n

/-- Changes a ring. -/
def State.onRing (st : State) (n : Nat) (f : Ring → Ring) : State :=
  { st with host := { st.host with rings := NMap.put st.host.rings n (f (st.host.ring n)) } }

/-- Puts a record at the end of what waits for a ring. -/
def State.send (st : State) (ring : Nat) (r : HostRec) : State := st.onRing ring fun x => { x with waiting := x.waiting ++ [r] }

/-- A fault record about a unit, a die or a port (R380). -/
def State.sendUnit (st : State) (kind : Nat) (detail : List (Nat × Nat)) : State :=
  st.send 1 { tagged := false, bytes := recordBytes 128 (recordHeader kind 0 0 :: detail) }

/-! ### Records about a group (R380) -/

/-- The next TAG that no group waits under (R380). -/
def State.freeTag (st : State) : Nat :=
  (((List.range (st.host.tags.length + 1)).map fun i => (st.host.nextTag + i) % 2 ^ 32).find? fun t => !st.host.tags.any fun x => x.1 == t).getD
    st.host.nextTag

/-- Draws a TAG for a group that will wait for an answer: a parked slot, or a stop (R380). -/
def State.drawTag (st : State) (gid : Nat) (slot : Option Source) : State × Nat :=
  let t := st.freeTag
  ((({ st with host := { st.host with tags := st.host.tags ++ [(t, gid, slot)], nextTag := (t + 1) % 2 ^ 32 } }).onGroup gid
    fun g => { g with tag := some t }), t)

/-- A group identity (R380). -/
def State.groupIdentity (st : State) (g : Group) : Nat :=
  let t := st.team g.team
  g.core + g.number * 2 ^ 10 + t.rank * 2 ^ 16 + (st.gang t.gang).cluster * 2 ^ 32

/-- Task identifier and context of a group, as records hold them. -/
def State.taskWord (st : State) (g : Group) : Nat := g.task.toNat % 2 ^ 32 + (st.team g.team).ctx * 2 ^ 32

/-- Fields of a fault record from a group's trap record (R380). -/
def State.faultFields (st : State) (g : Group) : List (Nat × Nat) :=
  let lane := g.trap.cause.toNat / 256 % 32
  [(8, st.taskWord g), (16, st.groupIdentity g), (24, g.trap.cause.toNat), (32, g.trap.pc.toNat), (40, g.trap.resume.toNat),
   (48, g.trap.mask.toNat), (56, (NMap.get g.trap.addr 0 lane).toNat), (64, (NMap.get g.trap.info 0 lane).toNat)]

/-! ### Bytes of memory -/

/-- A place on a stack that a die lost to a fault has taken away (R337 step 5). -/
def State.unreachable (st : State) (place : Nat) : Bool :=
  isHbm place && (let d := st.die (place / 2 ^ 36 % 8 / 2); d.offline && !d.thermal)

/-- A place in a row that failed after its stack's spare rows were used up (R394; log 43). -/
def State.rowLost (st : State) (place : Nat) : Bool :=
  isHbm place && st.tests.any fun t => t.spent && t.unit == .hbmRow (place / 2 ^ 36 % 8) (Config.hbmRowOf place)

/-- What an unlisted byte of memory reads as (log 3). -/
def unlistedByte : Byte := 0

/-- The canonical form of memory: addresses strictly rising, and no byte listed that an unlisted address reads as. -/
def Memory.wf (m : List Host.Cell) : Bool := NMap.rises m && m.all fun (e : Host.Cell) => e.2 != unlistedByte

/-- A byte of HBM4E or host memory, behind the home slices. -/
def State.memByte (st : State) (pa : Nat) : Byte := NMap.get st.mem unlistedByte pa

/-- Sets a byte behind the home slices; a write to an unreachable stack is dropped (R337). -/
def State.setMemByte (st : State) (pa : Nat) (b : Byte) : State :=
  if st.unreachable pa then st else { st with mem := NMap.store st.mem unlistedByte pa b }

/-- A 64-bit word of HBM4E at its home slice. -/
def State.memWord (st : State) (pa : Nat) : Nat :=
  (List.range 8).foldl (fun n i => n + ((NMap.find st.l2 (pa + i)).getD (st.memByte (pa + i))).toNat * 2 ^ (8 * i)) 0

/-- Dies in service. -/
def State.online (st : State) : List Nat := (List.range 4).filter fun d => !(st.die d).offline

/-- ADOBEBT, which holds one value on every die in service (R319, R376): that of the first of them. -/
def State.adobeTable (st : State) : Nat := (NMap.get (st.die (st.online.headD 0)).regs 0 0x0500).toNat % 2 ^ 57

/-- Frame of the 64 KiB chunk that holds an adobe place, if it is backed (R332) (log 48). -/
def State.backing (st : State) (place : Nat) : Option Nat :=
  let e := st.memWord (st.adobeTable + 8 * ((place - adobeBase) / 65536))
  if e / 2 ^ 63 % 2 = 1 then some (e % 2 ^ 57 / 65536 * 65536) else none

/-- The memory place that a line of a backed page or chunk is written back to; none for an unbacked adobe line. -/
def State.memPlace (st : State) (place : Nat) : Option Nat :=
  if isAdobe place then (st.backing place).map fun f => f + place % 65536 else some place

/-- Team whose allotment holds a scratchpad byte of a core. -/
def State.allotmentAt (st : State) (core off : Nat) : Option (Nat × Team) :=
  st.teams.find? fun e => e.2.core == core && (e.2.life == .live || e.2.life == .saving) &&
    decide (e.2.scratch ≤ off) && decide (off < e.2.scratch + e.2.ssize)

/-- A byte of the on-chip memories (R193). A scratchpad byte that nothing has written since its allotment is a free value (R192, log 6). -/
def State.chipByte (st : State) (place : Nat) : Byte :=
  let core := (place - chipBase) / 2 ^ 24
  let off := (place - chipBase) % 2 ^ 24
  let c := st.core core
  if off < 0x200000 then
    match NMap.find c.scratch off with
    | some b => b
    | none => match st.allotmentAt core off with
      | some (_, t) => Config.scratchByte t.stamp (off - t.scratch)
      | none => Config.scratchByte 0 off
  else if off < 0x400000 then NMap.get c.tile 0 (off - 0x200000)
  else NMap.get c.acc 0 (off - 0x400000)

/-- A byte at its home: the home slice's, the memory's behind it, or the on-chip memory's (R317, R358). -/
def State.homeByte (st : State) (place : Nat) : Byte :=
  if isChip place then st.chipByte place
  else if isHost place then st.memByte place
  else match NMap.find st.l2 place with
    | some b => b
    | none => match st.memPlace place with
      | some pa => st.memByte pa
      | none => 0

/-- Poisoned halves of a 64-bit word of memory, behind the home slices (R321). -/
def State.memPoison (st : State) (place : Nat) : BitVec 2 :=
  match st.memPlace place with
  | some pa => NMap.get st.poison 0 (pa / 8)
  | none => 0

/-- L2 holds every byte of the word of a place. -/
def State.wordInL2 (st : State) (place : Nat) : Bool := (List.range 8).all fun i => (NMap.find st.l2 (place / 8 * 8 + i)).isSome

/-- Poisoned halves of a 64-bit word at its home slice: the slice's own mark, or the memory's where L2 does not hold the word whole (R321). -/
def State.homePoison (st : State) (place : Nat) : BitVec 2 :=
  match NMap.find st.l2bad (place / 8) with
  | some p => p
  | none => if st.wordInL2 place then 0 else st.memPoison place

/-- Whether the 64-bit word of a place carries the poison mark (R212, R321). -/
def State.homeBad (st : State) (place : Nat) : Bool :=
  if isChip place then
    let c := st.core ((place - chipBase) / 2 ^ 24)
    let off := (place - chipBase) % 2 ^ 24
    if off < 0x200000 then NMap.get c.scratchPoison false (off / 8)
    else if off < 0x400000 then NMap.get c.tilePoison false ((off - 0x200000) / 8)
    else NMap.get c.accPoison false ((off - 0x400000) / 8)
  else st.homePoison place != 0 || NMap.get st.adobeLost false (lineOf place) ||
    (st.unreachable place && (NMap.find st.l2 place).isNone)

/-- Sets a byte of the on-chip memories. -/
def State.setChipByte (st : State) (place : Nat) (b : Byte) : State :=
  let off := (place - chipBase) % 2 ^ 24
  st.onCore ((place - chipBase) / 2 ^ 24) fun c =>
    if off < 0x200000 then { c with scratch := NMap.put c.scratch off b }
    else if off < 0x400000 then { c with tile := NMap.store c.tile 0 (off - 0x200000) b }
    else { c with acc := NMap.store c.acc 0 (off - 0x400000) b }

/-- Sets a byte at its home. Host memory takes it at once (R347); other lines are dirty at the slice until a write-back. -/
def State.setHomeByte (st : State) (place : Nat) (b : Byte) : State :=
  if isChip place then st.setChipByte place b
  else if isHost place then st.setMemByte place b
  else { st with l2 := NMap.put st.l2 place b }

/-- Sets the poisoned halves of a 64-bit word at its home. -/
def State.setHomePoison (st : State) (place : Nat) (p : BitVec 2) : State :=
  if isHost place then { st with poison := NMap.store st.poison 0 (place / 8) p }
  else if p = 0 ∧ (st.wordInL2 place ∨ st.memPoison place = 0) then { st with l2bad := NMap.del st.l2bad (place / 8) }
  else { st with l2bad := NMap.put st.l2bad (place / 8) p }

/-- Sets or clears the poison mark of a 64-bit word. -/
def State.setHomeBad (st : State) (place : Nat) (bad : Bool) : State :=
  if isChip place then
    let off := (place - chipBase) % 2 ^ 24
    st.onCore ((place - chipBase) / 2 ^ 24) fun c =>
      if off < 0x200000 then { c with scratchPoison := NMap.store c.scratchPoison false (off / 8) bad }
      else if off < 0x400000 then { c with tilePoison := NMap.store c.tilePoison false ((off - 0x200000) / 8) bad }
      else { c with accPoison := NMap.store c.accPoison false ((off - 0x400000) / 8) bad }
  else st.setHomePoison place (if bad then 3 else 0)

/-- Brings a lost adobe line back: every word of it becomes a poisoned word (R331). -/
def State.reinstall (st : State) (line : Nat) : State :=
  if NMap.get st.adobeLost false line then
    let s := { st with adobeLost := NMap.store st.adobeLost false line false }
    (List.range 16).foldl (fun s i => s.setHomeBad (128 * line + 8 * i) true) s
  else st

/-- What an access to a home slice says about itself: whose bandwidth it counts against, its cache policy, whether it writes, and the
group that makes it (R320, R322, R380). -/
structure Access where
  traffic : Traffic := .management
  policy : Nat := 0
  write : Bool := false
  by' : Option Nat := none
  deriving DecidableEq, Repr

/-- An access to an unreachable stack, or to a row without a spare, is reported with the group that makes it (R337, R380, R394). -/
def State.reportAccess (st : State) (place : Nat) (a : Access := {}) : State :=
  if st.unreachable place || st.rowLost place then
    st.sendUnit 0x19 ((match a.by'.bind st.group? with
      | some g => st.faultFields g
      | none => []) ++ [(72, place)])
  else st

/-- An access at a home slice reaches the memory behind it where L2 does not hold the line. -/
def State.noteAccess (st : State) (place : Nat) (a : Access := {}) : State :=
  if (NMap.find st.l2 place).isNone then st.reportAccess place a else st

/-- Home slice and set of a line, as a key. -/
def State.wayKey (st : State) (line : Nat) : Nat := 768 * st.homeSlice (128 * line) + setOf (128 * line)

/-- The line moves to the head of its set's normal lines, dirty where it is written; a .KEEP mark is kept on at most six (R318, R320). -/
def useWay (ways : List L2Line) (w : L2Line) (a : Access) : List L2Line :=
  let rest := ways.filter fun x => x.line != w.line
  let marked := (rest.filter fun x => x.keep).length
  let w : L2Line := { w with keep := w.keep || a.policy == 2, writer := if a.write then some a.traffic else w.writer }
  let rest := if w.keep ∧ 6 ≤ marked then
      (match rest.reverse.find? fun x => x.keep with
       | some old => rest.map fun x => if x.line = old.line then { x with keep := false } else x
       | none => rest)
    else rest
  w :: rest

/-- An access finds its line among the normal lines of its set, or misses: a transfer from memory then waits for its stack (R318, R322). -/
def State.touchWay (st : State) (place : Nat) (a : Access) : State :=
  let line := lineOf place
  let key := st.wayKey line
  let ways := NMap.get st.l2ways [] key
  match ways.find? fun x => x.line == line with
  | some w => { st with l2ways := NMap.put st.l2ways key (useWay ways w a) }
  | none =>
    if st.hbmQueue.any fun r => r.fill && r.line == line then
      { st with hbmQueue := if a.write then st.hbmQueue.map fun r => if r.fill && r.line == line then { r with writer := some a.traffic } else r
                            else st.hbmQueue }
    else { st with hbmQueue := st.hbmQueue ++
      [{ line := line, traffic := a.traffic, fill := true, policy := a.policy, writer := if a.write then some a.traffic else none }] }

/-- A line that has no memory behind it takes a way among the normal lines of its set (R318). -/
def State.takeWay (st : State) (line : Nat) (a : Access) : State :=
  let key := st.wayKey line
  let ways := NMap.get st.l2ways [] key
  { st with l2ways := NMap.put st.l2ways key (useWay ways ((ways.find? fun x => x.line == line).getD { line := line }) a), crowded := key :: st.crowded }

/-- A miss on an adobe line reads the late frame of its chunk, if it has one (R332, R394). -/
def State.noteFrame (st : State) (place : Nat) (a : Access) : State :=
  if (st.backing place).isSome then st.reportAccess ((st.memPlace place).getD 0) a else st

/-- A line of adobe memory is written: its write-back takes the class of the last that wrote it (R322). -/
def State.noteWriter (st : State) (line : Nat) (a : Access) : State :=
  if a.write then { st with adobeWriters := NMap.put st.adobeWriters line a.traffic } else st

/-- A place that an access reaches at its home slice: an adobe line becomes present in its adobe way, read from its late frame where the
chunk has one (R329, R332, R340); one without a reservation stands among the normal lines (R334, R337; the model's choice, log 16), as every
other line does; an unreachable stack is reported. -/
def State.install (st : State) (place : Nat) (a : Access := {}) : State :=
  if isAdobe place then
    let line := lineOf place
    let s := (st.reinstall line).noteWriter line a
    if s.unreserved.contains line then
      (if (NMap.find s.l2 place).isNone && (s.backing place).isSome then (s.noteFrame place a).touchWay place a else s.takeWay line a)
    else if NMap.get s.adobeLines false line then s
    else
      let s := { s with adobeLines := NMap.put s.adobeLines line true, crowded := s.wayKey line :: s.crowded }
      if (s.backing place).isSome then (s.noteFrame place a).touchWay place a else s
  else if isHbm place then (st.noteAccess place a).touchWay place a
  else st

/-- Numbered places of an access. -/
def spread (place n : Nat) : List Nat := (List.range n).map (place + ·)

/-- Every L1 copy of a line but that of one core is given up (R317). -/
def State.giveUp (st : State) (line : Nat) (keep : Option Nat) : State :=
  { st with l1Tags := st.l1Tags.map fun e => (e.1, if keep = some e.1 then e.2 else e.2.filter (· != line)) }

/-- Lines of a range of places, each with the first place in it. -/
def firstInLines (place n : Nat) : List Nat := ((spread place n).map lineOf).dedup.map fun l => max place (128 * l)

/-- Writes bytes at their home; a whole 64-bit word written clears its mark, a poisoned write sets it, and any other write leaves
it (R321). The copies of the lines in the L1 caches go, but those of the writing core (R317). -/
def State.writeHome (st : State) (place : Nat) (bytes : List Byte) (bad : Bool) (a : Access := {}) (keep : Option Nat := none) : State :=
  let s0 := (firstInLines place bytes.length).foldl (fun s p => s.install p { a with write := true }) st
  let s := (bytes.zipIdx place).foldl (fun s e => s.setHomeByte e.2 e.1) s0
  let words := ((spread place bytes.length).map (· / 8)).dedup
  let s := words.foldl (fun s w =>
    if bad then s.setHomeBad (8 * w) true
    else if place ≤ 8 * w ∧ 8 * w + 8 ≤ place + bytes.length then s.setHomeBad (8 * w) false
    else if isChip place then s
    else s.setHomePoison (8 * w) (s0.homePoison (8 * w))) s
  if isChip place then s else (firstInLines place bytes.length).foldl (fun s p => s.giveUp (lineOf p) keep) s

/-- Bytes at their home. -/
def State.readHome (st : State) (place n : Nat) : List Byte := (spread place n).map st.homeByte

/-- A number of n bytes at its home. -/
def State.homeNum (st : State) (place n : Nat) : Nat := numOf (st.readHome place n)

/-! ### What a team and a core see -/

/-- Byte of a team's version lines (R335). -/
def State.versionByte (st : State) (team place : Nat) : Option Byte :=
  match st.versions.find? fun v => v.team == team && v.line == lineOf place with
  | some v => NMap.find v.bytes (place % 128)
  | none => none

/-- Latest write of a core's L1 to a byte (R349). -/
def l1Byte (place : Nat) : List L1Write → Option Byte
  | [] => none
  | w :: rest =>
    match l1Byte place rest with
    | some b => some b
    | none => if w.place ≤ place ∧ place < w.place + w.bytes.length then some (w.bytes.getD (place - w.place) 0) else none

/-- A byte as a group of a team on a core reads it. -/
def State.viewByte (st : State) (core team place : Nat) : Byte :=
  if isChip place then st.chipByte place
  else match st.versionByte team place with
    | some b => b
    | none => match l1Byte place (st.core core).l1 with
      | some b => b
      | none => st.homeByte place

/-- A write of n bytes at a place covers the whole 64-bit word of a byte. -/
def coversWord (start n place : Nat) : Bool := decide (start ≤ place / 8 * 8) && decide (place / 8 * 8 + 8 ≤ start + n)

/-- Poison of a word as a core's waiting writes leave it (R321, R349). -/
def l1Bad (place : Nat) (bad : Bool) (ws : List L1Write) : Bool :=
  ws.foldl (fun bad w =>
    if w.place < place / 8 * 8 + 8 ∧ place / 8 * 8 < w.place + w.bytes.length then
      w.bad || (bad && !coversWord w.place w.bytes.length place)
    else bad) bad

/-- Whether the word of a byte so read is poisoned. -/
def State.viewBad (st : State) (core team place : Nat) : Bool :=
  if isChip place then st.homeBad place
  else
    let committed := l1Bad place (st.homeBad place) (st.core core).l1
    match st.versions.find? fun v => v.team == team && v.line == lineOf place with
    | some v => NMap.get v.poison false (place % 128 / 8) ||
        (committed && !((List.range 8).all fun i => (NMap.find v.bytes (place % 128 / 8 * 8 + i)).isSome))
    | none => committed

/-- Bytes as a group reads them. -/
def State.view (st : State) (core team place n : Nat) : List Byte := (spread place n).map (st.viewByte core team)

/-- Poison over the words of an access. -/
def State.viewAnyBad (st : State) (core team place n : Nat) : Bool := (spread place n).any (st.viewBad core team)

/-! ### The lines of the L1 data caches (R190, R320) -/

/-- A line that a core's L1 may give up: no write waits in it, and it is not pinned there (R355). -/
def State.evictable (st : State) (core line : Nat) : Bool :=
  !((st.core core).l1.any fun w => lineOf w.place == line) && !(st.pins.any fun p => p.core == core && p.line == line)

/-- The lines of a core's L1 once it gives up the least recently used one that it may give up; none where it may give up none. -/
def State.l1Evict (st : State) (core : Nat) (tags : List Nat) : Option (List Nat) :=
  (tags.reverse.find? (st.evictable core)).map fun l => tags.filter (· != l)

/-- A core's L1 uses a line: it holds it already, or allocates it in one of its 2,048 places, at the end of the order under .NT; under
.NOL1 it does not (R190, R320). -/
def State.l1Use (st : State) (core line policy : Nat) : State :=
  let tags := NMap.get st.l1Tags [] core
  if tags.contains line then { st with l1Tags := NMap.put st.l1Tags core (line :: tags.filter (· != line)) }
  else if policy = 3 then st
  else match if tags.length < 2048 then some tags else st.l1Evict core tags with
    | none => st
    | some tags => { st with l1Tags := NMap.put st.l1Tags core (if policy = 1 then tags ++ [line] else line :: tags) }

/-- A core's L1 can take writes to lines: it holds each of them, has a place free, or can give one up. -/
def State.l1Takes (st : State) (core : Nat) (lines : List Nat) : Bool :=
  let tags := NMap.get st.l1Tags [] core
  let fresh := (lines.filter fun l => !tags.contains l).length
  decide (fresh + tags.length ≤ 2048) || decide (fresh + tags.length ≤ 2048 + (tags.filter fun l => st.evictable core l && !lines.contains l).length)

/-- Whose bandwidth a team's accesses count against (R322). -/
def State.trafficOf (st : State) (team : Nat) : Traffic := .launch (st.team team).bwc

/-- A read of a group through its core's L1: a line that the L1 holds is used there, and any other is read at its home (R317, R320). -/
def State.readIn (st : State) (gid : Nat) (g : Group) (place policy : Nat) : State :=
  if isChip place then st
  else if (NMap.get st.l1Tags [] g.core).contains (lineOf place) then st.l1Use g.core (lineOf place) policy
  else (st.install place { traffic := st.trafficOf g.team, policy := policy, by' := some gid }).l1Use g.core (lineOf place) policy

/-- A lane of an atomic of another team than the given one has read its value in a line and not yet written it (R149). -/
def State.halfOn (st : State) (team : Option Nat) (line : Nat) : Bool :=
  st.groups.any fun e => some e.2.team != team && e.2.flight.any fun o => match o.work with
    | .atomic _ _ _ _ _ ls => ls.any fun a => a.half && !a.done && lineOf a.place == line
    | _ => false

/-- A line pinned to a team other than the given one (R356). An engine, which acts for no team, waits as well while an atomic is between its
read and its write in the line, since its own accesses may be atomic (R149). -/
def State.pinnedAgainst (st : State) (team : Option Nat) (line : Nat) : Bool :=
  (st.pins.any fun p => p.line == line && some p.team != team) || (team.isNone && st.halfOn none line)

/-- An access to pieces of memory, by the team given or by an engine that acts for none, meets a pinned line (R356). -/
def State.segsPinned (st : State) (team : Option Nat) (segs : List (Nat × Nat)) : Bool :=
  st.pins.any fun p => some p.team != team && segs.any fun s => decide (s.1 < 128 * p.line + 128) && decide (128 * p.line < s.1 + s.2)

/-! ### Versions (R335) -/

/-- Whether a team's write to the given lines passes its budget and its sets' ways. -/
def State.versionFits (st : State) (team : Nat) (lines : List Nat) : Bool :=
  let fresh := lines.dedup.filter fun l => !(st.versions.any fun v => v.team == team && v.line == l)
  let t := st.team team
  let perSet (l : Nat) : Nat :=
    (st.versions.filter fun v => st.homeSlice (128 * v.line) == st.homeSlice (128 * l) && setOf (128 * v.line) == setOf (128 * l)).length +
    (fresh.filter fun m => st.homeSlice (128 * m) == st.homeSlice (128 * l) && setOf (128 * m) == setOf (128 * l)).length
  decide (t.vcount + fresh.length ≤ t.vbudget) &&
    fresh.all fun l => decide (perSet l ≤ (st.slice (st.homeSlice (128 * l))).vw)

/-- A team's version line, allocated if there is none. -/
def State.versionLine (st : State) (team line : Nat) : State :=
  if st.versions.any fun v => v.team == team && v.line == line then st
  else { (st.onTeam team fun t => { t with vcount := t.vcount + 1 }) with
    crowded := st.wayKey line :: st.crowded
    versions := st.versions ++ [{ team := team, line := line, bytes := [] }] }

/-- Writes bytes into a team's version lines. -/
def State.writeVersion (st : State) (team place : Nat) (bytes : List Byte) (bad : Bool) : State :=
  (bytes.zipIdx place).foldl (fun s e =>
    let s := s.versionLine team (lineOf e.2)
    { s with versions := s.versions.map fun v =>
        if v.team == team && v.line == lineOf e.2 then
          { v with
            bytes := NMap.put v.bytes (e.2 % 128) e.1
            poison := if bad then NMap.put v.poison (e.2 % 128 / 8) true
              else if coversWord place bytes.length e.2 then NMap.del v.poison (e.2 % 128 / 8) else v.poison }
        else v }) st

/-! ### Page tables -/

/-- A page-table entry's fields (R325). -/
structure Pte where
  raw : Nat
  deriving DecidableEq, Repr

/-- Bit of an entry. -/
def Pte.bit (p : Pte) (i : Nat) : Bool := p.raw.testBit i
/-- FRAME as an address. -/
def Pte.frame (p : Pte) : Nat := p.raw % 2 ^ 57 / 4096 * 4096

/-- Reserved bits of an entry are clear. -/
def Pte.reservedClear (p : Pte) : Bool :=
  p.raw / 2 ^ 60 == 0 && p.raw / 2 ^ 57 % 4 == 0 && p.raw / 2 ^ 10 % 4 == 0

/-- Bytes of a page whose leaf stands at a level. -/
def leafBytes (level : Nat) (cont : Bool) : Nat :=
  match level with
  | 0 => if cont then 65536 else 4096
  | 1 => 2 ^ 21
  | _ => 2 ^ 30

/-- Address of the entry that a level indexes (R324). -/
def pteAddr (table level va : Nat) : Nat := table + 8 * (va / 2 ^ (12 + 9 * level) % 512)

/-- The 16 entries of a 64 KiB page agree: equal but for FRAME, which rises by 4 KiB, and for A and D, which the walker sets one by one (R324). -/
def State.contAgrees (st : State) (addr : Nat) : Bool :=
  let base := addr / 128 * 128
  let strip (n : Nat) : Nat := n - n / 128 % 4 * 128
  let first := strip (st.homeNum base 8)
  (List.range 16).all fun i => strip (st.homeNum (base + 8 * i) 8) == first + 4096 * i

/-- What a walk ends with. -/
inductive Walk where
  /-- entry with V = 0: page fault; level at which it stands -/
  | missing (level : Nat)
  /-- malformed entry: translation fault -/
  | malformed
  /-- a leaf at an address and a level -/
  | leaf (addr level : Nat) (p : Pte)
  deriving DecidableEq, Repr

/-- The check of one valid entry (R326). -/
def State.pteGood (st : State) (p : Pte) (addr level : Nat) : Bool :=
  let leaf := p.bit 1
  let adobe := p.bit 6
  let cont := p.bit 5
  p.reservedClear && (level != 0 || leaf) && (level ≤ 2 || !leaf) && (level == 0 || !cont) && (!cont || st.contAgrees addr) &&
    !(level == 2 && adobe) && !(level == 0 && adobe && !cont) && (!p.bit 59 || adobe) &&
    (if leaf && adobe then isAdobe p.frame else isHbm p.frame || isHost p.frame)

/-- A walk from a table down (R324, R326). -/
def State.walkFrom (st : State) (va : Nat) : Nat → Nat → Walk
  | level, table =>
    let addr := pteAddr table level va
    let p : Pte := ⟨st.homeNum addr 8⟩
    if !p.bit 0 then .missing level
    else if !st.pteGood p addr level then .malformed
    else if p.bit 1 then .leaf addr level p
    else match level with
      | 0 => .malformed
      | l + 1 => st.walkFrom va l p.frame

/-- Addresses of the entries that a walk reads (R324). -/
def State.walkEntries (st : State) (va : Nat) : Nat → Nat → List Nat
  | level, table =>
    let addr := pteAddr table level va
    let p : Pte := ⟨st.homeNum addr 8⟩
    addr :: (if p.bit 0 && !p.bit 1 && st.pteGood p addr level then (match level with
      | 0 => []
      | l + 1 => st.walkEntries va l p.frame) else [])

/-- A walk meets a pinned line: it is answered with a retry (R356). -/
def State.walkHeld (st : State) (root va : Nat) : Bool := (st.walkEntries (va % 2 ^ 57) 4 root).any fun a => st.pinnedAgainst none (lineOf a)

/-- A walk of a context's table. -/
def State.walk (st : State) (root va : Nat) : Walk := st.walkFrom (va % 2 ^ 57) 4 root

/-- The translation that a leaf gives. -/
def tlbOf (ctx va level : Nat) (p : Pte) : TlbEntry :=
  let n := leafBytes level (p.bit 5)
  { ctx := ctx, page := va % 2 ^ 57 / n * n, bytes := n, frame := p.frame / n * n, r := p.bit 2, w := p.bit 3, x := p.bit 4,
    sup := p.bit 9, adobe := p.bit 6, dirty := p.bit 8 }

/-- An entry that translates an address. -/
def TlbEntry.covers (e : TlbEntry) (ctx va : Nat) : Bool :=
  e.ctx == ctx && decide (e.page ≤ va % 2 ^ 57) && decide (va % 2 ^ 57 < e.page + e.bytes)

/-- Lookup in the four shares of a core's plot (R247). -/
def State.tlbHit (st : State) (core ctx va : Nat) : Option TlbEntry :=
  ((core :: plotCores (plotOf core)).flatMap fun c => (st.core c).tlb).find? fun e => e.covers ctx va

/-- Translation: a TLB entry, or what a walk finds; a cause of R166 where it fails, or 0 where the walk must be repeated (R356). -/
def State.lookup (st : State) (core ctx root va : Nat) : Except Nat TlbEntry :=
  match st.tlbHit core ctx va with
  | some e => .ok e
  | none => if st.walkHeld root va then .error 0 else match st.walk root va with
    | .leaf _ level p => .ok (tlbOf ctx va level p)
    | .missing _ => .error 0x11
    | .malformed => .error 0x0F

/-- Physical address of an address under an entry. -/
def TlbEntry.physical (e : TlbEntry) (va : Nat) : Nat := e.frame + (va % 2 ^ 57 - e.page)

/-- The part of a waiting write that lies in a range of places, if any. -/
def L1Write.within (w : L1Write) (lo hi : Nat) : List L1Write :=
  if w.place < hi ∧ lo < w.place + w.bytes.length then
    [{ w with place := max w.place lo, bytes := (w.bytes.take (hi - w.place)).drop (lo - w.place) }]
  else []

/-- What is left of a waiting write beside a range of places. -/
def L1Write.beside (w : L1Write) (lo hi : Nat) : List L1Write :=
  if w.place < hi ∧ lo < w.place + w.bytes.length then
    (if w.place < lo then [{ w with bytes := w.bytes.take (lo - w.place) }] else []) ++
      (if hi < w.place + w.bytes.length then [{ w with place := hi, bytes := w.bytes.drop (hi - w.place) }] else [])
  else [w]

/-- A write of a core's L1 is applied at its home (R317, R349). -/
def State.landWrite (st : State) (core : Nat) (w : L1Write) : State :=
  st.writeHome w.place w.bytes w.bad { traffic := st.trafficOf w.team, policy := w.cache, by' := some w.gid } (some core)

/-- The writes of a core's L1 to the lines of a range, applied at their homes in order (R248, R341, R349). -/
def State.drainRange (st : State) (core lo n : Nat) : State :=
  let first := lo / 128 * 128
  let last := (lo + n + 127) / 128 * 128
  let c := st.core core
  let s := st.setCore core { c with l1 := c.l1.flatMap fun w => w.beside first last }
  (c.l1.flatMap fun w => w.within first last).foldl (fun s w => s.landWrite core w) s

/-- The lines of a range of places go from the L1 caches of some cores (R248, R341). -/
def State.dropTags (st : State) (cores : List Nat) (lo n : Nat) : State :=
  { st with l1Tags := st.l1Tags.map fun e =>
      if cores.contains e.1 then (e.1, e.2.filter fun l => !(decide (128 * l < lo + n) && decide (lo < 128 * l + 128))) else e }

/-- Fills a core's share with an entry, after the synonyms of its frame in the plot: their lines are written back and invalidated in the four
L1 caches (R247, R248). -/
def State.tlbFill (st : State) (core : Nat) (e : TlbEntry) : State :=
  let clash (x : TlbEntry) : Bool :=
    decide (x.frame < e.frame + e.bytes) && decide (e.frame < x.frame + x.bytes) && !(x.ctx == e.ctx && x.page == e.page)
  let s := (plotCores (plotOf core)).foldl (fun s c =>
    let k := s.core c
    if k.tlb.any clash then
      let s := (plotCores (plotOf core)).foldl (fun s c' => (k.tlb.filter clash).foldl (fun s x => s.drainRange c' x.frame x.bytes) s) s
      let s := (k.tlb.filter clash).foldl (fun s x => s.dropTags (plotCores (plotOf core)) x.frame x.bytes) s
      s.onCore c fun k => { k with tlb := k.tlb.filter fun x => !clash x }
    else s) st
  s.onCore core fun k => { k with tlb := (e :: k.tlb.filter fun x => !(x.ctx == e.ctx && x.page == e.page)).take 512 }

/-- Sets bits of a page-table entry with an atomic OR at its home (R326). -/
def State.pteOr (st : State) (addr mask : Nat) : State :=
  st.writeHome addr (bytesOf (Nat.lor (st.homeNum addr 8) mask) 8) false

/-- The walk of a miss, or the setting of D before a first write: A and D in memory, the entry in the TLB (R326). -/
def State.walkFill (st : State) (core ctx root va : Nat) (write : Bool) : State :=
  match st.tlbHit core ctx va with
  | some e =>
    if write && !e.dirty then
      match st.walk root va with
      | .leaf addr _ _ => (st.pteOr addr 0x180).tlbFill core { e with dirty := true }
      | _ => st.tlbFill core { e with dirty := true }
    else (plotCores (plotOf core)).foldl (fun s c => s.onCore c fun k =>
      if k.tlb.contains e then { k with tlb := e :: k.tlb.filter (· != e) } else k) st
  | none => match st.walk root va with
    | .leaf addr level p =>
      ((st.walkEntries (va % 2 ^ 57) 4 root).foldl (fun s a => s.install a) st |>.pteOr addr (if write then 0x180 else 0x80)).tlbFill core { tlbOf ctx va level p with dirty := p.bit 8 || write }
    | _ => st

/-! ### The checks of R140 -/

/-- What an access does. -/
inductive AccKind where
  | read
  | write
  | rmw
  | fetch
  deriving DecidableEq, Repr

/-- Who makes an access: its core, translation, team and group. -/
structure Who where
  core : Nat
  ctx : Nat
  root : Nat
  /-- the context's first-touch pool, as the team read it (R274) -/
  pool : Nat
  team : Nat
  /-- the supervisor handler (R174) -/
  handler : Bool
  pbase : Nat
  /-- COPY, COPYH and GATHER reach more windows (R193) -/
  engine : Bool := false
  /-- an instruction that R193 does not admit to a physical scratch window, nor R243 to a rank window: QLD, QST, ENQ, DISCARD and the tile and
  accumulator transfers -/
  unlisted : Bool := false
  deriving DecidableEq, Repr

/-- Who a group's accesses are made by. -/
def State.whoOf (st : State) (g : Group) (handler : Bool) : Who :=
  let t := st.team g.team
  { core := g.core, ctx := t.ctx, root := t.ptroot, pool := t.ftpool, team := g.team, handler := handler, pbase := g.pbase.toNat }

/-- Bits [63:57] copy bit 56 (R140). -/
def canonical (va : Nat) : Bool := va / 2 ^ 56 % 256 == 0 || va / 2 ^ 56 % 256 == 255

/-- First address of the on-chip region (R193). -/
def onChip : Nat := 0xFFFFFF0000000000

/-- Permissions of a leaf (R326). -/
def TlbEntry.permits (e : TlbEntry) (k : AccKind) (handler : Bool) : Bool :=
  (!e.sup || handler) && (match k with
    | .read => e.r
    | .write => e.w
    | .rmw => e.r && e.w
    | .fetch => e.x)

/-- System area of the issuing group's own private memory (R54). The spec says "the system area" of "each group" and does not say whether
a program's access to another group's system area is refused too: here it is not (the model's choice, log 52). -/
def inSystemArea (who : Who) (va n : Nat) : Bool :=
  !who.handler && decide (va < who.pbase + 0x410000) && decide (who.pbase < va + n)

/-- Translation and permission of an ordinary address (checks 3 to 5). -/
def State.pageCheck (st : State) (who : Who) (va n : Nat) (k : AccKind) : Except Nat Nat :=
  match st.lookup who.core who.ctx who.root va with
  | .error c => .error c
  | .ok e =>
    if (k == .write || k == .rmw) && !e.dirty && st.walkHeld who.root va then .error 0
    else if !e.permits k who.handler then .error 0x12
    else if inSystemArea who va n then .error 0x12
    else .ok (e.physical va)

/-- The team that holds a rank of a team's cluster. -/
def State.rankTeam (st : State) (team rank : Nat) : Option (Nat × Team) :=
  let g := st.team team
  (st.gang g.gang).teams.findSome? fun t =>
    let x := st.team t
    if x.rank = rank ∧ x.life ≠ .ended then some (t, x) else none

/-- The on-chip windows (R193, R243, R245). -/
def State.chipCheck (st : State) (who : Who) (va n : Nat) (k : AccKind) : Except Nat Nat :=
  let o := va - onChip
  if o < 2 ^ 38 then
    let t := st.team who.team
    if o + n ≤ t.ssize then .ok (chipPlace who.core (t.scratch + o)) else .error 0x12
  else if o < 2 ^ 39 then
    let r := (o - 2 ^ 38) / 2 ^ 32
    let b := (o - 2 ^ 38) % 2 ^ 32
    match st.rankTeam who.team r with
    | none => .error 0x12
    | some (_, t) =>
      if t.ssize < b + n ∨ (who.unlisted ∧ !who.handler) then .error 0x12
      else if t.life = .saved then
        st.pageCheck { who with pbase := 2 ^ 64 } (t.savebase + t.savesize - t.ssize + b) n k
      else .ok (chipPlace t.core (t.scratch + b))
  else
    let c := (va - chipBase) / 2 ^ 24
    let b := (va - chipBase) % 2 ^ 24
    if c ≥ 640 then .error 0x12
    else if b < 0x1C0000 then
      let mine := match st.allotmentAt c b with
        | some (_, t) => t.gang == (st.team who.team).gang && decide (b + n ≤ t.scratch + t.ssize)
        | none => false
      if (mine && !who.unlisted) || (who.handler && decide (b + n ≤ 0x1C0000)) then .ok va else .error 0x12
    else if (0x200000 ≤ b ∧ b + n ≤ 0x240000) ∨ (0x400000 ≤ b ∧ b + n ≤ 0x480000) then
      if who.engine || who.handler then .ok va else .error 0x12
    else .error 0x12

/-- The checks of R140 on one access of n bytes with an alignment: the place it reaches, or the cause it fails with. -/
def State.check (st : State) (who : Who) (va n align : Nat) (k : AccKind) : Except Nat Nat :=
  if !canonical va then .error 0x0F
  else if va % align ≠ 0 then .error 0x10
  else if onChip ≤ va then st.chipCheck who va n k
  else st.pageCheck who va n k

/-- The effects of a good translation: TLB, A and D. -/
def State.touch (st : State) (who : Who) (va : Nat) (k : AccKind) : State :=
  if onChip ≤ va then st else st.walkFill who.core who.ctx who.root va (k == .write || k == .rmw)

/-- Page pieces of a range of n bytes: address and length, at most the given number. -/
def pieces : Nat → Nat → Nat → List (Nat × Nat)
  | 0, _, _ => []
  | fuel + 1, va, n =>
    if n = 0 then []
    else
      let k := min n (4096 - va % 4096)
      (va, k) :: pieces fuel (va + k) (n - k)

/-- The checks of R140 on a range that may cross pages: its segments, or the first failing cause with its address (log 49). -/
def State.checkRange (st : State) (who : Who) (va n align : Nat) (k : AccKind) : Except (Nat × Nat) (List (Nat × Nat)) :=
  let ps := pieces (n / 4096 + 2) va n
  let rs := ps.map fun p => (p, st.check who p.1 p.2 (if p.1 = va then align else 1) k)
  match rs.filterMap fun r => match r.2 with
      | .error c => some (c, r.1.1)
      | .ok _ => none with
  | [] => .ok (rs.filterMap fun r => match r.2 with
      | .ok place => some (place, r.1.2)
      | .error _ => none)
  | f :: rest => .error (rest.foldl (fun a b => if b.1 < a.1 then b else a) f)

/-- The effects of good translations over a range. -/
def State.touchRange (st : State) (who : Who) (va n : Nat) (k : AccKind) : State :=
  (pieces (n / 4096 + 2) va n).foldl (fun s p => s.touch who p.1 k) st

/-! ### Dropping lines (R334, R339) -/

/-- Takes a line out of L2 without a write-back: what only L2 has goes, bytes and poison marks. -/
def State.forgetLine (st : State) (line : Nat) : State :=
  let mine (a : Nat) : Bool := lineOf a == line
  { st with
    l2 := NMap.keep st.l2 fun a _ => !mine a
    l2bad := NMap.keep st.l2bad fun w _ => !(lineOf (8 * w) == line)
    l2ways := NMap.put st.l2ways (st.wayKey line) ((NMap.get st.l2ways [] (st.wayKey line)).filter fun w => w.line != line)
    adobeLines := NMap.del st.adobeLines line
    adobeWriters := NMap.del st.adobeWriters line
    adobeLost := NMap.del st.adobeLost line }

/-- Drops a line from every L1 and from its home (R339). -/
def State.dropLine (st : State) (line : Nat) : State :=
  ((State.forgetLine { st with cores := st.cores.map fun e => (e.1, { e.2 with l1 := e.2.l1.flatMap fun w => w.beside (128 * line) (128 * line + 128) }) } line).giveUp
    line none)

end Sys2Proof.Machine
end

