-- ==== Sys2Proof/Machine/Ops.lean ====
section
/-! DEFINITION. The named operations that every instruction is written over: registers and poison (R34, R41, R173), hints
(R68 to R72), lookahead windows and deferred writes (R73 to R77), in-flight counters (R53), the issue of a word, and
taking a stop (R166 to R174). -/

namespace Sys2Proof.Machine

/-! ### Registers of the file -/

/-- Register of the file that a name of the current frame stands for (R41, R45). -/
def frameReg : List Frame → Nat → Option Nat
  | [], _ => none
  | [f], r => (f.grans[r / 8]?).map fun g => 8 * g + r % 8
  | f :: below, r =>
    if 8 ≤ r then (f.grans[r / 8 - 1]?).map fun g => 8 * g + r % 8
    else match below.find? fun x => x.own ≠ 0 with
      | some x => x.grans.getLast?.map fun g => 8 * g + r
      | none => none

/-- Registers of the current frame. -/
def Group.frameSize (g : Group) : Nat :=
  match g.frames with
  | [] => 0
  | f :: _ => f.size

/-- Live lanes of a group: those of its slots, its divergence stack and its join table. -/
def Group.liveLanes (g : Group) : Mask :=
  g.joins.foldl (fun m j => if j.2.armed then m ||| j.2.arrived else m) (g.div.foldl (fun m r => m ||| r.mask) (g.a.mask ||| g.b.mask))

/-- Call depth (R43). -/
def Group.depth (g : Group) : Nat := g.frames.length - 1

/-- Register of the file that a name stands for in a stream; in the handler v0 to v15 are the handler frame, the rest the window (R173). -/
def Group.regOf (g : Group) (src : Source) (r : Nat) : Nat :=
  match src with
  | .handler =>
    if r < 16 then 8 * g.handlerGrans.getD (r / 8) 0 + r % 8
    else (frameReg g.frames (g.hwin.toNat + (r - 16))).getD 0
  | _ => (frameReg g.frames r).getD 0

/-- A name inside the frame (R41, R173). -/
def Group.names (g : Group) (src : Source) (r : Nat) : Bool :=
  match src with
  | .handler => decide (r < 16) || decide (g.hwin.toNat + (r - 16) < g.frameSize)
  | _ => decide (r < g.frameSize)

/-- The value of a cell. -/
def Core.cell (c : Core) (i : Nat) : Lane := NMap.get c.rf 0 i
/-- The poison of a cell, bit 0 low half and bit 1 high (R34). -/
def Core.cellPoison (c : Core) (i : Nat) : BitVec 2 := NMap.get c.rfPoison 0 i

/-- Halves of a cell that a write touches. -/
def halvesOf (bits : Lane) : BitVec 2 :=
  (if bits.toNat / 2 ^ 32 ≠ 0 then 2#2 else 0#2) ||| (if bits.toNat % 2 ^ 32 ≠ 0 then 1#2 else 0#2)

/-- A write to part of a cell: the bits given, and in the halves touched the poison given (R34, R98). -/
def Core.write (c : Core) (w : CellWrite) : Core :=
  { c with
    rf := NMap.store c.rf 0 w.cell ((c.cell w.cell &&& ~~~w.bits) ||| (w.value &&& w.bits))
    rfPoison := NMap.store c.rfPoison 0 w.cell
      ((c.cellPoison w.cell &&& ~~~halvesOf w.bits) ||| (w.poison &&& halvesOf w.bits)) }

/-- Writes in order. -/
def Core.writeAll (c : Core) (ws : List CellWrite) : Core := ws.foldl Core.write c

/-- Physical lane on which a logical lane runs, by the remap register: phys(i) of R187. -/
def physOf (r : Lane) (i : Nat) : Nat :=
  let fail1 := r.toNat / 2 ^ 8 % 128
  let fail2 := r.toNat / 2 ^ 16 % 128
  match r.toNat / 2 ^ 62 with
  | 0 => i
  | 1 => if i < fail1 then i else i + 1
  | _ => ((List.range 65).filter fun p => p != fail1 && p != fail2).getD (16 * (i / 32) + i % 16) 0

/-- Writes of a pipe's instruction in which a check of a physical lane has failed: the halves that they touch in that lane are poisoned
(R189, R238). -/
def struck (remap : Lane) (pipe phys : Nat) (ws : List CellWrite) : List CellWrite :=
  ws.map fun w => if physOf remap (32 * pipe + w.cell % 32) = phys then { w with poison := w.poison ||| halvesOf w.bits } else w

/-- A granule of cleared registers (R41). -/
def Core.clearGranule (c : Core) (g : Nat) : Core :=
  { c with
    rf := NMap.keep c.rf fun k _ => !(decide (256 * g ≤ k) && decide (k < 256 * g + 256))
    rfPoison := NMap.keep c.rfPoison fun k _ => !(decide (256 * g ≤ k) && decide (k < 256 * g + 256)) }

/-- A predicate byte of a lane; p0 reads all ones (R35). -/
def Group.pred (g : Group) (p lane : Nat) : Byte := if p = 0 then 0xFF else NMap.get g.preds 0 (32 * p + lane)

/-- Writes the masked bits of a predicate byte; a write to p0 is ignored (R11, R35). -/
def Group.setPred (g : Group) (p lane : Nat) (mask value : Byte) : Group :=
  if p = 0 then g
  else { g with preds := NMap.store g.preds 0 (32 * p + lane) ((g.pred p lane &&& ~~~mask) ||| (value &&& mask)) }

/-! ### Lanes -/

/-- Lanes of a mask, rising. -/
def lanesOf (m : Mask) : List Nat := (List.range 32).filter fun l => m.getLsbD l
/-- Lowest lane of a mask; 0 for none. -/
def lowestLane (m : Mask) : Nat := (lanesOf m).headD 0
/-- Mask of a list of lanes. -/
def maskOf (ls : List Nat) : Mask := ls.foldl (fun m l => m ||| BitVec.ofNat 32 (2 ^ l)) 0
/-- Number of lanes of a mask. -/
def laneCount (m : Mask) : Nat := (lanesOf m).length

/-! ### Slots -/

/-- A slot of a group. -/
def Group.slot (g : Group) (src : Source) : Slot :=
  match src with
  | .slotA => g.a
  | .slotB => g.b
  | .handler => g.h
  | .access => { life := .ready, pc := g.accessPc }

/-- Replaces a slot. -/
def Group.setSlot (g : Group) (src : Source) (s : Slot) : Group :=
  match src with
  | .slotA => { g with a := s }
  | .slotB => { g with b := s }
  | .handler => { g with h := s }
  | .access => { g with accessPc := s.pc }

/-- The address that a saved PC or a trap record names for a slot: its first pending hint, or its next word (R68). -/
def Slot.resumePc (s : Slot) : Lane :=
  match s.hints with
  | [] => s.pc
  | h :: _ => h.addr

/-- A slot without pending hints, at the first of those it had (R68). -/
def Slot.rewound (s : Slot) : Slot := { s with pc := s.resumePc, hints := [] }

/-- The other program slot. -/
def Source.other : Source → Source
  | .slotA => .slotB
  | .slotB => .slotA
  | s => s

/-! ### In-flight counters (R53) -/

/-- Value of a counter. -/
def Group.counter (g : Group) (p : Path) : Nat := (g.flight.filter fun o => o.path == p).length

/-- Takes finished operations out that no unfinished one of their path precedes: counters fall in order. -/
def lowerPaths : List Op → List Path → List Op
  | [], _ => []
  | o :: rest, held =>
    if o.finished && !held.contains o.path then lowerPaths rest held
    else o :: lowerPaths rest (if o.finished then held else o.path :: held)

/-- Marks an operation finished and lets its counter fall in order. -/
def Group.finish (g : Group) (op : Nat) : Group :=
  { g with flight := lowerPaths (g.flight.map fun o => if o.id = op then { o with finished := true } else o) [] }

/-- Changes the work of an operation. -/
def Group.onOp (g : Group) (op : Nat) (f : Work → Work) : Group :=
  { g with flight := g.flight.map fun o => if o.id = op then { o with work := f o.work } else o }

/-! ### Deferred writes (R73, R74) -/

/-- Deferred writes that may be made now, and those that stay: a write waits for its result, for its window, for every earlier
deferred write to one of its registers, and for a spilled register (2048 and above) to be in the file again. -/
def settleList : List Deferred → List Nat → List Deferred × List CellWrite
  | [], _ => ([], [])
  | d :: rest, busy =>
    match d.writes with
    | some ws =>
      if d.left = 0 && !(d.regs.any busy.contains) && d.regs.all (decide <| · < 2048) then
        let r := settleList rest busy
        (r.1, ws ++ r.2)
      else
        let r := settleList rest (d.regs ++ busy)
        (d :: r.1, r.2)
    | none =>
      let r := settleList rest (d.regs ++ busy)
      (d :: r.1, r.2)

/-- Makes the deferred writes of a group that are due. -/
def State.settle (st : State) (gid : Nat) : State :=
  match st.group? gid with
  | none => st
  | some g =>
    let r := settleList g.defers []
    (st.setGroup gid { g with defers := r.1 }).onCore g.core fun c => c.writeAll r.2

/-- Closes the windows of the slots that pass a test (R76, R77). -/
def State.closeWindows (st : State) (gid : Nat) (p : Source → Bool) : State :=
  (st.onGroup gid fun g => { g with defers := g.defers.map fun d => if p d.src then { d with left := 0 } else d }).settle gid

/-- Pipe of a group (R185). -/
def Group.pipe (g : Group) : Nat := g.number / 16

/-- Writes as they arrive: poisoned in the lanes whose checks have failed since the issue (R189). -/
def Deferred.hurt (remap : Lane) (pipe : Nat) (d : Deferred) (ws : List CellWrite) : List CellWrite :=
  d.hit.foldl (fun ws p => struck remap pipe p ws) ws

/-- Gives a deferred write its values. -/
def State.arrive (st : State) (gid op : Nat) (ws : List CellWrite) : State :=
  match st.group? gid with
  | none => st
  | some g =>
    let remap := (st.core g.core).laneremap
    let late := (g.defers.filter fun d => d.op == op).foldl (fun ws d => d.hurt remap g.pipe ws) ws
    (((st.setGroup gid { g with defers := g.defers.map fun d => if d.op = op then { d with writes := some (d.hurt remap g.pipe ws) } else d }).onCore
      g.core fun c => if (NMap.get c.wrote {} g.pipe : Wrote).op = some op then
        { c with wrote := NMap.put c.wrote g.pipe { writes := late, op := some op } } else c)).settle gid

/-! ### Hints (R68 to R72) -/

/-- Which hint fields a form accepts; YIELD is `any`. -/
structure Accepts where
  any : Bool := true
  imm : Bool := false
  re : Bool := false
  sat : Bool := false
  neg : Bool := false
  scope : Bool := false
  cache : Bool := false
  offset : Bool := false
  la : Bool := false
  /-- scope 0 is refused (R261) -/
  beyondGroup : Bool := false
  deriving DecidableEq, Repr

/-- The hints bound to an instruction. -/
structure Hints where
  imm : Option Nat := none
  re : Option Nat := none
  sat : Bool := false
  neg : Bool := false
  scope : Option Nat := none
  cache : Option Nat := none
  offset : Option Int := none
  yield : Bool := false
  la : Nat := 0
  /-- a repeat, a code or a reserved bit that R66 and R68 to R70 do not allow -/
  bad : Bool := false
  hasImm : Bool := false
  hasMod : Bool := false
  hasSched : Bool := false
  highs : List Nat := []
  deriving DecidableEq, Repr

/-- Takes one more hint word. -/
def Hints.take (h : Hints) (word : Word) : Hints :=
  let w := word.toNat
  let p := w % 2 ^ 24
  let flag (i : Nat) : Bool := p.testBit i
  match w / 2 ^ 24 % 8 with
  | 0 => { h with bad := h.bad || h.hasImm, hasImm := true, imm := some p }
  | 1 => { h with bad := h.bad || decide (2 ≤ h.highs.length), highs := h.highs ++ [p] }
  | 2 =>
    { h with
      bad := h.bad || h.hasMod || decide (p % 2 ^ 10 ≠ 0) || decide (4 < p / 2 ^ 20 % 8) || decide (4 < p / 2 ^ 14 % 8) ||
        decide (3 < p / 2 ^ 10 % 8)
      hasMod := true
      re := if flag 23 then some (p / 2 ^ 20 % 8) else none
      sat := flag 19
      neg := flag 18
      scope := if flag 17 then some (p / 2 ^ 14 % 8) else none
      cache := if flag 13 then some (p / 2 ^ 10 % 8) else none }
  | 3 => { h with bad := h.bad || h.hasSched || decide (p / 32 ≠ 0), hasSched := true, yield := flag 4, la := p % 16 }
  | _ => { h with bad := h.bad || h.offset.isSome, offset := some (signedOf 24 p) }

/-- wide_imm of R69, as a 64-bit value. -/
def wideImm (low : Nat) : List Nat → Nat
  | [] => lowBits 64 (signedOf 24 low)
  | [h] => lowBits 64 (signedOf 48 (low + h * 2 ^ 24))
  | h :: k :: _ => (low + h * 2 ^ 24 + k * 2 ^ 48) % 2 ^ 64

/-- The hints of a slot, read together. -/
def Hints.ofList (hs : List Hint) : Hints :=
  let h : Hints := hs.foldl (fun (h : Hints) x => h.take x.word) {}
  { h with
    bad := h.bad || (!h.highs.isEmpty && !h.hasImm) || decide (2 ^ 16 ≤ h.highs.getD 1 0)
    imm := h.imm.map fun low => wideImm low h.highs }

/-- Every hint bound is one that the form accepts (R66, R68 to R72). -/
def Hints.accepted (h : Hints) (a : Accepts) : Bool :=
  !h.bad && (a.imm || (h.imm.isNone && h.highs.isEmpty)) && (a.re || h.re.isNone) && (a.sat || !h.sat) && (a.neg || !h.neg) &&
  (a.scope || h.scope.isNone) && (!a.beyondGroup || h.scope != some 0) && (a.cache || h.cache.isNone) && (a.offset || h.offset.isNone) && (a.la || h.la == 0) &&
  (a.any || !(h.hasMod || h.hasSched))

/-- The rounding mode in force (R16). -/
def Hints.mode (h : Hints) : Mode := ((h.re.bind modeOfCode).getD .rn)

/-! ### The issuing stream -/

/-- Everything the meaning of a word reads about who issues it; values are those before any of its writes (R98). -/
structure Env where
  gid : Nat
  src : Source
  g : Group
  slot : Slot
  core : Core
  who : Who
  hints : Hints
  deriving DecidableEq, Repr

/-- A frame that a stream needs is on its way into the file: a RET, UNWIND or EXIT of another slot waits for a refill, or
the group has just been restored (R48, R55). -/
def Group.blockedBy (g : Group) (src : Source) : Bool :=
  match g.frameReq with
  | some r => match r.kind with
    | .refill _ => r.src != src && src != .access
    | .restore => true
    | _ => false
  | none => false

/-- A QST waits, and the entry that it has bound is FULL (R154). -/
def Group.boundFull (g : Group) : Bool :=
  g.flight.any fun o => match o.work with
    | .qst q _ _ _ _ none =>
      let x : Queue := NMap.get g.queues {} q
      x.order.any fun i => !(NMap.get x.entries {} i : QEntry).bound
    | _ => false

/-- A group and stream that may issue: LIVE, not stopping for a save (R57), with a slot that is READY or waits, the handler slot, or a
stream that is not DONE. A QST whose bound entry is FULL completes all the same while the group stops for a save or is stopped (R158,
R167). While a slot is PARKED the group is STOPPED (R56), and its access stream stops with it: the spec says that neither slot issues
(R36, R162) and does not say whether the stream goes on (the model's choice, log 53). -/
def Group.mayIssue (g : Group) (src : Source) : Bool :=
  match src with
  | .slotA => g.life == .live && !g.preempt && (g.a.life == .ready || g.a.life == .stalled) && !g.blockedBy .slotA
  | .slotB => g.life == .live && !g.preempt && (g.b.life == .ready || g.b.life == .stalled) && !g.blockedBy .slotB
  | .handler => g.life == .stopped && g.stage == .inHandler
  | .access => g.accessLife != .done && ((g.life == .live && !g.preempt && !g.blockedBy .access) ||
      (g.boundFull && (g.life == .live || (g.life == .stopped && g.stage != .doomed))))

/-- The environment of a stream of a group. -/
def State.envAt (st : State) (gid : Nat) (src : Source) : Option Env :=
  match st.group? gid with
  | none => none
  | some g =>
    if g.mayIssue src then
      let slot := g.slot src
      some { gid := gid, src := src, g := g, slot := slot, core := st.core g.core, who := { st.whoOf g (src == .handler) with unlisted := src == .access },
             hints := Hints.ofList slot.hints }
    else none

/-- The environment of the actor. -/
def State.env? (st : State) : Option Env := st.envAt st.actor.gid st.actor.src

/-- Visible lanes of a group (R181). -/
def Env.width (e : Env) : Nat := if e.g.prot then 16 else 32
/-- Lanes of the slot. -/
def Env.lanes (e : Env) : List Nat := lanesOf e.slot.mask
/-- Lowest lane of the slot. -/
def Env.lowest (e : Env) : Nat := lowestLane e.slot.mask
/-- Which copies of a visible lane run: one, or master and shadow (R181). -/
def Env.copies (e : Env) : List Nat := if e.g.prot then [0, 1] else [0]
/-- The lane of the file that holds copy k of a visible lane. -/
def Env.phys (e : Env) (k lane : Nat) : Nat := if e.g.prot then 2 * lane + k else lane
/-- Register of the file. -/
def Env.reg (e : Env) (r : Nat) : Nat := e.g.regOf e.src r
/-- Cell of copy k of a lane of a register. -/
def Env.cellOf (e : Env) (k r lane : Nat) : Nat := 32 * e.reg r + e.phys k lane
/-- Value of copy k of a lane of a register. -/
def Env.val (e : Env) (k r lane : Nat) : Lane := e.core.cell (e.cellOf k r lane)
/-- Value of a register in the lowest lane of the slot. -/
def Env.scalar (e : Env) (r : Nat) : Lane := e.val 0 r e.lowest
/-- Guard byte of copy k of a lane: the predicate, inverted by NEG, in the lanes of the slot (R62, R70). -/
def Env.guard (e : Env) (p k lane : Nat) : Byte :=
  if e.slot.mask.getLsbD lane then
    (let b := e.g.pred p (e.phys k lane); if e.hints.neg then ~~~b else b)
  else 0
/-- Lanes active under guard bit 0 (R9). -/
def Env.active (e : Env) (p : Nat) : List Nat := e.lanes.filter fun l => (e.guard p 0 l).getLsbD 0
/-- Lanes active under a guard, or every lane of the slot. -/
def Env.activeOf (e : Env) : Option Nat → List Nat
  | some p => e.active p
  | none => e.lanes
/-- Lane address offset (R72). -/
def Env.offset (e : Env) : Int := e.hints.offset.getD 0

/-! ### Traps -/

/-- A cause met by an instruction (R166), with the lanes handed and what their records say (R169, R171). -/
structure Trap where
  cause : Nat
  lanes : Mask := 0
  addr : NMap Lane := []
  info : NMap Lane := []
  /-- LANE, where it is not the lowest of the lanes handed -/
  lane : Option Nat := none
  deriving DecidableEq, Repr

/-- The same value in every listed lane. -/
def inLanes (ls : List Nat) (v : Lane) : NMap Lane := ls.foldl (fun m l => NMap.store m 0 l v) []

/-- The first of a list of conditions that holds. -/
def firstTrap (l : List (Option Trap)) : Option Trap := l.findSome? id

/-- A cause over the lanes of the slot. -/
def Env.slotTrap (e : Env) (cause : Nat) (info : Lane := 0) : Trap :=
  { cause := cause, lanes := e.slot.mask, info := inLanes e.lanes info }

/-- One half of a register read by a lane: register name, visible lane, lane of the file, halves (R34, R99). -/
structure Read where
  reg : Nat
  lane : Nat
  phys : Nat
  halves : BitVec 2
  deriving DecidableEq, Repr

/-- Poison met by a list of reads, given in the order of R171. -/
def Env.poisonTrap (e : Env) (reads : List Read) : Option Trap :=
  let bad := reads.filter fun r => (e.core.cellPoison (32 * e.reg r.reg + r.phys) &&& r.halves) != 0
  if bad.isEmpty then none
  else
    let info := bad.reverse.foldl (fun m r =>
      let p := e.core.cellPoison (32 * e.reg r.reg + r.phys) &&& r.halves
      NMap.store m 0 r.lane (BitVec.ofNat 64 (0x80 + (if p.getLsbD 0 then 0 else 0x40) + r.reg))) []
    some { cause := 0x05, lanes := maskOf (bad.map (·.lane)), info := info }

/-- Reads of whole registers by lanes, master and shadow. -/
def Env.reads (e : Env) (r : Nat) (lanes : List Nat) (halves : BitVec 2 := 3) : List Read :=
  lanes.flatMap fun l => e.copies.map fun k => { reg := r, lane := l, phys := e.phys k l, halves := halves }

/-- Read of one register in the lowest lane of the slot. -/
def Env.readLowest (e : Env) (r : Nat) (halves : BitVec 2 := 3) : List Read := e.reads r [e.lowest] halves

/-- Silent data: lanes whose shadow value differs from its master's (R181). -/
def Env.silentTrap (e : Env) (lanes : List Nat) (differs : Nat → Bool) : Option Trap :=
  if e.g.prot then
    let bad := lanes.filter differs
    if bad.isEmpty then none else some { cause := 0x06, lanes := maskOf bad }
  else none

/-- Whether master and shadow of a lane differ in a register, in the bits given. -/
def Env.pairDiffers (e : Env) (r : Nat) (bits : Lane) (lane : Nat) : Bool :=
  (e.val 0 r lane &&& bits) != (e.val 1 r lane &&& bits)

/-- Discards a team's version (R182, R336): the version lines are freed. -/
def State.dropVersion (st : State) (team : Nat) : State :=
  { (st.onTeam team fun t => { t with vcount := 0 }) with versions := st.versions.filter fun v => v.team != team }

/-- Groups of a gang's teams that have not ended. -/
def State.gangTeams (st : State) (gang : Nat) : List Nat := (st.gang gang).teams.filter fun t => (st.team t).life != .ended

/-- Takes a group's frame request out of its core's queue; the group keeps it, for the image that a save writes (R55, R137). -/
def State.leaveQueue (st : State) (gid : Nat) : State :=
  match st.group? gid with
  | none => st
  | some g => st.onCore g.core fun c => { c with requests := c.requests.filter fun r => r.gid != gid }

/-- A group of a gang that is to be killed stops at its instruction boundary (R267 step 1). Its arrivals that wait at an object complete all
the same (R263). A PENDING group gets no frame any more, and a SAVED one is not restored. -/
def Group.halt (g : Group) : Group :=
  if g.life = .live ∨ g.life = .stopped then { g with life := .stopped, stage := .doomed, stop := none } else g

/-- Asks for a gang's kill (R267): the first request stands, and every group of the gang stops. A gang with nothing left to kill is
not touched. -/
def State.doom (st : State) (gang : Nat) (k : Kill) : State :=
  let idle := (st.gangTeams gang).isEmpty && !(st.versions.any fun v => (st.gang gang).teams.contains v.team)
  if (st.gang gang).kill.isSome || idle then st
  else
    let groups := (st.gangTeams gang).flatMap fun t => (st.team t).groups
    groups.foldl (fun s gid => (s.onGroup gid Group.halt).leaveQueue gid) (st.onGang gang fun g => { g with kill := some k })

/-- Number of a source in SRC (R170). -/
def srcCode : Option Source → Nat
  | some .slotA => 0
  | some .slotB => 1
  | some .access => 2
  | _ => 3

/-- How a cause goes on (R166, R176). -/
def fateOf (cause : Nat) (debug : Bool) : Fate :=
  match cause with
  | 0x05 | 0x06 | 0x13 | 0x3F => .gang
  | 0x21 => if debug then .debugger else .handler
  | _ => .handler

/-- Value of cr.tcause (R170). -/
def causeWord (src : Option Source) (t : Trap) (hinted vdisc : Bool) : Lane :=
  BitVec.ofNat 64 (t.cause + 2 ^ 8 * (t.lane.getD (lowestLane t.lanes)) + 2 ^ 24 * srcCode src +
    (if hinted then 2 ^ 26 else 0) + (if vdisc then 2 ^ 27 else 0))

/-- Takes a group's frame request out of its core's queue. A CALL makes it again when it issues again; what a RET has
returned from stays returned from (R137, R138, R179). -/
def State.withdraw (st : State) (gid : Nat) : State :=
  match st.group? gid with
  | none => st
  | some g =>
    let keep := match g.frameReq with
      | some r => match r.kind with
        | .call _ _ _ => none
        | _ => some r
      | none => none
    (st.setGroup gid { g with frameReq := keep }).onCore g.core fun c => { c with requests := c.requests.filter fun r => r.gid != gid }

/-- A targeted self-test runs on every physical lane of a core (R181, R393). -/
def State.testLanes (st : State) (core : Nat) : State :=
  (List.range 65).foldl (fun (s : State) p =>
    let u := FaultUnit.lane core p
    if s.tests.any fun t => t.unit == u then
      { s with tests := s.tests.map fun t => if t.unit == u && !t.testing then { t with testing := true, passes := 0 } else t }
    else { s with tests := s.tests ++ [{ unit := u, testing := true }] }) st

/-- A stop of the program streams takes effect (R167, R168, R172 step 1, R182): the group is STOPPED, windows close, and the
record waits to be written, or is written at once where no handler runs. A stop takes no effect before every arrival that waits
at an object has completed (R263): what met it meets it again. -/
def State.takeStop (st : State) (gid : Nat) (src : Option Source) (t : Trap) (pc resume : Lane) (hinted : Bool) : State :=
  match st.group? gid with
  | none => st
  | some g =>
    if !g.arrivals.isEmpty then st else
    let team := st.team g.team
    let record : TrapRecord :=
      { cause := causeWord src t hinted g.versioned, pc := pc, resume := resume, mask := t.lanes.setWidth 64,
        addr := t.addr, info := t.info }
    let fate := if g.versioned then .gang else fateOf t.cause team.debug
    let clear (x : Source) (s : Slot) : Slot := if src = some x then { s with hints := [] } else if src = none then s.rewound else s
    let pcs (g : Group) : Group := match src with
      | some s => g.setSlot s { g.slot s with pc := pc }
      | none => g
    let g := pcs { g with
      life := .stopped
      a := clear .slotA g.a
      b := clear .slotB g.b
      stop := some { src := src, record := record, fate := fate }
      trap := if fate = .gang then record else g.trap
      stage := if fate = .gang then .doomed else .draining }
    let st := ((st.setGroup gid g).closeWindows gid fun s => s != .handler).withdraw gid
    let st := if t.cause = 0x06 then st.testLanes g.core else st
    if fate = .gang then
      let st := if g.versioned then st.dropVersion g.team else st
      st.doom team.gang { cause := t.cause, group := some gid }
    else st

/-- Puts a number in its place in a rising list. -/
def insertSorted (n : Nat) : List Nat → List Nat
  | [] => [n]
  | m :: rest => if n ≤ m then n :: m :: rest else m :: insertSorted n rest

/-- Puts numbers in their places in a rising list. -/
def insertAll (ns l : List Nat) : List Nat := ns.foldl (fun l n => insertSorted n l) l

/-- Frees the handler frame to the reserve (R175, R183). -/
def State.freeHandler (st : State) (gid : Nat) : State :=
  match st.group? gid with
  | none => st
  | some g => (st.setGroup gid { g with handlerGrans := [], h := {}, defers := g.defers.filter fun d => d.src != .handler }).onCore g.core
      fun c => { c with reserve := insertAll (g.handlerGrans.filter fun x => !c.withdrawn.contains x) c.reserve }

/-- A double fault (R174): the record keeps the original stop, CAUSE becomes 0x3F and INNER the cause met (log 28). A silent-data fault tests
the core's lanes here too (R181). -/
def State.doubleFault (st : State) (gid : Nat) (inner : Nat) (pc : Lane) : State :=
  match st.group? gid with
  | none => st
  | some g =>
    let st := if inner = 0x06 then st.testLanes g.core else st
    let cause := (g.trap.cause &&& ~~~0xFF00FF#64) ||| BitVec.ofNat 64 (0x3F + 2 ^ 16 * inner)
    ((st.setGroup gid { g with trap := { g.trap with cause := cause }, stage := .doomed }).freeHandler gid).doom
      (st.team g.team).gang { cause := 0x3F, group := some gid, handlerPc := pc }

/-- The issuing instruction stops (R166, R169): cr.tpc names its first hint, if any; the handler meets a double fault (R174). -/
def Env.raise (e : Env) (t : Trap) (st : State) (resume : Option Lane := none) : State :=
  match e.src with
  | .handler => st.doubleFault e.gid t.cause e.slot.pc
  | _ =>
    let pc := match e.slot.hints with
      | [] => e.slot.pc
      | h :: _ => h.addr
    st.takeStop e.gid (some e.src) t pc (resume.getD pc) (!e.slot.hints.isEmpty)

/-! ### Issue -/

/-- Which windows an instruction closes before it issues (R76, R77). -/
inductive Closes where
  | nothing
  | own
  | both
  deriving DecidableEq, Repr

/-- Where an instruction may run (R65, R174). -/
inductive Runs where
  /-- execute stream and handler -/
  | anywhere
  /-- execute stream, not the handler -/
  | program
  /-- the handler only -/
  | supervisor
  /-- the access stream only -/
  | stream
  deriving DecidableEq, Repr

/-- What a word says before any operand is read: its windows, hints, guard, frame registers, and the field that a wide
immediate replaces, which must then be 0 (R69). -/
structure Form where
  closes : Closes := .nothing
  runs : Runs := .anywhere
  accepts : Accepts := {}
  /-- guard predicate; none acts in every lane of the slot -/
  guard : Option Nat := none
  regs : List Nat := []
  /-- b, a register unless a wide immediate is bound -/
  b : Option Nat := none
  /-- the imm11 field of a format I form -/
  imm11 : Nat := 0
  /-- WAITB or BARSYNC: a slot that it stalls counts for auto-burn (R197, R263) -/
  barrier : Bool := false
  /-- a TILE or MMA instruction, which finds room in the matrix unit or stalls before anything else (R211) -/
  unit : Bool := false
  deriving DecidableEq, Repr

/-- What the rest of a meaning answers. -/
inductive Verdict where
  /-- the instruction stops; resume address where it is not cr.tpc -/
  | trap (t : Trap) (resume : Option Lane)
  /-- the slot waits, with a state that keeps what the wait has begun -/
  | wait (st : State)
  /-- done: the slot goes on at the next word -/
  | next (st : State)
  /-- done: the meaning has counted its issue and set every slot itself -/
  | jump (st : State)
  deriving DecidableEq, Repr

/-- The word of a stream the instruction may not run in: illegal instruction (R65). -/
def Env.streamTrap (e : Env) (f : Form) (word : Lane) : Option Trap :=
  let bad := match f.runs, e.src with
    | .stream, .access => false
    | .stream, _ => true
    | _, .access => true
    | .supervisor, .handler => false
    | .supervisor, _ => true
    | _, _ => false
  let ls := if e.src = .access then lanesOf e.g.liveLanes else e.activeOf f.guard
  if bad then some { cause := 0x01, lanes := maskOf ls, info := inLanes ls word } else none

/-- Causes 0x01 to 0x03 that the word, its hints and its register names meet (R67, R69). -/
def Env.formTrap (e : Env) (f : Form) (word : Lane) : Option Trap :=
  let onActive (cause : Nat) (info : Lane) : Trap :=
    { cause := cause, lanes := maskOf (e.activeOf f.guard), info := inLanes (e.activeOf f.guard) info }
  let named := f.regs ++ (match f.b, e.hints.imm with
    | some r, none => [r]
    | _, _ => [])
  firstTrap
    [ e.streamTrap f word,
      if f.accepts.imm && e.hints.imm.isSome && (f.imm11 ≠ 0 || (f.b.getD 0) ≠ 0) then some (onActive 0x01 word) else none,
      if e.hints.accepted f.accepts then none else some (onActive 0x02 word),
      if named.all (e.g.names e.src) then none else some (onActive 0x03 0) ]

/-- A deferred write that makes a slot's next instruction wait: its window is over, or the instruction closes windows (R73, R76). -/
def Deferred.holds (d : Deferred) (src : Source) (c : Closes) : Bool :=
  match c with
  | .nothing => d.src == src && d.left == 0
  | .own => d.src == src
  | .both => d.src == src || d.src == src.other

/-- A slot whose next instruction must wait: after a window, or before its windows have closed (R73, R76). -/
def Group.windowsHold (g : Group) (src : Source) (c : Closes) : Bool := g.defers.any fun d => d.holds src c

/-- The windows an instruction closes. -/
def State.closeFor (st : State) (e : Env) (c : Closes) : State :=
  match c with
  | .nothing => st
  | .own => st.closeWindows e.gid fun s => s == e.src
  | .both => st.closeWindows e.gid fun s => s == e.src || s == e.src.other

/-- A new attempt of the slot: what its last one waited for is forgotten, and whether it is at a barrier instruction is known (R197). -/
def State.clearWait (st : State) (e : Env) (barrier : Bool := false) : State :=
  st.onGroup e.gid fun g => g.setSlot e.src { g.slot e.src with onMemory := false, atBarrier := barrier }

/-- The slot's wait is one that MSTALL counts (R302). -/
def State.memWait (st : State) (e : Env) (on : Bool := true) : State :=
  st.onGroup e.gid fun g => g.setSlot e.src { g.slot e.src with onMemory := on }

/-- A result on its way that holds a slot is a load's (R302). -/
def Group.loadHolds (g : Group) (src : Source) (c : Closes) : Bool :=
  g.defers.any fun d => d.holds src c && g.flight.any fun o => o.id == d.op && o.path == .ld

/-- The slot waits. -/
def State.stall (st : State) (e : Env) : State :=
  st.onGroup e.gid fun g =>
    match e.src with
    | .access => { g with accessLife := .stalled }
    | s => g.setSlot s { g.slot s with life := .stalled }

/-- A group that has issued: order of issue, YIELD, and for an instruction its windows (R36, R71, R73, R185). -/
def Group.counted (g : Group) (e : Env) (instr : Bool) (n : Nat) : Group :=
  let g : Group := { g with
    issued := if e.src = .access then g.issued else n
    prefer := if instr && e.hints.yield then some e.src.other else if e.src = .access then g.prefer else none
    defers := g.defers.map fun d =>
      if instr && d.src == e.src && e.g.defers.any (fun x => x.op == d.op) then { d with left := d.left - 1 } else d }
  match e.src with
  | .access => g
  | s => g.setSlot s { g.slot s with issued := n }

/-- What a pipe's instruction writes takes the place of what the one before it wrote (R189). -/
def Wrote.aged (w : Wrote) : Wrote := if w.fresh then { w with fresh := false } else {}

/-- A core that has issued: a pipe's issue is activity and a cycle with an issue, and the engine's makes its cycle a busy one (R44, R196,
R302). An issue after the window's end belongs to the next window. -/
def Core.counted (c : Core) (src : Source) (pipe : Nat) : Core :=
  let c : Core := { c with silt := ({ c.silt with count := 0 } : Silt) }
  match src with
  | .access => { c with streamNow := true }
  | _ =>
    { c with
      act := if 64 ≤ c.window then c.act else c.act + 1
      actNext := if 64 ≤ c.window then c.actNext + 1 else c.actNext
      issuedNow := true
      wrote := NMap.put c.wrote pipe (NMap.get c.wrote {} pipe : Wrote).aged }

/-- One more issue of the group. -/
def State.countIssue (st : State) (e : Env) (instr : Bool) : State :=
  ((State.onCore { st with issueNo := st.issueNo + 1 } e.g.core fun c => c.counted e.src e.g.pipe).onGroup e.gid fun g =>
    g.counted e instr (st.issueNo + 1)).settle e.gid

/-- The issue of an instruction. -/
def State.issued (st : State) (e : Env) : State := st.countIssue e true

/-- A stream goes on at the next word: the hints of its slot are bound and gone. -/
def Group.goesOn (g : Group) (e : Env) : Group :=
  match e.src with
  | .access => { g with accessPc := g.accessPc + 4, accessLife := if g.accessLife = .done then .done else .running }
  | s => g.setSlot s { g.slot s with
      pc := e.slot.pc + 4, hints := [], life := if (g.slot s).life = .stalled then .ready else (g.slot s).life, atBarrier := false }

/-- The instruction is done. -/
def State.retire (st : State) (e : Env) : State := (st.onGroup e.gid fun g => g.goesOn e).issued e

/-- The work of an operation of a group. -/
def State.work? (st : State) (gid op : Nat) : Option Work :=
  match st.group? gid with
  | none => none
  | some g => (g.flight.find? fun o => o.id == op).map (·.work)

/-- Operations that the matrix unit of a core holds: each from its issue until its counter has fallen (R211). -/
def State.unitCount (st : State) (core : Nat) : Nat := ((st.core core).matrix.filter fun x => (st.work? x.1 x.2).isSome).length

/-- The issue of one word: windows, room in the matrix unit, the checks that need no operand, then the rest of the meaning. -/
def State.issue (st : State) (f : Form) (word : Lane) (run : Env → State → Verdict) : Host.Outcome State Fault Refusal :=
  match st.env? with
  | none => .fault .noIssuer
  | some e0 =>
    let st := (st.closeFor e0 f.closes).clearWait e0 f.barrier
    match st.env? with
    | none => .fault .noIssuer
    | some e =>
      if e.g.windowsHold e.src f.closes then .next ((st.memWait e (e.g.loadHolds e.src f.closes)).stall e)
      else if f.unit ∧ e.src ≠ .access ∧ 16 ≤ st.unitCount e.g.core then .next ((st.memWait e).stall e)
      else if f.runs = .program ∧ e.src = .handler then .next (st.doubleFault e.gid 0 e.slot.pc)
      else match e.formTrap f word with
        | some t => .next (e.raise t st)
        | none => match run e st with
          | .trap t r => .next (if t.cause = 0 then st.stall e else e.raise t st r)
          | .wait s => .next (s.stall e)
          | .next s => .next (s.retire e)
          | .jump s => .next s

/-- The issuing stream stops at a hint word: cr.tpc names that word, and HINT is set (R66, R166, R169, R170). -/
def Env.raiseAtHint (e : Env) (t : Trap) (st : State) : State :=
  match e.src with
  | .handler => st.doubleFault e.gid t.cause e.slot.pc
  | src => st.takeStop e.gid (some src) t e.slot.pc e.slot.pc true

/-- The guard of a word of a format that has one, whatever else the word holds: the predicate field of formats A and M and of the predicated
branches, in the classes and sub-ops of the opcode map whose instructions take a guard (R61 to R63). -/
def wordGuard (w : Nat) : Option Nat :=
  let major := w / 2 ^ 27 % 32
  let sub := w % 32
  if [4, 6, 10, 11, 12, 13, 14, 15, 27, 30].contains major ∨ (major = 8 ∧ w % 4 ≠ 1) then some (w / 4 % 8)
  else if [16, 17, 18, 21].contains major ∨ (major = 20 ∧ sub ≤ 1) ∨ (major = 24 ∧ sub = 2) ∨ (major = 26 ∧ sub = 1) then some (w / 2 ^ 8 % 8)
  else if major = 2 ∧ (w / 2 ^ 24 % 8 = 1 ∨ w / 2 ^ 24 % 8 = 6) then some (w / 2 ^ 21 % 8)
  else if major = 2 ∧ w / 2 ^ 24 % 8 = 7 then some (w / 2 ^ 15 % 8)
  else none

/-- A word that is no instruction: illegal-instruction trap at the word, before any other cause (R66, R67); `hint` says that it
is a hint word. It hands the lanes that are active under its guard, where its format has one (R61, R62, R166; log 54). The spec does not say
which lanes the access stream hands for it: all live lanes, as for its other faults of no lane in particular (the model's choice,
log 54). -/
def State.illegalWord (st : State) (word : Lane) (hint : Bool := false) : Host.Outcome State Fault Refusal :=
  match st.env? with
  | none => .fault .noIssuer
  | some e =>
    if e.g.windowsHold e.src .nothing then .next ((st.memWait e (e.g.loadHolds e.src .nothing)).stall e)
    else
      let m := if e.src = .access then e.g.liveLanes else maskOf (e.activeOf (if hint then none else wordGuard word.toNat))
      let t : Trap := { cause := 0x01, lanes := m, info := inLanes (lanesOf m) word }
      .next (if hint then e.raiseAtHint t st else e.raise t st)

/-- A path with room for one more operation (R53). -/
def Env.room (e : Env) (p : Path) : Bool := decide (e.g.counter p < 63)

/-- Raises a counter by one operation and answers its identifier. -/
def State.launchOp (st : State) (gid : Nat) (p : Path) (src : Source) (w : Work) : State × Nat :=
  let id := st.nextId
  (({ st with nextId := id + 1 }).onGroup gid fun g => { g with flight := g.flight ++ [({ id := id, path := p, src := src, work := w } : Op)] }, id)

/-- Opens a window of n for an operation that will write the given registers; the group's pipe knows whose write follows (R189). -/
def State.openWindow (st : State) (gid op : Nat) (src : Source) (n : Nat) (regs : List Nat) : State :=
  match st.group? gid with
  | none => st
  | some g => (st.setGroup gid { g with defers := g.defers ++ [({ op := op, src := src, left := n, regs := regs } : Deferred)] }).onCore g.core
      fun c => { c with wrote := NMap.put c.wrote g.pipe { op := some op, fresh := true } }

/-- Writes register cells of the issuing group's core at once (R101); the group's pipe (R185) keeps what its instruction wrote. -/
def State.writeCells (st : State) (core : Nat) (ws : List CellWrite) : State :=
  let pipe := match st.group? st.actor.gid with
    | some g => g.pipe
    | none => 0
  st.onCore core fun c => { c.writeAll ws with wrote := NMap.put c.wrote pipe { writes := ws, fresh := true } }

/-- The word of an instruction, zero-extended, as cr.tinfo shows it. -/
def infoWord (i : Instr) : Lane := BitVec.ofNat 64 (encodeNat i)

end Sys2Proof.Machine
end

