-- ==== Sys2Proof/Machine/Operands.lean ====
section
/-! DEFINITION. Operands of the compute instructions: sub-elements (R10, R11), guards by byte, immediates (R69), the halves
that are read (R99), the writes that an instruction makes (R98), and the one shape of a short-latency instruction (R101). -/

namespace Sys2Proof.Machine

/-- Sub-element s of width w of a lane value (R10). -/
def subOf (w s : Nat) (x : Lane) : Nat := x.toNat / 2 ^ (w * s) % 2 ^ w

/-- A value in the place of sub-element s. -/
def subAt (w s n : Nat) : Lane := BitVec.ofNat 64 (n % 2 ^ w * 2 ^ (w * s))

/-- The bits of sub-element s. -/
def subBits (w s : Nat) : Lane := subAt w s (2 ^ w - 1)

/-- Bits of the bytes whose guard bit is set (R107). -/
def byteBits (g : Byte) : Lane :=
  (List.range 8).foldl (fun m i => if g.getLsbD i then m ||| subBits 8 i else m) 0

/-- Half of a lane value that holds sub-element s of width w (R99). -/
def halfOf (w s : Nat) : BitVec 2 := if w = 64 then 3 else if w * s < 32 then 1 else 2

/-- Sub-elements of width w of a lane active under its guard byte (R11). -/
def activeSubs (w : Nat) (g : Byte) : List Nat := (List.range (64 / w)).filter fun s => g.getLsbD (w / 8 * s)

/-- Guard byte of a lane under an optional guard: without one every byte of a lane of the slot. -/
def Env.guardOf (e : Env) (p : Option Nat) (k l : Nat) : Byte :=
  match p with
  | some p => e.guard p k l
  | none => if e.slot.mask.getLsbD l then 0xFF else 0

/-- Active sub-elements of copy k of a lane. -/
def Env.subs (e : Env) (p : Option Nat) (w k l : Nat) : List Nat := activeSubs w (e.guardOf p k l)

/-- Every copy of every lane of the slot. -/
def Env.cells (e : Env) : List (Nat × Nat) := e.copies.flatMap fun k => e.lanes.map fun l => (k, l)

/-- Sub-element s of b: of the register, or the low bits of the wide immediate (R69). -/
def Env.bSub (e : Env) (b w k l s : Nat) : Nat :=
  match e.hints.imm with
  | some n => n % 2 ^ w
  | none => subOf w s (e.val k b l)

/-- The 64-bit value of b. -/
def Env.bVal (e : Env) (b k l : Nat) : Lane :=
  match e.hints.imm with
  | some n => BitVec.ofNat 64 n
  | none => e.val k b l

/-- Halves of register r that hold active sub-elements (R99). -/
def Env.subReads (e : Env) (r : Nat) (p : Option Nat) (w : Nat) : List Read :=
  e.cells.filterMap fun (k, l) =>
    let h := (e.subs p w k l).foldl (fun h s => h ||| halfOf w s) 0#2
    if h = 0 then none else some { reg := r, lane := l, phys := e.phys k l, halves := h }

/-- The same for b, which is not read where an immediate replaces it. -/
def Env.bReads (e : Env) (b : Nat) (p : Option Nat) (w : Nat) : List Read :=
  if e.hints.imm.isSome then [] else e.subReads b p w

/-- The write of active sub-elements of register d: f gives the value of each (R98). -/
def Env.subWrites (e : Env) (d : Nat) (p : Option Nat) (w : Nat) (f : Nat → Nat → Nat → Nat) : List CellWrite :=
  e.cells.filterMap fun (k, l) =>
    let ss := e.subs p w k l
    if ss.isEmpty then none
    else some
      { cell := e.cellOf k d l
        bits := ss.foldl (fun m s => m ||| subBits w s) 0
        value := ss.foldl (fun m s => m ||| subAt w s (f k l s)) 0 }

/-- A write of whole registers of the lanes whose guard bit 0 is set. -/
def Env.laneWrites (e : Env) (d : Nat) (p : Option Nat) (f : Nat → Nat → Lane) : List CellWrite :=
  e.cells.filterMap fun (k, l) =>
    if (e.guardOf p k l).getLsbD 0 then some { cell := e.cellOf k d l, bits := BitVec.allOnes 64, value := f k l } else none

/-- A short-latency instruction: poison of what it reads, else its writes (R98, R99, R101). -/
def State.compute (st : State) (i : Instr) (f : Form) (reads : Env → List Read) (writes : Env → List CellWrite) :
    Host.Outcome State Fault Refusal :=
  st.issue f (infoWord i) fun e st =>
    match e.poisonTrap (reads e) with
    | some t => .trap t none
    | none => .next (st.writeCells e.g.core (writes e))

/-- A format A form with operands a and b, an immediate in place of b where the form takes one. -/
def formAB (p d a b : Nat) (acc : Accepts) : Form :=
  { accepts := { acc with neg := true, imm := true }, guard := some p, regs := [d, a], b := some b }

/-- A format A form with source a, or with sources d and a. -/
def formA (p d a : Nat) (acc : Accepts) : Form :=
  { accepts := { acc with neg := true }, guard := some p, regs := [d, a] }

end Sys2Proof.Machine
end

