-- ==== Sys2Proof/Machine/Flow.lean ====
section
/-! DEFINITION. Slots, the divergence stack, the join table (R36 to R39), the branches (R131 to R135) without the return that
an EXIT may bring, and RECONV and JOIN. -/

namespace Sys2Proof.Machine

/-- A slot that has just left EMPTY (R36). -/
def freshSlot (pc : Lane) (mask : Mask) : Slot := { life := .ready, pc := pc, mask := mask }

/-- A join entry. -/
def Group.join (g : Group) (k : Nat) : Join := NMap.get g.joins {} k

/-- Replaces a join entry. -/
def Group.setJoin (g : Group) (k : Nat) (j : Join) : Group := { g with joins := NMap.store g.joins {} k j }

/-- Pushes lanes at an address with the current depth (R38). -/
def Group.pushRec (g : Group) (pc : Lane) (mask : Mask) : Group :=
  { g with div := { pc := pc, mask := mask, kind := 1, depth := g.depth } :: g.div }

/-- Pushes an occupied program slot as a record; its windows close and its lanes will issue their instruction again. -/
def Group.pushSlot (g : Group) (src : Source) : Group :=
  let s := g.slot src
  let g := g.pushRec s.resumePc s.mask
  let g := { g with defers := g.defers.map fun (d : Deferred) => if d.src == src then { d with left := 0 } else d,
                    token := NMap.del g.token (srcCode (some src)) }
  g.setSlot src {}

/-- The merged lanes of a join resume (R39 step 5). -/
def Group.placeMerged (g : Group) (mask : Mask) (pc : Lane) : Group :=
  let s := freshSlot pc mask
  if g.a.life = .empty then { g with a := s }
  else if g.b.life = .empty then { g with b := s }
  else if g.a.life = .held then (g.pushSlot .slotB).setSlot .slotB s
  else if g.b.life = .held then (g.pushSlot .slotA).setSlot .slotA s
  else if laneCount g.a.mask < laneCount g.b.mask then (g.pushSlot .slotA).setSlot .slotA s
  else (g.pushSlot .slotB).setSlot .slotB s

/-- Completes every entry that is due at the current depth and disarms every entry without lanes (R39 steps 5 and 6). -/
def Group.completeJoins (g : Group) : Group :=
  (List.range 16).foldl (fun g k =>
    let j := g.join k
    if !j.armed then g
    else if j.expected = 0 then g.setJoin k {}
    else if j.arrived = j.expected ∧ j.depth = g.depth then (g.setJoin k {}).placeMerged j.expected (j.pc + 4)
    else g) g

/-- A due pop of a reserved record: slot and record (R38). -/
def Group.badPop (g : Group) : Option (Source × DivRec) :=
  match g.div with
  | [] => none
  | r :: _ =>
    if r.depth = g.depth ∧ r.kind ≠ 1 then
      if g.a.life = .empty then some (.slotA, r) else if g.b.life = .empty then some (.slotB, r) else none
    else none

/-- An EMPTY slot pops the top record of the current depth (R36). -/
def Group.popSlot (g : Group) (src : Source) : Group :=
  match g.div with
  | [] => g
  | r :: rest =>
    if (g.slot src).life = .empty ∧ r.depth = g.depth ∧ r.kind = 1 then
      ({ g with div := rest }).setSlot src (freshSlot r.pc r.mask)
    else g

/-- Both slots pop what is due. The spec does not say which of two EMPTY slots takes the top record: slot A does here, as it takes merged
lanes (R36, R39; the model's choice, log 56). -/
def Group.popSlots (g : Group) : Group := (g.popSlot .slotA).popSlot .slotB

/-- The group has ended (R39). -/
def Group.noLanes (g : Group) : Bool :=
  g.a.life == .empty && g.b.life == .empty && g.div.isEmpty && g.joins.all fun j => j.2.arrived == 0

/-- The generation passes when every member has arrived; ARRIVED never holds a bit outside MASK (R260). -/
def Barrier.pass (b : Barrier) : Barrier :=
  let arrived := b.arrived &&& b.mask
  if b.mask ≠ 0 ∧ arrived = b.mask then { b with gen := b.gen + 1, arrived := 0 } else { b with arrived := arrived }

/-- Member bit of a group (R259). -/
def State.memberBit (st : State) (g : Group) : BitVec 384 := BitVec.ofNat 384 (2 ^ (32 * (st.team g.team).rank + g.index))

/-- A group that ends leaves every object of its cluster (R264). -/
def State.leaveBarriers (st : State) (g : Group) : State :=
  let m := ~~~(st.memberBit g)
  st.onGang (st.team g.team).gang fun x =>
    { x with barriers := x.barriers.map fun e => (e.1, Barrier.pass { e.2 with mask := e.2.mask &&& m, arrived := e.2.arrived &&& m }) }

/-- A group without lanes halts its access stream, drains and leaves its barrier objects (R39, R56, R58, R264). -/
def State.endIfDone (st : State) (gid : Nat) : State :=
  match st.group? gid with
  | none => st
  | some g =>
    if g.noLanes && g.life == .live then (st.setGroup gid { g with life := .draining, accessLife := .done }).leaveBarriers g
    else st

/-- Makes the pops that are due; a reserved record stops the group at the record (R38). -/
def State.pops (st : State) (gid : Nat) : State :=
  match st.group? gid with
  | none => st
  | some g =>
    let g := g.popSlots
    let st := ((st.setGroup gid g).endIfDone gid).settle gid
    match g.badPop with
    | some (src, r) =>
      st.takeStop gid (some src) { cause := 0x0A, lanes := r.mask } r.pc r.pc false
    | none => st

/-- Splits or continues a slot (R37). -/
def Group.split (g : Group) (src : Source) (taken : Mask) (target fall : Lane) : Group :=
  let s := g.slot src
  let rest := s.mask &&& ~~~taken
  let at' (mask : Mask) (pc : Lane) : Slot := { s with life := .ready, pc := pc, mask := mask, hints := [], atBarrier := false }
  if taken = 0 then g.setSlot src (at' s.mask fall)
  else if rest = 0 then g.setSlot src (at' s.mask target)
  else if (g.slot src.other).life = .empty then (g.setSlot src (at' rest fall)).setSlot src.other (freshSlot target taken)
  else if laneCount rest < laneCount taken then (g.pushRec fall rest).setSlot src (at' taken target)
  else (g.pushRec target taken).setSlot src (at' rest fall)

/-- A target that R60 and R133 refuse. -/
def badTarget (t : Lane) : Bool := t.toNat % 4 != 0 || !canonical t.toNat

/-- The fault of a refused target over the lanes that take it. -/
def targetTrap (lanes : List Nat) (t : Lane) : Option Trap :=
  if !lanes.isEmpty && badTarget t then some { cause := 0x0E, lanes := maskOf lanes, addr := inLanes lanes t } else none

/-- Target of a word offset from the branch word (R132). -/
def Env.target (e : Env) (offset : Int) : Lane := e.slot.pc + BitVec.ofInt 64 (4 * offset)

/-- What a branch does once its taken lanes are known: in the handler a split is a double fault (R174). -/
def branchTo (e : Env) (st : State) (taken : List Nat) (target fall : Lane) : Verdict :=
  match targetTrap taken target with
  | some t => .trap t none
  | none =>
    if e.src = .handler ∧ taken ≠ [] ∧ taken ≠ e.lanes then .jump (st.doubleFault e.gid 0 e.slot.pc)
    else .jump ((st.issued e).onGroup e.gid fun g => g.split e.src (maskOf taken) target fall)

/-- BRA label (R132). -/
def execBra (o : BitVec 24) (st : State) : Host.Outcome State Fault Refusal :=
  st.issue { closes := .own } (infoWord (.bra o)) fun e st => branchTo e st e.lanes (e.target o.toInt) (e.slot.pc + 4)

/-- @pN BRA label (R132): the predicate is the guard and the condition. -/
def execBraGuarded (p : BitVec 3) (o : BitVec 21) (st : State) : Host.Outcome State Fault Refusal :=
  st.issue { closes := .own, accepts := { neg := true }, guard := some p.toNat } (infoWord (.braGuarded p o)) fun e st =>
    match e.silentTrap e.lanes fun l => (e.guard p.toNat 0 l).getLsbD 0 != (e.guard p.toNat 1 l).getLsbD 0 with
    | some t => .trap t none
    | none => branchTo e st (e.active p.toNat) (e.target o.toInt) (e.slot.pc + 4)

/-- BRA.ANY pN, label (R132). -/
def execBraAny (p : BitVec 3) (o : BitVec 21) (st : State) : Host.Outcome State Fault Refusal :=
  st.issue { closes := .own, accepts := { neg := true } } (infoWord (.braAny p o)) fun e st =>
    branchTo e st (if (e.active p.toNat).isEmpty then [] else e.lanes) (e.target o.toInt) (e.slot.pc + 4)

/-- BRA.ALL pN, label (R132). -/
def execBraAll (p : BitVec 3) (o : BitVec 21) (st : State) : Host.Outcome State Fault Refusal :=
  st.issue { closes := .own, accepts := { neg := true } } (infoWord (.braAll p o)) fun e st =>
    branchTo e st (if e.active p.toNat = e.lanes then e.lanes else []) (e.target o.toInt) (e.slot.pc + 4)

/-- BRX vT (R133): one target at a time. The halves of v(T) in every lane of A are read for R34, as R133 says, though R180 names the lowest
lane alone (log 55). The lanes that execute the BRX again do so with its hints: they resume at the first of them, as a saved PC does (R68;
log 55). -/
def execBrx (t : BitVec 6) (p : BitVec 3) (st : State) : Host.Outcome State Fault Refusal :=
  st.issue { closes := .own, accepts := { neg := true }, guard := some p.toNat, regs := [t.toNat] } (infoWord (.brx t p)) fun e st =>
    let act := e.active p.toNat
    match firstTrap [e.poisonTrap (e.reads t.toNat act),
        e.silentTrap e.lanes fun l => (e.guard p.toNat 0 l).getLsbD 0 != (e.guard p.toNat 1 l).getLsbD 0 ||
          (act.contains l && e.pairDiffers t.toNat (BitVec.allOnes 64) l)] with
    | some x => .trap x none
    | none => match act with
      | [] => branchTo e st [] 0 (e.slot.pc + 4)
      | l0 :: _ =>
        let target := e.val 0 t.toNat l0
        let taken := act.filter fun l => e.val 0 t.toNat l == target
        branchTo e st taken target (if taken = act then e.slot.pc + 4 else e.slot.resumePc)

/-- RECONV #k, label (R39, R134). -/
def execReconv (k : BitVec 4) (o : BitVec 20) (st : State) : Host.Outcome State Fault Refusal :=
  st.issue { runs := .program } (infoWord (.reconv k o)) fun e st =>
    if (e.g.join k.toNat).armed then .trap (e.slotTrap 0x0A) none
    else .next (st.onGroup e.gid fun g => g.setJoin k.toNat
      { armed := true, expected := e.slot.mask, arrived := 0, pc := e.target o.toInt, depth := g.depth })

/-- JOIN #k (R39, R134). -/
def execJoin (k : BitVec 4) (st : State) : Host.Outcome State Fault Refusal :=
  st.issue { closes := .own, runs := .program } (infoWord (.join k)) fun e st =>
    let j := e.g.join k.toNat
    if !j.armed ∨ j.pc ≠ e.slot.pc ∨ j.depth ≠ e.g.depth then .trap (e.slotTrap 0x0A) none
    else
      let st := st.issued e
      .jump ((st.onGroup e.gid fun g =>
        ((g.setJoin k.toNat { j with arrived := j.arrived ||| e.slot.mask }).setSlot e.src {}).completeJoins).pops e.gid)

end Sys2Proof.Machine
end

