-- ==== Sys2Proof/Machine/Touch.lean ====
section
/-! DEFINITION. First-touch pools (R327), the entries that a mapping writes, and mapping on first touch (R54, R245, R342). -/

namespace Sys2Proof.Machine

/-! ### Pools (R327) -/

/-- COUNT of a pool. -/
def State.poolCount (st : State) (pool : Nat) : Nat := st.homeNum (pool + 8) 4

/-- Takes the next frame of a pool with an indivisible decrement (R327). -/
def State.takeFrame (st : State) (pool : Nat) : State × Option Nat :=
  let n := st.poolCount pool
  if n = 0 then (st, none)
  else
    let f := st.homeNum (st.homeNum pool 8 + 8 * (n - 1)) 8
    (st.writeHome (pool + 8) (bytesOf (n - 1) 4) false, some f)

/-- Gives a frame back to a pool (R329). -/
def State.giveFrame (st : State) (pool f : Nat) : State :=
  let n := st.poolCount pool
  (st.writeHome (st.homeNum pool 8 + 8 * n) (bytesOf f 8) false).writeHome (pool + 8) (bytesOf (n + 1) 4) false

/-- Permissions of the pool range that holds an address: R, W and X (R327). -/
def State.poolRange (st : State) (pool va : Nat) : Option (Bool × Bool × Bool) :=
  [16, 32, 48].findSome? fun o =>
    let start := st.homeNum (pool + o) 8
    let len := st.homeNum (pool + o + 8) 4
    let b := st.homeNum (pool + o + 12) 1
    if start ≤ va ∧ va < start + 65536 * len then some (b.testBit 0, b.testBit 1, b.testBit 2) else none

/-- An agent meets a pinned line among those that taking a frame from a pool, or giving one back, reaches: it is answered with a retry (R356). -/
def State.poolHeld (st : State) (pool : Nat) : Bool :=
  [pool, st.homeNum pool 8 + 8 * (st.poolCount pool - 1), st.homeNum pool 8 + 8 * st.poolCount pool].any fun a => st.pinnedAgainst none (lineOf a)

/-! ### Leaves -/

/-- What a mapping writes: level, whether CONT, the fields of the entry below FRAME and FB, and the first frame. -/
structure Leaf where
  level : Nat
  cont : Bool
  bits : Nat
  frame : Nat
  deriving DecidableEq, Repr

/-- Writes the entries of a leaf, as releases at device scope. -/
def State.writeLeaf (st : State) (addr : Nat) (l : Leaf) : State :=
  if l.cont then (List.range 16).foldl (fun s i => s.writeHome (addr / 128 * 128 + 8 * i) (bytesOf (l.bits + 0x20 + l.frame + 4096 * i) 8) false) st
  else st.writeHome addr (bytesOf (l.bits + l.frame) 8) false

/-- Address of the entry of a level, through the tables above it. -/
def State.leafDown (st : State) (va level : Nat) : Nat → Nat → Option Nat
  | 0, table => if level = 0 then some (pteAddr table 0 va) else none
  | l + 1, table =>
    let addr := pteAddr table (l + 1) va
    if level = l + 1 then some addr
    else
      let p : Pte := ⟨st.homeNum addr 8⟩
      if p.bit 0 && !p.bit 1 then st.leafDown va level l p.frame else none

/-- The entry address at which a leaf of a level may stand: none where MAPPG refuses (R342); a valid leaf over a is the caller's. -/
def State.leafPlace (st : State) (root va level : Nat) (cont : Bool) : Option Nat :=
  match st.leafDown va level 4 root with
  | none => none
  | some addr =>
    let used (x : Nat) : Bool := st.homeNum x 8 % 2 == 1
    if cont then (if (List.range 16).any fun i => used (addr / 128 * 128 + 8 * i) then none else some addr)
    else if used addr then none else some addr

/-! ### First touch -/

/-- Maps the 64 KiB page of an address on first touch, as MAPPG kind 0 does: the frame, or all ones where it is refused (R342). -/
def State.firstTouch (st : State) (root pool va : Nat) : State × Lane :=
  match st.leafPlace root va 0 true, st.poolRange pool va with
  | some addr, some (r, w, x) => (match st.takeFrame pool with
    | (s, some f) =>
      let bits := 3 + (if r then 4 else 0) + (if w then 8 else 0) + (if x then 16 else 0)
      (s.writeLeaf addr { level := 0, cont := true, bits := bits, frame := f }, BitVec.ofNat 64 f)
    | (_, none) => (st, BitVec.allOnes 64))
  | _, _ => (st, BitVec.allOnes 64)

/-- Maps what is not mapped in a range on first touch (R54, R245) (log 39); a walk that meets a pinned line finds nothing yet (R356). -/
def State.ensure (st : State) (root pool va n : Nat) : State :=
  (pieces (n / 4096 + 2) va n).foldl (fun s p => if !canonical p.1 || s.walkHeld root p.1 || s.poolHeld pool then s else match s.walk root p.1 with
    | .missing _ => (s.firstTouch root pool p.1).1
    | _ => s) st

/-- An access to a range of addresses, by the team given or by an engine that acts for none, meets a pinned line: in its walk, in the pool where a
page is to be mapped, or at its place (R356). -/
def State.areaHeld (st : State) (team : Option Nat) (root pool va n : Nat) : Bool :=
  !st.pins.isEmpty && (pieces (n / 4096 + 2) va n).any fun p => st.walkHeld root p.1 || (match st.walk root p.1 with
    | .leaf _ level e => st.segsPinned team [((tlbOf 0 p.1 level e).physical p.1, p.2)]
    | .missing _ => st.poolHeld pool
    | .malformed => false)

end Sys2Proof.Machine
end

