-- ==== Sys2Proof/Machine/Frames.lean ====
section
/-! DEFINITION. Frames (R41 to R43), their requests (R42), the silt engine (R44 to R48), the hardware's own accesses to private
memory, the calls and returns (R136 to R139) and EXIT (R135). -/

namespace Sys2Proof.Machine

/-! ### The hardware's accesses to private memory (R54) -/

/-- Who the hardware is when it reaches a group's private memory: the group's translation, the system area allowed (R47). -/
def State.hwWho (st : State) (g : Group) : Who := st.whoOf g true

/-- The segments of a private range, or the first address that fails. -/
def State.privRange (st : State) (g : Group) (off n : Nat) (k : AccKind) : Except (Nat × Nat) (List (Nat × Nat)) :=
  st.checkRange (st.hwWho g) (g.pbase.toNat + off) n 1 k

/-- Place of a byte offset in segments. -/
def segPlace : List (Nat × Nat) → Nat → Nat
  | [], off => off
  | (place, n) :: rest, off => if off < n then place + off else segPlace rest (off - n)

/-- Writes numbers of n bytes into a private range that has passed its checks, with the halves marked poisoned. -/
def State.privWrite (st : State) (g : Group) (off : Nat) (segs : List (Nat × Nat)) (n : Nat) (xs : List (Nat × BitVec 2)) : State :=
  let st := segs.foldl (fun s e => s.drainRange g.core e.1 e.2) st
  let st := (xs.zipIdx 0).foldl (fun s e =>
    let place := segPlace segs (n * e.2)
    let s := s.writeHome place (bytesOf e.1.1 n) false
    if e.1.2 = 0 then s else s.setHomePoison place e.1.2) st
  st.touchRange (st.hwWho g) (g.pbase.toNat + off) (n * xs.length) .write

/-- Writes a stack record of 16 bytes to private memory, mapping its page on first touch (R54), and notes that memory has it; where the page
cannot be had, the hardware keeps it (log 11). -/
def State.showRecord (st : State) (gid : Nat) (g : Group) (off bits : Nat) : State :=
  let who := st.hwWho g
  let st := st.ensure who.root who.pool (g.pbase.toNat + off) 16
  match st.privRange g off 16 .write with
  | .ok segs => (st.privWrite g off segs 16 [(bits, 0)]).onGroup gid fun g => { g with shown := off :: g.shown }
  | .error _ => st

/-- A number of n bytes of private memory, where it is mapped. -/
def State.privNum (st : State) (g : Group) (off n : Nat) : Option Nat :=
  match st.privRange g off n .read with
  | .ok segs => some (numOf ((List.range n).map fun i => st.viewByte g.core g.team (segPlace segs i)))
  | .error _ => none

/-- A divergence record as memory holds it (R38). -/
def DivRec.bits (r : DivRec) : Nat := r.pc.toNat + r.mask.toNat * 2 ^ 64 + r.kind * 2 ^ 96 + r.depth * 2 ^ 104

/-- A divergence record as memory gives it. -/
def divOf (n : Nat) : DivRec :=
  { pc := BitVec.ofNat 64 n, mask := BitVec.ofNat 32 (n / 2 ^ 64), kind := n / 2 ^ 96 % 256, depth := n / 2 ^ 104 % 256 }

/-- A link record as memory holds it (R43). -/
def Frame.bits (f : Frame) : Nat :=
  f.link.toNat + f.base * 2 ^ 64 + f.own * 2 ^ 72 + (if f.spilled then 2 ^ 80 else 0) + (if f.topKept then 2 ^ 81 else 0)

/-- Writes both stacks to private memory: the records there are current whenever the group is stopped or saved (R38, R43). -/
def State.writeStacks (st : State) (gid : Nat) : State :=
  match st.group? gid with
  | none => st
  | some g =>
    let st := st.setGroup gid { g with shown := [] }
    let st := (g.div.reverse.zipIdx 1).foldl (fun s e => s.showRecord gid g (0x4200 - 16 * e.2) e.1.bits) st
    (g.frames.reverse.zipIdx 0).foldl (fun s e => s.showRecord gid g (0x5000 + 16 * e.2) e.1.bits) st

/-- A frame with the fields that its link record in memory gives; which granules of the file hold its registers stays with the core (log 11). -/
def Frame.fromBits (f : Frame) (n : Nat) : Frame :=
  { f with link := BitVec.ofNat 64 n, base := n / 2 ^ 64 % 2 ^ 8, own := min 8 (n / 2 ^ 72 % 2 ^ 8), spilled := n.testBit 80, topKept := n.testBit 81 }

/-- A stack record that memory was given at the stop, as it stands there now. -/
def State.shownRecord (st : State) (g : Group) (off : Nat) : Option Nat := if g.shown.contains off then st.privNum g off 16 else none

/-- Reads back what the supervisor may have changed: every field of the records that memory was given at the stop (R38, R43). -/
def State.readStacks (st : State) (gid : Nat) : State :=
  match st.group? gid with
  | none => st
  | some g =>
    let n := g.div.length
    let div := (g.div.zipIdx 0).map fun e => ((st.shownRecord g (0x4200 - 16 * (n - e.2))).map divOf).getD e.1
    let d := g.depth
    let frames := (g.frames.zipIdx 0).map fun (e : Frame × Nat) => ((st.shownRecord g (0x5000 + 16 * (d - e.2))).map e.1.fromBits).getD e.1
    st.setGroup gid { g with div := div, frames := frames, shown := [] }

/-! ### Granules -/

/-- Frees granules of a core's file; deferred writes to them have nowhere to go. -/
def State.freeGranules (st : State) (gid core : Nat) (gs : List Nat) : State :=
  (st.onCore core fun c => { c with free := insertAll (gs.filter fun g => !c.withdrawn.contains g) c.free }).onGroup gid fun g =>
    { g with defers := g.defers.filter fun d => !(d.regs.any fun r => gs.contains (r / 8)) }

/-- Takes the n lowest free granules of a core, cleared (R41). -/
def State.takeGranules (st : State) (core n : Nat) : State × List Nat :=
  let c := st.core core
  let gs := c.free.take n
  (st.setCore core ((gs.foldl Core.clearGranule { c with free := c.free.drop n })), gs)

/-- Renames the registers that a group's results on their way will be written to. -/
def Group.renameRegs (g : Group) (f : Nat → Nat) : Group :=
  let cell (c : Nat) : Nat := 32 * f (c / 32) + c % 32
  let lane (a : LaneAcc) : LaneAcc := { a with cell := cell a.cell }
  let write (w : CellWrite) : CellWrite := { w with cell := cell w.cell }
  let work (w : Work) : Work := match w with
    | .load n s ls a c => .load n s (ls.map lane) a c
    | .atomic op n o s c ls => .atomic op n o s c (ls.map lane)
    | .sfu p n b a ws => .sfu p n b a (ws.map write)
    | .adobeq ws => .adobeq (ws.map write)
    | w => w
  { g with
    arrivals := g.arrivals.map fun a => { a with cells := a.cells.map cell }
    defers := g.defers.map fun d => { d with regs := d.regs.map f, writes := d.writes.map fun ws => ws.map write }
    flight := g.flight.map fun o => { o with work := work o.work } }

/-- Number that stands for a register of the granule at a place of the spill area. -/
def spilledReg (granule r : Nat) : Nat := 2048 + 8 * granule + r % 8

/-- Registers of a callee frame of a demand in registers (R41). -/
def frameOf (demand : Nat) : Nat := 8 * ((demand + 7) / 8)

/-- Offset of granule i of a frame in the spill area: lower frames come first (R45). -/
def spillOffset (below : List Frame) (i : Nat) : Nat := 0x10000 + 2048 * ((below.map fun (f : Frame) => f.own).sum + i)

/-- The words of a granule: value and poison of each register's lanes, in register order (R45). -/
def Core.granuleWords (c : Core) (g : Nat) : List (Nat × BitVec 2) :=
  (List.range 256).map fun i => ((c.cell (256 * g + i)).toNat, c.cellPoison (256 * g + i))

/-- Loads a granule from segments of private memory. -/
def State.loadGranule (st : State) (core team : Nat) (segs : List (Nat × Nat)) (g : Nat) : State :=
  (List.range 256).foldl (fun s i =>
    let place := segPlace segs (8 * i)
    let v := numOf (st.view core team place 8)
    s.onCore core fun c => { c with
      rf := NMap.store c.rf 0 (256 * g + i) (BitVec.ofNat 64 v)
      rfPoison := NMap.store c.rfPoison 0 (256 * g + i) (st.homePoison place) }) st

/-! ### Returning (R48, R135, R138, R139) -/

/-- What a return to the current frame still has to reload: position in the frame list, first granule and number of granules (R48). -/
def Group.nextRefill (g : Group) : Option (Nat × Nat × Nat) :=
  match g.frames with
  | [] => none
  | f :: below =>
    if f.spilled then some (0, 0, f.own - (if f.topKept then 1 else 0))
    else match below.findIdx? fun x => decide (x.own ≠ 0) with
      | some i => match below[i]? with
        | some x => if x.spilled && !x.topKept then some (i + 1, x.own - 1, 1) else none
        | none => none
      | none => none

/-- A frame once granules have been reloaded into it: the current frame whole, another frame its top one (R48). -/
def Frame.refilled (f : Frame) (whole : Bool) (gs : List Nat) : Frame :=
  let grans := if whole then gs ++ f.grans else gs
  { f with spilled := !whole, topKept := !whole, grans := grans, base := grans.foldl min (grans.headD 0) }

/-- Leaves every depth above t: its join entries disarm, its granules are freed (R138, R139). -/
def State.leaveTo (st : State) (gid t : Nat) : State :=
  match st.group? gid with
  | none => st
  | some g =>
    let n := g.depth - t
    let gs := (g.frames.take n).flatMap (·.grans)
    let left := ((g.frames.drop n).map fun (f : Frame) => f.own).sum
    (st.setGroup gid { g with
      frames := g.frames.drop n
      defers := g.defers.filter fun d => !(d.regs.any fun r => decide (2048 + 8 * left ≤ r))
      joins := NMap.keep g.joins fun _ j => !(j.armed && decide (t < j.depth)) }).freeGranules gid g.core gs

/-- A slot HELD with the current depth becomes READY (R36). -/
def Group.releaseHeld (g : Group) : Group :=
  let f (s : Slot) : Slot := if s.life = .held ∧ s.tag = g.depth then { s with life := .ready } else s
  { g with a := f g.a, b := f g.b }

/-- The end of a return: the slot goes on at the LINK, held slots and completed joins resume (R39, R135, R138) (log 29). -/
def State.finishReturn (st : State) (gid : Nat) (src : Source) (link : Option Lane) : State :=
  let st := match link with
    | some l => (match st.envAt gid src with
      | some e => st.issued e
      | none => st).onGroup gid fun g => g.setSlot src { g.slot src with pc := l, hints := [], life := .ready }
    | none => st
  (st.onGroup gid fun g => ({ g with frameReq := none }.releaseHeld).completeJoins).pops gid

/-- Puts a request into a queue after every one that began to wait before it; of those that began in its cycle, after the ones with lower
core group numbers (R42). -/
def insertRequest (num : Nat → Nat) (r : FrameReq) : List FrameReq → List FrameReq
  | [] => [r]
  | x :: rest => if x.since = r.since ∧ num r.gid < num x.gid then r :: x :: rest else x :: insertRequest num r rest

/-- Core group number of a group. -/
def State.numberOf (st : State) (gid : Nat) : Nat :=
  match st.group? gid with
  | some g => g.number
  | none => 0

/-- Makes a frame request of a group: it begins to wait in this cycle of its core (R42). -/
def State.enqueueFrame (st : State) (gid : Nat) (r : FrameReq) : State :=
  match st.group? gid with
  | none => st
  | some g =>
    let r := { r with since := (st.core g.core).cycle.toNat }
    (st.setGroup gid { g with frameReq := some r }).onCore g.core fun c => { c with requests := insertRequest st.numberOf r c.requests }

/-- Goes on with a return: done, or a request for what it reloads next (R48). In a group that does not run the instruction completes only
once the group goes on, which makes the kept request again. -/
def State.goOnReturn (st : State) (gid : Nat) (src : Source) (kind : FrameKind) : State :=
  match st.group? gid with
  | none => st
  | some g => match g.nextRefill with
    | some (_, _, n) => st.enqueueFrame gid { gid := gid, src := src, kind := kind, grans := n }
    | none => match kind with
      | .refill link =>
        if g.life = .live then st.finishReturn gid src link
        else st.setGroup gid { g with frameReq := some { gid := gid, src := src, kind := kind, grans := 0 } }
      | _ => st.setGroup gid { g with frameReq := none }

/-- A page fault of a spill or refill, taken at the blocked instruction (R47). Where an EXIT has left its slot EMPTY, it is
taken at the slot that the return will wake (log 12). -/
def State.frameFault (st : State) (gid : Nat) (src : Source) (cause : Nat) (addr info : Lane) : State :=
  match st.group? gid with
  | none => st
  | some g =>
    let s := if (g.slot src).mask = 0 then src.other else src
    let x := g.slot s
    let ls := lanesOf x.mask
    st.takeStop gid (some s) { cause := cause, lanes := x.mask, addr := if addr = 0 then [] else inLanes ls addr, info := inLanes ls info }
      x.resumePc x.resumePc (!x.hints.isEmpty)

/-- Reloads what a return needs next (R48): granules, contents from the spill area, and the link record. -/
def State.refillOne (st : State) (gid : Nat) : State :=
  match st.group? gid with
  | none => st
  | some g => match g.frameReq, g.nextRefill with
    | some r, some (i, first, n) =>
      let below := g.frames.drop (i + 1)
      match st.privRange g (spillOffset below first) (2048 * n) .read with
      | .error (c, va) => if c = 0 then st else st.frameFault gid r.src 0x11 (BitVec.ofNat 64 va) 3
      | .ok segs => if st.segsPinned (some g.team) segs then st else
        let (s, gs) := st.takeGranules g.core n
        let s := (gs.zipIdx first).foldl (fun s e =>
          match s.privRange g (spillOffset below e.2) 2048 .read with
          | .ok segs => s.loadGranule g.core g.team segs e.1
          | .error _ => s) s
        let s := s.touchRange (s.hwWho g) (g.pbase.toNat + spillOffset below first) (2048 * n) .read
        let place := (below.map fun (f : Frame) => f.own).sum + first
        let s := s.onGroup gid fun g => ({ g with frames := g.frames.modify i fun f => f.refilled (i == 0) gs }).renameRegs fun r =>
          if 2048 + 8 * place ≤ r ∧ r < 2048 + 8 * (place + n) then 8 * gs.getD ((r - 2048) / 8 - place) 0 + r % 8 else r
        let s := s.onCore g.core fun c => { c with requests := c.requests.filter fun x => x.gid != gid }
        (s.settle gid).goOnReturn gid r.src r.kind
    | _, _ => st

/-- Team of a group. -/
def State.teamOf (st : State) (gid : Nat) : Nat :=
  match st.group? gid with
  | some g => g.team
  | none => 0

/-- cr.group of a group. -/
def State.indexOf (st : State) (gid : Nat) : Nat :=
  match st.group? gid with
  | some g => g.index
  | none => 0

/-- A launch frame is never granted before that of an earlier group of its team (R42, R283). -/
def State.launchHeld (st : State) (core : Nat) (r : FrameReq) : Bool :=
  r.kind == .launch && (st.core core).requests.any fun x =>
    x.kind == .launch && st.teamOf x.gid == st.teamOf r.gid && decide (st.indexOf x.gid < st.indexOf r.gid)

/-- A request that is granted when it is offered (R42). -/
def State.grantable (st : State) (core : Nat) (r : FrameReq) : Bool :=
  decide (r.grans ≤ (st.core core).free.length) && !st.launchHeld core r

/-- A new request of a group for granules that fits after every older one has been offered (R42). -/
def State.grantsAtOnce (st : State) (gid core n : Nat) : Bool :=
  decide (n ≤ (st.core core).free.length) && (st.core core).requests.all fun r => r.gid == gid || !st.grantable core r

/-- The refill that a group has just asked for is granted at once where it fits, and the one that then follows it (R42, R48). -/
def State.refillAtOnce (st : State) (gid : Nat) : Nat → State
  | 0 => st
  | n + 1 => match st.group? gid with
    | none => st
    | some g => match g.frameReq with
      | none => st
      | some r =>
        if (st.core g.core).requests.contains r && st.grantsAtOnce gid g.core r.grans then
          (st.refillOne gid).refillAtOnce gid n
        else st

/-- Goes on with a return, through the refills that fit at once (R42, R48). -/
def State.comeBack (st : State) (gid : Nat) (src : Source) (kind : FrameKind) : State := (st.goOnReturn gid src kind).refillAtOnce gid 2

/-- Makes a kept request again after a stop (R42, R179). -/
def State.rejoin (st : State) (gid : Nat) : State :=
  match st.group? gid with
  | none => st
  | some g => match g.frameReq with
    | some r => if (st.core g.core).requests.any (fun x => x.gid == gid) then st else st.comeBack gid r.src r.kind
    | none => st

/-! ### Calls (R137) -/

/-- A call completes: its granules, its link record, the new depth and the target. -/
def State.completeCall (st : State) (gid : Nat) (src : Source) (size : Nat) (target link : Lane) : State :=
  match st.group? gid with
  | none => st
  | some g =>
    let (s, gs) := st.takeGranules g.core (size / 8 - 1)
    let s := match s.envAt gid src with
      | some e => s.issued e
      | none => s
    (s.onGroup gid fun g =>
      { (g.setSlot src { g.slot src with pc := target, hints := [], life := .ready }) with
        frames := { link := link, own := size / 8 - 1, base := gs.headD 0, size := size, grans := gs } :: g.frames
        frameReq := none }).onCore g.core fun c => { c with requests := c.requests.filter fun x => x.gid != gid }

/-- CALL and CALLX once the target is known. -/
def callTo (e : Env) (st : State) (demand : Nat) (target : Lane) : Verdict :=
  match firstTrap [if e.g.depth = 255 then some (e.slotTrap 0x09) else none, targetTrap e.lanes target] with
  | some t => .trap t none
  | none =>
    if e.g.frameReq.isSome then .wait st
    else
      let size := frameOf demand
      let st := st.onGroup e.gid fun g =>
        let o := g.slot e.src.other
        if o.life = .ready ∨ o.life = .stalled then g.setSlot e.src.other { o with life := .held, tag := g.depth } else g
      if size = 8 ∨ st.grantsAtOnce e.gid e.g.core (size / 8 - 1) then
        .jump (st.completeCall e.gid e.src size target (e.slot.pc + 4))
      else .wait (st.enqueueFrame e.gid { gid := e.gid, src := e.src, kind := .call size target (e.slot.pc + 4), grans := size / 8 - 1 })

/-- Registers demanded by a demand field (R136). -/
def demandOf (d : BitVec 6) : Nat := if d = 0 then 64 else d.toNat

/-- CALL label, #D (R137). -/
def execCall (d : BitVec 6) (o : BitVec 21) (st : State) : Host.Outcome State Fault Refusal :=
  st.issue { closes := .own, runs := .program } (infoWord (.call d o)) fun e st => callTo e st (demandOf d) (e.target o.toInt)

/-- CALLX vT, #D (R137). -/
def execCallx (t d : BitVec 6) (st : State) : Host.Outcome State Fault Refusal :=
  st.issue { closes := .own, runs := .program, regs := [t.toNat] } (infoWord (.callx t d)) fun e st =>
    match e.poisonTrap (e.readLowest t.toNat) with
    | some x => .trap x none
    | none => callTo e st (demandOf d) (e.scalar t.toNat)

/-- Some join entry armed above a depth holds arrived lanes. -/
def Group.arrivedAbove (g : Group) (t : Nat) : Bool := g.joins.any fun j => j.2.armed && decide (t < j.2.depth) && j.2.arrived != 0

/-- Return to depth t (R138, R139). -/
def returnTo (e : Env) (st : State) (t : Nat) : Verdict :=
  match e.g.frameReq with
  | some _ => .wait st
  | none =>
    let o := e.g.slot e.src.other
    let link := match e.g.frames[e.g.depth - (t + 1)]? with
      | some f => f.link
      | none => 0
    match firstTrap
      [ if e.g.depth ≤ t ∨ (o.life = .held ∧ t < o.tag) then some (e.slotTrap 0x09) else none,
        if (e.g.div.any fun r => decide (t < r.depth)) || e.g.arrivedAbove t then some (e.slotTrap 0x0A) else none,
        targetTrap e.lanes link ] with
    | some x => .trap x none
    | none =>
      let st := (st.leaveTo e.gid t).comeBack e.gid e.src (.refill (some link))
      if ((st.group? e.gid).bind fun g => g.frameReq).isSome then .wait st else .jump st

/-- RET (R138). -/
def execRet (st : State) : Host.Outcome State Fault Refusal :=
  st.issue { closes := .own, runs := .program } (infoWord .ret) fun e st =>
    if e.g.depth = 0 ∧ e.g.frameReq.isNone then .trap (e.slotTrap 0x09) none else returnTo e st (e.g.depth - 1)

/-- UNWIND #t (R139). -/
def execUnwind (t : BitVec 8) (st : State) : Host.Outcome State Fault Refusal :=
  st.issue { closes := .own, runs := .program } (infoWord (.unwind t)) fun e st => returnTo e st t.toNat

/-! ### EXIT (R135) -/

/-- Takes exiting lanes out of the join table (R39 step 4). -/
def Group.exitJoins (g : Group) (m : Mask) : Group :=
  { g with joins := g.joins.map fun (k, j) => (k, if j.armed then { j with expected := j.expected &&& ~~~m, arrived := j.arrived &&& ~~~m } else j) }

/-- No lane of the group is at a depth. -/
def Group.emptyAt (g : Group) (d : Nat) : Bool :=
  let away (s : Slot) : Bool := s.life == .empty || (s.life == .held && s.tag != d) || (s.life != .held && d != g.depth)
  away g.a && away g.b && !(g.div.any fun r => r.depth == d) && !(g.joins.any fun j => j.2.armed && j.2.depth == d && j.2.arrived != 0)

/-- The depth that an exhausted depth returns to: the first that is not empty, or 0. -/
def Group.returnDepth (g : Group) : Nat → Nat
  | 0 => 0
  | d + 1 => if g.emptyAt d then g.returnDepth d else d

/-- EXIT (R135). -/
def execExit (p : BitVec 3) (st : State) : Host.Outcome State Fault Refusal :=
  st.issue { closes := .own, runs := .program, accepts := { neg := true }, guard := some p.toNat } (infoWord (.exit p)) fun e st =>
    let m := maskOf (e.active p.toNat)
    let rest := e.slot.mask &&& ~~~m
    let st := (st.issued e).onGroup e.gid fun g =>
      let s := g.slot e.src
      ((g.exitJoins m).setSlot e.src (if rest = 0 then {} else { s with life := .ready, pc := e.slot.pc + 4, mask := rest, hints := [] })).completeJoins
    match st.group? e.gid with
    | none => .jump st
    | some g =>
      if g.depth ≠ 0 && g.emptyAt g.depth then
        let st := st.leaveTo e.gid (g.returnDepth g.depth)
        if g.noLanes then .jump (st.endIfDone e.gid)
        else .jump (st.comeBack e.gid e.src (.refill none))
      else .jump (st.pops e.gid)

/-! ### Grants (R42) -/

/-- Tile registers at their reset state (R206). -/
def Core.clearTiles (c : Core) (k n : Nat) : Core :=
  let within (lo len i : Nat) : Bool := decide (lo * k ≤ i) && decide (i < lo * k + len)
  { c with
    tile := NMap.keep c.tile fun i _ => !within 8192 (8192 * n) i
    tilePoison := NMap.keep c.tilePoison fun i _ => !within 1024 (1024 * n) i
    tileCfg := NMap.keep c.tileCfg fun i _ => !within 1 n i }

/-- Accumulator slots at their reset state (R206). -/
def Core.clearSlots (c : Core) (k n : Nat) : Core :=
  let within (lo len i : Nat) : Bool := decide (lo * k ≤ i) && decide (i < lo * k + len)
  { c with
    acc := NMap.keep c.acc fun i _ => !within 16384 (16384 * n) i
    accPoison := NMap.keep c.accPoison fun i _ => !within 2048 (2048 * n) i
    accKind := NMap.keep c.accKind fun i _ => !within 1 n i }

/-- Tiles and slots that the creation of a group resets: its own, and the shared ones of its team with the team's first group (R206). -/
def State.resetMatrix (st : State) (g : Group) : State :=
  let mates := (st.team g.team).groups.filterMap st.group?
  let first := mates.all fun x => x.life == .pending
  let shared := if first then mates.filter fun x => x.zshared else []
  st.onCore g.core fun c =>
    let c := c.clearTiles g.tile0 g.tiles
    let c := if g.zshared then c else c.clearSlots g.acc0 g.accs
    shared.foldl (fun c x => c.clearSlots x.acc0 x.accs) c

/-- A PENDING group receives its launch frame and is created (R33). -/
def State.createGroup (st : State) (gid n : Nat) : State :=
  match st.group? gid with
  | none => st
  | some g =>
    let (s, gs) := (st.resetMatrix g).takeGranules g.core n
    (s.setGroup gid { g with
      life := .live
      frameReq := none
      frames := [{ link := 0, own := n, base := gs.headD 0, size := 8 * n, grans := gs }] }).onCore g.core
        fun c => { c with requests := c.requests.filter (fun x => x.gid != gid), vacated := false }

/-- Grants one request. -/
def State.grant (st : State) (r : FrameReq) : State :=
  match r.kind with
  | .call size target link => st.completeCall r.gid r.src size target link
  | .refill _ => st.refillOne r.gid
  | .restore => st.refillOne r.gid
  | .launch => st.createGroup r.gid r.grans

/-- Offers the free granules to the requests of a list that still wait, in order (R42, R283). -/
def State.offerOnce (st : State) (core : Nat) (rs : List FrameReq) : State :=
  rs.foldl (fun s r => if (s.core core).requests.contains r && s.grantable core r then s.grant r else s) st

/-- Offers the free granules to a core's requests in order, as often as that grants one: a launch frame that waited for an earlier one of its
team is offered again (R42, R283). -/
def State.offerUpTo (st : State) (core : Nat) : Nat → State
  | 0 => st
  | n + 1 =>
    let rs := (st.core core).requests
    let s := st.offerOnce core rs
    if (s.core core).requests = rs then s else s.offerUpTo core n

/-- Offers the free granules to a core's requests (R42). -/
def State.offer (st : State) (core : Nat) : State := st.offerUpTo core (2 * (st.core core).requests.length)

/-- GRANULE_GRANT (R42). -/
def execGranuleGrant (core : Nat) (st : State) : Host.Outcome State Fault Refusal := .next (st.offer core)

/-- FRAME_REFILL (R48): the refill of a group's return, once its granules are free and no older request that fits waits. -/
def execFrameRefill (gid : Nat) (st : State) : Host.Outcome State Fault Refusal :=
  match st.group? gid with
  | none => .next st
  | some g =>
    let c := st.core g.core
    match c.requests.find? fun r => r.gid == gid with
    | none => .next st
    | some r =>
      let older := c.requests.takeWhile fun x => x.gid != gid
      let refills := match r.kind with
        | .refill _ => true
        | .restore => true
        | _ => false
      if refills && decide (r.grans ≤ c.free.length) && older.all (fun x => !st.grantable g.core x) then .next (st.refillOne gid)
      else .next st

/-! ### The silt engine (R44 to R46) -/

/-- Requests of slots that are blocked on frames, oldest first. -/
def Core.blocked (c : Core) : List FrameReq := c.requests.filter fun r =>
  match r.kind with
  | .call _ _ _ => true
  | .refill _ => true
  | _ => false

/-- Position of the deepest spillable frame (R45). -/
def Group.spillable (g : Group) : Option Nat := (g.frames.drop 1).findIdx? (fun f => decide (f.own ≠ 0) && !f.spilled) |>.map (· + 1)

/-- SELECT and FAULT (R46): the group blocked longest, the lower core group number at a tie, that has a spillable frame, else frame exhaustion (R179) (log 23). -/
def State.siltSelect (st : State) (core : Nat) : State :=
  let c := st.core core
  match c.blocked.find? fun r => ((st.group? r.gid).bind Group.spillable).isSome with
  | some r => st.onCore core fun c => { c with silt := ({ c.silt with chosen := some r.gid } : Silt) }
  | none =>
    let st := st.onCore core fun c => { c with silt := {} }
    match c.blocked with
    | r :: _ => st.frameFault r.gid r.src 0x14 0 (BitVec.ofNat 64 r.grans)
    | [] => st

/-- SILT_TRIGGER (R44): after 256 cycles without an issue while a group is blocked on frames. -/
def execSiltTrigger (core : Nat) (st : State) : Host.Outcome State Fault Refusal :=
  let c := st.core core
  if 256 ≤ c.silt.count ∧ c.silt.chosen.isNone ∧ c.blocked ≠ [] then .next (st.siltSelect core) else .next st

/-- The frame that holds the current frame's v0 to v7: position in the frame list (R45). -/
def Group.aliasFrame (g : Group) : Option Nat := (g.frames.drop 1).findIdx? (fun f => decide (f.own ≠ 0)) |>.map (· + 1)

/-- Spills a frame: contents to the spill area, granules freed but a kept top one, the link record updated (R45). -/
def State.spillFrame (st : State) (gid i : Nat) : State :=
  match st.group? gid with
  | none => st
  | some g => match g.frames[i]? with
    | none => st
    | some f =>
      let kept := g.aliasFrame == some i
      let out := if kept then f.grans.dropLast else f.grans
      let below := g.frames.drop (i + 1)
      match st.privRange g (spillOffset below 0) (2048 * out.length) .write with
      | .error (0, _) => st
      | .error (_, va) =>
        (match g.frameReq with
         | some r => (st.onCore g.core fun c => { c with silt := {} }).frameFault gid r.src 0x11 (BitVec.ofNat 64 va) 3
         | none => st)
      | .ok segs => if st.segsPinned (some g.team) segs then st else
        let c := st.core g.core
        let s := (out.zipIdx 0).foldl (fun s e =>
          match s.privRange g (spillOffset below e.2) 2048 .write with
          | .ok segs => s.privWrite g (spillOffset below e.2) segs 8 (c.granuleWords e.1)
          | .error _ => s) st
        (s.onGroup gid fun g => ({ g with frames := g.frames.modify i fun f =>
          { f with spilled := true, topKept := kept, grans := if kept then f.grans.drop (f.grans.length - 1) else [] } }).renameRegs fun r =>
            match out.findIdx? (· == r / 8) with
            | some k => spilledReg ((below.map fun (f : Frame) => f.own).sum + k) r
            | none => r).freeGranules gid g.core out

/-- SILT_SPILL (R45, R46): a frame of the chosen group leaves the file, and the freed granules are offered. -/
def execSiltSpill (core : Nat) (st : State) : Host.Outcome State Fault Refusal :=
  let c := st.core core
  match c.silt.chosen with
  | none => .next st
  | some gid => match st.group? gid with
    | none => .next (st.onCore core fun c => { c with silt := {} })
    | some g =>
      if !(c.blocked.any fun r => r.gid == gid) then .next (st.onCore core fun c => { c with silt := {} })
      else match g.spillable with
        | none => .next (st.siltSelect core)
        | some i =>
          let s := st.spillFrame gid i
          let before := (s.core core).requests
          let s := s.offer core
          if (s.core core).silt.chosen.isNone then .next s
          else if (s.core core).requests ≠ before then .next (s.onCore core fun c => { c with silt := {} })
          else if ((s.group? gid).bind Group.spillable).isSome then .next s
          else .next (s.siltSelect core)

end Sys2Proof.Machine
end

