-- ==== Sys2Proof/Machine/LoadStore.lean ====
section
/-! DEFINITION. Loads and stores (R140 to R146), how a write is performed (R347 to R351), pins (R355, R356), atomics (R147 to
R149), and the events that finish them. -/

namespace Sys2Proof.Machine

/-! ### Addresses (R140) -/

/-- Lanes and addresses of a memory instruction. -/
def Env.addresses (e : Env) (b : Nat) (lanes : List Nat) : List (Nat × Nat) :=
  lanes.map fun l => (l, lowBits 64 (((e.val 0 b l).toNat : Int) + e.offset))

/-- Access kind in cr.tinfo (R171). -/
def kindCode : AccKind → Lane
  | .read => 0
  | .write => 1
  | .rmw => 2
  | .fetch => 4

/-- The checks of R140 over the lanes: the places, or the lowest code that a lane fails with the lanes that fail it; of protection faults, those
of check 4 come before those of check 5, which alone concerns the system area. -/
def State.checkLanes (st : State) (who : Who) (addrs : List (Nat × Nat)) (n align : Nat) (k : AccKind) :
    Except Trap (List (Nat × Nat × Nat)) :=
  let rs := addrs.map fun a => (a, st.check who a.2 n align k)
  let bad := rs.filterMap fun r => match r.2 with
    | .error c => some (c, r.1)
    | .ok _ => none
  match bad with
  | [] => .ok (rs.filterMap fun r => match r.2 with
      | .ok place => some (r.1.1, r.1.2, place)
      | .error _ => none)
  | b :: rest =>
    let code := rest.foldl (fun c x => min c x.1) b.1
    let failing := (bad.filter fun x => x.1 == code).map fun x => x.2
    let four := if code = 0x12 then failing.filter fun a => (match st.check { who with pbase := 2 ^ 64 } a.2 n align k with
        | .error _ => true
        | .ok _ => false)
      else []
    let failing := if four.isEmpty then failing else four
    .error
      { cause := code
        lanes := maskOf (failing.map fun a => a.1)
        addr := failing.foldl (fun m a => NMap.store m 0 a.1 (BitVec.ofNat 64 a.2)) []
        info := if code = 0x11 then inLanes (failing.map fun a => a.1) (kindCode k) else [] }

/-- The effects of the translations of passed checks. -/
def State.touchLanes (st : State) (who : Who) (addrs : List (Nat × Nat)) (k : AccKind) : State :=
  addrs.foldl (fun s a => s.touch who a.2 k) st

/-- A lane's access with its register cell. -/
def Env.laneAcc (e : Env) (d : Nat) (a : Nat × Nat × Nat) : LaneAcc :=
  { lane := a.1, va := BitVec.ofNat 64 a.2.1, place := a.2.2, cell := e.cellOf 0 d a.1 }

/-! ### A group's accesses in flight (R53, R145, R146, R348) -/

/-- Bytes that an operation of the matrix unit still has to reach: those it has not read before it starts, afterwards those it has not
written. -/
def UnitOp.spans (o : UnitOp) : List (Nat × Nat) :=
  if o.started then o.out.map fun w => (w.place, w.bytes.length)
  else ((o.segs.zipIdx 0).filter fun x => (NMap.find o.got x.2).isNone).map fun x => x.1

/-- Bytes that a lane has still to reach: all of them, or those not performed on their own. -/
def LaneAcc.left (a : LaneAcc) (n : Nat) : List (Nat × Nat) :=
  match a.got with
  | [] => [(a.place, n)]
  | m => ((List.range n).filter fun b => (NMap.find m b).isNone).map fun b => (a.place + b, 1)

/-- Bytes that the lanes not yet performed reach. -/
def laneSpans (n : Nat) (ls : List LaneAcc) : List (Nat × Nat) := (ls.filter fun a => !a.done).flatMap fun a => a.left n

/-- Bytes that an operation reads or writes, as (place, length), where it has still to reach them. The append of an ENQ is none of them: no
later access waits while a full ring holds it (R164; log 26). -/
def Work.spans : Work → List (Nat × Nat)
  | .load n _ ls _ _ => laneSpans n ls
  | .store n _ _ ls => laneSpans n ls
  | .atomic _ n _ _ _ ls => laneSpans n ls
  | .matrix o => o.spans
  | .discard lines => lines.map fun l => (128 * l, 128)
  | _ => []

/-- What a fence and an arrival wait for (R150, R263). -/
def Work.isAccess : Work → Bool
  | .load .. => true
  | .store .. => true
  | .atomic .. => true
  | .enq .. => true
  | .discard _ => true
  | .matrix o => match o.ins with
    | .tld .. => true
    | .tst .. => true
    | .zld .. => true
    | .zst .. => true
    | _ => false
  | _ => false

/-- Accesses of a group that a release of it waits for (R145, R345). The append of an ENQ is none of them: a later release does not
wait while a full ring holds it (R164; log 26). -/
def Work.isMemory (w : Work) : Bool := w.isAccess && (match w with
  | .enq .. => false
  | _ => true)

/-- An acquire that has not returned (R145, R148). -/
def Op.acquires (o : Op) : Bool :=
  !o.finished && (match o.work with
    | .load _ _ _ a _ => a.isSome
    | .atomic _ _ order _ _ _ => order == 1 || order == 3
    | _ => false)

/-- An acquire of the issuing slot has not returned: the slot's next access waits (R145). -/
def Env.acquireHeld (e : Env) : Bool := e.g.flight.any fun o => o.acquires && o.src == e.src

/-- Two ranges share a byte. -/
def meets (a b : Nat × Nat) : Bool := decide (a.1 < b.1 + b.2) && decide (b.1 < a.1 + a.2)

/-- The operations of a group that were issued before one. -/
def Group.before (g : Group) (op : Nat) : List Op := g.flight.takeWhile fun o => o.id != op

/-- An access is not yet to be performed: an earlier access of the group's execute stream has still to reach some of its bytes
(R146, R348). -/
def Group.held (g : Group) (op : Nat) (spans : List (Nat × Nat)) : Bool :=
  (g.before op).any fun o => !o.finished && o.work.spans.any fun a => spans.any (meets a)

/-- An operation is finished, or there is none. -/
def Group.over (g : Group) (op : Nat) : Bool := g.flight.all fun o => o.id != op || o.finished

/-! ### Reading and writing as a group (R146, R347, R349) -/

/-- What an access of a group says about itself (R320, R322, R380). -/
def State.accessOf (st : State) (gid : Nat) (g : Group) (policy : Nat) : Access :=
  { traffic := st.trafficOf g.team, policy := policy, by' := some gid }

/-- A lane that reaches the image of a saved team through its rank window: it is performed at the home slice, not through the L1, and
it is not versioned (R243, R245, R335, R358). -/
def LaneAcc.image (a : LaneAcc) : Bool := decide (onChip ≤ a.va.toNat) && !isChip a.place

/-- A value read, with the bytes that were read before it in their places, and its poison with theirs (R354). -/
def LaneAcc.reads (a : LaneAcc) (v : Nat) (bad : Bool) : LaneAcc :=
  { a with
    value := a.got.foldl (fun (v : Lane) (b : Nat × Byte × Bool) => (v &&& ~~~(0xFF#64 <<< (8 * b.1))) ||| ((b.2.1.setWidth 64 : Lane) <<< (8 * b.1)))
      (BitVec.ofNat 64 v)
    bad := bad || a.got.any fun b => b.2.2
    done := true }

/-- The value of a lane's load. -/
def State.readLane (st : State) (g : Group) (n : Nat) (a : LaneAcc) : LaneAcc :=
  if a.image then a.reads (st.homeNum a.place n) ((spread a.place n).any st.homeBad)
  else a.reads (numOf (st.view g.core g.team a.place n)) (st.viewAnyBad g.core g.team a.place n)

/-- The line that a lane reads is reached: through the L1, or at its home. -/
def State.reachLane (st : State) (gid : Nat) (g : Group) (cache : Nat) (a : LaneAcc) : State :=
  if a.image then st.install a.place (st.accessOf gid g cache) else st.readIn gid g a.place cache

/-- A place that an agent outside the pinning team reaches (R356). -/
def State.pinnedFrom (st : State) (team place n : Nat) : Bool :=
  !isChip place && ((spread place n).map lineOf).dedup.any fun l => st.pinnedAgainst (some team) l

/-- A write of a lane is performed at its home, after the earlier writes of its core to the same bytes; in a versioned launch, in the version
lines (R335). -/
def State.writeAtHome (st : State) (gid : Nat) (g : Group) (place : Nat) (bytes : List Byte) (cache : Nat := 0) (image : Bool := false)
    (bad : Bool := false) : State :=
  if !isChip place && !image && g.versioned then st.writeVersion g.team place bytes bad
  else (st.drainRange g.core place bytes.length).writeHome place bytes bad (st.accessOf gid g cache)

/-- A write of a lane is performed on its own core: at the bank, in the version lines, or in the L1; under .NOL1 at its home (R144, R320,
R335, R349, R358). -/
def State.writeOwn (st : State) (gid : Nat) (g : Group) (op place : Nat) (bytes : List Byte) (cache : Nat := 0) (image : Bool := false)
    (bad : Bool := false) : State :=
  if isChip place || image || g.versioned || cache == 3 then st.writeAtHome gid g place bytes cache image bad
  else (st.l1Use g.core (lineOf place) cache).onCore g.core fun c => { c with l1 := c.l1 ++
    [{ gid := gid, op := op, team := g.team, place := place, bytes := bytes, bad := bad, cache := cache
       handler := g.flight.any fun o => o.id == op && o.src == .handler }] }

/-- The L1 has room for the lines of the writes that are to be performed there (R190). -/
def State.ownTakes (st : State) (g : Group) (cache : Nat) (ls : List LaneAcc) : Bool :=
  g.versioned || cache == 3 ||
    st.l1Takes g.core (((ls.filter fun a => !isChip a.place && !a.image).map fun a => lineOf a.place).dedup)

/-- Every write of a core's L1 reaches its home (R351). -/
def State.drainAll (st : State) (core : Nat) : State :=
  let c := st.core core
  c.l1.foldl (fun s w => s.landWrite core w) (st.setCore core { c with l1 := [] })

/-- A write that waits in a core's L1 may not reach its home yet: a team has pinned its line on another core. A pin on the core itself does
not hold it, since the write reached that L1 before the line was pinned there, and whatever frees the pin drains it first (R351, R355, R356). -/
def State.drainHeld (st : State) (core : Nat) (w : L1Write) : Bool :=
  !isChip w.place && ((spread w.place w.bytes.length).map lineOf).dedup.any fun l =>
    st.pins.any fun p => p.line == l && p.team != w.team && p.core != core

/-- No write of a core's L1 is held by a pin. -/
def State.canDrain (st : State) (core : Nat) : Bool := (st.core core).l1.all fun w => !st.drainHeld core w

/-- Releases a team's pins (R356). -/
def State.unpin (st : State) (team : Nat) : State := { st with pins := st.pins.filter fun p => p.team != team }

/-- A release at a scope may be performed: every earlier access of the group is, and at cluster scope and wider the core's L1
can drain (R145, R351). -/
def State.mayRelease (st : State) (g : Group) (op scope : Nat) : Bool :=
  (g.before op).all (fun o => o.finished || !o.work.isMemory) && (decide (scope < 2) || st.canDrain g.core)

/-- What a release at a scope brings before it is performed: at cluster scope and wider the L1 drains and the pins go. -/
def State.release (st : State) (g : Group) (scope : Nat) : State :=
  if scope < 2 then st else (st.drainAll g.core).unpin g.team

/-- Lines that a narrow access would pin and that its team has not pinned on its core (R355). -/
def State.newPins (st : State) (g : Group) (ls : List LaneAcc) : List Nat :=
  (((ls.filter fun a => !isChip a.place && !a.image).map fun a => lineOf a.place).dedup).filter fun l =>
    !(st.pins.any fun p => p.core == g.core && p.team == g.team && p.line == l)

/-- Scope at which a narrow acquire or release is performed: cluster scope where it would pin a 65th line of its core (R355). -/
def State.pinScope (st : State) (g : Group) (scope : Nat) (ls : List LaneAcc) : Nat :=
  if scope < 2 ∧ 64 < (st.pins.filter fun p => p.core == g.core).length + (st.newPins g ls).length then 2 else scope

/-- A narrow access may pin the lines of its lanes: no other team's atomic is between its read and its write there (R149, R355). -/
def State.mayPin (st : State) (g : Group) (scope : Nat) (ls : List LaneAcc) : Bool :=
  decide (2 ≤ scope) || (st.newPins g ls).all fun l => !st.halfOn (some g.team) l

/-- Pins the lines of a narrow access. -/
def State.pinLanes (st : State) (g : Group) (scope : Nat) (ls : List LaneAcc) : State :=
  if scope < 2 then { st with pins := st.pins ++ (st.newPins g ls).map fun l => { core := g.core, team := g.team, line := l } } else st

/-- The writes of a lane's result: the register of the lane, and of its shadow (R181). -/
def laneResult (prot : Bool) (a : LaneAcc) (v : Lane) : List CellWrite :=
  (if prot then [a.cell, a.cell + 1] else [a.cell]).map fun c =>
    { cell := c, bits := BitVec.allOnes 64, value := v, poison := if a.bad then 3 else 0 }

/-- A team's idempotent flag goes (R145, R263). -/
def State.notIdempotent (st : State) (team : Nat) : State := st.onTeam team fun t => { t with idempotent := false }

/-- Chooses the i-th lane that has not been performed, where no earlier such lane reaches its bytes: what follows the choice goes through
every lane in order (R146, R354). -/
def pickLane (n : Nat) (ls : List LaneAcc) (i : Nat) : Option LaneAcc :=
  match (ls.filter fun a => !a.done)[i]? with
  | none => none
  | some a => if ((ls.filter fun x => !x.done).take i).any fun x => meets (x.place, n) (a.place, n) then none else some a

/-- Replaces a lane that has been performed. -/
def putLane (a : LaneAcc) (ls : List LaneAcc) : List LaneAcc := ls.map fun x => if x.lane = a.lane then a else x

/-! ### LD and LDA (R142, R143, R145) -/

/-- Value written for a width field (R142). -/
def extendLoad (bytes : Nat) (signed : Bool) (x : Lane) : Lane :=
  if signed then BitVec.ofInt 64 (signedOf (8 * bytes) x.toNat) else x

/-- A load: checks, the counter, the window. -/
def loadOp (i : Instr) (la d b p w : Nat) (acquire : Option Nat) (st : State) : Host.Outcome State Fault Refusal :=
  let n := 2 ^ (w % 4)
  st.issue { accepts := { neg := true, cache := true, offset := true }, guard := some p, regs := [d, b] } (infoWord i) fun e st =>
    let act := e.active p
    let addrs := e.addresses b act
    match e.poisonTrap (e.reads b act) with
    | some t => .trap t none
    | none => match st.checkLanes e.who addrs n n .read with
      | .error t => .trap t none
      | .ok xs =>
        if !e.room .ld || e.acquireHeld then .wait st
        else
          let (s, op) := (st.touchLanes e.who addrs .read).launchOp e.gid .ld e.src (.load n (decide (4 ≤ w)) (xs.map (e.laneAcc d)) acquire (e.hints.cache.getD 0))
          .next (s.openWindow e.gid op e.src la [e.reg d])

/-- LD (R142, R143). -/
def execLd (l : BitVec 4) (d b : BitVec 6) (p w : BitVec 3) (st : State) : Host.Outcome State Fault Refusal :=
  loadOp (.ld l d b p w) l.toNat d.toNat b.toNat p.toNat w.toNat none st

/-- LDA (R142, R145). -/
def execLda (l : BitVec 4) (d b : BitVec 6) (p w s : BitVec 3) (st : State) : Host.Outcome State Fault Refusal :=
  loadOp (.lda l d b p w s) l.toNat d.toNat b.toNat p.toNat w.toNat (some s.toNat) st

/-- The lanes of a load that are still to be performed may be: nothing earlier of the group is in their way, and no other team has pinned
their lines (R146, R348, R356). -/
def State.mayLoad (st : State) (g : Group) (op n : Nat) (ls : List LaneAcc) : Bool :=
  !g.over op && !g.held op (laneSpans n ls) && !(ls.any fun a => !a.done && st.pinnedFrom g.team a.place n)

/-- Scope of an acquire once its pins are counted; a plain load has none of its own. -/
def State.loadScope (st : State) (g : Group) (acquire : Option Nat) (ls : List LaneAcc) : Nat :=
  match acquire with
  | some s => st.pinScope g s ls
  | none => 4

/-- The lanes given read their values. A narrow acquire that would pin a 65th line is read at the home slice (R355). -/
def State.loadLanes (st : State) (gid : Nat) (g : Group) (n : Nat) (acquire : Option Nat) (cache : Nat) (ls : List LaneAcc) :
    State × List LaneAcc :=
  let scope := st.loadScope g acquire ls
  let moved := acquire.isSome && acquire != some scope
  let st := if moved then ls.foldl (fun s a => s.drainRange g.core a.place n) st else st
  let done := ls.map fun a => st.readLane g n a
  let st := ls.foldl (fun s a => s.reachLane gid g cache a) st
  (if acquire.isSome then st.pinLanes g scope ls else st, done)

/-- An acquire may pin what it is to pin. -/
def State.mayAcquire (st : State) (g : Group) (acquire : Option Nat) (ls : List LaneAcc) : Bool :=
  acquire.isNone || st.mayPin g (st.loadScope g acquire ls) ls

/-- LOAD_RETURN (R143, R340): the data of every lane has arrived. A line pinned by another team is retried (R356) (log 26). -/
def execLoadReturn (gid op : Nat) (st : State) : Host.Outcome State Fault Refusal :=
  match st.group? gid, st.work? gid op with
  | some g, some (.load n signed ls acquire cache) =>
    if st.mayLoad g op n ls && st.mayAcquire g acquire (ls.filter fun a => !a.done) then
      let (st, xs) := st.loadLanes gid g n acquire cache (ls.filter fun a => !a.done)
      let ls := xs.foldl (fun l a => putLane a l) ls
      .next ((st.arrive gid op (ls.flatMap fun a => laneResult g.prot a (extendLoad n signed a.value))).onGroup gid fun g => g.finish op)
    else .next st
  | some g, some (.adobeq ws) => .next (if g.over op then st else (st.arrive gid op ws).onGroup gid fun g => g.finish op)
  | _, _ => .next st

/-! ### ST and STR (R144, R145) -/

/-- Version overflow (R166, R182, R335): the writes of the lanes of an instruction do not fit the team's budget or their sets. -/
def Env.overflowTrap (e : Env) (st : State) (addrs places : List (Nat × Nat)) : Option Trap :=
  let lines := (places.filter fun x => !isChip x.1).flatMap fun x => (spread x.1 x.2).map lineOf
  if e.g.versioned && !st.versionFits e.g.team lines then
    some { cause := 0x13, lanes := maskOf (addrs.map fun a => a.1), addr := addrs.foldl (fun m a => NMap.store m 0 a.1 (BitVec.ofNat 64 a.2)) [] }
  else none

/-- Allocates the version lines of writes that have passed the budget (R335) (log 34). -/
def State.reserveVersions (st : State) (g : Group) (places : List (Nat × Nat)) : State :=
  if g.versioned then
    ((places.filter fun x => !isChip x.1).flatMap fun x => ((spread x.1 x.2).map lineOf).dedup).foldl (fun s l => s.versionLine g.team l) st
  else st

/-- Low bytes of a lane value as a mask. -/
def lowMask (n : Nat) : Lane := BitVec.ofNat 64 (2 ^ (8 * n) - 1)

/-- A store: checks and the counter. Its writes are performed later, each lane's in its own time (R144, R354). -/
def storeOp (i : Instr) (s b p n : Nat) (release : Option Nat) (st : State) : Host.Outcome State Fault Refusal :=
  st.issue { accepts := { neg := true, cache := true, offset := true }, guard := some p, regs := [s, b] } (infoWord i) fun e st =>
    let act := e.active p
    let addrs := e.addresses b act
    match firstTrap [e.poisonTrap (e.reads s act (if n = 8 then 3 else 1) ++ e.reads b act),
        e.silentTrap act fun l => e.pairDiffers b (BitVec.allOnes 64) l || e.pairDiffers s (lowMask n) l] with
    | some t => .trap t none
    | none => match st.checkLanes e.who addrs n n .write with
      | .error t => .trap t none
      | .ok xs =>
        match e.overflowTrap st addrs ((xs.map fun x => e.laneAcc 0 x).filter (!·.image) |>.map fun a => (a.place, n)) with
        | some t => .trap t none
        | none =>
          if !e.room .st || e.acquireHeld then .wait st
          else
            let ls := xs.map fun x => { e.laneAcc s x with operand := e.val 0 s x.1 &&& lowMask n }
            let st := (st.touchLanes e.who addrs .write).reserveVersions e.g (ls.filter (!·.image) |>.map fun a => (a.place, n))
            let st := if release.isSome then st.notIdempotent e.g.team else st
            .next (st.launchOp e.gid .st e.src (.store n release (e.hints.cache.getD 0) ls)).1

/-- ST (R144). -/
def execSt (s b : BitVec 6) (p : BitVec 3) (w : BitVec 2) (st : State) : Host.Outcome State Fault Refusal :=
  storeOp (.st s b p w) s.toNat b.toNat p.toNat (2 ^ w.toNat) none st

/-- STR (R144, R145). -/
def execStr (s b : BitVec 6) (p : BitVec 3) (w : BitVec 2) (c : BitVec 3) (st : State) : Host.Outcome State Fault Refusal :=
  storeOp (.str s b p w c) s.toNat b.toNat p.toNat (2 ^ w.toNat) (some c.toNat) st

/-- A lane of a plain store is held by nothing: nothing earlier of the group is in its way, and no other team has pinned its line. -/
def State.mayStore (st : State) (g : Group) (op n : Nat) (a : LaneAcc) : Bool :=
  !g.held op (a.left n) && !st.pinnedFrom g.team a.place n

/-- Bytes that a lane of a store has still to write: the place, and what it writes there. -/
def LaneAcc.writes (a : LaneAcc) (n : Nat) : List (Nat × List Byte) :=
  match a.got with
  | [] => [(a.place, bytesOf a.operand.toNat n)]
  | _ => (a.left n).map fun x => (x.1, ((bytesOf a.operand.toNat n).drop (x.1 - a.place)).take x.2)

/-- Writes of the lanes of a store, in lane order. -/
def State.storeLanes (st : State) (gid : Nat) (g : Group) (op n scope cache : Nat) (ls : List LaneAcc) : State :=
  ls.foldl (fun s a => (a.writes n).foldl (fun s w =>
    if scope < 2 then s.writeOwn gid g op w.1 w.2 cache a.image
    else s.writeAtHome gid g w.1 w.2 cache a.image) s) st

/-- Performs the lanes given of a store, if they can be performed now: the new state and whether they were. A release brings its release
side first (R145, R351). -/
def State.performLanes (st : State) (gid : Nat) (g : Group) (op n : Nat) (release : Option Nat) (cache : Nat) (ls : List LaneAcc) : State × Bool :=
  match release with
  | none => if ls.all (st.mayStore g op n) && st.ownTakes g cache ls then (st.storeLanes gid g op n 0 cache ls, true) else (st, false)
  | some scope =>
    let scope := st.pinScope g scope ls
    if st.mayRelease g op scope && ls.all (fun a => !st.pinnedFrom g.team a.place n) && st.mayPin g scope ls &&
        (decide (2 ≤ scope) || st.ownTakes g cache ls) then
      (((st.release g scope).storeLanes gid g op n scope cache ls).pinLanes g scope ls, true)
    else (st, false)

/-- Drops lines of a DISCARD (R339), unless an earlier access of the group has still to reach them or another team has pinned them. -/
def State.performDiscard (st : State) (g : Group) (op : Nat) (lines : List Nat) : State × Bool :=
  if g.held op (lines.map fun l => (128 * l, 128)) || lines.any (fun l => st.pinnedFrom g.team (128 * l) 128) then (st, false)
  else (lines.foldl State.dropLine st, true)

/-- Performs what is left of a store or a DISCARD, if it can be performed now. -/
def State.performStore (st : State) (gid op : Nat) : State × Bool :=
  match st.group? gid, st.work? gid op with
  | some g, some (.store n release cache ls) => st.performLanes gid g op n release cache (ls.filter fun a => !a.done)
  | some g, some (.discard lines) => st.performDiscard g op lines
  | _, _ => (st, false)

/-- STORE_PERFORMED (R144, R145): the writes are performed at the store's scope; the lines of a DISCARD are dropped (R339). -/
def execStorePerformed (gid op : Nat) (st : State) : Host.Outcome State Fault Refusal :=
  match st.group? gid with
  | none => .next st
  | some g =>
    if g.over op then .next st
    else match st.performStore gid op with
      | (s, true) => .next (s.onGroup gid fun g => g.finish op)
      | (s, false) => .next s

/-! ### Atomics (R147 to R149) -/

/-- New value of memory (R148). -/
def atomNew (op : AtomOp) (w m x swap : Nat) : Nat :=
  let s := signedOf w
  match op with
  | .add => (m + x) % 2 ^ w
  | .minI => if s x < s m then x else m
  | .maxI => if s m < s x then x else m
  | .minN => min m x
  | .maxN => max m x
  | .and => Nat.land m x
  | .or => Nat.lor m x
  | .xor => Nat.xor m x
  | .xchg => x
  | .cas => if m = x then swap else m
  | .fadd => roundVal 10 .rn (Val.add .rn (decodeVal 10 m) (decodeVal 10 x))

/-- ATOM: checks, the counter, the window. -/
def atomOp (i : Instr) (op : AtomOp) (la d b p order n : Nat) (st : State) : Host.Outcome State Fault Refusal :=
  let cas := op == .cas
  let h : BitVec 2 := if n = 8 then 3 else 1
  st.issue { accepts := { neg := true, cache := true, offset := true, scope := true }, guard := some p,
             regs := [d, b] ++ if cas then [d + 1] else [] } (infoWord i) fun e st =>
    let act := e.active p
    let addrs := e.addresses b act
    let reads := e.reads d act h ++ (if cas then e.reads (d + 1) act h else []) ++ e.reads b act
    match firstTrap [e.poisonTrap reads,
        e.silentTrap act fun l => e.pairDiffers b (BitVec.allOnes 64) l || e.pairDiffers d (lowMask n) l ||
          (cas && e.pairDiffers (d + 1) (lowMask n) l)] with
    | some t => .trap t none
    | none => match st.checkLanes e.who addrs n n .rmw with
      | .error t => .trap t none
      | .ok xs =>
        match e.overflowTrap st addrs ((xs.map fun x => e.laneAcc 0 x).filter (!·.image) |>.map fun a => (a.place, n)) with
        | some t => .trap t none
        | none =>
          if !e.room .st || e.acquireHeld then .wait st
          else
            let ls := xs.map fun x => { e.laneAcc d x with
              operand := e.val 0 d x.1 &&& lowMask n, swap := if cas then e.val 0 (d + 1) x.1 &&& lowMask n else 0 }
            let st := ((st.touchLanes e.who addrs .rmw).reserveVersions e.g (ls.filter (!·.image) |>.map fun a => (a.place, n))).notIdempotent e.g.team
            let (st, id) := st.launchOp e.gid .st e.src (.atomic op n order (e.hints.scope.getD 3) (e.hints.cache.getD 0) ls)
            .next (st.openWindow e.gid id e.src la [e.reg d])

/-- Bytes of a size bit (R147). -/
def atomBytes (s : BitVec 1) : Nat := if s = 1 then 8 else 4

/-- ATOM.ADD (R148). -/
def execAtomAdd (l : BitVec 4) (d b : BitVec 6) (p : BitVec 3) (o : BitVec 2) (s : BitVec 1) (st : State) : Host.Outcome State Fault Refusal :=
  atomOp (.atomAdd l d b p o s) .add l.toNat d.toNat b.toNat p.toNat o.toNat (atomBytes s) st
/-- ATOM.MIN, signed (R148). -/
def execAtomMinI (l : BitVec 4) (d b : BitVec 6) (p : BitVec 3) (o : BitVec 2) (s : BitVec 1) (st : State) : Host.Outcome State Fault Refusal :=
  atomOp (.atomMinI l d b p o s) .minI l.toNat d.toNat b.toNat p.toNat o.toNat (atomBytes s) st
/-- ATOM.MAX, signed (R148). -/
def execAtomMaxI (l : BitVec 4) (d b : BitVec 6) (p : BitVec 3) (o : BitVec 2) (s : BitVec 1) (st : State) : Host.Outcome State Fault Refusal :=
  atomOp (.atomMaxI l d b p o s) .maxI l.toNat d.toNat b.toNat p.toNat o.toNat (atomBytes s) st
/-- ATOM.MIN, natural (R148). -/
def execAtomMinN (l : BitVec 4) (d b : BitVec 6) (p : BitVec 3) (o : BitVec 2) (s : BitVec 1) (st : State) : Host.Outcome State Fault Refusal :=
  atomOp (.atomMinN l d b p o s) .minN l.toNat d.toNat b.toNat p.toNat o.toNat (atomBytes s) st
/-- ATOM.MAX, natural (R148). -/
def execAtomMaxN (l : BitVec 4) (d b : BitVec 6) (p : BitVec 3) (o : BitVec 2) (s : BitVec 1) (st : State) : Host.Outcome State Fault Refusal :=
  atomOp (.atomMaxN l d b p o s) .maxN l.toNat d.toNat b.toNat p.toNat o.toNat (atomBytes s) st
/-- ATOM.AND (R148). -/
def execAtomAnd (l : BitVec 4) (d b : BitVec 6) (p : BitVec 3) (o : BitVec 2) (s : BitVec 1) (st : State) : Host.Outcome State Fault Refusal :=
  atomOp (.atomAnd l d b p o s) .and l.toNat d.toNat b.toNat p.toNat o.toNat (atomBytes s) st
/-- ATOM.OR (R148). -/
def execAtomOr (l : BitVec 4) (d b : BitVec 6) (p : BitVec 3) (o : BitVec 2) (s : BitVec 1) (st : State) : Host.Outcome State Fault Refusal :=
  atomOp (.atomOr l d b p o s) .or l.toNat d.toNat b.toNat p.toNat o.toNat (atomBytes s) st
/-- ATOM.XOR (R148). -/
def execAtomXor (l : BitVec 4) (d b : BitVec 6) (p : BitVec 3) (o : BitVec 2) (s : BitVec 1) (st : State) : Host.Outcome State Fault Refusal :=
  atomOp (.atomXor l d b p o s) .xor l.toNat d.toNat b.toNat p.toNat o.toNat (atomBytes s) st
/-- ATOM.XCHG (R148). -/
def execAtomXchg (l : BitVec 4) (d b : BitVec 6) (p : BitVec 3) (o : BitVec 2) (s : BitVec 1) (st : State) : Host.Outcome State Fault Refusal :=
  atomOp (.atomXchg l d b p o s) .xchg l.toNat d.toNat b.toNat p.toNat o.toNat (atomBytes s) st
/-- ATOM.CAS (R147, R148): d is even, and its field is the upper five bits. -/
def execAtomCas (l : BitVec 4) (d : BitVec 5) (b : BitVec 6) (p : BitVec 3) (o : BitVec 2) (s : BitVec 1) (st : State) : Host.Outcome State Fault Refusal :=
  atomOp (.atomCas l d b p o s) .cas l.toNat (2 * d.toNat) b.toNat p.toNat o.toNat (atomBytes s) st
/-- ATOM.FADD, F32 (R148). -/
def execAtomFadd (l : BitVec 4) (d b : BitVec 6) (p : BitVec 3) (o : BitVec 2) (st : State) : Host.Outcome State Fault Refusal :=
  atomOp (.atomFadd l d b p o) .fadd l.toNat d.toNat b.toNat p.toNat o.toNat 4 st

/-- One lane's read-modify-write at a scope: on the core for group and team scope, at the home for wider ones (R149). A lane that has read its
value already only writes, and a plain store made meanwhile is lost. -/
def State.atomLane (st : State) (gid : Nat) (g : Group) (id : Nat) (op : AtomOp) (n scope cache : Nat) (a : LaneAcc) : State × LaneAcc :=
  let st := if scope < 2 && !a.image then st else st.drainRange g.core a.place n
  let old := if a.half then { a with done := true } else st.readLane g n a
  let new := bytesOf (atomNew op (8 * n) old.value.toNat a.operand.toNat a.swap.toNat) n
  let st := if scope < 2 then (st.reachLane gid g cache a).writeOwn gid g id a.place new cache a.image
    else (st.install a.place (st.accessOf gid g cache)).writeAtHome gid g a.place new cache a.image
  (st, old)

/-- The step of each lane given, in lane order (R148). -/
def State.atomLanes (st : State) (gid : Nat) (g : Group) (id : Nat) (op : AtomOp) (n scope cache : Nat) : List LaneAcc → State × List LaneAcc
  | [] => (st, [])
  | a :: rest =>
    let (s, x) := st.atomLane gid g id op n scope cache a
    let (s, xs) := s.atomLanes gid g id op n scope cache rest
    (s, x :: xs)

/-- Scope of an atomic once its pins are counted; a relaxed one pins nothing (R355). -/
def State.atomScope (st : State) (g : Group) (order scope : Nat) (ls : List LaneAcc) : Nat := if order = 0 then scope else st.pinScope g scope ls

/-- The scope of a group's access contains another group, whose number and team are given (R346). -/
def State.scopeHolds (st : State) (gid : Nat) (g : Group) (scope : Nat) (other : Nat × Group) : Bool :=
  if scope = 0 then other.1 == gid else if scope = 1 then other.2.team == g.team
  else if scope = 2 then (st.team other.2.team).gang == (st.team g.team).gang else true

/-- An atomic waits for another one that is between its read and its write: at a scope that contains both agents, or at a bank (R149, R244). -/
def State.atomBarred (st : State) (gid : Nat) (g : Group) (id n scope : Nat) (ls : List LaneAcc) : Bool :=
  st.groups.any fun e => e.2.flight.any fun o => !(e.1 == gid && o.id == id) && (match o.work with
    | .atomic _ m _ _ _ xs => xs.any fun x => x.half && !x.done &&
        ls.any fun a => meets (x.place, m) (a.place, n) && (isChip x.place || st.scopeHolds gid g scope e)
    | _ => false)

/-- Lanes of an atomic may be performed, or begin, at a scope: the release side of a release order can be done, and nothing is in their way. -/
def State.mayAtom (st : State) (gid : Nat) (g : Group) (id n order scope cache : Nat) (ls : List LaneAcc) : Bool :=
  (!(order == 2 || order == 3) || st.mayRelease g id scope) && !g.held id (laneSpans n ls) && !st.atomBarred gid g id n scope ls &&
    ls.all (fun a => !st.pinnedFrom g.team a.place n) && (order == 0 || st.mayPin g scope ls) && (decide (2 ≤ scope) || st.ownTakes g cache ls)

/-- Performs the lanes given of an atomic, if they can be performed now: the new state and the lanes with their old values. -/
def State.performAtom (st : State) (gid : Nat) (g : Group) (id : Nat) (op : AtomOp) (n order scope cache : Nat) (ls : List LaneAcc) :
    Option (State × List LaneAcc) :=
  let rel := order == 2 || order == 3
  let scope := st.atomScope g order scope ls
  if st.mayAtom gid g id n order scope cache ls then
    let st := if rel then st.release g scope else st
    let (st, xs) := st.atomLanes gid g id op n scope cache ls
    some (if order = 0 then st else st.pinLanes g scope ls, xs)
  else none

/-- Performs what is left of an atomic, if it can be performed now. Other agents' accesses may fall between its lanes, since a part of it may
have been performed before (R149; `State.performPart`). -/
def State.performAtomic (st : State) (gid id : Nat) : State :=
  match st.group? gid, st.work? gid id with
  | some g, some (.atomic op n order scope cache ls) =>
    (match st.performAtom gid g id op n order scope cache (ls.filter fun a => !a.done) with
     | some (st, xs) =>
       let ls := xs.foldl (fun l a => putLane a l) ls
       (st.arrive gid id (ls.flatMap fun a => laneResult g.prot a a.value)).onGroup gid fun g => g.finish id
     | none => st)
  | _, _ => st

/-- ATOMIC_PERFORMED (R148). -/
def execAtomicPerformed (gid op : Nat) (st : State) : Host.Outcome State Fault Refusal :=
  match st.group? gid with
  | none => .next st
  | some g => if g.over op then .next st else .next (st.performAtomic gid op)

/-- One byte of a lane as an access of its own, with the byte of a store's operand. -/
def LaneAcc.byteAt (a : LaneAcc) (b : Nat) : LaneAcc :=
  { a with va := a.va + BitVec.ofNat 64 b, place := a.place + b, operand := a.operand >>> (8 * b), got := [] }

/-- A byte of a lane has been performed on its own. -/
def LaneAcc.take (a : LaneAcc) (b : Nat) (v : Byte) (bad : Bool) : LaneAcc := { a with got := NMap.put a.got b (v, bad) }

/-- One byte of a lane of a load or a store is performed, of the i-th lane that is left: nothing orders the bytes of one access (R344, R354).
A store into a poisoned word is performed whole, since only a write of the whole word clears its mark (R321). -/
def State.performByte (st : State) (gid op i b : Nat) : State :=
  match st.group? gid, st.work? gid op with
  | some g, some (.load n s ls acquire cache) =>
    (match pickLane n ls i with
     | some a =>
       if b < n && (NMap.find a.got b).isNone && st.mayLoad g op 1 [a.byteAt b] && st.mayAcquire g acquire [a.byteAt b] then
         let (st, xs) := st.loadLanes gid g 1 acquire cache [a.byteAt b]
         st.onGroup gid fun g => g.onOp op fun _ => .load n s (xs.foldl (fun l x => putLane (a.take b (x.value.setWidth 8) x.bad) l) ls) acquire cache
       else st
     | none => st)
  | some g, some (.store n release cache ls) =>
    (match pickLane n ls i with
     | some a =>
       if b < n && (NMap.find a.got b).isNone && !(st.readLane g n a).bad then
         match st.performLanes gid g op 1 release cache [a.byteAt b] with
         | (st, true) => st.onGroup gid fun g => g.onOp op fun _ => .store n release cache (putLane (a.take b 0 false) ls)
         | (_, false) => st
       else st
     | none => st)
  | _, _ => st

/-- The i-th lane of an atomic that is left reads its value, and writes at a later turn: a plain store between the two is lost, while no atomic
whose scope contains both agents comes between them (R149). -/
def State.performHalf (st : State) (gid op i : Nat) : State :=
  match st.group? gid, st.work? gid op with
  | some g, some (.atomic k n order scope cache ls) =>
    (match pickLane n ls i with
     | some a =>
       let at' := st.atomScope g order scope [a]
       if !a.half && st.mayAtom gid g op n order at' cache [a] then
         let st := if order == 2 || order == 3 then st.release g at' else st
         let st := if at' < 2 && !a.image then st else st.drainRange g.core a.place n
         let old := st.readLane g n a
         ((if at' < 2 then st.reachLane gid g cache a else st.install a.place (st.accessOf gid g cache))).onGroup gid fun g =>
           g.onOp op fun _ => .atomic k n order scope cache (putLane { old with done := false, half := true } ls)
       else st
     | none => st)
  | _, _ => st

/-- One lane of a load, a store or an atomic is performed, or one line of a DISCARD: the i-th of those that are left (R149, R354) (log 26). -/
def State.performLane (st : State) (gid op i : Nat) : State :=
  match st.group? gid, st.work? gid op with
  | some g, some (.load n s ls acquire cache) =>
    (match pickLane n ls i with
     | some a =>
       if st.mayLoad g op n [a] && st.mayAcquire g acquire [a] then
         let (st, xs) := st.loadLanes gid g n acquire cache [a]
         st.onGroup gid fun g => g.onOp op fun _ => .load n s (xs.foldl (fun l a => putLane a l) ls) acquire cache
       else st
     | none => st)
  | some g, some (.store n release cache ls) =>
    (match pickLane n ls i with
     | some a =>
       match st.performLanes gid g op n release cache [a] with
         | (st, true) => st.onGroup gid fun g => g.onOp op fun _ => .store n release cache (putLane { a with done := true } ls)
         | (_, false) => st
     | none => st)
  | some g, some (.atomic k n order scope cache ls) =>
    (match pickLane n ls i with
     | some a =>
       match st.performAtom gid g op k n order scope cache [a] with
         | some (st, xs) => st.onGroup gid fun g => g.onOp op fun _ => .atomic k n order scope cache (xs.foldl (fun l a => putLane a l) ls)
         | none => st
     | none => st)
  | some g, some (.discard lines) =>
    (match lines[i]? with
     | some l => match st.performDiscard g op [l] with
       | (st, true) => st.onGroup gid fun g => g.onOp op fun _ => .discard (lines.filter (· != l))
       | (_, false) => st
     | none => st)
  | _, _ => st

/-- One part of a load, a store, an atomic or a DISCARD is performed: below 32 the lane, or the line, that stands there among those left; below 64
the read of an atomic's lane; above, a byte of a lane. -/
def State.performPart (st : State) (gid op i : Nat) : State :=
  let lines : Bool := match st.work? gid op with
    | some (.discard _) => true
    | _ => false
  if i < 32 || lines then st.performLane gid op i
  else if i < 64 then st.performHalf gid op (i - 32)
  else st.performByte gid op ((i - 64) / 8) ((i - 64) % 8)

/-- PINNED_RETRY (R356): an access held at a pinned line is tried again. -/
def execPinnedRetry (gid op : Nat) (st : State) : Host.Outcome State Fault Refusal :=
  match st.work? gid op with
  | some (.load ..) => execLoadReturn gid op st
  | some (.store ..) => execStorePerformed gid op st
  | some (.atomic ..) => execAtomicPerformed gid op st
  | _ => .next st

/-! ### FENCE and WAIT (R150, R151) -/

/-- Every access of the group issued so far is performed at a scope (R150, R351). -/
def State.allPerformed (st : State) (g : Group) (scope : Nat) : Bool :=
  g.flight.all (fun o => o.finished || !o.work.isAccess) && (decide (scope < 2) || st.canDrain g.core)

/-- FENCE.s (R150). -/
def execFence (s : BitVec 3) (st : State) : Host.Outcome State Fault Refusal :=
  st.issue { closes := .own } (infoWord (.fence s)) fun e st =>
    if st.allPerformed e.g s.toNat then
      let st := st.release e.g s.toNat
      .next (if 2 ≤ s.toNat then st.notIdempotent e.g.team else st)
    else .wait st

/-- Path of a number (R151). -/
def pathOf : Nat → Path
  | 0 => .ld
  | 1 => .st
  | 2 => .cpy
  | 3 => .mma
  | 4 => .qs
  | _ => .sfu

/-- WAIT.path vT (R151). -/
def execWait (t : BitVec 6) (h : BitVec 3) (st : State) : Host.Outcome State Fault Refusal :=
  st.issue { closes := .own, regs := [t.toNat] } (infoWord (.wait t h)) fun e st =>
    match e.poisonTrap (e.readLowest t.toNat) with
    | some x => .trap x none
    | none => if e.g.counter (pathOf h.toNat) ≤ (e.scalar t.toNat).toNat then .next st else .wait (st.memWait e (h.toNat == 0 || h.toNat == 1 || h.toNat == 2 || h.toNat == 4))

end Sys2Proof.Machine
end

