-- ==== Sys2Proof/Machine/Shape.lean ====
section
/-! DEFINITION. Shape registers (R50, R51), the elements that a shape names (R154, R250), and HRD and HWR (R159). -/

namespace Sys2Proof.Machine

/-- Bits hi to lo of a number. -/
def bitsOf (n hi lo : Nat) : Nat := n / 2 ^ lo % 2 ^ (hi + 1 - lo)

/-- First bit, width and signedness of the field that a selector names (R50, R51). -/
def shapeField (sel : Nat) : Nat × Nat × Bool :=
  if sel = 0 then (448, 64, false)
  else if sel ≤ 5 then (288 + 32 * (sel - 1), 32, false)
  else if sel ≤ 10 then (88 + 40 * (sel - 6), 40, true)
  else if sel = 11 then (56, 32, false)
  else (21, 11, false)

/-- A field of a shape as HRD and YOP.HRD give it (R155, R159). -/
def readShape (sh : BitVec 512) (sel : Nat) : Lane :=
  let (lo, w, signed) := shapeField sel
  let v := sh.toNat / 2 ^ lo % 2 ^ w
  if signed then BitVec.ofInt 64 (signedOf w v)
  else if sel = 12 then BitVec.ofNat 64 (v * 2 ^ 21)
  else BitVec.ofNat 64 v

/-- A shape with a field written (R51). -/
def writeShape (sh : BitVec 512) (sel : Nat) (x : Lane) : BitVec 512 :=
  let (lo, w, _) := shapeField sel
  let v := if sel = 12 then x.toNat / 2 ^ 21 % 2 ^ 11 else x.toNat % 2 ^ w
  (sh &&& ~~~BitVec.ofNat 512 ((2 ^ w - 1) * 2 ^ lo)) ||| BitVec.ofNat 512 (v * 2 ^ lo)

/-- BASE. -/
def shBase (sh : BitVec 512) : Nat := bitsOf sh.toNat 511 448
/-- Extent of dimension j. -/
def shExt (sh : BitVec 512) (j : Nat) : Nat := sh.toNat / 2 ^ (288 + 32 * j) % 2 ^ 32
/-- Stride of dimension j. -/
def shStr (sh : BitVec 512) (j : Nat) : Int := signedOf 40 (sh.toNat / 2 ^ (88 + 40 * j))
/-- PADV. -/
def shPadv (sh : BitVec 512) : Nat := bitsOf sh.toNat 87 56
/-- ELEM. -/
def shElem (sh : BitVec 512) : Nat := bitsOf sh.toNat 31 27
/-- RANK. -/
def shRank (sh : BitVec 512) : Nat := bitsOf sh.toNat 26 24
/-- PAD. -/
def shPad (sh : BitVec 512) : Nat := bitsOf sh.toNat 23 21

/-- A shape that raises a shape fault where it is used (R50). -/
def shInvalid (sh : BitVec 512) : Bool :=
  decide (25 ≤ shElem sh) || shRank sh == 0 || decide (5 < shRank sh) || decide (4 < shPad sh) || !canonical (shBase sh) ||
    (shPad sh == 3 && (List.range (shRank sh)).any fun j => shExt sh j == 0)

/-- A sand-block shape (R29). -/
def shSand (sh : BitVec 512) : Bool := decide (18 ≤ shElem sh)

/-- Bytes of an element: of a sand block, its record's payload is the caller's concern. -/
def shBytes (sh : BitVec 512) : Nat := if shElem sh < 16 then widthOf (shElem sh) / 8 else 1

/-- Where one element is. -/
inductive Element where
  /-- in bounds: its address -/
  | inside (va : Nat)
  /-- out of bounds and read as a pattern -/
  | pattern (v : Nat) (va : Nat)
  /-- out of bounds and skipped -/
  | skip (va : Nat)
  /-- out of bounds under PAD 0: the address formed -/
  | fault (va : Nat)
  deriving DecidableEq, Repr

/-- Address of indices (R50). -/
def shAddress (sh : BitVec 512) (ix : List Nat) : Nat :=
  lowBits 64 ((ix.zipIdx 0).foldl (fun (a : Int) e => a + (e.1 : Int) * shStr sh e.2) (shBase sh))

/-- The element of indices, given in dimension order, for a read or a write; an index that does not exist is out of bounds (R50, R154). -/
def shElement (sh : BitVec 512) (write : Bool) (ix : List (Option Nat)) : Element :=
  let nats := ix.map fun i => i.getD 0
  let va := shAddress sh nats
  let out := (ix.zipIdx 0).any fun e => match e.1 with
    | some i => decide (shExt sh e.2 ≤ i)
    | none => true
  if !out then .inside va
  else match shPad sh with
    | 0 => .fault va
    | 1 => .pattern 0 va
    | 2 => .pattern (shPadv sh) va
    | 3 => if write then .skip va else .inside (shAddress sh ((nats.zipIdx 0).map fun e => min e.1 (shExt sh e.2 - 1)))
    | _ => .skip va

/-- Indices of linear position i: the top index takes the rest, and a dimension of extent 0 below it has none (R154). -/
def linearIndex (sh : BitVec 512) : Nat → Nat → Nat → List (Option Nat)
  | 0, _, _ => []
  | 1, _, i => [some i]
  | n + 1, j, i =>
    let x := shExt sh j
    if x = 0 then none :: linearIndex sh n (j + 1) i else some (i % x) :: linearIndex sh n (j + 1) (i / x)

/-- A shape register. -/
def Group.shape (g : Group) (k : Nat) : BitVec 512 := NMap.get g.shapes 0 k

/-- HRD (R159). -/
def execHrd (d : BitVec 6) (k : BitVec 4) (p : BitVec 3) (s : BitVec 4) (st : State) : Host.Outcome State Fault Refusal :=
  st.compute (.hrd d k p s) { accepts := { neg := true }, guard := some p.toNat, regs := [d.toNat] } (fun _ => []) fun e =>
    let sh := e.g.shape k.toNat
    if s = 13 then
      e.cells.filterMap fun (c, l) =>
        if l < 8 ∧ (e.guard p.toNat c l).getLsbD 0 then
          some { cell := e.cellOf c d.toNat l, bits := BitVec.allOnes 64, value := BitVec.ofNat 64 (sh.toNat / 2 ^ (64 * l)) }
        else none
    else e.laneWrites d.toNat (some p.toNat) fun _ _ => readShape sh s.toNat

/-- Halves of the source that a selector's field takes. -/
def shapeHalves (sel : Nat) : BitVec 2 := if sel = 0 ∨ (6 ≤ sel ∧ sel ≤ 10) ∨ sel = 13 then 3 else 1

/-- A shape without its reserved bits, which ignore writes and read 0 (R8, R50). -/
def shapeDefined (sh : BitVec 512) : BitVec 512 := sh &&& ~~~BitVec.ofNat 512 ((2 ^ 24 - 1) * 2 ^ 32 + (2 ^ 21 - 1))

/-- HWR (R159, R160). -/
def execHwr (d : BitVec 6) (k : BitVec 4) (p : BitVec 3) (s : BitVec 4) (st : State) : Host.Outcome State Fault Refusal :=
  st.issue { accepts := { neg := true }, guard := some p.toNat, regs := [d.toNat] } (infoWord (.hwr d k p s)) fun e st =>
    let act := e.active p.toNat
    let src := if s = 13 then act.filter (fun l => decide (l < 8)) else act.take 1
    match e.poisonTrap (src.flatMap fun l => [{ reg := d.toNat, lane := l, phys := e.phys 0 l, halves := shapeHalves s.toNat }]) with
    | some t => .trap t none
    | none =>
      let sh := e.g.shape k.toNat
      let new := src.foldl (fun sh l =>
        let v := e.val 0 d.toNat l
        if s = 13 then (sh &&& ~~~BitVec.ofNat 512 ((2 ^ 64 - 1) * 2 ^ (64 * l))) ||| BitVec.ofNat 512 (v.toNat * 2 ^ (64 * l))
        else writeShape sh s.toNat v) sh
      .next (if src.isEmpty then st else st.onGroup e.gid fun g =>
        { g with
          shapes := NMap.store g.shapes 0 k.toNat (shapeDefined new)
          shapeAfter := NMap.put g.shapeAfter k.toNat ((g.flight.filter fun o => o.work.isMemory && o.src != .access).map fun o => o.id) })

end Sys2Proof.Machine
end

