-- ==== Sys2Proof/Machine/Desc.lean ====
section
/-! DEFINITION. Context and queue descriptors in memory (R274 to R276). -/

namespace Sys2Proof.Machine

/-- Bits of a context's descriptor (R274). -/
def State.contextBits (st : State) (c : Nat) : Nat := st.homeNum (st.host.ctxTable + 64 * c) 64
/-- A context is VALID. -/
def State.contextValid (st : State) (c : Nat) : Bool := bitsOf (st.contextBits c) 63 63 == 1
/-- Top-level page table of a context. -/
def State.contextRoot (st : State) (c : Nat) : Nat := bitsOf (st.contextBits c) 108 64 * 4096
/-- First-touch pool descriptor of a context. -/
def State.contextPool (st : State) (c : Nat) : Nat := bitsOf (st.contextBits c) 178 128 * 64
/-- Sign-extended virtual address from its bits [56:0] (R140). -/
def widenVa (n : Nat) : Nat := if n % 2 ^ 57 < 2 ^ 56 then n % 2 ^ 57 else n % 2 ^ 57 + (2 ^ 64 - 2 ^ 57)
/-- Handler address of a context. -/
def State.contextHandler (st : State) (c : Nat) : Lane := BitVec.ofNat 64 (widenVa (bitsOf (st.contextBits c) 54 0 * 4))

/-- A context's descriptor is pinned (R356). -/
def State.contextHeld (st : State) (c : Nat) : Bool := st.pinnedAgainst none (lineOf (st.host.ctxTable + 64 * c))

/-- Address of a queue's descriptor (R275). -/
def State.queueAt (st : State) (q : Nat) : Nat := st.host.queueTable + 64 * q
/-- Bits of a queue's descriptor. -/
def State.queueBits (st : State) (q : Nat) : Nat := st.homeNum (st.queueAt q) 64
/-- CTX. -/
def State.queueCtx (st : State) (q : Nat) : Nat := bitsOf (st.queueBits q) 167 160
/-- HOMEDIE. -/
def State.queueDie (st : State) (q : Nat) : Nat := bitsOf (st.queueBits q) 159 158
/-- RLOG2. -/
def State.queueLog (st : State) (q : Nat) : Nat := bitsOf (st.queueBits q) 6 3
/-- TAIL. -/
def State.queueTail (st : State) (q : Nat) : Nat := bitsOf (st.queueBits q) 127 96
/-- HEAD. -/
def State.queueHead (st : State) (q : Nat) : Nat := bitsOf (st.queueBits q) 95 64
/-- PENDING. -/
def State.queuePending (st : State) (q : Nat) : Bool := bitsOf (st.queueBits q) 128 128 == 1
/-- Virtual address of record i of a queue's ring. -/
def State.recordVa (st : State) (q i : Nat) : Nat := widenVa (bitsOf (st.queueBits q) 56 7 * 128) + 128 * (i % 2 ^ st.queueLog q)

/-- Writes TAIL. -/
def State.setTail (st : State) (q n : Nat) : State := st.writeHome (st.queueAt q + 12) (bytesOf n 4) false
/-- Writes HEAD. -/
def State.setHead (st : State) (q n : Nat) : State := st.writeHome (st.queueAt q + 8) (bytesOf n 4) false
/-- Writes MAPPED. -/
def State.setMapped (st : State) (q : Nat) (on : Bool) : State :=
  let b := st.homeNum (st.queueAt q + 19) 1
  st.writeHome (st.queueAt q + 19) (bytesOf (b % 8 + b / 16 * 16 + (if on then 8 else 0)) 1) false
/-- Clears PENDING with an ATOM.AND (R277). -/
def State.clearPending (st : State) (q : Nat) : State :=
  let b := st.homeNum (st.queueAt q + 16) 1
  st.writeHome (st.queueAt q + 16) (bytesOf (b / 2 * 2) 1) false

/-- The die whose Almanac serves a queue: its HOMEDIE, or the next online die in ascending order (R337). -/
def State.servingDie (st : State) (d : Nat) : Nat :=
  (((List.range 4).map fun i => (d + i) % 4).find? fun d => !(st.die d).offline).getD d

/-- Sets PENDING by a release ATOM.OR; a mapped queue's Almanac sees it (R276). -/
def State.setPending (st : State) (q : Nat) : State :=
  let b := st.homeNum (st.queueAt q + 16) 1
  let s := st.writeHome (st.queueAt q + 16) (bytesOf (b / 2 * 2 + 1) 1) false
  s.onDie (s.servingDie (s.queueDie q)) fun d => { d with slots := d.slots.map fun x =>
    if x.queue = q ∧ x.seen.isNone then { x with seen := some s.clock } else x }

/-- Who a context's own accesses are made by, on a core. -/
def State.ctxWho (st : State) (core ctx : Nat) : Who :=
  { core := core, ctx := ctx, root := st.contextRoot ctx, pool := st.contextPool ctx, team := 0, handler := true, pbase := 2 ^ 64 }

/-- Place of an address of a context, by a walk of its table with the permission asked for. -/
def State.ctxPlace (st : State) (ctx va : Nat) (k : AccKind) : Option Nat :=
  match st.walk (st.contextRoot ctx) va with
  | .leaf _ level p =>
    let e := tlbOf ctx va level p
    if canonical va && e.permits k true then some (e.physical va) else none
  | _ => none

/-- Sets A and D of the leaf of an address that the dispatcher reaches (R326). -/
def State.ctxTouch (st : State) (ctx va : Nat) (write : Bool) : State :=
  match st.walk (st.contextRoot ctx) va with
  | .leaf addr _ _ => st.pteOr addr (if write then 0x180 else 0x80)
  | _ => st

/-- An access of an agent outside every team, at an address of a context, meets a pinned line, in its walk or at its place: it is answered
with a retry (R356). -/
def State.ctxHeld (st : State) (ctx va : Nat) (n : Nat := 1) : Bool :=
  st.contextHeld ctx || st.walkHeld (st.contextRoot ctx) va || (match st.ctxPlace ctx va .read with
    | some p => [lineOf p, lineOf (p + n - 1)].any (st.pinnedAgainst none)
    | none => false)

/-- A queue's descriptor is pinned to a team other than the given one (R356). -/
def State.queueHeld (st : State) (team : Option Nat) (q : Nat) : Bool := st.pinnedAgainst team (lineOf (st.queueAt q))

end Sys2Proof.Machine
end

