-- ==== Sys2Proof/Machine/Queue.lean ====
section
/-! DEFINITION. Operand queues (R49), POP and PUSH (R157), and the access stream (R152 to R156, R158): QLD, QST, YOP, YBR,
ADONE and the events that finish its requests. -/

namespace Sys2Proof.Machine

/-- A queue. -/
def Group.queue (g : Group) (n : Nat) : Queue := NMap.get g.queues {} n
/-- Changes a queue. -/
def Group.onQueue (g : Group) (n : Nat) (f : Queue → Queue) : Group := { g with queues := NMap.put g.queues n (f (g.queue n)) }
/-- A queue is a store queue (R49). -/
def Group.isStore (g : Group) (n : Nat) : Bool := g.qdir.getLsbD n
/-- An entry. -/
def Queue.entry (q : Queue) (i : Nat) : QEntry := NMap.get q.entries {} i
/-- Changes an entry. -/
def Queue.onEntry (q : Queue) (i : Nat) (f : QEntry → QEntry) : Queue := { q with entries := NMap.put q.entries i (f (q.entry i)) }
/-- The next FREE entry, in ring order. -/
def Queue.nextFree (q : Queue) : Option Nat := ((List.range 8).map fun j => (q.next + j) % 8).find? fun i => (q.entry i).life == .free
/-- Takes an entry. -/
def Queue.take (q : Queue) (i : Nat) (f : QEntry → QEntry) : Queue := { q.onEntry i f with order := q.order ++ [i], next := (i + 1) % 8 }
/-- Frees an entry; its bits stay (R154). -/
def Queue.release (q : Queue) (i : Nat) : Queue :=
  { q.onEntry i fun x => { x with life := .free, bound := false } with order := q.order.filter (· != i) }

/-- The queue-direction or shape fault over lanes, with the number in cr.tinfo (R166, R171). -/
def numberTrap (cause : Nat) (lanes : Mask) (n : Nat) : Trap :=
  { cause := cause, lanes := lanes, info := inLanes (lanesOf lanes) (BitVec.ofNat 64 n) }

/-- POP (R157). -/
def execPop (d : BitVec 6) (n : BitVec 2) (p : BitVec 3) (st : State) : Host.Outcome State Fault Refusal :=
  st.issue { runs := .program, accepts := { neg := true }, guard := some p.toNat, regs := [d.toNat] } (infoWord (.pop d n p)) fun e st =>
    if e.g.isStore n.toNat then .trap (numberTrap 0x0B (maskOf (e.active p.toNat)) n.toNat) none
    else
      let q := e.g.queue n.toNat
      match q.order with
      | [] => .wait (st.memWait e)
      | i :: _ =>
        let x := q.entry i
        if x.life ≠ .full then .wait (st.memWait e)
        else
          let ws := e.cells.filterMap fun (k, l) =>
            if (e.guard p.toNat k l).getLsbD 0 then
              some { cell := e.cellOf k d.toNat l, bits := BitVec.allOnes 64, value := NMap.get x.data 0 l, poison := NMap.get x.poison 0 l }
            else none
          .next ((st.writeCells e.g.core ws).onGroup e.gid fun g => g.onQueue n.toNat fun q => q.release i)

/-- PUSH (R157). -/
def execPush (s : BitVec 6) (n : BitVec 2) (p : BitVec 3) (st : State) : Host.Outcome State Fault Refusal :=
  st.issue { runs := .program, accepts := { neg := true }, guard := some p.toNat, regs := [s.toNat] } (infoWord (.push s n p)) fun e st =>
    let halves (k l : Nat) : BitVec 2 := halvesOf (byteBits (e.guard p.toNat k l))
    let reads := e.cells.filterMap fun (k, l) =>
      if halves k l = 0 then none else some { reg := s.toNat, lane := l, phys := e.phys k l, halves := halves k l }
    match firstTrap [e.poisonTrap reads,
        e.silentTrap e.lanes fun l => e.guard p.toNat 0 l != e.guard p.toNat 1 l ||
          e.pairDiffers s.toNat (byteBits (e.guard p.toNat 0 l)) l,
        if e.g.isStore n.toNat then none else some (numberTrap 0x0B (maskOf (e.active p.toNat)) n.toNat)] with
    | some t => .trap t none
    | none =>
      match (e.g.queue n.toNat).nextFree with
      | none => .wait (st.memWait e)
      | some i =>
        let fill (x : QEntry) : QEntry :=
          { x with
            life := .full
            bound := false
            data := e.lanes.foldl (fun m l => let b := byteBits (e.guard p.toNat 0 l)
              NMap.store m 0 l ((NMap.get m 0 l &&& ~~~b) ||| (e.val 0 s.toNat l &&& b))) x.data
            mask := e.lanes.foldl (fun m l => NMap.store m 0 l (e.guard p.toNat 0 l)) []
            poison := [] }
        .next (st.onGroup e.gid fun g => g.onQueue n.toNat fun q => q.take i fill)

/-! ### QLD and QST (R154) -/

/-- Elements of a group-vector, for a read or a write: lane, sub-element, element (R154). -/
def Env.elements (e : Env) (sh : BitVec 512) (write : Bool) (start : Nat) : List (Nat × Nat × Element) :=
  let k := 8 / shBytes sh
  (List.range e.width).flatMap fun l => (List.range k).map fun s =>
    (l, s, shElement sh write (linearIndex sh (shRank sh) 0 ((start + k * l + s) % 2 ^ 64)))

/-- Bounds faults of elements under PAD 0. -/
def boundsTrap (els : List (Nat × Nat × Element)) : Option Trap :=
  let bad := els.filterMap fun x => match x.2.2 with
    | .fault va => some (x.1, va)
    | _ => none
  if bad.isEmpty then none
  else some { cause := 0x0D, lanes := maskOf (bad.map fun x => x.1), addr := bad.reverse.foldl (fun m x => NMap.store m 0 x.1 (BitVec.ofNat 64 x.2)) [] }

/-- Elements in bounds: lane, sub-element, address. -/
def insideOf (els : List (Nat × Nat × Element)) : List (Nat × Nat × Nat) :=
  els.filterMap fun x => match x.2.2 with
    | .inside va => some (x.1, x.2.1, va)
    | _ => none

/-- Checks of R140 over elements, reported by lane; a lane's address is that of its first failing element. -/
def State.checkElements (st : State) (who : Who) (els : List (Nat × Nat × Nat)) (n : Nat) (k : AccKind) :
    Except Trap (List (Nat × Nat × Nat)) :=
  match st.checkLanes who ((els.reverse).map fun x => (x.1, x.2.2)) n n k with
  | .error t => .error t
  | .ok ps => .ok ((els.zip ps.reverse).map fun x => (x.1.1, x.1.2.1, x.2.2.2))

/-- The accesses that the last HWR of a shape register was issued after have not all been performed (R359). -/
def Group.shapeHeld (g : Group) (k : Nat) : Bool :=
  g.flight.any fun o => !o.finished && (NMap.get g.shapeAfter [] k).contains o.id

/-- Places of a QST that has passed its checks, where it has still to write. -/
def Work.qstSpans : Work → List (Nat × Nat)
  | .qst _ _ _ _ n (some els) => els.map fun x => (x.2.2, n)
  | _ => []

/-- Places of a QLD, where it has still to read. -/
def Work.qldSpans : Work → List (Nat × Nat)
  | .qld _ _ n els => els.map fun x => (x.2.2, n)
  | _ => []

/-- Distinct lines of ranges that an element of R140 never crosses. -/
def linesOf (spans : List (Nat × Nat)) : List Nat := (spans.map fun x => lineOf x.1).dedup

/-- Line requests of a core's stream engine that are outstanding (R195). -/
def State.lineRequests (st : State) (core : Nat) : Nat :=
  ((st.groups.filter fun e => e.2.core == core).map fun e =>
    ((e.2.flight.filter fun o => !o.finished).map fun o => (linesOf (o.work.qldSpans ++ o.work.qstSpans)).length).sum).sum

/-- The stream engine may send the line requests of an instruction: at most 128 are outstanding at once. One that alone has more sends the
rest as its own come back (R195; log 61). -/
def State.mayRequest (st : State) (core : Nat) (places : List (Nat × Nat)) : Bool :=
  decide (st.lineRequests core + min 128 (linesOf places).length ≤ 128)

/-- The stream engine sends an instruction's line requests, one in each cycle to come (R195, R196). -/
def State.sendLines (st : State) (core : Nat) (places : List (Nat × Nat)) : State :=
  st.onCore core fun c => { c with toSend := c.toSend + (linesOf places).length }

/-- QLD (R154). -/
def execQld (i : BitVec 4) (n : BitVec 2) (k : BitVec 4) (st : State) : Host.Outcome State Fault Refusal :=
  st.issue { runs := .stream, accepts := { any := false } } (infoWord (.qld i n k)) fun e st =>
    let live := e.g.liveLanes
    let sh := e.g.shape k.toNat
    let els := e.elements sh false (NMap.get e.g.y 0 i.toNat).toNat
    match firstTrap [if e.g.isStore n.toNat then some (numberTrap 0x0B live n.toNat) else none,
        if shInvalid sh || shSand sh then some (numberTrap 0x0C live k.toNat) else none, boundsTrap els] with
    | some t => .trap t none
    | none => match st.checkElements e.who (insideOf els) (shBytes sh) .read with
      | .error t => .trap t none
      | .ok xs => match (e.g.queue n.toNat).nextFree with
        | none => .wait st
        | some x =>
          let places := xs.map fun x => (x.2.2, shBytes sh)
          if !e.room .qs || e.g.shapeHeld k.toNat || !st.mayRequest e.g.core places then .wait st
          else
            let st := (st.sendLines e.g.core places).touchLanes e.who ((insideOf els).map fun x => (x.1, x.2.2)) .read
            let (st, _) := st.launchOp e.gid .qs .access (.qld n.toNat x (shBytes sh) xs)
            let w := 8 * shBytes sh
            let reserve (q : QEntry) : QEntry :=
              { q with
                life := .reserved, mask := [], bound := false
                data := els.foldl (fun m x => match x.2.2 with
                  | .pattern v _ => NMap.store m 0 x.1 ((NMap.get m 0 x.1 &&& ~~~subBits w x.2.1) ||| subAt w x.2.1 v)
                  | _ => m) q.data
                poison := els.foldl (fun m x => match x.2.2 with
                  | .skip _ => m
                  | _ => NMap.store m 0 x.1 (NMap.get m 0 x.1 &&& ~~~halfOf w x.2.1)) q.poison }
            .next (st.onGroup e.gid fun g => g.onQueue n.toNat fun q => q.take x reserve)

/-- A request of an access stream has to wait: an earlier one of the stream has still to reach some of its bytes (R348), or another team has
pinned their line (R356). -/
def State.streamHeld (st : State) (g : Group) (op : Nat) (spans : List (Nat × Nat)) : Bool :=
  g.over op || ((g.before op).any fun o => !o.finished && (o.work.qldSpans ++ o.work.qstSpans).any fun a => spans.any (meets a)) ||
    spans.any fun x => st.pinnedFrom g.team x.1 x.2

/-- Elements of a QLD are read into its entry. -/
def State.fillElements (st : State) (gid : Nat) (g : Group) (bytes : Nat) (els : List (Nat × Nat × Nat)) (x : QEntry) : State × QEntry :=
  let w := 8 * bytes
  (els.foldl (fun s x => s.readIn gid g x.2.2 0) st, els.foldl (fun (x : QEntry) el =>
    let v := numOf (st.view g.core g.team el.2.2 bytes)
    let bad := st.viewAnyBad g.core g.team el.2.2 bytes
    { x with
      data := NMap.store x.data 0 el.1 ((NMap.get x.data 0 el.1 &&& ~~~subBits w el.2.1) ||| subAt w el.2.1 v)
      poison := if bad then NMap.store x.poison 0 el.1 (NMap.get x.poison 0 el.1 ||| halfOf w el.2.1) else x.poison }) x)

/-- QUEUE_ENTRY_FILL (R49, R154): the reply of a QLD has arrived; the entry of a stream that has been halted is discarded (R58). -/
def execQueueEntryFill (gid op : Nat) (st : State) : Host.Outcome State Fault Refusal :=
  match st.group? gid, st.work? gid op with
  | some g, some (.qld n i bytes els) =>
    if st.streamHeld g op (els.map fun x => (x.2.2, bytes)) then .next st
    else
      let (st, x) := st.fillElements gid g bytes els ((g.queue n).entry i)
      .next (st.onGroup gid fun g => (g.onQueue n fun q => q.onEntry i fun _ =>
        { x with life := if g.life = .draining then .free else .full }).finish op)
  | _, _ => .next st

/-- The QST of the access stream that waits for its entry. -/
def Group.waitingQst (g : Group) : Option Op := g.flight.find? fun o => match o.work with
  | .qst _ _ _ _ _ none => true
  | _ => false

/-- Elements of a store entry under its mask: lane, sub-element, element. -/
def maskedOf (x : QEntry) (bytes : Nat) (els : List (Nat × Nat × Element)) : List (Nat × Nat × Element) :=
  els.filter fun el => (NMap.get x.mask 0 el.1).toNat / 2 ^ (bytes * el.2.1) % 2 ^ bytes != 0

/-- The second half of a QST: its entry is FULL or it waits; the checks, then the stream goes on (R154). While the group is stopped a fault
waits: the instruction meets it again afterwards (R183). -/
def qstGoOn (e : Env) (st : State) (n : Nat) (op : Op) (sh : BitVec 512) (index : Lane) : Verdict :=
  let q := e.g.queue n
  match q.order.find? fun i => !(q.entry i).bound with
  | none => .wait st
  | some i =>
    let x := q.entry i
    let els := maskedOf x (shBytes sh) (e.elements sh true index.toNat)
    let undo (t : Trap) : Verdict := if t.cause = 0 ∨ e.g.life ≠ .live then .wait st else .trap t none
    match boundsTrap els with
    | some t => undo t
    | none => match st.checkElements e.who (insideOf els) (shBytes sh) .write with
      | .error t => undo t
      | .ok xs => match e.overflowTrap st ((insideOf els).reverse.map fun x => (x.1, x.2.2)) (xs.map fun x => (x.2.2, shBytes sh)) with
        | some t => undo { t with lanes := e.g.liveLanes }
        | none =>
          let places := xs.map fun x => (x.2.2, shBytes sh)
          if !st.mayRequest e.g.core places then .wait st
          else
          let st := (st.touchLanes e.who ((insideOf els).map fun x => (x.1, x.2.2)) .write).reserveVersions e.g places
          .next ((st.sendLines e.g.core places).onGroup e.gid fun g => (g.onQueue n fun q => q.onEntry i fun x => { x with bound := true }).onOp op.id fun _ =>
            .qst n i sh index (shBytes sh) (some xs))

/-- QST (R154): bound at issue, checked once its entry is FULL. A fault takes the operation back before it stops the group. -/
def execQst (i : BitVec 4) (n : BitVec 2) (k : BitVec 4) (st : State) : Host.Outcome State Fault Refusal :=
  st.issue { runs := .stream, accepts := { any := false } } (infoWord (.qst i n k)) fun e st =>
    let live := e.g.liveLanes
    let forget (v : Verdict) (op : Nat) : Verdict := match v with
      | .trap t _ => .jump (e.raise t (st.onGroup e.gid fun g => { g with flight := g.flight.filter fun o => o.id != op }))
      | v => v
    match e.g.waitingQst with
    | some op => match op.work with
      | .qst q _ sh index _ _ => forget (qstGoOn e st q op sh index) op.id
      | _ => .wait st
    | none =>
      let sh := e.g.shape k.toNat
      let index := NMap.get e.g.y 0 i.toNat
      match firstTrap [if e.g.isStore n.toNat then none else some (numberTrap 0x0B live n.toNat),
          if shInvalid sh || shSand sh then some (numberTrap 0x0C live k.toNat) else none] with
      | some t => .trap t none
      | none =>
        if !e.room .qs || e.g.shapeHeld k.toNat then .wait st
        else
          let w : Work := .qst n.toNat 8 sh index (shBytes sh) none
          let (st, id) := st.launchOp e.gid .qs .access w
          forget (qstGoOn e st n.toNat { id := id, path := .qs, src := .access, work := w } sh index) id

/-- Elements of a QST are written at their homes, under the byte mask of its entry. -/
def State.writeElements (st : State) (gid : Nat) (g : Group) (bytes : Nat) (els : List (Nat × Nat × Nat)) (x : QEntry) : State :=
  els.foldl (fun s el =>
    let v := bytesOf (subOf (8 * bytes) el.2.1 (NMap.get x.data 0 el.1)) bytes
    let mask := (NMap.get x.mask 0 el.1).toNat / 2 ^ (bytes * el.2.1)
    if mask % 2 ^ bytes = 2 ^ bytes - 1 then s.writeAtHome gid g el.2.2 v
    else (v.zipIdx 0).foldl (fun s b => if mask.testBit b.2 then s.writeAtHome gid g (el.2.2 + b.2) [b.1] else s) s) st

/-- QST_WRITE_PERFORMED (R154): the writes are performed at device scope, after the stream's earlier reads and writes of
their bytes; the entry becomes FREE and QS falls. -/
def execQstWritePerformed (gid op : Nat) (st : State) : Host.Outcome State Fault Refusal :=
  match st.group? gid, st.work? gid op with
  | some g, some (.qst n i _ _ bytes (some els)) =>
    if st.streamHeld g op (els.map fun x => (x.2.2, bytes)) then .next st
    else .next ((st.writeElements gid g bytes els ((g.queue n).entry i)).onGroup gid fun g => (g.onQueue n fun q => q.release i).finish op)
  | _, _ => .next st

/-- One element of a QLD or a QST is performed: the i-th of those that are left, where no earlier one reaches its bytes (R348, R354). -/
def State.performElement (st : State) (gid op i : Nat) : State :=
  let pick (bytes : Nat) (els : List (Nat × Nat × Nat)) : Option (Nat × Nat × Nat) :=
    els[i]?.bind fun x => if (els.take i).any fun y => meets (y.2.2, bytes) (x.2.2, bytes) then none else some x
  match st.group? gid, st.work? gid op with
  | some g, some (.qld n k bytes els) =>
    (match pick bytes els with
     | some x =>
       if st.streamHeld g op [(x.2.2, bytes)] then st
       else
         let (st, y) := st.fillElements gid g bytes [x] ((g.queue n).entry k)
         st.onGroup gid fun g => (g.onQueue n fun q => q.onEntry k fun _ => y).onOp op fun _ => .qld n k bytes (els.eraseIdx i)
     | none => st)
  | some g, some (.qst n k sh ix bytes (some els)) =>
    (match pick bytes els with
     | some x =>
       if st.streamHeld g op [(x.2.2, bytes)] then st
       else (st.writeElements gid g bytes [x] ((g.queue n).entry k)).onGroup gid fun g => g.onOp op fun _ => .qst n k sh ix bytes (some (els.eraseIdx i))
     | none => st)
  | _, _ => st

/-! ### Scalars of the access stream (R155, R156) -/

/-- Effect of a YOP operation (R155). -/
def yopValue (o : Nat) (a b : Lane) : Lane :=
  match o with
  | 0 => a + b
  | 1 => a - b
  | 2 => a * b
  | 3 => a &&& b
  | 4 => a ||| b
  | 5 => a ^^^ b
  | 6 => a <<< (b.toNat % 64)
  | 7 => a >>> (b.toNat % 64)
  | 8 => if a.toInt ≤ b.toInt then a else b
  | 9 => if a.toInt ≤ b.toInt then b else a
  | _ => b

/-- An access-stream instruction without faults of its own. -/
def State.streamOp (st : State) (i : Instr) (f : Group → Group) : Host.Outcome State Fault Refusal :=
  st.issue { runs := .stream, accepts := { any := false } } (infoWord i) fun e st => .next (st.onGroup e.gid f)

/-- YOP.op yd, ya, yb (R155). -/
def execYopReg (d a o b : BitVec 4) (st : State) : Host.Outcome State Fault Refusal :=
  st.streamOp (.yopReg d a o b) fun g =>
    { g with y := NMap.store g.y 0 d.toNat (yopValue o.toNat (NMap.get g.y 0 a.toNat) (NMap.get g.y 0 b.toNat)) }

/-- YOP.op yd, ya, #imm (R155). -/
def execYopImm (d a o : BitVec 4) (i : BitVec 9) (st : State) : Host.Outcome State Fault Refusal :=
  st.streamOp (.yopImm d a o i) fun g =>
    { g with y := NMap.store g.y 0 d.toNat (yopValue o.toNat (NMap.get g.y 0 a.toNat) (i.signExtend 64)) }

/-- YOP.HRD (R155). -/
def execYopHrd (d a s : BitVec 4) (st : State) : Host.Outcome State Fault Refusal :=
  st.streamOp (.yopHrd d a s) fun g => { g with y := NMap.store g.y 0 d.toNat (readShape (g.shape a.toNat) s.toNat) }

/-- YOP.HWAIT (R155): stalls until RANK is not 0. -/
def execYopHwait (a : BitVec 4) (st : State) : Host.Outcome State Fault Refusal :=
  st.issue { runs := .stream, accepts := { any := false } } (infoWord (.yopHwait a)) fun e st =>
    if shRank (e.g.shape a.toNat) = 0 then .wait st else .next st

/-- The condition of a YBR (R156). -/
def ybrHolds (c : Nat) (a b : Int) : Bool :=
  match c with
  | 0 => a == b
  | 1 => a != b
  | 2 => decide (a < b)
  | 3 => decide (a ≤ b)
  | 4 => decide (b < a)
  | 5 => decide (b ≤ a)
  | _ => true

/-- YBR (R156). -/
def execYbr (a b : BitVec 4) (c : BitVec 3) (o : BitVec 11) (st : State) : Host.Outcome State Fault Refusal :=
  st.issue { runs := .stream, accepts := { any := false } } (infoWord (.ybr a b c o)) fun e st =>
    if ybrHolds c.toNat (NMap.get e.g.y 0 a.toNat).toInt (NMap.get e.g.y 0 b.toNat).toInt then
      match targetTrap (lanesOf e.g.liveLanes) (e.target o.toInt) with
      | some t => .trap t none
      | none => .jump ((st.issued e).onGroup e.gid fun g => { g with accessPc := e.target o.toInt, accessLife := .running })
    else .next st

/-- ADONE (R156). -/
def execAdone (st : State) : Host.Outcome State Fault Refusal := st.streamOp .adone fun g => { g with accessLife := .done }

end Sys2Proof.Machine
end

