-- ==== Sys2Proof/Machine/Rings.lean ====
section
/-! DEFINITION. Records for the host's rings (R379, R380). -/

namespace Sys2Proof.Machine

/-- A fault record about a group (R380). -/
def State.sendFault (st : State) (g : Group) (kind byte2 : Nat) (tag : Option Nat) (detail : List (Nat × Nat)) (after : After) : State :=
  st.send 1 { tagged := tag.isSome, after := after,
              bytes := recordBytes 128 (recordHeader kind byte2 (tag.getD 0) :: st.faultFields g ++ detail) }

/-- Escalates a stopped group to the host: a resumable record that carries TAG (R175, R176). -/
def State.escalate (st : State) (gid kind : Nat) (detail : List (Nat × Nat)) : State :=
  let (s, tag) := st.drawTag gid none
  match s.group? gid with
  | none => s
  | some g => (s.setGroup gid { g with stage := .escalated }).sendFault g kind 0 (some tag) detail .nothing

end Sys2Proof.Machine
end

