-- ==== Sys2Proof/Machine/System.lean ====
section
/-! DEFINITION. Words that are no instruction (R66), hints (R68), and the SYS class: NOP, CRRD, CRWR, SYSCALL, ENQ (R161, R162,
R164), with the control registers (R52, R169, R202). -/

namespace Sys2Proof.Machine

/-- A hint word waits for the instruction it binds to; a fourth one, and any in the access stream, stops at the word itself
(R65, R66, R68, R71). -/
def hintWord (w : Word) (st : State) : Host.Outcome State Fault Refusal :=
  match st.env? with
  | none => .fault .noIssuer
  | some e =>
    match e.src with
    | .access => st.illegalWord (w.setWidth 64) true
    | src =>
      if 3 ≤ e.slot.hints.length then .next (e.raiseAtHint (e.slotTrap 0x02 (w.setWidth 64)) st)
      else
        .next ((st.onGroup e.gid fun g =>
          let s := g.slot src
          g.setSlot src { s with
            pc := e.slot.pc + 4
            life := if s.life = .stalled then .ready else s.life
            hints := s.hints ++ [{ addr := e.slot.pc, word := w }] }).countIssue e false)

/-- The word of an instruction. -/
def wordOf (i : Instr) : Word := BitVec.ofNat 32 (encodeNat i)

/-- HINT.IMM (R68, R69). -/
def execHimm (i : BitVec 24) (st : State) : Host.Outcome State Fault Refusal := hintWord (wordOf (.himm i)) st
/-- HINT.IMMHI (R68, R69). -/
def execHimmhi (i : BitVec 24) (st : State) : Host.Outcome State Fault Refusal := hintWord (wordOf (.himmhi i)) st
/-- HINT.MOD (R68, R70). -/
def execHmod (e : BitVec 1) (r : BitVec 3) (s n x : BitVec 1) (o : BitVec 3) (c : BitVec 1) (k : BitVec 3) (st : State) :
    Host.Outcome State Fault Refusal := hintWord (wordOf (.hmod e r s n x o c k)) st
/-- HINT.SCHED (R68, R71). -/
def execHsched (y : BitVec 1) (l : BitVec 4) (st : State) : Host.Outcome State Fault Refusal := hintWord (wordOf (.hsched y l)) st
/-- HINT.OFFSET (R68, R72). -/
def execHoff (o : BitVec 24) (st : State) : Host.Outcome State Fault Refusal := hintWord (wordOf (.hoff o)) st

/-- WORD_NOT_AN_INSTRUCTION: the illegal-instruction trap, but a MOD or SCHED hint with reserved codes or bits is a hint, refused
at the instruction it binds to (R66) (log 25). -/
def execWordNotAnInstruction (w : Word) (st : State) : Host.Outcome State Fault Refusal :=
  if w.toNat / 2 ^ 27 = 1 ∧ (w.toNat / 2 ^ 24 % 8 = 2 ∨ w.toNat / 2 ^ 24 % 8 = 3) then hintWord w st
  else st.illegalWord (w.setWidth 64) (w.toNat / 2 ^ 27 = 1)

/-- SYS sub-op 0 (R63, R66). -/
def execIllegal (i : BitVec 21) (st : State) : Host.Outcome State Fault Refusal := st.illegalWord (infoWord (.illegal i))

/-- NOP (R161). -/
def execNop (x : BitVec 21) (st : State) : Host.Outcome State Fault Refusal := st.issue {} (infoWord (.nop x)) fun _ st => .next st

/-! ### Control registers -/

/-- Number of LIVE groups of a core (R196). -/
def State.occ (st : State) (core : Nat) : Nat := (st.groups.filter fun e => e.2.core == core && e.2.life == .live).length

/-- cr.bal of a core (R203). -/
def State.balWord (st : State) (core : Nat) : Lane :=
  let c := st.core core
  BitVec.ofNat 64 (c.dev.toNat * 2 ^ 48 + c.ownest % 256 * 2 ^ 40 + c.mateest % 256 * 2 ^ 32 + c.aburn % 256 * 2 ^ 24 + c.eburn % 256 * 2 ^ 16 +
    c.shuntlvl % 256 * 2 ^ 8 + st.occ core % 64 * 4 + (if c.throttled then 2 else 0) + (if isUpper core then 1 else 0))

/-- cr.balstat of a core (R204). -/
def Core.balStat (c : Core) : Lane := BitVec.ofNat 64 (c.stretch.toNat * 2 ^ 32 + c.traps % 2 ^ 16 * 2 ^ 16 + c.overs % 256)

/-- cr.inflight (R53). -/
def Group.inflight (g : Group) : Lane :=
  BitVec.ofNat 64 (g.counter .ld + g.counter .st * 2 ^ 8 + g.counter .cpy * 2 ^ 16 + g.counter .mma * 2 ^ 24 + g.counter .qs * 2 ^ 32 +
    g.counter .sfu * 2 ^ 40)

/-- cr.qstat (R52). -/
def Group.qstat (g : Group) : Lane :=
  BitVec.ofNat 64 ((List.range 4).foldl (fun n q =>
    let count (l : EntryLife) : Nat := ((g.queue q).entries.filter fun e => e.2.life == l).length
    n + (count .full * 16 + count .reserved) * 2 ^ (8 * q)) 0)

/-- Value of a control register in a lane; none for a number that is not assigned (R52, R169, R202). -/
def State.control (st : State) (e : Env) (n l : Nat) : Option Lane :=
  let g := e.g
  let t := st.team g.team
  let c := st.core g.core
  let nat (x : Nat) : Option Lane := some (BitVec.ofNat 64 x)
  match n with
  | 0x00 => nat l
  | 0x01 => nat g.index
  | 0x02 => nat t.rank
  | 0x03 => nat g.core
  | 0x04 => nat g.role
  | 0x05 => some g.lrec
  | 0x06 => some g.pbase
  | 0x07 => some g.psize
  | 0x08 => nat g.depth
  | 0x09 => nat g.div.length
  | 0x0A => some (e.slot.mask.setWidth 64)
  | 0x0B => some g.inflight
  | 0x0C => some g.qstat
  | 0x0D => some (g.qdir.setWidth 64)
  | 0x0E => some st.time
  | 0x0F => some c.cycle
  | 0x20 => some g.trap.cause
  | 0x21 => some g.trap.pc
  | 0x22 => some g.trap.resume
  | 0x23 => some g.trap.mask
  | 0x24 => some (NMap.get g.trap.addr 0 l)
  | 0x25 => some (NMap.get g.trap.info 0 l)
  | 0x26 => some g.task
  | 0x27 => some g.hwin
  | 0x40 => some c.laneremap
  | 0x41 => nat g.number
  | 0x42 => nat (chipPlace g.core t.scratch)
  | 0x43 => nat t.ssize
  | 0x44 => some (st.balWord g.core)
  | 0x45 => some (t.balClass.setWidth 64)
  | 0x46 => some c.balStat
  | 0x47 => nat (if g.tiles = 0 then 0 else chipPlace g.core (0x200000 + 8192 * g.tile0))
  | 0x48 => nat (if g.accs = 0 then 0 else chipPlace g.core (0x400000 + 16384 * g.acc0))
  | _ => none

/-- Numbers of the control registers. -/
def assigned (n : Nat) : Bool := decide (n < 0x10) || (decide (0x20 ≤ n) && decide (n < 0x28)) || (decide (0x40 ≤ n) && decide (n < 0x49))

/-- CRRD (R161). -/
def execCrrd (d : BitVec 6) (n : BitVec 8) (st : State) : Host.Outcome State Fault Refusal :=
  if assigned n.toNat then
    st.issue { regs := [d.toNat] } (infoWord (.crrd d n)) fun e st =>
      .next (st.writeCells e.g.core (e.laneWrites d.toNat none fun _ l => (st.control e n.toNat l).getD 0))
  else st.illegalWord (infoWord (.crrd d n))

/-- CRWR (R161, R169): cr.tresume and cr.hwin, in the handler; every other number is an illegal instruction (R52, R65). -/
def execCrwr (s : BitVec 6) (n : BitVec 8) (st : State) : Host.Outcome State Fault Refusal :=
  if n = 0x22 ∨ n = 0x27 then
    st.issue { runs := .supervisor, regs := [s.toNat] } (infoWord (.crwr s n)) fun e st =>
      match firstTrap [e.poisonTrap (e.readLowest s.toNat), e.silentTrap [e.lowest] (e.pairDiffers s.toNat (BitVec.allOnes 64))] with
      | some t => .trap t none
      | none => .next (st.onGroup e.gid fun g =>
        if n = 0x22 then { g with trap := { g.trap with resume := e.scalar s.toNat } }
        else { g with hwin := e.scalar s.toNat &&& 0x38 })
  else st.illegalWord (infoWord (.crwr s n))

/-! ### SYSCALL (R162) -/

/-- SYSCALL: the slot parks and a record goes to the host; the group is STOPPED, so both stacks in memory are current (R38, R43, R56). -/
def execSyscall (c : BitVec 21) (st : State) : Host.Outcome State Fault Refusal :=
  st.issue { closes := .both, runs := .program } (infoWord (.syscall c)) fun e st =>
    let args := (List.range 8).map fun i => e.g.frameSize - 8 + i
    match firstTrap [if e.g.syscalls then none else some (e.slotTrap 0x04), e.poisonTrap (args.flatMap fun r => e.readLowest r),
        e.silentTrap [e.lowest] fun l => args.any fun r => e.pairDiffers r (BitVec.allOnes 64) l] with
    | some t => .trap t none
    | none =>
      -- an arrival of the other slot completes before the stop (R263)
      if !e.g.arrivals.isEmpty then .wait st else
      let (st, tag) := (st.issued e).drawTag e.gid (some e.src)
      let st := st.onGroup e.gid fun g =>
        let s := g.slot e.src
        { g.setSlot e.src { s with life := .parked, pc := e.slot.pc + 4, hints := [] } with life := .stopped, stage := .running }
      let fields := [recordHeader 0x01 0 tag, (8, c.toNat), (16, st.taskWord e.g), (24, st.groupIdentity e.g), (32, e.slot.mask.toNat)] ++
        (args.zipIdx 0).map fun x => (64 + 8 * x.2, (e.scalar x.1).toNat)
      .jump (((st.send 0 { tagged := true, bytes := recordBytes 128 fields }).withdraw e.gid).writeStacks e.gid)

/-! ### ENQ (R164) -/

/-- A queue that ENQ of a context may fill. -/
def State.acceptsEnq (st : State) (q ctx : Nat) : Bool :=
  st.queueCtx q == ctx && bitsOf (st.queueBits q) 157 157 == 1 && st.queueLog q != 0

/-- ENQ.s vA, #q. Its read of the record is no LD, so no window but the team's own scratch admits it (R193, R243). -/
def execEnq (a : BitVec 6) (q : BitVec 15) (st : State) : Host.Outcome State Fault Refusal :=
  st.issue { closes := .own, runs := .program, accepts := { scope := true }, regs := [a.toNat] } (infoWord (.enq a q)) fun e st =>
    let va := (e.scalar a.toNat).toNat
    let addrs := [(e.lowest, va)]
    match firstTrap [e.poisonTrap (e.readLowest a.toNat), e.silentTrap [e.lowest] (e.pairDiffers a.toNat (BitVec.allOnes 64))] with
    | some t => .trap t none
    | none => match st.checkLanes { e.who with unlisted := true } addrs 128 128 .read with
      | .error t => .trap t none
      | .ok xs =>
        if !st.acceptsEnq q.toNat e.who.ctx then
          .trap { cause := 0x12, lanes := maskOf [e.lowest], addr := inLanes [e.lowest] (e.scalar a.toNat) } none
        else if !e.room .st || e.acquireHeld then .wait st
        else
          let st := (st.touchLanes e.who addrs .read).notIdempotent e.g.team
          let (st, _) := st.launchOp e.gid .st e.src (.enq (xs.map fun x => (x.2.2, 128)) q.toNat (e.hints.scope.getD 3))
          .next st

/-- ENQ_APPEND (R164): the record is written to the ring once there is room and the group's earlier ENQs to the queue are appended, and
TAIL advances. A ring whose page is not mapped leaves the ENQ waiting: the spec names no fault for it, and none may arise once ST has been
raised (the model's choice, log 62). -/
def execEnqAppend (gid op : Nat) (st : State) : Host.Outcome State Fault Refusal :=
  match st.group? gid, st.work? gid op with
  | some g, some (.enq places q scope) =>
    let i := st.queueTail q
    let ctx := st.queueCtx q
    let behind := (g.before op).any fun o => !o.finished && (match o.work with
      | .enq _ k _ => k == q
      | _ => false)
    let room := decide ((i + 2 ^ 32 - st.queueHead q) % 2 ^ 32 < 2 ^ st.queueLog q)
    match st.ctxPlace ctx (st.recordVa q i) .write with
    | none => .next st
    | some dst =>
      if (g.flight.any fun o => o.id == op && o.finished) || !room || behind || !st.mayRelease g op scope ||
          st.pinnedFrom g.team dst 128 || st.queueHeld (some g.team) q || st.walkHeld (st.contextRoot ctx) (st.recordVa q i) || places.any (fun x => st.pinnedFrom g.team x.1 x.2) then .next st
      else
        let st := st.release g scope
        let bytes := places.flatMap fun x => st.view g.core g.team x.1 x.2
        let st := (places.foldl (fun s x => s.readIn gid g x.1 0) st |>.drainRange g.core dst 128).writeHome dst bytes false (st.accessOf gid g 0)
        let st := ((st.ctxTouch ctx (st.recordVa q i) true).setTail q ((i + 1) % 2 ^ 32)).setPending q
        .next (st.onGroup gid fun g => g.finish op)
  | _, _ => .next st

end Sys2Proof.Machine
end

