-- ==== Sys2Proof/Machine/Handler.lean ====
section
/-! DEFINITION. TRAP and BKPT (R163, R176), entering the supervisor handler (R172, R173), and the return from it by FRET (R175). -/

namespace Sys2Proof.Machine

/-- A software stop: every visible lane's cr.tinfo takes imm21, and the group resumes after the word (R163, R169, R171). -/
def softStop (i : Instr) (cause : Nat) (imm : BitVec 21) (st : State) : Host.Outcome State Fault Refusal :=
  st.issue { closes := .both, runs := .program } (infoWord i) fun e _ =>
    .trap { cause := cause, lanes := e.slot.mask, info := inLanes (List.range e.width) (imm.setWidth 64) } (some (e.slot.pc + 4))

/-- TRAP #c (R163). -/
def execTrap (c : BitVec 21) (st : State) : Host.Outcome State Fault Refusal := softStop (.trap c) 0x20 c st
/-- BKPT #g (R163, R176). -/
def execBkpt (g : BitVec 21) (st : State) : Host.Outcome State Fault Refusal := softStop (.bkpt g) 0x21 g st

/-- A stopped group has no result on its way that its record waits for: SFU results and deferred writes (R77, R172). -/
def Group.settled (g : Group) : Bool :=
  g.counter .sfu == 0 && g.defers.all fun d => !(d.regs.all fun r => decide (r < 2048))

/-- HANDLER_ENTRY (R172 steps 2 and 3): the trap record is written; both stacks in memory are current (R38, R43). -/
def execHandlerEntry (gid : Nat) (st : State) : Host.Outcome State Fault Refusal :=
  match st.group? gid with
  | none => .next st
  | some g => match g.stop with
    | none => .next st
    | some s =>
      if g.life = .stopped && g.stage = .draining && g.settled then
        let st := (st.setGroup gid { g with trap := s.record, stop := none, hwin := 0, stage := .frameWait }).writeStacks gid
        .next (if s.fate = .debugger then st.escalate gid 0x10 [] else st)
      else .next st

/-- HANDLER_FRAME_GRANT (R172 steps 4 and 5, R173): two granules of the reserve, and the handler slot starts with cr.tmask. -/
def execHandlerFrameGrant (gid : Nat) (st : State) : Host.Outcome State Fault Refusal :=
  match st.group? gid with
  | none => .next st
  | some g =>
    let c := st.core g.core
    if g.life = .stopped && g.stage = .frameWait && decide (2 ≤ c.reserve.length) then
      let gs := c.reserve.take 2
      let c := gs.foldl Core.clearGranule { c with reserve := c.reserve.drop 2 }
      .next ((st.setCore g.core c).setGroup gid { g with
        handlerGrans := gs
        stage := .inHandler
        h := { life := .ready, pc := (st.team g.team).handler, mask := g.trap.mask.setWidth 32 } })
    else .next st

/-- Slot or stream that a trap record names as its source (R170). -/
def recordSource (cause : Lane) : Option Source :=
  match cause.toNat / 2 ^ 24 % 4 with
  | 0 => some .slotA
  | 1 => some .slotB
  | 2 => some .access
  | _ => none

/-- The slot that a stop's record names goes on at cr.tresume; a BARSYNC whose resume address moved starts anew (R175, R263). -/
def Group.resumeSlot (g : Group) : Group :=
  let g := match recordSource g.trap.cause with
    | some s =>
      { g.setSlot s { g.slot s with pc := g.trap.resume, hints := [] } with
        token := if g.trap.resume = g.trap.pc then g.token else NMap.del g.token (srcCode (some s)) }
    | none => g
  { g with stage := .running, tag := none, resumed := false }

/-- Resumes a stopped group as FRET #0 does: the stopping slot goes on at cr.tresume, the stacks are read back, a frame
request is made again (R36, R38, R175, R179). -/
def State.resumeGroup (st : State) (gid : Nat) : State :=
  match st.group? gid with
  | none => st
  | some g =>
    let g := g.resumeSlot
    let parked := g.a.life == .parked || g.b.life == .parked
    let st := st.setGroup gid { g with life := if parked then .stopped else .live }
    ((st.readStacks gid).rejoin gid).pops gid

/-- The handler's accesses are performed at device scope (R175): none of them is still to be performed, whatever of the interrupted group's
its counter waits behind, and none that a pin of another core holds waits in the L1. -/
def State.handlerDone (st : State) (e : Env) : Bool :=
  e.g.flight.all (fun o => o.src != .handler || o.finished || (!o.work.isAccess && o.path != .sfu)) &&
    (st.core e.g.core).l1.all fun w => !(w.handler && w.gid == e.gid && st.drainHeld e.g.core w)

/-- The handler's writes in the L1 reach their homes. -/
def State.drainHandler (st : State) (core gid : Nat) : State :=
  let ws := (st.core core).l1.filter fun w => w.handler && w.gid == gid
  ws.foldl (fun s w => s.drainRange core w.place w.bytes.length) st

/-- FRET: waits, frees the handler frame, then acts (R175). -/
def fret (i : Instr) (act : Env → State → State) (st : State) : Host.Outcome State Fault Refusal :=
  st.issue { closes := .own, runs := .supervisor, accepts := { any := false } } (infoWord i) fun e st =>
    if st.handlerDone e then
      .jump (act e (((st.issued e).drainHandler e.g.core e.gid).freeHandler e.gid))
    else .wait st

/-- FRET #0: resume, or a double fault where R60 refuses cr.tresume (R174). -/
def execFretResume (st : State) : Host.Outcome State Fault Refusal :=
  fret .fretResume (fun e st =>
    if badTarget e.g.trap.resume then st.doubleFault e.gid 0x0E e.slot.pc else st.resumeGroup e.gid) st

/-- FRET #1: escalate to the host. -/
def execFretEscalate (st : State) : Host.Outcome State Fault Refusal := fret .fretEscalate (fun e st => st.escalate e.gid 0x10 []) st

/-- FRET #2: the gang is killed and reported. -/
def execFretKill (st : State) : Host.Outcome State Fault Refusal :=
  fret .fretKill (fun e st => (st.onGroup e.gid fun g => { g with stage := .doomed }).doom (st.team e.g.team).gang
    { cause := e.g.trap.cause.toNat % 256, group := some e.gid }) st

/-- FRET #3: escalate with the first-touch pool empty (R177, R380). -/
def execFretPoolEmpty (st : State) : Host.Outcome State Fault Refusal :=
  fret .fretPoolEmpty (fun e st =>
    let lane := e.g.trap.cause.toNat / 256 % 32
    let va := (NMap.get e.g.trap.addr 0 lane).toNat / 65536 * 65536
    st.escalate e.gid 0x1A [(72, va), (80, st.poolCount e.who.pool)]) st

end Sys2Proof.Machine
end

