-- ==== Sys2Proof/Machine/Page.lean ====
section
/-! DEFINITION. Adobe reservations and lines that must leave the chip (R328 to R334), and the PAGE class: DISCARD, ADOBEQ,
TLBINV, MAPPG (R338 to R342), with the page walk (R326) and the teardown of a context (R334). -/

namespace Sys2Proof.Machine

/-! ### Reservations (R319, R329, R330) -/

/-- Lines of an adobe page. -/
def Adobe.lines (a : Adobe) : List Nat := (List.range (a.bytes / 128)).map (a.base / 128 + ·)

/-- Home slice and set of a line. -/
def State.setKey (st : State) (line : Nat) : Nat × Nat := (st.homeSlice (128 * line), setOf (128 * line))

/-- Home slice and set of every reserved adobe line; a line that a new home refused has no reservation (R334, R337). -/
def State.reservedKeys (st : State) : List (Nat × Nat) :=
  st.adobes.flatMap fun a => (a.lines.filter fun l => !st.unreserved.contains l).map st.setKey

/-- Reserved adobe count of a set. -/
def State.setReserved (st : State) (slice set : Nat) : Nat := st.reservedKeys.count (slice, set)

/-- ARES: adobe lines reserved in a slice (R319). -/
def State.sliceReserved (st : State) (slice : Nat) : Nat := (st.reservedKeys.filter fun k => k.1 == slice).length

/-- Ways of a set that the self-test has declared lasting-failed (R334, R394). -/
def State.failedWays (st : State) (slice set : Nat) : Nat :=
  (st.tests.filter fun t => t.lasting && (match t.unit with
    | .l2Way s k _ => s == slice && k == set
    | _ => false)).length

/-- Adobe ways of a set: ADW, or fewer where failed ways leave fewer besides the version ways and four normal ones (R318, R334). -/
def State.setAdw (st : State) (slice set : Nat) : Nat := min (st.slice slice).adw (12 - st.failedWays slice set - (st.slice slice).vw)

/-- A reservation for lines leaves every set within its adobe ways (R329). -/
def State.mayReserve (st : State) (lines : List Nat) : Bool :=
  let old := st.reservedKeys
  let new := lines.map st.setKey
  new.all fun k => decide (old.count k + new.count k ≤ st.setAdw k.1 k.2)

/-- The adobe page mapped over a place. -/
def State.adobeAt (st : State) (place : Nat) : Option Adobe := st.adobes.find? fun a => decide (a.base ≤ place) && decide (place < a.base + a.bytes)

/-! ### Lines that leave L2 (R318, R331, R332) -/

/-- A line that L2 holds and memory does not, in its bytes or its poison marks. -/
def State.dirtyLine (st : State) (line : Nat) : Bool :=
  (st.l2.any fun e => lineOf e.1 == line) || st.l2bad.any fun e => lineOf (8 * e.1) == line

/-- Whose write last dirtied a line: the class of its write-back (R322). -/
def State.lineWriter (st : State) (line : Nat) : Traffic :=
  let stands := (st.l2ways.flatMap fun e => e.2).find? fun w => w.line == line
  let comes := st.hbmQueue.find? fun r => r.fill && r.line == line
  ((stands.bind (·.writer)).orElse fun _ => (comes.bind (·.writer)).orElse fun _ => NMap.find st.adobeWriters line).getD .management

/-- Writes a line's L2 bytes and marks to memory, as a transfer of its stack (R318, R321, R322, R332). An unbacked adobe line has no memory
behind it; a write to a stack that cannot be reached is dropped (R337), and such an access, as one to a row that is lost, is reported (R337, R394). -/
def State.writeBack (st : State) (line : Nat) (as : Option Traffic := none) : State :=
  let bytes := st.l2.filter fun e => lineOf e.1 == line
  match st.memPlace (128 * line) with
  | none => st
  | some pa =>
    let s := if st.dirtyLine line then st.reportAccess pa else st
    let s := if st.dirtyLine line && isHbm pa && !st.unreachable pa then
        { s with hbmQueue := s.hbmQueue ++ [{ line := line, traffic := as.getD (st.lineWriter line), fill := false }] }
      else s
    let s := bytes.foldl (fun s (e : Nat × Byte) => s.setMemByte (pa + e.1 % 128) e.2) s
    { s with
      adobeWriters := NMap.del s.adobeWriters line
      l2 := NMap.keep s.l2 fun a _ => !(lineOf a == line)
      l2bad := NMap.keep s.l2bad fun w _ => !(lineOf (8 * w) == line)
      poison := if st.unreachable pa then s.poison
        else (List.range 16).foldl (fun m i => NMap.store m 0 (pa / 8 + i) (st.homePoison (128 * line + 8 * i))) s.poison }

/-- A line that is present without a late frame has every byte in L2: those never written are zeros (R329). -/
def State.holdWhole (st : State) (line : Nat) : State :=
  { st with l2 := (spread (128 * line) 128).foldl (fun m a => if (NMap.find m a).isSome then m else NMap.put m a 0) st.l2 }

/-- Writes or clears an entry of the adobe backing table (R332). Lines of the chunk that are present when it takes its frame stay in L2 as
they are. -/
def State.setBacking (st : State) (place : Nat) (e : Nat) : State :=
  let chunk := place / 65536
  let here := if e = 0 then [] else (NMap.keys st.adobeLines ++ st.unreserved.filter st.dirtyLine).filter fun l => 128 * l / 65536 == chunk
  (here.foldl State.holdWhole st).writeHome (st.adobeTable + 8 * ((place - adobeBase) / 65536)) (bytesOf e 8) false

/-- A line's way is given up, normal or adobe. -/
def State.leaveWay (st : State) (line : Nat) : State :=
  { st with
    adobeLines := NMap.del st.adobeLines line
    l2ways := NMap.put st.l2ways (st.wayKey line) ((NMap.get st.l2ways [] (st.wayKey line)).filter fun x => x.line != line) }

/-- FB of the entry that maps an adobe page now (R325, R331): the host may have written it since the page was mapped. -/
def State.pageFb (st : State) (a : Adobe) : Bool :=
  match st.walk (st.contextRoot a.ctx) a.va with
  | .leaf _ _ p => p.bit 6 && p.bit 59
  | _ => false

/-- An adobe line that finds no L2 place leaves the chip if it is dirty: to its late frame, or it is lost and reported (R331, R332). The write to
a frame that it takes now is management traffic (R322). -/
def State.mustLeave (st : State) (line : Nat) : State :=
  let place := 128 * line
  if !st.dirtyLine line then st.leaveWay line
  else if (st.backing place).isSome then (st.writeBack line).leaveWay line
  else match st.adobeAt place with
    | none => st.forgetLine line
    | some a =>
      let (s, f) := if st.pageFb a then st.takeFrame (st.contextPool a.ctx) else (st, none)
      match f with
      | some f => ((s.setBacking place (2 ^ 63 + f)).writeBack line (some .management)).leaveWay line
      | none =>
        let s := s.forgetLine line
        State.sendUnit
          { s with
            adobeLost := NMap.put s.adobeLost line true
            adobes := s.adobes.map fun x => if x = a then { x with lost := true } else x }
          0x14 [(8, a.ctx * 2 ^ 32), (72, a.va), (80, a.base)]

/-! ### The normal lines of a set (R318) -/

/-- Ways of a set left for normal lines: 16 less the failed ones and those that adobe and version lines occupy (R317, R318). -/
def State.normalWays (st : State) (key : Nat) : Nat :=
  16 - (st.failedWays (key / 768) (key % 768) + (st.adobeLines.filter fun e => st.wayKey e.1 == key).length +
    (st.versions.filter fun v => st.wayKey v.line == key).length)

/-- The line that leaves a full set: the least recently used one without a .KEEP mark, or where all are marked the least recently used
(R318, R320). -/
def victimLine (ways : List L2Line) : Option L2Line := (ways.reverse.find? fun w => !w.keep).orElse fun _ => ways.getLast?

/-- A normal line leaves its set; a dirty one is written back, with the class of the write that last dirtied it (R318, R322). A line of an adobe
page that has no reservation leaves the chip from there (R331; log 16). -/
def State.evictLine (st : State) (key : Nat) (w : L2Line) : State :=
  let st := if isAdobe (128 * w.line) then st.mustLeave w.line else if st.dirtyLine w.line then st.writeBack w.line w.writer else st
  { st with l2ways := NMap.put st.l2ways key ((NMap.get st.l2ways [] key).filter fun x => x.line != w.line) }

/-- Normal lines leave a set until they fit its ways. -/
def State.trimSet (st : State) (key : Nat) : Nat → State
  | 0 => st
  | n + 1 =>
    let ways := NMap.get st.l2ways [] key
    if ways.length ≤ st.normalWays key then st
    else match victimLine ways with
      | some w => (st.evictLine key w).trimSet key n
      | none => st

/-- Every set that a line has entered since the last step holds no more lines than it has ways (R318) (log 51). -/
def State.trimSets (st : State) : State :=
  let s := st.crowded.dedup.foldl (fun s k => s.trimSet k (NMap.get s.l2ways [] k).length) st
  { s with crowded := [] }

/-! ### DISCARD (R339) -/

/-- Work of a DISCARD: the lines of its segments. -/
def lineRange (segs : List (Nat × Nat)) : List Nat := segs.flatMap fun x => (List.range (x.2 / 128)).map (x.1 / 128 + ·)

/-- Of failing checks, code and address, the one with the lowest code, the first of them (R166). -/
def lowestCode : List (Nat × Nat) → Option (Nat × Nat)
  | [] => none
  | x :: rest => some (rest.foldl (fun a b => if b.1 < a.1 then b else a) x)

/-- DISCARD [vB + off], vL (log 27). -/
def execDiscard (l b : BitVec 6) (st : State) : Host.Outcome State Fault Refusal :=
  st.issue { closes := .own, accepts := { offset := true }, regs := [b.toNat, l.toNat] } (infoWord (.discard l b)) fun e st =>
    let a := lowBits 64 (((e.scalar b.toNat).toNat : Int) + e.offset)
    let n := (e.scalar l.toNat).toNat
    let at' (cause va : Nat) (info : Lane) : Trap :=
      { cause := cause, lanes := maskOf [e.lowest], addr := inLanes [e.lowest] (BitVec.ofNat 64 va), info := inLanes [e.lowest] info }
    let range := if n = 0 then .ok [] else st.checkRange { e.who with unlisted := true } a n 1 .write
    let failing : List (Nat × Nat) :=
      (if a % 128 ≠ 0 ∨ n % 128 ≠ 0 then [(0x10, a)] else []) ++
      (if e.g.versioned || (decide (0 < n) && decide (onChip < a + n)) then [(0x12, a)] else []) ++
      (match range with
       | .error x => [x]
       | .ok _ => [])
    match firstTrap
      [ e.poisonTrap (e.readLowest l.toNat ++ e.readLowest b.toNat),
        e.silentTrap [e.lowest] fun x => e.pairDiffers b.toNat (BitVec.allOnes 64) x || e.pairDiffers l.toNat (BitVec.allOnes 64) x,
        (lowestCode failing).map fun x => at' x.1 x.2 (if x.1 = 0x11 then kindCode .write else 0) ] with
    | some t => .trap t none
    | none =>
      if !e.room .st || e.acquireHeld then .wait st
      else
        let segs := match range with
          | .ok segs => segs
          | .error _ => []
        let st := if n = 0 then st else st.touchRange e.who a n .write
        .next ((st.notIdempotent e.g.team).launchOp e.gid .st e.src (.discard (lineRange segs))).1

/-! ### ADOBEQ (R340) -/

/-- The k = 0 word of an address. -/
def State.pageWord (st : State) (root va : Nat) : Nat :=
  match st.walk root va with
  | .leaf _ level p =>
    if canonical va then
      if p.bit 6 then
        let n := leafBytes level (p.bit 5)
        let base := p.frame / n * n
        let mine (line : Nat) : Bool := decide (base ≤ 128 * line) && decide (128 * line < base + n)
        let held := st.adobes.find? fun a => a.base == base
        2 ^ 63 + 2 ^ 62 + (if level = 1 then 2 ^ 61 else 0) + (if held.isSome then 2 ^ 60 else 0) +
          (if (List.range (n / 65536)).any fun i => (st.backing (base + 65536 * i)).isSome then 2 ^ 59 else 0) +
          (if held.any fun a => a.lost then 2 ^ 58 else 0) + (st.adobeLines.filter fun e => mine e.1).length * 2 ^ 32
      else 2 ^ 63
    else 0
  | _ => 0

/-- The k = 1 word of an address. -/
def State.sliceWord (st : State) (ctx root va : Nat) : Nat :=
  match st.walk root va with
  | .leaf _ level p =>
    if canonical va then
      let line := lineOf ((tlbOf ctx va level p).physical va)
      let (s, k) := st.setKey line
      let c := st.slice s
      s * 2 ^ 55 + c.adw * 2 ^ 48 + c.vw * 2 ^ 40 + st.setReserved s k % 256 * 2 ^ 32 + st.sliceReserved s % 65536 * 2 ^ 16 +
        (st.versions.filter fun v => st.homeSlice (128 * v.line) == s).length % 65536
    else 2 ^ 64 - 1
  | _ => 2 ^ 64 - 1

/-- Reserved adobe bytes of a context. -/
def State.contextReserved (st : State) (ctx : Nat) : Nat := ((st.adobes.filter fun a => a.ctx == ctx).map fun (a : Adobe) => a.bytes).sum

/-- ADOBEQ vD, vS, #k. -/
def execAdobeq (d s : BitVec 6) (p : BitVec 3) (k : BitVec 2) (st : State) : Host.Outcome State Fault Refusal :=
  st.issue { accepts := { neg := true }, guard := some p.toNat, regs := [d.toNat] ++ if k = 2 then [] else [s.toNat] }
      (infoWord (.adobeq d s p k)) fun e st =>
    let act := e.active p.toNat
    match if k = 2 then none else e.poisonTrap (e.reads s.toNat act) with
    | some t => .trap t none
    | none =>
      if !e.room .ld || (k != 2 && act.any fun l => st.walkHeld e.who.root (e.val 0 s.toNat l).toNat) then .wait st
      else
        let word (l : Nat) : Nat :=
          let va := (e.val 0 s.toNat l).toNat
          match k.toNat with
          | 0 => st.pageWord e.who.root va
          | 1 => st.sliceWord e.who.ctx e.who.root va
          | _ => st.contextReserved e.who.ctx
        let ws := act.flatMap fun l => e.copies.map fun c =>
          ({ cell := e.cellOf c d.toNat l, bits := BitVec.allOnes 64, value := BitVec.ofNat 64 (word l) } : CellWrite)
        let (st, id) := st.launchOp e.gid .ld e.src (.adobeq ws)
        .next (st.openWindow e.gid id e.src 0 [e.reg d.toNat])

/-! ### TLBINV (R341) -/

/-- Two ranges of addresses of one size class meet, in the low 57 bits. -/
def rangesMeet (a n b m : Nat) : Bool := decide (a % 2 ^ 57 < b % 2 ^ 57 + m) && decide (b % 2 ^ 57 < a % 2 ^ 57 + n)

/-- What a TLBINV covers: a range of a context, a context, or everything. -/
structure Covers where
  ctx : Option Nat
  range : Option (Nat × Nat)
  deriving DecidableEq, Repr

/-- A context's range that a TLBINV covers. -/
def Covers.hits (k : Covers) (ctx a n : Nat) : Bool :=
  (k.ctx.isNone || k.ctx == some ctx) && (match k.range with
    | some (b, m) => rangesMeet a n b m
    | none => true)

/-- Waiting writes of a core, oldest first, that may go home and that must stay: one that a pin of another core holds stays, and one behind it
that reaches bytes of it (R346, R349, R356). -/
def State.splitHeld (st : State) (core : Nat) : List L1Write → List L1Write → List L1Write × List L1Write
  | [], stay => ([], stay.reverse)
  | w :: rest, stay =>
    if st.drainHeld core w || stay.any fun x => meets (x.place, x.bytes.length) (w.place, w.bytes.length) then
      st.splitHeld core rest (w :: stay)
    else
      let r := st.splitHeld core rest stay
      (w :: r.1, r.2)

/-- Writes of a core's L1 that no pin holds reach their homes (R341 step 3). -/
def State.drainFree (st : State) (core : Nat) : State :=
  let c := st.core core
  let r := st.splitHeld core c.l1 []
  r.1.foldl (fun s w => s.landWrite core w) (st.setCore core { c with l1 := r.2 })

/-- Writes of every core's L1 that no pin holds reach their homes. -/
def State.drainFrees (st : State) : State := (NMap.keys st.cores).foldl (fun s c => s.drainFree c) st

/-- A waiting write may lie within a range: a translation of its context that covers its place does, or none is held any more (log 32). -/
def State.writeWithin (st : State) (k : Covers) (w : L1Write) : Bool :=
  let ctx := (st.team w.team).ctx
  let known := st.cores.flatMap fun e => e.2.tlb.filter fun t => t.ctx == ctx && decide (t.frame ≤ w.place) && decide (w.place < t.frame + t.bytes)
  (k.ctx.isNone || k.ctx == some ctx) && (known.isEmpty || known.any fun t => k.hits t.ctx t.page t.bytes)

/-- Step 3 waits: another team's pin holds a line of the range (R341, R356). -/
def State.writesHeld (st : State) (k : Covers) : Bool := st.cores.any fun e => (st.splitHeld e.1 e.2.l1 []).2.any (st.writeWithin k)

/-- A line of a core's L1 lies within what a TLBINV covers: a translation of the plot that it is tagged under does (R190, R248), or none is held
there any more, unless a team of a context that is not covered has pinned it (log 32). -/
def State.lineWithin (st : State) (k : Covers) (core line : Nat) : Bool :=
  let known := (plotCores (plotOf core)).flatMap fun c =>
    (st.core c).tlb.filter fun t => decide (t.frame ≤ 128 * line) && decide (128 * line < t.frame + t.bytes)
  if known.isEmpty then
    !(st.pins.any fun p => p.core == core && p.line == line && !(k.ctx.isNone || k.ctx == some (st.team p.team).ctx))
  else known.any fun t => k.hits t.ctx t.page t.bytes

/-- Steps 2 to 4: TLB entries, L1 lines and record-cache entries. -/
def State.invalidate (st : State) (k : Covers) : State :=
  let cores := NMap.keys st.cores
  let st := st.drainFrees
  let st := { st with l1Tags := st.l1Tags.map fun e => (e.1, e.2.filter fun l => !st.lineWithin k e.1 l) }
  cores.foldl (fun s c => s.onCore c fun x => { x with
    tlb := x.tlb.filter fun e => !k.hits e.ctx e.page e.bytes
    records := x.records.filter fun r => !k.hits (s.team r.team).ctx r.va.toNat 192 }) st

/-- A copy that translated within the range is still out (step 5). -/
def State.copiesWithin (st : State) (k : Covers) : Bool :=
  st.groups.any fun e => e.2.flight.any fun o => !o.finished && (match o.work with
    | .copy _ _ _ _ rs => rs.any fun r => k.hits (st.team e.2.team).ctx r.1 r.2
    | _ => false)

/-- TLBINV vA, vL, #k. -/
def execTlbinv (l a : BitVec 6) (k : BitVec 2) (st : State) : Host.Outcome State Fault Refusal :=
  let rs := if k = 0 then [a.toNat, l.toNat] else []
  st.issue { runs := .supervisor, regs := rs } (infoWord (.tlbinv l a k)) fun e st =>
    let va := (e.scalar a.toNat).toNat
    let n := (e.scalar l.toNat).toNat
    match firstTrap [e.poisonTrap (rs.flatMap fun r => e.readLowest r),
        if k = 0 ∧ (va % 4096 ≠ 0 ∨ n % 4096 ≠ 0) then some (e.slotTrap 0x10) else none] with
    | some t => .trap t none
    | none =>
      if !st.handlerDone e then .wait st
      else
        let c : Covers := { ctx := if k = 2 then none else some e.who.ctx, range := if k = 0 then some (va, n) else none }
        let st := (st.drainHandler e.g.core e.gid).drainFrees
        if st.writesHeld c then .wait st
        else
          let st := st.invalidate c
          if st.copiesWithin c then .wait st else .next st

/-! ### MAPPG (R342) -/

/-- The lowest free identity of a size, if the space has room (R328). -/
def State.freeIdentity (st : State) (n : Nat) : Option Nat :=
  let starts := adobeBase :: st.adobes.map fun a => (a.base + a.bytes + n - 1) / n * n
  let free := starts.filter fun b => decide (b + n ≤ 2 * adobeBase) && st.adobes.all fun a => decide (b + n ≤ a.base) || decide (a.base + a.bytes ≤ b)
  match free with
  | [] => none
  | b :: rest => some (rest.foldl min b)

/-- Fields of an attribute word (R342). -/
def attrGood (w : Nat) : Bool := w / 2 ^ 57 == 0 && w / 128 % 32 == 0

/-- V and LEAF, with R, W, X, SUP and FB of an attribute word. -/
def attrBits (w : Nat) : Nat :=
  3 + w / 4 % 8 * 4 + (if w.testBit 5 then 2 ^ 9 else 0) + (if w.testBit 6 then 2 ^ 59 else 0)

/-- Clears V in the leaf of a page. -/
def State.clearLeaf (st : State) (addr : Nat) (cont : Bool) : State :=
  let clear (s : State) (x : Nat) : State := s.writeHome x (bytesOf (s.homeNum x 8 / 2 * 2) 8) false
  if cont then (List.range 16).foldl (fun s i => clear s (addr / 128 * 128 + 8 * i)) st else clear st addr

/-- The end of an adobe page: lines discarded, late frames freed, reservation and identity given up (R329 step 5). -/
def State.endAdobe (st : State) (pool base n : Nat) : State :=
  let st := ((List.range (n / 128)).map (base / 128 + ·)).foldl State.dropLine st
  let st := ((List.range (n / 65536)).map (base + 65536 * ·)).foldl (fun s c => match s.backing c with
    | some f => (s.setBacking c 0).giveFrame pool f
    | none => s) st
  { st with
    adobes := st.adobes.filter fun a => a.base != base
    unreserved := st.unreserved.filter fun l => !(decide (base ≤ 128 * l) && decide (128 * l < base + n)) }

/-- Kind 4 of MAPPG. -/
def State.unmapPage (st : State) (ctx root pool va : Nat) : State × Lane :=
  match st.walk root va with
  | .leaf addr level p =>
    if canonical va then
      let e := tlbOf ctx va level p
      let st := (st.clearLeaf addr (p.bit 5)).invalidate { ctx := some ctx, range := some (e.page, e.bytes) }
      (if p.bit 6 then st.endAdobe pool e.frame e.bytes else st, BitVec.ofNat 64 e.frame)
    else (st, BitVec.allOnes 64)
  | _ => (st, BitVec.allOnes 64)

/-- MAPPG and the host's MAP and UNMAP: the state after and the result (R342). A team's pool is the one it read at its placement (R274) (log 32). -/
def State.mapPage (st : State) (ctx root pool va kind attr : Nat) : State × Lane :=
  let no : State × Lane := (st, BitVec.allOnes 64)
  if kind = 4 then st.unmapPage ctx root pool va
  else if !canonical va then no
  else match st.walk root va with
    | .leaf _ _ _ => (st, 0)
    | .malformed => no
    | .missing _ =>
      match kind with
      | 0 => st.firstTouch root pool va
      | 1 =>
        let size := attr % 4
        let level := [0, 0, 1, 2].getD size 0
        let n := leafBytes level (size == 1)
        let f := attr / 4096 * 4096
        if !attrGood attr || attr.testBit 6 || f % n ≠ 0 || !(isHbm f || isHost f) then no
        else match st.leafPlace root va level (size == 1) with
          | some addr => (st.writeLeaf addr { level := level, cont := size == 1, frame := f, bits := attrBits attr }, BitVec.ofNat 64 f)
          | none => no
      | _ =>
        let level := if kind = 2 then 0 else 1
        let n := leafBytes level true
        if !attrGood attr || attr.testBit 4 then no
        else match st.leafPlace root va level (kind == 2), st.freeIdentity n with
          | some addr, some base =>
            let a : Adobe := { ctx := ctx, base := base, bytes := n, va := va / n * n }
            if st.mayReserve a.lines then
              (State.writeLeaf { st with adobes := st.adobes ++ [a] } addr
                { level := level, cont := kind == 2, frame := base, bits := attrBits attr + 0x40 }, BitVec.ofNat 64 base)
            else no
          | _, _ => no

/-- An UNMAP must wait for the copies that translated in its page, and for the lines of it that another team's pin holds (R341, R342). -/
def State.unmapHeld (st : State) (ctx root va : Nat) : Bool :=
  match st.walk root va with
  | .leaf _ level p => let e := tlbOf ctx va level p
    let k : Covers := { ctx := some ctx, range := some (e.page, e.bytes) }
    st.copiesWithin k || st.writesHeld k
  | _ => false

/-- The end of an adobe page meets a pinned line: of the pool, of the adobe backing table, or of the page (R356). -/
def State.adobeHeld (st : State) (team : Option Nat) (pool base n : Nat) : Bool :=
  st.poolHeld pool ||
    ((List.range (n / 65536)).any fun i => st.pinnedAgainst none (lineOf (st.adobeTable + 8 * ((base - adobeBase) / 65536 + i)))) ||
    (List.range (n / 128)).any fun i => st.pinnedAgainst team (base / 128 + i)

/-- A mapping, or an unmapping, meets a pinned line (R356): an entry of the walk, a line of the pool where a frame is taken, or what the end of an
adobe page reaches. -/
def State.mapHeld (st : State) (team : Option Nat) (ctx root pool va kind : Nat) : Bool :=
  st.walkHeld root va || (kind == 0 && st.poolHeld pool) || (kind == 4 && (st.unmapHeld ctx root va || (match st.walk root va with
    | .leaf _ level p => p.bit 6 && st.adobeHeld team pool (tlbOf ctx va level p).frame (tlbOf ctx va level p).bytes
    | _ => false)))

/-- MAPPG vD, vA, #k. Its writes are releases, so every access of the handler is performed first (R342, R345). -/
def execMappg (d a : BitVec 6) (k : BitVec 3) (st : State) : Host.Outcome State Fault Refusal :=
  st.issue { runs := .supervisor, regs := [d.toNat, a.toNat] } (infoWord (.mappg d a k)) fun e st =>
    let word := k = 1 ∨ k = 2 ∨ k = 3
    match e.poisonTrap ((if word then e.readLowest d.toNat else []) ++ e.readLowest a.toNat) with
    | some t => .trap t none
    | none =>
      let va := (e.scalar a.toNat).toNat
      if !st.handlerDone e || st.mapHeld (some e.g.team) e.who.ctx e.who.root e.who.pool va k.toNat then .wait st
      else
        let st := st.drainHandler e.g.core e.gid
        let (st, r) := st.mapPage e.who.ctx e.who.root e.who.pool va k.toNat (e.scalar d.toNat).toNat
        .next (st.writeCells e.g.core (e.laneWrites d.toNat none fun _ _ => r))

/-! ### Events -/

/-- The table that a walk for a context's programs on a core begins at: the one its team there read at its placement (R274), or where no team of
it is there the descriptor's (log 33). -/
def State.walkRoot (st : State) (core ctx : Nat) : Nat :=
  match st.teams.find? fun t => t.2.core == core && t.2.ctx == ctx && decide (t.2.life = .live ∨ t.2.life = .saving) with
  | some t => t.2.ptroot
  | none => st.contextRoot ctx

/-- PAGE_WALK (R326): a miss walks the table of its context, sets A and fills the core's share of the plot's TLB. -/
def execPageWalk (core ctx : Nat) (va : BitVec 64) (st : State) : Host.Outcome State Fault Refusal :=
  if canonical va.toNat && (st.tlbHit core ctx va.toNat).isNone && !st.walkHeld (st.walkRoot core ctx) va.toNat then .next (st.walkFill core ctx (st.walkRoot core ctx) va.toNat false)
  else .next st

/-- CONTEXT_TEARDOWN (R334): the context's adobe pages end as on unmap; a walk that meets a pinned line is tried again (R356). -/
def execContextTeardown (ctx : Nat) (st : State) : Host.Outcome State Fault Refusal :=
  if st.adobes.any fun a => a.ctx == ctx && (st.walkHeld (st.contextRoot ctx) a.va || st.unmapHeld ctx (st.contextRoot ctx) a.va ||
      st.adobeHeld none (st.contextPool ctx) a.base a.bytes) then .next st
  else .next ((st.adobes.filter fun a => a.ctx == ctx).foldl (fun s a =>
    match s.walk (s.contextRoot ctx) a.va with
    | .leaf _ level p => if p.bit 6 && canonical a.va && (tlbOf ctx a.va level p).frame == a.base then (s.unmapPage ctx (s.contextRoot ctx) (s.contextPool ctx) a.va).1 else s.endAdobe (s.contextPool ctx) a.base a.bytes
    | _ => s.endAdobe (s.contextPool ctx) a.base a.bytes) st)

end Sys2Proof.Machine
end

