-- ==== Sys2Proof/Machine/Copy.lean ====
section
/-! DEFINITION. The copy engine (R249 to R258): COPY, COPYH, GATHER, RECFENCE and COPY_COMPLETE. -/

namespace Sys2Proof.Machine

/-! ### Elements of a copy (R250, R253) -/

/-- Bytes of an element: a sand-block element is a whole record (R27, R250). -/
def copyBytes (sh : BitVec 512) : Nat :=
  let k := shElem sh
  if k < 18 then shBytes sh else if k < 21 then 17 else if k < 23 then 25 else 33

/-- Alignment of an element: its size, or 1 for sand blocks (R252 step 5). -/
def copyAlign (sh : BitVec 512) : Nat := if shSand sh then 1 else shBytes sh

/-- Every index below the extents of n dimensions from j on, i0 fastest. -/
def allIndices (sh : BitVec 512) : Nat → Nat → List (List Nat)
  | 0, _ => [[]]
  | n + 1, j => (allIndices sh n (j + 1)).flatMap fun rest => (List.range (shExt sh j)).map fun i => i :: rest

/-- An element before translation: source address or constant, and destination addresses. -/
structure Elem where
  src : Option Nat
  const : Lane := 0
  dsts : List Nat
  /-- the source, or the destination, does not start at a record boundary of its array (R29) -/
  srcOff : Bool := false
  dstOff : Bool := false
  deriving DecidableEq, Repr

/-- Addresses an element is written to: its own, or one for each rank of a multicast (R250). -/
def copyTargets (va dmask : Nat) : List Nat :=
  if dmask = 0 then [va] else ((List.range 12).filter fun r => dmask.testBit r).map fun r => (va + 2 ^ 32 * r) % 2 ^ 64

/-- An element of a sand-block shape starts at no record boundary of its array: the records of dimension 0 lie one record size apart, which is
what STR0 must hold for them (R29, R50; the model's reading, log 63). -/
def offRecord (sh : BitVec 512) (ix : List Nat) : Bool := shSand sh && ix.headD 0 != 0 && shStr sh 0 != (copyBytes sh : Int)

/-- Indices of a source element that lies in bounds: under PAD 3 the clamped ones (R250). -/
def clampIx (sh : BitVec 512) (ix : List Nat) : List Nat :=
  if shPad sh = 3 then (ix.zipIdx 0).map fun e => min e.1 (shExt sh e.2 - 1) else ix

/-- The elements a copy moves; a source element out of bounds under PAD 0 answers none. -/
def copyElems (s d : BitVec 512) (dmask : Nat) (rows : Option (List Nat)) : List (Option Elem) :=
  let q := shRank d - 1
  (allIndices d (shRank d) 0).filterMap fun ix =>
    let from' : Option (List Nat) := match rows with
      | none => some ix
      | some xs => (xs[ix.getD q 0]?).map fun x => ix.set q x
    match from' with
    | none => none
    | some jx =>
      let dsts := copyTargets (shAddress d ix) dmask
      match shElement s false (jx.map some) with
      | .inside va => some (some { src := some va, dsts := dsts, srcOff := offRecord s (clampIx s jx), dstOff := offRecord d ix })
      | .pattern v _ => some (some { src := none, const := BitVec.ofNat 64 v, dsts := dsts, dstOff := offRecord d ix })
      | .skip _ => none
      | .fault _ => some none

/-- Step 3: a source with PAD 0 does not cover the destination (R252, R253). -/
def copyUncovered (s d : BitVec 512) (rows : Option (List Nat)) : Bool :=
  let q := shRank d - 1
  shPad s == 0 && (((List.range (shRank d)).any fun k => (rows.isNone || k != q) && decide (shExt s k < shExt d k)) ||
    (match rows with
     | some xs => (xs.take (shExt d q)).any fun x => decide (shExt s q ≤ x)
     | none => false))

/-- First and last byte of a list of starts. -/
def spanOf (starts : List Nat) (n : Nat) : Option (Nat × Nat) :=
  match starts with
  | [] => none
  | a :: rest => some (rest.foldl min a, rest.foldl max a + n - 1)

/-- Step 4: the spans meet (R252). -/
def copyOverlaps (es : List Elem) (n : Nat) : Bool :=
  match spanOf (es.filterMap fun x => x.src) n, spanOf (es.flatMap fun x => x.dsts) n with
  | some a, some b => decide (a.1 ≤ b.2) && decide (b.1 ≤ a.2)
  | _, _ => false

/-! ### The checks (R252) -/

/-- What COPY, COPYH and GATHER are about: shapes, multicast mask, completion word, numbers in cr.tinfo, and a fault of the control part. -/
structure Request where
  src : BitVec 512
  dst : BitVec 512
  dmask : Nat := 0
  signal : Nat := 0
  srcNo : Nat
  dstNo : Nat
  ctlBad : Bool := false
  rows : Option (List Nat) := none
  deriving DecidableEq, Repr

/-- Step 2: the number of the failing operand, the source first. -/
def Request.shapeFault (r : Request) : Option Nat :=
  if shInvalid r.src then some r.srcNo
  else if shInvalid r.dst || shRank r.src != shRank r.dst || copyBytes r.src != copyBytes r.dst then some r.dstNo
  else if r.ctlBad then some 0x12
  else none

/-- A cause handed to a list of lanes. -/
def copyTrap (lanes : List Nat) (cause : Nat) (addr info : Lane) : Trap :=
  { cause := cause, lanes := maskOf lanes, addr := inLanes lanes addr, info := inLanes lanes info }

/-- A range that the copy translates: address, bytes, alignment, kind, and whether it starts off a record boundary (R29). -/
structure Reach where
  va : Nat
  n : Nat
  align : Nat
  kind : AccKind
  off : Bool := false
  deriving DecidableEq, Repr

/-- A range that the copy translates fails a check: the lowest code, and the address. -/
def State.reachFault (st : State) (who : Who) (r : Reach) : Option (Nat × Nat) :=
  lowestCode ((match st.checkRange who r.va r.n r.align r.kind with
    | .error x => [x]
    | .ok _ => []) ++ if r.off then [(0x10, r.va)] else [])

/-- Step 5: the failing check with the lowest code, then the lowest address. -/
def State.copyFault (st : State) (who : Who) (rs : List Reach) : Option (Nat × Nat × AccKind) :=
  let bad := rs.filterMap fun r => (st.reachFault who r).map fun x => (x.1, x.2, r.kind)
  match bad with
  | [] => none
  | b :: rest => some (rest.foldl (fun a b => if b.1 < a.1 ∨ (b.1 = a.1 ∧ b.2.1 < a.2.1) then b else a) b)

/-- Pieces of a range that has passed its checks. -/
def State.copyPlace (st : State) (who : Who) (r : Reach) : List (Nat × Nat) :=
  match st.checkRange who r.va r.n r.align r.kind with
  | .ok segs => segs
  | .error _ => []

/-- A team's pins go, after its writes have reached their homes (R356, R357). -/
def State.releasePins (st : State) (core team : Nat) : State :=
  let ws := (st.core core).l1.filter fun w => w.team == team
  (ws.foldl (fun s w => s.drainRange core w.place w.bytes.length) st).unpin team

/-- The elements of a request that are read or written. -/
def Request.elems (r : Request) : List Elem := (copyElems r.src r.dst r.dmask r.rows).filterMap id

/-- One element's bytes at an address. -/
def Request.at (r : Request) (k : AccKind) (off : Bool) (va : Nat) : Reach :=
  { va := va, n := copyBytes r.dst, align := copyAlign r.dst, kind := k, off := off }

/-- The completion word. -/
def Request.word (r : Request) : List Reach := if r.signal = 0 then [] else [{ va := r.signal, n := 8, align := 8, kind := .rmw }]

/-- Everything a copy translates (R252 step 5). -/
def Request.reach (r : Request) : List Reach :=
  r.elems.flatMap (fun x => x.src.toList.map (r.at .read x.srcOff) ++ x.dsts.map (r.at .write x.dstOff)) ++ r.word

/-- The moves of a request, translated. -/
def State.copyMoves (st : State) (who : Who) (r : Request) : List Move :=
  r.elems.map fun x =>
    { src := x.src.map fun va => { segs := st.copyPlace who (r.at .read false va), window := decide (onChip ≤ va) }, const := x.const
      dsts := x.dsts.map fun va => { segs := st.copyPlace who (r.at .write false va), window := decide (onChip ≤ va) }
      bytes := copyBytes r.dst }

/-- Place of the completion word, and whether it lies in an on-chip window. -/
def State.copySignal (st : State) (who : Who) (r : Request) : Option (Nat × Bool) :=
  (r.word.flatMap (st.copyPlace who)).head?.map fun p => (p.1, decide (onChip ≤ r.signal))

/-- Translation of the copy engine (R193). -/
def Env.engine (e : Env) : Who := { e.who with engine := true }

/-- Places of the writes of a copy to memory, which a versioned launch holds as version lines; those through on-chip windows it does not
(R258). -/
def copyWrites (moves : List Move) (signal : Option (Nat × Bool)) : List (Nat × Nat) :=
  (moves.flatMap fun m => (m.dsts.filter fun d => !d.window).flatMap fun d => d.segs) ++
    (signal.toList.filter fun s => !s.2).map fun s => (s.1, 8)

/-- Steps 2 to 6 and the issue of a copy. The bounds fault and version overflow concern no one lane's address, and the spec names none for
cr.taddr there: it is 0 in every lane handed (the model's choice, log 64). -/
def copyIssue (e : Env) (st : State) (handed : List Nat) (r : Request) : Verdict :=
  let who := e.engine
  match r.shapeFault with
  | some n => .trap (copyTrap handed 0x0C 0 (BitVec.ofNat 64 n)) none
  | none =>
    if copyUncovered r.src r.dst r.rows then .trap (copyTrap handed 0x0D 0 0) none
    else if copyOverlaps r.elems (copyBytes r.dst) then .trap (copyTrap handed 0x0C 0 0x13) none
    else match st.copyFault who r.reach with
      | some (c, va, k) => .trap (copyTrap handed c (BitVec.ofNat 64 va) (if c = 0x11 then kindCode k else 0)) none
      | none =>
        let moves := st.copyMoves who r
        let signal := st.copySignal who r
        let writes := copyWrites moves signal
        match e.overflowTrap st (handed.map fun l => (l, 0)) writes with
        | some t => .trap t none
        | none =>
          if 16 ≤ (st.core e.g.core).copies.length then .wait (st.memWait e)
          else if !e.room .cpy then .wait st
          else
            let st := (r.reach.foldl (fun s x => s.touchRange who x.va x.n x.kind) st).reserveVersions e.g writes
            let st := st.releasePins e.g.core e.g.team
            let (st, id) := st.launchOp e.gid .cpy e.src (.copy (e.hints.scope.getD 2) (e.hints.cache.getD 0) moves signal (r.reach.map fun x => (x.va, x.n)))
            .next (st.onCore e.g.core fun c => { c with copies := c.copies ++ [(e.gid, id)] })

/-! ### The record (R249, R254) -/

/-- A record as a request (R249, R252). -/
def recordRequest (b : BitVec 1536) (teams : Nat) (rows : Option (List Nat)) : Request :=
  let n := b.toNat
  let dst := BitVec.ofNat 512 (n / 2 ^ 512)
  let dmask := bitsOf n 1463 1452
  let base := shBase dst
  { src := BitVec.ofNat 512 n, dst := dst, dmask := dmask, signal := bitsOf n 1535 1472, srcNo := 0x10, dstNo := 0x11, rows := rows
    ctlBad := bitsOf n 1471 1464 != 1 || bitsOf n 1451 1024 != 0 || decide (2 ^ teams ≤ dmask) ||
      (dmask != 0 && !(decide (onChip + 2 ^ 38 ≤ base) && decide (base < onChip + 2 ^ 38 + 2 ^ 32))) }

/-- Puts a record at the head of a core's record cache of 16 (R254) (log 31). -/
def State.cacheRecord (st : State) (core : Nat) (r : CachedRecord) : State :=
  st.onCore core fun c => { c with records := (r :: c.records.filter fun x => !(x.team == r.team && x.va == r.va)).take 16 }

/-- An access of a group still has to reach bytes of some ranges (R146). -/
def Group.reaches (g : Group) (segs : List (Nat × Nat)) : Bool :=
  g.flight.any fun o => !o.finished && o.work.spans.any fun a => segs.any (meets a)

/-- Step 1 of R252, then the rest with the record; the cache changes only when the copy issues. -/
def copyRecord (e : Env) (st : State) (handed : List Nat) (va : Nat) (rows : Option (List Nat)) : Verdict :=
    let teams := (st.gang (st.team e.g.team).gang).map.length
    let go (r : CachedRecord) (held : Bool) (s : State) : Verdict :=
      match copyIssue e s handed (recordRequest r.record teams rows) with
      | .next s => if held then .wait st else .next (s.cacheRecord e.g.core r)
      | v => v
    match (st.core e.g.core).records.find? fun r => r.team == e.g.team && r.va.toNat == va with
    | some r => go r e.acquireHeld st
    | none => match st.checkRange e.who va 192 64 .read with
      | .error (c, a) => .trap (copyTrap handed c (BitVec.ofNat 64 a) (if c = 0x11 then kindCode .read else 0)) none
      | .ok segs =>
        if e.acquireHeld || e.g.reaches segs || segs.any (fun x => st.pinnedFrom e.g.team x.1 x.2) then .wait st
        else
          let bytes := segs.flatMap fun x => if onChip ≤ va then st.readHome x.1 x.2 else st.view e.g.core e.g.team x.1 x.2
          go { team := e.g.team, va := BitVec.ofNat 64 va, record := BitVec.ofNat 1536 (numOf bytes) } false (st.touchRange e.who va 192 .read)

/-- Hints of the copies (R251). -/
def copyAccepts : Accepts := { scope := true, cache := true }

/-- COPY [vR + off] (R252). -/
def execCopy (r : BitVec 6) (st : State) : Host.Outcome State Fault Refusal :=
  st.issue { runs := .program, accepts := { copyAccepts with offset := true }, regs := [r.toNat] } (infoWord (.copy r)) fun e st =>
    match firstTrap [e.poisonTrap (e.readLowest r.toNat), e.silentTrap [e.lowest] (e.pairDiffers r.toNat (BitVec.allOnes 64))] with
    | some t => .trap t none
    | none => copyRecord e st e.lanes (lowBits 64 (((e.scalar r.toNat).toNat : Int) + e.offset)) none

/-- COPYH hD, hS (R251). -/
def execCopyh (d s : BitVec 4) (st : State) : Host.Outcome State Fault Refusal :=
  st.issue { runs := .program, accepts := copyAccepts } (infoWord (.copyh d s)) fun e st =>
    match copyIssue e st e.lanes { src := e.g.shape s.toNat, dst := e.g.shape d.toNat, srcNo := s.toNat, dstNo := d.toNat } with
    | .next s => if e.acquireHeld then .wait st else .next s
    | v => v

/-- The indices of a GATHER (R253). -/
def Env.gatherRows (e : Env) (i p w : Nat) : List Nat :=
  e.lanes.flatMap fun l =>
    if w = 1 then (if (e.guard p 0 l).getLsbD 0 then [(e.val 0 i l).toNat] else [])
    else (activeSubs 32 (e.guard p 0 l)).map fun s => subOf 32 s (e.val 0 i l)

/-- GATHER [vR + off], vI, #w (R253). -/
def execGather (i r : BitVec 6) (p : BitVec 3) (w : BitVec 1) (st : State) : Host.Outcome State Fault Refusal :=
  st.issue { runs := .program, accepts := { copyAccepts with offset := true, neg := true }, guard := some p.toNat, regs := [i.toNat, r.toNat] }
      (infoWord (.gather i r p w)) fun e st =>
    let rows := e.gatherRows i.toNat p.toNat w.toNat
    let reads := if w = 1 then e.reads i.toNat (e.active p.toNat) else e.subReads i.toNat (some p.toNat) 32
    match firstTrap [e.poisonTrap (reads ++ e.readLowest r.toNat), e.silentTrap [e.lowest] (e.pairDiffers r.toNat (BitVec.allOnes 64))] with
    | some t => .trap t none
    | none =>
      let act := e.lanes.filter fun l => (if w = 1 then activeSubs 64 (e.guard p.toNat 0 l) else activeSubs 32 (e.guard p.toNat 0 l)) != []
      copyRecord e st (if act.isEmpty then e.lanes else act) (lowBits 64 (((e.scalar r.toNat).toNat : Int) + e.offset)) (some rows)

/-! ### RECFENCE (R255) -/

/-- Operations that RECFENCE waits for: ST, STR, ATOM, TST and ZST. -/
def Work.stores : Work → Bool
  | .store .. => true
  | .atomic .. => true
  | .matrix o => match o.ins with
    | .tst .. => true
    | .zst .. => true
    | _ => false
  | _ => false

/-- Teams whose entries a RECFENCE at a scope drops. -/
def State.fencedTeam (st : State) (team scope x : Nat) : Bool :=
  if scope < 2 then x == team
  else if scope = 2 then (st.team x).gang == (st.team team).gang
  else (st.team x).ctx == (st.team team).ctx

/-- RECFENCE.s [vR]. -/
def execRecfence (r : BitVec 6) (st : State) : Host.Outcome State Fault Refusal :=
  st.issue { runs := .program, accepts := { scope := true }, regs := [r.toNat] } (infoWord (.recfence r)) fun e st =>
    let va := e.scalar r.toNat
    let scope := e.hints.scope.getD 1
    match firstTrap [e.poisonTrap (e.readLowest r.toNat), if va.toNat % 64 ≠ 0 then some (copyTrap e.lanes 0x10 va 0) else none] with
    | some t => .trap t none
    | none =>
      if (e.g.flight.any fun o => o.work.stores && !o.finished) || (decide (2 ≤ scope) && !st.canDrain e.g.core) then .wait st
      else
        let st := if 2 ≤ scope then st.drainAll e.g.core else st
        .next ((NMap.keys st.cores).foldl (fun s c => s.onCore c fun x =>
          { x with records := x.records.filter fun y => !(y.va == va && s.fencedTeam e.g.team scope y.team) }) st)

/-! ### COPY_COMPLETE (R256) -/

/-- Writes bytes as an engine of a group, through an on-chip window or not: at the bank, in the version lines, or at the home, after the
earlier writes of its core to those bytes (R257, R258). -/
def State.engineWrite (st : State) (gid : Nat) (g : Group) (cache : Nat) (window : Bool) (place : Nat) (bytes : List Byte) (bad : Bool) : State :=
  st.writeAtHome gid g place bytes cache window bad

/-- A byte as an engine of a group reads it: at the bank or at the home, with the team's own versions. -/
def State.engineByte (st : State) (g : Group) (window : Bool) (place : Nat) : Byte :=
  if isChip place then st.chipByte place
  else if window then st.homeByte place
  else (st.versionByte g.team place).getD (st.homeByte place)

/-- Poison of the word of a byte so read. -/
def State.engineBad (st : State) (g : Group) (window : Bool) (place : Nat) : Bool :=
  if isChip place || window then st.homeBad place
  else match st.versions.find? fun v => v.team == g.team && v.line == lineOf place with
    | some v => NMap.get v.poison false (place % 128 / 8) ||
        (st.homeBad place && !((List.range 8).all fun i => (NMap.find v.bytes (place % 128 / 8 * 8 + i)).isSome))
    | none => st.homeBad place

/-- Places of pieces, byte by byte. -/
def bytePlaces (segs : List (Nat × Nat)) : List Nat := segs.flatMap fun x => spread x.1 x.2

/-- The home asks the core of a copy for the lines of an end, whose writes then reach it, and the access takes place there (R257, R317). -/
def State.engineReach (st : State) (gid : Nat) (g : Group) (cache : Nat) (x : End) : State :=
  x.segs.foldl (fun s p => (s.drainRange g.core p.1 p.2).install p.1 (s.accessOf gid g cache)) st

/-- An element read: each byte with the poison of its word. -/
def State.moveBytes (st : State) (g : Group) (m : Move) : List (Byte × Bool) :=
  match m.held, m.src with
  | some x, _ => x
  | none, some e => (bytePlaces e.segs).map fun p => (st.engineByte g e.window p, st.engineBad g e.window p)
  | none, none => (bytesOf m.const.toNat m.bytes).map fun b => (b, false)

/-- An element written to one of its places, word by word: a word written whole loses its poison mark, and a word takes the mark that
receives a byte of a poisoned word (R250, R321). -/
def State.moveWrite (st : State) (gid : Nat) (g : Group) (cache : Nat) (x : End) (bytes : List (Byte × Bool)) : State :=
  let cells := (bytePlaces x.segs).zip bytes
  ((cells.map fun c => c.1 / 8).dedup).foldl (fun s w =>
    let here := cells.filter fun c => c.1 / 8 == w
    s.engineWrite gid g cache x.window (here.headD (0, 0, false)).1 (here.map fun c => c.2.1) (here.any fun c => c.2.2)) st

/-- Lines that an end reaches are pinned to another team. -/
def State.endPinned (st : State) (g : Group) (x : End) : Bool := x.segs.any fun p => st.pinnedFrom g.team p.1 p.2

/-- The release side of a copy is done: every earlier store, atomic and ENQ of its group is performed at the scope (R256). -/
def State.copyReady (st : State) (g : Group) (op scope : Nat) : Bool :=
  (g.before op).all (fun o => o.finished || !(match o.work with
    | .enq .. => true
    | w => w.stores)) && (decide (scope < 2) || st.canDrain g.core)

/-- Two ends share a byte. -/
def End.meets (a b : End) : Bool := a.segs.any fun p => b.segs.any (Machine.meets p)

/-- One part of a copy: its i-th element that is left is read, or once read is written to the next of its places, after the earlier
elements that go there (R250, R256, R360). -/
def State.copyPart (st : State) (gid : Nat) (g : Group) (cache : Nat) (moves : List Move) (i : Nat) : State × List Move :=
  match moves[i]? with
  | none => (st, moves)
  | some m => match m.held, m.dsts with
    | none, _ =>
      if m.src.any (st.endPinned g) then (st, moves)
      else
        let st := match m.src with
          | some x => st.engineReach gid g cache x
          | none => st
        (st, moves.set i { m with held := some (st.moveBytes g m) })
    | some x, d :: rest =>
      if st.endPinned g d || ((moves.take i).any fun y => y.dsts.any d.meets) then (st, moves)
      else (st.moveWrite gid g cache d x, moves.set i { m with dsts := rest, did := d :: m.did })
    | some _, [] => (st, moves)

/-- The gang of a group is to be killed: its copies begin no further line (R267 step 2). -/
def State.killed (st : State) (g : Group) : Bool := (st.gang (st.team g.team).gang).kill.isSome

/-- What a copy that stops at its next line still writes: what is left of the lines that it has begun (R267 step 2). -/
def stopsAt (moves : List Move) : List Move :=
  let lines (x : End) : List Nat := (bytePlaces x.segs).map lineOf
  let begun := moves.flatMap fun m => m.did.flatMap lines
  (moves.map fun m => { m with dsts := m.dsts.filter fun d => (lines d).any begun.contains }).filter fun m => !m.dsts.isEmpty

/-- Performs one part of a copy, which is the oldest of its core and whose release side is done (R256, R354, R360). -/
def State.performCopy (st : State) (gid op i : Nat) : State :=
  match st.group? gid, st.work? gid op with
  | some g, some (.copy scope cache moves signal ranges) =>
    if (st.core g.core).copies.head? = some (gid, op) ∧ st.copyReady g op scope ∧ !st.killed g then
      let st := if scope < 2 then st else st.drainAll g.core
      let (st, moves) := st.copyPart gid g cache moves i
      st.onGroup gid fun g => g.onOp op fun _ => .copy scope cache moves signal ranges
    else st
  | _, _ => st

/-- A byte that a copy is to write: its value, its poison, and whether its place was reached through an on-chip window. -/
structure CopyByte where
  value : Byte
  bad : Bool
  window : Bool
  deriving DecidableEq, Repr

/-- The bytes that what is left of a copy writes, by place; a later element of one place stands. -/
def State.copyBytesOf (st : State) (g : Group) (moves : List Move) : NMap CopyByte :=
  moves.foldl (fun m v =>
    v.dsts.foldl (fun m d => ((bytePlaces d.segs).zip (st.moveBytes g v)).foldl (fun m e =>
      NMap.put m e.1 { value := e.2.1, bad := e.2.2, window := d.window }) m) m) []

/-- What is left of a copy: every element is read, then all are written together, word by word, so that a word that they cover whole loses
its poison mark (R250, R321; log 34). -/
def State.copyRest (st : State) (gid : Nat) (g : Group) (cache : Nat) (moves : List Move) : State :=
  let st := moves.foldl (fun s m => match m.held, m.src with
    | none, some x => s.engineReach gid g cache x
    | _, _ => s) st
  let m := st.copyBytesOf g moves
  ((NMap.keys m).map (· / 8)).dedup.foldl (fun s w =>
    let here := m.filter fun e => e.1 / 8 == w
    let bad := here.any fun e => e.2.bad
    let window := here.any fun e => e.2.window
    if here.length = 8 then s.engineWrite gid g cache window (8 * w) (here.map fun e => e.2.value) bad
    else here.foldl (fun s e => s.engineWrite gid g cache window e.1 [e.2.value] bad) s) st

/-- Increments the completion words of finished copies that neither another team's pin nor an atomic between its read and its write holds, as
releases at device scope (R149, R256). -/
def State.signalCopies (st : State) (core : Nat) : State :=
  let held (s : Signal) : Bool := st.pinnedFrom s.team s.place 8 || st.halfOn none (lineOf s.place)
  let ss := (st.core core).signals
  if ss.isEmpty || !st.canDrain core then st
  else ((ss.filter fun s => !held s).foldl (fun s x =>
    let g : Group := { team := x.team, core := core, versioned := st.groups.any fun e => e.2.team == x.team && e.2.versioned }
    let s := s.drainRange core x.place 8
    let n := numOf ((spread x.place 8).map (s.engineByte g x.window))
    s.engineWrite 0 g 0 x.window x.place (bytesOf (n + 1) 8) (s.engineBad g x.window x.place)) (st.drainAll core)).onCore core
      fun c => { c with signals := ss.filter held }

/-- COPY_COMPLETE (R256): the oldest copy of a core reads what is left of its sources, performs what is left of its writes at its scope, and
CPY falls; then its completion word is incremented. A copy of a gang that is to be killed only ends the lines it has begun (R267). -/
def execCopyComplete (core : Nat) (st : State) : Host.Outcome State Fault Refusal :=
  let st := st.signalCopies core
  match (st.core core).copies with
  | [] => .next st
  | (gid, op) :: rest => match st.group? gid, st.work? gid op with
    | some g, some (.copy scope cache moves signal ranges) =>
      let left := if st.killed g then stopsAt moves else moves
      if !st.copyReady g op scope || left.any (fun m => (m.held.isNone && m.src.any (st.endPinned g)) || m.dsts.any (st.endPinned g)) then .next st
      else if st.killed g then
        .next ((st.copyRest gid g cache left).onGroup gid fun g => g.onOp op fun _ => .copy scope cache [] signal ranges)
      else
        let st := if scope < 2 then st else st.drainAll core
        let st := (st.copyRest gid g cache moves).onGroup gid fun g => g.finish op
        let st := st.onCore core fun c => { c with
          copies := rest, signals := c.signals ++ signal.toList.map fun p => { team := g.team, place := p.1, window := p.2 } }
        .next (st.signalCopies core)
    | _, _ => .next (st.onCore core fun c => { c with copies := rest })

end Sys2Proof.Machine
end

