-- ==== Sys2Proof/Machine/Barrier.lean ====
section
/-! DEFINITION. Barrier objects (R259 to R264): BARINIT, ARRIVE, WAITB, BARSYNC, BARMASK and BARRIER_ARRIVAL. -/

namespace Sys2Proof.Machine

/-- An object of a gang. -/
def Gang.barrier (g : Gang) (n : Nat) : Barrier := NMap.get g.barriers {} n

/-- Changes an object of a gang and applies R260. -/
def State.onBarrier (st : State) (gang n : Nat) (f : Barrier → Barrier) : State :=
  st.onGang gang fun g => { g with barriers := NMap.put g.barriers n (f (g.barrier n)).pass }

/-- Gang of the issuing group. -/
def State.gangOf (st : State) (g : Group) : Nat := (st.team g.team).gang

/-- The object's number is refused (R259). -/
def State.objectTrap (st : State) (e : Env) (b : Nat) : Option Trap :=
  if (st.gang (st.gangOf e.g)).nb ≤ (e.scalar b).toNat then some (copyTrap e.lanes 0x12 (e.scalar b) 0) else none

/-- Members that the groups of a team are (R259). -/
def State.teamMembers (st : State) (team : Nat) : BitVec 384 :=
  (st.team team).groups.foldl (fun m gid => match st.group? gid with
    | some g => m ||| st.memberBit g
    | none => m) 0

/-- Members of a whole cluster. -/
def State.clusterMembers (st : State) (gang : Nat) : BitVec 384 := (st.gang gang).teams.foldl (fun m t => m ||| st.teamMembers t) 0

/-- A mask read from lanes 0 to 5 of a register (R262). -/
def Env.maskReg (e : Env) (m : Nat) : BitVec 384 :=
  (List.range 6).foldl (fun x l => x ||| BitVec.ofNat 384 ((e.val 0 m l).toNat * 2 ^ (64 * l))) 0

/-- BARINIT vB, vM, #k (R262) (log 47). -/
def execBarinit (m b : BitVec 6) (k : BitVec 2) (st : State) : Host.Outcome State Fault Refusal :=
  let ms := if k = 0 then [m.toNat] else []
  st.issue { runs := .program, regs := ms ++ [b.toNat] } (infoWord (.barinit m b k)) fun e st =>
    match firstTrap [e.poisonTrap (ms.flatMap (fun r => e.reads r (List.range 6)) ++ e.readLowest b.toNat), st.objectTrap e b.toNat] with
    | some t => .trap t none
    | none =>
      let gang := st.gangOf e.g
      let mask := if k = 0 then e.maskReg m.toNat else if k = 1 then st.teamMembers e.g.team else st.clusterMembers gang
      .next (st.onBarrier gang (e.scalar b.toNat).toNat fun x => { gen := x.gen + 1, arrived := 0, mask := mask })

/-- BARMASK vB, vM, #k (R262). -/
def execBarmask (m b : BitVec 6) (k : BitVec 2) (st : State) : Host.Outcome State Fault Refusal :=
  let ms := if k = 3 then [] else [m.toNat]
  st.issue { runs := .program, regs := ms ++ [b.toNat] } (infoWord (.barmask m b k)) fun e st =>
    match firstTrap [e.poisonTrap (ms.flatMap (fun r => e.reads r (List.range 6)) ++ e.readLowest b.toNat), st.objectTrap e b.toNat] with
    | some t => .trap t none
    | none =>
      let new := e.maskReg m.toNat
      .next (st.onBarrier (st.gangOf e.g) (e.scalar b.toNat).toNat fun x =>
        { x with mask := match k.toNat with
          | 0 => new
          | 1 => x.mask ||| new
          | 2 => x.mask &&& ~~~new
          | _ => x.mask &&& ~~~(st.memberBit e.g) })

/-- Hints of the arrival instructions (R261). -/
def barAccepts : Accepts := { scope := true, beyondGroup := true }

/-- What an arrival waits for has been performed at its scope, written or completed (R263). -/
def State.mayArrive (st : State) (g : Group) (scope : Nat) : Bool :=
  g.flight.all (fun o => o.finished || !(o.work.isAccess || (match o.work with
    | .matrix .. => true
    | .copy .. => true
    | _ => false))) && (decide (scope < 2) || st.canDrain g.core)

/-- Sends the arrival of a slot once what it waits for is done; the slot waits in every case. -/
def arriveAt (e : Env) (st : State) (b : Nat) (cells : List Nat) (sync : Bool) : Verdict :=
  let scope := e.hints.scope.getD 2
  if (e.g.arrivals.any fun a => a.src == e.src) || !st.mayArrive e.g scope then .wait st
  else
    let st := st.release e.g scope
    let st := if 2 ≤ scope then st.notIdempotent e.g.team else st
    .wait (st.onGroup e.gid fun g =>
      { g with arrivals := g.arrivals ++ [{ src := e.src, object := (e.scalar b).toNat, cells := cells, sync := sync }] })

/-- ARRIVE.s vT, vB (R263). -/
def execArrive (t b : BitVec 6) (st : State) : Host.Outcome State Fault Refusal :=
  st.issue { closes := .own, runs := .program, accepts := barAccepts, regs := [t.toNat, b.toNat] } (infoWord (.arrive t b)) fun e st =>
    match firstTrap [e.poisonTrap (e.readLowest b.toNat), st.objectTrap e b.toNat] with
    | some x => .trap x none
    | none => arriveAt e st b.toNat (e.cells.map fun c => e.cellOf c.1 t.toNat c.2) false

/-- The generation of an object has passed a token (R263). -/
def Barrier.passed (x : Barrier) (t : BitVec 32) : Bool := let d := (x.gen - t).toNat
  decide (1 ≤ d) && decide (d < 2 ^ 31)

/-- The waiting part of WAITB and BARSYNC. -/
def waitAt (e : Env) (st : State) (b : Nat) (t : BitVec 32) : Verdict :=
  if ((st.gang (st.gangOf e.g)).barrier (e.scalar b).toNat).passed t then
    .next (st.onGroup e.gid fun g => { g with token := NMap.del g.token (srcCode (some e.src)) })
  else .wait st

/-- WAITB.s vB, vT (R263). -/
def execWaitb (t b : BitVec 6) (st : State) : Host.Outcome State Fault Refusal :=
  st.issue { closes := .own, runs := .program, accepts := barAccepts, regs := [t.toNat, b.toNat], barrier := true } (infoWord (.waitb t b)) fun e st =>
    match firstTrap [e.poisonTrap (e.readLowest t.toNat 1 ++ e.readLowest b.toNat), st.objectTrap e b.toNat] with
    | some x => .trap x none
    | none => waitAt e st b.toNat ((e.scalar t.toNat).setWidth 32)

/-- BARSYNC.s vB (R263). -/
def execBarsync (b : BitVec 6) (st : State) : Host.Outcome State Fault Refusal :=
  st.issue { closes := .own, runs := .program, accepts := barAccepts, regs := [b.toNat], barrier := true } (infoWord (.barsync b)) fun e st =>
    match firstTrap [e.poisonTrap (e.readLowest b.toNat), st.objectTrap e b.toNat] with
    | some x => .trap x none
    | none => match NMap.find e.g.token (srcCode (some e.src)) with
      | some t => waitAt e st b.toNat (BitVec.ofNat 32 t)
      | none => arriveAt e st b.toNat [] true

/-- An arrival may count now: the group is no member, or its bit is clear (R263). The spec has an arrival at a set bit wait until GEN changes;
one whose group BARMASK takes out of MASK meanwhile goes on at once as a non-member's does (the model's choice, log 70). -/
def Barrier.counts (x : Barrier) (bit : BitVec 384) : Bool := (x.mask &&& bit) == 0 || (x.arrived &&& bit) == 0

/-- The slot of an arrival goes on: ARRIVE is done, and BARSYNC waits for its generation. A token for a register whose granule has been
spilled meanwhile is written once the granule is in the file again (R45, R263). -/
def State.finishArrival (st : State) (gid : Nat) (a : Arrival) (gen : BitVec 32) : State :=
  let st := st.onGroup gid fun g => { g with
    arrivals := g.arrivals.filter fun x => x.src != a.src
    token := if a.sync then NMap.put g.token (srcCode (some a.src)) gen.toNat else g.token }
  if a.sync then st
  else match st.group? gid with
    | none => st
    | some g =>
      let ws : List CellWrite := a.cells.map fun c => { cell := c, bits := BitVec.allOnes 64, value := gen.setWidth 64 }
      let here (w : CellWrite) : Bool := decide (w.cell < 65536)
      let late := ws.filter fun w => !here w
      let st := (st.onCore g.core fun k => k.writeAll (ws.filter here)).onGroup gid fun g =>
        if late.isEmpty then g
        else { g with defers := g.defers ++ [{ op := 0, src := a.src, left := 0, regs := (late.map fun w => w.cell / 32).dedup, writes := some late }] }
      match st.envAt gid a.src with
      | some e => st.retire e
      | none => st.onGroup gid fun g => let s := g.slot a.src
        g.setSlot a.src { s with pc := s.pc + 4, hints := [], atBarrier := false }

/-- Some arrival of a group may count now. -/
def State.arrivalDue (st : State) (g : Group) : Bool :=
  g.arrivals.any fun a => ((st.gang (st.gangOf g)).barrier a.object).counts (st.memberBit g)

/-- BARRIER_ARRIVAL (R260, R263): the group's oldest arrival that may count reaches its object. -/
def execBarrierArrival (gid : Nat) (st : State) : Host.Outcome State Fault Refusal :=
  match st.group? gid with
  | none => .next st
  | some g =>
    let gang := st.gangOf g
    let bit := st.memberBit g
    match g.arrivals.find? fun a => ((st.gang gang).barrier a.object).counts bit with
    | none => .next st
    | some a =>
      let x := (st.gang gang).barrier a.object
      let st := if (x.mask &&& bit) = 0 then st else st.onBarrier gang a.object fun x => { x with arrived := x.arrived ||| bit }
      .next ((st.finishArrival gid a x.gen).pops gid)

end Sys2Proof.Machine
end

