-- ==== Sys2Proof/Machine/Balance.lean ====
section
/-! DEFINITION. The stack pair (R196 to R204): the BAL class (R234 to R236) and its events. -/

namespace Sys2Proof.Machine

/-- Form of the BAL class (R234). -/
def balForm (p : Nat) (regs : List Nat) : Form := { runs := .program, accepts := { neg := true }, guard := some p, regs := regs }

/-- The lowest active lane's value, if there is an active lane. -/
def Env.lowestActive (e : Env) (p s : Nat) : Option Lane := ((e.active p).head?).map fun l => e.val 0 s l

/-- Poison of the lowest active lane's value (R235, R236). -/
def Env.balPoison (e : Env) (p s : Nat) : Option Trap := e.poisonTrap (e.reads s ((e.active p).take 1))

/-- A BAL instruction that sets something from the lowest active lane. -/
def balSet (i : Instr) (p s : Nat) (f : Env → Nat → State → State) (st : State) : Host.Outcome State Fault Refusal :=
  st.issue (balForm p [s]) (infoWord i) fun e st =>
    match e.balPoison p s with
    | some t => .trap t none
    | none => .next (match e.lowestActive p s with
      | some v => f e v.toNat st
      | none => st)

/-- BURN vS (R235). -/
def execBurn (s : BitVec 6) (p : BitVec 3) (st : State) : Host.Outcome State Fault Refusal :=
  balSet (.burn s p) p.toNat s.toNat (fun e v st => st.onGroup e.gid fun g => { g with burn := min 255 v }) st

/-- SHUNT vS (R235). -/
def execShunt (s : BitVec 6) (p : BitVec 3) (st : State) : Host.Outcome State Fault Refusal :=
  balSet (.shunt s p) p.toNat s.toNat (fun e v st => st.onGroup e.gid fun g => { g with shunt := min 255 v }) st

/-- BALRD vD (R236). -/
def execBalrd (d : BitVec 6) (p : BitVec 3) (st : State) : Host.Outcome State Fault Refusal :=
  st.issue (balForm p.toNat [d.toNat]) (infoWord (.balrd d p)) fun e st =>
    .next (st.writeCells e.g.core (e.laneWrites d.toNat (some p.toNat) fun _ _ => st.balWord e.g.core))

/-- BALCLASS vS (R236). -/
def execBalclass (s : BitVec 6) (p : BitVec 3) (st : State) : Host.Outcome State Fault Refusal :=
  balSet (.balclass s p) p.toNat s.toNat (fun e v st =>
    if v < 4 then st.onTeam e.g.team fun t => { t with balClass := BitVec.ofNat 2 v } else st) st

/-! ### Events -/

/-- LIVE groups of a core. -/
def State.liveGroups (st : State) (core : Nat) : List (Nat × Group) := st.groups.filter fun e => e.2.core == core && e.2.life == .live

/-- MODE 3 of cr.laneremap: the core is offline (R187, R189). -/
def Core.mode3 (c : Core) : Bool := c.laneremap.toNat / 2 ^ 62 == 3

/-- A program slot of a group is STALLED in WAITB or BARSYNC; a slot stays so while its group is STOPPED (R36, R197, R263). -/
def Group.atBarrier (g : Group) : Bool :=
  (g.life == .live || g.life == .stopped) && ((g.a.life == .stalled && g.a.atBarrier) || (g.b.life == .stalled && g.b.atBarrier))

/-- Auto-burn is engaged (R197); a vacated core counts as long as it stays empty (R201). -/
def State.engaged (st : State) (core : Nat) : Bool :=
  let live := st.liveGroups core
  (st.core core).mode3 || ((st.core core).vacated && live.isEmpty) || live.isEmpty || st.groups.any (fun e => e.2.core == core && e.2.preempt) ||
    st.groups.any fun e => e.2.core == core && decide ((st.team e.2.team).balClass.toNat < 2) && e.2.atBarrier

/-- The burn level of a core (R197). -/
def Core.burnLevel (c : Core) : Nat := max c.aburn c.eburn

/-- ESTIMATE_WINDOW_END (R196, R197, R235): the window of 64 executed cycles is over. The burn and shunt requests of a group count while it is
LIVE and until it stops for pre-emption (R57, R235, R237). -/
def execEstimateWindowEnd (core : Nat) (st : State) : Host.Outcome State Fault Refusal :=
  if (st.core core).window < 64 then .next st else
  let live := st.liveGroups core
  let own := min 255 (4 * live.length + 2 * (st.core core).act / 5)
  let largest (f : Group → Nat) : Nat := (live.filter fun e => !e.2.preempt).foldl (fun m e => max m (f e.2)) 0
  let engaged := st.engaged core
  let st := st.onCore core fun c => { c with
    ownest := own
    aburn := if engaged then c.mateest - own else 0
    eburn := largest fun g => g.burn
    shuntlvl := largest fun g => g.shunt
    act := c.actNext
    actNext := 0
    window := c.window - 64 }
  .next (st.onCore (mateOf core) fun c => { c with mateest := own })

/-- One sample of a core of a pair, in units of 0.25 mV: DEV, the count of calm samples, OVER, and the throttle of the heavier
core at 20 mV (R199, R203, R204). -/
def Core.sampled (c : Core) (dev : BitVec 16) : Core :=
  let size := dev.toInt.natAbs
  { c with
    dev := dev
    calm := if size < 60 then c.calm + 1 else 0
    overs := if 160 ≤ size then min 200 (c.overs + 1) else 0
    throttled := c.throttled || decide (80 ≤ dev.toInt) }

/-- The throttle ends after 100 consecutive samples below 15 mV (R199). -/
def Core.released (c : Core) : Core := if 100 ≤ c.calm then { c with throttled := false } else c

/-- THROTTLE_RELEASE (R199). -/
def execThrottleRelease (core : Nat) (st : State) : Host.Outcome State Fault Refusal := .next (st.onCore core Core.released)

/-- The program slot that issues next by R36: a READY or STALLED one, the less recently issued first, then slot A. -/
def Group.turn (g : Group) : Source :=
  let able (s : Slot) : Bool := s.life == .ready || s.life == .stalled
  if able g.a && able g.b then (if g.b.issued < g.a.issued then .slotB else .slotA)
  else if able g.b then .slotB
  else if able g.a then .slotA
  else if g.a.life = .empty then .slotB
  else .slotA

/-- A group whose imbalance cause may take effect: LIVE, at an instruction boundary, not stopping for pre-emption (R200, R263). -/
def Group.boundary (g : Group) : Bool := g.life == .live && !g.preempt && g.arrivals.isEmpty

/-- The imbalance cause takes effect (R200): SRC 3, every live lane, and the first instruction not issued. -/
def State.takeImbalance (st : State) (gid : Nat) : State :=
  match st.group? gid with
  | none => st
  | some g =>
    if g.imbalance && g.boundary then
      let s := g.slot g.turn
      (st.setGroup gid { g with imbalance := false }).takeStop gid none { cause := 0x30, lanes := g.liveLanes } s.resumePc s.resumePc (!s.hints.isEmpty)
    else st

/-- Fields that the record of an imbalance trap takes from the core's groups: those of the stop of the lowest core group number among the groups
that the trap has just stopped; where it has stopped none, the core and the cause alone (R380; the model's choice, log 68). -/
def State.imbalanceFields (st : State) (core : Nat) (gids : List Nat) : List (Nat × Nat) :=
  let stopped := (gids.filterMap st.group?).filter fun g => !g.imbalance
  match stopped with
  | [] => [(16, core), (24, 0x03000030)]
  | g :: rest =>
    let g := rest.foldl (fun a b => if b.number < a.number then b else a) g
    st.faultFields { g with trap := match g.stop with
      | some s => s.record
      | none => g.trap }

/-- One core of a pair at an imbalance trap: its LIVE groups stop, a group in its handler takes the cause afterwards, and a record is sent. Both
cores' cr.bal are read once this core's groups have stopped (the model's choice, log 68). -/
def State.imbalanceOf (st : State) (core : Nat) : State :=
  let due (g : Group) : Bool := g.core == core && ((g.life == .live && !g.preempt) || (g.life == .stopped && g.stage == .inHandler))
  let gids := (st.groups.filter fun e => due e.2).map fun e => e.1
  let st := gids.foldl (fun s gid => (s.onGroup gid fun g => { g with imbalance := true }).takeImbalance gid) st
  (st.onCore core fun c => { c with overs := 0, traps := min 0xFFFF (c.traps + 1) }).sendUnit 0x13
    (st.imbalanceFields core gids ++ [(72, (st.balWord core).toNat), (80, (st.balWord (mateOf core)).toNat)])

/-- The imbalance trap of a pair, once a deviation of 40 mV or more has held for 200 consecutive samples (R200). -/
def State.pairTrap (st : State) (upper : Nat) : State :=
  if 200 ≤ (st.core upper).overs then (st.imbalanceOf upper).imbalanceOf (mateOf upper) else st

/-- IMBALANCE_TRAP (R200): 40 mV or more at 200 consecutive samples stops every LIVE group of both cores. -/
def execImbalanceTrap (upper : Nat) (st : State) : Host.Outcome State Fault Refusal := .next (st.pairTrap upper)

/-- MIDPOINT_SAMPLE (R199, R200): the deviation as the upper core's DEV shows it; the lower core sees its negative. What the samples before have
made due, the end of a throttle or the trap of the pair, comes first. -/
def execMidpointSample (upper : Nat) (dev : BitVec 16) (st : State) : Host.Outcome State Fault Refusal :=
  let st := ((st.onCore upper Core.released).onCore (mateOf upper) Core.released).pairTrap upper
  .next ((st.onCore upper fun c => c.sampled dev).onCore (mateOf upper) fun c => c.sampled (-dev))

end Sys2Proof.Machine
end

