-- ==== Sys2Proof/Machine/Tile.lean ====
section
/-! DEFINITION. Tiles and accumulator tiles (R206 to R212), what the matrix-side instructions share (R209 to R211), and the TILE
class: TCFG, TLD, TST, TZERO, TTRANS (R213 to R215). -/

namespace Sys2Proof.Machine

/-! ### Configuration (R208) -/

/-- EW of a configuration word. -/
def cfgEw (c : Lane) : Nat := bitsOf c.toNat 18 16
/-- COLS. -/
def cfgCols (c : Lane) : Nat := bitsOf c.toNat 15 8
/-- ROWS. -/
def cfgRows (c : Lane) : Nat := bitsOf c.toNat 6 0
/-- STRIDE. -/
def cfgStride (c : Lane) : Int := signedOf 32 (bitsOf c.toNat 63 32)
/-- Bytes of an element or record. -/
def cfgBytes (c : Lane) : Nat := [1, 2, 4, 8, 17, 25, 33, 0].getD (cfgEw c) 0
/-- RB: bytes of a row. -/
def cfgRow (c : Lane) : Nat := cfgCols c * cfgBytes c
/-- A valid configuration. -/
def cfgValid (c : Lane) : Bool :=
  cfgEw c != 7 && decide (1 ≤ cfgRows c) && decide (cfgRows c ≤ 64) && cfgCols c != 0 && decide (cfgRow c ≤ 128) &&
    bitsOf c.toNat 31 19 == 0 && bitsOf c.toNat 7 7 == 0

/-! ### The tile file and the accumulator memory (R206, R207, R212) -/

/-- Configuration of a group's tile. -/
def Env.cfg (e : Env) (t : Nat) : Lane := NMap.get e.core.tileCfg 0 (e.g.tile0 + t)
/-- Configuration of a group's tile. -/
def Group.cfg (g : Group) (c : Core) (t : Nat) : Lane := NMap.get c.tileCfg 0 (g.tile0 + t)
/-- First byte of row r of a group's tile (R193). -/
def Group.tilePlace (g : Group) (t r : Nat) : Nat := chipPlace g.core (0x200000 + 8192 * (g.tile0 + t) + 128 * r)
/-- First byte of a group's accumulator tile (R193). -/
def Group.accPlace (g : Group) (k : Nat) : Nat := chipPlace g.core (0x400000 + 16384 * (g.acc0 + k))
/-- Kind of the slot that a group's zk names (R207). -/
def Group.accKind (g : Group) (c : Core) (k : Nat) : Nat := NMap.get c.accKind 0 (g.acc0 + k)
/-- Place of element (i, j) of an accumulator tile of a kind. -/
def Group.elemPlace (g : Group) (k kind i j : Nat) : Nat :=
  let n := if kind = 2 then 16 else 4
  g.accPlace k + n * (64 * i + j)

/-- A byte of on-chip memory with the poison of its word. -/
def State.chipCell (st : State) (place : Nat) : Byte × Bool := (st.homeByte place, st.homeBad place)

/-- Splits a run of bytes at the boundaries of 64-bit words. -/
def wordRuns : Nat → Nat → List (Byte × Bool) → List (Nat × List (Byte × Bool))
  | 0, _, _ => []
  | _ + 1, _, [] => []
  | fuel + 1, place, b :: bs =>
    let n := 8 - place % 8
    (place, (b :: bs).take n) :: wordRuns fuel (place + n) ((b :: bs).drop n)

/-- Writes a run of bytes word by word, each word poisoned where a byte of it is (R212). -/
def State.putRun (st : State) (put : State → Nat → List Byte → Bool → State) (place : Nat) (bs : List (Byte × Bool)) : State :=
  (wordRuns bs.length place bs).foldl (fun s w => put s w.1 (w.2.map fun (b : Byte × Bool) => b.1) (w.2.any fun b => b.2)) st

/-- Writes a run of bytes of on-chip memory. -/
def State.putChip (st : State) (place : Nat) (bs : List (Byte × Bool)) : State := st.putRun State.writeHome place bs

/-- A run of clean bytes. -/
def clean (bs : List Byte) : List (Byte × Bool) := bs.map fun b => (b, false)

/-- Row r of a group's tile, n bytes from column byte c. -/
def State.tileRun (st : State) (g : Group) (t r c n : Nat) : List (Byte × Bool) := (spread (g.tilePlace t r + c) n).map st.chipCell

/-- Number that a run of bytes holds. -/
def runNum (bs : List (Byte × Bool)) : Nat := numOf (bs.map fun b => b.1)

/-- Poison in a run. -/
def runBad (bs : List (Byte × Bool)) : Bool := bs.any fun b => b.2

/-! ### Checks at issue (R206, R209, R210) -/

/-- Tile names inside the allotment. -/
def Env.tileNames (e : Env) (ts : List Nat) : Bool := ts.all fun t => decide (t < e.g.tiles)
/-- An accumulator name inside the allotment. -/
def Env.accNames (e : Env) (k : Nat) : Bool := decide (k < e.g.accs)
/-- The illegal-register fault over the slot. -/
def Env.nameTrap (e : Env) (ok : Bool) : Option Trap := if ok then none else some (e.slotTrap 0x03)
/-- The shape fault with the lowest of the codes that fail. -/
def Env.shapeTrap (e : Env) (codes : List (Bool × Nat)) : Option Trap :=
  match (codes.filter fun c => c.1).map fun (c : Bool × Nat) => c.2 with
  | [] => none
  | c :: rest => some (e.slotTrap 0x0C (BitVec.ofNat 64 (rest.foldl min c)))
/-- A tile's configuration is invalid. -/
def Env.badTile (e : Env) (t : Nat) : Bool × Nat := (!cfgValid (e.cfg t), 0x100 + t)

/-- Tiles that an operation reads (R211). -/
def tilesRead : Instr → List Nat
  | .tst t _ => [t.toNat]
  | .ttrans _ s => [s.toNat]
  | .mma _ _ a b => [a.toNat, b.toNat]
  | .mmaExact _ _ a b => [a.toNat, b.toNat]
  | .mmaSb _ _ a b => [a.toNat, b.toNat]
  | .mmaWide _ _ a b => [a.toNat, b.toNat]
  | _ => []

/-- Tiles that an operation writes. -/
def tilesWritten : Instr → List Nat
  | .tld t _ => [t.toNat]
  | .tzero t => [t.toNat]
  | .ttrans d _ => [d.toNat]
  | .zrd _ _ d => [d.toNat]
  | _ => []

/-- Operations of a group on their way through the matrix unit, oldest first: instruction and whether it has begun. -/
def Group.matrixOps (g : Group) : List (Instr × Bool) := g.flight.filterMap fun o =>
  match o.work with
  | .matrix u => if o.finished then none else some (u.ins, u.started)
  | _ => none

/-- A TILE or MMA instruction: one that finds 16 operations in the unit stalls its slot before anything else (R211). -/
def unitIssue (i : Instr) (f : Form) (run : Env → State → Verdict) (st : State) : Host.Outcome State Fault Refusal :=
  st.issue { f with unit := true } (infoWord i) run

/-- Issues an operation to the matrix unit. -/
def State.toUnit (st : State) (e : Env) (p : Path) (u : UnitOp) : State :=
  let (st, id) := st.launchOp e.gid p e.src (.matrix u)
  st.onCore e.g.core fun c => { c with matrix := c.matrix ++ [(e.gid, id)] }

/-- The memory side of TLD, TST, ZLD and ZST: the checks of R140 over the ranges and the issue. None of them is admitted to a physical
scratch window or a rank window (R193, R243). -/
def memoryOp (e : Env) (st : State) (i : Instr) (write : Bool) (kind : Nat) (ranges : List Reach) (after : State → State) : Verdict :=
  let who : Who := { e.who with unlisted := true }
  match st.copyFault who ranges with
  | some (c, va, k) => .trap (copyTrap e.lanes c (BitVec.ofNat 64 va) (if c = 0x11 then kindCode k else 0)) none
  | none =>
    let segs := ranges.flatMap (st.copyPlace who)
    match if write then e.overflowTrap st (e.lanes.map fun l => (l, (ranges.headD { va := 0, n := 0, align := 1, kind := .write }).va)) segs else none with
    | some t => .trap t none
    | none =>
      if !e.room (if write then .st else .ld) || e.acquireHeld then .wait st
      else
        let st := ranges.foldl (fun s x => s.touchRange e.who x.va x.n x.kind) st
        let st := if write then st.reserveVersions e.g segs else st
        .next (after (st.toUnit e (if write then .st else .ld) { ins := i, mode := e.hints.cache.getD 0, kind := kind, segs := segs }))

/-- Address of a matrix-side access: v(B) of the lowest lane and the offset. -/
def Env.unitAddress (e : Env) (b : Nat) : Nat := lowBits 64 (((e.scalar b).toNat : Int) + e.offset)

/-- Rows of a tile as ranges (R214). -/
def tileRows (c : Lane) (a : Nat) (k : AccKind) : List Reach :=
  (List.range (cfgRows c)).map fun (r : Nat) =>
    { va := lowBits 64 ((a : Int) + r * cfgStride c), n := cfgRow c, align := if cfgEw c < 4 then cfgBytes c else 1, kind := k }

/-! ### Instructions -/

/-- TCFG tT, vS (R208, R213): waits until no earlier operation of the group needs the old configuration (R211). -/
def execTcfg (t : BitVec 3) (s : BitVec 6) (st : State) : Host.Outcome State Fault Refusal :=
  unitIssue (.tcfg t s) { runs := .program, regs := [s.toNat] } (fun e st =>
    match firstTrap [e.nameTrap (e.tileNames [t.toNat]), e.poisonTrap (e.readLowest s.toNat)] with
    | some x => .trap x none
    | none =>
      if e.g.matrixOps.any fun o => !o.2 && (tilesRead o.1 ++ tilesWritten o.1).contains t.toNat then .wait st
      else .next (st.onCore e.g.core fun c => { c with tileCfg := NMap.store c.tileCfg 0 (e.g.tile0 + t.toNat) (e.scalar s.toNat) })) st

/-- TLD and TST once their operands are known (R214). -/
def tileMove (i : Instr) (t b : Nat) (write : Bool) (st : State) : Host.Outcome State Fault Refusal :=
  unitIssue i { runs := .program, accepts := { offset := true, cache := true }, regs := [b] } (fun e st =>
    match firstTrap [e.nameTrap (e.tileNames [t]), e.poisonTrap (e.readLowest b), e.silentTrap [e.lowest] (e.pairDiffers b (BitVec.allOnes 64)),
        e.shapeTrap [e.badTile t]] with
    | some x => .trap x none
    | none => memoryOp e st i write 0 (tileRows (e.cfg t) (e.unitAddress b) (if write then .write else .read)) id) st

/-- TLD tT, [vB + off]. -/
def execTld (t : BitVec 3) (b : BitVec 6) (st : State) : Host.Outcome State Fault Refusal := tileMove (.tld t b) t.toNat b.toNat false st

/-- TST [vB + off], tT. -/
def execTst (t : BitVec 3) (b : BitVec 6) (st : State) : Host.Outcome State Fault Refusal := tileMove (.tst t b) t.toNat b.toNat true st

/-- TZERO tT (R215). -/
def execTzero (t : BitVec 3) (st : State) : Host.Outcome State Fault Refusal :=
  unitIssue (.tzero t) { runs := .program } (fun e st =>
    match firstTrap [e.nameTrap (e.tileNames [t.toNat]), e.shapeTrap [e.badTile t.toNat]] with
    | some x => .trap x none
    | none => if !e.room .mma then .wait st else .next (st.toUnit e .mma { ins := .tzero t })) st

/-- TTRANS tD, tS (R215). -/
def execTtrans (d s : BitVec 3) (st : State) : Host.Outcome State Fault Refusal :=
  unitIssue (.ttrans d s) { runs := .program } (fun e st =>
    let cd := e.cfg d.toNat
    let cs := e.cfg s.toNat
    let fits := decide (cfgEw cd < 4) && cfgEw cd == cfgEw cs && cfgRows cd == cfgCols cs && cfgCols cd == cfgRows cs
    match firstTrap [e.nameTrap (e.tileNames [d.toNat, s.toNat]),
        e.shapeTrap [e.badTile d.toNat, e.badTile s.toNat, (!(cfgValid cs && fits), 0x100 + d.toNat)]] with
    | some x => .trap x none
    | none => if !e.room .mma then .wait st else .next (st.toUnit e .mma { ins := .ttrans d s })) st

/-! ### What the operations do when they begin -/

/-- Bytes of a piece of memory as a group reads them, each with the poison of its word. -/
def State.pieceCells (st : State) (g : Group) (x : Nat × Nat) : List (Byte × Bool) :=
  (spread x.1 x.2).map fun p => (st.viewByte g.core g.team p, st.viewBad g.core g.team p)

/-- The lines of a piece of memory are reached through the L1. -/
def State.pieceReach (st : State) (gid : Nat) (g : Group) (policy : Nat) (x : Nat × Nat) : State :=
  ((spread x.1 x.2).map lineOf).dedup.foldl (fun s l => s.readIn gid g (128 * l) policy) st

/-- The memory of a TLD or ZLD: what has been read, and what is read now (R214, R226, R354). -/
def State.unitCells (st : State) (g : Group) (u : UnitOp) : List (Byte × Bool) :=
  (u.segs.zipIdx 0).flatMap fun x => (NMap.find u.got x.2).getD (st.pieceCells g x.1)

/-- The lines that an operation has still to read are reached. -/
def State.unitReach (st : State) (gid : Nat) (g : Group) (u : UnitOp) : State := u.spans.foldl (fun s x => s.pieceReach gid g u.mode x) st

/-- TLD: rows from memory (R214). -/
def State.runTld (st : State) (g : Group) (t : Nat) (cells : List (Byte × Bool)) : State :=
  let c := g.cfg (st.core g.core) t
  (List.range (cfgRows c)).foldl (fun s r => s.putChip (g.tilePlace t r) ((cells.drop (cfgRow c * r)).take (cfgRow c))) st

/-- What a TST or ZST has to write: the bytes given, in order over the pieces, cut at the boundaries of 64-bit words. -/
def unitWrites : List (Nat × Nat) → List (Byte × Bool) → List UnitWrite
  | [], _ => []
  | (place, n) :: rest, bs => ((wordRuns n place (bs.take n)).map fun w =>
      { place := w.1, bytes := w.2.map fun (b : Byte × Bool) => b.1, bad := w.2.any fun b => b.2 }) ++ unitWrites rest (bs.drop n)

/-- Rows of a tile as a TST reads them, ascending (R214). -/
def State.tileCells (st : State) (g : Group) (t : Nat) : List (Byte × Bool) :=
  let c := g.cfg (st.core g.core) t
  (List.range (cfgRows c)).flatMap fun r => st.tileRun g t r 0 (cfgRow c)

/-- A write of a TST or ZST may be performed: nothing earlier of the group is in its way, and no other team has pinned its line (R146, R356). -/
def State.mayUnitWrite (st : State) (g : Group) (op mode : Nat) (w : UnitWrite) : Bool :=
  !g.held op [(w.place, w.bytes.length)] && !st.pinnedFrom g.team w.place w.bytes.length &&
    (isChip w.place || g.versioned || mode == 3 || st.l1Takes g.core [lineOf w.place])

/-- A write of a TST or ZST is performed as a plain store is (R144, R214, R226). -/
def State.unitWrite (st : State) (gid : Nat) (g : Group) (op mode : Nat) (w : UnitWrite) : State :=
  st.writeOwn gid g op w.place w.bytes mode false w.bad

/-- Performs one part of an operation of the matrix unit: a write of a TST or ZST that has started, after the earlier ones to its bytes, or
the reading of one piece of a TLD or ZLD that has not (R354). -/
def State.performUnit (st : State) (gid op i : Nat) : State :=
  match st.group? gid, st.work? gid op with
  | some g, some (.matrix u) =>
    if g.over op then st
    else if u.started then
      (match u.out[i]? with
       | some w =>
         if st.mayUnitWrite g op u.mode w && !((u.out.take i).any fun x => meets (x.place, x.bytes.length) (w.place, w.bytes.length)) then
           (st.unitWrite gid g op u.mode w).onGroup gid fun g => g.onOp op fun _ => .matrix { u with out := u.out.eraseIdx i }
         else st
       | none => st)
    else
      (match u.ins, u.segs[i]? with
       | .tld _ _, some x => readPiece st g u x
       | .zld _ _ _, some x => readPiece st g u x
       | _, _ => st)
  | _, _ => st
where
  /-- Reads the i-th piece, unless it has been read or has to wait. -/
  readPiece (st : State) (g : Group) (u : UnitOp) (x : Nat × Nat) : State :=
    if (NMap.find u.got i).isSome || g.held op [x] || st.pinnedFrom g.team x.1 x.2 then st
    else (st.pieceReach gid g u.mode x).onGroup gid fun g => g.onOp op fun _ => .matrix { u with got := NMap.put u.got i (st.pieceCells g x) }

/-- TZERO (R215). -/
def State.runTzero (st : State) (g : Group) (t : Nat) : State :=
  let c := g.cfg (st.core g.core) t
  (List.range (cfgRows c)).foldl (fun s r =>
    let s := s.putChip (g.tilePlace t r) (clean (List.replicate (cfgRow c) 0))
    -- the poison of the last word goes too, although its last bytes stay (R215)
    (List.range ((cfgRow c + 7) / 8)).foldl (fun s w => s.setHomeBad (g.tilePlace t r + 8 * w) false) s) st

/-- TTRANS: every source element is read before any is written (R215). -/
def State.runTtrans (st : State) (g : Group) (d s : Nat) : State :=
  let c := g.cfg (st.core g.core) d
  let n := cfgBytes c
  (List.range (cfgRows c)).foldl (fun x i =>
    x.putChip (g.tilePlace d i) ((List.range (cfgCols c)).flatMap fun j => st.tileRun g s j (n * i) n)) st

end Sys2Proof.Machine
end

