-- ==== Sys2Proof/Machine/Record.lean ====
section
/-! DEFINITION. Launch records (R279 to R282), completion bitmaps (R284), eligibility (R286, R287) and the end of a launch (R285). -/

namespace Sys2Proof.Machine

/-! ### Fields (R279, R280) -/

/-- Bits of a launch's record. -/
def Launch.field (l : Launch) (hi lo : Nat) : Nat := bitsOf l.record.toNat hi lo
/-- CX, CY, W and H. -/
def Launch.cx (l : Launch) : Nat := l.field 511 500
def Launch.cy (l : Launch) : Nat := l.field 499 488
def Launch.w (l : Launch) : Nat := l.field 487 484
def Launch.h (l : Launch) : Nat := l.field 483 480
/-- Scratch allotment of a team in bytes. -/
def Launch.ssize (l : Launch) : Nat := 4096 * l.field 479 471
/-- Barrier objects of a cluster. -/
def Launch.nb (l : Launch) : Nat := l.field 470 465
/-- Initial balance class. -/
def Launch.bal (l : Launch) : BitVec 2 := BitVec.ofNat 2 (l.field 89 88)
/-- Flags VERS, IDEM, PROT and SYSC. -/
def Launch.vers (l : Launch) : Bool := l.field 93 93 == 1
def Launch.idem (l : Launch) : Bool := l.field 92 92 == 1
def Launch.prot (l : Launch) : Bool := l.field 91 91 == 1
def Launch.sysc (l : Launch) : Bool := l.field 90 90 == 1
/-- START. -/
def Launch.start (l : Launch) : Nat := l.field 447 384
/-- DEPMODE. -/
def Launch.depMode (l : Launch) : Nat := l.field 319 318
/-- Virtual address of the producer's bitmap, and of the launch's own. -/
def Launch.depAddr (l : Launch) : Nat := widenVa (l.field 370 320 * 64)
def Launch.cbAddr (l : Launch) : Nat := widenVa (l.field 306 256 * 64)
/-- Kernel code address. -/
def Launch.code (l : Launch) : Nat := widenVa (l.field 54 0 * 4)
/-- Save area of a team in bytes, and the base of the areas. -/
def Launch.svsize (l : Launch) : Nat := 4096 * l.field 255 240
def Launch.svbase (l : Launch) : Nat := widenVa (l.field 236 192 * 4096)
/-- Private memory of a group in bytes. -/
def Launch.psize (l : Launch) : Nat := 4096 * l.field 83 64
/-- Task identifier. -/
def Launch.task (l : Launch) : Nat := l.field 127 96

/-- A role entry (R280). -/
structure Role where
  entry : Nat
  aentry : Nat
  ae : Bool
  qdir : BitVec 4
  /-- granules of the launch frame -/
  grans : Nat
  tiles : Nat
  accum : Nat
  groups : Nat
  zshared : Bool
  deriving DecidableEq, Repr

/-- Word of role entry r. -/
def Launch.roleWord (l : Launch) (r : Nat) : Nat := l.field (64 * r + 575) (64 * r + 512)

/-- A role entry from its word. -/
def roleOf (w : Nat) : Role :=
  { entry := bitsOf w 63 44, aentry := bitsOf w 43 24, ae := bitsOf w 23 23 == 1, qdir := BitVec.ofNat 4 (bitsOf w 22 19),
    grans := bitsOf w 18 16 + 1, tiles := bitsOf w 15 12, accum := bitsOf w 11 7, groups := bitsOf w 6 1, zshared := bitsOf w 0 0 == 1 }

/-- The roles of a record. -/
def Launch.roles (l : Launch) : List Role := (List.range (l.field 95 94 + 1)).map fun r => roleOf (l.roleWord r)

/-! ### Derived values (R281) -/

/-- TW, TH. -/
def Launch.tw (l : Launch) : Nat := l.cx * l.w
def Launch.th (l : Launch) : Nat := l.cy * l.h
/-- Groups of a role's entry as slots of the team take them. -/
def Role.slots (r : Role) : Nat := if r.zshared then r.accum else r.accum * r.groups
/-- Groups per team, tiles per team, slots per team. -/
def Launch.gt (l : Launch) : Nat := (l.roles.map (·.groups)).sum
def Launch.tiles (l : Launch) : Nat := (l.roles.map fun r => r.tiles * r.groups).sum
def Launch.slots (l : Launch) : Nat := (l.roles.map Role.slots).sum
/-- T of R232: the largest TILES. -/
def Launch.tmax (l : Launch) : Nat := (l.roles.map (·.tiles)).foldl max 0

/-- Groups of a team in cr.group order: role number, role, first team slot of the group (R283). -/
def membersFrom : List Role → Nat → Nat → List (Nat × Role × Nat)
  | [], _, _ => []
  | r :: rest, k, slot =>
    ((List.range r.groups).map fun i => (k, r, if r.zshared then slot else slot + r.accum * i)) ++ membersFrom rest (k + 1) (slot + r.slots)

/-- Groups of a team. -/
def Launch.members (l : Launch) : List (Nat × Role × Nat) := membersFrom l.roles 0 0

/-- Tile coordinates of the team at a rank of a cluster. -/
def Launch.tileAt (l : Launch) (cluster rank : Nat) : Nat × Nat :=
  (cluster % l.cx * l.w + rank % l.w, cluster / l.cx * l.h + rank / l.w)

/-- Clusters of a launch. -/
def Launch.count (l : Launch) : Nat := l.cx * l.cy

/-- Cluster shapes of R241. -/
def shapeGood (w h : Nat) : Bool := decide (1 ≤ w) && decide (1 ≤ h) && decide (w * h ≤ 12) && decide (h ≤ 10)

/-! ### Bitmaps (R284) -/

/-- Every page of a range passes a context's translation for an access. -/
def State.ctxMapped (st : State) (ctx va n : Nat) (k : AccKind) : Bool :=
  (pieces (n / 4096 + 2) va n).all fun p => (st.ctxPlace ctx p.1 k).isSome

/-- An access of the dispatcher to a range of a context's memory meets a pinned line: it is answered with a retry (R356). -/
def State.rangeHeld (st : State) (ctx va n : Nat) : Bool :=
  !st.pins.isEmpty && (List.range (n / 128 + 2)).any fun i => st.ctxHeld ctx (va + 128 * i)

/-- Bytes of a bitmap of a grid. -/
def bitmapBytes (tw th : Nat) : Nat := 64 + (tw * th + 7) / 8

/-- A number of n bytes of a context's memory; 0 where it is not mapped. -/
def State.ctxNum (st : State) (ctx va n : Nat) : Nat :=
  numOf ((List.range n).map fun i => match st.ctxPlace ctx (va + i) .read with
    | some p => st.homeByte p
    | none => 0)

/-- A bit of a bitmap. -/
def State.bitmapBit (st : State) (ctx va n : Nat) : Bool := (st.ctxNum ctx (va + 64 + n / 8) 1).testBit (n % 8)

/-- A launch's bitmap is mapped with R and W. -/
def State.bitmapMapped (st : State) (l : Launch) : Bool := st.ctxMapped l.ctx l.cbAddr (bitmapBytes l.tw l.th) .rmw

/-- PTW and PTH of the producer. -/
def State.producerGrid (st : State) (l : Launch) : Nat × Nat := (st.ctxNum l.ctx l.depAddr 4, st.ctxNum l.ctx (l.depAddr + 4) 4)

/-- A producer's bitmap is mapped with R. -/
def State.producerMapped (st : State) (l : Launch) : Bool :=
  st.ctxMapped l.ctx l.depAddr 64 .read &&
    (let g := st.producerGrid l; st.ctxMapped l.ctx l.depAddr (bitmapBytes g.1 g.2) .read)

/-! ### The checks of R282 -/

/-- Reserved bits are clear and the version is 1. -/
def Launch.versionGood (l : Launch) : Bool :=
  l.field 63 60 == 1 && [(377, 371), (311, 307), (239, 237), (175, 173), (87, 84), (59, 55)].all (fun x => l.field x.1 x.2 == 0) &&
    (List.range 4).all fun r => decide (r ≤ l.field 95 94) || l.roleWord r == 0

/-- Every field is in its range. -/
def Launch.rangesGood (l : Launch) : Bool :=
  decide (1 ≤ l.cx) && decide (1 ≤ l.cy) && shapeGood l.w l.h && decide (l.field 479 471 ≤ 448) && decide (l.nb ≤ 32) &&
    decide (1040 ≤ l.field 83 64) && l.depMode != 3 && l.roles.all fun r => decide (r.tiles ≤ 8) && decide (r.accum ≤ 16)

/-- The lowest code of a record's failed checks; 0 for none. -/
def State.recordCode (st : State) (l : Launch) : Nat :=
  if !l.versionGood then 0x01
  else if !l.rangesGood then 0x02
  else if l.gt = 0 ∨ 32 < l.gt ∨ 32 < l.tiles ∨ 32 < l.slots then 0x03
  else if l.svsize < 0x1000 + 8192 * l.tmax * l.gt + 16384 * l.slots + l.ssize then 0x04
  else if !st.contextValid l.ctx then 0x05
  else if st.ctxMapped l.ctx l.cbAddr 8 .read && (st.ctxNum l.ctx l.cbAddr 4, st.ctxNum l.ctx (l.cbAddr + 4) 4) != (l.tw, l.th) then 0x06
  else if !st.bitmapMapped l || ((l.depMode == 1 || l.depMode == 2) && !st.producerMapped l) then 0x07
  else 0

/-! ### Eligibility (R286, R287) -/

/-- Producer bits that the team at a tile waits for. -/
def Launch.window (l : Launch) (grid tile : Nat × Nat) : List Nat :=
  let hx := l.field 383 381
  let hy := l.field 380 378
  let x := tile.1 / 2 ^ l.field 317 315
  let y := tile.2 / 2 ^ l.field 314 312
  ((List.range grid.2).filter fun py => decide (py ≤ y + hy) && decide (y ≤ py + hy)).flatMap fun py =>
    ((List.range grid.1).filter fun px => decide (px ≤ x + hx) && decide (x ≤ px + hx)).map fun px => px + grid.1 * py

/-- Every team of a cluster has its dependence met. -/
def State.dependenceMet (st : State) (l : Launch) (cluster : Nat) : Bool :=
  match l.depMode with
  | 0 => true
  | 1 => let g := st.producerGrid l
    st.ctxNum l.ctx (l.depAddr + 8) 8 == g.1 * g.2
  | _ => (List.range (l.w * l.h)).all fun r => (l.window (st.producerGrid l) (l.tileAt cluster r)).all (st.bitmapBit l.ctx l.depAddr)

/-- The producer's bitmap, or the launch's own, meets a pinned line (R356). -/
def State.bitmapsHeld (st : State) (l : Launch) : Bool :=
  st.rangeHeld l.ctx l.cbAddr 64 || (l.depMode != 0 && st.rangeHeld l.ctx l.depAddr (bitmapBytes (st.producerGrid l).1 (st.producerGrid l).2))

/-- The dependence of a cluster can never be met (R287). -/
def State.neverMet (st : State) (l : Launch) (cluster : Nat) : Bool :=
  l.depMode != 0 && !st.bitmapsHeld l && st.ctxNum l.ctx (l.depAddr + 16) 1 % 2 == 1 && !st.dependenceMet l cluster

/-- START has passed and the dependence is met, as far as the bitmap can be read. -/
def State.eligible (st : State) (l : Launch) (cluster : Nat) : Bool := decide (l.start ≤ st.now) && !st.bitmapsHeld l && st.dependenceMet l cluster

/-- Progress of a cluster. -/
def Launch.cluster (l : Launch) (c : Nat) : ClusterLife := NMap.get l.clusters (.waiting none) c

/-- A cluster that has not been placed yet. -/
def ClusterLife.isWaiting : ClusterLife → Bool
  | .waiting _ => true
  | _ => false

/-- Sets the progress of a cluster. -/
def State.setCluster (st : State) (l c : Nat) (x : ClusterLife) : State :=
  st.onLaunch l fun k => { k with clusters := NMap.store k.clusters (.waiting none) c x }

/-- Clusters that have not been placed. -/
def Launch.unplaced (l : Launch) : List Nat := (List.range l.count).filter fun c => (l.cluster c).isWaiting

/-- No further cluster of a launch is placed (R282, R287). -/
def State.closeLaunch (st : State) (l code : Nat) : State :=
  st.onLaunch l fun k => { k with
    closed := true
    dropped := k.dropped || !k.unplaced.isEmpty
    status := if k.status = 0 then code else k.status
    clusters := k.unplaced.foldl (fun m c => NMap.put m c .failed) k.clusters }

/-! ### The end of a launch (R285, R287, R380) -/

/-- Every cluster of a launch has ended. -/
def Launch.allOver (l : Launch) : Bool := (List.range l.count).all fun c => l.cluster c == .ended || l.cluster c == .failed

/-- A launch ends: FAILED where a team never completes, the fences of its clusters lift, and a completion record goes out. Where the page that
FAILED is to be written to has become unreachable, nothing is written and STATUS is 0x07 (R282). -/
def State.endLaunch (st : State) (id : Nat) : State :=
  match NMap.find st.launches id with
  | none => st
  | some l =>
    let lost := (List.range l.count).any fun c => l.cluster c == .failed
    let code := if l.status ≠ 0 then l.status else if lost then 0x40 else 0
    let (status, st) := if code = 0x40 ∨ code = 0x41 then
        (match st.ctxPlace l.ctx (l.cbAddr + 16) .rmw with
         | some p => (code, st.writeHome p (bytesOf (Nat.lor (st.homeNum p 1) 1) 1) false)
         | none => (0x07, st))
      else (code, st)
    let done := st.ctxNum l.ctx (l.cbAddr + 8) 8
    let st := { st with dies := st.dies.map fun (e : Nat × Die) => (e.1, { e.2 with fences := e.2.fences.filter fun f => f.launch != id }) }
    (st.onLaunch id fun k => { k with finished := true, status := status }).send 2
      { tagged := false, after := .launch id,
        bytes := recordBytes 64 [recordHeader 0x20 status 0, (8, l.task + l.queue % 2 ^ 15 * 2 ^ 32), (16, done), (24, st.now)] }

/-- One pass over the launches: those that can never go on close, those whose clusters and teams have all ended end. -/
def State.settleOnce (st : State) : State :=
  st.launches.foldl (fun s e =>
    match NMap.find s.launches e.1 with
    | none => s
    | some l =>
      if l.finished then s
      else
        let s := if !l.closed && (l.unplaced.any fun c => s.neverMet l c) then s.closeLaunch e.1 0x41 else s
        match NMap.find s.launches e.1 with
        | some k => if k.allOver && !s.bitmapsHeld k && s.teams.all (fun t => t.2.launch != e.1 || t.2.completed) then s.endLaunch e.1 else s
        | none => s) st

/-- As many passes as there are launches: a failed launch fails its dependents in turn (R287). -/
def State.settleLaunches (st : State) : State := (List.range st.launches.length).foldl (fun s _ => s.settleOnce) st

/-- The waiting time of every cluster that has become eligible begins (R296). -/
def State.noteEligible (st : State) : State :=
  st.launches.foldl (fun s e =>
    if e.2.closed then s
    else e.2.unplaced.foldl (fun s c =>
      if e.2.cluster c == .waiting none && st.eligible e.2 c then s.setCluster e.1 c (.waiting (some st.clock)) else s) s) st

end Sys2Proof.Machine
end

