-- ==== Sys2Proof/Machine/Place.lean ====
section
/-! DEFINITION. Fitting and placing teams (R185, R192, R206, R289, R290), the order of offers (R288), carving (R283), and
CLUSTER_PLACEMENT and START_TIME_REACHED. -/

namespace Sys2Proof.Machine

/-! ### What a core has free (R289) -/

/-- Teams that a core holds. -/
def State.teamsOn (st : State) (core : Nat) : List (Nat × Team) :=
  st.teams.filter fun e => e.2.core == core && (e.2.life == .live || e.2.life == .saving)

/-- A group that holds resources of its core. -/
def Group.resident (g : Group) : Bool := g.life != .ended && g.life != .saved

/-- Groups that hold resources of a core: a SAVED one does until its whole team is saved (R232, R245). -/
def State.groupsOn (st : State) (core : Nat) : List Group :=
  (st.groups.filter fun e => e.2.core == core && (e.2.resident || (e.2.life == .saved && (st.team e.2.team).life == .saving))).map fun (e : Nat × Group) => e.2

/-- What a core's occupants use: core group numbers, tile runs, slot runs, scratch runs (first and length). -/
structure Used where
  numbers : List Nat
  tiles : List (Nat × Nat)
  slots : List (Nat × Nat)
  scratch : List (Nat × Nat)
  deriving DecidableEq, Repr

/-- What is in use on a core when some of its teams are left out. -/
def State.usedBut (st : State) (core : Nat) (gone : List Nat) : Used :=
  let gs := (st.groupsOn core).filter fun g => !gone.contains g.team
  { numbers := gs.map (·.number)
    tiles := gs.map fun g => (g.tile0, g.tiles)
    slots := gs.map fun g => (g.acc0, g.accs)
    scratch := ((st.teamsOn core).filter fun e => !gone.contains e.1).map fun (e : Nat × Team) => (e.2.scratch, e.2.ssize) }

/-- Lowest start of a free run of n below a bound, in steps of a unit; a run of 0 starts at 0. -/
def freeRun (used : List (Nat × Nat)) (n unit bound : Nat) : Option Nat :=
  if n = 0 then some 0
  else ((List.range (bound / unit)).map (· * unit)).find? fun s =>
    decide (s + n ≤ bound) && used.all fun u => decide (u.2 = 0) || decide (s + n ≤ u.1) || decide (u.1 + u.2 ≤ s)

/-- Core group numbers of n groups, alternately on the two pipes, the lowest free of each (R185). -/
def numberRun : Nat → Nat → List Nat → Option (List Nat)
  | 0, _, _ => some []
  | n + 1, pipe, used =>
    let free (p : Nat) : Option Nat := ((List.range 16).map (16 * p + ·)).find? fun g => !used.contains g
    match (free pipe).orElse fun _ => free (1 - pipe) with
    | none => none
    | some g => (numberRun n (1 - pipe) (g :: used)).map (g :: ·)

/-- Tile runs of groups in order, each the lowest free run (R206). -/
def tileRuns : List Nat → List (Nat × Nat) → Option (List Nat)
  | [], _ => some []
  | n :: rest, used =>
    match freeRun used n 1 32 with
    | none => none
    | some s => (tileRuns rest ((s, n) :: used)).map (s :: ·)

/-- What a team needs of a core, and for which cluster of which launch it comes (a fence admits it). -/
structure Need where
  launch : Nat
  cluster : Nat
  tiles : List Nat
  slots : Nat
  scratch : Nat
  bal : BitVec 2
  deriving DecidableEq, Repr

/-- Where a team goes on a core: group numbers, tile starts, first slot, first scratch byte. -/
structure Grant where
  numbers : List Nat
  tiles : List Nat
  slot : Nat
  scratch : Nat
  deriving DecidableEq, Repr

/-- The classes of a core's stack-mate admit a team (R289). -/
def State.mateAdmits (st : State) (core : Nat) (bal : BitVec 2) (gone : List Nat) : Bool :=
  let classes := ((st.teamsOn (mateOf core)).filter fun e => !gone.contains e.1).map fun (e : Nat × Team) => e.2.balClass
  (bal != 2 || classes.all (· == 3)) && (!classes.contains 2 || bal == 3)

/-- A core that is fenced for another cluster (R296). -/
def State.fencedFor (st : State) (core launch cluster : Nat) : Bool :=
  (st.die (dieOf core)).fences.any fun f =>
    !(f.launch == launch && f.cluster == cluster) && (match NMap.find st.launches f.launch with
      | some l => decide (colOf f.origin ≤ colOf core) && decide (colOf core < colOf f.origin + l.w) &&
          decide (rowOf f.origin ≤ rowOf core) && decide (rowOf core < rowOf f.origin + l.h)
      | none => false)

/-- What a core grants a team once some of its teams are gone; none where the team does not fit (R289) (log 35). -/
def State.fitBut (st : State) (core : Nat) (n : Need) (gone : List Nat) : Option Grant :=
  let u := st.usedBut core gone
  if (st.core core).mode3 || (st.die (dieOf core)).offline || (st.die (dieOf core)).boot || st.fencedFor core n.launch n.cluster || decide (8 ≤ u.scratch.length) ||
      !st.mateAdmits core n.bal gone then none
  else match numberRun n.tiles.length 0 u.numbers, tileRuns n.tiles u.tiles, freeRun u.slots n.slots 1 32,
      freeRun u.scratch n.scratch 4096 0x1C0000 with
    | some a, some b, some c, some d => some { numbers := a, tiles := b, slot := c, scratch := d }
    | _, _, _, _ => none

/-- What a core grants a team. -/
def State.fit (st : State) (core : Nat) (n : Need) : Option Grant := st.fitBut core n []

/-! ### Ranking (R290) -/

/-- place_hash. -/
def placeHash (tx ty salt : Nat) : Nat :=
  let h := (tx * 0x9E37 + ty * 0x7F4B + salt * 0x0101) % 2 ^ 16
  Nat.xor h (h / 128) % 80

/-- Mesh distance from a core to the nearest core of a plot of its die. -/
def meshDistance (core plot : Nat) : Nat :=
  let gap (x i : Nat) : Nat := if x < 2 * i then 2 * i - x else x - (2 * i + 1)
  gap (colOf core) (plot % 8) + gap (rowOf core) (plot / 8)

/-- Hash distance of a core for the team at a tile; 0 with PHASH 0. -/
def Launch.hashDistance (l : Launch) (tile : Nat × Nat) (core : Nat) : Nat :=
  if l.field 448 448 = 1 then meshDistance core (placeHash tile.1 tile.2 (l.field 456 449) / 2) else 0

/-- Pair score of a core for a launch. -/
def State.pairScore (st : State) (launch core : Nat) : Nat :=
  let mates := st.teamsOn (mateOf core)
  if mates.any fun e => e.2.launch == launch then 2
  else if mates.isEmpty && (st.teamsOn core).isEmpty then 1
  else 0

/-- Cores of the rectangle of a shape at an origin, in rank order. -/
def rectangle (origin w h : Nat) : List Nat := (List.range (w * h)).map fun r => origin + r % w + 16 * (r / w)

/-- Origins of the rectangles of a shape on a die, rising. -/
def origins (die w h : Nat) : List Nat :=
  (List.range (11 - h)).flatMap fun y => (List.range (17 - w)).map fun x => coreAt die x y

/-- The better of two ranked candidates: less distance, greater score, lower core. -/
def better (a b : Nat × Nat × Nat) : Bool :=
  decide (a.1 < b.1) || (decide (a.1 = b.1) && (decide (b.2.1 < a.2.1) || (decide (a.2.1 = b.2.1) && decide (a.2.2 < b.2.2))))

/-- The best of ranked candidates. -/
def best : List (Nat × Nat × Nat) → Option (Nat × Nat × Nat)
  | [] => none
  | a :: rest => match best rest with
    | none => some a
    | some b => if better b a then some b else some a

/-- What the team of a launch needs. -/
def Launch.need (l : Launch) (id cluster : Nat) : Need :=
  { launch := id, cluster := cluster, tiles := l.members.map fun m => m.2.1.tiles, slots := l.slots, scratch := l.ssize, bal := l.bal }

/-- Barrier objects in use on a die (R259). -/
def State.barriersUsed (st : State) (die : Nat) : Nat := ((st.gangs.filter fun e => e.2.die == die).map fun (e : Nat × Gang) => e.2.nb).sum

/-- Each rank of a cluster that is to be created fits its core of the rectangle at an origin, and the die can hold the cluster's barrier
objects (R289). -/
def State.rectFits (st : State) (id : Nat) (l : Launch) (cluster : Nat) (ranks : List Nat) (o : Nat) : Bool :=
  let die := st.die (dieOf o)
  let cs := rectangle o l.w l.h
  !die.offline && !die.boot && decide (st.barriersUsed (dieOf o) + l.nb ≤ 256) &&
    ranks.all fun r => (st.fit (cs.getD r 0) (l.need id cluster)).isSome

/-- The best fitting rectangle of a die for the ranks of a cluster that are to be created: its origin. -/
def State.bestOn (st : State) (id : Nat) (l : Launch) (cluster : Nat) (ranks : List Nat) (die : Nat) : Option Nat :=
  let ok := (origins die l.w l.h).filter (st.rectFits id l cluster ranks)
  (best (ok.map fun o =>
    let cs := rectangle o l.w l.h
    ((ranks.map fun r => l.hashDistance (l.tileAt cluster r) (cs.getD r 0)).sum, (cs.map (st.pairScore id)).sum, o))).map fun b => b.2.2

/-- The rectangle that R290 chooses: home die first, then the others in turn. -/
def State.bestPlace (st : State) (id : Nat) (l : Launch) (cluster : Nat) (ranks : List Nat) : Option Nat :=
  ((List.range 4).map fun k => (l.die + k) % 4).findSome? fun d => st.bestOn id l cluster ranks d

/-! ### The order of offers (R288) -/

/-- Every cluster of the earlier records of a launch's queue has been placed (R288). A record that has failed its check has none placed, and one
whose clusters were dropped never places them: the records after either are offered once HEAD has passed it (R287; of the failed record the
model's choice, log 35). -/
def State.queueTurn (st : State) (l : Launch) : Bool :=
  st.launches.all fun e => !(e.2.queue == l.queue && decide (e.2.released < l.released)) || (e.2.unplaced.isEmpty && !e.2.dropped)

/-- Ranks that a cluster has still to create: all, or those of a relaunch (R269). -/
def State.ranksOf (st : State) (l : Launch) (c : Nat) : List Nat :=
  match l.cluster c with
  | .relaunch g _ => (st.gang g).again.getD []
  | _ => List.range (l.w * l.h)

/-- A cluster of a launch that may be placed now. -/
def State.mayPlace (st : State) (l : Launch) (c : Nat) : Bool :=
  match l.cluster c with
  | .waiting _ => !l.closed && st.queueTurn l && st.eligible l c
  | .relaunch _ _ => true
  | _ => false

/-- The save area of a launch comes later in the order than another: PRIO, then release. -/
def later (a b : Launch) : Bool := decide (a.prio < b.prio) || (decide (a.prio = b.prio) && decide (b.released < a.released))

/-- Launches of a home die in the order of R288. -/
def insertLaunch (e : Nat × Launch) : List (Nat × Launch) → List (Nat × Launch)
  | [] => [e]
  | f :: rest => if later f.2 e.2 then e :: f :: rest else f :: insertLaunch e rest

/-- Clusters that wait for a place, in the order of R288, whatever the home die of their queue. -/
def State.offers (st : State) : List (Nat × Nat) :=
  let ls := (st.launches.filter fun e => !e.2.finished).foldl (fun l e => insertLaunch e l) []
  ls.flatMap fun e => ((List.range e.2.count).filter fun c => st.mayPlace e.2 c).map fun c => (e.1, c)

/-- A cluster of the offers fits somewhere: the rectangle. -/
def State.offerFits (st : State) (o : Nat × Nat) : Option Nat :=
  match NMap.find st.launches o.1 with
  | some l => st.bestPlace o.1 l o.2 (st.ranksOf l o.2)
  | none => none

/-- Saved teams awaiting restore on a die, in the order of R288. Those of a gang that is to be killed are not restored (R267, R298). -/
def State.restores (st : State) (die : Nat) : List Nat :=
  let key (t : Nat) : Launch := NMap.get st.launches {} (st.team t).launch
  ((st.die die).restore.filter fun t => (st.gang (st.team t).gang).kill.isNone).foldl (fun l t =>
    let before := l.takeWhile fun x => !later (key x) (key t)
    before ++ t :: l.drop before.length) []

/-- What a saved team needs: its own class and its launch's allotments. -/
def State.restoreNeed (st : State) (t : Nat) : Need :=
  let x := st.team t
  let l := NMap.get st.launches {} x.launch
  { l.need x.launch (st.gang x.gang).cluster with bal := x.balClass }

/-- The core that R293 restores a team on, among those that a test admits. -/
def State.restoreCore (st : State) (die t : Nat) (p : Nat → Bool) : Option Nat :=
  let x := st.team t
  let l := NMap.get st.launches {} x.launch
  let room := (st.gang x.gang).die == die || decide (st.barriersUsed die + (st.gang x.gang).nb ≤ 256)
  if !room then none
  else
    let ok := ((List.range 160).map (160 * die + ·)).filter fun c => p c && (st.fit c (st.restoreNeed t)).isSome
    (best (ok.map fun c => (l.hashDistance (x.tx, x.ty) c, st.pairScore x.launch c, c))).map fun b => b.2.2

/-! ### Carving (R283) -/

/-- The group of a team at an index. -/
def carve (l : Launch) (team : Team) (teamId index core number tile0 : Nat) (m : Nat × Role × Nat) (lrec : Nat) : Group :=
  let r := m.2.1
  { team := teamId, core := core, number := number, index := index, role := m.1, life := .pending
    a := { life := .ready, pc := BitVec.ofNat 64 (l.code + 4 * r.entry), mask := if l.prot then 0xFFFF#32 else BitVec.allOnes 32 }
    accessPc := BitVec.ofNat 64 (l.code + 4 * r.aentry)
    accessLife := if r.ae then .running else .done
    tile0 := tile0, tiles := r.tiles
    acc0 := team.slot0 + m.2.2, accs := r.accum, zshared := r.zshared
    pbase := BitVec.ofNat 64 (widenVa (l.field 172 128 * 4096) + l.psize * (team.number * l.gt + index))
    psize := BitVec.ofNat 64 l.psize
    lrec := BitVec.ofNat 64 lrec
    qdir := if r.ae then r.qdir else 0
    task := BitVec.ofNat 64 l.task
    prot := l.prot, versioned := l.vers, syscalls := l.sysc }

/-- The fields of a context's descriptor as a team uses them (R274). -/
def State.readContext (st : State) (t : Team) (ctx : Nat) : Team :=
  { t with ctx := ctx, handler := st.contextHandler ctx, debug := bitsOf (st.contextBits ctx) 62 62 == 1, ptroot := st.contextRoot ctx,
           ftpool := st.contextPool ctx }

/-- A fresh scratch allotment: its contents are undefined (R192, log 6). -/
def Core.clearScratch (c : Core) (lo n : Nat) : Core :=
  { c with
    scratch := NMap.keep c.scratch fun i _ => !(decide (lo ≤ i) && decide (i < lo + n))
    scratchPoison := NMap.keep c.scratchPoison fun i _ => !(decide (lo ≤ 8 * i) && decide (8 * i < lo + n)) }

/-- Creates the team of a rank on a core (R283, R288 rule 5): its groups are PENDING and ask for their launch frames in order. The teams of its
cluster created before it do not count against it: every team fitted before the first was created (R289). -/
def State.createTeam (st : State) (id : Nat) (l : Launch) (gang cluster rank core : Nat) : State :=
  match st.fitBut core (l.need id cluster) (st.gang gang).teams with
  | none => st
  | some f =>
    let tid := st.nextId
    let (tx, ty) := l.tileAt cluster rank
    let n := tx + l.tw * ty
    let team : Team := st.readContext
      { gang := gang, launch := id, rank := rank, tx := tx, ty := ty, number := n, core := core, prio := l.prio,
        scratch := f.scratch, ssize := l.ssize, stamp := st.free, slot0 := f.slot, slots := l.slots, balClass := l.bal,
        idempotent := l.idem, vbudget := l.field 191 176, bwc := l.field 460 457, savebase := l.svbase + l.svsize * n,
        savesize := l.svsize, placed := st.clock } l.ctx
    let gids := (List.range l.gt).map (tid + 1 + ·)
    let groups : List (Nat × Group) := (l.members.zipIdx 0).map fun x =>
      (tid + 1 + x.2, carve l team tid x.2 core (f.numbers.getD x.2 0) (f.tiles.getD x.2 0) x.1 (st.recordVa l.queue l.index))
    let st := { st with
      nextId := tid + 1 + l.gt
      free := st.free + 1
      teams := NMap.put st.teams tid { team with groups := gids }
      groups := groups.foldl (fun (m : NMap Group) (e : Nat × Group) => NMap.put m e.1 e.2) st.groups }
    let st := st.onCore core fun c => c.clearScratch f.scratch l.ssize
    let st := (l.members.zipIdx 0).foldl (fun s x =>
      s.enqueueFrame (tid + 1 + x.2) { gid := tid + 1 + x.2, src := .slotA, kind := .launch, grans := x.1.2.1.grans }) st
    st.onGang gang fun g => { g with teams := g.teams ++ [tid], map := g.map.set rank core }

/-- Places a cluster at an origin: its gang, its barrier objects, its map and its teams in rank order. -/
def State.placeCluster (st : State) (id : Nat) (l : Launch) (cluster origin : Nat) (ranks : List Nat) (relaunches : Nat) : State :=
  let gid := st.nextId
  let gang : Gang :=
    { launch := id, cluster := cluster, die := dieOf origin, map := rectangle origin l.w l.h, nb := l.nb, relaunches := relaunches }
  let st := { st with nextId := gid + 1, gangs := NMap.put st.gangs gid gang }
  let cs := rectangle origin l.w l.h
  let st := ranks.foldl (fun s r => s.createTeam id l gid cluster r (cs.getD r 0)) st
  let members := st.clusterMembers gid
  let st := st.onGang gid fun g => { g with barriers := (List.range l.nb).map fun i => (i, { mask := members }) }
  let st := { st with dies := st.dies.map fun (e : Nat × Die) => (e.1, { e.2 with fences := e.2.fences.filter fun f => !(f.launch == id && f.cluster == cluster) }) }
  st.setCluster id cluster (.placed gid)

/-- The first cluster that a die is offered and that fits there, once no saved team that waits there fits (R288). A cluster is offered on the
first die in the order of R290 that has a fitting rectangle (log 35). -/
def State.nextOffer (st : State) (die : Nat) : Option (Nat × Nat) :=
  if (st.restores die).any fun t => (st.restoreCore die t fun _ => true).isSome then none
  else st.offers.find? fun o => (st.offerFits o).any fun x => dieOf x == die

/-- A cluster may be created on a rectangle: its record's bitmaps and its context's descriptor can be read (R282, R356). -/
def State.recordHeld (st : State) (l : Launch) : Bool := st.bitmapsHeld l || st.ctxHeld l.ctx l.cbAddr

/-- Creates a cluster at an origin: the first time, or again after a kill, for the teams that had not ended (R269, R283). -/
def State.createCluster (st : State) (id : Nat) (l : Launch) (c origin : Nat) : State :=
  match l.cluster c with
  | .relaunch g _ =>
    let st := st.placeCluster id l c origin (st.ranksOf l c) ((st.gang g).relaunches + 1)
    { st with gangs := NMap.del st.gangs g }
  | _ => st.placeCluster id l c origin (List.range (l.w * l.h)) 0

/-- A first placement needs the bitmaps mapped, or the launch ends with code 0x07 (R282). -/
def State.createOrClose (st : State) (id : Nat) (l : Launch) (c origin : Nat) : State :=
  if (l.cluster c).isWaiting && (!st.bitmapMapped l || (l.depMode != 0 && !st.producerMapped l)) then (st.closeLaunch id 0x07).settleLaunches
  else st.createCluster id l c origin

/-- CLUSTER_PLACEMENT (R288 to R290): the cluster, if it is next in the order and fits. -/
def execClusterPlacement (launch cluster : Nat) (st : State) : Host.Outcome State Fault Refusal :=
  let st := st.noteEligible
  match NMap.find st.launches launch with
  | none => .next st
  | some l =>
    if l.closed || l.finished || !(l.cluster cluster).isWaiting || st.recordHeld l then .next st
    else if !st.bitmapMapped l || (l.depMode != 0 && !st.producerMapped l) then .next (st.closeLaunch launch 0x07).settleLaunches
    else match st.offerFits (launch, cluster) with
      | some o => if st.nextOffer (dieOf o) = some (launch, cluster) then .next (st.createCluster launch l cluster o) else .next st
      | none => .next st

/-- START_TIME_REACHED (R286): clusters whose START has passed may become eligible. -/
def execStartTimeReached (launch : Nat) (st : State) : Host.Outcome State Fault Refusal :=
  match NMap.find st.launches launch with
  | some l => if l.start ≤ st.now then .next st.settleLaunches.noteEligible else .next st
  | none => .next st

end Sys2Proof.Machine
end

