-- ==== Sys2Proof/Machine/Save.lean ====
section
/-! DEFINITION. Saving and restoring: the save area of a group (R55, R184), the matrix and scratch save regions of a team (R232,
R245), pre-emption (R57, R292, R294), GROUP_SAVE, TEAM_RESTORE, SPATIAL_PREEMPTION, PLACEMENT_TIMEOUT and HOT_SPOT_MIGRATION. -/

namespace Sys2Proof.Machine

/-! ### The hardware's writes of save areas -/

/-- Writes 64-bit words with their poison to a group's private memory; none where a page cannot be had. -/
def State.privSave (st : State) (g : Group) (off : Nat) (xs : List (Nat × BitVec 2)) : Option State :=
  let who := st.hwWho g
  let st := st.ensure who.root who.pool (g.pbase.toNat + off) (8 * xs.length)
  match st.privRange g off (8 * xs.length) .write with
  | .ok segs => some (st.privWrite g off segs 8 xs)
  | .error _ => none

/-- Who the hardware is when it reaches a team's save area (R245). -/
def areaWho (t : Nat) (x : Team) : Who := { core := x.core, ctx := x.ctx, root := x.ptroot, pool := x.ftpool, team := t, handler := true, pbase := 2 ^ 64 }

/-- Writes 64-bit words to a team's save area, poisoned words with the mark. -/
def State.areaWrite (st : State) (who : Who) (va : Nat) (xs : List (Nat × Bool)) : Option State :=
  let st := st.ensure who.root who.pool va (8 * xs.length)
  match st.checkRange who va (8 * xs.length) 1 .write with
  | .ok segs =>
    let st := segs.foldl (fun s e => s.drainRange who.core e.1 e.2) st
    some (((xs.zipIdx 0).foldl (fun s e => s.writeHome (segPlace segs (8 * e.2)) (bytesOf e.1.1 8) e.1.2) st).touchRange who va
      (8 * xs.length) .write)
  | .error _ => none

/-- Reads 64-bit words of a team's save area with their poison. -/
def State.areaRead (st : State) (who : Who) (va n : Nat) : Option (List (Nat × Bool)) :=
  match st.checkRange who va (8 * n) 1 .read with
  | .ok segs => some ((List.range n).map fun i => let p := segPlace segs (8 * i); (st.homeNum p 8, st.homeBad p))
  | .error _ => none

/-- Words of an on-chip range. -/
def State.chipWords (st : State) (place n : Nat) : List (Nat × Bool) :=
  (List.range n).map fun i => (st.homeNum (place + 8 * i) 8, st.homeBad (place + 8 * i))

/-- Puts words into an on-chip range. -/
def State.putWords (st : State) (place : Nat) (xs : List (Nat × Bool)) : State :=
  (xs.zipIdx 0).foldl (fun s e => s.writeHome (place + 8 * e.2) (bytesOf e.1.1 8) e.1.2) st

/-! ### The image of a group (R55, R128, R184) -/

/-- Code of a slot's state. -/
def SlotLife.code : SlotLife → Nat
  | .empty => 0
  | .ready => 1
  | .stalled => 2
  | .held => 3
  | .parked => 4

/-- A slot as the save area holds it: the layout of R38, KIND the state, DEPTH the tag of a HELD slot. -/
def Slot.words (s : Slot) : List Nat := [s.resumePc.toNat, s.mask.toNat + s.life.code * 2 ^ 32 + (if s.life = .held then s.tag else 0) * 2 ^ 40]

/-- A join entry: E, X; J with the depth and ARMED in the bits that a canonical address leaves (log 13). -/
def Join.words (j : Join) : List Nat :=
  [j.expected.toNat + j.arrived.toNat * 2 ^ 32, j.pc.toNat / 4 % 2 ^ 55 + j.depth * 2 ^ 55 + (if j.armed then 2 ^ 63 else 0)]

/-- What a waiting frame request is, as two words: granules, kind and slot, and the address that a RET or UNWIND goes on at (log 13). -/
def FrameReq.words (r : FrameReq) : List Nat :=
  let (kind, link) := match r.kind with
    | .call _ _ link => (1, link.toNat)
    | .refill (some link) => (2, link.toNat)
    | .refill none => (5, 0)
    | .restore => (3, 0)
    | .launch => (4, 0)
  [r.grans + kind * 2 ^ 16 + srcCode (some r.src) * 2 ^ 32, link]

/-- The frame request that a restored group goes on with: a CALL makes its own again when it issues again (R137). -/
def requestFrom (gid w0 w1 : Nat) : Option FrameReq :=
  let src : Source := if w0 / 2 ^ 32 % 4 = 1 then .slotB else .slotA
  let kind : Option FrameKind := match w0 / 2 ^ 16 % 8 with
    | 2 => some (.refill (some (BitVec.ofNat 64 w1)))
    | 5 => some (.refill none)
    | _ => none
  kind.map fun k => { gid := gid, src := src, kind := k, grans := w0 % 2 ^ 16 }

/-- The access-stream PC as it is saved: past a QST that waits for its entry, which has issued already (R154). -/
def Group.savedAccessPc (g : Group) : Lane := if g.waitingQst.isSome then g.accessPc + 4 else g.accessPc

/-- Numbers of n bits in one number, the first lowest. -/
def packed (n : Nat) : List Nat → Nat
  | [] => 0
  | x :: rest => x % 2 ^ n + 2 ^ n * packed n rest

/-- Entries in use of a queue, in reservation or push order, in one number: three bits each from the first, and their count above them. -/
def Queue.orderCode (q : Queue) : Nat := packed 3 q.order + q.order.length * 2 ^ 28

/-- An entry's poison marks in one pair: some low half, some high half. -/
def QEntry.marks (x : QEntry) : Nat := (x.poison.foldl (fun (m : BitVec 2) e => m ||| e.2) 0).toNat

/-- State of an entry as a number. -/
def EntryLife.code : EntryLife → Nat
  | .free => 0
  | .reserved => 1
  | .full => 2

/-- Runs of 64-bit words of the save area: offset and words with poison. -/
def Group.image (g : Group) : List (Nat × List (Nat × BitVec 2)) :=
  let clean (l : List Nat) : List (Nat × BitVec 2) := l.map fun x => (x, 0)
  let request := match g.frameReq with
    | some r => r.words
    | none => [0, 0]
  let entries := (List.range 4).flatMap fun q => (List.range 8).map fun e => (g.queue q).entry e
  let y := (List.range 16).map fun i => (NMap.get g.y 0 i).toNat
  let shape (h : Nat) : List Nat := (List.range 8).map fun w => (NMap.get g.shapes 0 h).toNat / 2 ^ (64 * w) % 2 ^ 64
  let keys := (List.range 32).flatMap fun l => [(NMap.get g.keys 0 l).toNat, (NMap.get g.ctrs 0 l).toNat]
  let lanes (m : NMap Lane) : List Nat := (List.range 32).map fun l => (NMap.get m 0 l).toNat
  let stopped := g.life == .stopped
  [(0x0000, clean (g.a.words ++ g.b.words ++ [g.depth + g.div.length * 2 ^ 8, g.inflight.toNat] ++ request)),
   (0x0100, clean ((List.range 16).flatMap fun k => (g.join k).words)),
   (0x0200, clean ((List.range 7).flatMap fun p => (List.range 4).map fun w =>
      packed 8 ((List.range 8).map fun l => (g.pred (p + 1) (8 * w + l)).toNat))),
   (0x0300, clean ([g.savedAccessPc.toNat, match g.accessLife with
      | .running => 0
      | .stalled => 1
      | .done => 2] ++ y)),
   (0x0400, clean ((List.range 16).flatMap shape)),
   (0x0800, entries.flatMap fun x => (List.range 32).map fun l => ((NMap.get x.data 0 l).toNat, NMap.get x.poison 0 l)),
   (0x2800, clean [packed 2 (entries.map fun x => x.life.code),
      packed 8 (((List.range 4).map fun q => (g.queue q).order.headD 0) ++ (List.range 4).map fun q => (g.queue q).next),
      packed 2 (entries.map QEntry.marks), packed 1 (entries.map fun x => if x.bound then 1 else 0),
      packed 32 ((List.range 2).map fun q => (g.queue q).orderCode), packed 32 ((List.range 2).map fun q => (g.queue (q + 2)).orderCode), 0, 0]),
   (0x2840, clean keys),
   (0x2C28, clean [if stopped then 1 else 0])] ++
  if stopped then
    [(0x2C00, clean [g.trap.cause.toNat, g.trap.pc.toNat, g.trap.resume.toNat, g.trap.mask.toNat, g.task.toNat]),
     (0x2C40, clean (lanes g.trap.addr)), (0x2D40, clean (lanes g.trap.info))]
  else []

/-- Writes the owned granules of a frame that are in the file to its place in the spill area (R45, R55). -/
def State.saveFrame (st : State) (gid i : Nat) : Option State :=
  match st.group? gid with
  | none => none
  | some g => match g.frames[i]? with
    | none => some st
    | some f =>
      let below := g.frames.drop (i + 1)
      let out := f.grans.zipIdx (f.own - f.grans.length)
      let c := st.core g.core
      match out.foldl (fun s e => s.bind fun (s : State) => s.privSave g (spillOffset below e.2) (c.granuleWords e.1)) (some st) with
      | none => none
      | some s => some ((s.onGroup gid fun g => { g with frames := g.frames.modify i fun f =>
          if f.own = 0 then f else { f with spilled := true, topKept := false, grans := [] } }).onCore g.core fun c =>
            { c with free := insertAll (f.grans.filter fun x => !c.withdrawn.contains x) c.free })

/-- Results that have arrived for registers of the spill area are written there (R57 step 2). -/
def State.flushSpilled (st : State) (gid : Nat) : Option State :=
  match st.group? gid with
  | none => none
  | some g =>
    let ws := g.defers.flatMap fun d => d.writes.getD []
    match ws.foldl (fun s w => s.bind fun (s : State) =>
        let off := 0x10000 + 8 * (w.cell - 65536)
        match s.privNum g off 8 with
        | none => none
        | some old => s.privSave g off [((BitVec.ofNat 64 old &&& ~~~w.bits ||| (w.value &&& w.bits)).toNat, w.poison)]) (some st) with
    | none => none
    | some s => some (s.onGroup gid fun g => { g with defers := [] })

/-- Saves a group that has drained (R55): frames, stacks and image; none where a page of its private memory cannot be had. A PENDING group has
no frame and no state yet: only its STOPPED flag word is written (R184). The layout has no place for which slot issued less recently: after a
restore neither slot has issued, so slot A goes first, and the group ranks with those that have not issued since their creation (the model's
choice, log 66). -/
def State.saveGroup (st : State) (gid : Nat) : Option State :=
  match st.group? gid with
  | none => none
  | some g =>
    if g.frames = [] then
      (((st.leaveQueue gid).privSave g 0x2C28 [(0, 0)])).map fun s => s.onGroup gid fun g => { g with life := .saved, preempt := false }
    else
      let st := st.leaveQueue gid
      match (st.flushSpilled gid).bind fun (s : State) => (List.range g.frames.length).foldl (fun s i => s.bind fun (s : State) => s.saveFrame gid i) (some s) with
      | none => none
      | some s =>
        match s.group? gid with
        | none => none
        | some g1 =>
          let s := s.ensure (s.hwWho g1).root (s.hwWho g1).pool (g1.pbase.toNat + 0x4000) 0x2000
          match g1.image.foldl (fun s r => s.bind fun (s : State) => s.privSave g1 r.1 r.2) (some s) with
          | none => none
          | some s =>
            let quiet (x : Slot) : Slot := { x with pc := x.resumePc, hints := [], issued := 0 }
            some (((s.writeStacks gid).withdraw gid).onGroup gid fun g =>
              { g with life := .saved, preempt := false, a := quiet g.a, b := quiet g.b, burn := 0, shunt := 0, imbalance := false, issued := 0 })

/-! ### The image of a team (R232, R245) -/

/-- T of a team's launch. -/
def State.tmaxOf (st : State) (x : Team) : Nat := (NMap.get st.launches {} x.launch).tmax

/-- Runs of words of the matrix save region: offset in it, on-chip place and number of words. -/
def State.matrixRuns (st : State) (x : Team) : List (Nat × Nat × Nat) :=
  let t := st.tmaxOf x
  let gs := (x.groups.filterMap st.group?).filter fun g => g.life != .ended
  (gs.flatMap fun g => (List.range g.tiles).map fun k =>
    (0x1000 + 8192 * (t * g.index + k), chipPlace x.core (0x200000 + 8192 * (g.tile0 + k)), 1024)) ++
  (List.range x.slots).map fun k =>
    (0x1000 + 8192 * t * x.groups.length + 16384 * k, chipPlace x.core (0x400000 + 16384 * (x.slot0 + k)), 2048)

/-- Tile configuration words of a team: offset and word (R232). -/
def State.configRuns (st : State) (x : Team) : List (Nat × Nat × Nat) :=
  let gs := (x.groups.filterMap st.group?).filter fun g => g.life != .ended
  gs.flatMap fun g => (List.range g.tiles).map fun k => (64 * g.index + 8 * k, g.tile0 + k, 0)

/-- Virtual address of a team's scratch save region (R281). -/
def Team.scratchArea (x : Team) : Nat := x.savebase + x.savesize - x.ssize

/-- Writes a team's matrix state and scratch allotment to its save area. -/
def State.saveArea (st : State) (t : Nat) : Option State :=
  let x := st.team t
  let who := areaWho t x
  let c := st.core x.core
  let put (s : Option State) (off : Nat) (xs : List (Nat × Bool)) : Option State := s.bind fun (s : State) => s.areaWrite who (x.savebase + off) xs
  let s := (st.configRuns x).foldl (fun s r => put s r.1 [((NMap.get c.tileCfg 0 r.2.1).toNat, false)]) (some st)
  let s := if x.slots = 0 then s
    else put s 0x800 ((List.range 4).map fun w => (packed 8 ((List.range 8).map fun i =>
      if 8 * w + i < x.slots then NMap.get c.accKind 0 (x.slot0 + (8 * w + i)) else 0), false))
  let s := (st.matrixRuns x).foldl (fun s r => put s r.1 (st.chipWords r.2.1 r.2.2)) s
  if x.ssize = 0 then s
  else s.bind fun (s : State) => s.areaWrite who x.scratchArea (st.chipWords (chipPlace x.core x.scratch) (x.ssize / 8))

/-- Some operation in flight still reaches a range of places, or the completion word of a finished copy lies there (R245, R358). -/
def State.reaches (st : State) (lo n : Nat) : Bool :=
  (st.groups.any fun e => e.2.flight.any fun o => !o.finished &&
    ((o.work.spans ++ o.work.qldSpans ++ o.work.qstSpans ++ (match o.work with
      | .copy _ _ ms signal _ => ms.flatMap (fun m => (m.src.toList ++ m.dsts).flatMap fun x => x.segs) ++ signal.toList.map fun p => (p.1, 8)
      | _ => [])).any fun a => meets a (lo, n))) ||
  st.cores.any fun e => e.2.signals.any fun x => meets (x.place, 8) (lo, n)

/-- Ranges of a team's save area that a save writes and a restore reads: address and bytes (R232, R245). -/
def State.areaRuns (st : State) (x : Team) : List (Nat × Nat) :=
  (st.configRuns x).map (fun r => (x.savebase + r.1, 8)) ++ (if x.slots = 0 then [] else [(x.savebase + 0x800, 32)]) ++
    (st.matrixRuns x).map (fun r => (x.savebase + r.1, 8 * r.2.2)) ++ (if x.ssize = 0 then [] else [(x.scratchArea, x.ssize)])

/-- Ranges of a group's private memory that its save writes and its restore reads: offset and bytes (R45, R54, R55). -/
def Group.imageRuns (g : Group) : List (Nat × Nat) :=
  [(0, 0x2E40), (0x4000, 0x2000), (0x10000, 2048 * (g.frames.map fun (f : Frame) => f.own).sum)]

/-- A save of a group meets another team's pinned line (R356). -/
def State.groupHeld (st : State) (g : Group) : Bool :=
  let x := st.team g.team
  g.imageRuns.any fun r => st.areaHeld (some g.team) x.ptroot x.ftpool (g.pbase.toNat + r.1) r.2

/-- A save or a restore of a team's area meets another team's pinned line (R356). -/
def State.areaPinned (st : State) (t : Nat) (x : Team) : Bool := (st.areaRuns x).any fun r => st.areaHeld (some t) x.ptroot x.ftpool r.1 r.2

/-! ### Pre-emption (R57, R292, R294) -/

/-- A team stops for a save: its groups stop issuing, their windows close, their frame requests leave their core's queue and are kept for the
image (R55, R137). A team that has ended is not touched (R294). -/
def State.preemptTeam (st : State) (t : Nat) (migrate : Option Nat) : State :=
  let x := st.team t
  if x.life ≠ .live then st
  else x.groups.foldl (fun s gid => match s.group? gid with
    | none => s
    | some g =>
      if g.life = .ended ∨ g.life = .draining then s
      else ((s.setGroup gid { g with preempt := true }).closeWindows gid fun a => a != .handler).leaveQueue gid)
    (st.onTeam t fun x => { x with life := .saving, migrate := migrate })

/-- A group that stops for a save has drained (R57, R158, R183): no handler is under way, no arrival is out, every counter but QS
is 0, RESERVED entries are filled, no QST of a LIVE group waits whose entry is FULL, and every deferred write of a register in the file is made. -/
def Group.drained (g : Group) : Bool :=
  g.arrivals.isEmpty && !(g.life == .live && g.boundFull) &&
    (g.life == .pending || g.life == .live || (g.life == .stopped && (g.stage == .running || g.stage == .escalated))) &&
    g.flight.all (fun o => match o.work with
      | .qst _ _ _ _ _ none => true
      | _ => false) &&
    g.defers.all fun d => d.writes.isSome && d.regs.all fun r => decide (2048 ≤ r)

/-- Every group of a team but one is saved or has ended. -/
def State.lastToSave (st : State) (t gid : Nat) : Bool :=
  (st.team t).groups.all fun i => i == gid || (match st.group? i with
    | some g => g.life == .saved || g.life == .ended
    | none => true)

/-- Die that takes a restore list: the core's own, or the next online die (R337). -/
def State.restoreDie (st : State) (core : Nat) : Nat := st.servingDie (dieOf core)

/-- Records of a team leave its core's record cache (R271). -/
def State.dropRecords (st : State) (core t : Nat) : State :=
  st.onCore core fun c => { c with records := c.records.filter fun r => r.team != t }

/-! ### Restoring (R55, R232, R245, R292, R293) -/

/-- A slot as the save area gives it. -/
def slotFrom (old : Slot) (w0 w1 : Nat) : Slot :=
  let life : SlotLife := match w1 / 2 ^ 32 % 256 with
    | 0 => .empty
    | 1 => .ready
    | 2 => .stalled
    | 3 => .held
    | _ => .parked
  { old with pc := BitVec.ofNat 64 w0, mask := BitVec.ofNat 32 w1, life := life, tag := w1 / 2 ^ 40 % 256 }

/-- A join entry as the save area gives it. -/
def joinFrom (w0 w1 : Nat) : Join :=
  { expected := BitVec.ofNat 32 w0, arrived := BitVec.ofNat 32 (w0 / 2 ^ 32), pc := (BitVec.ofNat 55 w1).signExtend 62 ++ 0#2,
    depth := w1 / 2 ^ 55 % 256, armed := w1.testBit 63 }

/-- A queue entry's state from its number. -/
def entryFrom : Nat → EntryLife
  | 0 => .free
  | 1 => .reserved
  | _ => .full

/-- Piece i of n bits of a number. -/
def pieceOf (n i x : Nat) : Nat := x / 2 ^ (n * i) % 2 ^ n

/-- Both stacks of a restored group as private memory holds them: the frames of each depth down to the launch frame, and the records of the
divergence stack from the top; what the hardware keeps where it is not mapped (R38, R43, R55). -/
def State.readBack (st : State) (g : Group) (depth count : Nat) : Group :=
  match st.privRange g 0x4000 0x2000 .read with
  | .error _ => { g with shown := [] }
  | .ok segs =>
    let num (off : Nat) : Nat := numOf ((List.range 16).map fun i => st.viewByte g.core g.team (segPlace segs (off + i)))
    let frame (d : Nat) : Frame :=
      let f := ({} : Frame).fromBits (num (0x1000 + 16 * d))
      { f with size := if d = 0 then 8 * f.own else 8 * f.own + 8 }
    { g with
      frames := ((List.range (depth + 1)).map frame).reverse
      div := ((List.range count).map fun k => divOf (num (0x200 - 16 * (k + 1)))).reverse
      shown := [] }

/-- A queue as the save area gives it: entry states and poison pairs, the entries in use in order, and the entry after the one taken last. -/
def queueFrom (old : Queue) (q : Nat) (states heads bound order : Nat) (data : Nat → NMap Lane) (poison : Nat → NMap (BitVec 2)) : Queue :=
  let code := pieceOf 32 (q % 2) order
  { entries := (List.range 8).map fun e => (e, { (NMap.get old.entries {} e : QEntry) with
      life := entryFrom (pieceOf 2 (8 * q + e) states), bound := pieceOf 1 (8 * q + e) bound = 1, data := data e, poison := poison e })
    order := (List.range (min 8 (code / 2 ^ 28))).map fun i => pieceOf 3 i code
    next := pieceOf 8 (q + 4) heads }

/-- A group's image, read back from private memory where it is mapped (R55, R128, R184; log 13). The operations behind the QS counter, and
what the frames' registers are, stay with the hardware. Reserved bits of the shape registers and of cr.tcause read as zeros whatever the area holds
(R8, R50, R170). -/
def State.readImage (st : State) (gid : Nat) : State :=
  match st.group? gid with
  | none => st
  | some g => match st.privRange g 0 0x2E40 .read with
    | .error _ => st
    | .ok segs =>
      let num (off n : Nat) : Nat := numOf ((List.range n).map fun i => st.viewByte g.core g.team (segPlace segs (off + i)))
      let lanes (off : Nat) : NMap Lane := (List.range 32).foldl (fun m l => NMap.store m 0 l (BitVec.ofNat 64 (num (off + 8 * l) 8))) []
      let marks (off : Nat) : NMap (BitVec 2) := (List.range 32).foldl (fun m l => NMap.store m 0 l (st.homePoison (segPlace segs (off + 8 * l)))) []
      let stopped := num 0x2C28 8 % 2 == 1
      let g := st.readBack { g with flight := g.flight.take (pieceOf 8 4 (num 0x28 8)), frameReq := requestFrom gid (num 0x30 8) (num 0x38 8) }
        (num 0x20 1) (num 0x21 1)
      let g := { g with
        joins := (List.range 16).map fun k => (k, joinFrom (num (0x100 + 16 * k) 8) (num (0x108 + 16 * k) 8))
        a := slotFrom g.a (num 0 8) (num 8 8)
        b := slotFrom g.b (num 16 8) (num 24 8)
        preds := (List.range 224).foldl (fun m i => NMap.store m 0 (32 + i) (BitVec.ofNat 8 (num (0x200 + i) 1))) []
        accessPc := if g.waitingQst.isSome then BitVec.ofNat 64 (num 0x300 8) - 4 else BitVec.ofNat 64 (num 0x300 8)
        accessLife := match num 0x308 8 with
          | 0 => .running
          | 1 => .stalled
          | _ => .done
        y := (List.range 16).foldl (fun m i => NMap.store m 0 i (BitVec.ofNat 64 (num (0x310 + 8 * i) 8))) []
        shapes := (List.range 16).foldl (fun m h => NMap.store m 0 h (shapeDefined (BitVec.ofNat 512 (num (0x400 + 64 * h) 64)))) []
        queues := (List.range 4).map fun q => (q, queueFrom (g.queue q) q (num 0x2800 8) (num 0x2808 8) (num 0x2818 8) (num (0x2820 + 8 * (q / 2)) 8)
          (fun e => lanes (0x800 + 2048 * q + 256 * e)) fun e => marks (0x800 + 2048 * q + 256 * e))
        keys := (List.range 32).foldl (fun m l => NMap.store m 0 l (BitVec.ofNat 64 (num (0x2840 + 16 * l) 8))) []
        ctrs := (List.range 32).foldl (fun m l => NMap.store m 0 l (BitVec.ofNat 64 (num (0x2848 + 16 * l) 8))) [] }
      st.setGroup gid (if stopped then { g with trap :=
        { cause := BitVec.ofNat 64 (num 0x2C00 8) &&& 0x0FFF1FFF#64, pc := BitVec.ofNat 64 (num 0x2C08 8), resume := BitVec.ofNat 64 (num 0x2C10 8),
          mask := BitVec.ofNat 64 (num 0x2C18 8), addr := lanes 0x2C40, info := lanes 0x2D40 } } else g)

/-- Lanes of the file that hold the lanes of a slot, shadows among them (R181). -/
def Group.physLanes (g : Group) (src : Source) : List Nat :=
  (lanesOf (g.slot src).mask).flatMap fun l => if g.prot then [2 * l, 2 * l + 1] else [l]

/-- Writes a system call's result to v(F − 8) of the parked slot's lanes where the spill area holds that register (R45, R162). -/
def State.spilledResult (st : State) (g : Group) (src : Source) (v : Lane) : State :=
  match g.frames.findIdx? fun f => decide (f.own ≠ 0) with
  | none => st
  | some i =>
    let own := match g.frames[i]? with
      | some f => f.own
      | none => 0
    let off := spillOffset (g.frames.drop (i + 1)) (own - 1)
    (g.physLanes src).foldl (fun s l => match s.privRange g (off + 8 * l) 8 .write with
      | .ok segs => s.privWrite g (off + 8 * l) segs 8 [(v.toNat, 0)]
      | .error _ => s) st

/-- Delivers a system call's result that waited for the restore: to v(F − 8) where the spill area holds it (R162). -/
def State.deliverLate (st : State) (gid : Nat) : State :=
  match st.group? gid with
  | none => st
  | some g => match g.sysret with
    | some v =>
      let src : Source := if g.a.life = .parked then .slotA else .slotB
      (st.spilledResult g src v).onGroup gid fun g => { g.setSlot src { g.slot src with life := .ready } with sysret := none, tag := none }
    | none => st

/-- One group of a restored team comes back on its new core. -/
def State.restoreGroup (st : State) (gid core number tile0 acc0 : Nat) : State :=
  match st.group? gid with
  | none => st
  | some g =>
    if g.life ≠ .saved then st
    else
      let st := st.setGroup gid { g with core := core, number := number, tile0 := tile0, acc0 := acc0 }
      if g.frames = [] then
        let n := match g.frameReq with
          | some r => r.grans
          | none => 1
        (st.onGroup gid fun g => { g with life := .pending }).enqueueFrame gid { gid := gid, src := .slotA, kind := .launch, grans := n }
      else
        let st := (st.readImage gid).deliverLate gid
        let st := st.onGroup gid fun g => if g.resumed then g.resumeSlot else g
        let st := st.onGroup gid fun g => { g with life := if g.stage = .escalated ∨ g.a.life = .parked ∨ g.b.life = .parked then .stopped else .live }
        match (st.group? gid).bind fun g => g.frameReq with
        | some r => st.goOnReturn gid r.src r.kind
        | none => st.goOnReturn gid .slotA .restore

/-- Reads a team's matrix state and scratch allotment back. -/
def State.readArea (st : State) (t : Nat) : State :=
  let x := st.team t
  let who := areaWho t x
  let get (off n : Nat) : List (Nat × Bool) := (st.areaRead who (x.savebase + off) n).getD []
  let st := x.groups.foldl (fun s gid => match s.group? gid with
    | some g => if g.life = .ended then s else s.onCore x.core fun c => c.clearTiles g.tile0 g.tiles
    | none => s) (st.onCore x.core fun c => (c.clearSlots x.slot0 x.slots).clearScratch x.scratch x.ssize)
  let st := (st.configRuns x).foldl (fun s r => match get r.1 1 with
    | w :: _ => s.onCore x.core fun c => { c with tileCfg := NMap.store c.tileCfg 0 r.2.1 (BitVec.ofNat 64 w.1) }
    | [] => s) st
  let kinds := if x.slots = 0 then [] else get 0x800 4
  let st := (List.range x.slots).foldl (fun s k =>
    s.onCore x.core fun c => { c with accKind := NMap.store c.accKind 0 (x.slot0 + k) ((kinds.getD (k / 8) (0, false)).1 / 2 ^ (8 * (k % 8)) % 256) }) st
  let st := (st.matrixRuns x).foldl (fun s r => s.putWords r.2.1 (get r.1 r.2.2)) st
  if x.ssize = 0 then st
  else st.putWords (chipPlace x.core x.scratch) ((st.areaRead who x.scratchArea (x.ssize / 8)).getD [])

/-- Some access in flight still reaches a team's image (R245). -/
def State.imageReached (st : State) (t : Nat) : Bool :=
  let x := st.team t
  decide (0 < x.ssize) && (match st.checkRange (areaWho t x) x.scratchArea x.ssize 1 .read with
    | .ok segs => segs.any fun a => st.reaches a.1 a.2
    | .error _ => false)

/-- The pages of a team's save area, mapped on first touch where they are not; none where one cannot be read (R245). -/
def State.areaReady (st : State) (t : Nat) (x : Team) : Option State :=
  let who := areaWho t x
  (st.areaRuns x).foldl (fun s r => s.bind fun (s : State) =>
    let s := s.ensure who.root who.pool r.1 r.2
    match s.checkRange who r.1 r.2 1 .read with
    | .ok _ => some s
    | .error _ => none) (some st)

/-- The restore of a team meets a pinned line: of its context's descriptor, of its save area, or of a group's private memory (R356). -/
def State.restoreHeld (st : State) (t : Nat) : Bool :=
  let x := st.team t
  st.contextHeld x.ctx || (!st.pins.isEmpty && (st.areaPinned t (st.readContext x x.ctx) || (x.groups.filterMap st.group?).any st.groupHeld))

/-- Restores a saved team on a core (R293); a save area that cannot be read kills the gang, as one that cannot be written does (R245). -/
def State.restoreTeam (st : State) (t core : Nat) : State :=
  let x := st.team t
  match st.fit core (st.restoreNeed t) with
  | none => st
  | some f =>
    let y : Team := st.readContext
      { x with core := core, life := .live, scratch := f.scratch, slot0 := f.slot, stamp := st.free, placed := st.clock, migrate := none } x.ctx
    match st.areaReady t y with
    | none => st.doom x.gang { cause := 0x34, group := none }
    | some st =>
    let st := { st with free := st.free + 1, dies := st.dies.map fun (e : Nat × Die) => (e.1, { e.2 with restore := e.2.restore.filter (· != t) }) }
    let st := (st.onTeam t fun _ => y).onGang x.gang fun g => { g with die := dieOf core, map := g.map.set x.rank core }
    let st := (x.groups.zipIdx 0).foldl (fun s e => match s.group? e.1 with
      | some g => s.restoreGroup e.1 core (f.numbers.getD e.2 0) (f.tiles.getD e.2 0) (f.slot + (g.acc0 - x.slot0))
      | none => s) st
    (st.readArea t).onCore core fun c => { c with vacated := false }

/-- TEAM_RESTORE (R288, R293): the team, if it is the first on its die's list that fits. A team of a gang that is to be killed is not on it
(R298). -/
def execTeamRestore (team : Nat) (st : State) : Host.Outcome State Fault Refusal :=
  match (List.range 4).find? fun d => (st.die d).restore.contains team with
  | none => .next st
  | some d =>
    let first := (st.restores d).find? fun t => (st.restoreCore d t fun _ => true).isSome
    if first = some team ∧ !st.imageReached team ∧ !st.restoreHeld team then
      .next (match st.restoreCore d team fun _ => true with
        | some c => st.restoreTeam team c
        | none => st)
    else .next st

/-- Plot temperature of a core. -/
def State.coreTemp (st : State) (core : Nat) : Nat := (st.plot (plotOf core)).temp

/-- A saved team joins the restore list of its die (R292 step 6). -/
def State.requeue (st : State) (t : Nat) : State :=
  st.onDie (st.restoreDie (st.team t).core) fun d => { d with restore := d.restore ++ [t] }

/-- A team left for a cluster that has not been created yet: it joins the restore list afterwards (R292 steps 5 and 6). -/
def State.leftFor (st : State) (t : Nat) : Bool := st.preempts.any fun p => p.victims.contains t

/-- The whole team is saved (R292 steps 3, 4 and 6, R356): it joins the restore list, or a migrating one is restored at once (R295). Every write of its
core's L1 goes home, those of other teams too, since its groups may have read them and go on on another core (R348, R351). -/
def State.saveTeam (st : State) (t : Nat) : State :=
  let x := st.team t
  match st.saveArea t with
  | none => st.doom x.gang { cause := 0x34, group := none }
  | some s =>
    let s := ((s.drainAll x.core).unpin t).dropRecords x.core t
    let s := s.onTeam t fun x => { x with life := .saved }
    let queue (s : State) : State := let s := s.onTeam t fun x => { x with migrate := none }
      if s.leftFor t then s else s.requeue t
    match x.migrate with
    | none => queue (s.onCore x.core fun c => { c with vacated := true })
    | some temp => match s.restoreCore (dieOf x.core) t fun c => decide (s.coreTemp c + 10 ≤ temp) with
      | some c => if s.imageReached t || s.restoreHeld t then queue s else s.restoreTeam t c
      | none => queue s

/-- Writes of a team wait in its core's L1 behind a pin of another core. -/
def State.teamWritesHeld (st : State) (core t : Nat) : Bool := (st.core core).l1.any fun w => w.team == t && st.drainHeld core w

/-- A team whose last group is saved has still to wait: for an access under way to its allotment, for a write of its core's L1 that a pin holds, or
for a pinned line of its save area (R245, R351, R356). -/
def State.saveHeld (st : State) (t : Nat) : Bool :=
  let x := st.team t
  (decide (0 < x.ssize) && st.reaches (chipPlace x.core x.scratch) x.ssize) || !st.canDrain x.core || st.areaPinned t x

/-- GROUP_SAVE (R55, R57, R245): a drained group of a team being saved is written to its save area; with the team's last group the
team is saved. A save that cannot be made kills the gang with cause 0x34. -/
def execGroupSave (gid : Nat) (st : State) : Host.Outcome State Fault Refusal :=
  match st.group? gid with
  | none => .next st
  | some g =>
    let x := st.team g.team
    if !(g.preempt && x.life == .saving && g.drained && (st.gang x.gang).kill.isNone) then .next st
    else
      let last := st.lastToSave g.team gid
      if st.groupHeld g || (last && st.saveHeld g.team) then .next st
      else match st.saveGroup gid with
        | none => .next (st.doom x.gang { cause := 0x34, group := none })
        | some s => .next (if last then s.saveTeam g.team else s)

/-! ### Spatial pre-emption (R292, R296) -/

/-- Victims in order: lowest PRIO first, then the fewest groups. -/
def insertVictim (e : Nat × Team) : List (Nat × Team) → List (Nat × Team)
  | [] => [e]
  | f :: rest =>
    if e.2.prio < f.2.prio ∨ (e.2.prio = f.2.prio ∧ e.2.groups.length < f.2.groups.length) then e :: f :: rest else f :: insertVictim e rest

/-- The next team of a core that leaves for a team of a priority, beside those that have been picked (R292 step 1). -/
def State.nextVictim (st : State) (core prio : Nat) (gone : List Nat) : Option Nat :=
  (((st.teamsOn core).filter fun e => e.2.life == .live && decide (e.2.prio < prio) && !gone.contains e.1).foldl (fun l e => insertVictim e l) []).head?.map
    fun (e : Nat × Team) => e.1

/-- The teams that leave the cores of a rectangle until each of them fits a team: the first core that does not fit yet gives up its next
victim, or where only the classes of its stack-mate keep the team out, and the mate is a core of the rectangle, the mate does (R289, R292
step 1). None where some core cannot be made to fit. -/
def State.victims (st : State) (n : Need) (prio : Nat) (cores : List Nat) : Nat → List Nat → Option (List Nat)
  | 0, _ => none
  | fuel + 1, gone =>
    match cores.find? fun c => (st.fitBut c n gone).isNone with
    | none => some gone
    | some c =>
      let byMate := (st.fitBut c { n with bal := 3 } gone).isSome && cores.contains (mateOf c)
      match st.nextVictim (if byMate then mateOf c else c) prio gone with
      | some t => st.victims n prio cores fuel (t :: gone)
      | none => none

/-- The teams that have still to be stopped so that a cluster fits a rectangle, once those that are being saved have left. -/
def State.vacates (st : State) (id : Nat) (l : Launch) (c origin : Nat) : Option (List Nat) :=
  let rect := rectangle origin l.w l.h
  let cores := (st.ranksOf l c).map fun r => rect.getD r 0
  let leaving := ((rect.flatMap st.teamsOn).filter fun e => e.2.life == .saving).map fun (e : Nat × Team) => e.1
  (st.victims (l.need id c) l.prio cores (8 * cores.length + 1) leaving).map fun gone => gone.filter fun t => !leaving.contains t

/-- A cluster for which a pre-emption request stands is still to be created. -/
def State.stillWanted (st : State) (p : Preempt) : Bool :=
  match NMap.find st.launches p.launch with
  | some l => !l.finished && (match l.cluster p.cluster with
      | .waiting _ => !l.closed
      | .relaunch _ _ => true
      | _ => false)
  | none => false

/-- Makes a pre-emption request (R292): one for a cluster at a time. -/
def State.askFor (st : State) (launch cluster origin : Nat) : State :=
  if st.preempts.any fun p => p.launch == launch && p.cluster == cluster then st
  else { st with preempts := st.preempts ++ [{ launch := launch, cluster := cluster, origin := origin }] }

/-- Teams stop for a save, as victims of a standing request (R292). -/
def State.stopFor (st : State) (launch cluster : Nat) (ts : List Nat) : State :=
  ts.foldl (fun s t => s.preemptTeam t none) { st with preempts := st.preempts.map fun q =>
    if q.launch = launch ∧ q.cluster = cluster then { q with victims := q.victims ++ ts } else q }

/-- Teams of requests that stand no more join the restore lists, those that are saved; the others do when they are. -/
def State.releaseVictims (st : State) : State :=
  let ended := st.preempts.filter fun p => !st.stillWanted p
  (ended.flatMap fun p => p.victims.filter fun t => (st.team t).life == .saved).foldl State.requeue
    { st with preempts := st.preempts.filter st.stillWanted }

/-- A standing request is carried on (R292, R294): the cluster is created where its rectangle fits, cores left empty being taken at once; else
the teams that now occupy its cores, and have not been asked yet, stop for a save. -/
def State.pressOne (st : State) (p : Preempt) : State :=
  match NMap.find st.launches p.launch with
  | none => st
  | some l =>
    if !st.mayPlace l p.cluster || st.recordHeld l then st
    else if st.rectFits p.launch l p.cluster (st.ranksOf l p.cluster) p.origin then st.createOrClose p.launch l p.cluster p.origin
    else match st.vacates p.launch l p.cluster p.origin with
      | none => st
      | some ts => st.stopFor p.launch p.cluster ts

/-- Every standing pre-emption request is carried on, and the teams of those that are over are requeued. -/
def State.pressAll (st : State) : State := (st.preempts.foldl State.pressOne st).releaseVictims

/-- SPATIAL_PREEMPTION (R292): for a cluster that may be placed and fits nowhere, on a rectangle of its home die that can be made to fit. -/
def execSpatialPreemption (launch cluster origin : Nat) (st : State) : Host.Outcome State Fault Refusal :=
  match NMap.find st.launches launch with
  | none => .next st
  | some l =>
    if st.mayPlace l cluster && (origins l.die l.w l.h).contains origin && (st.offerFits (launch, cluster)).isNone &&
        (st.vacates launch l cluster origin).isSome then .next (st.askFor launch cluster origin).pressAll
    else .next st

/-- The rectangle that R296 chooses on the home die: free score, LIVE groups, origin. -/
def State.fenceChoice (st : State) (id : Nat) (l : Launch) (c : Nat) : Option Nat :=
  let fenced (k : Nat) : Bool := st.fencedFor k 0 0
  let ok := (origins l.die l.w l.h).filter fun o => (rectangle o l.w l.h).all fun k => !(st.core k).mode3 && !fenced k
  (best (ok.map fun o =>
    let cs := rectangle o l.w l.h
    let free := ((st.ranksOf l c).filter fun r => (st.fit (cs.getD r 0) (l.need id c)).isSome).length
    (12 - free, 1024 - (cs.map fun k => st.occ k).sum, o))).map fun b => b.2.2

/-- Time since which a cluster waits without fitting. -/
def ClusterLife.since : ClusterLife → Option Nat
  | .waiting s => s
  | .relaunch _ s => s
  | _ => none

/-- The 100 microseconds of a cluster begin again after a pre-emption request or a fence (the model's choice, log 72). -/
def State.waitAgain (st : State) (id c : Nat) (l : Launch) : State :=
  st.setCluster id c (match l.cluster c with
    | .relaunch g _ => .relaunch g (some st.clock)
    | _ => .waiting (some st.clock))

/-- PLACEMENT_TIMEOUT (R296): after 100 microseconds without fitting, a cluster pre-empts a rectangle of lower teams, or fences it. Where even the
rectangle without them would not fit, for the class of a stack-mate beside it, they leave all the same and the request stands until that core
admits it (log 72). -/
def execPlacementTimeout (launch cluster : Nat) (st : State) : Host.Outcome State Fault Refusal :=
  match NMap.find st.launches launch with
  | none => .next st
  | some l =>
    let due := match (l.cluster cluster).since with
      | some s => decide (s + 100000 ≤ st.clock)
      | none => false
    if !(due && st.mayPlace l cluster && (st.offerFits (launch, cluster)).isNone) then .next st
    else match st.fenceChoice launch l cluster with
      | none => .next st
      | some o =>
        let teams := (rectangle o l.w l.h).flatMap st.teamsOn
        let die := st.die l.die
        if teams.all fun e => decide (e.2.prio < l.prio) then
          let s := st.askFor launch cluster o
          let s := if (st.vacates launch l cluster o).isSome then s
            else s.stopFor launch cluster ((teams.filter fun e => e.2.life == .live).map fun (e : Nat × Team) => e.1)
          .next (s.pressAll.waitAgain launch cluster l)
        else if (die.fences.any fun f => f.launch == launch && f.cluster == cluster) || decide (4 ≤ die.fences.length) then .next st
        else .next ((st.onDie l.die fun d => { d with fences := d.fences ++ [{ launch := launch, cluster := cluster, origin := o }] }).waitAgain
          launch cluster l)

/-! ### Migration (R295) -/

/-- A team that migration skips: a CPY or QS counter above 0, or a handler under way. -/
def State.skipped (st : State) (x : Team) : Bool :=
  x.groups.any fun gid => match st.group? gid with
    | some g => g.counter .cpy != 0 || g.counter .qs != 0 ||
        (g.life == .stopped && (g.stage == .inHandler || g.stage == .frameWait || g.stage == .draining))
    | none => false

/-- The hottest plot of a die. -/
def State.hottest (st : State) (die : Nat) : Nat :=
  (List.range 40).foldl (fun p q => if (st.plot (40 * die + p)).temp < (st.plot (40 * die + q)).temp then q else p) 0

/-- HOT_SPOT_MIGRATION (R295): at a sample, the team that has stayed longest in the hottest plot, if that is at 95 degrees or more and a
core of a plot 10 degrees cooler fits the team (log 42). -/
def execHotSpotMigration (die : Nat) (st : State) : Host.Outcome State Fault Refusal :=
  let p := 40 * die + st.hottest die
  let temp := (st.plot p).temp
  let teams := ((plotCores p).flatMap st.teamsOn).filter fun e => e.2.life == .live && !st.skipped e.2
  let oldest := teams.foldl (fun (o : Option (Nat × Team)) e => match o with
    | some x => if e.2.placed < x.2.placed then some e else o
    | none => some e) none
  if st.now % 10000 ≠ 0 ∨ (st.die die).migrated = some st.now ∨ temp < 95 then .next st
  else match oldest with
    | none => .next st
    | some (t, _) => match st.restoreCore die t fun c => decide (st.coreTemp c + 10 ≤ temp) with
      | some _ => .next ((st.preemptTeam t (some temp)).onDie die fun d => { d with migrated := some st.now })
      | none => .next st

end Sys2Proof.Machine
end

