-- ==== Sys2Proof/Machine/Life.lean ====
section
/-! DEFINITION. The ends of groups, teams and gangs: GROUP_DRAINED (R58), VERSION_COMMIT (R336), TEAM_COMPLETION (R285), GANG_KILL
(R267) and GANG_RELAUNCH (R269). -/

namespace Sys2Proof.Machine

/-- Takes a team and its groups out of the package. -/
def State.forgetTeam (st : State) (t : Nat) : State :=
  let gs := (st.team t).groups
  { st with teams := NMap.del st.teams t, groups := NMap.keep st.groups fun k _ => !gs.contains k }

/-- A group frees its frames (R58 step 3). -/
def State.freeFrames (st : State) (gid : Nat) : State :=
  match st.group? gid with
  | none => st
  | some g =>
    let gs := g.frames.flatMap fun (f : Frame) => f.grans
    ((st.freeGranules gid g.core gs).withdraw gid).onGroup gid fun g => { g with frames := [], frameReq := none, defers := [], flight := [] }

/-- A team whose last group has ended: its pins go after its L1 writes, its records leave the cache (R192, R271, R356). -/
def State.endTeam (st : State) (t : Nat) : State :=
  let x := st.team t
  (((st.releasePins x.core t).dropRecords x.core t)).onTeam t fun x => { x with life := .ended, migrate := none }

/-- Every group of a team but one has ended. -/
def State.lastToEnd (st : State) (t gid : Nat) : Bool :=
  (st.team t).groups.all fun i => i == gid || (match st.group? i with
    | some g => g.life == .ended
    | none => true)

/-- A DRAINING group's counters read 0; a QST that has bound no entry was halted with its stream (R58). -/
def Group.emptied (g : Group) : Bool := g.flight.all fun o => match o.work with
  | .qst _ _ _ _ _ none => true
  | _ => false

/-- GROUP_DRAINED (R56, R58, R294): the group is ENDED and its resources are free; with the last group its team ends, or a team being
saved is saved. Once its gang is to be killed no team of it ends any more (R269). -/
def execGroupDrained (gid : Nat) (st : State) : Host.Outcome State Fault Refusal :=
  match st.group? gid with
  | none => .next st
  | some g =>
    let x := st.team g.team
    let ends := st.lastToEnd g.team gid
    let saves := !ends && x.life == .saving && st.lastToSave g.team gid
    if !(g.life == .draining && g.emptied) || (st.gang x.gang).kill.isSome || (ends && st.teamWritesHeld x.core g.team) ||
        (saves && st.saveHeld g.team) then .next st
    else
      let st := (st.freeFrames gid).onGroup gid fun g => { g with life := .ended, preempt := false }
      .next (if ends then st.endTeam g.team else if saves then st.saveTeam g.team else st)

/-! ### Versions (R336) -/

/-- Merges a version line's masked bytes into the committed line at its home; the L1 copies of the line go (R317, R336). Only a write of the whole
word clears a word's mark (R321). -/
def State.mergeLine (st : State) (v : VersionLine) : State :=
  let s0 := (st.install (128 * v.line) { traffic := st.trafficOf v.team, write := true }).giveUp v.line none
  let st := v.bytes.foldl (fun s e => s.setHomeByte (128 * v.line + e.1) e.2) s0
  (List.range 16).foldl (fun s w =>
    let masked := (List.range 8).filter fun i => (NMap.find v.bytes (8 * w + i)).isSome
    if NMap.get v.poison false w then s.setHomeBad (128 * v.line + 8 * w) true
    else if masked.length = 8 then s.setHomeBad (128 * v.line + 8 * w) false
    else if masked.isEmpty then s
    else s.setHomePoison (128 * v.line + 8 * w) (s0.homePoison (128 * v.line + 8 * w))) st

/-- The version of a team may be merged: every group of the team has ended, and its gang is not to be killed, unless the merge has begun before
(R267 step 3, R269, R336; log 40). -/
def State.mayCommit (st : State) (team : Nat) : Bool :=
  let x := st.team team
  (NMap.find st.teams team).isSome && x.life == .ended && ((st.gang x.gang).kill.isNone || x.committing)

/-- Merges version lines of a team in turn and frees them, unless one of them is pinned. -/
def State.commitLines (st : State) (team : Nat) (vs : List VersionLine) : State :=
  if !st.mayCommit team || vs.any (fun v => st.pins.any fun p => p.line == v.line) then st
  else
    let s := (vs.foldl State.mergeLine st).onTeam team fun x => { x with committing := !vs.isEmpty, vcount := x.vcount - vs.length }
    { s with versions := s.versions.filter fun v => !vs.contains v }

/-- The lines of a team's version at one slice are merged there: an agent may see some slices' merges and not others (R336). -/
def State.mergeSlice (st : State) (team slice : Nat) : State :=
  st.commitLines team (st.versions.filter fun v => v.team == team && st.homeSlice (128 * v.line) == slice)

/-- VERSION_COMMIT (R336): what is left of a team's version is merged and freed. -/
def execVersionCommit (team : Nat) (st : State) : Host.Outcome State Fault Refusal :=
  .next (st.commitLines team (st.versions.filter fun v => v.team == team))

/-! ### Completion (R285) -/

/-- The gang's work is done: every team has completed. Its objects, teams and map go. -/
def State.endGang (st : State) (gang : Nat) : State :=
  let g := st.gang gang
  if g.kill.isNone && g.teams.all fun t => (st.team t).completed then
    let st := (g.teams.foldl State.forgetTeam st).setCluster g.launch g.cluster .ended
    { st with gangs := NMap.del st.gangs gang }
  else st

/-- The completion atomics of a team: its bit, then DONE; none where the bitmap is not to be reached (R282, R285). -/
def State.setBit (st : State) (l : Launch) (n : Nat) : Option State :=
  match st.ctxPlace l.ctx (l.cbAddr + 64 + n / 8) .rmw, st.ctxPlace l.ctx (l.cbAddr + 8) .rmw with
  | some p, some d =>
    let st := st.writeHome p (bytesOf (Nat.lor (st.homeNum p 1) (2 ^ (n % 8))) 1) false
    let st := st.writeHome d (bytesOf (st.homeNum d 8 + 1) 8) false
    some ((st.ctxTouch l.ctx (l.cbAddr + 64 + n / 8) true).ctxTouch l.ctx (l.cbAddr + 8) true)
  | _, _ => none

/-- A line of a launch's bitmap that a team's completion writes is pinned (R356). -/
def State.bitmapPinned (st : State) (l : Launch) (n : Nat) : Bool := st.ctxHeld l.ctx (l.cbAddr + 64 + n / 8) || st.ctxHeld l.ctx (l.cbAddr + 8)

/-- The completion word of a finished copy of a team is still to be incremented (R256, R285). -/
def State.signalsOf (st : State) (team : Nat) : Bool := st.cores.any fun e => e.2.signals.any fun x => x.team == team

/-- TEAM_COMPLETION (R285): a team whose groups have ended and whose version has committed sets its bit and raises DONE, as releases at
device scope; the launch, its dependents and its queue follow. -/
def execTeamCompletion (team : Nat) (st : State) : Host.Outcome State Fault Refusal :=
  match NMap.find st.teams team with
  | none => .next st
  | some x =>
    let l := NMap.get st.launches {} x.launch
    if x.life ≠ .ended ∨ x.completed ∨ (st.versions.any fun v => v.team == team) ∨ st.signalsOf team ∨ st.bitmapPinned l x.number then .next st
    else
      let st := st.releasePins x.core team
      let st := if l.status = 0x07 then st
        else match st.setBit l x.number with
          | some s => s
          | none => st.closeLaunch x.launch 0x07
      let st := st.onTeam team fun x => { x with completed := true }
      let st := if (NMap.find st.gangs x.gang).isSome && (st.gang x.gang).kill.isNone then st.endGang x.gang else st.forgetTeam team
      .next st.settleLaunches.noteEligible

/-! ### Killing (R266 to R268) -/

/-- An operation that a kill lets complete: stores, atomics, TST, ZST and what the ST path holds besides, and what a copy still writes of
the lines that it has begun (R267 step 2). -/
def Op.completes (o : Op) : Bool := !o.finished && (o.work.stores || (match o.work with
  | .enq .. => true
  | .discard _ => true
  | .copy _ _ moves _ _ => !(stopsAt moves).isEmpty
  | _ => false))

/-- A group of a gang that is to be killed has still to complete something: an operation, or an arrival that may count (R263, R267). -/
def State.completing (st : State) (g : Group) : Bool := g.flight.any Op.completes || st.arrivalDue g

/-- Takes everything that a group has in its core's units away (R233, R267 steps 1, 2 and 4). -/
def State.abandon (st : State) (gid : Nat) : State :=
  match st.group? gid with
  | none => st
  | some g =>
    let st := ((st.freeHandler gid).freeFrames gid).onCore g.core fun c => { c with
      matrix := c.matrix.filter fun e => e.1 != gid
      copies := c.copies.filter fun e => e.1 != gid
      sfu0 := c.sfu0.filter fun e => e.1 != gid
      sfu1 := c.sfu1.filter fun e => e.1 != gid
      silt := if c.silt.chosen = some gid then ({} : Silt) else c.silt }
    { st with host := { st.host with tags := st.host.tags.filter fun e => e.2.1 != gid } }

/-- Ends a team of a killed gang. -/
def State.killTeam (st : State) (t : Nat) : State :=
  let x := st.team t
  let st := x.groups.foldl State.abandon st
  let st := ((st.dropVersion t).releasePins x.core t).dropRecords x.core t
  let st := st.onCore x.core fun c => { c with signals := c.signals.filter fun e => e.team != t }
  State.forgetTeam { st with dies := st.dies.map fun (e : Nat × Die) => (e.1, { e.2 with restore := e.2.restore.filter (· != t) }) } t

/-- A killed gang is relaunched (R268): its cause, its safety and its count. -/
def State.relaunches (st : State) (gang : Nat) (k : Kill) : Bool :=
  let g := st.gang gang
  let l := NMap.get st.launches {} g.launch
  (k.cause == 0x05 || k.cause == 0x06 || k.cause == 0x31 || k.cause == 0x32) &&
    (l.vers || (st.gangTeams gang).all fun t => (st.team t).idempotent) && decide (g.relaunches < 3)

/-- Teams of a gang that have ended, and in a versioned launch committed: they stay ended (R269). -/
def State.keepsTeam (st : State) (t : Nat) : Bool := (st.team t).life == .ended && !(st.versions.any fun v => v.team == t)

/-- The record of a kill (R267 step 5, R380). -/
def State.killRecord (st : State) (gang : Nat) (k : Kill) (again : Bool) : State :=
  let g := st.gang gang
  let l := NMap.get st.launches {} g.launch
  let kind := if again then 0x12 else 0x11
  let count := if again then g.relaunches + 1 else 0
  let detail := if k.cause = 0x3F ∧ !again then [(72, k.handlerPc.toNat)] else []
  match k.group.bind st.group? with
  | some x => st.sendFault x kind count none detail (.kill gang)
  | none =>
    let bytes := recordBytes 128 [recordHeader kind count 0, (8, l.task + l.ctx * 2 ^ 32), (16, g.cluster * 2 ^ 32 + (2 ^ 32 - 1)),
      (24, k.cause + 3 * 2 ^ 24)]
    st.send 1 { tagged := false, bytes := bytes, after := .kill gang }

/-- Groups of a team of a gang that is to be killed have still to complete something, or its version is being merged (R267 step 2, R336). -/
def State.teamBusy (st : State) (t : Nat) : Bool :=
  ((st.team t).groups.filterMap st.group?).any st.completing || ((st.team t).committing && st.versions.any fun v => v.team == t)

/-- A team of a gang that is to be killed gives up its pins once its own stores have completed and are home (R356, R374; log 40). -/
def State.unpinDead (st : State) (t : Nat) : State :=
  if st.teamBusy t || st.teamWritesHeld (st.team t).core t then st else st.releasePins (st.team t).core t

/-- GANG_KILL (R267): once the stores under way have completed, the rest is abandoned, everything is freed, and one record goes out (log 40). -/
def execGangKill (gang : Nat) (st : State) : Host.Outcome State Fault Refusal :=
  let g := st.gang gang
  match g.kill with
  | none => .next st
  | some k =>
    let dead := g.teams.filter fun t => !st.keepsTeam t
    if g.killed then .next st
    else if dead.any st.teamBusy || dead.any (fun t => st.teamWritesHeld (st.team t).core t) then .next (dead.foldl State.unpinDead st)
    else
      let again := st.relaunches gang k
      let ranks := dead.map fun t => (st.team t).rank
      let st := st.killRecord gang k again
      let st := dead.foldl State.killTeam st
      .next (st.onGang gang fun g => { g with
        teams := g.teams.filter fun t => !dead.contains t
        nb := 0
        barriers := []
        killed := true
        again := if again then some ranks else none })

/-- The kill is complete: its record is written (R267, R379). The gang waits to be placed again, or is gone. -/
def State.finishKill (st : State) (gang : Nat) : State :=
  let g := st.gang gang
  match g.again with
  | some _ => st.setCluster g.launch g.cluster (.relaunch gang (some st.clock))
  | none => State.settleLaunches { (st.setCluster g.launch g.cluster .failed) with gangs := NMap.del st.gangs gang }

/-- GANG_RELAUNCH (R269): the gang is placed again from its launch record, in the order of R288. -/
def execGangRelaunch (gang : Nat) (st : State) : Host.Outcome State Fault Refusal :=
  match NMap.find st.gangs gang with
  | none => .next st
  | some g => match NMap.find st.launches g.launch with
    | none => .next st
    | some l =>
      let waits : Bool := match l.cluster g.cluster with
        | .relaunch x _ => x == gang
        | _ => false
      match if waits then st.offerFits (g.launch, g.cluster) else none with
      | some o => if st.nextOffer (dieOf o) = some (g.launch, g.cluster) ∧ !st.contextHeld l.ctx then .next (st.createCluster g.launch l g.cluster o) else .next st
      | none => .next st

end Sys2Proof.Machine
end

