-- ==== Sys2Proof/Machine/Almanac.lean ====
section
/-! DEFINITION. Queues (R275 to R278): WAKE_REGISTER_WRITE, QUEUE_MAP, QUEUE_SCAN, the release of records (R282), and HEAD. -/

namespace Sys2Proof.Machine

/-- WAKE_REGISTER_WRITE (R276, R362): after every posted write before it, PENDING is set and the Almanac notified. -/
def execWakeRegisterWrite (queue : Nat) (st : State) : Host.Outcome State Fault Refusal :=
  if st.host.posted ≠ [] ∨ 32768 ≤ queue ∨ st.pinnedAgainst none (lineOf (st.queueAt queue)) then .next st
  else .next (st.setPending queue)

/-- Launches of a queue that HEAD has not passed. -/
def State.unpassed (st : State) (q : Nat) : Nat := (st.launches.filter fun e => e.2.queue == q).length

/-- Read index of a queue: HEAD and the records taken since (R278: the hidden word that an unmapped queue keeps). -/
def State.readIndex (st : State) (q : Nat) : Nat := (st.queueHead q + st.unpassed q) % 2 ^ 32

/-- Of queue slots, the one that has gone longest without a release (R278). -/
def oldestSlot : List QSlot → Option QSlot
  | [] => none
  | a :: rest => match oldestSlot rest with
    | none => some a
    | some b => if b.lastRelease < a.lastRelease then some b else some a

/-- Unmaps a queue (R278): its read index and HEAD stay, MAPPED is cleared, and PENDING in memory relists it. -/
def State.unmapQueue (st : State) (die q : Nat) : State :=
  (st.onDie die fun d => { d with slots := d.slots.filter fun x => x.queue != q }).setMapped q false

/-- QUEUE_MAP (R273, R275, R278): a queue with PENDING set takes a free slot of the die that serves it, or the slot of the queue that has gone
longest without a release, but never of one whose scan is in progress; the descriptors' lines are free of pins (R356). -/
def execQueueMap (die queue : Nat) (st : State) : Host.Outcome State Fault Refusal :=
  let slots := (st.die die).slots
  if st.queueHeld none queue || !st.queuePending queue || st.queueLog queue == 0 || decide (32768 ≤ queue) || st.servingDie (st.queueDie queue) != die || (st.die die).offline || (st.die die).boot ||
      slots.any fun x => x.queue == queue then .next st
  else
    let st := if slots.length < 64 then st
      else match oldestSlot (slots.filter fun x => !x.scanning && !st.queueHeld none x.queue) with
        | some x => st.unmapQueue die x.queue
        | none => st
    if 64 ≤ (st.die die).slots.length then .next st
    else .next ((st.onDie die fun d => { d with slots := d.slots ++
      [{ queue := queue, read := st.readIndex queue, lastRelease := st.clock, seen := some st.clock }] }).setMapped queue true)

/-- A die retains fewer than 1,024 records (R273). -/
def State.retains (st : State) (die : Nat) : Bool := decide ((st.launches.filter fun e => e.2.die == die && !e.2.finished).length < 1024)

/-- Releases one record of a queue (R279, R282): it is retained, or it fails a check and its completion record carries the code. A record whose
ring page the context does not map reads as zeros, and so fails with code 0x01 (the model's choice, log 71). -/
def State.releaseRecord (st : State) (die q index : Nat) : State :=
  let ctx := st.queueCtx q
  let va := st.recordVa q index
  let record := BitVec.ofNat 1024 (st.ctxNum ctx va 128)
  let id := st.nextId
  let l : Launch := { die := die, queue := q, index := index, ctx := ctx, record := record, released := id }
  let l := { l with prio := min (l.field 464 461) (bitsOf (st.queueBits q) 154 151) }
  let st := { st.ctxTouch ctx va false with nextId := id + 1 }
  let code := st.recordCode l
  if code = 0 then { st with launches := NMap.put st.launches id l }
  else State.send { st with launches := NMap.put st.launches id { l with status := code, closed := true, finished := true } } 2
    { tagged := false, after := .launch id,
      bytes := recordBytes 64 [recordHeader 0x20 code 0, (8, l.task + q % 2 ^ 15 * 2 ^ 32), (16, 0), (24, st.now)] }

/-- Releases records in ring order while there is room to retain them and no pinned line is met (R356): the state and the next read index. -/
def State.releaseAll (st : State) (die q : Nat) : Nat → Nat → State × Nat
  | 0, read => (st, read)
  | n + 1, read => if st.retains die && !st.ctxHeld (st.queueCtx q) (st.recordVa q read) 128 then (st.releaseRecord die q read).releaseAll die q n ((read + 1) % 2 ^ 32) else (st, read)

/-- QUEUE_SCAN (R276, R277): a mapped queue whose PENDING is set in memory has been seen; at WBATCH records, or LATTOL after PENDING was seen,
PENDING is cleared, TAIL is read, and every record up to it is released. A scan that has found no room goes on as room frees (R273). The ring of a
queue whose RLOG2 is 0 is not read (R275). -/
def execQueueScan (die slot : Nat) (st : State) : Host.Outcome State Fault Refusal :=
  match (st.die die).slots[slot]? with
  | none => .next st
  | some x => if st.queueHeld none x.queue || st.queueLog x.queue == 0 then .next st else match x.seen with
    | none => if st.queuePending x.queue then
        .next (st.onDie die fun d => { d with slots := d.slots.map fun y => if y.queue = x.queue then { y with seen := some st.clock } else y })
      else .next st
    | some t =>
      let q := x.queue
      let waiting := (st.queueTail q + 2 ^ 32 - x.read) % 2 ^ 32
      let batch := max 1 (bitsOf (st.queueBits q) 175 168)
      if !x.scanning ∧ waiting < batch ∧ st.clock < t + bitsOf (st.queueBits q) 191 176 then .next st
      else
        let st := if x.scanning then st else st.clearPending q
        let n := (st.queueTail q + 2 ^ 32 - x.read) % 2 ^ 32
        let (s, read) := st.releaseAll die q n x.read
        let s := s.onDie die fun d => { d with slots := d.slots.map fun y => if y.queue = q then
          { y with read := read, lastRelease := if read = x.read then y.lastRelease else s.clock,
                   seen := if read = s.queueTail q then none else some s.clock, scanning := read != s.queueTail q } else y }
        .next s.settleLaunches.noteEligible

/-- HEAD passes every record of a queue whose completion record is written, oldest first (R275, R379); it waits while a pin holds the queue's
descriptor (R356). -/
def State.advanceHead (st : State) (q : Nat) : Nat → State
  | 0 => st
  | n + 1 =>
    if st.queueHeld none q then st else
    let h := st.queueHead q
    match st.launches.find? fun e => e.2.queue == q && e.2.index == h && e.2.written with
    | none => st
    | some (id, _) => (State.setHead { st with launches := NMap.del st.launches id } q ((h + 1) % 2 ^ 32)).advanceHead q n

/-- HEAD passes what a pin held before (R356). -/
def State.passHeads (st : State) : State :=
  (((st.launches.filter fun e => e.2.written).map fun (e : Nat × Launch) => e.2.queue).dedup).foldl (fun s q => s.advanceHead q s.launches.length) st

/-- A launch's completion record is written (R379). -/
def State.launchWritten (st : State) (id : Nat) : State :=
  match NMap.find st.launches id with
  | none => st
  | some l => (st.onLaunch id fun l => { l with written := true }).advanceHead l.queue st.launches.length

end Sys2Proof.Machine
end

