-- ==== Sys2Proof/Machine/Matrix.lean ====
section
/-! DEFINITION. The MMA class (R216 to R226) and the matrix unit's events (R211, R227). -/

namespace Sys2Proof.Machine

/-! ### Formats (R216) -/

/-- The forms of MMA sub-ops 0 to 3. -/
inductive MmaForm where
  | plain
  | exact
  | sand
  | wide
  deriving DecidableEq, Repr

/-- AFMT of a format word. -/
def wordA (w : Lane) : Nat := bitsOf w.toNat 4 0
/-- BFMT. -/
def wordB (w : Lane) : Nat := bitsOf w.toNat 12 8
/-- Reserved bits of a format word are 0. -/
def wordClean (w : Lane) : Bool := bitsOf w.toNat 63 13 == 0 && bitsOf w.toNat 7 5 == 0

/-- The pair is one that a form accepts. -/
def MmaForm.pair (f : MmaForm) (a b : Nat) : Bool :=
  let float (x : Nat) : Bool := [8, 9, 13, 12, 16, 17].contains x
  let byte (x : Nat) : Bool := x == 0 || x == 4
  let tap (x : Nat) : Bool := x == 12 || x == 13
  let sand (x : Nat) : Bool := decide (18 ≤ x) && decide (x ≤ 24)
  match f with
  | .plain => (float a && float b) || (byte a && byte b)
  | .exact => tap a && tap b
  | .sand => sand a && sand b
  | .wide => a == 10 && b == 10

/-- Kind of accumulator that a form and a pair write (R216). -/
def MmaForm.kind (f : MmaForm) (a : Nat) : Nat :=
  match f with
  | .plain => if a = 0 ∨ a = 4 then 1 else 0
  | .exact => 2
  | _ => 0

/-- The kind is one that a form accepts: with a pair that it accepts that pair's, else any that some pair of it has (R209, R216). -/
def MmaForm.takes (f : MmaForm) (pair : Bool) (a kind : Nat) : Bool :=
  match f with
  | .plain => if pair then kind == f.kind a else decide (kind ≤ 1)
  | _ => kind == f.kind a

/-- EW of a format. -/
def formatEw (x : Nat) : Nat :=
  if 21 ≤ x then (if x < 23 then 5 else 6)
  else if 18 ≤ x then 4
  else if x = 8 ∨ x = 9 ∨ x = 13 then 1
  else if x = 10 then 2
  else 0

/-- EW that the width of a format code names, as far as the code is assigned (R208, R216). -/
def codeEw (x : Nat) : Option Nat := if x < 16 then some (Nat.log2 (widthOf x / 8)) else if x < 25 then some (formatEw x) else none

/-- A tile whose EW is not the width of a format code that has one. -/
def badWidth (c : Lane) (fmt : Nat) : Bool := (codeEw fmt).any fun n => cfgEw c != n

/-- Value of an operand element of a format (R12, R14, R18). -/
def operandVal (fmt n : Nat) : Val :=
  if fmt = 16 then decodeIeee fmtE4M3 n else if fmt = 17 then decodeIeee fmtE5M2 n else decodeVal fmt n

/-! ### Issue of MMA sub-ops 0 to 3 (R178, R209, R217) -/

/-- The vote on the format word (R178). -/
def Env.vote (e : Env) (f : Nat) : Option Trap :=
  let ref := e.scalar f
  let off := e.lanes.filter fun l => e.val 0 f l != ref
  let info := e.lanes.foldl (fun m l => NMap.store m 0 l (e.val 0 f l)) []
  if off ≠ [] then some { cause := 0x07, lanes := maskOf off, info := info }
  else if laneCount e.slot.mask < e.width then some { cause := 0x08, lanes := e.slot.mask, info := info }
  else none

/-- The operands that fail the checks of R209, each with its code. Where A's own configuration is invalid, B is not held against K = COLS(A)
(the model's choice, log 69). -/
def Env.mmaCodes (e : Env) (form : MmaForm) (k a b : Nat) (w : Lane) : List (Bool × Nat) :=
  let ca := e.cfg a
  let cb := e.cfg b
  let pair := form.pair (wordA w) (wordB w)
  let wide := match form with
    | .sand => false
    | _ => decide (64 < cfgCols cb)
  let fits := match form with
    | .sand => cfgCols cb == cfgCols ca
    | _ => cfgRows cb == cfgCols ca
  let kind := e.g.accKind e.core k
  [ (!cfgValid ca || badWidth ca (wordA w), 0x100 + a),
    (!cfgValid cb || badWidth cb (wordB w) || wide || (cfgValid ca && !fits), 0x100 + b),
    (kind == 3 || !form.takes pair (wordA w) kind, 0x200 + k),
    (!(wordClean w && pair), 0x400) ]

/-- MMA sub-ops 0 to 3. -/
def mmaOp (i : Instr) (form : MmaForm) (k f a b : Nat) (st : State) : Host.Outcome State Fault Refusal :=
  unitIssue i { runs := .program, regs := [f] } (fun e st =>
    match firstTrap [e.nameTrap (e.tileNames [a, b] && e.accNames k), e.poisonTrap (e.reads f e.lanes),
        e.silentTrap e.lanes (e.pairDiffers f (BitVec.allOnes 64)), e.vote f, e.shapeTrap (e.mmaCodes form k a b (e.scalar f))] with
    | some t => .trap t none
    | none => if !e.room .mma then .wait st else .next (st.toUnit e .mma { ins := i, scalar := e.scalar f, kind := e.g.accKind e.core k })) st

/-- MMA zK, tA, tB, vF (R218). -/
def execMma (k : BitVec 4) (f : BitVec 6) (a b : BitVec 3) (st : State) : Host.Outcome State Fault Refusal :=
  mmaOp (.mma k f a b) .plain k.toNat f.toNat a.toNat b.toNat st
/-- MMA.EXACT (R219). -/
def execMmaExact (k : BitVec 4) (f : BitVec 6) (a b : BitVec 3) (st : State) : Host.Outcome State Fault Refusal :=
  mmaOp (.mmaExact k f a b) .exact k.toNat f.toNat a.toNat b.toNat st
/-- MMA.SB (R220). -/
def execMmaSb (k : BitVec 4) (f : BitVec 6) (a b : BitVec 3) (st : State) : Host.Outcome State Fault Refusal :=
  mmaOp (.mmaSb k f a b) .sand k.toNat f.toNat a.toNat b.toNat st
/-- MMA.WIDE (R221). -/
def execMmaWide (k : BitVec 4) (f : BitVec 6) (a b : BitVec 3) (st : State) : Host.Outcome State Fault Refusal :=
  mmaOp (.mmaWide k f a b) .wide k.toNat f.toNat a.toNat b.toNat st

/-! ### Issue of ZRD, ZCLR, ZLD, ZST (R222 to R226) -/

/-- DFMT of a readout word. -/
def readFmt (w : Lane) : Nat := bitsOf w.toNat 12 8

/-- A readout word that ZRD accepts for a kind (R223). -/
def readGood (w : Lane) (kind : Nat) : Bool :=
  let d := readFmt w
  bitsOf w.toNat 31 13 == 0 && bitsOf w.toNat 7 1 == 0 &&
    (if d < 3 then kind != 2 else (decide (8 ≤ d) && decide (d ≤ 14)) || d == 16 || d == 17)

/-- EW of a destination format. -/
def readEw (d : Nat) : Nat :=
  if d = 0 ∨ d = 12 ∨ d = 16 ∨ d = 17 then 0 else if d = 1 ∨ d = 8 ∨ d = 9 ∨ d = 13 then 1 else if d = 11 then 3 else 2

/-- ZRD tD, zK, vR (R224). -/
def execZrd (k : BitVec 4) (r : BitVec 6) (d : BitVec 3) (st : State) : Host.Outcome State Fault Refusal :=
  unitIssue (.zrd k r d) { runs := .program, accepts := { re := true }, regs := [r.toNat] } (fun e st =>
    let w := e.scalar r.toNat
    let kind := e.g.accKind e.core k.toNat
    let c := e.cfg d.toNat
    let good := readGood w kind
    let codes :=
      [ (!cfgValid c || decide (64 < cfgCols c) || badWidth c (readFmt w), 0x100 + d.toNat),
        (kind == 3, 0x200 + k.toNat), (!good, 0x800) ]
    match firstTrap [e.nameTrap (e.tileNames [d.toNat] && e.accNames k.toNat), e.poisonTrap (e.readLowest r.toNat), e.shapeTrap codes] with
    | some t => .trap t none
    | none => if !e.room .mma then .wait st else .next (st.toUnit e .mma { ins := .zrd k r d, scalar := w, mode := e.hints.re.getD 0, kind := kind })) st

/-- A name that ZCLR and ZLD accept for a kind (R225). -/
def Env.kindName (e : Env) (k kind : Nat) : Bool := e.accNames k && (kind != 2 || (k % 4 == 0 && e.accNames (k + 3)))

/-- Sets the kind of an accumulator tile; an EXACT tile's slots become or cease to be its continuation slots (R225). -/
def State.setKind (st : State) (g : Group) (k kind : Nat) : State :=
  st.onCore g.core fun c =>
    let s := g.acc0 + k
    let set (m : NMap Nat) (x v : Nat) : NMap Nat := NMap.store m 0 x v
    let was := NMap.get c.accKind 0 s
    let m := if kind = 2 then set (set (set c.accKind (s + 1) 3) (s + 2) 3) (s + 3) 3
      else if was = 2 then set (set (set c.accKind (s + 1) 0) (s + 2) 0) (s + 3) 0
      else c.accKind
    { c with accKind := set m s kind }

/-- ZCLR.kind zK (R225). -/
def execZclr (k : BitVec 4) (n : BitVec 3) (st : State) : Host.Outcome State Fault Refusal :=
  unitIssue (.zclr k n) { runs := .program } (fun e st =>
    let was := e.g.accKind e.core k.toNat
    match firstTrap [e.nameTrap (e.kindName k.toNat n.toNat), e.shapeTrap [(was == 3, 0x200 + k.toNat)]] with
    | some t => .trap t none
    | none =>
      if !e.room .mma then .wait st
      else .next ((st.toUnit e .mma { ins := .zclr k n, kind := was }).setKind e.g k.toNat n.toNat)) st

/-- Bytes of the memory image of a kind (R207). -/
def imageBytes (kind : Nat) : Nat := if kind = 2 then 65536 else 16384

/-- ZLD.kind zK, [vB + off] (R226). -/
def execZld (k : BitVec 4) (b : BitVec 6) (n : BitVec 3) (st : State) : Host.Outcome State Fault Refusal :=
  unitIssue (.zld k b n) { runs := .program, accepts := { offset := true, cache := true }, regs := [b.toNat] } (fun e st =>
    let was := e.g.accKind e.core k.toNat
    match firstTrap [e.nameTrap (e.kindName k.toNat n.toNat), e.poisonTrap (e.readLowest b.toNat),
        e.silentTrap [e.lowest] (e.pairDiffers b.toNat (BitVec.allOnes 64)), e.shapeTrap [(was == 3, 0x200 + k.toNat)]] with
    | some t => .trap t none
    | none => memoryOp e st (.zld k b n) false was [{ va := e.unitAddress b.toNat, n := imageBytes n.toNat, align := 128, kind := .read }]
        fun st => st.setKind e.g k.toNat n.toNat) st

/-- ZST zK, [vB + off] (R226). -/
def execZst (k : BitVec 4) (b : BitVec 6) (st : State) : Host.Outcome State Fault Refusal :=
  unitIssue (.zst k b) { runs := .program, accepts := { offset := true, cache := true }, regs := [b.toNat] } (fun e st =>
    let kind := e.g.accKind e.core k.toNat
    match firstTrap [e.nameTrap (e.accNames k.toNat), e.poisonTrap (e.readLowest b.toNat),
        e.silentTrap [e.lowest] (e.pairDiffers b.toNat (BitVec.allOnes 64)), e.shapeTrap [(kind == 3, 0x200 + k.toNat)]] with
    | some t => .trap t none
    | none => memoryOp e st (.zst k b) true kind [{ va := e.unitAddress b.toNat, n := imageBytes kind, align := 128, kind := .write }] id) st

/-! ### Arithmetic (R218 to R221, R224) -/

/-- Rounds once to F32 in RN. -/
def toF32 (v : Val) : Nat := roundVal 10 .rn v

/-- One addition into an F32 element (R218). -/
def addF32 (acc : Nat) (p : Val) : Nat := toF32 (Val.add .rn (decodeVal 10 acc) p)

/-- MMA: one product into an element of a kind (R218). -/
def stepPlain (kind fa fb : Nat) (acc x y : Nat) : Nat :=
  if kind = 1 then lowBits 32 (signedOf 32 acc + intOf fa x * intOf fb y)
  else addF32 acc (Val.mul (operandVal fa x) (operandVal fb y))

/-- A finite tapered product as a multiple of 2^-56; none for NaR (R24). -/
def exactProduct (x y : Val) : Option Int :=
  match Val.mul x y with
  | .fin neg n d => some (signedNum neg (n * 2 ^ 56 / d))
  | _ => none

/-- MMA.EXACT: one product into an element (R219). -/
def stepExact (fa fb : Nat) (acc x y : Nat) : Nat := exactAdd acc (exactProduct (operandVal fa x) (operandVal fb y))

/-- Mantissa width of a sand-block format. -/
def sandWidth (fmt : Nat) : Nat := fmt - 16
/-- Slot width of a sand-block format (R27). -/
def slotWidth (fmt : Nat) : Nat := if fmt < 21 then 4 else if fmt < 23 then 6 else 8
/-- Mantissa of element j of a record (R27, R28). -/
def sandMantissa (fmt r j : Nat) : Int := signedOf (sandWidth fmt) (r / 2 ^ (8 + slotWidth fmt * j))

/-- MMA.SB: one pair of records into an element (R220). -/
def stepSand (fa fb : Nat) (acc x y : Nat) : Nat :=
  let ea := signedOf 8 x
  let eb := signedOf 8 y
  if ea = -128 ∨ eb = -128 then addF32 acc .nan
  else
    let n := ((List.range 32).map fun j => sandMantissa fa x j * sandMantissa fb y j).sum
    addF32 acc (decodeVal 10 (toF32 (scaled (n < 0) n.natAbs (ea + eb))))

/-- The three slices of an F32 value (R221). -/
def slices (x : Val) : Val × Val × Val :=
  let cut (v : Val) : Val := decodeIeee fmtBF16 (roundIeee fmtBF16 .rz false v)
  let hi := cut x
  let r := Val.add .rn x hi.neg
  let mid := cut r
  (hi, mid, cut (Val.add .rn r mid.neg))

/-- MMA.WIDE: one product into an element (R221). -/
def stepWide (acc a b : Nat) : Nat :=
  let x := decodeVal 10 a
  let y := decodeVal 10 b
  match x, y with
  | .fin _ _ _, .fin _ _ _ =>
    let (xh, xm, xl) := slices x
    let (yh, ym, yl) := slices y
    [(xl, yh), (xm, ym), (xh, yl), (xm, yh), (xh, ym), (xh, yh)].foldl (fun acc p => addF32 acc (Val.mul p.1 p.2)) acc
  | _, _ => addF32 acc (Val.mul x y)

/-- One step of a form: element, operand of A, operand of B. -/
def MmaForm.step (f : MmaForm) (w : Lane) (acc x y : Nat) : Nat :=
  let a := wordA w
  let b := wordB w
  match f with
  | .plain => stepPlain (f.kind a) a b acc x y
  | .exact => stepExact a b acc x y
  | .sand => stepSand a b acc x y
  | .wide => stepWide acc x y

/-- The operands of element (i, j) in the order of their steps: runs of A and of B (R217, R220). -/
def State.mmaOperands (st : State) (g : Group) (f : MmaForm) (a b i j : Nat) : List (List (Byte × Bool) × List (Byte × Bool)) :=
  let ca := g.cfg (st.core g.core) a
  let cb := g.cfg (st.core g.core) b
  let na := cfgBytes ca
  let nb := cfgBytes cb
  (List.range (cfgCols ca)).map fun k =>
    (st.tileRun g a i (na * k) na, match f with
      | .sand => st.tileRun g b j (nb * k) nb
      | _ => st.tileRun g b k (nb * j) nb)

/-- Columns of the product: N of R217. -/
def mmaColumns (f : MmaForm) (cb : Lane) : Nat :=
  match f with
  | .sand => cfgRows cb
  | _ => cfgCols cb

/-- Runs an MMA: every element takes its products in ascending k, and the poison of what it read (R212, R218). -/
def State.runMma (st : State) (g : Group) (f : MmaForm) (k a b : Nat) (w : Lane) : State :=
  let c := st.core g.core
  let kind := f.kind (wordA w)
  let n := if kind = 2 then 16 else 4
  (List.range (cfgRows (g.cfg c a))).foldl (fun s i =>
    (List.range (mmaColumns f (g.cfg c b))).foldl (fun s j =>
      let place := g.elemPlace k kind i j
      let old := (spread place n).map st.chipCell
      let ops := st.mmaOperands g f a b i j
      let new := ops.foldl (fun acc p => f.step w acc (runNum p.1) (runNum p.2)) (runNum old)
      let bad := runBad old || ops.any fun p => runBad p.1 || runBad p.2
      s.putChip place ((bytesOf new n).map fun x => (x, bad))) s) st

/-- A value converted to a destination format of R223 (R31). -/
def readConvert (d : Nat) (mode : Mode) (sat : Bool) (v : Val) : Nat :=
  if d < 3 then
    (match v with
     | .nan => 0
     | .inf neg => lowBits (widthOf d) (if neg then minOf d else maxOf d)
     | .fin neg n den => lowBits (widthOf d) (clampInt d (roundInt mode neg n den)))
  else if d = 16 then roundIeee fmtE4M3 mode sat v
  else if d = 17 then roundIeee fmtE5M2 mode sat v
  else if kindOf d = .ieee then roundIeee (ieeeFmt d) mode sat v
  else roundTap (tapFmt d) mode v

/-- Value of an accumulator element (R224). -/
def accVal (kind n : Nat) : Val :=
  match kind with
  | 0 => decodeVal 10 n
  | 1 => Val.ofInt (signedOf 32 n)
  | _ => if n = stickyCode then .nan else let z := signedOf 128 n
    .fin (z < 0) z.natAbs (2 ^ 56)

/-- ZRD: one element (R224). -/
def readElement (kind : Nat) (w : Lane) (mode : Mode) (n : Nat) : Nat :=
  let scale := decodeVal 10 (bitsOf w.toNat 63 32)
  readConvert (readFmt w) mode (w.getLsbD 0) (Val.mul (accVal kind n) scale)

/-- ZRD: the top-left elements, scaled and rounded once, into the tile (R224). -/
def State.runZrd (st : State) (g : Group) (k d kind : Nat) (w : Lane) (mode : Mode) : State :=
  let c := g.cfg (st.core g.core) d
  let n := cfgBytes c
  (List.range (cfgRows c)).foldl (fun s i =>
    s.putChip (g.tilePlace d i) ((List.range (cfgCols c)).flatMap fun j =>
      let run := (spread (g.elemPlace k kind i j) (if kind = 2 then 16 else 4)).map st.chipCell
      (bytesOf (readElement kind w mode (runNum run)) n).map fun b => (b, runBad run))) st

/-- Zeroes a run of bytes of the accumulator memory and its poison. -/
def State.clearAcc (st : State) (core first n : Nat) : State :=
  st.onCore core fun c => { c with
    acc := NMap.keep c.acc fun a _ => !(decide (first ≤ a) && decide (a < first + n))
    accPoison := NMap.keep c.accPoison fun a _ => !(decide (first ≤ 8 * a) && decide (8 * a < first + n)) }

/-- ZCLR: every element of the slots it names, and of continuation slots it releases, becomes 0 (R225). -/
def State.runZclr (st : State) (g : Group) (k was kind : Nat) : State :=
  st.clearAcc g.core (16384 * (g.acc0 + k)) (if was = 2 ∨ kind = 2 then 65536 else 16384)

/-- ZLD: the slots it releases, then the image (R225, R226). -/
def State.runZld (st : State) (g : Group) (k was kind : Nat) (cells : List (Byte × Bool)) : State :=
  (st.runZclr g k was kind).putChip (g.accPlace k) cells

/-- What an operation does when it begins: those that read memory read what they have not read yet, and a TST or ZST reads what it will
write. -/
def State.runUnit (st : State) (gid : Nat) (g : Group) (u : UnitOp) : State × UnitOp :=
  let s := st.unitReach gid g u
  match u.ins with
  | .tld t _ => (s.runTld g t.toNat (st.unitCells g u), u)
  | .tst t _ => (st, { u with out := unitWrites u.segs (st.tileCells g t.toNat) })
  | .tzero t => (st.runTzero g t.toNat, u)
  | .ttrans d s => (st.runTtrans g d.toNat s.toNat, u)
  | .mma k _ a b => (st.runMma g .plain k.toNat a.toNat b.toNat u.scalar, u)
  | .mmaExact k _ a b => (st.runMma g .exact k.toNat a.toNat b.toNat u.scalar, u)
  | .mmaSb k _ a b => (st.runMma g .sand k.toNat a.toNat b.toNat u.scalar, u)
  | .mmaWide k _ a b => (st.runMma g .wide k.toNat a.toNat b.toNat u.scalar, u)
  | .zrd k _ d => (st.runZrd g k.toNat d.toNat u.kind u.scalar ((modeOfCode u.mode).getD .rn), u)
  | .zclr k n => (st.runZclr g k.toNat u.kind n.toNat, u)
  | .zld k _ n => (s.runZld g k.toNat u.kind n.toNat (st.unitCells g u), u)
  | .zst k _ => (st, { u with out := unitWrites u.segs ((spread (g.accPlace k.toNat) (imageBytes u.kind)).map st.chipCell) })
  | _ => (st, u)

/-- MAC rate of a form's pair of formats as a fraction (R216). -/
def MmaForm.rate (f : MmaForm) (w : Lane) : Nat × Nat :=
  match f with
  | .wide => (2048, 6)
  | .sand => (32768, max (wordA w - 16) (wordB w - 16))
  | _ => (if formatEw (wordA w) = 0 ∧ formatEw (wordB w) = 0 then 4096 else 2048, 1)

/-- Busy cycles of a product: M x N x K over the rate, at least 8 (R227). -/
def State.mmaBusy (st : State) (g : Group) (f : MmaForm) (a b : Nat) (w : Lane) : Nat :=
  let ca := g.cfg (st.core g.core) a
  let k := match f with
    | .sand => 32 * cfgCols ca
    | _ => cfgCols ca
  let (n, d) := f.rate w
  max 8 ((cfgRows ca * mmaColumns f (g.cfg (st.core g.core) b) * k * d + n - 1) / n)

/-- Busy cycles of an operation (R227); of a ZCLR or ZLD by the kind that it sets. -/
def State.busyCycles (st : State) (g : Group) (u : UnitOp) : Nat :=
  let lines := (u.segs.map fun s => if s.2 = 0 then 0 else lineOf (s.1 + s.2 - 1) + 1 - lineOf s.1).sum
  match u.ins with
  | .mma _ _ a b => st.mmaBusy g .plain a.toNat b.toNat u.scalar
  | .mmaExact _ _ a b => st.mmaBusy g .exact a.toNat b.toNat u.scalar
  | .mmaSb _ _ a b => st.mmaBusy g .sand a.toNat b.toNat u.scalar
  | .mmaWide _ _ a b => st.mmaBusy g .wide a.toNat b.toNat u.scalar
  | .zrd _ _ d => let c := g.cfg (st.core g.core) d.toNat
    max 8 ((cfgRows c * cfgCols c + 63) / 64)
  | .zclr _ n => if n = 2 then 64 else 16
  | .ttrans _ s => max 8 (cfgRows (g.cfg (st.core g.core) s.toNat))
  | .tzero _ => 8
  | .zld _ _ n => if n = 2 then 512 else 128
  | .zst _ _ => if u.kind = 2 then 512 else 128
  | _ => lines

/-- Cycles from the end of an operation's busy ones to the fall of its counter (R227); of one that reaches memory a free value (log 65). -/
def tailCycles (free : Nat) : Instr → Nat
  | .mma .. => 20
  | .mmaExact .. => 28
  | .mmaSb .. => 24
  | .mmaWide .. => 20
  | .zrd .. => 12
  | .zclr .. => 4
  | .tzero _ => 2
  | .ttrans .. => 8
  | _ => Config.transferLatency free

/-! ### Events (R211, R227) -/

/-- The first operation of a group that has not begun, with what it is. -/
def Group.nextUnit (g : Group) : Option (Nat × UnitOp) := g.flight.findSome? fun o => match o.work with
  | .matrix u => if !u.started && !o.finished then some (o.id, u) else none
  | _ => none

/-- The tile interlock lets an operation begin (R211). -/
def Group.tilesFree (g : Group) (i : Instr) : Bool :=
  let writing := (g.matrixOps.filter fun o => o.2).flatMap fun o => tilesWritten o.1
  !((tilesRead i ++ tilesWritten i).any writing.contains)

/-- The memory that an operation is to read when it begins lies open: nothing earlier of the group is in its way, and no other team has
pinned its lines (R146, R348, R356). A TST or ZST reaches memory only afterwards. -/
def State.unitOpen (st : State) (g : Group) (op : Nat) (u : UnitOp) : Bool :=
  match u.ins with
  | .tst .. => true
  | .zst .. => true
  | _ => !g.held op u.spans && !u.spans.any fun x => st.pinnedFrom g.team x.1 x.2

/-- The injector may act: low rail, no ramp, INJEN (R305). -/
def Plot.injectable (p : Plot) : Bool := !p.highRail && p.dvfs != .rail && p.injEn

/-- The plot of a core learns that its matrix unit has started an operation of at least 64 busy cycles after an idle cycle (R305); one that falls
while an injection runs is answered after it (the model's choice, log 74). -/
def State.noteHeavy (st : State) (core busy : Nat) : State :=
  let c := st.core core
  st.onPlot (plotOf core) fun p =>
    if 64 ≤ busy ∧ (c.unitFree < c.cycle.toNat ∨ c.unitFree = 0) ∧ p.injectable then { p with heavy := p.heavy + 1 } else p

/-- An operation of a group begins at a core's matrix unit. -/
def State.startUnit (st : State) (gid : Nat) (g : Group) (op : Nat) (u : UnitOp) : State :=
  let busy := st.busyCycles g u
  let now := (st.core g.core).cycle.toNat
  let (s, v) := (st.noteHeavy g.core busy).runUnit gid g u
  State.onCore { s with free := s.free + 1 } g.core (fun c => { c with unitFree := now + busy }) |>.onGroup gid fun g => g.onOp op fun _ =>
    .matrix { v with started := true, ends := now + busy + tailCycles st.free u.ins }

/-- MATRIX_OP_START (R227): the unit is free, and a group's next operation begins; in this model it reads all of its operands then, and
writes tiles and accumulators, while its counter waits for the completion (log 34). -/
def execMatrixOpStart (core gid : Nat) (st : State) : Host.Outcome State Fault Refusal :=
  match st.group? gid with
  | none => .next st
  | some g => match g.nextUnit with
    | none => .next st
    | some (op, u) =>
      if g.core ≠ core ∨ (st.core core).cycle.toNat < (st.core core).unitFree ∨ !g.tilesFree u.ins ∨ !st.unitOpen g op u then .next st
      else .next (st.startUnit gid g op u)

/-- An operation that has begun and whose time has come, with its group and what it has still to write, if that can be performed now. -/
def State.unitDone (st : State) (core : Nat) (x : Nat × Nat) : Option (Nat × Group × Nat × UnitOp) :=
  match st.group? x.1, st.work? x.1 x.2 with
  | some g, some (.matrix u) =>
    if u.started && !g.over x.2 && decide (u.ends ≤ (st.core core).cycle.toNat) && u.out.all (st.mayUnitWrite g x.2 u.mode) then some (x.1, g, x.2, u)
    else none
  | _, _ => none

/-- MATRIX_OP_COMPLETE (R227): of the core's operations whose time has come the one due first writes what it has still to write, and its
counter falls in order. -/
def execMatrixOpComplete (core : Nat) (st : State) : Host.Outcome State Fault Refusal :=
  match (st.core core).matrix.filterMap (st.unitDone core) with
  | [] => .next st
  | x :: rest =>
    let (gid, g, op, u) := rest.foldl (fun a b => if b.2.2.2.ends < a.2.2.2.ends then b else a) x
    let st := (u.out.foldl (fun s w => s.unitWrite gid g op u.mode w) st).onGroup gid fun g => g.finish op
    .next (st.onCore core fun c => { c with matrix := c.matrix.filter fun y => (st.work? y.1 y.2).isSome })

end Sys2Proof.Machine
end

