-- ==== Sys2Proof/Machine/Power.lean ====
section
/-! DEFINITION. Rails, clocks, samples and temperatures (R299 to R310): the stall counters, the governor, the DVFS state machine, the droop
injector, the plot registers and the energy counters. -/

namespace Sys2Proof.Machine

/-! ### Plot registers (R306) -/

/-- STATE of PLOTSTAT. -/
def Plot.stateCode (p : Plot) : Nat :=
  match p.dvfs with
  | .steady => 0
  | .rail => if p.highRail then 3 else 1
  | .step => 2

/-- DROOPCNT: connected cycles within the last 1,024 plot cycles (R305). -/
def Plot.droopCount (p : Plot) : Nat :=
  (p.injections.map fun s => (min p.cycle s.2) - max s.1 (p.cycle - 1024)).sum

/-- The injector leaves the high rail before its 8 cycles are over, and does nothing for what it has not answered: a ramp begins, or INJEN is
cleared (R305). -/
def Plot.disconnect (p : Plot) : Plot :=
  { p with
    injecting := false, heavy := 0
    injections := if p.injecting then p.injections.map fun s => (s.1, min s.2 p.cycle) else p.injections }

/-- PLOTCTL. -/
def Plot.ctl (p : Plot) : Lane :=
  BitVec.ofNat 64 ((if p.ovr then 2 ^ 63 else 0) + p.fovr * 2 ^ 56 + p.fcap * 2 ^ 52 + (if p.highOk then 2 ^ 51 else 0) + (if p.injEn then 2 ^ 50 else 0))

/-- PLOTSTAT. -/
def Plot.stat (p : Plot) : Lane :=
  BitVec.ofNat 64 (p.temp % 256 * 2 ^ 56 + p.droopCount % 256 * 2 ^ 48 + p.refusals % 256 * 2 ^ 40 + p.stateCode * 2 ^ 29 +
    (if p.highRail then 2 ^ 28 else 0) + p.fcur * 2 ^ 24 + p.ftgt * 2 ^ 20 + p.fque * 2 ^ 16 + (if p.queued then 2 ^ 15 else 0))

/-- A code field as written: 15 stores 14. -/
def codeField (n : Nat) : Nat := min 14 n

/-- The highest code that FCAP and HIGHOK grant. -/
def Plot.cap (p : Plot) : Nat := if p.highOk then p.fcap else min 7 p.fcap

/-! ### The DVFS state machine (R304) -/

/-- A request reaches the machine. -/
def Plot.ask (p : Plot) (now r : Nat) : Plot :=
  match p.dvfs with
  | .steady =>
    if r = p.fcur then p
    else if p.highRail ∨ r ≤ 7 then { p with dvfs := .step, ftgt := r, since := now }
    else { p.disconnect with dvfs := .rail, ftgt := r, since := now }
  | .rail => { p with fque := r, queued := true }
  | .step => { p with ftgt := r }

/-- What follows once a rail is settled or a step is due: RAMPUP where the target needs the high rail, else STEP, or STEADY. -/
def Plot.goOn (p : Plot) (now : Nat) : Plot :=
  if p.ftgt = p.fcur then { p with dvfs := .steady }
  else if 7 < p.ftgt ∧ !p.highRail then { p.disconnect with dvfs := .rail, since := now }
  else { p with dvfs := .step, since := now }

/-- Plot of a die. -/
def plotKey (die plot : Nat) : Nat := 40 * die + plot

/-- A die and a plot that the package has (R2). -/
def isPlot (die plot : Nat) : Bool := decide (die < 4) && decide (plot < 40)

/-- PLOT_REQUEST (R303, R304): the governor's request reaches its plot; with OVR set only FOVR is followed (R306, R310). -/
def execPlotRequest (die plot : Nat) (code : BitVec 4) (st : State) : Host.Outcome State Fault Refusal :=
  let p := st.plot (plotKey die plot)
  if isPlot die plot && p.request == some code.toNat then
    .next (st.onPlot (plotKey die plot) fun p =>
      { (if p.ovr && p.fovr != code.toNat then p else p.ask st.clock (min code.toNat p.cap)) with request := none })
  else .next st

/-- RAIL_SWITCH_SETTLE (R304): 20 ns after a ramp began the rail is the new one, and a queued request becomes the target. -/
def execRailSwitchSettle (die plot : Nat) (st : State) : Host.Outcome State Fault Refusal :=
  let p := st.plot (plotKey die plot)
  if isPlot die plot ∧ p.dvfs = .rail ∧ p.since + 20 ≤ st.clock then
    .next (st.onPlot (plotKey die plot) fun p =>
      ({ p with highRail := !p.highRail, ftgt := if p.queued then p.fque else p.ftgt, fque := 0, queued := false } : Plot).goOn st.clock)
  else .next st

/-- FREQUENCY_STEP (R304): 40 ns after the last one the frequency moves one code toward the target; a target that needs the high rail
begins RAMPUP at this boundary instead. -/
def execFrequencyStep (die plot : Nat) (st : State) : Host.Outcome State Fault Refusal :=
  let p := st.plot (plotKey die plot)
  if isPlot die plot ∧ p.dvfs = .step ∧ p.since + 40 ≤ st.clock then
    .next (st.onPlot (plotKey die plot) fun p =>
      if 7 < p.ftgt ∧ !p.highRail then p.goOn st.clock
      else ({ p with fcur := if p.fcur < p.ftgt then p.fcur + 1 else if p.ftgt < p.fcur then p.fcur - 1 else p.fcur } : Plot).goOn st.clock)
  else .next st

/-- PLOTCTL_WRITE (R304, R306): the fields are set, and what they ask for reaches the machine as a request: FOVR with OVR set, else the
target in force as far as FCAP and HIGHOK grant it. With OVR set a governor's request on its way is ignored (R306, R310). A die that is
offline ignores the write (R376) (log 41). -/
def execPlotctlWrite (die plot : Nat) (value : BitVec 64) (st : State) : Host.Outcome State Fault Refusal :=
  let v := value.toNat
  if (st.die die).offline || !isPlot die plot then .next st
  else .next (st.onPlot (plotKey die plot) fun p =>
    let p : Plot := { p with
      ovr := v.testBit 63
      fovr := codeField (v / 2 ^ 56 % 16)
      fcap := codeField (v / 2 ^ 52 % 16)
      highOk := v.testBit 51
      injEn := v.testBit 50
      request := if v.testBit 63 then none else p.request }
    let p := if p.injEn then p else p.disconnect
    p.ask st.clock (min (if p.ovr then p.fovr else if p.queued then p.fque else p.ftgt) p.cap))

/-! ### The droop injector (R305) -/

/-- The injector is to connect: a droop persists whose injection has not been denied, or a long operation waits for its answer. -/
def Plot.injectionDue (p : Plot) : Bool := p.injectable && !p.injecting && ((p.drooping && !p.denied) || p.heavy != 0)

/-- DROOP_INJECTION: while a droop that was sensed persists, or where a matrix unit of the plot has started a long operation from idle,
8 cycles on the high rail if DROOPCNT stays at 128 or less; a denied injection has the clock suppress one edge in four. The test counts all 8
cycles beside the present DROOPCNT, and none that leaves the 1,024 cycles meanwhile (the model's choice, log 74). -/
def execDroopInjection (die plot : Nat) (sensed : Bool) (st : State) : Host.Outcome State Fault Refusal :=
  let k := plotKey die plot
  if !isPlot die plot then .next st else
  .next (st.onPlot k fun p =>
    let p := if sensed then { p with drooping := true } else p
    if !p.injectable then { p with heavy := 0 }
    else if p.injecting || !(p.drooping || p.heavy != 0) then p
    else if p.droopCount + 8 ≤ 128 then
      { p with
        injecting := true, heavy := p.heavy - 1
        injections := (p.injections.filter fun s => decide (p.cycle < s.2 + 1024)) ++ [(p.cycle, p.cycle + 8)] }
    else { p with denied := true, heavy := p.heavy - 1 })

/-- INJECTION_END: 8 plot cycles after it began. -/
def execInjectionEnd (die plot : Nat) (st : State) : Host.Outcome State Fault Refusal :=
  let k := plotKey die plot
  let p := st.plot k
  if isPlot die plot && p.injecting && p.injections.all (fun s => decide (s.2 ≤ p.cycle)) then .next (st.onPlot k fun p => { p with injecting := false })
  else .next st

/-- DROOP_CLEAR: the droop is over, and with it the suppression that followed a denial. -/
def execDroopClear (die plot : Nat) (st : State) : Host.Outcome State Fault Refusal :=
  if isPlot die plot then .next (st.onPlot (plotKey die plot) fun p => { p with drooping := false, denied := false }) else .next st

/-! ### The sample (R302, R303, R307, R308) -/

/-- RATIO; 256 does not fit the field (log 14). -/
def Core.ratio (c : Core) : Nat :=
  if c.cyc = 0 then 0 else if c.mstall < c.cyc then 256 * c.mstall / c.cyc else Config.fullRatio.toNat

/-- A core's CSTALL at a sample, and its counts begun again. -/
def Core.sampleStall (c : Core) : Core :=
  { c with
    cstall := BitVec.ofNat 64 (c.ratio * 2 ^ 56 + c.mstall % 2 ^ 16 * 2 ^ 32 + c.issues % 2 ^ 16 * 2 ^ 16 + c.cyc % 2 ^ 16)
    cyc := 0, issues := 0, mstall := 0 }

/-- RATIO as a core's CSTALL holds it. -/
def State.ratioOf (st : State) (core : Nat) : Nat := (st.core core).cstall.toNat / 2 ^ 56

/-- Cores that hold the teams of a gang, each once. -/
def State.gangCores (st : State) (g : Gang) : List Nat :=
  (g.teams.filterMap fun t => let x := st.team t
    if x.life = .live ∨ x.life = .saving then some x.core else none).dedup

/-- A gang has a LIVE group. -/
def State.gangLive (st : State) (g : Gang) : Bool := st.groups.any fun e => e.2.life == .live && g.teams.contains e.2.team

/-- What a cluster of a ratio asks of a plot: the code, and whether it is a rail-down refused at the floor (R303). -/
def Plot.decision (p : Plot) (ratio : Nat) (limited : Bool) : Nat × Bool :=
  if 154 ≤ ratio then (if p.highRail then (if 7 < p.fcur then (7, false) else (p.fcur, false)) else (p.fcur - 1, true))
  else if 52 ≤ ratio ∨ limited then (p.fcur, false)
  else (min (p.fcur + 1) p.cap, false)

/-- The governor's decision for a plot: the highest request of the clusters that touch it. Of a refused DOWN and another request of the same code
the other stands as the plot's own, and no refusal counts (R310; the model's choice, log 73). -/
def State.govern (st : State) (k : Nat) (limited : Bool) : State :=
  let p := st.plot k
  let cores := plotCores k
  let asks := (st.gangs.filter fun e => st.gangLive e.2 && (st.gangCores e.2).any cores.contains).map fun (e : Nat × Gang) =>
    let cs := st.gangCores e.2
    p.decision ((cs.map st.ratioOf).sum / cs.length) limited
  let top : Nat × Bool := match asks with
    | [] => (7, false)
    | a :: rest => rest.foldl (fun x y => if x.1 < y.1 ∨ (x.1 = y.1 ∧ !y.2) then y else x) a
  let idle := cores.all fun c => (st.liveGroups c).isEmpty
  let ask (r : Nat) (p : Plot) : Plot := { p with request := some r, askedAt := st.clock }
  if p.ovr then st.onPlot k (ask p.fovr)
  else if 105 ≤ p.temp then st.onPlot k (ask 0)
  else if idle then st.onPlot k (ask 7)
  else st.onPlot k fun p => { ask top.1 p with refusals := if top.2 then (p.refusals + 1) % 256 else p.refusals }

/-- A counter of a die: ECTR(c), or UNATTR at 256 (R307). -/
def State.addEnergy (st : State) (die c n : Nat) : State :=
  let k := 512 * die + c
  { st with ectr := NMap.store st.ectr 0 k (NMap.get st.ectr 0 k + BitVec.ofNat 64 n) }

/-- Divides a plot's energy of the interval among contexts and UNATTR. -/
def State.account (st : State) (k e : Nat) : State :=
  let die := k / 40
  let s (c : Nat) : Nat := ((plotCores k).map fun x => NMap.get (st.core x).share 0 c).sum
  let ctxs := ((plotCores k).flatMap fun x => NMap.keys (st.core x).share).dedup
  let total := (ctxs.map s).sum
  if total = 0 then st.addEnergy die 256 e
  else
    let shares := ctxs.map fun c => (c, e * s c / total)
    (shares.foldl (fun st x => st.addEnergy die x.1 x.2) st).addEnergy die 256 (e - (shares.map fun (x : Nat × Nat) => x.2).sum)

/-- Temperature, calm and hot samples of a plot, and RAMPDN after two calm ones (R304, R308). -/
def Plot.sampled (p : Plot) (now temp : Nat) : Plot :=
  let cool := if p.highRail ∧ p.fcur ≤ 7 then p.cool + 1 else 0
  let hot := if 110 ≤ temp then p.hot + 1 else 0
  if p.dvfs = .steady ∧ p.highRail ∧ 2 ≤ cool then { p with temp := temp, hot := hot, cool := 0, dvfs := .rail, ftgt := p.fcur, since := now }
  else { p with temp := temp, hot := hot, cool := cool }

/-- An emergency of the last die online: every plot of the package is held down, and a record goes out (R308). -/
def State.lastDie (st : State) (die : Nat) : State :=
  ((List.range 160).foldl (fun s k => s.onPlot k fun p => { p with fcap := 0, highOk := false }) st).sendUnit 0x18 [(72, die)]

/-- A millisecond has passed since a thermal emergency last took a die (R308). -/
def State.thermalFree (st : State) : Bool :=
  match st.thermalAt with
  | some t => decide (t + 1000000 ≤ st.clock)
  | none => true

/-- A plot of a die is in a ramp. -/
def State.ramping (st : State) (die : Nat) : Bool := (List.range 40).any fun p => (st.plot (40 * die + p)).dvfs == .rail

/-- The die of a thermal emergency may go offline now: every ramp of its plots has completed (R310). -/
def State.thermalReady (st : State) : Bool :=
  match st.thermalDue with
  | some d => st.thermalFree && !st.ramping d
  | none => false

/-- A thermal emergency (R308): the die of the hottest plot is to go offline, at most one in a millisecond; the last die stays, and every plot
is held down instead, at each sample that finds an emergency (the model's choice, log 75). -/
def State.emergency (st : State) : State :=
  let plots := st.online.flatMap fun d => (List.range 40).map fun p => 40 * d + p
  let due := plots.any fun k => decide (2 ≤ (st.plot k).hot)
  let top := plots.foldl (fun (b : Nat) k => if (st.plot b).temp < (st.plot k).temp then k else b) (plots.headD 0)
  if !due then st
  else if st.online.length = 1 then st.lastDie (top / 40)
  else if st.thermalFree && st.thermalDue.isNone then { st with thermalDue := some (top / 40) }
  else st

/-- A sample is due: the time is a multiple of 10,000 ns, and its sample has not been taken (R302). -/
def State.sampleDue (st : State) : Bool := st.now % 10000 == 0 && st.sampledAt != st.now

/-- STALL_SAMPLE (R302, R303, R307, R308): once at every multiple of 10,000 ns. -/
def execStallSample (sample : Sample) (st : State) : Host.Outcome State Fault Refusal :=
  if !st.sampleDue then .next st
  else
    let st := { st with sampledAt := st.now, powerMw := sample.powerMw, cores := st.cores.map fun (e : Nat × Core) => (e.1, e.2.sampleStall) }
    let st := (List.range 160).foldl (fun s k =>
      s.onPlot k fun p => if (s.die (k / 40)).offline then { p with temp := NMap.get sample.temps 0 k } else p.sampled s.clock (NMap.get sample.temps 0 k)) st
    let st := (List.range 160).foldl (fun s k => if (s.die (k / 40)).offline then s else s.govern k (decide (1400000 < sample.powerMw))) st
    let st := (List.range 160).foldl (fun s k => s.account k (NMap.get sample.energy 0 k)) st
    let st := { st with cores := st.cores.map fun (e : Nat × Core) => (e.1, { e.2 with share := [] }) }
    .next st.emergency

end Sys2Proof.Machine
end

