-- ==== Sys2Proof/Machine/Units.lean ====
section
/-! DEFINITION. Errors and the targeted self-test (R189, R238 to R240, R393, R394), a die going offline (R337), the slice and stack
registers (R319, R323), and writes and reads of the management space (R8, R309, R319, R377, R378, R384, R389). -/

namespace Sys2Proof.Machine

/-! ### Lane mapping and MODE 3 (R187, R189) -/

/-- Marks the halves of register cells that writes of a pipe touch in the logical lanes that run in a physical lane (R189). -/
def Core.poisonCells (c : Core) (pipe phys : Nat) (ws : List CellWrite) : Core :=
  (ws.filter fun w => physOf c.laneremap (32 * pipe + w.cell % 32) == phys).foldl
    (fun (c : Core) w => { c with rfPoison := NMap.store c.rfPoison 0 w.cell (c.cellPoison w.cell ||| halvesOf w.bits) }) c

/-- A failed check strikes a deferred write: its values, or the note of what they will meet when they arrive. -/
def Deferred.strike (remap : Lane) (pipe phys : Nat) (d : Deferred) : Deferred :=
  match d.writes with
  | some ws => { d with writes := some (struck remap pipe phys ws) }
  | none => { d with hit := phys :: d.hit }

/-- A failed residue check, or a double-bit operand error, in a physical lane: the halves that the last instruction of each pipe writes in the
logical lanes which run there are poisoned, those of a deferred write or a result that has not been written yet as it is written (R189, R238). -/
def State.poisonLane (st : State) (core phys : Nat) : State :=
  let c := st.core core
  c.wrote.foldl (fun (s : State) (e : Nat × Wrote) =>
    let waits (g : Group) : Bool := g.core == core && g.pipe == e.1 && g.defers.any fun d => e.2.op == some d.op
    if s.groups.any fun x => waits x.2 then
      { s with groups := s.groups.map fun x => (x.1, if waits x.2 then
          { x.2 with defers := x.2.defers.map fun d => if e.2.op == some d.op then d.strike c.laneremap e.1 phys else d } else x.2) }
    else s.onCore core fun c => c.poisonCells e.1 phys e.2.writes) st

/-- Kills the gangs of a core (R266). -/
def State.doomCore (st : State) (core cause : Nat) : State :=
  (st.teamsOn core).foldl (fun s e => s.doom e.2.gang { cause := cause, group := none }) st

/-- A core enters MODE 3: it stops issuing, and its gangs are killed with cause 0x31. -/
def State.enterMode3 (st : State) (core : Nat) : State :=
  (st.onCore core fun c => { c with laneremap := c.laneremap ||| 0xC000000000000000#64, paused := false }).doomCore core 0x31

/-- The register after one more lasting failure of a physical lane: MODE 0 to 1, 1 to 2; none for a third. -/
def nextMode (r : Lane) (phys : Nat) : Option Lane :=
  match r.toNat / 2 ^ 62 with
  | 0 => some ((r &&& ~~~0xC000000000007F00#64) ||| BitVec.ofNat 64 (2 ^ 62 + phys % 128 * 2 ^ 8))
  | 1 => some ((r &&& ~~~0xC0000000007F0000#64) ||| BitVec.ofNat 64 (2 ^ 63 + phys % 128 * 2 ^ 16))
  | _ => none

/-- A physical lane is declared lasting-failed: issue pauses for the change of mode, or the core goes to MODE 3. -/
def State.laneFailed (st : State) (core phys : Nat) : State :=
  let c := st.core core
  match nextMode (if c.paused then c.nextRemap else c.laneremap) phys with
  | some r => st.onCore core fun c => { c with paused := true, nextRemap := r }
  | none => if c.mode3 then st else st.enterMode3 core

/-- ISSUE_RESUME (R189 steps 2 and 3): the register is rewritten, the mapping switches, and issue goes on. -/
def execIssueResume (core : Nat) (st : State) : Host.Outcome State Fault Refusal :=
  .next (st.onCore core fun c => if c.paused then { c with paused := false, laneremap := c.nextRemap } else c)

/-! ### The self-test (R393, R394) -/

/-- Die on which a unit lies. -/
def unitDie : FaultUnit → Nat
  | .lane c _ => dieOf c
  | .rfBank c _ => dieOf c
  | .arrayRow c _ _ => dieOf c
  | .l2Way s _ _ => s / 80
  | .irendLane p _ _ => p / 3
  | .dieLink d _ => d
  | .hbmRow s _ => s / 2

/-- Class and number of a unit in its record; the spec numbers neither (log 15). -/
def unitWord : FaultUnit → Nat × Nat
  | .lane c p => (0, 128 * c + p)
  | .rfBank c b => (1, 16 * c + b)
  | .arrayRow c a r => (2, r * 4096 + 4 * c + a)
  | .l2Way s k w => (3, 16 * (768 * s + k) + w)
  | .irendLane p r l => (4, 20 * p + 4 * r + l)
  | .dieLink d l => (5, 1024 * d + l)
  | .hbmRow s r => (6, 8 * r + s)

/-- The self-test record of a unit. -/
def State.testOf (st : State) (u : FaultUnit) : TestUnit := (st.tests.find? fun t => t.unit == u).getD { unit := u }

/-- A self-test record with something to keep. -/
def TestUnit.kept (t : TestUnit) : Bool := !t.occurrences.isEmpty || t.testing || t.lasting || t.corrected != 0

/-- Replaces a self-test record where it stands; one without anything to keep goes. -/
def State.putTest (st : State) (t : TestUnit) : State :=
  let tests := if st.tests.any fun x => x.unit == t.unit then st.tests.map fun x => if x.unit == t.unit then t else x else st.tests ++ [t]
  { st with tests := tests.filter TestUnit.kept }

/-- Lasting verdicts on rows of an array of a core: each has taken a spare row (R394). -/
def State.failedRows (st : State) (core array : Nat) : Nat :=
  ((st.tests.filter fun t => match t.unit with
    | .arrayRow c a _ => c == core && a == array
    | _ => false).map fun t => t.verdicts).sum

/-- Spare rows that a stack has used (R394). -/
def State.usedSpares (st : State) (stack : Nat) : Nat :=
  ((st.tests.filter fun t => match t.unit with
    | .hbmRow s _ => s == stack
    | _ => false).map fun t => t.verdicts).sum

/-- A rail of an Irend port is failed; a second one takes the port down, and a record goes out (R388). -/
def State.failRail (st : State) (port rail : Nat) : State :=
  let p := NMap.get st.irend {} port
  if p.failed.contains rail then st
  else
    let failed := insertSorted rail p.failed
    let p := { p with failed := failed, down := p.down || decide (2 ≤ failed.length) }
    State.sendUnit { st with irend := NMap.put st.irend port p } 0x17 [(72, port), (80, (failed.map fun r => 2 ^ r).sum)]

/-- The granules of a bank are withdrawn (R394); the reserve stays 8 granules, taken from the highest free ones, or the core enters MODE 3. -/
def State.withdrawBank (st : State) (core bank : Nat) : State :=
  let c := st.core core
  let inBank (g : Nat) : Bool := g / 16 == bank
  let lost := (List.range 16).map (16 * bank + ·)
  let reserve := c.reserve.filter fun g => !inBank g
  let free := c.free.filter fun g => !inBank g
  let need := c.reserve.length - reserve.length
  let c := { c with withdrawn := insertAll lost c.withdrawn, reserve := reserve, free := free }
  if need ≤ free.length then
    st.setCore core { c with reserve := insertAll (free.drop (free.length - need)) reserve, free := free.take (free.length - need) }
  else (st.setCore core c).enterMode3 core

/-- An L2 way is declared lasting-failed (R334): its line moves to another way of the set; where the set's adobe ways are then over-reserved,
an adobe line that stood in the way must leave the chip. Which of the set's lines stood there is a free value (log 16). -/
def State.wayFailed (st : State) (slice set : Nat) : State :=
  let lines := (NMap.keys st.adobeLines).filter fun l => st.setKey l == (slice, set)
  let st := { st with crowded := (768 * slice + set) :: st.crowded }
  if st.setAdw slice set < st.setReserved slice set then
    (match lines[Config.lineOfWay (st.tests.filter (·.lasting)).length % 16]? with
     | some l => { (st.mustLeave l) with unreserved := l :: (st.mustLeave l).unreserved }
     | none => st)
  else st

/-- What a lasting verdict brings about (R394) (log 43). -/
def State.applyVerdict (st : State) (u : FaultUnit) : State :=
  match u with
  | .lane c p => st.laneFailed c p
  | .rfBank c b => st.withdrawBank c b
  | .arrayRow c a _ => if 4 < st.failedRows c a then st.enterMode3 c else st
  | .l2Way s k _ => st.wayFailed s k
  | .irendLane p r _ => st.failRail p r
  | .dieLink d l => st.onDie d fun x => { x with failedRails := insertSorted (l / 4) x.failedRails }
  -- remapped to a spare row; one without a spare is reported at each access (`State.rowLost`)
  | .hbmRow _ _ => st

/-- The occurrences of a unit that have not expired: none is 1 s old (R394). -/
def TestUnit.counted (t : TestUnit) (now : Nat) : List Nat := t.occurrences.filter fun x => decide (now < x + 1000000000)

/-- A unit that may fail more than once: a row, since the one that takes its place fails as a row of its own (R394). -/
def rowUnit : FaultUnit → Bool
  | .arrayRow _ _ _ => true
  | .hbmRow _ _ => true
  | _ => false

/-- The verdict of a unit: lasting at a count of 3, with its record; the count of what takes its place begins at 0 (log 43). On a die that is
offline the verdict applies once the die is back. -/
def State.judge (st : State) (u : FaultUnit) : State :=
  let t := st.testOf u
  if 3 ≤ (t.counted st.clock).length then
    let (k, n) := unitWord u
    let spent := match u with
      | .hbmRow s _ => decide (Config.hbmSpares s ≤ st.usedSpares s)
      | _ => false
    let t' := { t with
      lasting := true, testing := false, occurrences := [], spent := t.spent || spent
      verdicts := if spent then t.verdicts else t.verdicts + 1 }
    let st := (st.putTest t').sendUnit 0x15 [(72, k), (80, n)]
    if (st.die (unitDie u)).offline || (t.lasting && !rowUnit u) then st else st.applyVerdict u
  else st

/-- An occurrence of a unit's fault. -/
def State.occur (st : State) (u : FaultUnit) : State :=
  let t := st.testOf u
  st.putTest { t with occurrences := t.counted st.clock ++ [st.clock] }

/-- Marks the waiting writes of a core's L1 that hold bytes of a word; none where no such write waits. -/
def Core.strikeL1 (c : Core) (word : Nat) : Option Core :=
  if c.l1.any fun w => !(w.within word (word + 8)).isEmpty then
    some { c with l1 := c.l1.flatMap fun w => (w.within word (word + 8)).map (fun x => { x with bad := true }) ++ w.beside word (word + 8) }
  else none

/-- Poison that an uncorrectable error in a word of memory leaves (R321, R333). In an on-chip memory the word is marked. In an L1 a write that
waits there is marked, and with it the word of a line that is dirty there; in L2 the word of a dirty line is; an adobe line's word is marked in
either, and a clean line of a backed page is fetched again. In HBM4E the memory's word is marked. -/
def State.strikeWord (st : State) (u : FaultUnit) (pa : Nat) : State :=
  let word := pa / 8 * 8
  if isChip pa then st.setHomeBad pa true
  else match u with
    | .arrayRow core _ _ =>
      (match (st.core core).strikeL1 word with
       | some c => st.setCore core c
       | none => if isAdobe pa || (st.core core).l1.any (fun w => lineOf w.place == lineOf pa) then st.setHomeBad pa true else st)
    | .l2Way _ _ _ => if st.dirtyLine (lineOf pa) || isAdobe pa then st.setHomeBad pa true else st
    | _ => { st with poison := NMap.store st.poison 0 (pa / 8) 3 }

/-- Poison that an uncorrectable error leaves (R34, R189, R212, R238, R321, R333). -/
def State.strike (st : State) (u : FaultUnit) (site : ErrorSite) : State :=
  match site with
  | .corrected => st
  | .residue => (match u with
    | .lane core phys => st.poisonLane core phys
    | _ => st)
  | .regHalf core key high => (match u with
    | .rfBank _ _ => st.onCore core fun c => { c with rfPoison := NMap.store c.rfPoison 0 key (c.cellPoison key ||| (if high then 2#2 else 1#2)) }
    | _ => st)
  | .memWord pa => st.strikeWord u pa
  | .versionWord team place =>
    { st with versions := st.versions.map fun v =>
        if v.team = team ∧ v.line = lineOf place then { v with poison := NMap.put v.poison (place % 128 / 8) true } else v }
  | .tileWord core w => st.onCore core fun c => { c with tilePoison := NMap.store c.tilePoison false w true }
  | .accWord core w => st.onCore core fun c => { c with accPoison := NMap.store c.accPoison false w true }

/-- ERROR_DETECTION (R238, R321, R393): the word or half is poisoned where the error is uncorrectable, and logged as corrected where it is
not; the occurrence counts, and a self-test of the unit begins if none runs. -/
def execErrorDetection (unit : FaultUnit) (site : ErrorSite) (st : State) : Host.Outcome State Fault Refusal :=
  let st := (st.strike unit site).occur unit
  let t := st.testOf unit
  let t := if site = .corrected then { t with corrected := t.corrected + 1 } else t
  .next ((st.putTest (if t.testing then t else { t with testing := true, passes := 0 })).judge unit)

/-- SELF_TEST_PASS (R394): one of the test's two passes finishes. -/
def execSelfTestPass (unit : FaultUnit) (reproduced : Bool) (st : State) : Host.Outcome State Fault Refusal :=
  let t := st.testOf unit
  if !t.testing then .next st
  else
    let st := if reproduced then st.occur unit else st
    let t := st.testOf unit
    .next ((st.putTest { t with passes := t.passes + 1, testing := decide (t.passes + 1 < 2) }).judge unit)

/-- OCCURRENCE_EXPIRY (R394): occurrences of 1 s ago and more no longer count. -/
def execOccurrenceExpiry (unit : FaultUnit) (st : State) : Host.Outcome State Fault Refusal :=
  let t := st.testOf unit
  .next (st.putTest { t with occurrences := t.counted st.clock })

/-! ### A die going offline (R308, R337) -/

/-- A line whose home slice lies on a die (R316). -/
def State.homedOn (st : State) (die line : Nat) : Bool := st.homeSlice (128 * line) / 80 == die

/-- Queues, launches, restore list, requests and fences of a die that goes (step 1); the teams that left for a request which goes with it are to be
restored (R292 step 6). -/
def State.passOn (st : State) (die : Nat) : State :=
  let d := st.die die
  let st := d.slots.foldl (fun s x => (if x.seen.isSome then s.setPending x.queue else s).setMapped x.queue false) st
  let next := st.servingDie die
  let st := st.onDie die fun d => { d with slots := [], restore := [], fences := [] }
  let dropped := st.preempts.filter fun p => dieOf p.origin == die
  (dropped.flatMap fun p => p.victims.filter fun t => (st.team t).life == .saved).foldl State.requeue
    { (st.onDie next fun d' => { d' with restore := d'.restore ++ d.restore }) with
      preempts := st.preempts.filter fun p => dieOf p.origin != die
      launches := st.launches.map fun e => (e.1, if e.2.die = die then { e.2 with die := next } else e.2) }

/-- Gangs with a team on a die. -/
def State.gangsOn (st : State) (die : Nat) : List Nat :=
  ((st.teams.filter fun e => (e.2.life == .live || e.2.life == .saving) && dieOf e.2.core == die).map fun (e : Nat × Team) => e.2.gang).dedup

/-- Normal lines that L2 holds and memory does not. -/
def State.dirtyLines (st : State) : List Nat :=
  ((st.l2.map fun (e : Nat × Byte) => lineOf e.1) ++ st.l2bad.map fun (e : Nat × BitVec 2) => lineOf (8 * e.1)).dedup.filter fun l => !isAdobe (128 * l)

/-- Lines of adobe pages have moved to new homes: each reserves a place there, in order, and takes it from the normal lines of its new set where it
is present; one that is refused must leave the chip (R318, R331, R337). -/
def State.reReserve (st : State) (lines : List Nat) : State :=
  lines.foldl (fun (s : State) l =>
    let k := s.setKey l
    let here := NMap.get s.adobeLines false l || s.dirtyLine l
    if s.setReserved k.1 k.2 < s.setAdw k.1 k.2 then
      (let s := { s with unreserved := s.unreserved.filter (· != l) }
       if here then { s with adobeLines := NMap.put s.adobeLines l true, crowded := s.wayKey l :: s.crowded } else s)
    else if here then s.mustLeave l else s) { st with unreserved := st.unreserved.filter (fun l => !lines.contains l) ++ lines }

/-- Version lines have moved to new homes: each takes a version way there, in order, from the normal lines of its new set, and the gang of one that
finds no room dies, as does that of a lost one (R318, R337). -/
def State.moveVersions (st : State) (moved lost : Nat → Bool) : State :=
  (st.versions.foldl (fun (x : State × List (Nat × Nat)) v =>
    let k := x.1.setKey v.line
    if lost v.line || (moved v.line && decide ((x.1.slice k.1).vw ≤ x.2.count k)) then
      (x.1.doom (x.1.team v.team).gang { cause := 0x32, group := none }, x.2)
    else if moved v.line then ({ x.1 with crowded := x.1.wayKey v.line :: x.1.crowded }, k :: x.2) else x)
    (st, (st.versions.filter fun v => !moved v.line).map fun v => st.setKey v.line)).1

/-- Lines have moved to new homes (R316, R337 step 3): normal ones are written back where they are dirty and dropped, adobe and version lines
take places at their new homes. -/
def State.rehash (st : State) (moved lost : Nat → Bool) : State :=
  let pages := st.adobes.flatMap fun a => a.lines.filter moved
  let st := (st.dirtyLines.filter moved).foldl (fun s l => s.writeBack l) st
  let st := { st with l2ways := st.l2ways.map fun (e : Nat × List L2Line) => (e.1, e.2.filter fun w => !moved w.line) }
  (st.reReserve pages).moveVersions moved lost

/-- The plots of a die that is offline stay on the low rail at 350 MHz (R308, R376). -/
def State.holdPlots (st : State) (die : Nat) : State :=
  (List.range 40).foldl (fun s p => s.onPlot (40 * die + p) fun p =>
    { p.disconnect with
      dvfs := .steady, highRail := false, fcur := 0, ftgt := 0, queued := false, fque := 0, request := none, drooping := false, heavy := 0
      denied := false }) st

/-- Lines of a page lost with a die: installed poisoned at their new homes, with one record for the page (step 5). -/
def State.loseAdobe (st : State) (lost : Nat → Bool) (a : Adobe) : State :=
  let lines := a.lines.filter lost
  if lines.isEmpty then st
  else
    let st := lines.foldl (fun s l =>
      let s := s.forgetLine l
      let s := { s with adobeLines := NMap.put s.adobeLines l true, crowded := s.wayKey l :: s.crowded }
      (List.range 16).foldl (fun s i => s.setHomeBad (128 * l + 8 * i) true) s) st
    State.sendUnit { st with adobes := st.adobes.map fun x => if x = a then { x with lost := true } else x } 0x14
      [(8, a.ctx * 2 ^ 32), (72, a.va), (80, a.base)]

/-- What a fault takes with a die (steps 2 and 5): its gangs, what its L1 caches hold, and the contents of its slices. -/
def State.loseDie (st : State) (die : Nat) (lost : Nat → Bool) : State :=
  let st := (st.gangsOn die).foldl (fun s g => s.doom g { cause := 0x32, group := none }) st
  let st := { st with
    cores := st.cores.map fun (e : Nat × Core) => if dieOf e.1 = die then (e.1, { e.2 with l1 := [] }) else e
    l1Tags := st.l1Tags.filter fun e => dieOf e.1 != die
    hbmQueue := st.hbmQueue.filter fun r => !lost r.line }
  let st := (st.dirtyLines.filter lost).foldl State.forgetLine st
  st.adobes.foldl (fun (s : State) (a : Adobe) => s.loseAdobe lost a) st

/-- A die goes out of service (R308, R337). The lines whose home moves are those homed on it and, where other dies are offline too, those that
R316 sends to another of the dies left. -/
def State.goOffline (st : State) (die : Nat) (byFault : Bool) : State :=
  let before := st
  let st := (st.onDie die fun d => { d with offline := true, thermal := !byFault }).passOn die
  let after := st
  let moved (l : Nat) : Bool := before.homeSlice (128 * l) != after.homeSlice (128 * l)
  let lost (l : Nat) : Bool := byFault && before.homedOn die l
  let st := if byFault then st.loseDie die lost
    else ((st.teams.filter fun e => e.2.life == .live && dieOf e.2.core == die).map fun (e : Nat × Team) => e.1).foldl (fun s t => s.preemptTeam t none) st
  ((st.rehash moved lost).holdPlots die).sendUnit 0x16 [(72, die), (80, if byFault then 1 else 0)]

/-- DIE_OFFLINE (R308, R310, R337): by a fault, or by a thermal emergency once every ramp of the die's plots has completed, at most one die in a
millisecond; a die that has become the last one online stays. -/
def execDieOffline (die : Nat) (byFault : Bool) (st : State) : Host.Outcome State Fault Refusal :=
  if 4 ≤ die ∨ (st.die die).offline then .next st
  else if byFault then .next ((if st.thermalDue = some die then { st with thermalDue := none } else st).goOffline die true)
  else if st.thermalDue ≠ some die ∨ !st.thermalReady then .next st
  else if st.online.length = 1 then .next ({ st with thermalDue := none }.lastDie die)
  else .next ({ st with thermalDue := none, thermalAt := some st.clock }.goOffline die false)

/-! ### Slices and stacks (R319, R323) -/

/-- SLICECFG_WRITE (R319). -/
def execSlicecfgWrite (slice : Nat) (value : BitVec 64) (st : State) : Host.Outcome State Fault Refusal :=
  let adw := value.toNat / 2 ^ 8 % 16
  let vw := value.toNat % 8
  let keys := st.reservedKeys.filter fun k => k.1 == slice
  let held := (st.versions.map fun (v : VersionLine) => st.setKey v.line).filter fun k => k.1 == slice
  let bad := decide (8 < adw) || decide (4 < vw) || keys.any (fun k => decide (adw < keys.count k)) || held.any fun k => decide (vw < held.count k)
  if (st.die (slice / 80)).offline then .next st
  else
    let s := st.slice slice
    .next { st with slices := NMap.put st.slices slice (if bad then { s with refused := true } else { adw := adw, vw := vw, refused := false }) }

/-- SLICECFG of a slice. -/
def State.sliceCfg (st : State) (slice : Nat) : Lane :=
  let s := st.slice slice
  BitVec.ofNat 64 (st.sliceReserved slice % 2 ^ 16 * 2 ^ 16 + (if s.refused then 2 ^ 15 else 0) + s.adw * 2 ^ 8 + s.vw)

/-- BWCLASS of a class on a stack: MIN 15 at reset. -/
def State.bwClass (st : State) (stack c : Nat) : Nat := (NMap.get st.bwclass 15 (16 * stack + c)).toNat

/-- Transfers of a class in the stack's window. -/
def State.served (st : State) (stack c : Nat) : Nat := NMap.get st.hbmCount 0 (16 * stack + c)

/-- The first of the classes after one, in ascending order round (log 43). -/
def nextRound (classes : List Nat) (last : Nat) : Option Nat :=
  (classes.find? fun c => decide (last < c)).orElse fun _ => classes.head?

/-- The HBM4E stack that a line's transfer uses; none where no memory is behind the line any more (R315, R332). -/
def State.stackOf (st : State) (line : Nat) : Option Nat :=
  (st.memPlace (128 * line)).bind fun pa => if isHbm pa then some (pa / 2 ^ 36 % 8) else none

/-- The transfer of a request is made: a miss fills a way of its set, from which the least recently used line leaves where the set is full;
under .NT the line comes last in the order of use (R318, R320). An adobe line with a reservation stands in its adobe way. -/
def State.transfer (st : State) (r : HbmRequest) : State :=
  let key := st.wayKey r.line
  if !r.fill || (isAdobe (128 * r.line) && !st.unreserved.contains r.line) then st
  else
    let ways := NMap.get st.l2ways [] key
    let st := if ways.length < st.normalWays key then st else match victimLine ways with
      | some w => st.evictLine key w
      | none => st
    let ways := NMap.get st.l2ways [] key
    let w : L2Line := { line := r.line, keep := r.policy == 2, writer := r.writer }
    { st with l2ways := NMap.put st.l2ways key (if r.policy = 1 then ways.filter (fun x => x.line != r.line) ++ [w]
        else useWay ways w { policy := r.policy }) }

/-- HBM_REQUEST_SLOT (R322, R323): a stack serves a request of one class, the `pending`-th of those that wait, since the
spec gives no order within a class (log 17); counts begin again each microsecond. While program requests
wait the management queue has at most 1/16 of the window's transfers, and within that it goes first (log 17). `hbmLast` holds for a stack the
class served last below MIN, the class of the weighted turn, what it has had of its turn, and the window; `hbmCount` holds at 128 + 16 x stack
the management transfers made while program requests waited. -/
def execHbmRequestSlot (stack pending : Nat) (st : State) : Host.Outcome State Fault Refusal :=
  let queue := st.hbmQueue.filter fun r => (st.stackOf r.line).isSome
  let mine := queue.filter fun r => st.stackOf r.line == some stack
  let program := mine.any fun r => r.traffic != .management
  let key (i : Nat) : Nat := 4 * stack + i
  let get (i : Nat) : Nat := NMap.get st.hbmLast 0 (key i)
  let window := st.clock / 1000
  let fresh := get 3 ≠ window
  let count := if fresh then NMap.keep st.hbmCount fun k _ => k / 16 != stack && k / 16 != 8 + stack else st.hbmCount
  let managed := NMap.get count 0 (128 + 16 * stack)
  let had (c : Nat) : Nat := NMap.get count 0 (16 * stack + c)
  let most (c : Nat) : Nat := st.bwClass stack c / 256 % 256
  let least (c : Nat) : Nat := st.bwClass stack c % 256
  let total := Config.windowTransfers
  let able := (List.range 16).filter fun c => mine.any (fun r => r.traffic == .launch c) && (most c == 0 || decide (256 * had c < most c * total))
  let low := able.filter fun c => decide (256 * had c < least c * total)
  let put (l : NMap Nat) (i v : Nat) : NMap Nat := NMap.put l (key i) v
  let last := put st.hbmLast 3 window
  let take (t : Traffic) (c : NMap Nat) (l : NMap Nat) : State :=
    let waiting := mine.filter fun r => r.traffic == t
    match waiting[pending % waiting.length]? with
    | none => { st with hbmQueue := queue, hbmCount := c, hbmLast := l }
    | some r => State.transfer { st with hbmQueue := queue.erase r, hbmCount := c, hbmLast := l } r
  let serve (c : Nat) (l : NMap Nat) : State := take (.launch c) (NMap.put count (16 * stack + c) (had c + 1)) l
  if 8 ≤ stack then .next st
  else if mine.any (fun r => r.traffic == .management) && (!program || decide (16 * (managed + 1) ≤ total)) then
    .next (take .management (if program then NMap.put count (128 + 16 * stack) (managed + 1) else count) last)
  else match nextRound low (get 0) with
  | some c => .next (serve c (put last 0 c))
  | none =>
    let turn := get 1
    if able.contains turn && decide (get 2 < max (least turn) 1) then .next (serve turn (put last 2 (get 2 + 1)))
    else match nextRound able turn with
      | some c => .next (serve c (put (put last 1 c) 2 1))
      | none => .next { st with hbmQueue := queue, hbmCount := count, hbmLast := last }

/-! ### The management space (R377) -/

/-- A network register of a port: counters RXLAUNCH, RINGFULL, BADFRAME, NOMATCH, DROPOTHER are 0 to 4 (R384). -/
def State.netCounter (st : State) (port i : Nat) : Lane := NMap.get st.netCounters 0 (8 * port + i)

/-- Ethernet port of a die (R382). -/
def portOf (die : Nat) : Option Nat := if die = 0 then some 0 else if die = 2 then some 1 else none

/-- A register of the host-port block (R378). -/
def HostPort.read (h : HostPort) (o : Nat) : Lane :=
  if o = 0 then h.cfg
  else if o = 8 then h.pkgId.setWidth 64
  else if 0x100 ≤ o ∧ o < 0x180 ∧ o % 8 = 0 then
    let r := h.ring ((o - 0x100) / 0x20)
    match o / 8 % 4 with
    | 0 => r.base
    | 1 => r.ctl
    | 2 => r.pidx.setWidth 64
    | _ => r.cidx.setWidth 64
  else 0

/-- Writes a register of the host-port block (R378): PIDX by the host for ring 3, CIDX for rings 0 to 2. -/
def HostPort.store (h : HostPort) (o : Nat) (v : Lane) : HostPort :=
  if o = 0 then { h with cfg := v &&& 0xF03#64 }
  else if o = 8 then { h with pkgId := v.setWidth 16 }
  else if 0x100 ≤ o ∧ o < 0x180 ∧ o % 8 = 0 then
    let n := (o - 0x100) / 0x20
    let r := h.ring n
    let r := match o / 8 % 4 with
      | 0 => { r with base := v }
      | 1 => { r with ctl := v &&& 0x3F008F#64 }
      | 2 => if n = 3 then { r with pidx := v.setWidth 32 } else r
      | _ => if n = 3 then r else { r with cidx := v.setWidth 32 }
    { h with rings := NMap.put h.rings n r }
  else h

/-- A register of a die's power block (R309). -/
def State.powerRead (st : State) (die o : Nat) : Lane :=
  if o % 8 ≠ 0 then 0
  else if o < 640 then
    let p := st.plot (40 * die + o / 16)
    if o / 8 % 2 = 0 then p.ctl else p.stat
  else if 0x1000 ≤ o ∧ o < 0x1500 then (st.core (160 * die + (o - 0x1000) / 8)).cstall
  else if 0x2000 ≤ o ∧ o ≤ 0x2800 then NMap.get st.ectr 0 (512 * die + (o - 0x2000) / 8)
  else if o = 0x2808 then BitVec.ofNat 64 st.powerMw
  else 0

/-- A register of a die's memory block (R319). -/
def State.memoryRead (st : State) (die o : Nat) : Lane :=
  if o % 8 ≠ 0 then 0
  else if o < 640 then st.sliceCfg (80 * die + o / 8)
  else if 0x400 ≤ o ∧ o < 0x500 then BitVec.ofNat 64 (st.bwClass (2 * die + (o - 0x400) / 0x80) ((o - 0x400) % 0x80 / 8))
  else if o = 0x500 then NMap.get (st.die die).regs 0 0x500
  else 0

/-- A register of a link ring (R389). -/
def State.linkRead (st : State) (die o : Nat) : Lane :=
  if 0x800 ≤ o ∧ o < 0x900 then
    let r := NMap.get (st.die die).links {} ((o - 0x800) / 32)
    match o / 8 % 4 with
    | 0 => r.base
    | 1 => r.ctl
    | 2 => r.prod
    | _ => r.cons
  else 0

/-- A register of a die's Almanac block (R384, R389). -/
def State.almanacRead (st : State) (die o : Nat) : Lane :=
  if o % 8 ≠ 0 then 0
  else if o = 0x1000 then (if (st.die die).boot then BitVec.allOnes 64 else 0)
  else match portOf die with
    | some p =>
      if o < 0x400 then BitVec.ofNat 64 ((NMap.get st.filters 0 (32 * p + o / 32)).toNat / 2 ^ (64 * (o / 8 % 4)))
      else if o < 0x428 then st.netCounter p ((o - 0x400) / 8)
      else st.linkRead die o
    | none => st.linkRead die o

/-- What a read of the management space gives (R376, R377). A die that is offline answers for its power block and its network part. -/
def State.manageRead (st : State) (offset : Nat) : Lane :=
  let die := offset / 2 ^ 24
  let o := offset % 2 ^ 24
  if 4 ≤ die then 0
  else match o / 2 ^ 20 with
    | 0 => if die = 0 then st.host.read o else 0
    | 1 => st.powerRead die (o % 2 ^ 20)
    | 2 => if (st.die die).offline then 0 else st.memoryRead die (o % 2 ^ 20)
    | 3 => if (st.die die).offline && !((portOf die).isSome && decide (o % 2 ^ 20 < 0x428)) then 0 else st.almanacRead die (o % 2 ^ 20)
    | _ => 0

/-- Writes a register of a die's Almanac block: a word of the filter table, or of a link ring. -/
def State.almanacWrite (st : State) (die o : Nat) (v : Lane) : State :=
  let table (p : Nat) : State :=
    let k := 32 * p + o / 32
    let sh := 64 * (o / 8 % 4)
    let old := NMap.get st.filters 0 k
    { st with filters := NMap.store st.filters 0 k ((old &&& ~~~((BitVec.allOnes 64).setWidth 256 <<< sh)) ||| (v.setWidth 256 <<< sh)) }
  if o % 8 ≠ 0 then st
  else if o < 0x400 then
    (match portOf die with
     | some p => table p
     | none => st)
  else if 0x800 ≤ o ∧ o < 0x900 ∧ !(st.die die).offline then
    st.onDie die fun d => { d with links := NMap.change d.links {} ((o - 0x800) / 32) fun r =>
      match o / 8 % 4 with
      | 0 => { r with base := v }
      | 1 => { r with ctl := v &&& 0x8000FF000000000F#64 }
      | 2 => { r with prod := v }
      | _ => r }
  else st

/-- REGISTER_WRITE (R8): a write of the management space to a register without behaviour of its own. -/
def execRegisterWrite (offset : Nat) (value : BitVec 64) (st : State) : Host.Outcome State Fault Refusal :=
  let die := offset / 2 ^ 24
  let o := offset % 2 ^ 24
  let b := o % 2 ^ 20
  if 4 ≤ die then .next st
  else match o / 2 ^ 20 with
    | 0 => .next (if die = 0 then { st with host := st.host.store o value } else st)
    | 2 =>
      if (st.die die).offline ∨ b % 8 ≠ 0 then .next st
      else if 0x400 ≤ b ∧ b < 0x500 then
        .next { st with bwclass := NMap.store st.bwclass 15 (16 * (2 * die + (b - 0x400) / 0x80) + (b - 0x400) % 0x80 / 8) (value &&& 0xFFFF#64) }
      else if b = 0x500 then .next (st.onDie die fun d => { d with regs := NMap.store d.regs 0 0x500 value })
      else .next st
    | 3 => .next (st.almanacWrite die b value)
    | _ => .next st

end Sys2Proof.Machine
end

