-- ==== Sys2Proof/Machine/HostPort.lean ====
section
/-! DEFINITION. The host port (R362, R375 to R380): HOST_READ, HOST_READ_ABORT, HOST_POSTED_WRITE, RING_RECORD_WRITE,
MSIX_DEFERRED_SEND, and what the command ring holds. -/

namespace Sys2Proof.Machine

/-! ### Reads and writes by the host (R362, R377) -/

/-- The lines of a range. -/
def linesIn (place n : Nat) : List Nat := ((spread place n).map lineOf).dedup

/-- Some line of a range is pinned (R356). -/
def State.anyPinned (st : State) (place n : Nat) : Bool := (linesIn place n).any (st.pinnedAgainst none)

/-- BAR4 accesses are served (R378). -/
def HostPort.bar4 (h : HostPort) : Bool := h.cfg.getLsbD 0

/-- A range inside BAR4 (R377). -/
def inBar4 (addr n : Nat) : Bool := decide (addr + n ≤ adobeBase)

/-- First address that the model gives BAR0 and BAR2 reads, beside BAR4's 0 to 2^39 - 1 (log 18). -/
def bar0At : Nat := 2 ^ 63
/-- See `bar0At`. -/
def bar2At : Nat := 2 ^ 62

/-- The answer of a read (R362). -/
def State.answer (st : State) (a : HostAnswer) : State :=
  { st with host := { st.host with answers := st.host.answers ++ [a], reads := st.host.reads.filter fun r => r.id != a.id } }

/-- What the host port's accesses say about themselves: the bandwidth class that HOSTCFG names (R322, R378). -/
def State.hostAccess (st : State) : Access := { traffic := .launch (st.host.cfg.toNat / 2 ^ 8 % 16) }

/-- The time for which the port retries a read (R362). -/
def retryTime : Nat := 10000000

/-- A held read whose retries are over (R362). -/
def HeldRead.over (r : HeldRead) (now : Nat) : Bool := decide (r.arrived + retryTime < now)

/-- A held read must be aborted now: its time is up and its line is still pinned (R362). -/
def State.abortDue (st : State) (r : HeldRead) : Bool := st.anyPinned r.addr r.len && decide (r.arrived + retryTime ≤ st.clock)

/-- HOST_READ (R362, R377): a read of BAR4 is performed at the home slices; at a pinned line, or behind posted writes that are held, it
is retried, for at most 10 ms from its arrival. A read of BAR0 gives the register, one of BAR2 gives 0 (log 44). -/
def execHostRead (id : Nat) (addr : BitVec 64) (len : Nat) (st : State) : Host.Outcome State Fault Refusal :=
  let a := addr.toNat
  if bar0At ≤ a then
    let o := a - bar0At
    .next (st.answer { id := id, bytes := (bytesOf (st.manageRead (o / 8 * 8)).toNat 8).drop (o % 8) |>.take len, poisoned := false })
  else if bar2At ≤ a then .next (st.answer { id := id, bytes := bytesOf 0 len, poisoned := false })
  else if !st.host.bar4 || !inBar4 a len then
    .next (st.answer { id := id, bytes := [], poisoned := false, unsupported := true })
  else if st.host.reads.any fun r => r.id == id && r.over st.clock then .next st
  else if st.anyPinned a len || !st.host.posted.isEmpty then
    .next (if st.host.reads.any fun r => r.id == id then st
      else { st with host := { st.host with reads := st.host.reads ++ [{ id := id, addr := a, len := len, arrived := st.clock }] } })
  else
    let s := (linesIn a len).foldl (fun s l => s.install (max a (128 * l)) st.hostAccess) st
    .next (s.answer { id := id, bytes := st.readHome a len, poisoned := (spread a len).any st.homeBad })

/-- HOST_READ_ABORT (R362): a read whose line is still pinned 10 ms after its arrival completes with Completer Abort, as does one that was
then behind held writes. -/
def execHostReadAbort (id : Nat) (st : State) : Host.Outcome State Fault Refusal :=
  match st.host.reads.find? fun r => r.id == id with
  | none => .next st
  | some r =>
    if st.abortDue r || r.over st.clock then
      .next (st.answer { id := id, bytes := [], poisoned := false, abort := true })
    else .next st

/-- Performs held posted writes in their order, up to the first that meets a pinned line (R362). -/
def State.performPosted (st : State) : Nat → State
  | 0 => st
  | n + 1 => match st.host.posted with
    | [] => st
    | (a, bs) :: rest =>
      if st.anyPinned a bs.length then st
      else (State.writeHome { st with host := { st.host with posted := rest } } a bs false st.hostAccess).performPosted n

/-- HOST_POSTED_WRITE (R362): the write joins those before it, and they are performed in order. One that BAR4 does not serve is dropped. -/
def execHostPostedWrite (addr : BitVec 64) (bytes : List Byte) (st : State) : Host.Outcome State Fault Refusal :=
  let ok := st.host.bar4 && inBar4 addr.toNat bytes.length && !bytes.isEmpty
  let st := if ok then { st with host := { st.host with posted := st.host.posted ++ [(addr.toNat, bytes)] } } else st
  .next (st.performPosted st.host.posted.length)

/-! ### Rings (R378, R379) -/

/-- LOG2 of a ring's control word. -/
def Ring.log2 (r : Ring) : Nat := r.ctl.toNat % 16
/-- A ring that is enabled. -/
def Ring.enabled (r : Ring) : Bool := r.ctl.getLsbD 7 && decide (4 ≤ r.log2)
/-- Records between its indices. -/
def Ring.fill (r : Ring) : Nat := (r.pidx - r.cidx).toNat
/-- PHASE of record i. -/
def Ring.phase (r : Ring) (i : Nat) : Nat := 1 - i / 2 ^ r.log2 % 2
/-- Bytes of a record of a ring (R380, R381). -/
def recordSize (ring : Nat) : Nat := if ring < 2 then 128 else 64
/-- Place in host memory of record i of a ring. -/
def Ring.place (r : Ring) (ring i : Nat) : Nat := hostBase + (r.base.toNat + recordSize ring * (i % 2 ^ r.log2)) % hostBase

/-- A record's bytes with PHASE, and its index where it carries no TAG. -/
def HostRec.fillIn (x : HostRec) (phase i : Nat) : List Byte :=
  let head := (x.bytes.headD 0 &&& 0xFE#8) ||| BitVec.ofNat 8 phase
  if x.tagged then head :: x.bytes.drop 1
  else head :: ((x.bytes.drop 1).take 3 ++ bytesOf i 4 ++ x.bytes.drop 8)

/-- What the writing of a record brings about (R267, R379). -/
def State.follow (st : State) (a : After) : State :=
  match a with
  | .nothing => st
  | .launch l => st.launchWritten l
  | .kill g => st.finishKill g

/-- An MSI-X message of a ring is sent, or is due at the end of the microsecond in which the last one went out (R379). -/
def Ring.signal (r : Ring) (now : Nat) : Ring :=
  match r.lastMsi with
  | none => { r with lastMsi := some now, sent := r.sent + 1 }
  | some t => if t + 1000 ≤ now ∧ !r.due then { r with lastMsi := some now, sent := r.sent + 1 } else { r with due := true }

/-- RING_RECORD_WRITE (R379, R380): the oldest waiting record of a ring is written once its slot is free. -/
def execRingRecordWrite (ring : Nat) (st : State) : Host.Outcome State Fault Refusal :=
  let r := st.host.ring ring
  match r.waiting with
  | [] => .next st
  | x :: rest =>
    if 3 ≤ ring ∨ !r.enabled ∨ 2 ^ r.log2 ≤ r.fill then .next st
    else
      let i := r.pidx.toNat
      let st := st.writeHome (r.place ring i) (x.fillIn (r.phase i) i) false
      let st := st.onRing ring fun r => ({ r with waiting := rest, pidx := r.pidx + 1 } : Ring).signal st.clock
      .next (st.follow x.after)

/-- MSIX_DEFERRED_SEND (R379). -/
def execMsixDeferredSend (ring : Nat) (st : State) : Host.Outcome State Fault Refusal :=
  let r := st.host.ring ring
  let passed : Bool := match r.lastMsi with
    | some t => decide (t + 1000 ≤ st.clock)
    | none => true
  if r.due && passed then .next (st.onRing ring fun r => { r with lastMsi := some st.clock, sent := r.sent + 1, due := false })
  else .next st

/-! ### The command ring (R381) -/

/-- The next command record, where one is to be taken: the ring is enabled and not empty, and every completion record is written (R379) (log 44). -/
def State.nextCommand (st : State) : Option Nat :=
  let r := st.host.ring 3
  if r.enabled && r.fill != 0 && (st.host.ring 2).waiting.isEmpty then some (st.homeNum (r.place 3 r.cidx.toNat) 64) else none

/-- Operand words of a record from byte 8. -/
def operandsOf (record n : Nat) : List Nat := (List.range n).map fun i => record / 2 ^ (64 * (i + 1)) % 2 ^ 64

/-- The record of a command whose unused bytes are 0. -/
def commandRecord (op : Nat) (operands : List Nat) : Nat := op + (operands.zipIdx 1).foldl (fun n e => n + e.1 % 2 ^ 64 * 2 ^ (64 * e.2)) 0

/-- Takes a command off its ring. -/
def State.takeCommand (st : State) : State := st.onRing 3 fun r => { r with cidx := r.cidx + 1 }

/-- Completion record of a command (R380). -/
def State.completeCommand (st : State) (status result : Nat) : State :=
  st.send 2 { tagged := false, bytes := recordBytes 64 [recordHeader 0x21 status 0, (16, result), (24, st.now)] }

/-- What a run of a command comes to. -/
inductive CommandEnd where
  /-- its effects are not all performed yet: it stays at the head of the ring -/
  | waits (st : State)
  /-- its completion record is due, with STATUS and result -/
  | ends (status result : Nat) (st : State)

/-- A command of the ring: the next record holds the opcode and the operand words. Nonzero unused bytes and high bits of narrow operands,
whose widths are given, are a bad operand. -/
def State.command (st : State) (op : Nat) (operands : List (BitVec 64 × Nat)) (run : State → CommandEnd) : Host.Outcome State Fault Refusal :=
  match st.nextCommand with
  | none => .next st
  | some record =>
    let words := operands.map fun o => o.1.toNat
    if record % 256 ≠ op ∨ operandsOf record operands.length ≠ words then .next st
    else if record ≠ commandRecord op words ∨ operands.any (fun o => decide (2 ^ o.2 ≤ o.1.toNat)) then
      .next (st.takeCommand.completeCommand 0x81 0)
    else match run st with
      | .waits s => .next s
      | .ends status result s => .next (s.takeCommand.completeCommand status result)

/-- The instruction that the next command record calls for. -/
def State.commandInstr (st : State) : Option Instr := st.nextCommand.map decodeCommand

end Sys2Proof.Machine
end

