-- ==== Sys2Proof/Machine/Command.lean ====
section
/-! DEFINITION. Management commands (R381), and the report of R392. -/

namespace Sys2Proof.Machine

/-- Done, with a result. -/
def doneWith (result : Nat) (st : State) : CommandEnd := .ends 0 result st
/-- Refused, nothing changed (log 36). -/
def refused (st : State) (result : Nat := 0) : CommandEnd := .ends 0x80 result st
/-- Bad operand (log 37). -/
def badOperand (st : State) : CommandEnd := .ends 0x81 0 st

/-- SETCTXT: a physical address has 57 bits (R315). -/
def execSetctxt (pa : BitVec 64) (st : State) : Host.Outcome State Fault Refusal :=
  st.command 1 [(pa, 57)] fun st =>
    if pa.toNat % 64 ≠ 0 then badOperand st else doneWith 0 { st with host := { st.host with ctxTable := pa.toNat } }

/-- SETQT. -/
def execSetqt (pa : BitVec 64) (st : State) : Host.Outcome State Fault Refusal :=
  st.command 2 [(pa, 57)] fun st =>
    if pa.toNat % 64 ≠ 0 then badOperand st else doneWith 0 { st with host := { st.host with queueTable := pa.toNat } }

/-- What a mapping comes to: all ones is a refusal (R342). -/
def mapEnd (r : State × Lane) : CommandEnd := if r.2 = BitVec.allOnes 64 then refused r.1 r.2.toNat else doneWith r.2.toNat r.1

/-- MAP: as MAPPG of kinds 1 to 3 (R342). At a pinned line it retries (R356). -/
def execMap (ctx va attr kind : BitVec 64) (st : State) : Host.Outcome State Fault Refusal :=
  st.command 3 [(ctx, 8), (va, 64), (attr, 64), (kind, 3)] fun st =>
    let k := kind.toNat
    let c := ctx.toNat
    if k < 1 ∨ 3 < k then badOperand st
    else if st.contextHeld c || st.mapHeld none c (st.contextRoot c) (st.contextPool c) va.toNat k then .waits st
    else mapEnd (st.mapPage c (st.contextRoot c) (st.contextPool c) va.toNat k attr.toNat)

/-- UNMAP: as MAPPG of kind 4 (R342). It waits for the copies that translated in the page (R341), and at a pinned line (R356). -/
def execUnmap (ctx va : BitVec 64) (st : State) : Host.Outcome State Fault Refusal :=
  st.command 4 [(ctx, 8), (va, 64)] fun st =>
    let c := ctx.toNat
    if st.contextHeld c || st.mapHeld none c (st.contextRoot c) (st.contextPool c) va.toNat 4 then .waits st
    else mapEnd (st.mapPage c (st.contextRoot c) (st.contextPool c) va.toNat 4 0)

/-- INVAL: as TLBINV (R341). -/
def execInval (kind ctx va len : BitVec 64) (st : State) : Host.Outcome State Fault Refusal :=
  st.command 5 [(kind, 2), (ctx, 8), (va, 64), (len, 64)] fun st =>
    let k := kind.toNat
    if 2 < k ∨ (k = 0 ∧ (va.toNat % 4096 ≠ 0 ∨ len.toNat % 4096 ≠ 0)) then badOperand st
    else
      let c : Covers := { ctx := if k = 2 then none else some ctx.toNat, range := if k = 0 then some (va.toNat, len.toNat) else none }
      if st.copiesWithin c || st.writesHeld c then .waits st else doneWith 0 (st.invalidate c)

/-- A write issued before this moment that is not performed yet, outside the L1 caches. -/
def Group.writesOut (g : Group) : Bool := g.flight.any fun o => !o.finished && (o.work.stores || (match o.work with
  | .enq .. => true
  | .copy .. => true
  | .qst .. => true
  | .discard _ => true
  | _ => false))

/-- ICINV (R363): after every earlier write is performed at device scope, every L1 instruction cache is invalidated. -/
def execIcinv (st : State) : Host.Outcome State Fault Refusal :=
  st.command 6 [] fun st =>
    let cores := NMap.keys st.cores
    if st.groups.any (fun e => e.2.writesOut) || !cores.all st.canDrain || !st.host.posted.isEmpty then .waits st
    else
      let st := cores.foldl State.drainAll st
      doneWith 0 { st with cores := st.cores.map fun (e : Nat × Core) => (e.1, { e.2 with icache := [], icodes := [] }) }

/-- The record that carries a TAG has still to be written: the group stays PARKED or STOPPED until it is (R379). -/
def State.tagUnwritten (st : State) (tag : Nat) : Bool :=
  [0, 1].any fun n => (st.host.ring n).waiting.any fun r => r.tagged && numOf ((r.bytes.drop 4).take 4) == tag

/-- The group and slot that wait under a TAG that the host has been given, if their gang is not being killed (R379, R380). -/
def State.waiting (st : State) (tag : Nat) : Option (Nat × Group × Option Source) :=
  if st.tagUnwritten tag then none else
  match st.host.tags.find? fun t => t.1 == tag with
  | none => none
  | some (_, gid, slot) => match st.group? gid with
    | none => none
    | some g => if (st.gang (st.team g.team).gang).kill.isSome then none else some (gid, g, slot)

/-- Forgets a TAG that has been answered. -/
def State.dropTag (st : State) (tag : Nat) : State :=
  { st with host := { st.host with tags := st.host.tags.filter fun t => t.1 != tag } }

/-- A gang that was killed is reported (R267): it is gone, or waits to be placed again, and its record is in the ring. -/
def State.reported (st : State) (gang : Nat) : Bool :=
  ((st.gang gang).kill.isNone || (st.gang gang).killed) && !(st.host.ring 1).waiting.any fun r => r.after == .kill gang

/-- A command that kills gangs: its first run dooms them; it ends with the one that finds them killed and reported (R381). -/
def State.killAll (st : State) (gangs : List Nat) (doom : State → State) : CommandEnd :=
  match st.host.killing with
  | none => .waits (let s := doom st; { s with host := { s.host with killing := some gangs } })
  | some gs => if gs.all st.reported then doneWith 0 { st with host := { st.host with killing := none } } else .waits st

/-- RESUME (R175): action 0 resumes a stopped group as FRET #0, action 2 kills its gang. -/
def execResume (tag action : BitVec 64) (st : State) : Host.Outcome State Fault Refusal :=
  st.command 7 [(tag, 32), (action, 2)] fun st =>
    if action ≠ 0 ∧ action ≠ 2 then badOperand st
    else if st.host.killing.isSome then st.killAll [] id
    else match st.waiting tag.toNat with
      | some (gid, g, none) =>
        let st := st.dropTag tag.toNat
        if action = 2 then st.killAll [(st.team g.team).gang] fun st =>
          (st.onGroup gid fun g => { g with tag := none }).doom (st.team g.team).gang { cause := g.trap.cause.toNat % 256, group := some gid }
        else doneWith 0 (
          if badTarget g.trap.resume then st.doubleFault gid 0x0E 0
          else if g.life = .saved then st.onGroup gid fun g => { g with resumed := true, tag := none }
          else st.resumeGroup gid)
      | _ => refused st

/-- A killed gang that waits to be placed again is reported instead (R266, R267). -/
def State.reportDead (st : State) (gang : Nat) : State :=
  (st.killRecord gang { cause := 0x33, group := none } false).onGang gang fun g => { g with again := none }

/-- KILL takes a gang: one that is to be killed and would be placed again, or was and will be, is reported instead (log 37). -/
def State.killGang (st : State) (gang : Nat) : State :=
  let g := st.gang gang
  let k : Kill := { cause := 0x33, group := none }
  if g.killed then (if g.again.isSome then st.reportDead gang else st)
  else match g.kill with
    | none => st.doom gang k
    | some old => if st.relaunches gang old then st.onGang gang fun g => { g with kill := some k } else st

/-- KILL (R266): the gangs of a task's launches, of one cluster or of all. -/
def execKill (task cluster : BitVec 64) (st : State) : Host.Outcome State Fault Refusal :=
  st.command 8 [(task, 32), (cluster, 64)] fun st =>
    if cluster ≠ BitVec.allOnes 64 ∧ 2 ^ 32 ≤ cluster.toNat then badOperand st
    else if st.host.killing.isSome then st.killAll [] id
    else
      let named := st.gangs.filter fun e => (NMap.get st.launches {} e.2.launch).task == task.toNat &&
        (cluster == BitVec.allOnes 64 || e.2.cluster == cluster.toNat)
      if named.isEmpty then refused st
      else st.killAll (NMap.keys named) fun st => (NMap.keys named).foldl State.killGang st

/-- Delivers a system call's result to the parked slot's lanes, and the group goes on (R162). -/
def State.deliver (st : State) (gid : Nat) (g : Group) (src : Source) (v : Lane) : State :=
  let st := match frameReg g.frames (g.frameSize - 8) with
    | some r => st.onCore g.core fun k => k.writeAll ((g.physLanes src).map fun l => ({ cell := 32 * r + l, bits := BitVec.allOnes 64, value := v } : CellWrite))
    | none => st.spilledResult g src v
  let st := st.onGroup gid fun g => { g.setSlot src { g.slot src with life := .ready } with life := .live, tag := none }
  ((st.readStacks gid).rejoin gid).pops gid

/-- SYSRET (R162): a group that has been pre-empted receives the result after its restore. While granules of a restored group are on their way
into the file the command waits. -/
def execSysret (tag result : BitVec 64) (st : State) : Host.Outcome State Fault Refusal :=
  st.command 9 [(tag, 32), (result, 64)] fun st =>
    match st.waiting tag.toNat with
    | some (gid, g, some src) =>
      if g.life = .saved then doneWith 0 ((st.dropTag tag.toNat).onGroup gid fun g => { g with sysret := some result, tag := none })
      else if (st.core g.core).requests.any fun r => r.gid == gid then .waits st
      else doneWith 0 ((st.dropTag tag.toNat).deliver gid g src result)
    | _ => refused st

/-! ### DIEON -/

/-- Queues that another die serves again are unmapped where they were; PENDING relists them (R278, R337). -/
def State.rehome (st : State) : State :=
  [0, 1, 2, 3].foldl (fun (s : State) (d : Nat) =>
    let stray := (s.die d).slots.filter fun x => s.servingDie (s.queueDie x.queue) != d
    stray.foldl (fun (s : State) (x : QSlot) =>
      let s := (s.onDie d fun k => { k with slots := k.slots.filter fun y => y.queue != x.queue }).setMapped x.queue false
      if x.seen.isSome then s.setPending x.queue else s) s) st

/-- Cores, slices, plots and Irend ports of a die as at a cold start (R388, R391). -/
def State.freshDie (st : State) (die : Nat) : State :=
  { st with
    cores := NMap.keep st.cores fun c _ => dieOf c != die
    slices := NMap.keep st.slices fun s _ => s / 80 != die
    plots := NMap.keep st.plots fun p _ => p / 40 != die
    irend := NMap.keep st.irend fun p _ => p / 3 != die }

/-- A die is back: the lines whose home this moves take places at their new homes (R316, R337). -/
def State.homesBack (st before : State) : State :=
  st.rehash (fun l => before.homeSlice (128 * l) != st.homeSlice (128 * l)) fun _ => false

/-- DIEON: cold-starts a die's cores and slices and returns it to service; primary homes apply again (R316), and the lasting verdicts of
its units apply (R394), those of L2 ways in the reservations that the lines make (log 38). -/
def execDieon (die : BitVec 64) (st : State) : Host.Outcome State Fault Refusal :=
  st.command 10 [(die, 2)] fun st =>
    let d := die.toNat
    if !(st.die d).offline then refused st
    else if st.teams.any fun e => dieOf e.2.core == d && (e.2.life == .live || e.2.life == .saving) then .waits st
    else
      let before := st
      let st := (st.onDie d fun k => { k with offline := false, thermal := false, failedRails := [] }).freshDie d
      let st := st.rehome.homesBack before
      let bad := (st.tests.filter fun t => t.lasting && unitDie t.unit == d && (match t.unit with
        | .l2Way _ _ _ => false
        | _ => true)).map fun (t : TestUnit) => t.unit
      doneWith 0 (bad.foldl State.applyVerdict st)

/-! ### ATTEST (R392) -/

/-- ATTEST: the report is made in the background; its completion record follows the report, and the next command does not wait for it (log 38). -/
def execAttest (nonce : BitVec 256) (addr : BitVec 64) (st : State) : Host.Outcome State Fault Refusal :=
  match st.nextCommand with
  | none => .next st
  | some record =>
    if record % 256 ≠ 11 ∨ record / 2 ^ 64 % 2 ^ 256 ≠ nonce.toNat ∨ record / 2 ^ 320 % 2 ^ 64 ≠ addr.toNat then .next st
    else if record ≠ 11 + nonce.toNat * 2 ^ 64 + addr.toNat * 2 ^ 320 then .next (st.takeCommand.completeCommand 0x81 0)
    else if st.host.attest.isSome then .next st
    else .next { st.takeCommand with host := { st.takeCommand.host with attest := some (nonce, addr) } }

/-- The first 144 bytes of a report. -/
def State.report (st : State) (nonce : BitVec 256) : List Byte :=
  bytesOf nonce.toNat 32 ++ bytesOf Config.firmwareDigest.toNat 32 ++ bytesOf Config.bitstreamDigest.toNat 32 ++
  bytesOf Config.fuseDigest.toNat 32 ++ bytesOf st.now 8 ++ bytesOf (st.host.pkgId.toNat + if st.warm then 2 ^ 16 else 0) 8

/-- ATTEST_REPORT (R392): 144 bytes and their signature are written to host memory. -/
def execAttestReport (st : State) : Host.Outcome State Fault Refusal :=
  match st.host.attest with
  | none => .next st
  | some (nonce, addr) =>
    let r := st.report nonce
    let bytes := r ++ (List.range 7856).map (Config.signatureByte r)
    let st := st.writeHome (hostBase + addr.toNat % hostBase) bytes false
    .next (State.completeCommand { st with host := { st.host with attest := none } } 0 0)

/-! ### TIMESET and bad opcodes -/

/-- TIMESET (R390): steps the time base forward; an earlier value is a bad operand. -/
def execTimeset (time : BitVec 64) (st : State) : Host.Outcome State Fault Refusal :=
  st.command 12 [(time, 64)] fun st =>
    if time.toNat < st.now then badOperand st else doneWith 0 (State.noteEligible { st with time := time })

/-- COMMAND_BAD_OPCODE: STATUS 0x81. -/
def execCommandBadOpcode (op : Byte) (st : State) : Host.Outcome State Fault Refusal :=
  match st.nextCommand with
  | none => .next st
  | some record =>
    if record % 256 = op.toNat ∧ (op = 0 ∨ 12 < op.toNat) then .next (st.takeCommand.completeCommand 0x81 0) else .next st

end Sys2Proof.Machine
end

