-- ==== Sys2Proof/Machine/Flags.lean ====
section
/-! DEFINITION. The predicates, which are this machine's only flags: integer and float arithmetic set none (R13, R15). A
result is written to every bit of its sub-element's bytes, and nothing else changes (R11, R110). -/

namespace Sys2Proof.Machine

/-- Predicate bits of the bytes of sub-element s of width w. -/
def predBits (w s : Nat) : Byte := BitVec.ofNat 8 ((2 ^ (w / 8) - 1) * 2 ^ (w / 8 * s))

/-- A write to part of a predicate byte of a lane of the file. -/
structure PredWrite where
  phys : Nat
  mask : Byte
  value : Byte
  deriving DecidableEq, Repr

/-- Writes of predicate q in order; those to p0 vanish (R35). -/
def Group.writePreds (g : Group) (q : Nat) (ws : List PredWrite) : Group := ws.foldl (fun g w => g.setPred q w.phys w.mask w.value) g

/-- The write of a condition per active sub-element (R110). -/
def Env.condWrites (e : Env) (p : Option Nat) (w : Nat) (f : Nat → Nat → Nat → Bool) : List PredWrite :=
  e.cells.map fun (k, l) =>
    let ss := e.subs p w k l
    { phys := e.phys k l
      mask := ss.foldl (fun m s => m ||| predBits w s) 0
      value := ss.foldl (fun m s => if f k l s then m ||| predBits w s else m) 0 }

/-- A short-latency instruction that writes a predicate. -/
def State.computePred (st : State) (i : Instr) (f : Form) (q : Nat) (reads : Env → List Read) (writes : Env → List PredWrite) :
    Host.Outcome State Fault Refusal :=
  st.issue f (infoWord i) fun e st =>
    match e.poisonTrap (reads e) with
    | some t => .trap t none
    | none => .next (st.onGroup e.gid fun g => g.writePreds q (writes e))

end Sys2Proof.Machine
end

