-- ==== Sys2Proof/Machine/IntAlu.lean ====
section
/-! DEFINITION. Integer and address arithmetic (R104 to R106), and MAD (R115). -/

namespace Sys2Proof.Machine

/-- The stored value of an exact result (R105). -/
def storeInt (t : Nat) (sat : Bool) (z : Int) : Nat := lowBits (widthOf t) (if sat then clampInt t z else z)

/-- d := op (a, b) per sub-element (R105, minors 0 to 2). -/
def intAB (i : Instr) (t d a b p : Nat) (takesSat : Bool) (op : Int → Int → Int) (st : State) : Host.Outcome State Fault Refusal :=
  let w := widthOf t
  st.compute i (formAB p d a b { sat := takesSat })
    (fun e => e.subReads a (some p) w ++ e.bReads b (some p) w)
    (fun e => e.subWrites d (some p) w fun k l s =>
      storeInt t e.hints.sat (op (intOf t (subOf w s (e.val k a l))) (intOf t (e.bSub b w k l s))))

/-- d := op (d, a) per sub-element (R105, minor 3); NEG and ABS read only a. -/
def intDA (i : Instr) (t d a p : Nat) (takesSat readsD : Bool) (op : Int → Int → Int) (st : State) : Host.Outcome State Fault Refusal :=
  let w := widthOf t
  st.compute i (formA p d a { sat := takesSat })
    (fun e => e.subReads a (some p) w ++ if readsD then e.subReads d (some p) w else [])
    (fun e => e.subWrites d (some p) w fun k l s =>
      storeInt t e.hints.sat (op (intOf t (subOf w s (e.val k d l))) (intOf t (subOf w s (e.val k a l)))))

/-- The stored value of an exact result of a widening form, which never wraps (R13, R106). A negative result of an N type, which SUBW alone
can have, is a value that the spec does not give: it is free (log 57). -/
def wideInt (t x y : Nat) (z : Int) : Nat :=
  if minOf t = 0 ∧ z < 0 then Config.subwBelow (widthOf t) x y % 2 ^ (2 * widthOf t) else lowBits (2 * widthOf t) z

/-- Pair d, d+1 := op (d, a) at twice the width (R106). -/
def intWide (i : Instr) (t d a p : Nat) (op : Int → Int → Int) (st : State) : Host.Outcome State Fault Refusal :=
  let w := widthOf t
  st.compute i { (formA p d a { sat := true }) with regs := [d, d + 1, a] }
    (fun e => e.subReads a (some p) w ++ e.subReads d (some p) w)
    (fun e => e.cells.flatMap fun (k, l) =>
      let ss := e.subs (some p) w k l
      let x := ss.foldl (fun n s =>
        let x := subOf w s (e.val k d l)
        let y := subOf w s (e.val k a l)
        n + wideInt t x y (op (intOf t x) (intOf t y)) * 2 ^ (2 * w * s)) 0
      let m := ss.foldl (fun n s => n + (2 ^ (2 * w) - 1) * 2 ^ (2 * w * s)) 0
      [{ cell := e.cellOf k d l, bits := BitVec.ofNat 64 m, value := BitVec.ofNat 64 x },
       { cell := e.cellOf k (d + 1) l, bits := BitVec.ofNat 64 (m / 2 ^ 64), value := BitVec.ofNat 64 (x / 2 ^ 64) }].filter
        fun (c : CellWrite) => c.bits != 0)

/-- ADD.T (R104). -/
def execIaluAdd (t : BitVec 3) (d a b : BitVec 6) (p : BitVec 3) (st : State) : Host.Outcome State Fault Refusal :=
  intAB (.ialuAdd t d a b p) t.toNat d.toNat a.toNat b.toNat p.toNat true (· + ·) st

/-- SUB.T (R104). -/
def execIaluSub (t : BitVec 3) (d a b : BitVec 6) (p : BitVec 3) (st : State) : Host.Outcome State Fault Refusal :=
  intAB (.ialuSub t d a b p) t.toNat d.toNat a.toNat b.toNat p.toNat true (· - ·) st

/-- MUL.T (R104). -/
def execIaluMul (t : BitVec 3) (d a b : BitVec 6) (p : BitVec 3) (st : State) : Host.Outcome State Fault Refusal :=
  intAB (.ialuMul t d a b p) t.toNat d.toNat a.toNat b.toNat p.toNat false (· * ·) st

/-- MIN.T (R104). -/
def execIaluMin (t : BitVec 3) (d a : BitVec 6) (p : BitVec 3) (st : State) : Host.Outcome State Fault Refusal :=
  intDA (.ialuMin t d a p) t.toNat d.toNat a.toNat p.toNat false true min st

/-- MAX.T (R104). -/
def execIaluMax (t : BitVec 3) (d a : BitVec 6) (p : BitVec 3) (st : State) : Host.Outcome State Fault Refusal :=
  intDA (.ialuMax t d a p) t.toNat d.toNat a.toNat p.toNat false true max st

/-- NEG.T (R104, R105). -/
def execIaluNeg (t : BitVec 3) (d a : BitVec 6) (p : BitVec 3) (st : State) : Host.Outcome State Fault Refusal :=
  intDA (.ialuNeg t d a p) t.toNat d.toNat a.toNat p.toNat true false (fun _ x => -x) st

/-- ABS.T (R104, R105). -/
def execIaluAbs (t : BitVec 3) (d a : BitVec 6) (p : BitVec 3) (st : State) : Host.Outcome State Fault Refusal :=
  intDA (.ialuAbs t d a p) t.toNat d.toNat a.toNat p.toNat true false (fun _ x => x.natAbs) st

/-- ABSDIFF.T (R104, R105). -/
def execAbsdiff (t : BitVec 3) (d a : BitVec 6) (p : BitVec 3) (st : State) : Host.Outcome State Fault Refusal :=
  intDA (.absdiff t d a p) t.toNat d.toNat a.toNat p.toNat false true (fun x y => (x - y).natAbs) st

/-- AVG.T (R104, R105). -/
def execAvg (t : BitVec 3) (d a : BitVec 6) (p : BitVec 3) (st : State) : Host.Outcome State Fault Refusal :=
  intDA (.avg t d a p) t.toNat d.toNat a.toNat p.toNat false true (fun x y => (x + y + 1) / 2) st

/-- MULHI.T (R104, R105). -/
def execMulhi (t : BitVec 3) (d a : BitVec 6) (p : BitVec 3) (st : State) : Host.Outcome State Fault Refusal :=
  intDA (.mulhi t d a p) t.toNat d.toNat a.toNat p.toNat false true (fun x y => x * y / (2 ^ widthOf t.toNat : Nat)) st

/-- MULW.T (R106). -/
def execMulw (t : BitVec 3) (d a : BitVec 6) (p : BitVec 3) (st : State) : Host.Outcome State Fault Refusal :=
  intWide (.mulw t d a p) t.toNat d.toNat a.toNat p.toNat (· * ·) st

/-- ADDW.T (R106). -/
def execAddw (t : BitVec 3) (d a : BitVec 6) (p : BitVec 3) (st : State) : Host.Outcome State Fault Refusal :=
  intWide (.addw t d a p) t.toNat d.toNat a.toNat p.toNat (· + ·) st

/-- SUBW.T (R106). -/
def execSubw (t : BitVec 3) (d a : BitVec 6) (p : BitVec 3) (st : State) : Host.Outcome State Fault Refusal :=
  intWide (.subw t d a p) t.toNat d.toNat a.toNat p.toNat (· - ·) st

/-- The immediate of a format I form: imm11 sign-extended, or the wide immediate (R69). -/
def Env.imm11 (e : Env) (i : BitVec 11) : Lane :=
  match e.hints.imm with
  | some n => BitVec.ofNat 64 n
  | none => i.signExtend 64

/-- ADD.T with an immediate (R105). -/
def execIaluiAdd (t : BitVec 3) (d a : BitVec 6) (i : BitVec 11) (st : State) : Host.Outcome State Fault Refusal :=
  let w := widthOf t.toNat
  st.compute (.ialuiAdd t d a i) { accepts := { imm := true, sat := true }, regs := [d.toNat, a.toNat], imm11 := i.toNat }
    (fun e => e.subReads a.toNat none w)
    (fun e => e.subWrites d.toNat none w fun k l s =>
      storeInt t.toNat e.hints.sat (intOf t.toNat (subOf w s (e.val k a.toNat l)) + intOf t.toNat ((e.imm11 i).toNat % 2 ^ w)))

/-- MOV.B64 of an immediate (R105). -/
def execMovImm (d : BitVec 6) (i : BitVec 11) (st : State) : Host.Outcome State Fault Refusal :=
  st.compute (.movImm d i) { accepts := { imm := true }, regs := [d.toNat], imm11 := i.toNat }
    (fun _ => []) (fun e => e.laneWrites d.toNat none fun _ _ => e.imm11 i)

/-- MAD.T (R105, R115). -/
def execMad (t : BitVec 3) (d a b : BitVec 6) (p : BitVec 3) (st : State) : Host.Outcome State Fault Refusal :=
  let w := widthOf t.toNat
  st.compute (.mad t d a b p) (formAB p.toNat d.toNat a.toNat b.toNat { sat := true })
    (fun e => e.subReads a.toNat (some p.toNat) w ++ e.bReads b.toNat (some p.toNat) w ++ e.subReads d.toNat (some p.toNat) w)
    (fun e => e.subWrites d.toNat (some p.toNat) w fun k l s =>
      storeInt t.toNat e.hints.sat (intOf t.toNat (subOf w s (e.val k a.toNat l)) * intOf t.toNat (e.bSub b.toNat w k l s) +
        intOf t.toNat (subOf w s (e.val k d.toNat l))))

end Sys2Proof.Machine
end

