-- ==== Sys2Proof/Machine/Compare.lean ====
section
/-! DEFINITION. Compares, selection and predicate logic (R110 to R113). -/

namespace Sys2Proof.Machine

/-- The condition of a code; code 7 is no instruction. -/
def condOf (c : Nat) : Cond := (condOfCode c).getD .eq

/-- CMP.cc.T (R110). -/
def execCmp (t : BitVec 4) (c q : BitVec 3) (a b : BitVec 6) (p : BitVec 3) (st : State) : Host.Outcome State Fault Refusal :=
  let w := widthOf t.toNat
  st.computePred (.cmp t c q a b p)
    { accepts := { neg := true, imm := true }, guard := some p.toNat, regs := [a.toNat], b := some b.toNat } q.toNat
    (fun e => e.subReads a.toNat (some p.toNat) w ++ e.bReads b.toNat (some p.toNat) w)
    (fun e => e.condWrites (some p.toNat) w fun k l s =>
      compareSub t.toNat (condOf c.toNat) (subOf w s (e.val k a.toNat l)) (e.bSub b.toNat w k l s))

/-- CMP.cc.T with an immediate (R110). -/
def execCmpi (t : BitVec 4) (c q : BitVec 3) (a : BitVec 6) (i : BitVec 11) (st : State) : Host.Outcome State Fault Refusal :=
  let w := widthOf t.toNat
  st.computePred (.cmpi t c q a i) { accepts := { imm := true }, regs := [a.toNat], imm11 := i.toNat } q.toNat
    (fun e => e.subReads a.toNat none w)
    (fun e => e.condWrites none w fun k l s =>
      compareSub t.toNat (condOf c.toNat) (subOf w s (e.val k a.toNat l)) ((e.imm11 i).toNat % 2 ^ w))

/-- SEL takes a where the selector's bit for the sub-element's lowest byte is set, NEG inverting it (R111). -/
def Env.selects (e : Env) (p w k l s : Nat) : Bool := (e.guard p k l).getLsbD (w / 8 * s)

/-- SEL.T (R111). -/
def execSel (t : BitVec 4) (d a b : BitVec 6) (p : BitVec 3) (st : State) : Host.Outcome State Fault Refusal :=
  let w := widthOf t.toNat
  let chosen (e : Env) (r : Nat) (first : Bool) : List Read :=
    e.cells.filterMap fun (k, l) =>
      let h := ((List.range (64 / w)).filter fun s => e.selects p.toNat w k l s == first).foldl (fun h s => h ||| halfOf w s) 0#2
      if h = 0 then none else some { reg := r, lane := l, phys := e.phys k l, halves := h }
  st.compute (.sel t d a b p)
    { accepts := { neg := true, imm := true }, regs := [d.toNat, a.toNat], b := some b.toNat }
    (fun e => chosen e a.toNat true ++ if e.hints.imm.isSome then [] else chosen e b.toNat false)
    (fun e => e.subWrites d.toNat none w fun k l s =>
      if e.selects p.toNat w k l s then subOf w s (e.val k a.toNat l) else e.bSub b.toNat w k l s)

/-- A truth table over two predicate bytes (R112). -/
def plopByte (t : Nat) (a b : Byte) : Byte :=
  (if t.testBit 0 then ~~~a &&& ~~~b else 0) ||| (if t.testBit 1 then ~~~a &&& b else 0) |||
  (if t.testBit 2 then a &&& ~~~b else 0) ||| (if t.testBit 3 then a &&& b else 0)

/-- PLOP (R112). -/
def execPlop (t : BitVec 4) (d a b p : BitVec 3) (st : State) : Host.Outcome State Fault Refusal :=
  st.computePred (.plop t d a b p) { accepts := { neg := true }, guard := some p.toNat } d.toNat (fun _ => [])
    (fun e => e.cells.map fun (k, l) =>
      { phys := e.phys k l, mask := e.guard p.toNat k l,
        value := plopByte t.toNat (e.g.pred a.toNat (e.phys k l)) (e.g.pred b.toNat (e.phys k l)) })

/-- TEST.T (R113): type field 0 to 6 stands for the codes 8 to 14. -/
def execTest (t q : BitVec 3) (a m : BitVec 6) (p : BitVec 3) (st : State) : Host.Outcome State Fault Refusal :=
  let ty := 8 + t.toNat
  let w := widthOf ty
  st.computePred (.test t q a m p) { accepts := { neg := true }, guard := some p.toNat, regs := [a.toNat] } q.toNat
    (fun e => e.subReads a.toNat (some p.toNat) w)
    (fun e => e.condWrites (some p.toNat) w fun k l s => classMatches ty m.toNat (subOf w s (e.val k a.toNat l)))

end Sys2Proof.Machine
end

