-- ==== Sys2Proof/Machine/Cross.lean ====
section
/-! DEFINITION. The cross-lane instructions (R118 to R123) and the random generator (R128 to R130). Lanes are visible lanes,
16 in protected launch mode (R103). -/

namespace Sys2Proof.Machine

/-- The modes of ROUTE (R119). -/
inductive RouteMode where
  | pick
  | slide
  | rot
  | flip
  deriving DecidableEq, Repr

/-- Source element of element x of n, k to a lane, with count c of width w (R119); an immediate of PICK is a lane. -/
def routeFrom (m : RouteMode) (n k w x c : Nat) (imm : Bool) : Nat :=
  match m with
  | .pick => if imm then k * (c % (n / k)) + x % k else c % n
  | .slide =>
    let j : Int := x + signedOf w c
    if j < 0 ∨ (n : Int) ≤ j then x else j.toNat
  | .rot => (x + c) % n
  | .flip => Nat.xor x (c % n)

/-- ROUTE.m.T (R118, R119): a source half is read by the active lane that uses it. A source element is taken from its lane whether that lane
is in the slot or not, as R118 says of every source; R85's remark that ROUTE combines only the lanes of its slot is read of the lanes that
receive (the model's reading where the two differ, log 59). -/
def route (i : Instr) (m : RouteMode) (t d a b p : Nat) (st : State) : Host.Outcome State Fault Refusal :=
  let w := widthOf t
  let n := 64 / w
  let from' (e : Env) (k l s : Nat) : Nat := routeFrom m (n * e.width) n w (n * l + s) (e.bSub b w k l s) e.hints.imm.isSome
  st.compute i (formAB p d a b {})
    (fun e => (e.cells.flatMap fun (k, l) => (e.subs (some p) w k l).map fun s =>
        let j := from' e k l s
        { reg := a, lane := l, phys := e.phys k (j / n), halves := halfOf w (j % n) }) ++ e.bReads b (some p) w)
    (fun e => e.subWrites d (some p) w fun k l s =>
      let j := from' e k l s
      subOf w (j % n) (e.val k a (j / n)))

/-- ROUTE.PICK (R119). -/
def execRoutePick (t : BitVec 4) (d a b : BitVec 6) (p : BitVec 3) (st : State) : Host.Outcome State Fault Refusal :=
  route (.routePick t d a b p) .pick t.toNat d.toNat a.toNat b.toNat p.toNat st
/-- ROUTE.SLIDE (R119). -/
def execRouteSlide (t : BitVec 4) (d a b : BitVec 6) (p : BitVec 3) (st : State) : Host.Outcome State Fault Refusal :=
  route (.routeSlide t d a b p) .slide t.toNat d.toNat a.toNat b.toNat p.toNat st
/-- ROUTE.ROT (R119). -/
def execRouteRot (t : BitVec 4) (d a b : BitVec 6) (p : BitVec 3) (st : State) : Host.Outcome State Fault Refusal :=
  route (.routeRot t d a b p) .rot t.toNat d.toNat a.toNat b.toNat p.toNat st
/-- ROUTE.FLIP (R119). -/
def execRouteFlip (t : BitVec 4) (d a b : BitVec 6) (p : BitVec 3) (st : State) : Host.Outcome State Fault Refusal :=
  route (.routeFlip t d a b p) .flip t.toNat d.toNat a.toNat b.toNat p.toNat st

/-- Reads of a cross-lane source: each active lane reads, in every active lane m that its result takes, the halves of its sub-elements that are
active there too (R118, R180). -/
def Env.crossReads (e : Env) (r p w : Nat) (takes : Nat → Nat → Bool) : List Read :=
  e.cells.flatMap fun (k, l) => (e.subs (some p) w k l).flatMap fun s =>
    (e.lanes.filter fun m => takes l m && (e.subs (some p) w k m).contains s).map fun m =>
      { reg := r, lane := l, phys := e.phys k m, halves := halfOf w s }

/-- Lanes of copy k active under guard bit 0. -/
def Env.activeCopy (e : Env) (p k : Nat) : List Nat := e.lanes.filter fun l => (e.guard p k l).getLsbD 0

/-- The result of VOTE over the contributed bits, given with their lanes (R120). -/
def voteResult (op : Nat) (bits : List (Nat × Bool)) : Lane :=
  let one (b : Bool) : Lane := if b then 1 else 0
  match op with
  | 0 => one (bits.all fun x => x.2)
  | 1 => one (bits.any fun x => x.2)
  | 2 => (maskOf ((bits.filter fun x => x.2).map fun x => x.1)).setWidth 64
  | _ => one (bits.all (fun x => x.2) || bits.all (fun x => !x.2))

/-- VOTE.op (R120). -/
def execVote (o : BitVec 2) (d : BitVec 6) (q p : BitVec 3) (st : State) : Host.Outcome State Fault Refusal :=
  st.compute (.vote o d q p) { accepts := { neg := true }, guard := some p.toNat, regs := [d.toNat] } (fun _ => [])
    (fun e => e.laneWrites d.toNat (some p.toNat) fun k _ =>
      voteResult o.toNat ((e.activeCopy p.toNat k).map fun m => (m, (e.g.pred q.toNat (e.phys k m)).getLsbD 0)))

/-- One combination of REDUCE and SCAN on codes (R121). -/
def combine (t op : Nat) (mode : Mode) (x y : Nat) : Nat :=
  let float := kindOf t = .ieee ∨ kindOf t = .tapered
  match op with
  | 0 => if float then roundVal t mode (Val.add mode (decodeVal t x) (decodeVal t y)) else (x + y) % 2 ^ widthOf t
  | 1 => if float then minMaxFloat t true x y else minMaxInt t true x y
  | 2 => if float then minMaxFloat t false x y else minMaxInt t false x y
  | 3 => Nat.land x y
  | 4 => Nat.lor x y
  | _ => Nat.xor x y

/-- One level of the tree: neighbours combined, an absent one leaving the other (R121). -/
def treeLevel (f : Nat → Nat → Nat) : List (Option Nat) → List (Option Nat)
  | x :: y :: rest =>
    (match x, y with
     | some a, some b => some (f a b)
     | some a, none => some a
     | none, b => b) :: treeLevel f rest
  | l => l

/-- The root of the tree over 2^levels lanes (R121). -/
def treeRoot (f : Nat → Nat → Nat) : Nat → List (Option Nat) → Option Nat
  | 0, l => l.headD none
  | n + 1, l => treeRoot f n (treeLevel f l)

/-- Value of a sub-element in each lane where it is active. -/
def Env.taking (e : Env) (p w a k s : Nat) : List (Option Nat) :=
  (List.range e.width).map fun l =>
    if (e.guard p k l).getLsbD (w / 8 * s) then some (subOf w s (e.val k a l)) else none

/-- Forms of REDUCE and SCAN accept a rounding hint for types 8 to 14 (R70, R121). -/
def redAccepts (t : Nat) : Accepts := { neg := true, re := kindOf t = .ieee || kindOf t = .tapered }

/-- REDUCE.op.T (R121). -/
def execReduce (t : BitVec 4) (d a : BitVec 6) (o p : BitVec 3) (st : State) : Host.Outcome State Fault Refusal :=
  let w := widthOf t.toNat
  st.compute (.reduce t d a o p)
    { accepts := redAccepts t.toNat, guard := some p.toNat, regs := [d.toNat, a.toNat] }
    (fun e => e.crossReads a.toNat p.toNat w fun _ _ => true)
    (fun e => e.subWrites d.toNat (some p.toNat) w fun k _ s =>
      (treeRoot (combine t.toNat o.toNat e.hints.mode) 5 (e.taking p.toNat w a.toNat k s)).getD 0)

/-- Identity of an exclusive SCAN (R122). -/
def scanIdentity (t op : Nat) : Nat :=
  let w := widthOf t
  match op with
  | 1 => match kindOf t with
    | .ieee => ((ieeeFmt t).infCode).getD 0
    | .tapered => 2 ^ (w - 1) - 1
    | _ => lowBits w (maxOf t)
  | 2 => match kindOf t with
    | .ieee => 2 ^ (w - 1) + ((ieeeFmt t).infCode).getD 0
    | .tapered => 2 ^ (w - 1) + 1
    | _ => lowBits w (minOf t)
  | 3 => 2 ^ w - 1
  | _ => 0

/-- Left fold over the lanes that take part (R122). -/
def scanFold (f : Nat → Nat → Nat) : List (Option Nat) → Option Nat :=
  fun l => l.foldl (fun acc x => match acc, x with
    | some a, some b => some (f a b)
    | none, b => b
    | a, none => a) none

/-- SCAN.op.T (R122). -/
def execScan (t : BitVec 4) (d a : BitVec 6) (x : BitVec 1) (o p : BitVec 3) (st : State) : Host.Outcome State Fault Refusal :=
  let w := widthOf t.toNat
  st.compute (.scan t d a x o p)
    { accepts := redAccepts t.toNat, guard := some p.toNat, regs := [d.toNat, a.toNat] }
    (fun e => e.crossReads a.toNat p.toNat w fun l m => decide (m < l) || (x = 0 && m == l))
    (fun e => e.subWrites d.toNat (some p.toNat) w fun k l s =>
      (scanFold (combine t.toNat o.toNat e.hints.mode)
        ((e.taking p.toNat w a.toNat k s).take (if x = 1 then l else l + 1))).getD (scanIdentity t.toNat o.toNat))

/-- MATCH.B64 (R123). -/
def execMatchB64 (d a : BitVec 6) (p : BitVec 3) (st : State) : Host.Outcome State Fault Refusal :=
  st.compute (.matchB64 d a p) (formA p.toNat d.toNat a.toNat {}) (fun e => e.crossReads a.toNat p.toNat 64 fun _ _ => true)
    (fun e => e.laneWrites d.toNat (some p.toNat) fun k l =>
      (maskOf ((e.activeCopy p.toNat k).filter fun m => e.val k a.toNat m == e.val k a.toNat l)).setWidth 64)

/-! ### The generator -/

/-- The output of gen for a key and an advanced counter (R128). -/
def genOut (key ctr : Lane) : Lane :=
  let z := key + ctr * 0x9E3779B97F4A7C15#64
  let z := (z ^^^ (z >>> 30)) * 0xBF58476D1CE4E5B9#64
  let z := (z ^^^ (z >>> 27)) * 0x94D049BB133111EB#64
  z ^^^ (z >>> 31)

/-- The draw that a lane of the file makes next. -/
def Group.draw (g : Group) (phys : Nat) : Lane := genOut (NMap.get g.keys 0 phys) (NMap.get g.ctrs 0 phys + 1)

/-- Advances the counters of lanes of the file. -/
def Group.advance (g : Group) (phys : List Nat) : Group :=
  { g with ctrs := phys.foldl (fun m l => NMap.store m 0 l (NMap.get m 0 l + 1)) g.ctrs }

/-- SEED (R129): a shadow takes its master's values (R128, R181). -/
def execSeed (a b : BitVec 6) (p : BitVec 3) (st : State) : Host.Outcome State Fault Refusal :=
  st.issue { runs := .program, accepts := { neg := true }, guard := some p.toNat, regs := [a.toNat, b.toNat] }
    (infoWord (.seed a b p)) fun e st =>
    let ls := e.active p.toNat
    match e.poisonTrap (e.reads a.toNat ls ++ e.reads b.toNat ls) with
    | some t => .trap t none
    | none => .next (st.onGroup e.gid fun g =>
      ls.foldl (fun g l => e.copies.foldl (fun g k =>
        { g with keys := NMap.store g.keys 0 (e.phys k l) (e.val 0 a.toNat l),
                 ctrs := NMap.store g.ctrs 0 (e.phys k l) (e.val 0 b.toNat l) }) g) g)

/-- The value that RAND writes for its share of a draw (R129). -/
def randValue (t z : Nat) : Nat :=
  match t with
  | 8 => roundVal 8 .rn (.fin false (z / 32) (2 ^ 11))
  | 10 => roundVal 10 .rn (.fin false (z / 256) (2 ^ 24))
  | _ => z

/-- RAND.T (R129). -/
def execRand (t : BitVec 4) (d : BitVec 6) (p : BitVec 3) (st : State) : Host.Outcome State Fault Refusal :=
  let w := widthOf t.toNat
  st.issue { runs := .program, accepts := { neg := true }, guard := some p.toNat, regs := [d.toNat] } (infoWord (.rand t d p))
    fun e st =>
      let drawn := (e.cells.filter fun (k, l) => !(e.subs (some p.toNat) w k l).isEmpty).map fun (k, l) => e.phys k l
      .next ((st.writeCells e.g.core (e.subWrites d.toNat (some p.toNat) w fun k l s =>
        randValue t.toNat (subOf w s (e.g.draw (e.phys k l))))).onGroup e.gid fun g => g.advance drawn)

/-- A weight as a multiple of 2^-149; none if it is negative, NaN or infinite (R130). The spec does not say whether -0 is a negative weight
(R113 puts it in the class `negative`): its value is 0, so it counts as 0 here (the model's choice, log 60). -/
def weightOf (t c : Nat) : Option Nat :=
  match decodeVal t c with
  | .fin neg n d => if neg && n != 0 then none else some (n * 2 ^ 149 / d)
  | _ => none

/-- The category of a draw: the first element whose prefix sum passes u x T (R130). -/
def pickCategory (u total : Nat) : Nat → List (Nat × Nat) → Option Nat
  | _, [] => none
  | sum, (x, v) :: rest => if (sum + v) * 2 ^ 24 > u * total then some x else pickCategory u total (sum + v) rest

/-- The category that copy k draws, from its own weights and its own generator in lane l0 (R130, R181); all ones where a weight is negative,
NaN or infinite, or the weights sum to 0. -/
def Env.category (e : Env) (ty p a l0 k : Nat) : Lane :=
  let w := widthOf ty
  let els := e.lanes.flatMap fun l => (e.subs (some p) w k l).map fun s => (64 / w * l + s, weightOf ty (subOf w s (e.val k a l)))
  let total := (els.map fun x => x.2.getD 0).sum
  if els.any (fun x => x.2.isNone) || total == 0 then BitVec.allOnes 64
  else match pickCategory ((e.g.draw (e.phys k l0)).toNat / 2 ^ 40) total 0 (els.map fun x => (x.1, x.2.getD 0)) with
    | some x => BitVec.ofNat 64 x
    | none => BitVec.allOnes 64

/-- CATSAMPLE.T (R130): type bit 0 is F16, 1 is F32. -/
def execCatsample (t : BitVec 1) (d a : BitVec 6) (p : BitVec 3) (st : State) : Host.Outcome State Fault Refusal :=
  let ty := if t = 1 then 10 else 8
  let w := widthOf ty
  st.issue { runs := .program, accepts := { neg := true }, guard := some p.toNat, regs := [d.toNat, a.toNat] }
    (infoWord (.catsample t d a p)) fun e st =>
    match e.poisonTrap ((e.active p.toNat).flatMap fun l =>
        (e.subReads a.toNat (some p.toNat) w).map fun r => { r with lane := l }) with
    | some t => .trap t none
    | none => match e.active p.toNat with
      | [] => .next st
      | l0 :: _ =>
        .next ((st.writeCells e.g.core (e.laneWrites d.toNat (some p.toNat) fun k _ => e.category ty p.toNat a.toNat l0 k)).onGroup e.gid fun g =>
          g.advance (e.copies.map fun k => e.phys k l0))

end Sys2Proof.Machine
end

