-- ==== Sys2Proof/Machine/FloatOps.lean ====
section
/-! DEFINITION. Float and tapered arithmetic (R114 to R116) and conversion (R117). A type field of 3 bits stands for the codes 8
to 14. -/

namespace Sys2Proof.Machine

/-- d := op (a, b) per sub-element, rounded once in the mode in force (R114). -/
def floatAB (i : Instr) (t d a b p : Nat) (op : Mode → Val → Val → Val) (st : State) : Host.Outcome State Fault Refusal :=
  let w := widthOf t
  st.compute i (formAB p d a b { re := true })
    (fun e => e.subReads a (some p) w ++ e.bReads b (some p) w)
    (fun e => e.subWrites d (some p) w fun k l s =>
      roundVal t e.hints.mode (op e.hints.mode (decodeVal t (subOf w s (e.val k a l))) (decodeVal t (e.bSub b w k l s))))

/-- d := f (d, a) on the codes per sub-element (R114, minor 3). -/
def floatDA (i : Instr) (t d a p : Nat) (readsD : Bool) (f : Mode → Nat → Nat → Nat) (st : State) : Host.Outcome State Fault Refusal :=
  let w := widthOf t
  st.compute i (formA p d a { re := true })
    (fun e => e.subReads a (some p) w ++ if readsD then e.subReads d (some p) w else [])
    (fun e => e.subWrites d (some p) w fun k l s => f e.hints.mode (subOf w s (e.val k d l)) (subOf w s (e.val k a l)))

/-- d := op (a, b, d) per sub-element, rounded once (R115). -/
def floatABD (i : Instr) (t d a b p : Nat) (op : Mode → Val → Val → Val → Val) (st : State) : Host.Outcome State Fault Refusal :=
  let w := widthOf t
  st.compute i (formAB p d a b { re := true })
    (fun e => e.subReads a (some p) w ++ e.bReads b (some p) w ++ e.subReads d (some p) w)
    (fun e => e.subWrites d (some p) w fun k l s =>
      roundVal t e.hints.mode (op e.hints.mode (decodeVal t (subOf w s (e.val k a l))) (decodeVal t (e.bSub b w k l s))
        (decodeVal t (subOf w s (e.val k d l)))))

/-- ADD.T (R114). -/
def execFaluAdd (t : BitVec 3) (d a b : BitVec 6) (p : BitVec 3) (st : State) : Host.Outcome State Fault Refusal :=
  floatAB (.faluAdd t d a b p) (8 + t.toNat) d.toNat a.toNat b.toNat p.toNat Val.add st
/-- SUB.T (R114). -/
def execFaluSub (t : BitVec 3) (d a b : BitVec 6) (p : BitVec 3) (st : State) : Host.Outcome State Fault Refusal :=
  floatAB (.faluSub t d a b p) (8 + t.toNat) d.toNat a.toNat b.toNat p.toNat (fun m x y => Val.add m x y.neg) st
/-- MUL.T (R114). -/
def execFaluMul (t : BitVec 3) (d a b : BitVec 6) (p : BitVec 3) (st : State) : Host.Outcome State Fault Refusal :=
  floatAB (.faluMul t d a b p) (8 + t.toNat) d.toNat a.toNat b.toNat p.toNat (fun _ => Val.mul) st
/-- MIN.T (R114). -/
def execFaluMin (t : BitVec 3) (d a : BitVec 6) (p : BitVec 3) (st : State) : Host.Outcome State Fault Refusal :=
  floatDA (.faluMin t d a p) (8 + t.toNat) d.toNat a.toNat p.toNat true (fun _ => minMaxFloat (8 + t.toNat) true) st
/-- MAX.T (R114). -/
def execFaluMax (t : BitVec 3) (d a : BitVec 6) (p : BitVec 3) (st : State) : Host.Outcome State Fault Refusal :=
  floatDA (.faluMax t d a p) (8 + t.toNat) d.toNat a.toNat p.toNat true (fun _ => minMaxFloat (8 + t.toNat) false) st
/-- NEG.T (R114). -/
def execFaluNeg (t : BitVec 3) (d a : BitVec 6) (p : BitVec 3) (st : State) : Host.Outcome State Fault Refusal :=
  floatDA (.faluNeg t d a p) (8 + t.toNat) d.toNat a.toNat p.toNat false (fun _ _ => negFloat (8 + t.toNat)) st
/-- ABS.T (R114). -/
def execFaluAbs (t : BitVec 3) (d a : BitVec 6) (p : BitVec 3) (st : State) : Host.Outcome State Fault Refusal :=
  floatDA (.faluAbs t d a p) (8 + t.toNat) d.toNat a.toNat p.toNat false (fun _ _ => absFloat (8 + t.toNat)) st
/-- RINT.T (R114). -/
def execRint (t : BitVec 3) (d a : BitVec 6) (p : BitVec 3) (st : State) : Host.Outcome State Fault Refusal :=
  floatDA (.rint t d a p) (8 + t.toNat) d.toNat a.toNat p.toNat false
    (fun m _ x => roundVal (8 + t.toNat) m (rintVal m (decodeVal (8 + t.toNat) x))) st
/-- FMA.T (R115). -/
def execFma (t : BitVec 3) (d a b : BitVec 6) (p : BitVec 3) (st : State) : Host.Outcome State Fault Refusal :=
  floatABD (.fma t d a b p) (8 + t.toNat) d.toNat a.toNat b.toNat p.toNat (fun m x y z => Val.add m (x.mul y) z) st
/-- FMS.T (R115). -/
def execFms (t : BitVec 3) (d a b : BitVec 6) (p : BitVec 3) (st : State) : Host.Outcome State Fault Refusal :=
  floatABD (.fms t d a b p) (8 + t.toNat) d.toNat a.toNat b.toNat p.toNat (fun m x y z => Val.add m (x.mul y) z.neg) st
/-- FNMA.T (R115). -/
def execFnma (t : BitVec 3) (d a b : BitVec 6) (p : BitVec 3) (st : State) : Host.Outcome State Fault Refusal :=
  floatABD (.fnma t d a b p) (8 + t.toNat) d.toNat a.toNat b.toNat p.toNat (fun m x y z => Val.add m (x.mul y).neg z) st

/-- Sum of a list of exact values. -/
def sumVals (m : Mode) (l : List Val) : Val := l.foldl (Val.add m) (.fin false 0 1)

/-- Word j of DOT4 (R116). -/
def dot4Word (t : Nat) (mode : Mode) (j : Nat) (a b d : Lane) : Nat :=
  let bytes := (List.range 4).map fun i => (subOf 8 (4 * j + i) a, subOf 8 (4 * j + i) b)
  if kindOf t = .tapered then
    roundTap ⟨32, 2⟩ mode
      (sumVals mode (decodeTap ⟨32, 2⟩ (subOf 32 j d) :: bytes.map fun x => (decodeVal t x.1).mul (decodeVal t x.2)))
  else
    lowBits 32 ((bytes.map fun x => intOf t x.1 * intOf t x.2).sum +
      (if kindOf t = .int then signedOf 32 (subOf 32 j d) else (subOf 32 j d : Nat)))

/-- DOT4.T (R116): the guard of a word is that of its byte 4j. -/
def execDot4 (t : BitVec 4) (d a b : BitVec 6) (p : BitVec 3) (st : State) : Host.Outcome State Fault Refusal :=
  st.compute (.dot4 t d a b p)
    { accepts := { neg := true, re := t = 12 }, guard := some p.toNat, regs := [d.toNat, a.toNat, b.toNat] }
    (fun e => e.subReads a.toNat (some p.toNat) 32 ++ e.subReads b.toNat (some p.toNat) 32 ++ e.subReads d.toNat (some p.toNat) 32)
    (fun e => e.subWrites d.toNat (some p.toNat) 32 fun k l j =>
      dot4Word t.toNat e.hints.mode j (e.val k a.toNat l) (e.val k b.toNat l) (e.val k d.toNat l))

/-- Conversion of the low sub-elements of a source of type s into sub-elements of width wd (R117). -/
def convertForm (i : Instr) (wd s d a p : Nat) (f : Env → Nat → Nat) (st : State) : Host.Outcome State Fault Refusal :=
  let ws := widthOf s
  let n := min (64 / wd) (64 / ws)
  let ss (e : Env) (k l : Nat) : List Nat := (e.subs (some p) wd k l).filter (· < n)
  st.compute i (formA p d a { re := true, sat := true })
    (fun e => e.cells.filterMap fun (k, l) =>
      let h := (ss e k l).foldl (fun h x => h ||| halfOf ws x) 0#2
      if h = 0 then none else some { reg := a, lane := l, phys := e.phys k l, halves := h })
    (fun e => e.cells.filterMap fun (k, l) =>
      if (ss e k l).isEmpty then none
      else some
        { cell := e.cellOf k d l
          bits := (ss e k l).foldl (fun m x => m ||| subBits wd x) 0
          value := (ss e k l).foldl (fun m x => m ||| subAt wd x (f e (subOf ws x (e.val k a l)))) 0 })

/-- CVT.D.S (R117). -/
def execCvt (t : BitVec 4) (d a : BitVec 6) (s : BitVec 4) (p : BitVec 3) (st : State) : Host.Outcome State Fault Refusal :=
  convertForm (.cvt t d a s p) (widthOf t.toNat) s.toNat d.toNat a.toNat p.toNat
    (fun e x => convert t.toNat s.toNat e.hints.mode e.hints.sat x) st

/-- CVT.E4M3.S and CVT.E5M2.S (R117). -/
def execCvtFp8 (f : BitVec 1) (d a : BitVec 6) (s : BitVec 4) (p : BitVec 3) (st : State) : Host.Outcome State Fault Refusal :=
  convertForm (.cvtFp8 f d a s p) 8 s.toNat d.toNat a.toNat p.toNat
    (fun e x => convertFp8 (f = 1) s.toNat e.hints.mode e.hints.sat x) st

end Sys2Proof.Machine
end

