-- ==== Sys2Proof/Machine/Logic.lean ====
section
/-! DEFINITION. Logic, shifts and bit fields (R107 to R109). -/

namespace Sys2Proof.Machine

/-- A truth table applied bit by bit (R107). -/
def lopBits (t : Nat) (a b : Lane) : Lane :=
  (if t.testBit 0 then ~~~a &&& ~~~b else 0) ||| (if t.testBit 1 then ~~~a &&& b else 0) |||
  (if t.testBit 2 then a &&& ~~~b else 0) ||| (if t.testBit 3 then a &&& b else 0)

/-- Whether a table depends on a, and on b (R107). -/
def lopReadsA (t : Nat) : Bool := t % 4 != t / 4 % 4
/-- See `lopReadsA`. -/
def lopReadsB (t : Nat) : Bool := t.testBit 0 != t.testBit 1 || t.testBit 2 != t.testBit 3

/-- A write of the guarded bytes (R107). -/
def Env.byteWrites (e : Env) (d : Nat) (p : Option Nat) (f : Nat → Nat → Lane) : List CellWrite :=
  e.cells.filterMap fun (k, l) =>
    let m := byteBits (e.guardOf p k l)
    if m = 0 then none else some { cell := e.cellOf k d l, bits := m, value := f k l }

/-- LOP (R107). -/
def execLop (t : BitVec 4) (d a b : BitVec 6) (p : BitVec 3) (st : State) : Host.Outcome State Fault Refusal :=
  st.compute (.lop t d a b p) (formAB p.toNat d.toNat a.toNat b.toNat {})
    (fun e => (if lopReadsA t.toNat then e.subReads a.toNat (some p.toNat) 8 else []) ++
      if lopReadsB t.toNat then e.bReads b.toNat (some p.toNat) 8 else [])
    (fun e => e.byteWrites d.toNat (some p.toNat) fun k l => lopBits t.toNat (e.val k a.toNat l) (e.bVal b.toNat k l))

/-- LOP with an immediate (R107). -/
def execLopi (t : BitVec 4) (d a : BitVec 6) (i : BitVec 11) (st : State) : Host.Outcome State Fault Refusal :=
  st.compute (.lopi t d a i) { accepts := { imm := true }, regs := [d.toNat, a.toNat], imm11 := i.toNat }
    (fun e => if lopReadsA t.toNat then e.subReads a.toNat none 8 else [])
    (fun e => e.byteWrites d.toNat none fun k l => lopBits t.toNat (e.val k a.toNat l) (e.imm11 i))

/-- SHL of one sub-element: 0 from a count of the width on (R108). -/
def shlSub (w x c : Nat) : Nat := if c < w then x * 2 ^ c % 2 ^ w else 0
/-- SHR of one sub-element: arithmetic for I types (R108). -/
def shrSub (t x c : Nat) : Nat :=
  let w := widthOf t
  lowBits w (intOf t x / (2 ^ min c w : Nat))

/-- A shift per sub-element. -/
def shift (i : Instr) (t d a b p : Nat) (f : Nat → Nat → Nat) (st : State) : Host.Outcome State Fault Refusal :=
  let w := widthOf t
  st.compute i (formAB p d a b {}) (fun e => e.subReads a (some p) w ++ e.bReads b (some p) w)
    (fun e => e.subWrites d (some p) w fun k l s => f (subOf w s (e.val k a l)) (e.bSub b w k l s))

/-- SHL.T (R108). -/
def execShl (t : BitVec 4) (d a b : BitVec 6) (p : BitVec 3) (st : State) : Host.Outcome State Fault Refusal :=
  shift (.shl t d a b p) t.toNat d.toNat a.toNat b.toNat p.toNat (shlSub (widthOf t.toNat)) st

/-- SHR.T (R108). -/
def execShr (t : BitVec 4) (d a b : BitVec 6) (p : BitVec 3) (st : State) : Host.Outcome State Fault Refusal :=
  shift (.shr t d a b p) t.toNat d.toNat a.toNat b.toNat p.toNat (shrSub t.toNat) st

/-- Position and length of a bit field described by b (R109). -/
def fieldPos (b : Lane) : Nat := b.toNat % 64
/-- See `fieldPos`. -/
def fieldLen (b : Lane) : Nat := min (b.toNat / 256 % 128) (64 - fieldPos b)

/-- BFX (R109). -/
def bfxLane (a b : Lane) : Lane := BitVec.ofNat 64 (a.toNat / 2 ^ fieldPos b % 2 ^ fieldLen b)
/-- BFXS (R109). -/
def bfxsLane (a b : Lane) : Lane :=
  if fieldLen b = 0 then 0 else BitVec.ofInt 64 (signedOf (fieldLen b) (a.toNat / 2 ^ fieldPos b))
/-- BFI (R109). -/
def bfiLane (d a b : Lane) : Lane :=
  let m := BitVec.ofNat 64 ((2 ^ fieldLen b - 1) * 2 ^ fieldPos b)
  (d &&& ~~~m) ||| (BitVec.ofNat 64 (a.toNat % 2 ^ fieldLen b * 2 ^ fieldPos b) &&& m)
/-- POPC (R109). -/
def popcLane (a : Lane) : Lane := BitVec.ofNat 64 ((List.range 64).filter fun i => a.getLsbD i).length
/-- CLZ (R109). -/
def clzLane (a : Lane) : Lane := BitVec.ofNat 64 (((List.range 64).map fun i => a.getLsbD (63 - i)).takeWhile (!·)).length
/-- CTZ (R109). -/
def ctzLane (a : Lane) : Lane := BitVec.ofNat 64 (((List.range 64).map fun i => a.getLsbD i).takeWhile (!·)).length
/-- BREV (R109). -/
def brevLane (a : Lane) : Lane := a.reverse

/-- A BITS form with operand b (R109). -/
def bitsAB (i : Instr) (d a b p : Nat) (readsD : Bool) (f : Lane → Lane → Lane → Lane) (st : State) : Host.Outcome State Fault Refusal :=
  st.compute i (formAB p d a b {})
    (fun e => e.subReads a (some p) 64 ++ e.bReads b (some p) 64 ++ if readsD then e.subReads d (some p) 64 else [])
    (fun e => e.laneWrites d (some p) fun k l => f (e.val k d l) (e.val k a l) (e.bVal b k l))

/-- A BITS form of a alone (R109). -/
def bitsA (i : Instr) (d a p : Nat) (f : Lane → Lane) (st : State) : Host.Outcome State Fault Refusal :=
  st.compute i (formA p d a {}) (fun e => e.subReads a (some p) 64) (fun e => e.laneWrites d (some p) fun k l => f (e.val k a l))

/-- BFX (R109). -/
def execBfx (d a b : BitVec 6) (p : BitVec 3) (st : State) : Host.Outcome State Fault Refusal :=
  bitsAB (.bfx d a b p) d.toNat a.toNat b.toNat p.toNat false (fun _ => bfxLane) st
/-- BFXS (R109). -/
def execBfxs (d a b : BitVec 6) (p : BitVec 3) (st : State) : Host.Outcome State Fault Refusal :=
  bitsAB (.bfxs d a b p) d.toNat a.toNat b.toNat p.toNat false (fun _ => bfxsLane) st
/-- BFI (R109). -/
def execBfi (d a b : BitVec 6) (p : BitVec 3) (st : State) : Host.Outcome State Fault Refusal :=
  bitsAB (.bfi d a b p) d.toNat a.toNat b.toNat p.toNat true bfiLane st
/-- POPC (R109). -/
def execPopc (d a : BitVec 6) (p : BitVec 3) (st : State) : Host.Outcome State Fault Refusal :=
  bitsA (.popc d a p) d.toNat a.toNat p.toNat popcLane st
/-- CLZ (R109). -/
def execClz (d a : BitVec 6) (p : BitVec 3) (st : State) : Host.Outcome State Fault Refusal :=
  bitsA (.clz d a p) d.toNat a.toNat p.toNat clzLane st
/-- CTZ (R109). -/
def execCtz (d a : BitVec 6) (p : BitVec 3) (st : State) : Host.Outcome State Fault Refusal :=
  bitsA (.ctz d a p) d.toNat a.toNat p.toNat ctzLane st
/-- BREV (R109). -/
def execBrev (d a : BitVec 6) (p : BitVec 3) (st : State) : Host.Outcome State Fault Refusal :=
  bitsA (.brev d a p) d.toNat a.toNat p.toNat brevLane st
/-- ROL (R109). -/
def execRol (d a b : BitVec 6) (p : BitVec 3) (st : State) : Host.Outcome State Fault Refusal :=
  bitsAB (.rol d a b p) d.toNat a.toNat b.toNat p.toNat false (fun _ x c => x.rotateLeft (c.toNat % 64)) st
/-- ROR (R109). -/
def execRor (d a b : BitVec 6) (p : BitVec 3) (st : State) : Host.Outcome State Fault Refusal :=
  bitsAB (.ror d a b p) d.toNat a.toNat b.toNat p.toNat false (fun _ x c => x.rotateRight (c.toNat % 64)) st

end Sys2Proof.Machine
end

