-- ==== Sys2Proof/Machine/Network.lean ====
section
/-! DEFINITION. Ethernet ports (R382 to R385, R390), Irend ports (R386 to R388) and link rings (R389). -/

namespace Sys2Proof.Machine

/-! ### Launch frames (R383 to R385) -/

/-- Counts a frame: RXLAUNCH, RINGFULL, BADFRAME, NOMATCH, DROPOTHER are 0 to 4, each wrapping at 2^64. -/
def State.count (st : State) (port i n : Nat) : State :=
  { st with netCounters := NMap.store st.netCounters 0 (8 * port + i) (st.netCounter port i + BitVec.ofNat 64 n) }

/-- The first p bits of two addresses agree, byte 0 first and each byte's bit 7 first. -/
def samePrefix (a b p : Nat) : Bool :=
  (List.range 16).all fun i =>
    let k := min 8 (p - 8 * i)
    a / 256 ^ i % 256 / 2 ^ (8 - k) == b / 256 ^ i % 256 / 2 ^ (8 - k)

/-- A valid filter entry that matches (R384). -/
def filterMatches (f : BitVec 256) (source port queue : Nat) : Bool :=
  let n := f.toNat
  n / 2 ^ 192 % 2 == 1 && decide (n / 2 ^ 128 % 256 ≤ 128) && samePrefix n source (n / 2 ^ 128 % 256) &&
    n / 2 ^ 144 % 2 ^ 16 == port && n / 2 ^ 160 % 2 ^ 32 == queue

/-- A queue that an Ethernet port may fill (R385 step 2). -/
def State.acceptsNet (st : State) (q : Nat) : Bool :=
  decide (q < 32768) && bitsOf (st.queueBits q) 156 156 == 1 && bitsOf (st.queueBits q) 157 157 == 0 && st.queueLog q != 0

/-- Places of the records of a frame, if the ring is mapped there. -/
def State.framePlaces (st : State) (q n : Nat) : Option (List Nat) :=
  let ps := (List.range n).map fun i => st.ctxPlace (st.queueCtx q) (st.recordVa q (st.queueTail q + i)) .write
  if ps.all Option.isSome then some (ps.filterMap id) else none

/-- A launch frame (R385). -/
def State.launchFrame (st : State) (port : Nat) (sumsGood : Bool) (source : BitVec 128) (udp : Nat) (payload : List Byte) : State :=
  let field (o n : Nat) : Nat := numOf ((payload.drop o).take n)
  let n := field 2 2
  let q := field 4 4
  if !sumsGood ∨ field 0 2 ≠ 1 ∨ n < 1 ∨ 64 < n ∨ payload.length ≠ 16 + 128 * n then st.count port 2 1
  else if !((List.range 32).any fun e => filterMatches (NMap.get st.filters 0 (32 * port + e)) source.toNat udp q) ∨ !st.acceptsNet q then
    st.count port 3 1
  else if (2 ^ st.queueLog q : Nat) < (st.queueTail q + 2 ^ 32 - st.queueHead q) % 2 ^ 32 + n then st.count port 1 1
  else match st.framePlaces q n with
    | none => st
    | some places =>
      if places.any (fun p => st.anyPinned p 128) || st.pinnedAgainst none (lineOf (st.queueAt q)) then st
      else
        let tail := st.queueTail q
        let ctx := st.queueCtx q
        let st := (places.zipIdx 0).foldl (fun (s : State) (x : Nat × Nat) =>
          (s.ctxTouch ctx (s.recordVa q (tail + x.2)) true).writeHome x.1 ((payload.drop (16 + 128 * x.2)).take 128) false) st
        ((st.setTail q ((tail + n) % 2 ^ 32)).setPending q).count port 0 n

/-- FRAME_RECEIVE (R382, R385, R390): a launch frame is checked, filtered and appended; an IEEE 1588 message whose offset is forward by more
than 1 ms steps the time base, and a smaller one only slews its rate; any other frame is counted (log 45). -/
def execFrameReceive (port : Nat) (frame : NetFrame) (st : State) : Host.Outcome State Fault Refusal :=
  if 2 ≤ port then .next st
  else match frame with
    | .launch good source udp payload => .next (st.launchFrame port good source udp payload)
    | .ieee1588 offset =>
      .next (if 1000000 < offset then State.noteEligible { st with time := st.time + BitVec.ofInt 64 offset } else st)
    | .other => .next (st.count port 4 1)

/-- IEEE_1588_MESSAGE_SEND (R382, R390): a message timestamped at the MAC (log 45). -/
def execIeee1588MessageSend (port : Nat) (st : State) : Host.Outcome State Fault Refusal :=
  .next (if port < 2 then { st with sentAt := NMap.put st.sentAt port st.time } else st)

/-! ### Flit groups (R387, R388) -/

/-- SEQ of a flit. -/
def flitSeq (f : List Byte) : Nat := numOf ((f.drop 64).take 2)

/-- A flit's CRC is good. -/
def flitGood (f : List Byte) : Bool := f.length == 72 && numOf (f.drop 68) == (Config.flitCrc (f.take 68)).toNat

/-- SEQ of a flit group: the one that most of its good flits have, the lowest rail's among equals (log 19). -/
def groupSeq (good : List (List Byte)) : Nat :=
  let count (s : Nat) : Nat := (good.filter fun f => flitSeq f == s).length
  (good.map flitSeq).foldl (fun best s => if count best < count s then s else best) ((good.map flitSeq).headD 0)

/-- Byte-wise XOR of segments of 64 bytes. -/
def xorSegments (ss : List (List Byte)) : List Byte := (List.range 64).map fun i => ss.foldl (fun b s => b ^^^ s.getD i 0) 0

/-- The flit of a rail. -/
def flitAt (flits : List Flit) (r : Nat) : Option (List Byte) := (flits[r]?).join

/-- Counts an absent flit of a rail; the 16th within 1 ms fails the rail. -/
def State.absentFlit (st : State) (port rail : Nat) : State :=
  let p := NMap.get st.irend {} port
  let times := (NMap.get p.absent [] rail).filter (fun t => decide (st.clock < t + 1000000)) ++ [st.clock]
  let st := { st with irend := NMap.put st.irend port { p with absent := NMap.put p.absent rail times } }
  if 16 ≤ times.length then st.failRail port rail else st

/-- A lost flit group ends the link transfers of its port whose packets touch it, without an increment of a completion word (R388, R389). Which
ones it touches is a free value (log 45); the record of the group names the port. -/
def State.endTransfers (st : State) (port : Nat) : State :=
  let touched (d r : Nat) (t : Transfer × Nat) : Bool := (t.1.port == port || t.1.port == 0xFF) && Config.groupTouches st.free (8 * d + r) t.2
  { st with
    free := st.free + 1
    dies := st.dies.map fun (e : Nat × Die) => (e.1, { e.2 with links := e.2.links.map fun (x : Nat × LinkRing) =>
      (x.1, { x.2 with pending := ((x.2.pending.zipIdx 0).filter fun t => !touched e.1 x.1 t).map fun t => t.1 }) }) }

/-- FLIT_GROUP_RECEIVE (R388): a group with no flit absent is delivered, with one absent it is rebuilt, with more it is lost. -/
def execFlitGroupReceive (port : Nat) (flits : List Flit) (st : State) : Host.Outcome State Fault Refusal :=
  let p := NMap.get st.irend {} port
  if 12 ≤ port ∨ p.down then .next st
  else
    let used := [0, 1, 2, 3, 4].filter fun r => !p.failed.contains r
    let timely := used.filter fun r => !p.late.contains r
    let good (r : Nat) : Option (List Byte) := (flitAt flits r).filter flitGood
    let seq := groupSeq (timely.filterMap good)
    let present (r : Nat) : Bool := timely.contains r && (match good r with
      | some f => flitSeq f == seq
      | none => false)
    let segment (r : Nat) : List Byte := ((flitAt flits r).getD []).take 64
    let missing := [0, 1, 2, 3, 4].filter fun r => !present r
    let data (r : Nat) : List Byte :=
      if present r then segment r else xorSegments (([0, 1, 2, 3, 4].filter (· != r)).map segment)
    let payload := [0, 1, 2, 3].flatMap data
    let st := { st with irend := NMap.put st.irend port (
      if missing.length < 2 then { p with late := [], delivered := p.delivered ++ [payload] } else { p with late := [], lost := p.lost + 1 }) }
    let st := if missing.length < 2 then st else st.endTransfers port |>.sendUnit 0x17 [(72, port), (80, (missing.map fun r => 2 ^ r).sum)]
    .next ((timely.filter fun r => !present r).foldl (fun (s : State) (r : Nat) => s.absentFlit port r) st)

/-- FLIT_TIMEOUT (R388): the flit of a rail has not arrived 64 ns after its group's first, and counts as absent. -/
def execFlitTimeout (port rail : Nat) (st : State) : Host.Outcome State Fault Refusal :=
  let p := NMap.get st.irend {} port
  if 12 ≤ port ∨ 5 ≤ rail ∨ p.down ∨ p.failed.contains rail ∨ p.late.contains rail then .next st
  else .next (State.absentFlit { st with irend := NMap.put st.irend port { p with late := insertSorted rail p.late } } port rail)

/-! ### Link rings (R389) -/

/-- LOG2 of a link ring. -/
def LinkRing.log2 (r : LinkRing) : Nat := r.ctl.toNat % 16
/-- A link ring that is enabled. -/
def LinkRing.enabled (r : LinkRing) : Bool := r.ctl.getLsbD 63 && decide (4 ≤ r.log2) && decide (r.log2 ≤ 12)
/-- Context of a link ring. -/
def LinkRing.ctx (r : LinkRing) : Nat := r.ctl.toNat / 2 ^ 40 % 256

/-- A link ring of a die. -/
def State.linkRing (st : State) (die ring : Nat) : LinkRing := NMap.get (st.die die).links {} ring

/-- Changes a link ring. -/
def State.onLink (st : State) (die ring : Nat) (f : LinkRing → LinkRing) : State :=
  st.onDie die fun d => { d with links := NMap.change d.links {} ring f }

/-- A port that can carry a transfer: the one named, or any that is up (R388). -/
def State.linkUp (st : State) (port : Nat) : Bool :=
  let up (p : Nat) : Bool := !(NMap.get st.irend {} p).down
  if port = 0xFF then (List.range 12).any up else up port

/-- LINK_TRANSFER_START (R389): the producer word is ahead of LRCONS; the engine reads the descriptor and SRC and sends the transfer. A
descriptor whose DST is outside the remote HBM4E, or that breaks the descriptor's form, ends with an error (log 20). -/
def execLinkTransferStart (die ring : Nat) (st : State) : Host.Outcome State Fault Refusal :=
  let r := st.linkRing die ring
  let ctx := r.ctx
  let who := st.ctxWho (160 * die) ctx
  let at' := r.base.toNat + 64 * (r.cons.toNat % 2 ^ r.log2)
  if 4 ≤ die ∨ 8 ≤ ring ∨ (st.die die).offline ∨ !r.enabled then .next st
  else match st.ctxPlace ctx r.prod.toNat .read, st.checkRange who at' 64 8 .read with
    | some prod, .ok segs =>
      if st.homeNum prod 8 = r.cons.toNat ∨ segs.any fun x => st.anyPinned x.1 x.2 then .next st
      else
        let d := numOf (segs.flatMap fun x => st.readHome x.1 x.2)
        let word (o : Nat) : Nat := d / 2 ^ (8 * o) % 2 ^ 64
        let len := word 8
        let port := d / 2 ^ (8 * 42) % 256
        let fits := len % 8 == 0 && decide (len ≤ 2 ^ 32) && decide (word 16 + len ≤ adobeBase) && d / 2 ^ (8 * 43) == 0 &&
          (decide (port < 12) || port == 0xFF)
        let st' := (st.ctxTouch ctx r.prod.toNat false).ctxTouch ctx at' false
        let go (s : State) : State := s.onLink die ring fun r => { r with cons := r.cons + 1 }
        let fail : State := (go st').sendUnit 0x17 [(72, port), (80, 0)]
        if !fits then .next fail
        else if !st.linkUp port then .next st
        else match st.checkRange who (word 0) len 1 .read with
          | .error _ => .next fail
          | .ok src =>
            if src.any fun x => st.anyPinned x.1 x.2 then .next st
            else
              let bytes := src.flatMap fun x => st.readHome x.1 x.2
              let s := src.foldl (fun (s : State) (x : Nat × Nat) => s.install x.1) ((go st').touchRange who (word 0) len .read)
              .next (s.onLink die ring fun r => { r with pending := r.pending ++
                [{ pkg := d / 2 ^ (8 * 40) % 2 ^ 16, port := port, dst := word 16, rsig := word 24, lsig := word 32, bytes := bytes }] })
    | _, _ => .next st

/-- An increment of a completion word. -/
def State.increment (st : State) (place : Nat) : State := st.writeHome place (bytesOf (st.homeNum place 8 + 1) 8) false

/-- A physical address at which a 64-bit word of memory stands (R315). -/
def memoryWord (place : Nat) : Bool := (isHbm place && isHbm (place + 7)) || (isHost place && isHost (place + 7))

/-- LINK_REMOTE_TRANSFER (R389): another package's transfer is performed at this package's home slices, then RSIG is
incremented, if it names memory. -/
def execLinkRemoteTransfer (dst rsig : BitVec 64) (bytes : List Byte) (st : State) : Host.Outcome State Fault Refusal :=
  let d := dst.toNat
  let s := rsig.toNat
  let word := s != 0 && memoryWord s
  if adobeBase < d + bytes.length ∨ st.anyPinned d bytes.length ∨ (word ∧ st.anyPinned s 8) then .next st
  else
    let st := (pieces (bytes.length / 4096 + 2) d bytes.length).foldl (fun (st : State) (x : Nat × Nat) =>
      st.writeHome x.1 ((bytes.drop (x.1 - d)).take x.2) false) st
    .next (if word then st.increment s else st)

/-- LINK_ACK (R389): the oldest transfer of a ring is acknowledged, and LSIG is incremented at device scope. -/
def execLinkAck (die ring : Nat) (st : State) : Host.Outcome State Fault Refusal :=
  let r := st.linkRing die ring
  match r.pending with
  | [] => .next st
  | t :: rest =>
    let st' := st.onLink die ring fun r => { r with pending := rest }
    if t.lsig = 0 then .next st'
    else match st.ctxPlace r.ctx t.lsig .rmw with
      | none => .next st'
      | some p => if st.anyPinned p 8 then .next st else .next ((st'.ctxTouch r.ctx t.lsig true).increment p)

end Sys2Proof.Machine
end

