-- ==== Sys2Proof/Machine/Trans.lean ====
section
/-! DEFINITION. The special functions of R124 to R126, correctly rounded. Where the exact result is irrational it is enclosed
between two fractions, with twice the precision each time until both round to one code. -/

namespace Sys2Proof.Machine

/-- A real number within err units of mid, at a scale of 2^prec units to 1. -/
structure Encl where
  mid : Int
  err : Nat
  deriving DecidableEq, Repr

/-- Newton's iteration from above for the square root of n. -/
def isqrtLoop (n : Nat) : Nat → Nat → Nat
  | 0, x => x
  | fuel + 1, x =>
    let y := (x + n / x) / 2
    if y < x then isqrtLoop n fuel y else x

/-- Square root of n rounded down. -/
def isqrt (n : Nat) : Nat := if n = 0 then 0 else isqrtLoop n (Nat.log2 n + 4) (2 ^ (Nat.log2 n / 2 + 1))

/-- The square root of num / den: exact where it is a fraction that 150 bits hold, else a fraction
strictly between the two neighbours of that precision, on the true side of each (R125). -/
def sqrtVal (num den : Nat) : Val :=
  let s := (150 + Nat.log2 den) - Nat.log2 num
  let top := num * 2 ^ (2 * s)
  let r := isqrt (top / den)
  if r * r * den = top then .fin false r (2 ^ s) else .fin false (2 * r + 1) (2 ^ (s + 1))

/-- Sum of y^k / k! from the given term on, at scale one. -/
def expLoop (one y : Int) : Nat → Nat → Int → Int → Int
  | 0, _, _, acc => acc
  | fuel + 1, k, term, acc =>
    if term = 0 then acc else expLoop one y fuel (k + 1) (term * y / (one * (k + 1))) (acc + term)

/-- e^y for 0 <= y <= 1. -/
def expEncl (prec : Nat) (y : Encl) : Encl :=
  let one : Int := (2 ^ prec : Nat)
  ⟨expLoop one y.mid (prec + 4) 0 one 0, 4 * prec + 16 + 3 * y.err⟩

/-- Sum of z^(2k+1) / (2k+1) from the given power on. -/
def atanhLoop (one z2 : Int) : Nat → Nat → Int → Int → Int
  | 0, _, _, acc => acc
  | fuel + 1, k, p, acc =>
    if p = 0 then acc else atanhLoop one z2 fuel (k + 2) (p * z2 / one) (acc + p / (k : Int))

/-- Natural logarithm of a / b, for b <= a <= 2b: twice the inverse hyperbolic tangent of (a - b) / (a + b). -/
def lnEncl (prec a b : Nat) : Encl :=
  let one : Int := (2 ^ prec : Nat)
  let z : Int := ((a - b) * 2 ^ prec / (a + b) : Nat)
  ⟨2 * atanhLoop one (z * z / one) (prec + 4) 1 z 0, 8 * prec + 32⟩

/-- ln 2. -/
def ln2Encl (prec : Nat) : Encl := lnEncl prec 2 1

/-- Alternating sum of 1 / ((2k+1) q^(2k+1)). -/
def atanInvLoop (q2 : Int) : Nat → Nat → Bool → Int → Int → Int
  | 0, _, _, _, acc => acc
  | fuel + 1, k, plus, p, acc =>
    if p = 0 then acc
    else atanInvLoop q2 fuel (k + 2) (!plus) (p / q2) (if plus then acc + p / (k : Int) else acc - p / (k : Int))

/-- pi, by 16 arctan (1/5) - 4 arctan (1/239). -/
def piEncl (prec : Nat) : Encl :=
  let one : Int := (2 ^ prec : Nat)
  ⟨16 * atanInvLoop 25 (prec + 4) 1 true (one / 5) 0 - 4 * atanInvLoop (239 * 239) (prec + 4) 1 true (one / 239) 0,
   40 * prec + 80⟩

/-- Alternating Taylor sum of sine (k = 1, term = r) or cosine (k = 0, term = 1) at r, r2 = r^2. -/
def trigLoop (one r2 : Int) : Nat → Nat → Int → Int → Int
  | 0, _, _, acc => acc
  | fuel + 1, k, term, acc =>
    if term = 0 then acc
    else trigLoop one r2 fuel (k + 2) (-(term.sign * (term.natAbs * r2.natAbs / (one.natAbs * ((k + 1) * (k + 2))) : Nat))) (acc + term)

/-- 2^(num/den), num/den not an integer, as a fraction of 2^prec and a power of two. -/
def exp2Encl (prec : Nat) (neg : Bool) (num den : Nat) : Encl × Int :=
  let n : Int := signedNum neg num / (den : Int)
  let frac : Nat := (signedNum neg num % (den : Int)).toNat
  let l := ln2Encl prec
  (expEncl prec ⟨(frac : Int) * l.mid / (den : Int), l.err + 1⟩, n)

/-- log2 (num/den). -/
def log2Encl (prec num den : Nat) : Encl :=
  let t := floorLog2 num den
  let a := num * 2 ^ (-t).toNat
  let b := den * 2 ^ t.toNat
  let m := lnEncl prec a b
  let l := ln2Encl prec
  let one : Int := (2 ^ prec : Nat)
  ⟨t * one + m.mid * one / l.mid, 2 * m.err + 3 * l.err + 4⟩

/-- Sine (true) or cosine of num/den, by exact reduction to a quarter turn. -/
def trigEncl (prec : Nat) (sine : Bool) (num den : Nat) : Encl :=
  let t := floorLog2 num den
  let wide := prec + t.toNat + 8
  let pi := piEncl wide
  let x : Int := (num * 2 ^ (wide + 1) / den : Nat)
  let k := x / pi.mid
  let r : Int := (x - k * pi.mid) / (2 ^ (wide + 1 - prec) : Nat)
  let rerr : Nat := (k.natAbs + 1) * (pi.err + 1) / 2 ^ (wide + 1 - prec) + 2
  let one : Int := (2 ^ prec : Nat)
  let sinR := trigLoop one (r * r / one) (prec + 4) 1 r 0
  let cosR := trigLoop one (r * r / one) (prec + 4) 0 one 0
  let err := 4 * prec + 16 + rerr
  match sine, k % 4 with
  | true, 0 => ⟨sinR, err⟩
  | true, 1 => ⟨cosR, err⟩
  | true, 2 => ⟨-sinR, err⟩
  | true, _ => ⟨-cosR, err⟩
  | false, 0 => ⟨cosR, err⟩
  | false, 1 => ⟨-sinR, err⟩
  | false, 2 => ⟨-cosR, err⟩
  | false, _ => ⟨sinR, err⟩

/-- tanh (num/den) for 0 < num/den < 128: 1 - 2 / (e^(2 num/den) + 1). -/
def tanhEncl (prec num den : Nat) : Encl :=
  let one : Int := (2 ^ prec : Nat)
  let l := ln2Encl (prec + 16)
  let y : Int := (num * 2 ^ (prec + 17) / den : Nat)
  let n := y / l.mid
  let f : Encl := ⟨(y - n * l.mid) / (2 ^ 16 : Nat), (n.natAbs + 1) * (l.err + 1) / 2 ^ 16 + 2⟩
  let e := expEncl prec f
  let big : Int := (2 ^ n.toNat : Nat)
  let down := 2 * one * one / ((e.mid + e.err) * big + one)
  let up := 2 * one * one / ((e.mid - e.err) * big + one) + 1
  ⟨one - (down + up) / 2, (up - down).natAbs + 2⟩

/-- An enclosure's ends, as values. -/
def Encl.ends (e : Encl) (prec : Nat) (power : Int) : Val × Val :=
  let side (z : Int) : Val := scaled (z < 0) z.natAbs (power - prec)
  (side (e.mid - e.err), side (e.mid + e.err))

/-- The code both ends round to, with twice the precision each time they differ. -/
def zivRound (t : Nat) (mode : Mode) (f : Nat → Encl × Int) : Nat → Nat → Nat
  | 0, prec => roundVal t mode ((f prec).1.ends prec (f prec).2).1
  | fuel + 1, prec =>
    let (e, power) := f prec
    let (lo, hi) := e.ends prec power
    if roundVal t mode lo = roundVal t mode hi then roundVal t mode lo else zivRound t mode f fuel (2 * prec)

/-- Precision to start from: enough for the square and the cube of a small argument to be seen. -/
def startPrec (num den : Nat) : Nat := 128 + 3 * (-(floorLog2 num den)).toNat

/-- A result whose sign is put on after rounding the magnitude in the mode seen from the other side. -/
def mirrored (mode : Mode) : Mode :=
  match mode with
  | .rm => .rp
  | .rp => .rm
  | m => m

/-- Negative of a code of type t that is no NaN. -/
def withSign (t : Nat) (neg : Bool) (c : Nat) : Nat := if neg then negFloat t c else c

/-- The unary functions of minor 0 (R124). -/
inductive SfuOp where
  | rcp
  | rsqrt
  | sqrt
  | exp2
  | log2
  | sin
  | cos
  | tanh
  deriving DecidableEq, Repr

/-- A number so near 1 that every format rounds it as it rounds any value between it and 1. -/
def justBelowOne (neg : Bool) : Val := .fin neg (2 ^ 200 - 1) (2 ^ 200)

/-- One sub-element of RCP to TANH (R125). -/
def sfuUnary (op : SfuOp) (t : Nat) (mode : Mode) (x : Nat) : Nat :=
  let tap := kindOf t == .tapered
  let round := roundVal t mode
  let v := decodeVal t x
  match op, v with
  | _, .nan => round .nan
  | .rcp, v => round (Val.div tap (.fin false 1 1) v)
  | .rsqrt, .inf neg => round (if neg then .nan else .fin false 0 1)
  | .rsqrt, .fin neg n d =>
    if n = 0 then round (if tap then .nan else .inf neg)
    else if neg then round .nan else round (sqrtVal d n)
  | .sqrt, .inf neg => round (if neg then .nan else .inf false)
  | .sqrt, .fin neg n d =>
    if n = 0 then round (.fin neg 0 1) else if neg then round .nan else round (sqrtVal n d)
  | .exp2, .inf neg => round (if neg then .fin false 0 1 else .inf false)
  | .exp2, .fin neg n d =>
    if n ≥ 2048 * d then round (scaled false 1 (if neg then -2048 else 2048))
    else if n % d = 0 then round (scaled false 1 (signedNum neg (n / d)))
    else zivRound t mode (fun p => exp2Encl p neg n d) 9 (startPrec n d)
  | .log2, .inf neg => round (if neg then .nan else .inf false)
  | .log2, .fin neg n d =>
    if n = 0 then round (if tap then .nan else .inf true)
    else if neg then round .nan
    else
      let k := floorLog2 n d
      if n * 2 ^ (-k).toNat = d * 2 ^ k.toNat then round (Val.ofInt k)
      else zivRound t mode (fun p => (log2Encl p n d, 0)) 9 128
  | .sin, .inf _ => round .nan
  | .sin, .fin neg n d =>
    if n = 0 then round (.fin neg 0 1)
    else withSign t neg (zivRound t (if neg then mirrored mode else mode) (fun p => (trigEncl p true n d, 0)) 9 (startPrec n d))
  | .cos, .inf _ => round .nan
  | .cos, .fin _ n d =>
    if n = 0 then round (.fin false 1 1)
    else zivRound t mode (fun p => (trigEncl p false n d, 0)) 9 (startPrec n d)
  | .tanh, .inf neg => round (.fin neg 1 1)
  | .tanh, .fin neg n d =>
    if n = 0 then round (.fin neg 0 1)
    else if n ≥ 128 * d then round (justBelowOne neg)
    else withSign t neg (zivRound t (if neg then mirrored mode else mode) (fun p => (tanhEncl p n d, 0)) 9 (startPrec n d))

/-- One sub-element of DIV (R125). -/
def sfuDiv (t : Nat) (mode : Mode) (x y : Nat) : Nat :=
  roundVal t mode (Val.div (kindOf t == .tapered) (decodeVal t x) (decodeVal t y))

/-- One sub-element of IDIV (R126). -/
def intDiv (t x y : Nat) : Nat :=
  if intOf t y = 0 then 2 ^ widthOf t - 1 else lowBits (widthOf t) (Int.tdiv (intOf t x) (intOf t y))

/-- One sub-element of IREM (R126). -/
def intRem (t x y : Nat) : Nat :=
  if intOf t y = 0 then x % 2 ^ widthOf t else lowBits (widthOf t) (Int.tmod (intOf t x) (intOf t y))

end Sys2Proof.Machine
end

