-- ==== Sys2Proof/Machine/Sfu.lean ====
section
/-! DEFINITION. The special-function unit (R124 to R127): its instructions, and the start and the arrival of an operation. -/

namespace Sys2Proof.Machine

/-- Result queue of a pipe. -/
def Core.sfuQueue (c : Core) (pipe : Nat) : List (Nat × Nat) := if pipe = 0 then c.sfu0 else c.sfu1

/-- Replaces the result queue of a pipe. -/
def Core.setSfuQueue (c : Core) (pipe : Nat) (q : List (Nat × Nat)) : Core :=
  if pipe = 0 then { c with sfu0 := q } else { c with sfu1 := q }

/-- Latency and busy cycles of an operation on a type code (R127): rows 0 for RCP, RSQRT, SQRT, EXP2 and LOG2, 1 for SIN, COS and TANH, 2 for
DIV, 3 for IDIV and IREM. -/
def sfuTimes (row t : Nat) : Nat × Nat :=
  if row = 3 then
    (match widthOf t with
     | 8 => (16, 8)
     | 16 => (20, 8)
     | 32 => (28, 8)
     | _ => (40, 16))
  else
    let more := if row = 1 then 6 else if row = 2 then 4 else 0
    match t with
    | 12 => (14 + more, 8)
    | 10 | 14 => (18 + more, 4)
    | 11 => ((if row = 2 then 40 else 30 + more), 8)
    | _ => (12 + more, 4)

/-- Row of R127's table that a function of minor 0 stands in. -/
def SfuOp.row : SfuOp → Nat
  | .sin | .cos | .tanh => 1
  | _ => 0

/-- An SFU instruction (R127): checks, an entry of the pipe's queue, the counter, and a window of LA. -/
def State.sfuOp (st : State) (i : Instr) (f : Form) (d : Nat) (times : Nat × Nat) (reads : Env → List Read) (writes : Env → List CellWrite) :
    Host.Outcome State Fault Refusal :=
  st.issue f (infoWord i) fun e st =>
    match e.poisonTrap (reads e) with
    | some t => .trap t none
    | none =>
      let pipe := e.g.pipe
      if 16 ≤ (e.core.sfuQueue pipe).length ∨ !e.room .sfu then .wait st
      else
        let (s, op) := st.launchOp e.gid .sfu e.src (.sfu pipe times.1 times.2 none (writes e))
        .next ((s.openWindow e.gid op e.src e.hints.la [e.reg d]).onCore e.g.core fun c =>
          c.setSfuQueue pipe (c.sfuQueue pipe ++ [(e.gid, op)]))

/-- RCP to TANH (R125): type field 0 to 6 stands for the codes 8 to 14. -/
def sfuA (i : Instr) (op : SfuOp) (t d a p : Nat) (st : State) : Host.Outcome State Fault Refusal :=
  let w := widthOf t
  st.sfuOp i (formA p d a { re := true, la := true }) d (sfuTimes op.row t) (fun e => e.subReads a (some p) w)
    (fun e => e.subWrites d (some p) w fun k l s => sfuUnary op t e.hints.mode (subOf w s (e.val k a l)))

/-- DIV, IDIV and IREM (R125, R126). -/
def sfuAB (i : Instr) (row t d a b p : Nat) (rounds : Bool) (f : Mode → Nat → Nat → Nat) (st : State) : Host.Outcome State Fault Refusal :=
  let w := widthOf t
  st.sfuOp i (formAB p d a b { re := rounds, la := true }) d (sfuTimes row t) (fun e => e.subReads a (some p) w ++ e.bReads b (some p) w)
    (fun e => e.subWrites d (some p) w fun k l s => f e.hints.mode (subOf w s (e.val k a l)) (e.bSub b w k l s))

/-- RCP.T (R125). -/
def execRcp (t : BitVec 3) (d a : BitVec 6) (p : BitVec 3) (st : State) : Host.Outcome State Fault Refusal :=
  sfuA (.rcp t d a p) .rcp (8 + t.toNat) d.toNat a.toNat p.toNat st
/-- RSQRT.T (R125). -/
def execRsqrt (t : BitVec 3) (d a : BitVec 6) (p : BitVec 3) (st : State) : Host.Outcome State Fault Refusal :=
  sfuA (.rsqrt t d a p) .rsqrt (8 + t.toNat) d.toNat a.toNat p.toNat st
/-- SQRT.T (R125). -/
def execSqrt (t : BitVec 3) (d a : BitVec 6) (p : BitVec 3) (st : State) : Host.Outcome State Fault Refusal :=
  sfuA (.sqrt t d a p) .sqrt (8 + t.toNat) d.toNat a.toNat p.toNat st
/-- EXP2.T (R125). -/
def execExp2 (t : BitVec 3) (d a : BitVec 6) (p : BitVec 3) (st : State) : Host.Outcome State Fault Refusal :=
  sfuA (.exp2 t d a p) .exp2 (8 + t.toNat) d.toNat a.toNat p.toNat st
/-- LOG2.T (R125). -/
def execLog2 (t : BitVec 3) (d a : BitVec 6) (p : BitVec 3) (st : State) : Host.Outcome State Fault Refusal :=
  sfuA (.log2 t d a p) .log2 (8 + t.toNat) d.toNat a.toNat p.toNat st
/-- SIN.T (R125). -/
def execSin (t : BitVec 3) (d a : BitVec 6) (p : BitVec 3) (st : State) : Host.Outcome State Fault Refusal :=
  sfuA (.sin t d a p) .sin (8 + t.toNat) d.toNat a.toNat p.toNat st
/-- COS.T (R125). -/
def execCos (t : BitVec 3) (d a : BitVec 6) (p : BitVec 3) (st : State) : Host.Outcome State Fault Refusal :=
  sfuA (.cos t d a p) .cos (8 + t.toNat) d.toNat a.toNat p.toNat st
/-- TANH.T (R125). -/
def execTanh (t : BitVec 3) (d a : BitVec 6) (p : BitVec 3) (st : State) : Host.Outcome State Fault Refusal :=
  sfuA (.tanh t d a p) .tanh (8 + t.toNat) d.toNat a.toNat p.toNat st
/-- DIV.T (R125). -/
def execDiv (t : BitVec 3) (d a b : BitVec 6) (p : BitVec 3) (st : State) : Host.Outcome State Fault Refusal :=
  sfuAB (.div t d a b p) 2 (8 + t.toNat) d.toNat a.toNat b.toNat p.toNat true (fun m => sfuDiv (8 + t.toNat) m) st
/-- IDIV.T (R126). -/
def execIdiv (t : BitVec 3) (d a b : BitVec 6) (p : BitVec 3) (st : State) : Host.Outcome State Fault Refusal :=
  sfuAB (.idiv t d a b p) 3 t.toNat d.toNat a.toNat b.toNat p.toNat false (fun _ => intDiv t.toNat) st
/-- IREM.T (R126). -/
def execIrem (t : BitVec 3) (d a b : BitVec 6) (p : BitVec 3) (st : State) : Host.Outcome State Fault Refusal :=
  sfuAB (.irem t d a b p) 3 t.toNat d.toNat a.toNat b.toNat p.toNat false (fun _ => intRem t.toNat) st

/-- Core cycle at which the result of a started operation arrives. -/
def State.sfuArrives (st : State) (x : Nat × Nat) : Option Nat :=
  match st.work? x.1 x.2 with
  | some (.sfu _ _ _ a _) => a
  | _ => none

/-- SFU_START (R127 step 4): once the unit is free, the first queued operation that has not started starts and holds it. -/
def execSfuStart (core pipe : Nat) (st : State) : Host.Outcome State Fault Refusal :=
  let c := st.core core
  match (c.sfuQueue pipe).find? fun x => (st.sfuArrives x).isNone with
  | none => .next st
  | some (gid, op) => match st.work? gid op with
    | some (.sfu q n busy _ ws) =>
      if NMap.get c.sfuFree 0 pipe ≤ c.cycle.toNat then
        .next ((st.onGroup gid fun g => g.onOp op fun _ => .sfu q n busy (some (c.cycle.toNat + n)) ws).onCore core fun c =>
          { c with sfuFree := NMap.put c.sfuFree pipe (c.cycle.toNat + busy) })
      else .next st
    | _ => .next st

/-- The started operation of a pipe whose result arrives first: the earliest cycle, the older one at a tie. -/
def State.sfuFirst (st : State) : List (Nat × Nat) → Option ((Nat × Nat) × Nat)
  | [] => none
  | x :: rest =>
    match st.sfuArrives x, st.sfuFirst rest with
    | some n, some (y, m) => if m < n then some (y, m) else some (x, n)
    | some n, none => some (x, n)
    | none, r => r

/-- SFU_RESULT (R127 step 5): a result arrives its latency after its operation started; its entry frees, its deferred write may be made and
the counter falls in order. -/
def execSfuResult (core pipe : Nat) (st : State) : Host.Outcome State Fault Refusal :=
  match st.sfuFirst ((st.core core).sfuQueue pipe) with
  | none => .next st
  | some ((gid, op), cycle) =>
    if (st.core core).cycle.toNat < cycle then .next st
    else
      let ws := match st.work? gid op with
        | some (.sfu _ _ _ _ ws) => ws
        | _ => []
      let s := st.onCore core fun c =>
        { c.setSfuQueue pipe ((c.sfuQueue pipe).filter (· != (gid, op))) with wrote := NMap.put c.wrote pipe { op := some op } }
      .next ((s.arrive gid op ws).onGroup gid fun g => g.finish op)

end Sys2Proof.Machine
end

