-- ==== Sys2Proof/Machine/Start.lean ====
section
/-! DEFINITION. COLD_START and WARM_START (R391). -/

namespace Sys2Proof.Machine

/-- Dies after the checks of a start: one whose image or bitstream does not verify stays in boot (R272, R391 steps 1 and 5). -/
def bootDies : NMap Die := ((List.range 4).filter fun d => !Config.imageVerifies d).map fun d => (d, { boot := true })

/-- The package after a cold start; the host's memory is not the package's, and the turns to come are the model's own. -/
def State.cold (st : State) : State :=
  { State.reset with
    dies := bootDies
    clock := st.clock
    sched := st.sched
    free := st.free
    mem := NMap.keep st.mem fun a _ => isHost a
    poison := NMap.keep st.poison fun w _ => isHost (8 * w) }

/-- COLD_START (R391): contexts, queues, mappings, L2 and every ECTR counter are reset, and the time base restarts at 0 (log 46). -/
def execColdStart (st : State) : Host.Outcome State Fault Refusal := .next st.cold

/-- WARM_START (R391): with WARMOK 1, HBM4E contents, ECTR counters and the time base are kept, and with them the rows that HBM4E has lost and
the rails and ports that have failed, which only a DIEON or a cold start brings back (R388); with WARMOK 0 the start is cold (log 46). -/
def execWarmStart (st : State) : Host.Outcome State Fault Refusal :=
  if st.host.cfg.getLsbD 1 then
    .next { st.cold with
      mem := st.mem
      poison := st.poison
      tests := st.tests.filter fun t => match t.unit with
        | .hbmRow _ _ => true
        | _ => false
      irend := st.irend.map fun (e : Nat × Irend) => (e.1, { failed := e.2.failed, down := e.2.down })
      ectr := st.ectr
      time := st.time
      warm := true }
  else .next st.cold

end Sys2Proof.Machine
end

