-- ==== Sys2Proof/Machine/Dispatch.lean ====
section
/-! DEFINITION. The dispatch of every row of the opcode table to its meaning. -/

namespace Sys2Proof.Machine

def exec (ins : Instr) (st : State) : Host.Outcome State Fault Refusal :=
  match ins with
  | .illegal i => Sys2Proof.Machine.execIllegal i st
  | .nop x => Sys2Proof.Machine.execNop x st
  | .syscall c => Sys2Proof.Machine.execSyscall c st
  | .crrd d n => Sys2Proof.Machine.execCrrd d n st
  | .crwr s n => Sys2Proof.Machine.execCrwr s n st
  | .enq a q => Sys2Proof.Machine.execEnq a q st
  | .himm i => Sys2Proof.Machine.execHimm i st
  | .himmhi i => Sys2Proof.Machine.execHimmhi i st
  | .hmod e r s n x o c k => Sys2Proof.Machine.execHmod e r s n x o c k st
  | .hsched y l => Sys2Proof.Machine.execHsched y l st
  | .hoff o => Sys2Proof.Machine.execHoff o st
  | .bra o => Sys2Proof.Machine.execBra o st
  | .braGuarded p o => Sys2Proof.Machine.execBraGuarded p o st
  | .braAny p o => Sys2Proof.Machine.execBraAny p o st
  | .braAll p o => Sys2Proof.Machine.execBraAll p o st
  | .reconv k o => Sys2Proof.Machine.execReconv k o st
  | .join k => Sys2Proof.Machine.execJoin k st
  | .exit p => Sys2Proof.Machine.execExit p st
  | .brx t p => Sys2Proof.Machine.execBrx t p st
  | .call d o => Sys2Proof.Machine.execCall d o st
  | .ialuAdd t d a b p => Sys2Proof.Machine.execIaluAdd t d a b p st
  | .ialuSub t d a b p => Sys2Proof.Machine.execIaluSub t d a b p st
  | .ialuMul t d a b p => Sys2Proof.Machine.execIaluMul t d a b p st
  | .ialuMin t d a p => Sys2Proof.Machine.execIaluMin t d a p st
  | .ialuMax t d a p => Sys2Proof.Machine.execIaluMax t d a p st
  | .ialuNeg t d a p => Sys2Proof.Machine.execIaluNeg t d a p st
  | .ialuAbs t d a p => Sys2Proof.Machine.execIaluAbs t d a p st
  | .absdiff t d a p => Sys2Proof.Machine.execAbsdiff t d a p st
  | .avg t d a p => Sys2Proof.Machine.execAvg t d a p st
  | .mulhi t d a p => Sys2Proof.Machine.execMulhi t d a p st
  | .mulw t d a p => Sys2Proof.Machine.execMulw t d a p st
  | .addw t d a p => Sys2Proof.Machine.execAddw t d a p st
  | .subw t d a p => Sys2Proof.Machine.execSubw t d a p st
  | .ialuiAdd t d a i => Sys2Proof.Machine.execIaluiAdd t d a i st
  | .movImm d i => Sys2Proof.Machine.execMovImm d i st
  | .lop t d a b p => Sys2Proof.Machine.execLop t d a b p st
  | .shl t d a b p => Sys2Proof.Machine.execShl t d a b p st
  | .shr t d a b p => Sys2Proof.Machine.execShr t d a b p st
  | .bfx d a b p => Sys2Proof.Machine.execBfx d a b p st
  | .bfxs d a b p => Sys2Proof.Machine.execBfxs d a b p st
  | .bfi d a b p => Sys2Proof.Machine.execBfi d a b p st
  | .popc d a p => Sys2Proof.Machine.execPopc d a p st
  | .clz d a p => Sys2Proof.Machine.execClz d a p st
  | .ctz d a p => Sys2Proof.Machine.execCtz d a p st
  | .brev d a p => Sys2Proof.Machine.execBrev d a p st
  | .rol d a b p => Sys2Proof.Machine.execRol d a b p st
  | .ror d a b p => Sys2Proof.Machine.execRor d a b p st
  | .lopi t d a i => Sys2Proof.Machine.execLopi t d a i st
  | .cmp t c q a b p => Sys2Proof.Machine.execCmp t c q a b p st
  | .sel t d a b p => Sys2Proof.Machine.execSel t d a b p st
  | .plop t d a b p => Sys2Proof.Machine.execPlop t d a b p st
  | .test t q a m p => Sys2Proof.Machine.execTest t q a m p st
  | .cmpi t c q a i => Sys2Proof.Machine.execCmpi t c q a i st
  | .faluAdd t d a b p => Sys2Proof.Machine.execFaluAdd t d a b p st
  | .faluSub t d a b p => Sys2Proof.Machine.execFaluSub t d a b p st
  | .faluMul t d a b p => Sys2Proof.Machine.execFaluMul t d a b p st
  | .faluMin t d a p => Sys2Proof.Machine.execFaluMin t d a p st
  | .faluMax t d a p => Sys2Proof.Machine.execFaluMax t d a p st
  | .faluNeg t d a p => Sys2Proof.Machine.execFaluNeg t d a p st
  | .faluAbs t d a p => Sys2Proof.Machine.execFaluAbs t d a p st
  | .rint t d a p => Sys2Proof.Machine.execRint t d a p st
  | .fma t d a b p => Sys2Proof.Machine.execFma t d a b p st
  | .mad t d a b p => Sys2Proof.Machine.execMad t d a b p st
  | .fms t d a b p => Sys2Proof.Machine.execFms t d a b p st
  | .fnma t d a b p => Sys2Proof.Machine.execFnma t d a b p st
  | .dot4 t d a b p => Sys2Proof.Machine.execDot4 t d a b p st
  | .cvt t d a s p => Sys2Proof.Machine.execCvt t d a s p st
  | .cvtFp8 f d a s p => Sys2Proof.Machine.execCvtFp8 f d a s p st
  | .routePick t d a b p => Sys2Proof.Machine.execRoutePick t d a b p st
  | .routeSlide t d a b p => Sys2Proof.Machine.execRouteSlide t d a b p st
  | .routeRot t d a b p => Sys2Proof.Machine.execRouteRot t d a b p st
  | .routeFlip t d a b p => Sys2Proof.Machine.execRouteFlip t d a b p st
  | .vote o d q p => Sys2Proof.Machine.execVote o d q p st
  | .reduce t d a o p => Sys2Proof.Machine.execReduce t d a o p st
  | .scan t d a x o p => Sys2Proof.Machine.execScan t d a x o p st
  | .matchB64 d a p => Sys2Proof.Machine.execMatchB64 d a p st
  | .rcp t d a p => Sys2Proof.Machine.execRcp t d a p st
  | .rsqrt t d a p => Sys2Proof.Machine.execRsqrt t d a p st
  | .sqrt t d a p => Sys2Proof.Machine.execSqrt t d a p st
  | .exp2 t d a p => Sys2Proof.Machine.execExp2 t d a p st
  | .log2 t d a p => Sys2Proof.Machine.execLog2 t d a p st
  | .sin t d a p => Sys2Proof.Machine.execSin t d a p st
  | .cos t d a p => Sys2Proof.Machine.execCos t d a p st
  | .tanh t d a p => Sys2Proof.Machine.execTanh t d a p st
  | .div t d a b p => Sys2Proof.Machine.execDiv t d a b p st
  | .idiv t d a b p => Sys2Proof.Machine.execIdiv t d a b p st
  | .irem t d a b p => Sys2Proof.Machine.execIrem t d a b p st
  | .ld l d b p w => Sys2Proof.Machine.execLd l d b p w st
  | .lda l d b p w s => Sys2Proof.Machine.execLda l d b p w s st
  | .st s b p w => Sys2Proof.Machine.execSt s b p w st
  | .str s b p w c => Sys2Proof.Machine.execStr s b p w c st
  | .atomAdd l d b p o s => Sys2Proof.Machine.execAtomAdd l d b p o s st
  | .atomMinI l d b p o s => Sys2Proof.Machine.execAtomMinI l d b p o s st
  | .atomMaxI l d b p o s => Sys2Proof.Machine.execAtomMaxI l d b p o s st
  | .atomMinN l d b p o s => Sys2Proof.Machine.execAtomMinN l d b p o s st
  | .atomMaxN l d b p o s => Sys2Proof.Machine.execAtomMaxN l d b p o s st
  | .atomAnd l d b p o s => Sys2Proof.Machine.execAtomAnd l d b p o s st
  | .atomOr l d b p o s => Sys2Proof.Machine.execAtomOr l d b p o s st
  | .atomXor l d b p o s => Sys2Proof.Machine.execAtomXor l d b p o s st
  | .atomXchg l d b p o s => Sys2Proof.Machine.execAtomXchg l d b p o s st
  | .atomCas l d b p o s => Sys2Proof.Machine.execAtomCas l d b p o s st
  | .atomFadd l d b p o => Sys2Proof.Machine.execAtomFadd l d b p o st
  | .fence s => Sys2Proof.Machine.execFence s st
  | .wait t h => Sys2Proof.Machine.execWait t h st
  | .pop d n p => Sys2Proof.Machine.execPop d n p st
  | .push s n p => Sys2Proof.Machine.execPush s n p st
  | .qld i n k => Sys2Proof.Machine.execQld i n k st
  | .qst i n k => Sys2Proof.Machine.execQst i n k st
  | .yopReg d a o b => Sys2Proof.Machine.execYopReg d a o b st
  | .yopImm d a o i => Sys2Proof.Machine.execYopImm d a o i st
  | .yopHrd d a s => Sys2Proof.Machine.execYopHrd d a s st
  | .yopHwait a => Sys2Proof.Machine.execYopHwait a st
  | .ybr a b c o => Sys2Proof.Machine.execYbr a b c o st
  | .adone => Sys2Proof.Machine.execAdone st
  | .hrd d k p s => Sys2Proof.Machine.execHrd d k p s st
  | .hwr d k p s => Sys2Proof.Machine.execHwr d k p s st
  | .tcfg t s => Sys2Proof.Machine.execTcfg t s st
  | .tld t b => Sys2Proof.Machine.execTld t b st
  | .tst t b => Sys2Proof.Machine.execTst t b st
  | .tzero t => Sys2Proof.Machine.execTzero t st
  | .ttrans d s => Sys2Proof.Machine.execTtrans d s st
  | .mma k f a b => Sys2Proof.Machine.execMma k f a b st
  | .mmaExact k f a b => Sys2Proof.Machine.execMmaExact k f a b st
  | .mmaSb k f a b => Sys2Proof.Machine.execMmaSb k f a b st
  | .mmaWide k f a b => Sys2Proof.Machine.execMmaWide k f a b st
  | .zrd k r d => Sys2Proof.Machine.execZrd k r d st
  | .zclr k n => Sys2Proof.Machine.execZclr k n st
  | .zld k b n => Sys2Proof.Machine.execZld k b n st
  | .zst k b => Sys2Proof.Machine.execZst k b st
  | .copy r => Sys2Proof.Machine.execCopy r st
  | .copyh d s => Sys2Proof.Machine.execCopyh d s st
  | .gather i r p w => Sys2Proof.Machine.execGather i r p w st
  | .recfence r => Sys2Proof.Machine.execRecfence r st
  | .barinit m b k => Sys2Proof.Machine.execBarinit m b k st
  | .arrive t b => Sys2Proof.Machine.execArrive t b st
  | .waitb t b => Sys2Proof.Machine.execWaitb t b st
  | .barsync b => Sys2Proof.Machine.execBarsync b st
  | .barmask m b k => Sys2Proof.Machine.execBarmask m b k st
  | .discard l b => Sys2Proof.Machine.execDiscard l b st
  | .adobeq d s p k => Sys2Proof.Machine.execAdobeq d s p k st
  | .tlbinv l a k => Sys2Proof.Machine.execTlbinv l a k st
  | .mappg d a k => Sys2Proof.Machine.execMappg d a k st
  | .fretResume => Sys2Proof.Machine.execFretResume st
  | .fretEscalate => Sys2Proof.Machine.execFretEscalate st
  | .fretKill => Sys2Proof.Machine.execFretKill st
  | .fretPoolEmpty => Sys2Proof.Machine.execFretPoolEmpty st
  | .burn s p => Sys2Proof.Machine.execBurn s p st
  | .shunt s p => Sys2Proof.Machine.execShunt s p st
  | .balrd d p => Sys2Proof.Machine.execBalrd d p st
  | .balclass s p => Sys2Proof.Machine.execBalclass s p st
  | .trap c => Sys2Proof.Machine.execTrap c st
  | .bkpt g => Sys2Proof.Machine.execBkpt g st
  | .ret => Sys2Proof.Machine.execRet st
  | .unwind t => Sys2Proof.Machine.execUnwind t st
  | .callx t d => Sys2Proof.Machine.execCallx t d st
  | .rand t d p => Sys2Proof.Machine.execRand t d p st
  | .seed a b p => Sys2Proof.Machine.execSeed a b p st
  | .catsample t d a p => Sys2Proof.Machine.execCatsample t d a p st
  | .granuleGrant core => Sys2Proof.Machine.execGranuleGrant core st
  | .siltTrigger core => Sys2Proof.Machine.execSiltTrigger core st
  | .siltSpill core => Sys2Proof.Machine.execSiltSpill core st
  | .frameRefill gid => Sys2Proof.Machine.execFrameRefill gid st
  | .loadReturn gid op => Sys2Proof.Machine.execLoadReturn gid op st
  | .storePerformed gid op => Sys2Proof.Machine.execStorePerformed gid op st
  | .atomicPerformed gid op => Sys2Proof.Machine.execAtomicPerformed gid op st
  | .sfuStart core pipe => Sys2Proof.Machine.execSfuStart core pipe st
  | .sfuResult core pipe => Sys2Proof.Machine.execSfuResult core pipe st
  | .queueEntryFill gid op => Sys2Proof.Machine.execQueueEntryFill gid op st
  | .qstWritePerformed gid op => Sys2Proof.Machine.execQstWritePerformed gid op st
  | .handlerEntry gid => Sys2Proof.Machine.execHandlerEntry gid st
  | .handlerFrameGrant gid => Sys2Proof.Machine.execHandlerFrameGrant gid st
  | .groupSave gid => Sys2Proof.Machine.execGroupSave gid st
  | .groupDrained gid => Sys2Proof.Machine.execGroupDrained gid st
  | .barrierArrival gid => Sys2Proof.Machine.execBarrierArrival gid st
  | .enqAppend gid op => Sys2Proof.Machine.execEnqAppend gid op st
  | .copyComplete core => Sys2Proof.Machine.execCopyComplete core st
  | .matrixOpStart core gid => Sys2Proof.Machine.execMatrixOpStart core gid st
  | .matrixOpComplete core => Sys2Proof.Machine.execMatrixOpComplete core st
  | .errorDetection unit site => Sys2Proof.Machine.execErrorDetection unit site st
  | .selfTestPass unit reproduced => Sys2Proof.Machine.execSelfTestPass unit reproduced st
  | .occurrenceExpiry unit => Sys2Proof.Machine.execOccurrenceExpiry unit st
  | .issueResume core => Sys2Proof.Machine.execIssueResume core st
  | .estimateWindowEnd core => Sys2Proof.Machine.execEstimateWindowEnd core st
  | .midpointSample upper dev => Sys2Proof.Machine.execMidpointSample upper dev st
  | .throttleRelease core => Sys2Proof.Machine.execThrottleRelease core st
  | .imbalanceTrap upper => Sys2Proof.Machine.execImbalanceTrap upper st
  | .wakeRegisterWrite queue => Sys2Proof.Machine.execWakeRegisterWrite queue st
  | .queueScan die slot => Sys2Proof.Machine.execQueueScan die slot st
  | .queueMap die queue => Sys2Proof.Machine.execQueueMap die queue st
  | .clusterPlacement launch cluster => Sys2Proof.Machine.execClusterPlacement launch cluster st
  | .startTimeReached launch => Sys2Proof.Machine.execStartTimeReached launch st
  | .teamCompletion team => Sys2Proof.Machine.execTeamCompletion team st
  | .versionCommit team => Sys2Proof.Machine.execVersionCommit team st
  | .spatialPreemption launch cluster origin => Sys2Proof.Machine.execSpatialPreemption launch cluster origin st
  | .teamRestore team => Sys2Proof.Machine.execTeamRestore team st
  | .placementTimeout launch cluster => Sys2Proof.Machine.execPlacementTimeout launch cluster st
  | .hotSpotMigration die => Sys2Proof.Machine.execHotSpotMigration die st
  | .gangKill gang => Sys2Proof.Machine.execGangKill gang st
  | .gangRelaunch gang => Sys2Proof.Machine.execGangRelaunch gang st
  | .stallSample sample => Sys2Proof.Machine.execStallSample sample st
  | .plotRequest die plot code => Sys2Proof.Machine.execPlotRequest die plot code st
  | .railSwitchSettle die plot => Sys2Proof.Machine.execRailSwitchSettle die plot st
  | .frequencyStep die plot => Sys2Proof.Machine.execFrequencyStep die plot st
  | .droopInjection die plot sensed => Sys2Proof.Machine.execDroopInjection die plot sensed st
  | .injectionEnd die plot => Sys2Proof.Machine.execInjectionEnd die plot st
  | .plotctlWrite die plot value => Sys2Proof.Machine.execPlotctlWrite die plot value st
  | .dieOffline die byFault => Sys2Proof.Machine.execDieOffline die byFault st
  | .slicecfgWrite slice value => Sys2Proof.Machine.execSlicecfgWrite slice value st
  | .registerWrite offset value => Sys2Proof.Machine.execRegisterWrite offset value st
  | .hbmRequestSlot stack pending => Sys2Proof.Machine.execHbmRequestSlot stack pending st
  | .pageWalk core ctx va => Sys2Proof.Machine.execPageWalk core ctx va st
  | .pinnedRetry gid op => Sys2Proof.Machine.execPinnedRetry gid op st
  | .hostRead id addr len => Sys2Proof.Machine.execHostRead id addr len st
  | .hostPostedWrite addr bytes => Sys2Proof.Machine.execHostPostedWrite addr bytes st
  | .hostReadAbort id => Sys2Proof.Machine.execHostReadAbort id st
  | .ringRecordWrite ring => Sys2Proof.Machine.execRingRecordWrite ring st
  | .msixDeferredSend ring => Sys2Proof.Machine.execMsixDeferredSend ring st
  | .setctxt pa => Sys2Proof.Machine.execSetctxt pa st
  | .setqt pa => Sys2Proof.Machine.execSetqt pa st
  | .map ctx va attr kind => Sys2Proof.Machine.execMap ctx va attr kind st
  | .unmap ctx va => Sys2Proof.Machine.execUnmap ctx va st
  | .inval kind ctx va len => Sys2Proof.Machine.execInval kind ctx va len st
  | .icinv => Sys2Proof.Machine.execIcinv st
  | .resume tag action => Sys2Proof.Machine.execResume tag action st
  | .kill task cluster => Sys2Proof.Machine.execKill task cluster st
  | .sysret tag result => Sys2Proof.Machine.execSysret tag result st
  | .dieon die => Sys2Proof.Machine.execDieon die st
  | .attest nonce addr => Sys2Proof.Machine.execAttest nonce addr st
  | .attestReport => Sys2Proof.Machine.execAttestReport st
  | .timeset time => Sys2Proof.Machine.execTimeset time st
  | .frameReceive port frame => Sys2Proof.Machine.execFrameReceive port frame st
  | .flitGroupReceive port flits => Sys2Proof.Machine.execFlitGroupReceive port flits st
  | .flitTimeout port rail => Sys2Proof.Machine.execFlitTimeout port rail st
  | .linkTransferStart die ring => Sys2Proof.Machine.execLinkTransferStart die ring st
  | .linkRemoteTransfer dst rsig bytes => Sys2Proof.Machine.execLinkRemoteTransfer dst rsig bytes st
  | .linkAck die ring => Sys2Proof.Machine.execLinkAck die ring st
  | .coldStart => Sys2Proof.Machine.execColdStart st
  | .warmStart => Sys2Proof.Machine.execWarmStart st
  | .wordNotAnInstruction w => Sys2Proof.Machine.execWordNotAnInstruction w st
  | .droopClear die plot => Sys2Proof.Machine.execDroopClear die plot st
  | .contextTeardown ctx => Sys2Proof.Machine.execContextTeardown ctx st
  | .commandBadOpcode op => Sys2Proof.Machine.execCommandBadOpcode op st
  | .ieee1588MessageSend port => Sys2Proof.Machine.execIeee1588MessageSend port st

end Sys2Proof.Machine
end

