-- ==== Sys2Proof/Machine/Turns.lean ====
section
/-! DEFINITION. What a step consists of: the next turn (log 1), the time and the clock edges that pass (R196, R199, R302, R305, R307), which
group and slot issue (R36, R185, R195), and the fetch of a word (R60, R326, R363). -/

namespace Sys2Proof.Machine

/-- What a turn comes to: a state without an instruction, or an instruction to carry out in a state. -/
inductive Todo where
  | still (st : State)
  | run (i : Instr) (st : State)
  /-- a trial of a waiting stream's instruction, to see whether it still waits; only the state before it goes on -/
  | probe (i : Instr) (trial back : State) (gid : Nat) (src : Source)
  deriving DecidableEq, Repr

/-! ### Time and clock edges -/

/-- Edges of a phase among n edges that follow e. -/
def phaseCount (e n k : Nat) : Nat := (e + n + 3 - k) / 4 - (e + 3 - k) / 4

/-- Edges of a core that are suppressed among the next n: one in four while it is throttled (R199), and one in four after a denied
injection of its plot (R305). -/
def Core.suppressed (c : Core) (denied : Bool) (n : Nat) : Nat :=
  (if c.throttled then phaseCount c.edge n 3 else 0) + (if denied then phaseCount c.edge n 1 else 0)

/-- A core has a LIVE group, and some slot of a group on it waits on memory (R302) (log 47). -/
def State.memoryStalled (st : State) (core : Nat) : Bool :=
  !(st.liveGroups core).isEmpty && (st.groupsOn core).any fun g => [g.a, g.b, g.h].any fun s => s.life == .stalled && s.onMemory

/-- Groups of each context on a core that are LIVE, STOPPED or DRAINING (R307). -/
def State.addShares (st : State) (core n : Nat) (m : NMap Nat) : NMap Nat :=
  (st.groups.filter fun e => e.2.core == core && (e.2.life == .live || e.2.life == .stopped || e.2.life == .draining)).foldl
    (fun (m : NMap Nat) (e : Nat × Group) => let c := (st.team e.2.team).ctx
      NMap.store m 0 c (NMap.get m 0 c + n)) m

/-- Of so many executed cycles, those in which the stream engine is busy: it has issued in the first, and sends a line request in each while
some are left; a cycle that does both counts once (R195, R196). -/
def Core.streamBusy (c : Core) (ran : Nat) : Nat := max (if c.streamNow then min 1 ran else 0) (min ran c.toSend)

/-- n clock edges of a core pass. The cycles that have an issue, and those in which a unit is busy, come first; activity in the cycles that the
window of 64 does not take any more belongs to the next (R196). -/
def State.passEdges (st : State) (core n : Nat) : State :=
  let plot := st.plot (plotOf core)
  st.onCore core fun c =>
    let lost := c.suppressed plot.denied n
    let ran := n - lost
    let busy := min ran (c.unitFree - c.cycle.toNat)
    let sends := c.streamBusy ran
    let room := 64 - c.window
    { c with
      edge := (c.edge + n) % 4
      cycle := c.cycle + BitVec.ofNat 64 ran
      stretch := c.stretch + BitVec.ofNat 32 lost
      cyc := c.cyc + ran
      issues := if c.issuedNow ∧ 0 < ran then c.issues + 1 else c.issues
      issuedNow := c.issuedNow && ran == 0
      streamNow := c.streamNow && ran == 0
      toSend := c.toSend - ran
      mstall := if st.memoryStalled core then c.mstall + (ran - max busy (if c.issuedNow then 1 else 0)) else c.mstall
      act := c.act + min room sends + 2 * min room busy
      actNext := c.actNext + (sends - room) + 2 * (busy - room)
      window := c.window + ran
      silt := { c.silt with count := if c.blocked.isEmpty then 0 else min 256 (c.silt.count + (ran - if c.issuedNow || c.streamNow then 1 else 0)) }
      share := st.addShares core n c.share }

/-- A core has power: its die is in service, or it still saves teams after a thermal emergency (R308, R337). -/
def State.powered (st : State) (core : Nat) : Bool :=
  let d := st.die (dieOf core)
  !d.offline || (d.thermal && !(st.teamsOn core).isEmpty)

/-- A nanosecond of a plot: its clock advances by its frequency, and its four cores have its edges (R300, R313). -/
def State.tickPlot (st : State) (k : Nat) : State :=
  let phase := (st.plot k).phase + 350 + 50 * (st.plot k).fcur
  let n := phase / 1000
  let st := st.onPlot k fun p => { p with phase := phase % 1000, cycle := p.cycle + n }
  if n = 0 then st else (plotCores k).foldl (fun s c => if s.powered c then s.passEdges c n else s) st

/-- A nanosecond passes. -/
def State.tick (st : State) : State := (List.range 160).foldl State.tickPlot { st with time := st.time + 1, clock := st.clock + 1 }

/-- A timed event of a plot is due: a step 40 ns after the last, a rail 20 ns after its ramp began, the governor's request 200 ns after its
sample, the end of an injection, or an injection (R303, R304, R305, R314). -/
def Plot.due (p : Plot) (clock : Nat) : Bool :=
  (p.dvfs == .step && decide (p.since + 40 ≤ clock)) || (p.dvfs == .rail && decide (p.since + 20 ≤ clock)) ||
    (p.request.isSome && decide (p.askedAt + 200 ≤ clock)) || (p.injecting && p.injections.all fun s => decide (s.2 ≤ p.cycle)) || p.injectionDue

/-- An event of a core is due: the end of its estimate window, of its throttle, or the imbalance trap of its pair (R196, R199, R200). -/
def Core.due (c : Core) : Bool := decide (64 ≤ c.window) || (c.throttled && decide (100 ≤ c.calm)) || decide (200 ≤ c.overs)

/-- A timed event is due: time does not pass before it has taken place (log 67). -/
def State.due (st : State) : Bool :=
  st.sampleDue || (st.plots.any fun e => e.2.due st.clock) || (st.cores.any fun e => e.2.due) || st.thermalReady || st.host.reads.any st.abortDue

/-- So many nanoseconds pass, or as many as pass before a timed event is due. -/
def State.elapse (st : State) : Nat → State
  | 0 => st
  | n + 1 => if st.due then st else st.tick.elapse n

/-- The next turn: the first one listed, or a free one. -/
def State.nextTurn (st : State) : Turn × State :=
  match st.sched with
  | t :: rest => (t, { st with sched := rest })
  | [] => (Config.turn st.free, { st with free := st.free + 1 })

/-! ### Who issues -/

/-- A core that issues for a source: not in MODE 3, its pipes not paused (R189), and powered; on a die that a thermal emergency takes
offline, handlers go on to their ends (R292, R337). -/
def State.coreIssues (st : State) (core : Nat) (src : Source) : Bool :=
  let c := st.core core
  let d := st.die (dieOf core)
  !c.mode3 && (src == .access || !c.paused) && (!d.offline || (d.thermal && src == .handler))

/-- A slot that competes for issue: READY, or the waiting slot that is tried again. -/
def Group.competes (g : Group) (gid : Nat) (again : Option (Nat × Source)) (src : Source) : Bool :=
  g.mayIssue src && ((g.slot src).life == .ready || again == some (gid, src))

/-- The slot of a group that issues next (R36): the one that issued less recently, then slot A. -/
def Group.choice (g : Group) (gid : Nat) (again : Option (Nat × Source)) : Option Source :=
  let a := g.competes gid again .slotA
  let b := g.competes gid again .slotB
  if g.competes gid again .handler then some .handler
  else if a && b then some (match g.prefer with
    | some s => s
    | none => if g.b.issued < g.a.issued then .slotB else .slotA)
  else if a then some .slotA
  else if b then some .slotB
  else none

/-- The group of a pipe that issues next (R185): the one that issued least recently, then the lowest number. -/
def State.choice (st : State) (core pipe : Nat) (again : Option (Nat × Source)) : Option (Nat × Source) :=
  let able := st.groups.filter fun e => e.2.core == core && e.2.number / 16 == pipe && (e.2.choice e.1 again).isSome
  let before (x y : Nat × Group) : Bool := decide (x.2.issued < y.2.issued) || (x.2.issued == y.2.issued && decide (x.2.number < y.2.number))
  match able with
  | [] => none
  | e :: rest =>
    let best := rest.foldl (fun (b x : Nat × Group) => if before x b then x else b) e
    (best.2.choice best.1 again).map fun s => (best.1, s)

/-! ### Fetch (R60, R326, R363) -/

/-- Lanes that a failed fetch hands: those of the slot, or every live lane for the access stream. -/
def Env.fetchTrap (e : Env) (cause : Nat) : Trap :=
  let m := if e.src = .access then e.g.liveLanes else e.slot.mask
  { cause := cause, lanes := m, addr := inLanes (lanesOf m) e.slot.pc, info := if cause = 0x11 then inLanes (lanesOf m) (kindCode .fetch) else [] }

/-- Where a word is fetched from, or the cause that its fetch meets (log 21). -/
def State.fetchPlace (st : State) (e : Env) : Except Nat Nat :=
  let va := e.slot.pc.toNat
  if !canonical va || decide (onChip ≤ va) then .error 0x0E
  else match st.lookup e.who.core e.who.ctx e.who.root va with
    | .error c => .error c
    | .ok t => if t.permits .fetch e.who.handler then .ok (t.physical va) else .error 0x0E

/-- A core's instruction cache without a line. -/
def Core.dropCode (c : Core) (line : Nat) : Core :=
  { c with icodes := c.icodes.filter (· != line), icache := NMap.keep c.icache fun k _ => k / 32 != line }

/-- Fills the 128-byte line of a place into a core's instruction cache, which holds 512 lines (R190). -/
def State.fillCode (st : State) (core place : Nat) (a : Access) : State :=
  let line := place / 128
  let st := st.install place a
  let words := (List.range 32).map fun i => (32 * line + i, BitVec.ofNat 32 (st.homeNum (128 * line + 4 * i) 4))
  st.onCore core fun c =>
    let c := (c.icodes.drop 511).foldl Core.dropCode c
    { c with icodes := line :: c.icodes.filter (· != line), icache := words.foldl (fun m (w : Nat × Word) => NMap.put m w.1 w.2) c.icache }

/-- The word at a place as a core's instruction cache gives it; a missing line is filled from its home. -/
def State.codeWord (st : State) (core place : Nat) (a : Access) : Word × State :=
  match NMap.find (st.core core).icache (place / 4) with
  | some w => (w, st)
  | none => (BitVec.ofNat 32 (st.homeNum place 4), st.fillCode core place a)

/-- The instruction that a word is. -/
def instrOf (w : Word) : Instr :=
  match decode w with
  | .ok i => i
  | .error _ => .wordNotAnInstruction w

/-- The stream engine of a core has taken its turn with a group's access stream (R195). -/
def State.streamTurn (st : State) (g : Group) (src : Source) : State :=
  if src = .access then st.onCore g.core fun c => { c with streamLast := g.number } else st

/-- A stream of a group issues: a cause 0x30 that waits for a boundary comes first; a QST that waits for its entry goes on (R154); else the
word at its PC is fetched and decoded. -/
def State.issueFor (st : State) (gid : Nat) (src : Source) : Todo :=
  match st.envAt gid src with
  | none => .still st
  | some e =>
    if !st.coreIssues e.g.core src then .still st
    else if e.g.imbalance && e.g.boundary then .still (st.takeImbalance gid)
    else
      let st := st.streamTurn e.g src
      if src = .access && e.g.waitingQst.isSome then .run (.qst 0 0 0) { st with actor := { gid := gid, src := src } }
      else match st.fetchPlace e with
        | .error c => .still (if e.g.windowsHold src .nothing then (st.memWait e (e.g.loadHolds src .nothing)).stall e
            else if c = 0 then st.stall e else e.raise (e.fetchTrap c) st)
        | .ok place =>
          let x := (st.touch e.who e.slot.pc.toNat .fetch).codeWord e.g.core place (st.accessOf gid e.g 0)
          .run (instrOf x.1) { x.2 with actor := { gid := gid, src := src } }

/-! ### Waits that end (R36) -/

/-- A stream of a group waits. -/
def Group.waits (g : Group) (src : Source) : Bool :=
  match src with
  | .access => g.accessLife == .stalled
  | s => (g.slot s).life == .stalled

/-- A stream of a group goes on. -/
def Group.wakes (g : Group) (src : Source) : Group :=
  match src with
  | .access => { g with accessLife := if g.accessLife = .stalled then .running else g.accessLife }
  | s => if (g.slot s).life = .stalled then g.setSlot s { g.slot s with life := .ready } else g

/-- What a trial has shown: where the stream no longer waits, its condition has cleared, and it is READY or RUNNING (R36, R152). -/
def State.cleared (back : State) (gid : Nat) (src : Source) : Host.Outcome State Fault Refusal → Host.Outcome State Fault Refusal
  | .next t => .next (if (t.group? gid).any fun g => g.waits src then back else back.onGroup gid fun g => g.wakes src)
  | _ => .next back

/-- Tries the instruction of a waiting stream: in a STOPPED group, or one that stops for a save, as if it could go on. -/
def State.tryAgain (st : State) (gid : Nat) (src : Source) : Todo :=
  match st.group? gid with
  | none => .still st
  | some g =>
    if !g.waits src || !(g.life == .live || g.life == .stopped) || !st.coreIssues g.core src then .still st
    else match (st.setGroup gid ({ g with life := .live, preempt := false, imbalance := false }.wakes src)).issueFor gid src with
      | .run i trial => .probe i trial st gid src
      | .still t => .still (if (t.group? gid).any fun g => g.waits src then st else st.onGroup gid fun g => g.wakes src)
      | .probe _ _ _ _ _ => .still st

/-! ### The other acts -/

/-- A write that waits in a core's L1 reaches its home, unless a pin of another core holds it or an earlier write to some of its bytes waits
(R346, R349, R356). Writes to different bytes reach their homes in any order: R88 says that plain stores of one core may be seen in another
order, R344 and R354 list what orders them, and the turns choose (log 26). -/
def State.drainNth (st : State) (core k : Nat) : State :=
  let ws := (st.core core).l1
  match ws[k]? with
  | none => st
  | some w =>
    if st.drainHeld core w ||
        ((ws.take k).any fun x => meets (x.place, x.bytes.length) (w.place, w.bytes.length)) then st
    else (st.onCore core fun c => { c with l1 := ws.eraseIdx k }).landWrite core w

/-- A write that waits in a core's L1 comes apart after its first n bytes: nothing orders the bytes of one store (R344, R354). One that touches a
poisoned word stays whole, since only a write of the whole word clears its mark (R321). -/
def State.splitNth (st : State) (core k n : Nat) : State :=
  let ws := (st.core core).l1
  match ws[k]? with
  | none => st
  | some w =>
    if n = 0 ∨ w.bytes.length ≤ n ∨ w.bad ∨ ((spread w.place w.bytes.length).any fun p => l1Bad p (st.homeBad p) (ws.take k)) then st
    else st.onCore core fun c => { c with
      l1 := ws.take k ++ [{ w with bytes := w.bytes.take n }, { w with place := w.place + n, bytes := w.bytes.drop n }] ++ ws.drop (k + 1) }

/-- One part of an operation in flight is performed. -/
def State.performPiece (st : State) (gid op i : Nat) : State :=
  match st.work? gid op with
  | some (.qld ..) => st.performElement gid op i
  | some (.qst ..) => st.performElement gid op i
  | some (.copy ..) => st.performCopy gid op i
  | some (.matrix _) => st.performUnit gid op i
  | _ => st.performPart gid op i

/-- The group whose stream a core's engine takes next: of those RUNNING that may issue, in turn by core group number (R195). Before any stream
has issued, the turn is that of group 0 (the model's choice, log 47). -/
def State.streamNext (st : State) (core : Nat) : Option Nat :=
  let after (n : Nat) : Nat := (n + 31 - (st.core core).streamLast) % 32
  let able := st.groups.filter fun e => e.2.core == core && e.2.accessLife == .running && e.2.mayIssue .access
  match able with
  | [] => none
  | e :: rest => some (rest.foldl (fun (b x : Nat × Group) => if after x.2.number < after b.2.number then x else b) e).1

/-- What a turn's act comes to. An event is a row of the opcode table that has no word. -/
def State.perform (st : State) (a : Act) : Todo :=
  match a with
  | .pipe core pipe => match st.choice core pipe none with
    | some (gid, src) => st.issueFor gid src
    | none => .still st
  | .slot gid src => match st.group? gid with
    | none => .still st
    | some g => if st.choice g.core (g.number / 16) (some (gid, src)) = some (gid, src) then st.issueFor gid src else .still st
  | .stream gid => match st.group? gid with
    | none => .still st
    | some g => if st.streamNext g.core = some gid then st.issueFor gid .access else .still st
  | .event i => match i with
    | .wordNotAnInstruction _ => .still st
    | _ => if i.isWord then .still st else .run i st
  | .command => match st.commandInstr with
    | some i => .run i st
    | none => .still st
  | .drain core k => .still (st.drainNth core k)
  | .split core k n => .still (st.splitNth core k n)
  | .merge team slice => .still (st.mergeSlice team slice)
  | .part gid op i => .still (st.performPiece gid op i)
  | .clears gid src => st.tryAgain gid src
  | .dropCode core line => .still (st.onCore core fun c => c.dropCode line)
  | .dropTlb core => .still (st.onCore core fun c => { c with tlb := c.tlb.dropLast })

/-- What is over at once (R294, R318, R356). -/
def State.settled (st : State) : State := st.trimSets.pressAll.passHeads

/-- What the next step does: what is over at once, then the time of the turn and its act. -/
def State.nextMove (st : State) : Todo :=
  let x := st.nextTurn
  (x.2.settled.elapse x.1.ns).perform x.1.act

end Sys2Proof.Machine
end

