-- ==== Sys2Proof/Machine/Load.lean ====
section
/-! DEFINITION. Placing a word where the next step fetches it (log 22): a LIVE group on a core of its own, with its code page mapped. -/

namespace Sys2Proof.Machine

/-- The stream in which an instruction runs (R65). -/
def streamOf : Instr → Source
  | .qld .. => .access
  | .qst .. => .access
  | .yopReg .. => .access
  | .yopImm .. => .access
  | .yopHrd .. => .access
  | .yopHwait .. => .access
  | .ybr .. => .access
  | .adone => .access
  | .crwr .. => .handler
  | .fretResume => .handler
  | .fretEscalate => .handler
  | .fretKill => .handler
  | .fretPoolEmpty => .handler
  | .tlbinv .. => .handler
  | .mappg .. => .handler
  | _ => .slotA

/-- Virtual and physical address of the placed word. -/
def codeAt : Nat := 0x10000

/-- The placed group: 64 registers in granules 0 to 7, every lane in slot A, and for a handler instruction the handler slot. -/
def placedGroup (core team : Nat) (src : Source) : Group :=
  let pc : Lane := BitVec.ofNat 64 codeAt
  let ready (on : Bool) : Slot := if on then { life := .ready, pc := pc, mask := BitVec.allOnes 32 } else {}
  { team := team
    core := core
    life := if src = .handler then .stopped else .live
    stage := if src = .handler then .inHandler else .running
    a := ready true
    h := ready (src == .handler)
    frames := [{ own := 8, size := 64, grans := List.range 8 }]
    handlerGrans := if src = .handler then [248, 249] else []
    accessPc := pc
    accessLife := if src = .access then .running else .done
    syscalls := true }

/-- A core without a group, on a die in service. -/
def State.emptyCore (st : State) : Nat :=
  ((List.range 640).find? fun c => !(st.groups.any fun e => e.2.core == c) && !(st.die (dieOf c)).offline).getD 0

/-- A word placed for the next step: the turn, the group, and the page of its code. -/
def State.placeWord (st : State) (w : Nat) : State :=
  let src := streamOf (instrOf (BitVec.ofNat 32 w))
  let core := st.emptyCore
  let gid := st.nextId
  let page : TlbEntry := { ctx := 0, page := codeAt, bytes := 0x10000, frame := codeAt, r := true, w := true, x := true, sup := false, adobe := false }
  let c : Core :=
    { free := (List.range 248).drop 8
      reserve := if src = .handler then [250, 251, 252, 253, 254, 255] else [248, 249, 250, 251, 252, 253, 254, 255]
      tlb := [page] }
  let st : State := { st with
    sched := { act := if src = .access then .stream gid else .slot gid src } :: st.sched
    nextId := gid + 4
    groups := NMap.put st.groups gid (placedGroup core (gid + 1) src)
    teams := NMap.put st.teams (gid + 1) { gang := gid + 2, launch := gid + 3, core := core, groups := [gid] }
    gangs := NMap.put st.gangs (gid + 2) { launch := gid + 3, die := dieOf core, teams := [gid + 1], map := [core] }
    launches := NMap.put st.launches (gid + 3) { clusters := [(0, .placed (gid + 2))] }
    cores := NMap.put st.cores core c }
  ((bytesOf w 4).zipIdx codeAt).foldl (fun (s : State) (e : Byte × Nat) => s.setHomeByte e.2 e.1) st

end Sys2Proof.Machine
end

