-- ==== Sys2Proof/Machine/Step.lean ====
section
/-! DEFINITION. One step of the package, and a state in which the next step runs a given word. -/

namespace Sys2Proof.Machine

/-- One step: the next turn, and the instruction it comes to. -/
def step (st : State) : Host.Outcome State Fault Refusal :=
  match st.nextMove with
  | .still s => .next s
  | .run i s => exec i s
  | .probe i trial back gid src => back.cleared gid src (exec i trial)

/-- Loads a program of one word and lets the next step fetch it (log 22): see `State.placeWord`. -/
def State.withFetchWord (s : State) (nbits w : Nat) : State := s.placeWord (w % 2 ^ nbits)

end Sys2Proof.Machine
end

