-- ==== Sys2Proof/Safety.lean ====
section
/-! DEFINITION. The terms that claims about the machine use: a stream that may issue, what an instruction that is done leaves
of its group and of the package, registers without poison, and the invariant of memory. -/

namespace Sys2Proof.Machine

/-- A deferred write once an instruction of a stream has issued: its window, where it is that stream's, is one instruction shorter (R73). -/
def Env.lowered (e : Env) (d : Deferred) : Deferred := if d.src = e.src then { d with left := d.left - 1 } else d

/-- The actor's stream may issue in this state (R36): no window of it has run out (R73), and no deferred write whose result has arrived is
due at this issue (R74). Windows may be open. -/
structure Ready (s : State) (e : Env) : Prop where
  env : s.env? = some e
  windows : ∀ d ∈ e.g.defers, (d.src = e.src → d.left ≠ 0) ∧ (d.writes = none ∨ (e.lowered d).left ≠ 0)

/-- The actor's stream may issue in this state, and no deferred write of its group is outstanding (R36, R73). -/
structure Settled (s : State) (e : Env) : Prop where
  env : s.env? = some e
  settled : e.g.defers = []

theorem Settled.ready {s : State} {e : Env} (h : Settled s e) : Ready s e :=
  ⟨h.env, by rw [h.settled]; exact fun d hd => nomatch hd⟩

/-- The word passes the checks that need no operand: its stream, its hints, its register names (R65 to R69). -/
structure Fits (e : Env) (f : Form) (i : Instr) : Prop where
  form : e.formTrap f (infoWord i) = none
  stream : f.runs = .program → e.src ≠ .handler

/-- No half of a register is poisoned in the lanes of the slot (R34). -/
def Env.Clean (e : Env) (r : Nat) : Prop := ∀ k ∈ e.copies, ∀ l ∈ e.lanes, e.core.cellPoison (e.cellOf k r l) = 0

/-- The slots of a group after one of its streams has issued an instruction and goes on at the next word (R36, R71, R185). -/
structure Advances (e : Env) (n : Nat) (g : Group) : Prop where
  slot : e.src ≠ .access → g.slot e.src = { e.slot with
    pc := e.slot.pc + 4, hints := [], life := if e.slot.life = .stalled then .ready else e.slot.life, issued := n,
    atBarrier := false, onMemory := false }
  others : ∀ x, x ≠ e.src → g.slot x = e.g.slot x
  access : e.src = .access → g.accessPc = e.g.accessPc + 4
  stream : g.accessLife = if e.src = .access ∧ e.g.accessLife ≠ .done then .running else e.g.accessLife
  issued : g.issued = if e.src = .access then e.g.issued else n
  prefer : g.prefer = if e.hints.yield then some e.src.other else if e.src = .access then e.g.prefer else none

/-- The fields of a group that no slot, no predicate and no count of issues is. -/
def Group.rest (g : Group) : Group :=
  { g with a := {}, b := {}, h := {}, accessPc := 0, accessLife := .done, issued := 0, prefer := none, preds := [] }

/-- The fields of a core beside its register file, the note of what was written there last, and its counts of activity. -/
def Core.rest (c : Core) : Core :=
  { c with
    rf := [], rfPoison := [], wrote := [], act := 0, actNext := 0, silt := {}, issuedNow := false, streamNow := false, toSend := 0 }

/-- What an instruction may change beside the slots of its group: cells of the register file and bytes of the predicates that pass a
test, bytes of memory, and the parts of its group, its core, the other cores and the package that `group`, `core`, `others` and `state` forget. -/
structure Touch where
  cells : Nat → Prop := fun _ => False
  preds : Nat → Prop := fun _ => False
  group : Group → Group := id
  core : Core → Core := id
  /-- what is compared of the other cores -/
  others : Core → Core := id
  state : State → State := id
  /-- bytes of memory stored to -/
  bytes : Nat → Prop := fun _ => False

/-- What an instruction that is done leaves: nothing changes but what `x` allows and the slots of its group, which go on as
`Advances` says. -/
structure Leaves (s t : State) (e : Env) (x : Touch) : Prop where
  package : x.state { t with groups := s.groups, cores := s.cores, issueNo := s.issueNo } = x.state s
  count : t.issueNo = s.issueNo + 1
  groups : ∀ gid, gid ≠ e.gid → t.group? gid = s.group? gid
  cores : ∀ c, c ≠ e.g.core → x.others (t.core c) = x.others (s.core c)
  core : x.core (t.core e.g.core).rest = x.core e.core.rest
  cells : ∀ i, ¬ x.cells i → (t.core e.g.core).cell i = e.core.cell i ∧ (t.core e.g.core).cellPoison i = e.core.cellPoison i
  group : ∃ g, t.group? e.gid = some g ∧ x.group g.rest = x.group { e.g.rest with defers := e.g.defers.map e.lowered } ∧
    Advances e (s.issueNo + 1) g ∧
    ∀ i, ¬ x.preds i → NMap.get g.preds 0 i = NMap.get e.g.preds 0 i
  memory : ∀ core team place, (¬ x.bytes place → t.viewByte core team place = s.viewByte core team place) ∧
    ((∀ b, b / 8 = place / 8 → ¬ x.bytes b) → t.viewBad core team place = s.viewBad core team place)

/-- `Leaves`, of an instruction whose translations have set A and D bits and the TLB before it: s1 is the state they leave (R326). -/
def LeavesAfter (s1 t : State) (e : Env) (x : Touch) : Prop := Leaves s1 t { e with core := s1.core e.g.core } x

/-- A memory instruction has issued as a new operation in flight (R53), with these deferred writes behind it (R73), and nothing else has
changed since the state s1 that its translations left. -/
def Launches (s1 t : State) (e : Env) (p : Path) (w : Work) (regs : List (List Nat × Nat)) (x : Touch := {}) : Prop :=
  LeavesAfter s1 t e { x with
    group := fun g => x.group { g with flight := [], defers := [] }
    state := fun s => x.state { s with nextId := 0 } } ∧
  ∃ g, t.group? e.gid = some g ∧ g.flight.map (·.id) = e.g.flight.map (·.id) ++ [s1.nextId] ∧
    g.flight.getLast? = some { id := s1.nextId, path := p, src := e.src, work := w } ∧
    g.defers = e.g.defers.map e.lowered ++ regs.map fun r => { op := s1.nextId, src := e.src, left := r.2, regs := r.1 }

/-- An instruction has gone to the matrix unit of the core, behind the operations that wait there (R211). -/
def Queues (s1 t : State) (e : Env) (p : Path) (i : Instr) (scalar : Lane) (mode kind : Nat) (segs : List (Nat × Nat)) (x : Touch := {}) : Prop :=
  Launches s1 t e p (.matrix { ins := i, scalar := scalar, mode := mode, kind := kind, segs := segs }) [] { x with core := fun c => x.core { c with matrix := [] } } ∧
    (t.core e.g.core).matrix = (s1.core e.g.core).matrix ++ [(e.gid, s1.nextId)]

/-- The slot waits at its word, and no register, no predicate and no other group has changed. -/
def Stalls (i : Instr) (s : State) (e : Env) : Prop :=
  ∃ t g, exec i s = .next t ∧ t.group? e.gid = some g ∧ (g.slot e.src).life = .stalled ∧ (g.slot e.src).pc = e.slot.pc ∧
    (g.slot e.src).hints = e.slot.hints ∧ (g.slot e.src).mask = e.slot.mask ∧ g.preds = e.g.preds ∧
    (∀ c i, (t.core c).cell i = (s.core c).cell i) ∧ ∀ gid, gid ≠ e.gid → t.group? gid = s.group? gid

/-- An operation of a group is in flight and has not finished. -/
def State.flying (s : State) (gid op : Nat) (g : Group) (w : Work) : Prop :=
  s.group? gid = some g ∧ s.work? gid op = some w ∧ ∀ o ∈ g.flight, o.id = op → o.finished = false

/-- An operation of a group has finished: it is gone, or it waits for an older one of its path (R53). -/
def State.landed (t : State) (gid op : Nat) : Prop := ∃ g, t.group? gid = some g ∧ ∀ o ∈ g.flight, o.id = op → o.finished = true

/-- The cells of a register in the lanes of the slot. -/
def Env.cellsOf (e : Env) (r : Nat) (i : Nat) : Prop := ∃ k ∈ e.copies, ∃ l ∈ e.lanes, i = e.cellOf k r l

/-- The predicate bytes of a predicate in the lanes of the slot; p0 has none (R35). -/
def Env.predsOf (e : Env) (q : Nat) (i : Nat) : Prop := q ≠ 0 ∧ ∃ k ∈ e.copies, ∃ l ∈ e.lanes, i = 32 * q + e.phys k l

/-- Whether sub-element j of width w of a lane is active under an optional guard (R11). -/
def Env.acts (e : Env) (p : Option Nat) (w k l j : Nat) : Bool := (e.guardOf p k l).getLsbD (w / 8 * j)

/-- A value written to the sub-elements of a register d that pass `acts`, and to nothing else; a half written is no longer poisoned
(R34, R98). -/
structure WritesSubs (s t : State) (e : Env) (d w : Nat) (acts : Nat → Nat → Nat → Bool) (value : Nat → Nat → Nat → Nat)
    (x : Touch := {}) : Prop where
  active : ∀ k ∈ e.copies, ∀ l ∈ e.lanes, ∀ j < 64 / w, acts k l j = true →
    subOf w j ((t.core e.g.core).cell (e.cellOf k d l)) = value k l j % 2 ^ w ∧
      (t.core e.g.core).cellPoison (e.cellOf k d l) &&& halfOf w j = 0
  inactive : ∀ k ∈ e.copies, ∀ l ∈ e.lanes, ∀ j < 64 / w, acts k l j = false →
    subOf w j ((t.core e.g.core).cell (e.cellOf k d l)) = subOf w j (e.val k d l)
  frame : Leaves s t e { x with cells := e.cellsOf d }

/-- A value written to the active lanes of a register d, and to nothing else. -/
structure WritesLanes (s t : State) (e : Env) (d : Nat) (p : Option Nat) (value : Nat → Nat → Lane) (x : Touch := {}) : Prop where
  active : ∀ k ∈ e.copies, ∀ l ∈ e.lanes, (e.guardOf p k l).getLsbD 0 = true →
    (t.core e.g.core).cell (e.cellOf k d l) = value k l ∧ (t.core e.g.core).cellPoison (e.cellOf k d l) = 0
  inactive : ∀ k ∈ e.copies, ∀ l ∈ e.lanes, (e.guardOf p k l).getLsbD 0 = false →
    (t.core e.g.core).cell (e.cellOf k d l) = e.val k d l
  frame : Leaves s t e { x with cells := e.cellsOf d }

/-- A condition written to the predicate bits of the active sub-elements of predicate q, and to nothing else; p0 keeps reading all
ones (R35, R110). -/
structure WritesPred (s t : State) (e : Env) (q : Nat) (p : Option Nat) (w : Nat) (value : Nat → Nat → Nat → Bool) : Prop where
  bits : q ≠ 0 → ∀ k ∈ e.copies, ∀ l ∈ e.lanes, ∀ j < 64 / w, ∀ g, t.group? e.gid = some g →
    ∀ i, w / 8 * j ≤ i → i < w / 8 * (j + 1) →
      (g.pred q (e.phys k l)).getLsbD i = if e.acts p w k l j then value k l j else (e.g.pred q (e.phys k l)).getLsbD i
  frame : Leaves s t e { preds := e.predsOf q }

/-- In every state in which its stream may issue, its word passes the checks of `f` and its sources hold no poison, an instruction
completes and writes sub-elements of register d. -/
def ComputesSubs (i : Instr) (f : Form) (sources : Env → List Nat) (d w : Nat) (acts : Env → Nat → Nat → Nat → Bool)
    (value : Env → Nat → Nat → Nat → Nat) : Prop :=
  ∀ s e, Ready s e → Fits e f i → (∀ r ∈ sources e, e.Clean r) →
    ∃ t, exec i s = .next t ∧ WritesSubs s t e d w (acts e) (value e)

/-- The same for whole lanes of register d. -/
def ComputesLanes (i : Instr) (f : Form) (sources : Env → List Nat) (d : Nat) (p : Option Nat) (value : Env → Nat → Nat → Lane) : Prop :=
  ∀ s e, Ready s e → Fits e f i → (∀ r ∈ sources e, e.Clean r) →
    ∃ t, exec i s = .next t ∧ WritesLanes s t e d p (value e)

/-- The same for a condition in predicate q. -/
def ComputesPred (i : Instr) (f : Form) (sources : Env → List Nat) (q : Nat) (p : Option Nat) (w : Nat)
    (value : Env → Nat → Nat → Nat → Bool) : Prop :=
  ∀ s e, Ready s e → Fits e f i → (∀ r ∈ sources e, e.Clean r) →
    ∃ t, exec i s = .next t ∧ WritesPred s t e q p w (value e)

/-- Operand b where it is a register (R69). -/
def Env.orImm (e : Env) (b : Nat) : List Nat := if e.hints.imm.isSome then [] else [b]

/-- Where a stop of the actor's slot lies: at its first hint word, or at the word itself (R169). -/
def Env.stopPc (e : Env) : Lane := match e.slot.hints with
  | [] => e.slot.pc
  | h :: _ => h.addr

/-- A stop of the actor's stream has taken effect (R166 to R172): the group is STOPPED and its record waits to be written, with the
cause, the lanes handed, their addresses and words, and the resume address; no register and no byte of memory has changed. -/
structure Stops (s t : State) (e : Env) (cause : Nat) (lanes : Mask) (addr info : NMap Lane) (resume : Lane) : Prop where
  group : ∃ g x, t.group? e.gid = some g ∧ g.life = .stopped ∧ g.stage = .draining ∧ g.stop = some x ∧ x.src = some e.src ∧
    x.record.cause.toNat = cause + 2 ^ 8 * lowestLane lanes + 2 ^ 24 * srcCode (some e.src) +
      (if e.slot.hints = [] then 0 else 2 ^ 26) ∧
    x.record.pc = e.stopPc ∧ x.record.resume = resume ∧
    x.record.mask = lanes.setWidth 64 ∧ x.record.addr = addr ∧ x.record.info = info ∧ (g.slot e.src).pc = x.record.pc ∧
    g.preds = e.g.preds ∧ g.frames = e.g.frames ∧ g.flight = e.g.flight
  groups : ∀ gid, gid ≠ e.gid → t.group? gid = s.group? gid
  cells : ∀ c i, (t.core c).cell i = (s.core c).cell i ∧ (t.core c).cellPoison i = (s.core c).cellPoison i
  memory : ∀ core team place, t.viewByte core team place = s.viewByte core team place

/-- The group may take a stop at once, and it goes to a handler: no arrival of it is on its way (R263), and it is not versioned (R182). -/
def Env.Stoppable (e : Env) : Prop := e.g.arrivals = [] ∧ e.g.versioned = false

/-- The actor's slot has branched (R37): the lanes taken go on at the target, the others at `fall`; where both remain, the other slot
takes the taken lanes if it is EMPTY, else the smaller part is pushed on the divergence stack. -/
structure Branches (s t : State) (e : Env) (taken : List Nat) (target fall : Lane) : Prop where
  group : ∃ g, t.group? e.gid = some g ∧
    { g.rest with div := e.g.div } = e.g.rest ∧ g.preds = e.g.preds ∧ (g.slot e.src).life = .ready ∧ (g.slot e.src).hints = [] ∧
    (let m := maskOf taken
     let rest := e.slot.mask &&& ~~~m
     let other := e.g.slot e.src.other
     let part (x : Slot) (mask : Mask) (pc : Lane) : Prop := x.mask = mask ∧ x.pc = pc ∧ x.life = .ready
     if m = 0 then part (g.slot e.src) e.slot.mask fall ∧ g.div = e.g.div ∧ (e.src ≠ .handler → g.slot e.src.other = other)
     else if rest = 0 then part (g.slot e.src) e.slot.mask target ∧ g.div = e.g.div ∧ (e.src ≠ .handler → g.slot e.src.other = other)
     else if other.life = .empty then part (g.slot e.src) rest fall ∧ part (g.slot e.src.other) m target ∧ g.div = e.g.div
     else if laneCount rest < laneCount m then
       part (g.slot e.src) m target ∧ g.slot e.src.other = other ∧ g.div = { pc := fall, mask := rest, kind := 1, depth := e.g.depth } :: e.g.div
     else part (g.slot e.src) rest fall ∧ g.slot e.src.other = other ∧ g.div = { pc := target, mask := m, kind := 1, depth := e.g.depth } :: e.g.div)
  groups : ∀ gid, gid ≠ e.gid → t.group? gid = s.group? gid
  cells : ∀ c i, (t.core c).cell i = (s.core c).cell i ∧ (t.core c).cellPoison i = (s.core c).cellPoison i
  memory : ∀ core team place, t.viewByte core team place = s.viewByte core team place

/-- An event of one plot: the plot changes as f says and nothing else does (R303 to R306). -/
def PlotEvent (i : Instr) (s : State) (k : Nat) (new : Plot) : Prop :=
  ∃ t, exec i s = .next t ∧ t.plot k = new ∧ (∀ j, j ≠ k → t.plot j = s.plot j) ∧ { t with plots := s.plots } = s

/-- An event of one core: it changes as `new` says, and nothing else does. -/
def CoreEvent (i : Instr) (s : State) (c : Nat) (new : Core) : Prop :=
  ∃ t, exec i s = .next t ∧ t.core c = new ∧ (∀ j, j ≠ c → t.core j = s.core j) ∧ { t with cores := s.cores } = s

/-- A management command is done: the state it leaves is s1 with the command taken off its ring and a completion record waiting, with STATUS
and a result (R380, R381). -/
def CommandDone (i : Instr) (s : State) (status result : Nat) (s1 : State) : Prop :=
  exec i s = .next (s1.takeCommand.completeCommand status result)

/-- The next command record holds an opcode and operand words, and its other bytes are 0 (R381). -/
def State.Commands (s : State) (op : Nat) (words : List Nat) : Prop := s.nextCommand = some (commandRecord op words)

/-- Every identifier in use is below the next one that is given out: those of groups, teams, operations in flight and deferred writes. -/
structure State.Fresh (s : State) : Prop where
  groups : ∀ e ∈ s.groups, e.1 < s.nextId ∧ e.2.team < s.nextId ∧ (∀ o ∈ e.2.flight, o.id < s.nextId) ∧ ∀ d ∈ e.2.defers, d.op < s.nextId
  teams : ∀ e ∈ s.teams, e.1 < s.nextId

/-- Memory holds its canonical form. -/
def State.MemoryCanonical (s : State) : Prop := Memory.wf s.mem = true

end Sys2Proof.Machine
end

