-- ==== Sys2Proof/Certificates/Slice0/Obligations.lean ====
section
/-! DEFINITION. The statements about the machine. Each docstring names the rules of spec/ that it formalises. -/

open Sys2Proof Sys2Proof.Machine

/-- Integer arithmetic writes its exact result modulo the width, or saturated, and the wide forms a pair of registers (R104, R105,
R98, R106). -/
def Obligations.IntegerResults : Prop :=
  (∀ (t : BitVec 3) (d a b : BitVec 6) (p : BitVec 3) (i : BitVec 11),
    let w := widthOf t.toNat
    let acts (e : Env) := e.acts (some p.toNat) w
    let x (e : Env) (r : BitVec 6) (k l j : Nat) : Int := intOf t.toNat (subOf w j (e.val k r.toNat l))
    let y (e : Env) (k l j : Nat) : Int := intOf t.toNat (e.bSub b.toNat w k l j)
    let z (e : Env) : Int := intOf t.toNat ((e.imm11 i).toNat % 2 ^ w)
    let ab (acc : Accepts) := formAB p.toNat d.toNat a.toNat b.toNat acc
    let da (acc : Accepts) := formA p.toNat d.toNat a.toNat acc
    let fromAB (e : Env) := a.toNat :: e.orImm b.toNat
    let fromDA (_ : Env) := [a.toNat, d.toNat]
    let fromA (_ : Env) := [a.toNat]
    ComputesSubs (.ialuAdd t d a b p) (ab { sat := true }) fromAB d.toNat w acts
      (fun e k l j => storeInt t.toNat e.hints.sat (x e a k l j + y e k l j)) ∧
    ComputesSubs (.ialuSub t d a b p) (ab { sat := true }) fromAB d.toNat w acts
      (fun e k l j => storeInt t.toNat e.hints.sat (x e a k l j - y e k l j)) ∧
    ComputesSubs (.ialuMul t d a b p) (ab {}) fromAB d.toNat w acts (fun e k l j => lowBits w (x e a k l j * y e k l j)) ∧
    ComputesSubs (.mad t d a b p) (ab { sat := true }) (fun e => d.toNat :: fromAB e) d.toNat w acts
      (fun e k l j => storeInt t.toNat e.hints.sat (x e a k l j * y e k l j + x e d k l j)) ∧
    ComputesSubs (.ialuMin t d a p) (da {}) fromDA d.toNat w acts (fun e k l j => lowBits w (min (x e d k l j) (x e a k l j))) ∧
    ComputesSubs (.ialuMax t d a p) (da {}) fromDA d.toNat w acts (fun e k l j => lowBits w (max (x e d k l j) (x e a k l j))) ∧
    ComputesSubs (.ialuNeg t d a p) (da { sat := true }) fromA d.toNat w acts
      (fun e k l j => storeInt t.toNat e.hints.sat (-x e a k l j)) ∧
    ComputesSubs (.ialuAbs t d a p) (da { sat := true }) fromA d.toNat w acts
      (fun e k l j => storeInt t.toNat e.hints.sat |x e a k l j|) ∧
    ComputesSubs (.absdiff t d a p) (da {}) fromDA d.toNat w acts (fun e k l j => lowBits w |x e d k l j - x e a k l j|) ∧
    ComputesSubs (.avg t d a p) (da {}) fromDA d.toNat w acts (fun e k l j => lowBits w ((x e d k l j + x e a k l j + 1) / 2)) ∧
    ComputesSubs (.mulhi t d a p) (da {}) fromDA d.toNat w acts
      (fun e k l j => lowBits w (x e d k l j * x e a k l j / (2 ^ w : Nat))) ∧
    ComputesSubs (.ialuiAdd t d a i) { accepts := { imm := true, sat := true }, regs := [d.toNat, a.toNat], imm11 := i.toNat } fromA
      d.toNat w (fun e => e.acts none w) (fun e k l j => storeInt t.toNat e.hints.sat (x e a k l j + z e))) ∧
  (∀ (t : BitVec 3) (d a : BitVec 6) (p : BitVec 3) (s : State) (e : Env),
    Ready s e → e.Clean a.toNat → e.Clean d.toNat →
    (∀ k ∈ e.copies, ∀ l ∈ e.lanes, ∀ k' ∈ e.copies, ∀ l' ∈ e.lanes, e.cellOf k d.toNat l ≠ e.cellOf k' (d.toNat + 1) l') →
    let ty := t.toNat
    let w := widthOf ty
    let x (r : BitVec 6) (k l j : Nat) : Int := intOf ty (subOf w j (e.val k r.toNat l))
    let pair (lo hi : Lane) (j : Nat) : Nat := (lo.toNat + hi.toNat * 2 ^ 64) / 2 ^ (2 * w * j) % 2 ^ (2 * w)
    let answers (i : Instr) (value : Nat → Nat → Nat → Int) : Prop :=
      Fits e { (formA p.toNat d.toNat a.toNat { sat := true }) with regs := [d.toNat, d.toNat + 1, a.toNat] } i →
      ∃ t, exec i s = .next t ∧
        (∀ k ∈ e.copies, ∀ l ∈ e.lanes, ∀ j < 64 / w,
          pair ((t.core e.g.core).cell (e.cellOf k d.toNat l)) ((t.core e.g.core).cell (e.cellOf k (d.toNat + 1) l)) j =
            if e.acts (some p.toNat) w k l j then
              if minOf ty = 0 ∧ value k l j < 0 then
                Config.subwBelow w (subOf w j (e.val k d.toNat l)) (subOf w j (e.val k a.toNat l)) % 2 ^ (2 * w)
              else lowBits (2 * w) (value k l j)
            else pair (e.val k d.toNat l) (e.val k (d.toNat + 1) l) j) ∧
        Leaves s t e { cells := fun i => e.cellsOf d.toNat i ∨ e.cellsOf (d.toNat + 1) i }
    answers (.mulw t d a p) (fun k l j => x d k l j * x a k l j) ∧
    answers (.addw t d a p) (fun k l j => x d k l j + x a k l j) ∧
    answers (.subw t d a p) (fun k l j => x d k l j - x a k l j))

/-- LOP, MOV, the bit-field instructions, the bit counts and the rotates write their 64-bit results (R107, R105, R98, R109). -/
def Obligations.LogicAndBitFieldResults : Prop :=
  ((∀ (t : BitVec 4) (a b : Lane), ∀ i < 64, (lopBits t.toNat a b).getLsbD i = t.getLsbD (2 * (a.getLsbD i).toNat + (b.getLsbD i).toNat)) ∧
  ∀ (t : BitVec 4) (d a b : BitVec 6) (p : BitVec 3) (i : BitVec 11),
    let onA := if lopReadsA t.toNat then [a.toNat] else []
    ComputesSubs (.lop t d a b p) (formAB p.toNat d.toNat a.toNat b.toNat {})
      (fun e => onA ++ if lopReadsB t.toNat then e.orImm b.toNat else []) d.toNat 8 (fun e => e.acts (some p.toNat) 8)
      (fun e k l j => subOf 8 j (lopBits t.toNat (e.val k a.toNat l) (e.bVal b.toNat k l))) ∧
    ComputesSubs (.lopi t d a i) { accepts := { imm := true }, regs := [d.toNat, a.toNat], imm11 := i.toNat } (fun _ => onA)
      d.toNat 8 (fun e => e.acts none 8) (fun e k l j => subOf 8 j (lopBits t.toNat (e.val k a.toNat l) (e.imm11 i))) ∧
    ComputesLanes (.movImm d i) { accepts := { imm := true }, regs := [d.toNat], imm11 := i.toNat } (fun _ => []) d.toNat none
      (fun e _ _ => e.imm11 i)) ∧
  (∀ (d a b : BitVec 6) (p : BitVec 3),
    let ab := formAB p.toNat d.toNat a.toNat b.toNat {}
    let fromAB (e : Env) := a.toNat :: e.orImm b.toNat
    let x (e : Env) (k l : Nat) := e.val k a.toNat l
    let y (e : Env) (k l : Nat) := e.bVal b.toNat k l
    let pos (b : Lane) : Nat := b.toNat % 64
    let len (b : Lane) : Nat := min (b.toNat / 256 % 128) (64 - pos b)
    let one (i : Instr) (value : Lane → Lane) : Prop :=
      ComputesLanes i (formA p.toNat d.toNat a.toNat {}) (fun _ => [a.toNat]) d.toNat (some p.toNat) (fun e k l => value (x e k l))
    (ComputesLanes (.bfx d a b p) ab fromAB d.toNat (some p.toNat)
      (fun e k l => BitVec.ofNat 64 ((x e k l).toNat / 2 ^ pos (y e k l) % 2 ^ len (y e k l)))) ∧
    (ComputesLanes (.bfxs d a b p) ab fromAB d.toNat (some p.toNat)
      (fun e k l => if len (y e k l) = 0 then 0
        else BitVec.ofInt 64 (signedOf (len (y e k l)) ((x e k l).toNat / 2 ^ pos (y e k l))))) ∧
    (ComputesLanes (.bfi d a b p) ab (fun e => d.toNat :: fromAB e) d.toNat (some p.toNat)
      (fun e k l => bfiLane (e.val k d.toNat l) (x e k l) (y e k l))) ∧
    (∀ (d a b : Lane), ∀ i < 64, (bfiLane d a b).getLsbD i =
      if pos b ≤ i ∧ i < pos b + len b then a.getLsbD (i - pos b) else d.getLsbD i) ∧
    one (.popc d a p) popcLane ∧ one (.clz d a p) clzLane ∧ one (.ctz d a p) ctzLane ∧ one (.brev d a p) (fun v => v.reverse) ∧
    (∀ v : Lane, v ≠ 0 → v.toNat / 2 ^ (63 - (clzLane v).toNat) = 1 ∧ v.toNat % 2 ^ ((ctzLane v).toNat + 1) = 2 ^ (ctzLane v).toNat) ∧
    clzLane 0 = 64 ∧ ctzLane 0 = 64 ∧
    (ComputesLanes (.rol d a b p) ab fromAB d.toNat (some p.toNat) (fun e k l => (x e k l).rotateLeft ((y e k l).toNat % 64))) ∧
    (ComputesLanes (.ror d a b p) ab fromAB d.toNat (some p.toNat) (fun e k l => (x e k l).rotateRight ((y e k l).toNat % 64))))

/-- SHL and SHR shift each sub-element, with a count of the width or more defined (R108, R98). -/
def Obligations.ShiftResults : Prop :=
  ∀ (t : BitVec 4) (d a b : BitVec 6) (p : BitVec 3),
    let w := widthOf t.toNat
    ComputesSubs (.shl t d a b p) (formAB p.toNat d.toNat a.toNat b.toNat {}) (fun e => a.toNat :: e.orImm b.toNat) d.toNat w
      (fun e => e.acts (some p.toNat) w)
      (fun e k l j => if e.bSub b.toNat w k l j < w then subOf w j (e.val k a.toNat l) * 2 ^ (e.bSub b.toNat w k l j) else 0) ∧
    ComputesSubs (.shr t d a b p) (formAB p.toNat d.toNat a.toNat b.toNat {}) (fun e => a.toNat :: e.orImm b.toNat) d.toNat w
      (fun e => e.acts (some p.toNat) w)
      (fun e k l j => lowBits w (intOf t.toNat (subOf w j (e.val k a.toNat l)) / (2 ^ (e.bSub b.toNat w k l j) : Nat)))

/-- CMP, TEST, SEL and predicate logic take and give the predicate bits of the active sub-elements (R110, R113, R35, R111, R112). -/
def Obligations.CompareAndPredicateResults : Prop :=
  (∀ (t : BitVec 4) (tf c q p : BitVec 3) (a b m : BitVec 6) (i : BitVec 11),
    let w := widthOf t.toNat
    let v := widthOf (8 + tf.toNat)
    ComputesPred (.cmp t c q a b p) { accepts := { neg := true, imm := true }, guard := some p.toNat, regs := [a.toNat], b := some b.toNat }
      (fun e => a.toNat :: e.orImm b.toNat) q.toNat (some p.toNat) w
      (fun e k l j => compareSub t.toNat (condOf c.toNat) (subOf w j (e.val k a.toNat l)) (e.bSub b.toNat w k l j)) ∧
    ComputesPred (.cmpi t c q a i) { accepts := { imm := true }, regs := [a.toNat], imm11 := i.toNat }
      (fun _ => [a.toNat]) q.toNat none w
      (fun e k l j => compareSub t.toNat (condOf c.toNat) (subOf w j (e.val k a.toNat l)) ((e.imm11 i).toNat % 2 ^ w)) ∧
    ComputesPred (.test tf q a m p) { accepts := { neg := true }, guard := some p.toNat, regs := [a.toNat] }
      (fun _ => [a.toNat]) q.toNat (some p.toNat) v
      (fun e k l j => classMatches (8 + tf.toNat) m.toNat (subOf v j (e.val k a.toNat l)))) ∧
  (∀ (t : BitVec 4) (d a b : BitVec 6) (pd pa pb p : BitVec 3),
    let w := widthOf t.toNat
    ComputesSubs (.sel t d a b p) { accepts := { neg := true, imm := true }, regs := [d.toNat, a.toNat], b := some b.toNat }
      (fun e => a.toNat :: e.orImm b.toNat) d.toNat w (fun e => e.acts none w)
      (fun e k l j => if (e.guard p.toNat k l).getLsbD (w / 8 * j) then subOf w j (e.val k a.toNat l) else e.bSub b.toNat w k l j) ∧
    ∀ s e, Ready s e → Fits e { accepts := { neg := true }, guard := some p.toNat } (.plop t pd pa pb p) →
      ∃ u, exec (.plop t pd pa pb p) s = .next u ∧ Leaves s u e { preds := e.predsOf pd.toNat } ∧
        (pd ≠ 0 → ∀ g, u.group? e.gid = some g → ∀ k ∈ e.copies, ∀ l ∈ e.lanes, ∀ i < 8,
          (g.pred pd.toNat (e.phys k l)).getLsbD i =
            if (e.guard p.toNat k l).getLsbD i then
              t.getLsbD (2 * ((e.g.pred pa.toNat (e.phys k l)).getLsbD i).toNat + ((e.g.pred pb.toNat (e.phys k l)).getLsbD i).toNat)
            else (e.g.pred pd.toNat (e.phys k l)).getLsbD i))

/-- Float and tapered arithmetic computes exactly and rounds once in the mode in force (R114, R115, R15, R16). -/
def Obligations.FloatArithmeticResults : Prop :=
  ∀ (t : BitVec 3) (d a b : BitVec 6) (p : BitVec 3),
    let ty := 8 + t.toNat
    let w := widthOf ty
    let acts (e : Env) := e.acts (some p.toNat) w
    let sub (e : Env) (r : BitVec 6) (k l j : Nat) : Nat := subOf w j (e.val k r.toNat l)
    let x (e : Env) (r : BitVec 6) (k l j : Nat) : Val := decodeVal ty (sub e r k l j)
    let y (e : Env) (k l j : Nat) : Val := decodeVal ty (e.bSub b.toNat w k l j)
    let fromAB (e : Env) := a.toNat :: e.orImm b.toNat
    let ab (i : Instr) (value : Env → Nat → Nat → Nat → Val) : Prop :=
      ComputesSubs i (formAB p.toNat d.toNat a.toNat b.toNat { re := true }) fromAB d.toNat w acts
        (fun e k l j => roundVal ty e.hints.mode (value e k l j))
    let abd (i : Instr) (value : Env → Nat → Nat → Nat → Val) : Prop :=
      ComputesSubs i (formAB p.toNat d.toNat a.toNat b.toNat { re := true }) (fun e => d.toNat :: fromAB e) d.toNat w acts
        (fun e k l j => roundVal ty e.hints.mode (value e k l j))
    let da (i : Instr) (readsD : Bool) (value : Env → Nat → Nat → Nat → Nat) : Prop :=
      ComputesSubs i (formA p.toNat d.toNat a.toNat { re := true }) (fun _ => a.toNat :: if readsD then [d.toNat] else []) d.toNat w acts value
    ab (.faluAdd t d a b p) (fun e k l j => Val.add e.hints.mode (x e a k l j) (y e k l j)) ∧
    ab (.faluSub t d a b p) (fun e k l j => Val.add e.hints.mode (x e a k l j) (y e k l j).neg) ∧
    ab (.faluMul t d a b p) (fun e k l j => (x e a k l j).mul (y e k l j)) ∧
    abd (.fma t d a b p) (fun e k l j => Val.add e.hints.mode ((x e a k l j).mul (y e k l j)) (x e d k l j)) ∧
    abd (.fms t d a b p) (fun e k l j => Val.add e.hints.mode ((x e a k l j).mul (y e k l j)) (x e d k l j).neg) ∧
    abd (.fnma t d a b p) (fun e k l j => Val.add e.hints.mode ((x e a k l j).mul (y e k l j)).neg (x e d k l j)) ∧
    da (.faluMin t d a p) true (fun e k l j => minMaxFloat ty true (sub e d k l j) (sub e a k l j)) ∧
    da (.faluMax t d a p) true (fun e k l j => minMaxFloat ty false (sub e d k l j) (sub e a k l j)) ∧
    da (.faluNeg t d a p) false (fun e k l j => negFloat ty (sub e a k l j)) ∧
    da (.faluAbs t d a p) false (fun e k l j => absFloat ty (sub e a k l j)) ∧
    da (.rint t d a p) false (fun e k l j => roundVal ty e.hints.mode (rintVal e.hints.mode (x e a k l j)))

/-- DOT4 adds four products to each word, and CVT converts the low sub-elements (R116, R117, R31, R32). -/
def Obligations.DotAndConversionResults : Prop :=
  ∀ (t s : BitVec 4) (d a b : BitVec 6) (p : BitVec 3) (f : BitVec 1),
    let n (wd : Nat) : Nat := min (64 / wd) (64 / widthOf s.toNat)
    let cvt (i : Instr) (wd : Nat) (value : Env → Nat → Nat) : Prop :=
      ComputesSubs i (formA p.toNat d.toNat a.toNat { re := true, sat := true }) (fun _ => [a.toNat]) d.toNat wd
        (fun e k l j => e.acts (some p.toNat) wd k l j && decide (j < n wd))
        (fun e k l j => value e (subOf (widthOf s.toNat) j (e.val k a.toNat l)))
    ComputesSubs (.dot4 t d a b p)
      { accepts := { neg := true, re := t = 12 }, guard := some p.toNat, regs := [d.toNat, a.toNat, b.toNat] }
      (fun _ => [a.toNat, b.toNat, d.toNat]) d.toNat 32 (fun e => e.acts (some p.toNat) 32)
      (fun e k l j => dot4Word t.toNat e.hints.mode j (e.val k a.toNat l) (e.val k b.toNat l) (e.val k d.toNat l)) ∧
    (kindOf t.toNat ≠ .tapered → ∀ (m : Mode) (j : Nat) (x y z : Lane),
      (dot4Word t.toNat m j x y z : Int) % 2 ^ 32 =
        (((List.range 4).map fun i => intOf t.toNat (subOf 8 (4 * j + i) x) * intOf t.toNat (subOf 8 (4 * j + i) y)).sum + subOf 32 j z) % 2 ^ 32) ∧
    cvt (.cvt t d a s p) (widthOf t.toNat) (fun e x => convert t.toNat s.toNat e.hints.mode e.hints.sat x) ∧
    cvt (.cvtFp8 f d a s p) 8 (fun e x => convertFp8 (f = 1) s.toNat e.hints.mode e.hints.sat x)

/-- ROUTE, VOTE, REDUCE, SCAN and MATCH read other lanes of the slot (R118, R119, R120, R121, R122, R123). -/
def Obligations.CrossLaneResults : Prop :=
  ∀ (t : BitVec 4) (d a b : BitVec 6) (q p o3 : BitVec 3) (o : BitVec 2) (x : BitVec 1),
    let w := widthOf t.toNat
    let n := 64 / w
    let acts (e : Env) := e.acts (some p.toNat) w
    let routed (i : Instr) (m : RouteMode) : Prop :=
      ∀ s e, Ready s e → Fits e (formAB p.toNat d.toNat a.toNat b.toNat {}) i →
        (∀ k ∈ e.copies, ∀ l < 32, e.core.cellPoison (e.cellOf k a.toNat l) = 0) → (∀ r ∈ e.orImm b.toNat, e.Clean r) →
        ∃ t, exec i s = .next t ∧ WritesSubs s t e d.toNat w (acts e) fun k l j =>
          let from' := routeFrom m (n * e.width) n w (n * l + j) (e.bSub b.toNat w k l j) e.hints.imm.isSome
          subOf w (from' % n) (e.val k a.toNat (from' / n))
    routed (.routePick t d a b p) .pick ∧ routed (.routeSlide t d a b p) .slide ∧ routed (.routeRot t d a b p) .rot ∧
    routed (.routeFlip t d a b p) .flip ∧
    (ComputesLanes (.vote o d q p) { accepts := { neg := true }, guard := some p.toNat, regs := [d.toNat] } (fun _ => []) d.toNat
      (some p.toNat) (fun e k _ =>
        let votes := (e.activeCopy p.toNat k).map fun m => (e.g.pred q.toNat (e.phys k m)).getLsbD 0
        let asked := (e.activeCopy p.toNat k).filter fun m => (e.g.pred q.toNat (e.phys k m)).getLsbD 0
        match o.toNat with
        | 0 => if votes.all id then 1 else 0
        | 1 => if votes.any id then 1 else 0
        | 2 => (maskOf asked).setWidth 64
        | _ => if votes.all id || votes.all (!·) then 1 else 0)) ∧
    (ComputesSubs (.reduce t d a o3 p) { accepts := redAccepts t.toNat, guard := some p.toNat, regs := [d.toNat, a.toNat] }
      (fun _ => [a.toNat]) d.toNat w acts
      (fun e k _ j => (treeRoot (combine t.toNat o3.toNat e.hints.mode) 5 (e.taking p.toNat w a.toNat k j)).getD 0)) ∧
    (ComputesSubs (.scan t d a x o3 p) { accepts := redAccepts t.toNat, guard := some p.toNat, regs := [d.toNat, a.toNat] }
      (fun _ => [a.toNat]) d.toNat w acts
      (fun e k l j => (scanFold (combine t.toNat o3.toNat e.hints.mode)
        ((e.taking p.toNat w a.toNat k j).take (if x = 1 then l else l + 1))).getD (scanIdentity t.toNat o3.toNat))) ∧
    (ComputesLanes (.matchB64 d a p) (formA p.toNat d.toNat a.toNat {}) (fun _ => [a.toNat]) d.toNat (some p.toNat) (fun e k l =>
      (maskOf ((e.activeCopy p.toNat k).filter fun m => e.val k a.toNat m == e.val k a.toNat l)).setWidth 64))

/-- RAND, SEED and CATSAMPLE draw from and set the generator of each lane (R128, R129, R130). -/
def Obligations.RandomResults : Prop :=
  ∀ (t : BitVec 4) (t1 : BitVec 1) (d a b : BitVec 6) (p : BitVec 3) (s : State) (e : Env),
    Ready s e →
    let w := widthOf t.toNat
    let keyAt (g : Group) (k l : Nat) : Lane := NMap.get g.keys 0 (e.phys k l)
    let ctrAt (g : Group) (k l : Nat) : Lane := NMap.get g.ctrs 0 (e.phys k l)
    let drawn : Touch := { group := fun g => { g with ctrs := [] } }
    (Fits e { runs := .program, accepts := { neg := true }, guard := some p.toNat, regs := [a.toNat, b.toNat] } (.seed a b p) →
      e.Clean a.toNat → e.Clean b.toNat →
      ∃ u, exec (.seed a b p) s = .next u ∧ Leaves s u e { group := fun g => { g with keys := [], ctrs := [] } } ∧
        ∀ g, u.group? e.gid = some g → ∀ k ∈ e.copies, ∀ l ∈ e.lanes,
          keyAt g k l = (if l ∈ e.active p.toNat then e.val 0 a.toNat l else keyAt e.g k l) ∧
          ctrAt g k l = (if l ∈ e.active p.toNat then e.val 0 b.toNat l else ctrAt e.g k l)) ∧
    (Fits e { runs := .program, accepts := { neg := true }, guard := some p.toNat, regs := [d.toNat] } (.rand t d p) →
      ∃ u, exec (.rand t d p) s = .next u ∧
        WritesSubs s u e d.toNat w (e.acts (some p.toNat) w)
          (fun k l j => randValue t.toNat (subOf w j (genOut (keyAt e.g k l) (ctrAt e.g k l + 1)))) drawn ∧
        ∀ g, u.group? e.gid = some g → ∀ k ∈ e.copies, ∀ l ∈ e.lanes,
          ctrAt g k l = ctrAt e.g k l + if (List.range (64 / w)).any (e.acts (some p.toNat) w k l) then 1 else 0) ∧
    (Fits e { runs := .program, accepts := { neg := true }, guard := some p.toNat, regs := [d.toNat, a.toNat] } (.catsample t1 d a p) →
      e.Clean a.toNat →
      let ty := if t1 = 1 then 10 else 8
      let v := widthOf ty
      let lane := (e.active p.toNat).headD 0
      let elements (k : Nat) := e.lanes.flatMap fun l =>
        ((List.range (64 / v)).filter fun j => e.acts (some p.toNat) v k l j).map fun j => (64 / v * l + j, weightOf ty (subOf v j (e.val k a.toNat l)))
      let sum (x : List (Nat × Option Nat)) : Nat := (x.map fun y => y.2.getD 0).sum
      let drawnBy (k : Nat) : Nat := (genOut (keyAt e.g k lane) (ctrAt e.g k lane + 1)).toNat / 2 ^ 40
      let first (k : Nat) : Nat := (List.range (elements k).length).findIdx fun n =>
        decide (drawnBy k * sum (elements k) < sum ((elements k).take (n + 1)) * 2 ^ 24)
      let category (k : Nat) : Lane :=
        if (elements k).any (fun x => x.2.isNone) || sum (elements k) == 0 then BitVec.allOnes 64
        else BitVec.ofNat 64 ((elements k).getD (first k) (0, none)).1
      ∃ u, exec (.catsample t1 d a p) s = .next u ∧
        (if e.active p.toNat = [] then Leaves s u e {} else WritesLanes s u e d.toNat (some p.toNat) (fun k _ => category k) drawn) ∧
        ∀ g, u.group? e.gid = some g → ∀ k ∈ e.copies, ∀ l ∈ e.lanes,
          ctrAt g k l = ctrAt e.g k l + if (e.active p.toNat).head? = some l then 1 else 0)

/-- A special-function operation is in flight behind its window, and its result reaches the register when the pipe returns it (R124,
R125, R126, R127, R74, R53). -/
def Obligations.SpecialFunctionResults : Prop :=
  (∀ (t : BitVec 3) (d a b : BitVec 6) (p : BitVec 3) (s : State) (e : Env),
    Settled s e → e.Clean a.toNat → (e.core.sfuQueue e.g.pipe).length < 16 → e.room .sfu →
    let launches (i : Instr) (f : Form) (w : Nat) (times : Nat × Nat) (value : Nat → Nat → Nat → Nat) : Prop :=
      Fits e f i → ∃ u, exec i s = .next u ∧ u.nextId = s.nextId + 1 ∧
        (u.core e.g.core).sfuQueue e.g.pipe = e.core.sfuQueue e.g.pipe ++ [(e.gid, s.nextId)] ∧
        (∀ g, u.group? e.gid = some g →
          g.flight = e.g.flight ++ [⟨s.nextId, .sfu, e.src, false, .sfu e.g.pipe times.1 times.2 none (e.subWrites d.toNat (some p.toNat) w value)⟩] ∧
          g.defers = [⟨s.nextId, e.src, e.hints.la, [e.reg d.toNat], none, []⟩]) ∧
        Leaves s u e
          { group := fun g => { g with flight := [], defers := [] }
            core := fun c => { c with sfu0 := [], sfu1 := [] }
            state := fun s => { s with nextId := 0 } }
    let unary (i : Instr) (op : SfuOp) : Prop :=
      launches i (formA p.toNat d.toNat a.toNat { re := true, la := true }) (widthOf (8 + t.toNat)) (sfuTimes op.row (8 + t.toNat))
        (fun k l j => sfuUnary op (8 + t.toNat) e.hints.mode (subOf (widthOf (8 + t.toNat)) j (e.val k a.toNat l)))
    let binary (i : Instr) (row ty : Nat) (rounds : Bool) (f : Nat → Nat → Nat) : Prop :=
      (∀ r ∈ e.orImm b.toNat, e.Clean r) → launches i (formAB p.toNat d.toNat a.toNat b.toNat { re := rounds, la := true }) (widthOf ty) (sfuTimes row ty)
        (fun k l j => f (subOf (widthOf ty) j (e.val k a.toNat l)) (e.bSub b.toNat (widthOf ty) k l j))
    unary (.rcp t d a p) .rcp ∧ unary (.rsqrt t d a p) .rsqrt ∧ unary (.sqrt t d a p) .sqrt ∧ unary (.exp2 t d a p) .exp2 ∧
    unary (.log2 t d a p) .log2 ∧ unary (.sin t d a p) .sin ∧ unary (.cos t d a p) .cos ∧ unary (.tanh t d a p) .tanh ∧
    binary (.div t d a b p) 2 (8 + t.toNat) true (sfuDiv (8 + t.toNat) e.hints.mode) ∧
    binary (.idiv t d a b p) 3 t.toNat false (intDiv t.toNat) ∧ binary (.irem t d a b p) 3 t.toNat false (intRem t.toNat)) ∧
  (∀ (core pipe : Nat) (s : State) (gid op q n busy : Nat) (b : Option Nat) (ws : List CellWrite),
    let c := s.core core
    s.work? gid op = some (.sfu q n busy b ws) →
    ((c.sfuQueue pipe).find? (fun x => (s.sfuArrives x).isNone) = some (gid, op) →
      if c.cycle.toNat < NMap.get c.sfuFree 0 pipe then exec (.sfuStart core pipe) s = .next s
      else ∃ u, exec (.sfuStart core pipe) s = .next u ∧ u.work? gid op = some (.sfu q n busy (some (c.cycle.toNat + n)) ws) ∧
        NMap.get (u.core core).sfuFree 0 pipe = c.cycle.toNat + busy ∧
        (∀ k, k ≠ gid → u.group? k = s.group? k) ∧ { u with groups := s.groups, cores := s.cores } = s) ∧
    (∀ (before after : List (Nat × Nat)) (cycle : Nat),
      c.sfuQueue pipe = before ++ (gid, op) :: after → b = some cycle →
      (∀ x ∈ before, ∀ m, s.sfuArrives x = some m → cycle < m) → (∀ x ∈ after, ∀ m, s.sfuArrives x = some m → cycle ≤ m) →
      (∀ g, s.group? gid = some g → g.core = core) →
      if c.cycle.toNat < cycle then exec (.sfuResult core pipe) s = .next s
      else ∃ u, exec (.sfuResult core pipe) s = .next u ∧ (u.core core).sfuQueue pipe = (c.sfuQueue pipe).filter (· != (gid, op)) ∧
        (∀ g src regs hit, s.group? gid = some g → g.defers = [⟨op, src, 0, regs, none, hit⟩] → (∀ r ∈ regs, r < 2048) →
          ∀ i, (u.core core).cell i = (c.writeAll ws).cell i) ∧
        (∀ k, k ≠ gid → u.group? k = s.group? k) ∧ { u with groups := s.groups, cores := s.cores } = s))

/-- A hint word is kept by its slot, unbound, for the next instruction, and a fourth one stops the group (R68, R66, R70, R71). -/
def Obligations.HintsAccumulate : Prop :=
  ∀ (s : State) (e : Env), Settled s e → e.src ≠ .access →
    ∀ (i24 : BitVec 24) (r k o : BitVec 3) (b1 b2 b3 b4 b5 : BitVec 1) (l : BitVec 4),
    ∀ i ∈ [Instr.himm i24, .himmhi i24, .hmod b1 r b2 b3 b4 o b5 k, .hsched b1 l, .hoff i24],
      (e.slot.hints.length < 3 → ∃ t, exec i s = .next t ∧
        (∃ g, t.group? e.gid = some g ∧ g.rest = e.g.rest ∧ g.preds = e.g.preds ∧
          (g.slot e.src).hints = e.slot.hints ++ [{ addr := e.slot.pc, word := BitVec.ofNat 32 (encodeNat i) }] ∧
          (g.slot e.src).pc = e.slot.pc + 4 ∧ (g.slot e.src).mask = e.slot.mask ∧ ∀ y, y ≠ e.src → g.slot y = e.g.slot y) ∧
        (∀ gid, gid ≠ e.gid → t.group? gid = s.group? gid) ∧
        (∀ c i, (t.core c).cell i = (s.core c).cell i ∧ (t.core c).cellPoison i = (s.core c).cellPoison i) ∧
        ∀ core team place, t.viewByte core team place = s.viewByte core team place) ∧
      (3 ≤ e.slot.hints.length → e.src ≠ .handler → e.Stoppable → ∃ t g y, exec i s = .next t ∧ t.group? e.gid = some g ∧
        g.life = .stopped ∧ g.stop = some y ∧ y.record.cause.toNat % 2 ^ 8 = 0x02 ∧ y.record.mask = e.slot.mask.setWidth 64 ∧
        y.record.info = inLanes e.lanes (infoWord i))

/-- BRA, its guarded forms and BRX split the slot by the lanes that take the target (R37, R131, R132, R133). -/
def Obligations.BranchResults : Prop :=
  ∀ (s : State) (e : Env) (p : BitVec 3) (o : BitVec 21) (o24 : BitVec 24) (t : BitVec 6), Settled s e →
    let goes (i : Instr) (f : Form) (taken : List Nat) (target fall : Lane) : Prop :=
      Fits e f i → (taken ≠ [] → badTarget target = false) → (e.src = .handler → taken = [] ∨ taken = e.lanes) →
      ∃ u, exec i s = .next u ∧ Branches s u e taken target fall
    let act := e.active p.toNat
    let target := e.slot.pc + BitVec.ofInt 64 (4 * o.toInt)
    let next := e.slot.pc + 4
    let agrees : Prop := e.g.prot → ∀ l ∈ e.lanes, (e.guard p.toNat 0 l).getLsbD 0 = (e.guard p.toNat 1 l).getLsbD 0
    goes (.bra o24) { closes := .own } e.lanes (e.slot.pc + BitVec.ofInt 64 (4 * o24.toInt)) next ∧
    (agrees → goes (.braGuarded p o) { closes := .own, accepts := { neg := true }, guard := some p.toNat } act target next) ∧
    goes (.braAny p o) { closes := .own, accepts := { neg := true } } (if act = [] then [] else e.lanes) target next ∧
    goes (.braAll p o) { closes := .own, accepts := { neg := true } } (if act = e.lanes then e.lanes else []) target next ∧
    (agrees → (e.g.prot → ∀ l ∈ act, e.val 0 t.toNat l = e.val 1 t.toNat l) → e.Clean t.toNat →
      let first := e.val 0 t.toNat (act.headD 0)
      let same := act.filter fun l => e.val 0 t.toNat l == first
      goes (.brx t p) { closes := .own, accepts := { neg := true }, guard := some p.toNat, regs := [t.toNat] } same
        (if act = [] then 0 else first) (if same = act then next else e.slot.resumePc))

/-- RECONV arms a join entry with the slot's lanes, and JOIN collects them until all have arrived (R39, R134). -/
def Obligations.JoinResults : Prop :=
  ∀ (s : State) (e : Env) (k : BitVec 4) (o : BitVec 20), Settled s e →
    let j := e.g.join k.toNat
    let other (k' : Nat) (x : Group) : Prop := k' ≠ k.toNat → x.join k' = e.g.join k'
    (Fits e { runs := .program } (.reconv k o) →
      (j.armed = false → ∃ t, exec (.reconv k o) s = .next t ∧ Leaves s t e { group := fun g => { g with joins := [] } } ∧
        ∀ g, t.group? e.gid = some g → (∀ k', other k' g) ∧ g.join k.toNat =
          { armed := true, expected := e.slot.mask, arrived := 0, pc := e.slot.pc + BitVec.ofInt 64 (4 * o.toInt), depth := e.g.depth }) ∧
      (j.armed = true → e.Stoppable → ∃ t, exec (.reconv k o) s = .next t ∧
        Stops s t e 0x0A e.slot.mask [] (inLanes e.lanes 0) e.stopPc)) ∧
    (Fits e { closes := .own, runs := .program } (.join k) →
      (j.armed = true → j.pc = e.slot.pc → j.depth = e.g.depth → e.g.div = [] →
        (∀ k', k' ≠ k.toNat → (e.g.join k').armed = true → (e.g.join k').expected ≠ 0 ∧ (e.g.join k').arrived ≠ (e.g.join k').expected) →
        ∃ t g, exec (.join k) s = .next t ∧ t.group? e.gid = some g ∧ (∀ k', other k' g) ∧ g.frames = e.g.frames ∧ g.preds = e.g.preds ∧
          (∀ c i, (t.core c).cell i = (s.core c).cell i ∧ (t.core c).cellPoison i = (s.core c).cellPoison i) ∧
          if j.expected ≠ 0 ∧ j.arrived ||| e.slot.mask = j.expected then
            g.join k.toNat = {} ∧ (g.a = freshSlot (j.pc + 4) j.expected ∨ g.b = freshSlot (j.pc + 4) j.expected)
          else j.expected ≠ 0 → g.join k.toNat = { j with arrived := j.arrived ||| e.slot.mask } ∧ (g.slot e.src).life = .empty) ∧
      ((j.armed = false ∨ j.pc ≠ e.slot.pc ∨ j.depth ≠ e.g.depth) → e.Stoppable → ∃ t, exec (.join k) s = .next t ∧
        Stops s t e 0x0A e.slot.mask [] (inLanes e.lanes 0) e.stopPc))

/-- CALL and CALLX push a frame of cleared registers and go to the target (R41, R42, R136, R137). -/
def Obligations.CallResults : Prop :=
  ∀ (s : State) (e : Env) (t d : BitVec 6) (o : BitVec 21), Settled s e →
    let size := frameOf (if d = 0 then 64 else d.toNat)
    let n := size / 8 - 1
    let goes (i : Instr) (f : Form) (target : Lane) : Prop :=
      Fits e f i →
      (e.g.depth < 255 → e.g.frameReq = none → (e.lanes ≠ [] → badTarget target = false) →
        (n = 0 ∨ (n ≤ e.core.free.length ∧ ∀ r ∈ e.core.requests, e.core.free.length < r.grans)) →
        ∃ u g, exec i s = .next u ∧ u.group? e.gid = some g ∧
          g.frames = { link := e.slot.pc + 4, own := n, base := (e.core.free.take n).headD 0, size := size, grans := e.core.free.take n } ::
            e.g.frames ∧
          (g.slot e.src).pc = target ∧ (g.slot e.src).mask = e.slot.mask ∧ (g.slot e.src).hints = [] ∧
          (let x := e.g.slot e.src.other
           if x.life = .ready ∨ x.life = .stalled then (g.slot e.src.other).life = .held ∧ (g.slot e.src.other).tag = e.g.depth
           else g.slot e.src.other = x) ∧
          (u.core e.g.core).free = e.core.free.drop n ∧ g.preds = e.g.preds ∧ g.div = e.g.div ∧ g.joins = e.g.joins ∧
          (∀ i, (u.core e.g.core).cell i = if i / 256 ∈ e.core.free.take n then 0 else e.core.cell i) ∧
          (∀ gid, gid ≠ e.gid → u.group? gid = s.group? gid) ∧
          ∀ core team place, u.viewByte core team place = s.viewByte core team place) ∧
      (e.g.depth = 255 → e.Stoppable → ∃ u, exec i s = .next u ∧
        Stops s u e 0x09 e.slot.mask [] (inLanes e.lanes 0) e.stopPc)
    goes (.call d o) { closes := .own, runs := .program } (e.slot.pc + BitVec.ofInt 64 (4 * o.toInt)) ∧
    (e.Clean t.toNat → e.slot.mask ≠ 0 → goes (.callx t d) { closes := .own, runs := .program, regs := [t.toNat] } (e.scalar t.toNat))

/-- RET returns one depth and UNWIND to a depth, where the frames they return to are in the file (R138, R139, R36). -/
def Obligations.ReturnResults : Prop :=
  ∀ (s : State) (e : Env) (t : BitVec 8), Settled s e →
    let goes (i : Instr) (t : Nat) : Prop :=
      Fits e { closes := .own, runs := .program } i →
      ∀ f, t < e.g.depth → e.g.frames[e.g.depth - (t + 1)]? = some f → e.g.frameReq = none →
        let other := e.g.slot e.src.other
        (other.life = .held → other.tag ≤ t) → (∀ r ∈ e.g.div, r.depth ≤ t ∧ r.kind = 1) →
        (∀ j ∈ e.g.joins, j.2.armed = true → (t < j.2.depth → j.2.arrived = 0) ∧ (j.2.depth = t → j.2.arrived ≠ j.2.expected)) →
        badTarget f.link = false → (∀ x ∈ e.g.frames.drop (e.g.depth - t), x.spilled = false) →
        ∃ u g, exec i s = .next u ∧ u.group? e.gid = some g ∧ g.frames = e.g.frames.drop (e.g.depth - t) ∧ g.depth = t ∧
          (g.slot e.src).pc = f.link ∧ (g.slot e.src).mask = e.slot.mask ∧ (g.slot e.src).life = .ready ∧ g.preds = e.g.preds ∧
          (∀ j ∈ g.joins, j ∈ e.g.joins ∧ (j.2.armed = true → j.2.depth ≤ t)) ∧
          (∀ j ∈ e.g.joins, j.2.armed = true → j.2.depth ≤ t → j ∈ g.joins) ∧
          (other.life ≠ .empty → g.slot e.src.other = if other.life = .held ∧ other.tag = t then { other with life := .ready } else other) ∧
          (∀ x ∈ (e.g.frames.take (e.g.depth - t)).flatMap (·.grans), e.core.withdrawn.contains x = false → x ∈ (u.core e.g.core).free) ∧
          (∀ i, (u.core e.g.core).cell i = e.core.cell i) ∧
          (∀ gid, gid ≠ e.gid → u.group? gid = s.group? gid)
    goes .ret (e.g.depth - 1) ∧ goes (.unwind t) t.toNat ∧
    (Fits e { closes := .own, runs := .program } .ret → e.g.depth = 0 → e.g.frameReq = none → e.Stoppable →
      ∃ u, exec .ret s = .next u ∧
        Stops s u e 0x09 e.slot.mask [] (inLanes e.lanes 0) e.stopPc)

/-- EXIT takes the active lanes out of the group and of its join entries, and an exhausted depth is returned from (R135, R39, R56,
R36). -/
def Obligations.ExitResults : Prop :=
  ∀ (s : State) (e : Env) (p : BitVec 3), Settled s e →
    Fits e { closes := .own, runs := .program, accepts := { neg := true }, guard := some p.toNat } (.exit p) → e.g.div = [] →
    let m := maskOf (e.active p.toNat)
    let rest := e.slot.mask &&& ~~~m
    let other := e.g.slot e.src.other
    let gone (j : Join) : Join := if j.armed then { j with expected := j.expected &&& ~~~m, arrived := j.arrived &&& ~~~m } else j
    let due (j : Join) : Prop := j.armed = true ∧ (gone j).expected ≠ 0 ∧ (gone j).arrived = (gone j).expected ∧ j.depth = e.g.depth
    let answers (post : State → Group → Prop) : Prop :=
      ∃ t g, exec (.exit p) s = .next t ∧ t.group? e.gid = some g ∧ g.preds = e.g.preds ∧ post t g ∧
        (∀ c i, (t.core c).cell i = (s.core c).cell i) ∧ ∀ gid, gid ≠ e.gid → t.group? gid = s.group? gid
    ((∀ x ∈ e.g.joins, ¬ due x.2) →
      (rest ≠ 0 ∨ other.life = .ready ∨ other.life = .stalled ∨ (other.life = .empty ∧ ∀ x ∈ e.g.joins, (gone x.2).arrived = 0)) →
      answers fun _ g => g.slot e.src.other = other ∧
        (if rest ≠ 0 then (g.slot e.src).life = .ready ∧ (g.slot e.src).pc = e.slot.pc + 4 ∧ (g.slot e.src).mask = rest ∧ g.life = .live
         else (g.slot e.src).life = .empty ∧
           if other.life = .empty then g.life = .draining ∧ g.accessLife = .done else g.life = .live) ∧
        ((rest ≠ 0 ∨ other.life ≠ .empty) → ∀ k < 16, g.join k =
          if (e.g.join k).armed = true ∧ (gone (e.g.join k)).expected = 0 then {} else gone (e.g.join k))) ∧
    (∀ k < 16, due (e.g.join k) → (∀ x ∈ e.g.joins, x.1 ≠ k → ¬ due x.2) →
      let back := freshSlot ((e.g.join k).pc + 4) (gone (e.g.join k)).expected
      answers fun _ g => g.join k = {} ∧ (g.a = back ∨ g.b = back) ∧ g.life = .live) ∧
    (rest = 0 → e.g.frameReq = none → other.life = .held → other.tag < e.g.depth → (∀ x ∈ e.g.joins, (gone x.2).arrived = 0) →
      (∀ f ∈ e.g.frames.drop (e.g.depth - other.tag), f.spilled = false) →
      answers fun t g => g.frames = e.g.frames.drop (e.g.depth - other.tag) ∧ g.slot e.src.other = { other with life := .ready } ∧
        (g.slot e.src).life = .empty ∧ g.life = .live ∧
        ∀ x ∈ (e.g.frames.take (e.g.depth - other.tag)).flatMap (·.grans), e.core.withdrawn.contains x = false → x ∈ (t.core e.g.core).free)

/-- NOP has no effect, CRRD gives the named control register, and the handler writes cr.tresume and cr.hwin (R161, R52, R53, R169,
R202, R203, R204, R173, R65). -/
def Obligations.ControlRegisterResults : Prop :=
  (∀ (s : State) (e : Env) (x : BitVec 21) (d : BitVec 6) (n : BitVec 8), Settled s e →
    let g := e.g
    let t := s.team g.team
    let nat (v : Nat) : Nat → Lane := fun _ => BitVec.ofNat 64 v
    let is (v : Lane) : Nat → Lane := fun _ => v
    let table : List (Nat × (Nat → Lane)) :=
      [(0x00, fun l => BitVec.ofNat 64 l), (0x01, nat g.index), (0x02, nat t.rank), (0x03, nat g.core), (0x04, nat g.role), (0x05, is g.lrec),
       (0x06, is g.pbase), (0x07, is g.psize), (0x08, nat g.depth), (0x09, nat g.div.length), (0x0A, is (e.slot.mask.setWidth 64)),
       (0x0B, is g.inflight), (0x0C, is g.qstat), (0x0D, is (g.qdir.setWidth 64)), (0x0E, is s.time), (0x0F, is e.core.cycle),
       (0x20, is g.trap.cause), (0x21, is g.trap.pc), (0x22, is g.trap.resume), (0x23, is g.trap.mask),
       (0x24, fun l => NMap.get g.trap.addr 0 l), (0x25, fun l => NMap.get g.trap.info 0 l), (0x26, is g.task), (0x27, is g.hwin),
       (0x40, is e.core.laneremap), (0x41, nat g.number), (0x42, nat (chipPlace g.core t.scratch)), (0x43, nat t.ssize),
       (0x44, is (s.balWord g.core)), (0x45, is (t.balClass.setWidth 64)), (0x46, is e.core.balStat),
       (0x47, nat (if g.tiles = 0 then 0 else chipPlace g.core (0x200000 + 8192 * g.tile0))),
       (0x48, nat (if g.accs = 0 then 0 else chipPlace g.core (0x400000 + 16384 * g.acc0)))]
    (Fits e {} (.nop x) → ∃ u, exec (.nop x) s = .next u ∧ Leaves s u e {}) ∧
    (Fits e { regs := [d.toNat] } (.crrd d n) → NMap.rises s.groups = true → ∀ v, NMap.find table n.toNat = some v →
      ∃ u, exec (.crrd d n) s = .next u ∧ WritesLanes s u e d.toNat none fun _ l => v l)) ∧
  (∀ (s : State) (e : Env) (r : BitVec 6) (n : BitVec 8), Settled s e →
    (e.src = .handler → (n = 0x22 ∨ n = 0x27) → Fits e { runs := .supervisor, regs := [r.toNat] } (.crwr r n) → e.Clean r.toNat → e.slot.mask ≠ 0 →
      (e.g.prot → e.val 0 r.toNat e.lowest = e.val 1 r.toNat e.lowest) →
      ∃ t, exec (.crwr r n) s = .next t ∧ Leaves s t e { group := fun g => { g with trap := {}, hwin := 0 } } ∧
        ∀ g, t.group? e.gid = some g →
          g.trap = (if n = 0x22 then { e.g.trap with resume := e.scalar r.toNat } else e.g.trap) ∧
          g.hwin = (if n = 0x27 then e.scalar r.toNat &&& 0x38 else e.g.hwin)) ∧
    (e.src = .slotA ∨ e.src = .slotB → e.Stoppable →
      ∃ t, exec (.crwr r n) s = .next t ∧ Stops s t e 0x01 e.slot.mask [] (inLanes e.lanes (infoWord (.crwr r n)))
        e.stopPc))

/-- SYSCALL parks its slot, stops the group and sends the host one record (R162, R166, R380). -/
def Obligations.SystemCallParks : Prop :=
  ∀ (s : State) (e : Env) (c : BitVec 21), Settled s e → Fits e { closes := .both, runs := .program } (.syscall c) → e.slot.mask ≠ 0 →
    let args := (List.range 8).map fun i => e.g.frameSize - 8 + i
    (e.g.syscalls = true → e.g.arrivals = [] → (∀ r ∈ args, e.Clean r) →
      (e.g.prot → ∀ r ∈ args, e.val 0 r e.lowest = e.val 1 r e.lowest) →
      ∃ t g, exec (.syscall c) s = .next t ∧ t.group? e.gid = some g ∧ g.life = .stopped ∧ (g.slot e.src).life = .parked ∧
        (g.slot e.src).pc = e.slot.pc + 4 ∧ g.tag = some s.freeTag ∧ g.frames = e.g.frames ∧ g.preds = e.g.preds ∧
        t.host.tags = s.host.tags ++ [(s.freeTag, e.gid, some e.src)] ∧
        (t.host.ring 0).waiting = (s.host.ring 0).waiting ++ [HostRec.mk true (recordBytes 128
          ([recordHeader 0x01 0 s.freeTag, (8, c.toNat), (16, s.taskWord e.g), (24, s.groupIdentity e.g), (32, e.slot.mask.toNat)] ++
            (args.zipIdx 0).map fun x => (64 + 8 * x.2, (e.scalar x.1).toNat))) .nothing] ∧
        (∀ c i, (t.core c).cell i = (s.core c).cell i) ∧ (∀ gid, gid ≠ e.gid → t.group? gid = s.group? gid) ∧
        ∃ u : State, t = u.writeStacks e.gid ∧ ∀ core team place, u.viewByte core team place = s.viewByte core team place) ∧
    (e.g.syscalls = false → e.Stoppable → ∃ t, exec (.syscall c) s = .next t ∧
      Stops s t e 0x04 e.slot.mask [] (inLanes e.lanes 0) e.stopPc)

/-- TRAP, BKPT and words that are no instruction stop the group with their cause and the word; a word that is no instruction hands the
lanes active under the guard of its format, and the lanes of its slot where its format has none, which is the model's choice of log 54
(R163, R66, R67, R169, R170, R171). -/
def Obligations.SoftwareStops : Prop :=
  ∀ (s : State) (e : Env) (c : BitVec 21) (w : Word), Settled s e → (e.src = .slotA ∨ e.src = .slotB) → e.Stoppable →
    let here := match e.slot.hints with | [] => e.slot.pc | h :: _ => h.addr
    (Fits e { closes := .both, runs := .program } (.trap c) → ∃ t, exec (.trap c) s = .next t ∧
      Stops s t e 0x20 e.slot.mask [] (inLanes (List.range e.width) (c.setWidth 64)) (e.slot.pc + 4)) ∧
    (Fits e { closes := .both, runs := .program } (.bkpt c) → ∃ t, exec (.bkpt c) s = .next t ∧
      Stops s t e 0x21 e.slot.mask [] (inLanes (List.range e.width) (c.setWidth 64)) (e.slot.pc + 4)) ∧
    (∃ t, exec (.illegal c) s = .next t ∧ Stops s t e 0x01 e.slot.mask [] (inLanes e.lanes (infoWord (.illegal c))) here) ∧
    (w.toNat / 2 ^ 27 ≠ 1 → ∃ t, exec (.wordNotAnInstruction w) s = .next t ∧
      let m := maskOf (e.activeOf (wordGuard w.toNat))
      Stops s t e 0x01 m [] (inLanes (lanesOf m) (w.setWidth 64)) here)

/-- ADD.T on integers stops its group on hints it does not accept and on registers outside the frame, and stops its gang on poison it
reads (R66, R67, R69, R166, R34, R99, R171). -/
def Obligations.FormErrorsAndPoisonStop : Prop :=
  (∀ (s : State) (e : Env) (t : BitVec 3) (d a b : BitVec 6) (p : BitVec 3), Settled s e → (e.src = .slotA ∨ e.src = .slotB) → e.Stoppable →
    let i := Instr.ialuAdd t d a b p
    let act := e.active p.toNat
    let here := match e.slot.hints with | [] => e.slot.pc | h :: _ => h.addr
    (e.hints.imm.isSome → b = 0) →
    (e.hints.accepted { imm := true, neg := true, sat := true } = false → ∃ u, exec i s = .next u ∧
      Stops s u e 0x02 (maskOf act) [] (inLanes act (infoWord i)) here) ∧
    (e.hints.accepted { imm := true, neg := true, sat := true } = true →
      (e.g.frameSize ≤ d.toNat ∨ e.g.frameSize ≤ a.toNat ∨ (e.hints.imm = none ∧ e.g.frameSize ≤ b.toNat)) →
      ∃ u, exec i s = .next u ∧ Stops s u e 0x03 (maskOf act) [] (inLanes act 0) here)) ∧
  (∀ (s : State) (e : Env) (t : BitVec 3) (d a b : BitVec 6) (p : BitVec 3), Settled s e → (e.src = .slotA ∨ e.src = .slotB) →
    e.g.arrivals = [] → Fits e (formAB p.toNat d.toNat a.toNat b.toNat { sat := true }) (.ialuAdd t d a b p) →
    let w := widthOf t.toNat
    let bad (r l : Nat) : Prop := ∃ k ∈ e.copies, ∃ j < 64 / w, e.acts (some p.toNat) w k l j = true ∧
      e.core.cellPoison (e.cellOf k r l) &&& halfOf w j ≠ 0
    (∃ l ∈ e.lanes, bad a.toNat l) →
    ∃ u g, exec (.ialuAdd t d a b p) s = .next u ∧ u.group? e.gid = some g ∧ g.life = .stopped ∧ g.stage = .doomed ∧
      g.trap.cause.toNat % 2 ^ 8 = 0x05 ∧
      (∀ l < 32, g.trap.mask.getLsbD l = true ↔ l ∈ e.lanes ∧ (bad a.toNat l ∨ (e.hints.imm = none ∧ bad b.toNat l))) ∧
      ∀ c i, (u.core c).cell i = (s.core c).cell i)

/-- HANDLER_ENTRY writes the trap record, and HANDLER_FRAME_GRANT starts the handler with a cleared frame (R172, R173). -/
def Obligations.HandlerEntryWritesTheRecord : Prop :=
  ∀ (s : State) (gid : Nat) (g : Group), s.group? gid = some g → g.life = .stopped →
    (∀ x, g.stop = some x → g.stage = .draining → g.settled = true →
      ∃ t g', exec (.handlerEntry gid) s = .next t ∧ t.group? gid = some g' ∧ g'.trap = x.record ∧ g'.stop = none ∧ g'.hwin = 0 ∧
        g'.life = .stopped ∧ (x.fate ≠ .debugger → g'.stage = .frameWait) ∧ (x.fate = .debugger → g'.stage = .escalated) ∧
        ∀ c i, (t.core c).cell i = (s.core c).cell i) ∧
    (g.stage = .frameWait → ∀ g0 g1 rest, (s.core g.core).reserve = g0 :: g1 :: rest →
      ∃ t, exec (.handlerFrameGrant gid) s = .next t ∧
        t.group? gid = some { g with
          handlerGrans := [g0, g1], stage := .inHandler,
          h := { life := .ready, pc := (s.team g.team).handler, mask := g.trap.mask.setWidth 32 } } ∧
        (t.core g.core).reserve = rest ∧
        (∀ i, (t.core g.core).cell i = if i / 256 = g0 ∨ i / 256 = g1 then 0 else (s.core g.core).cell i) ∧
        (∀ c, c ≠ g.core → t.core c = s.core c) ∧ (∀ k, k ≠ gid → t.group? k = s.group? k) ∧
        { t with groups := s.groups, cores := s.cores } = s)

/-- FRET frees the handler frame and resumes the group at cr.tresume, escalates it, or asks for its gang's kill (R175, R176, R177,
R380). -/
def Obligations.ReturnFromHandler : Prop :=
  ∀ (s : State) (e : Env), Settled s e → e.src = .handler → s.handlerDone e = true →
    let f : Form := { closes := .own, runs := .supervisor, accepts := { any := false } }
    let gang := (s.team e.g.team).gang
    (∀ src, Fits e f .fretResume → recordSource e.g.trap.cause = some src → (src = .slotA ∨ src = .slotB) → (e.g.slot src).life ≠ .empty →
      badTarget e.g.trap.resume = false → e.g.a.life ≠ .parked → e.g.b.life ≠ .parked → e.g.div = [] → e.g.frameReq = none →
      ∃ t g, exec .fretResume s = .next t ∧ t.group? e.gid = some g ∧ g.life = .live ∧ g.stage = .running ∧ g.handlerGrans = [] ∧
        (g.slot src).pc = e.g.trap.resume ∧ (g.slot src).hints = [] ∧ (g.slot src).mask = (e.g.slot src).mask ∧ g.preds = e.g.preds) ∧
    (∀ i ∈ [Instr.fretEscalate, .fretPoolEmpty], Fits e f i →
      ∃ t g r, exec i s = .next t ∧ t.group? e.gid = some g ∧ g.stage = .escalated ∧ g.handlerGrans = [] ∧ g.tag = some s.freeTag ∧
        (t.host.ring 1).waiting.getLast? = some r ∧ r.tagged = true) ∧
    (Fits e f .fretKill → (s.gang gang).kill = none → s.gangTeams gang ≠ [] → NMap.find s.gangs gang ≠ none →
      ∃ t g, exec .fretKill s = .next t ∧ t.group? e.gid = some g ∧ g.stage = .doomed ∧ g.handlerGrans = [] ∧
        (t.gang gang).kill = some { cause := e.g.trap.cause.toNat % 256, group := some e.gid })

/-- An exception in the handler is a double fault, and the original stop's record keeps all but its cause; that TRAP, which the handler may
not run, gives INNER 0 is the model's choice of log 28 (R174, R267). -/
def Obligations.HandlerFaultIsDouble : Prop :=
  ∀ (s : State) (e : Env) (w : Word) (c : BitVec 21), Settled s e → e.src = .handler →
    let kept (x : Lane) (inner : Nat) : Lane := (x &&& ~~~0xFF00FF#64) ||| BitVec.ofNat 64 (0x3F + 2 ^ 16 * inner)
    let doubles (i : Instr) (inner : Nat) : Prop :=
      ∃ t g, exec i s = .next t ∧ t.group? e.gid = some g ∧ g.stage = .doomed ∧ g.life = .stopped ∧ g.handlerGrans = [] ∧
        g.trap = { e.g.trap with cause := kept e.g.trap.cause inner } ∧ ∀ c i, (t.core c).cell i = (s.core c).cell i
    (w.toNat / 2 ^ 27 ≠ 1 → doubles (.wordNotAnInstruction w) 1) ∧ doubles (.trap c) 0

/-- Granule grants, spills and refills move frames between the file and the save area (R42, R44, R45, R46, R48). -/
def Obligations.FrameEventResults : Prop :=
  (∀ (s : State) (core gid : Nat),
    (∀ g src size target link since e, s.group? gid = some g → g.core = core → s.envAt gid src = some e → g.defers = [] →
      (s.core core).requests = [⟨gid, src, .call size target link, size / 8 - 1, since⟩] → size / 8 - 1 ≤ (s.core core).free.length →
      ∃ t g', exec (.granuleGrant core) s = .next t ∧ t.group? gid = some g' ∧ g'.frameReq = none ∧ (t.core core).requests = [] ∧
        g'.frames = ⟨link, size / 8 - 1, ((s.core core).free.take (size / 8 - 1)).headD 0, false, false, size,
          (s.core core).free.take (size / 8 - 1)⟩ :: g.frames ∧ (src ≠ .access → (g'.slot src).pc = target)) ∧
    (∀ r, (s.core core).silt.chosen = none → 256 ≤ (s.core core).silt.count →
      ((s.core core).blocked.find? fun r => ((s.group? r.gid).bind Group.spillable).isSome) = some r →
      ∃ t, exec (.siltTrigger core) s = .next t ∧ (t.core core).silt.chosen = some r.gid ∧ { t with cores := s.cores } = s ∧
        ∀ c, c ≠ core → t.core c = s.core c) ∧
    ((s.core core).silt.count < 256 → exec (.siltTrigger core) s = .next s) ∧
    ((s.core core).silt.chosen = some gid → (∀ r ∈ (s.core core).blocked, r.gid ≠ gid) →
      ∃ t, exec (.siltSpill core) s = .next t ∧ (t.core core).silt = {} ∧ { t with cores := s.cores } = s) ∧
    (∀ g i f en, s.group? gid = some g → g.core = core → (s.core core).silt.chosen = some gid → (∃ r ∈ (s.core core).blocked, r.gid = gid) →
      g.spillable = some i → g.frames[i]? = some f →
      let kept : Bool := g.aliasFrame == some i
      let out := if kept then f.grans.dropLast else f.grans
      let off (k : Nat) : Nat := spillOffset (g.frames.drop (i + 1)) k
      let place (k : Nat) : Nat := en.physical (g.pbase.toNat + off k)
      (∀ r ∈ (s.core core).requests, (s.core core).free.length + out.length < r.grans) →
      (∃ segs, s.privRange g (off 0) (2048 * out.length) .write = .ok segs ∧ s.segsPinned (some g.team) segs = false) → en.dirty = true →
      (∀ k < out.length, s.tlbHit core (s.hwWho g).ctx (g.pbase.toNat + off k) = some en ∧
        s.privRange g (off k) 2048 .write = .ok [(place k, 2048)] ∧ isHbm (place k) = true ∧ isHbm (place k + 2047) = true ∧ place k % 8 = 0) →
      ∃ t g' f', exec (.siltSpill core) s = .next t ∧ t.group? gid = some g' ∧ g'.frames[i]? = some f' ∧
        f' = { f with spilled := true, topKept := kept, grans := if kept then f.grans.drop (f.grans.length - 1) else [] } ∧
        (∀ x ∈ out, (s.core core).withdrawn.contains x = false → x ∈ (t.core core).free) ∧
        ∀ k (h : k < out.length), ∀ n < 256,
          t.homeNum (place k + 8 * n) 8 = ((s.core core).cell (256 * out[k] + n)).toNat ∧
          t.homePoison (place k + 8 * n) = (s.core core).cellPoison (256 * out[k] + n)) ∧
    (∀ g, s.group? gid = some g → (∀ r ∈ (s.core g.core).requests, r.gid ≠ gid) → exec (.frameRefill gid) s = .next s)) ∧
  (∀ (s : State) (gid : Nat) (g : Group) (f : Frame) (below : List Frame) (r : FrameReq) (others : List FrameReq) (link : Option Lane),
    s.group? gid = some g → g.frames = f :: below → g.frameReq = some r → r.gid = gid → r.kind = .refill link →
    (s.core g.core).requests = r :: others → f.spilled = true → g.defers = [] →
    let n := f.own - (if f.topKept then 1 else 0)
    let c := s.core g.core
    let gs := c.free.take n
    r.grans = n → n ≤ c.free.length → c.free.Nodup →
    (∃ segs, s.privRange g (spillOffset below 0) (2048 * n) .read = .ok segs ∧ s.segsPinned (some g.team) segs = false) →
    ∃ t g' f', exec (.frameRefill gid) s = .next t ∧ t.group? gid = some g' ∧ f' ∈ g'.frames ∧
      f'.spilled = false ∧ f'.grans = gs ++ f.grans ∧ f'.link = f.link ∧ f'.size = f.size ∧ f'.own = f.own ∧
      ∀ k (hk : k < gs.length) segs, s.privRange g (spillOffset below k) 2048 .read = .ok segs → ∀ i < 256,
        (t.core g.core).cell (256 * gs[k] + i) = BitVec.ofNat 64 (numOf (s.view g.core g.team (segPlace segs (8 * i)) 8)))

/-- A load whose addresses are good is in flight, and nothing else changes, whatever windows are open (R140, R141, R142, R143, R145,
R53, R73, R74). -/
def Obligations.LoadIssue : Prop :=
  ∀ (s : State) (e : Env) (l : BitVec 4) (d b : BitVec 6) (p w c : BitVec 3), Ready s e → (∀ x ∈ e.g.defers, x.op < s.nextId) →
    let n := 2 ^ (w.toNat % 4)
    let addrs := e.addresses b.toNat (e.active p.toNat)
    let form : Form := { accepts := { neg := true, cache := true, offset := true }, guard := some p.toNat, regs := [d.toNat, b.toNat] }
    ∀ places, s.checkLanes e.who addrs n n .read = .ok places → e.Clean b.toNat →
      let launches (i : Instr) (acquire : Option Nat) : Prop := Fits e form i →
        (e.g.counter .ld < 63 → e.acquireHeld = false → ∃ t, exec i s = .next t ∧ Launches (s.touchLanes e.who addrs .read) t e .ld
          (.load n (decide (4 ≤ w.toNat)) (places.map (e.laneAcc d.toNat)) acquire (e.hints.cache.getD 0)) [([e.reg d.toNat], l.toNat)]) ∧
        (63 ≤ e.g.counter .ld ∨ e.acquireHeld = true → Stalls i s e)
      launches (.ld l d b p w) none ∧ launches (.lda l d b p w c) (some c.toNat)

/-- A load that returns writes the bytes its group sees to its lanes, poison with them, and a narrow acquire pins its lines (R142,
R143, R145, R74, R34, R321, R355, R356). -/
def Obligations.LoadReturns : Prop :=
  ∀ (s : State) (gid op n cache : Nat) (sg : Bool) (acquire : Option Nat) (ls : List LaneAcc) (g : Group) (src : Source) (regs : List Nat),
    s.flying gid op g (.load n sg ls acquire cache) → (∀ a ∈ ls, a.done = false ∧ a.got = []) →
    let cells (a : LaneAcc) : List Nat := if g.prot then [a.cell, a.cell + 1] else [a.cell]
    let seen (a : LaneAcc) : Nat := if a.image then s.homeNum a.place n else numOf (s.view g.core g.team a.place n)
    let bad (a : LaneAcc) : Bool := if a.image then (spread a.place n).any s.homeBad else s.viewAnyBad g.core g.team a.place n
    ∀ i ∈ [Instr.loadReturn gid op, .pinnedRetry gid op],
      ((∃ a ∈ ls, s.pinnedFrom g.team a.place n = true) ∨ g.held op (ls.map fun a => (a.place, n)) = true → exec i s = .next s) ∧
      ((∀ a ∈ ls, s.pinnedFrom g.team a.place n = false) → g.held op (ls.map fun a => (a.place, n)) = false →
        s.mayAcquire g acquire ls = true → g.defers = [{ op := op, src := src, left := 0, regs := regs }] → (∀ r ∈ regs, r < 2048) → (ls.flatMap cells).Nodup →
        (ls.map fun a => a.lane).Nodup →
        ∃ t, exec i s = .next t ∧ t.landed gid op ∧
          ((∀ x, acquire = some x → s.pinScope g x ls = x) →
            (∀ a ∈ ls, ∀ c ∈ cells a,
              (t.core g.core).cell c = extendLoad n sg (BitVec.ofNat 64 (seen a)) ∧ (t.core g.core).cellPoison c = if bad a then 3 else 0) ∧
            (∀ k, k ≠ g.core → t.core k = s.core k) ∧ ∀ core team place, t.viewByte core team place = s.viewByte core team place) ∧
          (∀ c, c ∉ ls.flatMap cells → (t.core g.core).cell c = (s.core g.core).cell c) ∧
          (∀ k, k ≠ gid → t.group? k = s.group? k) ∧
          (match acquire with
           | none => t.pins = s.pins
           | some x => if s.pinScope g x ls < 2 then (∀ p ∈ s.pins, p ∈ t.pins) ∧
               ∀ a ∈ ls, isChip a.place = false → a.image = false → { core := g.core, team := g.team, line := lineOf a.place } ∈ t.pins
             else t.pins = s.pins))

/-- ST whose addresses are good is in flight with the low bytes of its lanes, and nothing else changes (R140, R144, R53, R335). -/
def Obligations.StoreResults : Prop :=
  ∀ (s : State) (e : Env) (r b : BitVec 6) (p : BitVec 3) (w : BitVec 2), Ready s e → (∀ x ∈ e.g.defers, x.op < s.nextId) →
    Fits e { accepts := { neg := true, cache := true, offset := true }, guard := some p.toNat, regs := [r.toNat, b.toNat] } (.st r b p w) →
    let n := 2 ^ w.toNat
    let addrs := e.addresses b.toNat (e.active p.toNat)
    ∀ places, s.checkLanes e.who addrs n n .write = .ok places → e.Clean r.toNat → e.Clean b.toNat →
      (e.g.prot = true → ∀ l ∈ e.active p.toNat, e.val 0 b.toNat l = e.val 1 b.toNat l ∧ e.pairDiffers r.toNat (lowMask n) l = false) →
      let lines := ((places.map (e.laneAcc 0)).filter fun a => !a.image).map fun a => (a.place, n)
      e.overflowTrap s addrs lines = none → e.g.counter .st < 63 → e.acquireHeld = false →
      let s1 := (s.touchLanes e.who addrs .write).reserveVersions e.g lines
      ∃ t, exec (.st r b p w) s = .next t ∧ Launches s1 t e .st (.store n none (e.hints.cache.getD 0)
        (places.map fun y => { e.laneAcc r.toNat y with operand := e.val 0 r.toNat y.1 &&& lowMask n })) []

/-- A store that is performed is seen by its core, a release waits, drains or pins, and a drained write is in the home slice (R144,
R145, R346, R347, R349, R350, R351, R355). -/
def Obligations.StoreReachesHome : Prop :=
  (∀ (s : State) (gid op n cache : Nat) (release : Option Nat) (ls : List LaneAcc) (g : Group), s.flying gid op g (.store n release cache ls) →
    g.versioned = false → (∀ v ∈ s.versions, v.team ≠ g.team) →
    (∀ a ∈ ls, a.done = false ∧ a.got = [] ∧ s.pinnedFrom g.team a.place n = false ∧ (isChip a.place = true ∨ a.place + n ≤ chipBase)) →
    (∀ w ∈ (s.core g.core).l1, w.place + w.bytes.length ≤ chipBase) →
    let earlier : Prop := ∃ o ∈ g.before op, o.finished = false ∧ o.work.isMemory = true
    let last (a : LaneAcc) : Prop := ∃ before after, ls = before ++ a :: after ∧ ∀ y ∈ after, meets (a.place, n) (y.place, n) = false
    let performs (post : State → Prop) : Prop := ∃ t, exec (.storePerformed gid op) s = .next t ∧ t.landed gid op ∧ post t ∧
      (∀ k, k ≠ gid → t.group? k = s.group? k) ∧ (∀ a, last a → t.view g.core g.team a.place n = bytesOf a.operand.toNat n) ∧
      ∀ y, isChip y = false → isAdobe y = false → (∀ a ∈ ls, y < a.place ∨ a.place + n ≤ y) →
        t.viewByte g.core g.team y = s.viewByte g.core g.team y
    (release = none → (∀ a ∈ ls, g.held op [(a.place, n)] = false) → s.ownTakes g cache ls = true → performs fun t => t.pins = s.pins) ∧
    ∀ scope, release = some scope →
      (earlier → exec (.storePerformed gid op) s = .next s) ∧
      (¬ earlier → s.pinScope g scope ls < 2 → s.mayPin g (s.pinScope g scope ls) ls = true → s.ownTakes g cache ls = true → performs fun t => (∀ p ∈ s.pins, p ∈ t.pins) ∧
        ∀ a ∈ ls, isChip a.place = false → a.image = false → { core := g.core, team := g.team, line := lineOf a.place } ∈ t.pins) ∧
      (¬ earlier → 2 ≤ s.pinScope g scope ls → s.canDrain g.core = true → performs fun t => (t.core g.core).l1 = [] ∧
        (∀ p ∈ t.pins, p.team ≠ g.team) ∧ ∀ a, last a → t.readHome a.place n = bytesOf a.operand.toNat n)) ∧
  ∀ (s : State) (c lo n team y : Nat), isChip y = false → isAdobe y = false → lo + n ≤ chipBase →
    (s.drainRange c lo n).viewByte c team y = s.viewByte c team y ∧
    (lo / 128 ≤ y / 128 → y < lo + n → l1Byte y ((s.drainRange c lo n).core c).l1 = none)

/-- STR and every ATOM, checked, are in flight with the operands of their lanes, and the team is no longer idempotent (R140, R144,
R145, R147, R148, R53). -/
def Obligations.ReleaseAndAtomicIssue : Prop :=
  ∀ (s : State) (e : Env) (l : BitVec 4) (d b : BitVec 6) (d5 : BitVec 5) (p c : BitVec 3) (o w : BitVec 2) (z : BitVec 1), Ready s e →
    (∀ x ∈ e.g.defers, x.op < s.nextId) → e.g.counter .st < 63 → e.acquireHeld = false → e.Clean b.toNat →
    let addrs := e.addresses b.toNat (e.active p.toNat)
    let agree (r n : Nat) : Prop := e.Clean r ∧ (e.g.prot = true → ∀ l ∈ e.active p.toNat, e.pairDiffers r (lowMask n) l = false)
    let team (s1 t : State) : Prop := ∀ k, t.team k = if k = e.g.team then { s1.team k with idempotent := false } else s1.team k
    let lines (places : List (Nat × Nat × Nat)) (n : Nat) := ((places.map (e.laneAcc 0)).filter fun a => !a.image).map fun a => (a.place, n)
    let x : Touch := { group := fun g => { g with flight := [] }, state := fun s => { s with teams := [] } }
    (e.g.prot = true → ∀ l ∈ e.active p.toNat, e.val 0 b.toNat l = e.val 1 b.toNat l) →
    (let n := 2 ^ w.toNat
     ∀ places, s.checkLanes e.who addrs n n .write = .ok places → agree d.toNat n → e.overflowTrap s addrs (lines places n) = none →
      let s1 := (s.touchLanes e.who addrs .write).reserveVersions e.g (lines places n)
      Fits e { accepts := { neg := true, cache := true, offset := true }, guard := some p.toNat, regs := [d.toNat, b.toNat] } (.str d b p w c) →
      ∃ t, exec (.str d b p w c) s = .next t ∧ team s1 t ∧
        Launches s1 t e .st (.store n (some c.toNat) (e.hints.cache.getD 0)
          (places.map fun y => { e.laneAcc d.toNat y with operand := e.val 0 d.toNat y.1 &&& lowMask n })) [] x) ∧
    let atom (i : Instr) (op : AtomOp) (r n : Nat) : Prop :=
      let cas := op = .cas
      ∀ places, s.checkLanes e.who addrs n n .rmw = .ok places → agree r n → (cas → agree (r + 1) n) →
        e.overflowTrap s addrs (lines places n) = none →
        let s1 := (s.touchLanes e.who addrs .rmw).reserveVersions e.g (lines places n)
        Fits e { accepts := { neg := true, cache := true, offset := true, scope := true }, guard := some p.toNat,
                 regs := [r, b.toNat] ++ if cas then [r + 1] else [] } i →
        ∃ t, exec i s = .next t ∧ team s1 t ∧
          Launches s1 t e .st (.atomic op n o.toNat (e.hints.scope.getD 3) (e.hints.cache.getD 0) (places.map fun y =>
            { e.laneAcc r y with
              operand := e.val 0 r y.1 &&& lowMask n
              swap := if cas then e.val 0 (r + 1) y.1 &&& lowMask n else 0 })) [([e.reg r], l.toNat)] x
    let m := if z = 1 then 8 else 4
    atom (.atomAdd l d b p o z) .add d.toNat m ∧ atom (.atomMinI l d b p o z) .minI d.toNat m ∧
    atom (.atomMaxI l d b p o z) .maxI d.toNat m ∧ atom (.atomMinN l d b p o z) .minN d.toNat m ∧
    atom (.atomMaxN l d b p o z) .maxN d.toNat m ∧ atom (.atomAnd l d b p o z) .and d.toNat m ∧
    atom (.atomOr l d b p o z) .or d.toNat m ∧ atom (.atomXor l d b p o z) .xor d.toNat m ∧
    atom (.atomXchg l d b p o z) .xchg d.toNat m ∧ atom (.atomCas l d5 b p o z) .cas (2 * d5.toNat) m ∧
    atom (.atomFadd l d b p o) .fadd d.toNat 4

/-- An atomic that is performed gives each lane the value before its step, in ascending lanes, with its acquire and release sides
(R148, R149, R145, R351, R355). -/
def Obligations.AtomicResults : Prop :=
  ∀ (s : State) (gid op n order scope cache : Nat) (k : AtomOp) (ls : List LaneAcc) (g : Group) (src : Source) (regs : List Nat),
    s.flying gid op g (.atomic k n order scope cache ls) →
    let releases : Prop := order = 2 ∨ order = 3
    let earlier : Prop := ∃ o ∈ g.before op, o.finished = false ∧ o.work.isMemory = true
    let at' : Nat := if order = 0 then scope else s.pinScope g scope ls
    let cells (a : LaneAcc) : List Nat := if g.prot then [a.cell, a.cell + 1] else [a.cell]
    let step (m : Nat) (a : LaneAcc) : Nat := atomNew k (8 * n) m a.operand.toNat a.swap.toNat % 2 ^ (8 * n)
    let seen (place : Nat) (before : List LaneAcc) : Nat :=
      (before.filter fun a => a.place == place).foldl step (numOf (s.view g.core g.team place n))
    (releases → earlier → (∀ a ∈ ls, a.done = false) → exec (.atomicPerformed gid op) s = .next s) ∧
    (g.versioned = false → (∀ v ∈ s.versions, v.team ≠ g.team) → n = 4 ∨ n = 8 →
      (∀ a ∈ ls, a.done = false ∧ a.half = false ∧ a.got = [] ∧ a.place % n = 0 ∧ isAdobe a.place = false ∧ a.image = false ∧
        s.pinnedFrom g.team a.place n = false) → s.atomBarred gid g op n at' ls = false → (order ≠ 0 → s.mayPin g at' ls = true) →
      (∀ w ∈ (s.core g.core).l1, w.place + w.bytes.length ≤ chipBase) →
      (ls.map fun a => a.lane).Nodup → (ls.flatMap cells).Nodup →
      (releases → ¬ earlier ∧ (2 ≤ at' → s.canDrain g.core = true)) → g.held op (ls.map fun a => (a.place, n)) = false →
      (2 ≤ at' ∨ s.ownTakes g cache ls = true) →
      g.defers = [{ op := op, src := src, left := 0, regs := regs }] → (∀ r ∈ regs, r < 2048) →
      ∃ t, exec (.atomicPerformed gid op) s = .next t ∧ t.landed gid op ∧
        (∀ before a after, ls = before ++ a :: after →
          (∀ c ∈ cells a, (t.core g.core).cell c = BitVec.ofNat 64 (seen a.place before)) ∧
          numOf (t.view g.core g.team a.place n) = seen a.place ls) ∧
        (∀ c, c ∉ ls.flatMap cells → (t.core g.core).cell c = (s.core g.core).cell c) ∧
        (∀ y, isChip y = false → isAdobe y = false → (∀ a ∈ ls, y < a.place ∨ a.place + n ≤ y) →
          t.viewByte g.core g.team y = s.viewByte g.core g.team y) ∧
        (∀ j, j ≠ gid → t.group? j = s.group? j) ∧
        (releases → 2 ≤ at' → (t.core g.core).l1 = [] ∧ ∀ p ∈ t.pins, p.team ≠ g.team) ∧
        (order ≠ 0 → at' < 2 → ∀ a ∈ ls, isChip a.place = false → { core := g.core, team := g.team, line := lineOf a.place } ∈ t.pins) ∧
        (order = 0 → t.pins = s.pins))

/-- FENCE completes once every access of its group is performed, WAIT once its counter is low enough (R145, R150, R151, R356). -/
def Obligations.FenceAndWait : Prop :=
  ∀ (s : State) (e : Env) (c : BitVec 3), Settled s e → e.src ≠ .access →
    let done : Prop := ∀ o ∈ e.g.flight, o.finished = true ∨ o.work.isAccess = false
    let stalls (i : Instr) : Prop := ∃ t g, exec i s = .next t ∧ t.group? e.gid = some g ∧ (g.slot e.src).life = .stalled ∧
      (g.slot e.src).pc = e.slot.pc ∧ (g.slot e.src).hints = e.slot.hints ∧ g.preds = e.g.preds ∧ (∀ k, t.core k = s.core k) ∧ t.mem = s.mem ∧
      t.l2 = s.l2 ∧ ∀ k, k ≠ e.gid → t.group? k = s.group? k
    (Fits e { closes := .own } (.fence c) →
      (done → c.toNat < 2 → ∃ t, exec (.fence c) s = .next t ∧ Leaves s t e {}) ∧
      (done → 2 ≤ c.toNat → s.canDrain e.g.core = true → ∃ t g, exec (.fence c) s = .next t ∧ (t.core e.g.core).l1 = [] ∧
        (∀ p ∈ t.pins, p.team ≠ e.g.team) ∧ (t.team e.g.team).idempotent = false ∧ t.group? e.gid = some g ∧
        (g.slot e.src).pc = e.slot.pc + 4 ∧ g.preds = e.g.preds ∧ (∀ i, (t.core e.g.core).cell i = e.core.cell i) ∧
        ∀ k, k ≠ e.gid → t.group? k = s.group? k) ∧
      (¬ done → stalls (.fence c))) ∧
    ∀ (r : BitVec 6) (h : BitVec 3), Fits e { closes := .own, regs := [r.toNat] } (.wait r h) → e.Clean r.toNat → e.slot.mask ≠ 0 →
      (e.g.counter (pathOf h.toNat) ≤ (e.scalar r.toNat).toNat → ∃ t, exec (.wait r h) s = .next t ∧ Leaves s t e {}) ∧
      ((e.scalar r.toNat).toNat < e.g.counter (pathOf h.toNat) → stalls (.wait r h))

/-- ENQ puts a launch record in flight, and its append writes the ring slot, TAIL and PENDING (R164, R276). -/
def Obligations.EnqResults : Prop :=
  (∀ (s : State) (e : Env) (a : BitVec 6) (q : BitVec 15), Settled s e →
    Fits e { closes := .own, runs := .program, accepts := { scope := true }, regs := [a.toNat] } (.enq a q) → e.Clean a.toNat →
    e.slot.mask ≠ 0 → (e.g.prot = true → e.pairDiffers a.toNat (BitVec.allOnes 64) e.lowest = false) →
    let addrs := [(e.lowest, (e.scalar a.toNat).toNat)]
    ∀ places, s.checkLanes { e.who with unlisted := true } addrs 128 128 .read = .ok places →
      (s.acceptsEnq q.toNat e.who.ctx = true → e.g.counter .st < 63 → e.acquireHeld = false →
        let s1 := s.touchLanes e.who addrs .read
        ∃ t, exec (.enq a q) s = .next t ∧ (∀ k, (t.team k).idempotent = if k = e.g.team then false else (s1.team k).idempotent) ∧
          Launches s1 t e .st (.enq (places.map fun x => (x.2.2, 128)) q.toNat (e.hints.scope.getD 3)) []
            { state := fun s => { s with teams := [] } }) ∧
      (s.acceptsEnq q.toNat e.who.ctx = false → e.Stoppable → ∃ t, exec (.enq a q) s = .next t ∧
        Stops s t e 0x12 (maskOf [e.lowest]) (inLanes [e.lowest] (e.scalar a.toNat)) []
          e.stopPc)) ∧
  ∀ (s : State) (gid op q scope dst : Nat) (places : List (Nat × Nat)) (g : Group), s.flying gid op g (.enq places q scope) →
    let i := s.queueTail q
    let used := (i + 2 ^ 32 - s.queueHead q) % 2 ^ 32
    (2 ^ s.queueLog q ≤ used → exec (.enqAppend gid op) s = .next s) ∧
    ((∃ o ∈ g.before op, o.finished = false ∧ ∃ ps k, o.work = .enq ps q k) → exec (.enqAppend gid op) s = .next s) ∧
    (used < 2 ^ s.queueLog q → s.ctxPlace (s.queueCtx q) (s.recordVa q i) .write = some dst → scope < 2 ∨ s.canDrain g.core = true →
      (∀ o ∈ g.before op, o.finished = true ∨ (o.work.isMemory = false ∧ ∀ ps k, o.work ≠ .enq ps q k)) →
      s.pinnedFrom g.team dst 128 = false → s.queueHeld (some g.team) q = false → s.walkHeld (s.contextRoot (s.queueCtx q)) (s.recordVa q i) = false →
      (∀ x ∈ places, s.pinnedFrom g.team x.1 x.2 = false) → (places.map fun x => x.2).sum = 128 →
      let u := s.release g scope
      let bytes := places.flatMap fun x => u.view g.core g.team x.1 x.2
      let written := ((places.foldl (fun s x => s.readIn gid g x.1 0) u).drainRange g.core dst 128).writeHome dst bytes false (u.accessOf gid g 0)
      ∃ t, exec (.enqAppend gid op) s = .next t ∧ t.landed gid op ∧
        t.queueTail q = (i + 1) % 2 ^ 32 ∧ t.queuePending q = true ∧
        ((dst + 128 ≤ s.queueAt q ∨ s.queueAt q + 64 ≤ dst) → (∀ a lv p, written.walk (written.contextRoot (s.queueCtx q))
          (written.recordVa q i) = .leaf a lv p → dst + 128 ≤ a ∨ a + 8 ≤ dst) → t.readHome dst 128 = bytes) ∧
        (2 ≤ scope → (t.core g.core).l1 = [] ∧ ∀ p ∈ t.pins, p.team ≠ g.team) ∧
        (∀ c k, (t.core c).cell k = (s.core c).cell k) ∧ ∀ k, k ≠ gid → t.group? k = s.group? k)

/-- POP takes the oldest full entry of a load queue into its register, and PUSH fills the next free entry of a store queue (R49,
R157). -/
def Obligations.QueueTransfers : Prop :=
  ∀ (s : State) (e : Env) (r : BitVec 6) (n : BitVec 2) (p : BitVec 3), Settled s e →
    let q := e.g.queue n.toNat
    let act := maskOf (e.active p.toNat)
    let stop (i : Instr) : Prop := e.Stoppable → ∃ t, exec i s = .next t ∧ Stops s t e 0x0B act [] (inLanes (lanesOf act) (n.setWidth 64))
      e.stopPc
    let form : Form := { runs := .program, accepts := { neg := true }, guard := some p.toNat, regs := [r.toNat] }
    let x : Touch := { group := fun g => { g with queues := [] } }
    (Fits e form (.pop r n p) →
      (e.g.isStore n.toNat = true → stop (.pop r n p)) ∧
      (e.g.isStore n.toNat = false → ∀ i rest, q.order = i :: rest → (q.entry i).life = .full →
        ∃ t g, exec (.pop r n p) s = .next t ∧ Leaves s t e { x with cells := e.cellsOf r.toNat } ∧ t.group? e.gid = some g ∧
          (∀ m, m ≠ n.toNat → g.queue m = e.g.queue m) ∧ ((g.queue n.toNat).entry i).life = .free ∧
          (g.queue n.toNat).order = q.order.filter (· != i) ∧ (∀ j, j ≠ i → (g.queue n.toNat).entry j = q.entry j) ∧
          ∀ k ∈ e.copies, ∀ l ∈ e.lanes,
            if (e.guard p.toNat k l).getLsbD 0 then
              (t.core e.g.core).cell (e.cellOf k r.toNat l) = NMap.get (q.entry i).data 0 l ∧
                (t.core e.g.core).cellPoison (e.cellOf k r.toNat l) = NMap.get (q.entry i).poison 0 l
            else (t.core e.g.core).cell (e.cellOf k r.toNat l) = e.val k r.toNat l)) ∧
    (Fits e form (.push r n p) → e.Clean r.toNat →
      (e.g.prot = true → ∀ l ∈ e.lanes, e.guard p.toNat 0 l = e.guard p.toNat 1 l ∧ e.val 0 r.toNat l = e.val 1 r.toNat l) →
      (e.g.isStore n.toNat = false → stop (.push r n p)) ∧
      (e.g.isStore n.toNat = true → ∀ i, q.nextFree = some i →
        ∃ t g, exec (.push r n p) s = .next t ∧ Leaves s t e x ∧ t.group? e.gid = some g ∧
          (∀ m, m ≠ n.toNat → g.queue m = e.g.queue m) ∧ (g.queue n.toNat).order = q.order ++ [i] ∧
          (∀ j, j ≠ i → (g.queue n.toNat).entry j = q.entry j) ∧
          let y := (g.queue n.toNat).entry i
          y.life = .full ∧ y.bound = false ∧ ∀ l ∈ e.lanes,
            NMap.get y.mask 0 l = e.guard p.toNat 0 l ∧ NMap.get y.poison 0 l = 0 ∧
            let b := byteBits (e.guard p.toNat 0 l)
            NMap.get y.data 0 l = (NMap.get (q.entry i).data 0 l &&& ~~~b) ||| (e.val 0 r.toNat l &&& b)))

/-- QLD reserves an entry for the elements that its shape names, QST binds one, and their replies fill and free the entries (R49, R50,
R152, R154). -/
def Obligations.StreamTransfers : Prop :=
  (∀ (s : State) (e : Env) (i : BitVec 4) (n : BitVec 2) (k : BitVec 4), Settled s e → e.src = .access →
    let sh := e.g.shape k.toNat
    let q := e.g.queue n.toNat
    let els (write : Bool) := e.elements sh write (NMap.get e.g.y 0 i.toNat).toNat
    let good : Prop := shInvalid sh = false ∧ shSand sh = false ∧ e.g.counter .qs < 63 ∧ e.g.shapeHeld k.toNat = false
    let form : Form := { runs := .stream, accepts := { any := false } }
    let addrs (xs : List (Nat × Nat × Element)) : List (Nat × Nat) := (insideOf xs).map fun x => (x.1, x.2.2)
    let x : Touch := { group := fun g => { g with queues := [], flight := [] }, state := fun s => { s with nextId := 0 } }
    (Fits e form (.qld i n k) →
      (e.g.isStore n.toNat = true → e.Stoppable → ∃ t g y, exec (.qld i n k) s = .next t ∧ t.group? e.gid = some g ∧ g.life = .stopped ∧
        g.stop = some y ∧ y.record.cause.toNat % 2 ^ 8 = 0x0B ∧ y.record.mask = e.g.liveLanes.setWidth 64) ∧
      (e.g.isStore n.toNat = false → good → boundsTrap (els false) = none → ∀ xs j,
        s.checkElements e.who (insideOf (els false)) (shBytes sh) .read = .ok xs → q.nextFree = some j →
        s.mayRequest e.g.core (xs.map fun x => (x.2.2, shBytes sh)) = true →
        ∃ t g, exec (.qld i n k) s = .next t ∧ LeavesAfter (s.touchLanes e.who (addrs (els false)) .read) t e x ∧ t.group? e.gid = some g ∧
          ((g.queue n.toNat).entry j).life = .reserved ∧ (g.queue n.toNat).order = q.order ++ [j] ∧
          (∀ m, m ≠ n.toNat → g.queue m = e.g.queue m) ∧
          g.flight.getLast?.map (·.work) = some (.qld n.toNat j (shBytes sh) xs))) ∧
    (Fits e form (.qst i n k) → e.g.waitingQst = none → e.g.isStore n.toNat = true → e.g.versioned = false → good → ∀ j,
      (q.order.find? fun j => !(q.entry j).bound) = some j →
      let els := maskedOf (q.entry j) (shBytes sh) (els true)
      boundsTrap els = none → ∀ xs, s.checkElements e.who (insideOf els) (shBytes sh) .write = .ok xs →
      s.mayRequest e.g.core (xs.map fun x => (x.2.2, shBytes sh)) = true → (∀ o ∈ e.g.flight, o.id ≠ s.nextId) →
      ∃ t g, exec (.qst i n k) s = .next t ∧ LeavesAfter (s.touchLanes e.who (addrs els) .write) t e x ∧ t.group? e.gid = some g ∧
        ((g.queue n.toNat).entry j).bound = true ∧ (∀ m, m ≠ n.toNat → g.queue m = e.g.queue m) ∧
        g.flight.getLast?.map (·.work) = some (.qst n.toNat j sh (NMap.get e.g.y 0 i.toNat) (shBytes sh) (some xs)))) ∧
  (∀ (s : State) (gid op n j bytes : Nat) (els : List (Nat × Nat × Nat)) (g : Group), s.flying gid op g (.qld n j bytes els) →
    g.life ≠ .draining → s.streamHeld g op (els.map fun x => (x.2.2, bytes)) = false → (els.map fun x => (x.1, x.2.1)).Nodup →
    (bytes = 1 ∨ bytes = 2 ∨ bytes = 4 ∨ bytes = 8) → (∀ x ∈ els, x.2.1 < 8 / bytes) →
    ∃ t g', exec (.queueEntryFill gid op) s = .next t ∧ t.landed gid op ∧ t.group? gid = some g' ∧
      ((g'.queue n).entry j).life = .full ∧ (∀ m, m ≠ n → g'.queue m = g.queue m) ∧
      ∀ x ∈ els, subOf (8 * bytes) x.2.1 (NMap.get ((g'.queue n).entry j).data 0 x.1) = numOf (s.view g.core g.team x.2.2 bytes)) ∧
  ∀ (s : State) (gid op n j bytes : Nat) (sh : BitVec 512) (y : Lane) (els : List (Nat × Nat × Nat)) (g : Group),
    s.flying gid op g (.qst n j sh y bytes (some els)) →
    s.streamHeld g op (els.map fun x => (x.2.2, bytes)) = false → g.versioned = false →
    (bytes = 1 ∨ bytes = 2 ∨ bytes = 4 ∨ bytes = 8) →
    ∃ t g', exec (.qstWritePerformed gid op) s = .next t ∧ t.landed gid op ∧ t.group? gid = some g' ∧
      ((g'.queue n).entry j).life = .free ∧ (∀ m, m ≠ n → g'.queue m = g.queue m) ∧
      let x := (g.queue n).entry j
      (els.map fun y => y.2.2 / bytes).Nodup →
      (∀ y ∈ els, y.2.2 % bytes = 0 ∧ y.2.1 < 8 / bytes ∧ isChip y.2.2 = false ∧ isAdobe y.2.2 = false ∧
        (NMap.get x.mask 0 y.1).toNat / 2 ^ (bytes * y.2.1) % 2 ^ bytes = 2 ^ bytes - 1) →
      (∀ y ∈ els, t.readHome y.2.2 bytes = bytesOf (subOf (8 * bytes) y.2.1 (NMap.get x.data 0 y.1)) bytes) ∧
      ∀ b, isChip b = false → isAdobe b = false → (∀ y ∈ els, b / bytes ≠ y.2.2 / bytes) → (∀ v ∈ s.versions, v.team ≠ g.team) →
        t.viewByte g.core g.team b = s.viewByte g.core g.team b

/-- YOP, YBR and ADONE act on the access stream's scalars and its PC, and HRD and HWR read and write shape registers (R152, R153,
R155, R156, R50, R51, R159, R160). -/
def Obligations.ScalarAndShapeResults : Prop :=
  (∀ (s : State) (e : Env) (d a o b k : BitVec 4) (c : BitVec 3) (i9 : BitVec 9) (t11 : BitVec 11), Settled s e → e.src = .access →
    let fits (i : Instr) : Prop := Fits e { runs := .stream, accepts := { any := false } } i
    let y (r : BitVec 4) : Lane := NMap.get e.g.y 0 r.toNat
    let x : Touch := { group := fun g => { g with y := [] } }
    let writes (i : Instr) (v : Lane) : Prop := fits i → ∃ t g, exec i s = .next t ∧ Leaves s t e x ∧ t.group? e.gid = some g ∧
      ∀ r, NMap.get g.y 0 r = if r = d.toNat then v else NMap.get e.g.y 0 r
    let op (u v : Lane) : Lane := match o.toNat with
      | 0 => u + v | 1 => u - v | 2 => u * v | 3 => u &&& v | 4 => u ||| v | 5 => u ^^^ v
      | 6 => u <<< (v.toNat % 64) | 7 => u >>> (v.toNat % 64) | 8 => if u.toInt ≤ v.toInt then u else v
      | 9 => if u.toInt ≤ v.toInt then v else u | _ => v
    writes (.yopReg d a o b) (op (y a) (y b)) ∧ writes (.yopImm d a o i9) (op (y a) (BitVec.ofInt 64 i9.toInt)) ∧
    writes (.yopHrd d a k) (readShape (e.g.shape a.toNat) k.toNat) ∧
    (fits (.yopHwait a) →
      (shRank (e.g.shape a.toNat) ≠ 0 → ∃ t, exec (.yopHwait a) s = .next t ∧ Leaves s t e {}) ∧
      (shRank (e.g.shape a.toNat) = 0 → ∃ t g, exec (.yopHwait a) s = .next t ∧ t.group? e.gid = some g ∧ g.accessLife = .stalled ∧
        g.accessPc = e.g.accessPc ∧ ∀ k, t.core k = s.core k)) ∧
    (fits (.ybr a b c t11) →
      let u := (y a).toInt
      let v := (y b).toInt
      let holds : Prop := match c.toNat with
        | 0 => u = v | 1 => u ≠ v | 2 => u < v | 3 => u ≤ v | 4 => v < u | 5 => v ≤ u | _ => True
      let target := e.g.accessPc + BitVec.ofInt 64 (4 * t11.toInt)
      (holds → badTarget target = false → ∃ t g, exec (.ybr a b c t11) s = .next t ∧ t.group? e.gid = some g ∧ g.accessPc = target ∧
        g.accessLife = .running ∧ g.y = e.g.y ∧ ∀ j, j ≠ e.gid → t.group? j = s.group? j) ∧
      (¬ holds → ∃ t, exec (.ybr a b c t11) s = .next t ∧ Leaves s t e {})) ∧
    (fits .adone → ∃ t g, exec .adone s = .next t ∧ t.group? e.gid = some g ∧ g.accessLife = .done ∧ g.y = e.g.y ∧
      g.accessPc = e.g.accessPc + 4 ∧ t.mem = s.mem ∧ ∀ j, j ≠ e.gid → t.group? j = s.group? j)) ∧
  (∀ (s : State) (e : Env) (d : BitVec 6) (k c : BitVec 4) (p : BitVec 3), Settled s e →
    let form : Form := { accepts := { neg := true }, guard := some p.toNat, regs := [d.toNat] }
    let sh := e.g.shape k.toNat
    let field (sel : Nat) : Nat × Nat :=
      if sel = 0 then (448, 64) else if sel ≤ 5 then (288 + 32 * (sel - 1), 32) else if sel ≤ 10 then (88 + 40 * (sel - 6), 40)
      else if sel = 11 then (56, 32) else (21, 11)
    let reserved (i : Nat) : Prop := i < 21 ∨ (32 ≤ i ∧ i < 56)
    let lo := (field c.toNat).1
    let w := (field c.toNat).2
    (Fits e form (.hrd d k p c) →
      (c ≠ 13 → ∃ t, exec (.hrd d k p c) s = .next t ∧ WritesLanes s t e d.toNat (some p.toNat) fun _ _ =>
        let v := sh.toNat / 2 ^ lo % 2 ^ w
        if 6 ≤ c.toNat ∧ c.toNat ≤ 10 then BitVec.ofInt 64 (if v < 2 ^ 39 then (v : Int) else v - 2 ^ 40)
        else if c = 12 then BitVec.ofNat 64 (v * 2 ^ 21) else BitVec.ofNat 64 v) ∧
      (c = 13 → ∃ t, exec (.hrd d k p c) s = .next t ∧ Leaves s t e { cells := e.cellsOf d.toNat } ∧
        ∀ m ∈ e.copies, ∀ l ∈ e.lanes, (t.core e.g.core).cell (e.cellOf m d.toNat l) =
          if l < 8 ∧ (e.guard p.toNat m l).getLsbD 0 then sh.extractLsb' (64 * l) 64 else e.val m d.toNat l)) ∧
    (Fits e form (.hwr d k p c) → e.Clean d.toNat →
      ∃ t g, exec (.hwr d k p c) s = .next t ∧ Leaves s t e { group := fun g => { g with shapes := [], shapeAfter := [] } } ∧
        t.group? e.gid = some g ∧ (∀ j, j ≠ k.toNat → g.shape j = e.g.shape j) ∧
        (e.active p.toNat = [] → g.shape k.toNat = sh) ∧
        (c = 13 → (∀ l ∈ e.active p.toNat, 8 ≤ l) → g.shape k.toNat = sh) ∧
        (c = 13 → (∃ l ∈ e.active p.toNat, l < 8) → ∀ i < 512, (g.shape k.toNat).getLsbD i =
          if reserved i then false else if i / 64 ∈ e.active p.toNat then (e.val 0 d.toNat (i / 64)).getLsbD (i % 64) else sh.getLsbD i) ∧
        (c.toNat < 13 → ∀ l rest, e.active p.toNat = l :: rest → ∀ i < 512, (g.shape k.toNat).getLsbD i =
          if reserved i then false else if lo ≤ i ∧ i < lo + w then (if c = 12 then e.val 0 d.toNat l >>> 21 else e.val 0 d.toNat l).getLsbD (i - lo) else sh.getLsbD i)))

/-- TCFG writes a tile's configuration, and TLD, TST, TZERO and TTRANS go to the matrix unit (R206, R208, R209, R210, R211, R213,
R214, R215). -/
def Obligations.TileIssue : Prop :=
  ∀ (s : State) (e : Env) (t d : BitVec 3) (r : BitVec 6), Settled s e →
    let cfg := e.cfg t.toNat
    let lowest : Prop := e.Clean r.toNat ∧ e.slot.mask ≠ 0
    let room (p : Path) : Prop := e.g.counter p < 63
    s.unitCount e.g.core < 16 →
    (Fits e { runs := .program, regs := [r.toNat] } (.tcfg t r) →
      (t.toNat < e.g.tiles → lowest → (∀ o ∈ e.g.matrixOps, o.2 = true ∨ t.toNat ∉ tilesRead o.1 ++ tilesWritten o.1) →
        ∃ u, exec (.tcfg t r) s = .next u ∧ Leaves s u e { core := fun c => { c with tileCfg := [] } } ∧
          ∀ k, NMap.get (u.core e.g.core).tileCfg 0 k = if k = e.g.tile0 + t.toNat then e.scalar r.toNat else NMap.get e.core.tileCfg 0 k) ∧
      (e.g.tiles ≤ t.toNat → e.Stoppable → ∃ u, exec (.tcfg t r) s = .next u ∧
        Stops s u e 0x03 e.slot.mask [] (inLanes e.lanes 0) e.stopPc)) ∧
    (let move (i : Instr) (write : Bool) : Prop :=
      let rows := tileRows cfg (e.unitAddress r.toNat) (if write then .write else .read)
      let who : Who := { e.who with unlisted := true }
      let segs := rows.flatMap (s.copyPlace who)
      let touched := rows.foldl (fun s x => s.touchRange e.who x.va x.n x.kind) s
      Fits e { runs := .program, accepts := { offset := true, cache := true }, regs := [r.toNat] } i →
      t.toNat < e.g.tiles → lowest → (e.g.prot = true → e.pairDiffers r.toNat (BitVec.allOnes 64) e.lowest = false) →
      cfgValid cfg = true → s.copyFault who rows = none → (write = true → e.overflowTrap s [] segs = none) →
      room (if write then .st else .ld) → e.acquireHeld = false →
      ∃ u, exec i s = .next u ∧ Queues (if write then touched.reserveVersions e.g segs else touched) u e (if write then .st else .ld) i 0
        (e.hints.cache.getD 0) 0 segs
     move (.tld t r) false ∧ move (.tst t r) true) ∧
    (Fits e { runs := .program } (.tzero t) → t.toNat < e.g.tiles → cfgValid cfg = true → room .mma →
      ∃ u, exec (.tzero t) s = .next u ∧ Queues s u e .mma (.tzero t) 0 0 0 []) ∧
    (Fits e { runs := .program } (.ttrans d t) → t.toNat < e.g.tiles → d.toNat < e.g.tiles →
      let cd := e.cfg d.toNat
      cfgValid cfg = true → cfgValid cd = true → cfgEw cd < 4 → cfgEw cd = cfgEw cfg → cfgRows cd = cfgCols cfg → cfgCols cd = cfgRows cfg →
      room .mma → ∃ u, exec (.ttrans d t) s = .next u ∧ Queues s u e .mma (.ttrans d t) 0 0 0 [])

/-- The MMA forms, ZRD, ZCLR, ZLD and ZST go to the matrix unit once their names, shapes and vote are good (R178, R206, R207, R209,
R211, R217, R223, R224, R225, R226). -/
def Obligations.AccumulatorIssue : Prop :=
  ∀ (s : State) (e : Env) (k : BitVec 4) (r : BitVec 6) (a b n : BitVec 3), Settled s e →
    s.unitCount e.g.core < 16 →
    let room (p : Path) : Prop := e.g.counter p < 63
    let was := e.g.accKind e.core k.toNat
    let w := e.scalar r.toNat
    let agree : Prop := e.Clean r.toNat ∧ e.slot.mask ≠ 0 ∧ (e.g.prot = true → ∀ l ∈ e.lanes, e.val 0 r.toNat l = e.val 1 r.toNat l)
    let votes (l : List Nat) : NMap Lane := l.foldl (fun m l => NMap.store m 0 l (e.val 0 r.toNat l)) []
    let mma (i : Instr) (form : MmaForm) : Prop :=
      Fits e { runs := .program, regs := [r.toNat] } i → a.toNat < e.g.tiles → b.toNat < e.g.tiles → k.toNat < e.g.accs → agree →
      ((∀ l ∈ e.lanes, e.val 0 r.toNat l = w) → laneCount e.slot.mask = e.width → (∀ c ∈ e.mmaCodes form k.toNat a.toNat b.toNat w, c.1 = false) →
        room .mma → ∃ t, exec i s = .next t ∧ Queues s t e .mma i w 0 was []) ∧
      (∀ off, off = e.lanes.filter (fun l => e.val 0 r.toNat l != w) → off ≠ [] → e.Stoppable →
        ∃ t, exec i s = .next t ∧ Stops s t e 0x07 (maskOf off) [] (votes e.lanes) e.stopPc) ∧
      ((∀ l ∈ e.lanes, e.val 0 r.toNat l = w) → laneCount e.slot.mask < e.width → e.Stoppable →
        ∃ t, exec i s = .next t ∧ Stops s t e 0x08 e.slot.mask [] (votes e.lanes) e.stopPc)
    mma (.mma k r a b) .plain ∧ mma (.mmaExact k r a b) .exact ∧ mma (.mmaSb k r a b) .sand ∧ mma (.mmaWide k r a b) .wide ∧
    (Fits e { runs := .program, accepts := { re := true }, regs := [r.toNat] } (.zrd k r a) → a.toNat < e.g.tiles → k.toNat < e.g.accs →
      e.Clean r.toNat → e.slot.mask ≠ 0 →
      cfgValid (e.cfg a.toNat) = true → cfgCols (e.cfg a.toNat) ≤ 64 → was ≠ 3 → readGood w was = true →
      cfgEw (e.cfg a.toNat) = readEw (readFmt w) → room .mma →
      ∃ t, exec (.zrd k r a) s = .next t ∧ Queues s t e .mma (.zrd k r a) w (e.hints.re.getD 0) was []) ∧
    (let kinds (t : State) (kind : Nat) : Prop := ∀ x, NMap.get (t.core e.g.core).accKind 0 x =
        let z := e.g.acc0 + k.toNat
        if x = z then kind else if x = z + 1 ∨ x = z + 2 ∨ x = z + 3 then (if kind = 2 then 3 else if was = 2 then 0 else NMap.get e.core.accKind 0 x)
        else NMap.get e.core.accKind 0 x
     let names : Prop := e.kindName k.toNat n.toNat = true ∧ was ≠ 3
     let x : Touch := { core := fun c => { c with accKind := [] } }
     (Fits e { runs := .program } (.zclr k n) → names → room .mma →
       ∃ t, exec (.zclr k n) s = .next t ∧ Queues s t e .mma (.zclr k n) 0 0 was [] x ∧ kinds t n.toNat) ∧
     let image (kind : Nat) (acc : AccKind) : List Reach := [{ va := e.unitAddress r.toNat, n := imageBytes kind, align := 128, kind := acc }]
     let form : Form := { runs := .program, accepts := { offset := true, cache := true }, regs := [r.toNat] }
     let after (kind : Nat) (acc : AccKind) : State := (image kind acc).foldl (fun s x => s.touchRange e.who x.va x.n x.kind) s
     let good (kind : Nat) (acc : AccKind) : Prop := s.copyFault { e.who with unlisted := true } (image kind acc) = none ∧
       e.acquireHeld = false
     let who : Who := { e.who with unlisted := true }
     let segs (kind : Nat) (acc : AccKind) : List (Nat × Nat) := (image kind acc).flatMap (s.copyPlace who)
     (Fits e form (.zld k r n) → names → agree → good n.toNat .read → room .ld →
       ∃ t, exec (.zld k r n) s = .next t ∧ kinds t n.toNat ∧ Queues (after n.toNat .read) t e .ld (.zld k r n) 0 (e.hints.cache.getD 0) was
         (segs n.toNat .read) x) ∧
     (Fits e form (.zst k r) → k.toNat < e.g.accs → was ≠ 3 → agree → good was .write → e.overflowTrap s [] (segs was .write) = none → room .st →
       ∃ t, exec (.zst k r) s = .next t ∧ Queues ((after was .write).reserveVersions e.g (segs was .write)) t e .st (.zst k r) 0 (e.hints.cache.getD 0) was
         (segs was .write)))

/-- An MMA that begins adds its products into every element of its accumulator tile, in order of k, and changes nothing else (R207,
R212, R216, R217, R218, R219, R220, R221, R227). -/
def Obligations.ProductResults : Prop :=
  ∀ (s : State) (core gid op : Nat) (g : Group) (k : BitVec 4) (r : BitVec 6) (a b : BitVec 3) (u : UnitOp),
    s.group? gid = some g → g.nextUnit = some (op, u) → g.core = core → u.segs = [] →
    let form (i : Instr) (f : MmaForm) (tail : Nat) : Prop := u.ins = i →
      let c := s.core core
      let now := c.cycle.toNat
      (g.tilesFree i = false ∨ now < c.unitFree → exec (.matrixOpStart core gid) s = .next s) ∧
      (g.tilesFree i = true → c.unitFree ≤ now →
        let rows := cfgRows (g.cfg c a.toNat)
        let cols := mmaColumns f (g.cfg c b.toNat)
        let kind := f.kind (wordA u.scalar)
        let n := if kind = 2 then 16 else 4
        rows ≤ 64 → cols ≤ 64 → g.acc0 + k.toNat + (if kind = 2 then 4 else 1) ≤ 32 →
        ∃ t g', exec (.matrixOpStart core gid) s = .next t ∧ t.group? gid = some g' ∧
          (t.core core).unitFree = now + s.busyCycles g u ∧
          (∀ x ∈ g'.flight, x.id = op → x.work = .matrix { u with started := true, ends := now + s.busyCycles g u + tail }) ∧
          (∀ y < rows, ∀ x < cols, t.homeNum (g.elemPlace k.toNat kind y x) n =
            (s.mmaOperands g f a.toNat b.toNat y x).foldl (fun acc p => f.step u.scalar acc (runNum p.1) (runNum p.2))
              (s.homeNum (g.elemPlace k.toNat kind y x) n) % 256 ^ n) ∧
          (∀ p, (∀ y < rows, ∀ x < cols, p < g.elemPlace k.toNat kind y x ∨ g.elemPlace k.toNat kind y x + n ≤ p) → t.homeByte p = s.homeByte p) ∧
          (∀ c i, (t.core c).cell i = (s.core c).cell i ∧ (t.core c).l1 = (s.core c).l1) ∧ ∀ j, j ≠ gid → t.group? j = s.group? j)
    form (.mma k r a b) .plain 20 ∧ form (.mmaExact k r a b) .exact 28 ∧ form (.mmaSb k r a b) .sand 24 ∧ form (.mmaWide k r a b) .wide 20

/-- Tile and accumulator operations that begin fill their tile or take what they store, and one that completes stores it and finishes
(R212, R214, R215, R224, R225, R226, R227, R211). -/
def Obligations.TileResults : Prop :=
  (∀ (s : State) (core gid op : Nat) (g : Group) (k : BitVec 4) (r : BitVec 6) (d a n : BitVec 3) (u : UnitOp),
    s.group? gid = some g → g.nextUnit = some (op, u) → g.core = core → (s.core core).unitFree ≤ (s.core core).cycle.toNat →
    s.unitOpen g op u = true → g.tilesFree u.ins = true →
    let c := s.core core
    let cd := g.cfg c d.toNat
    let seen := (s.unitCells g u).map fun x => x.1
    let starts (i : Instr) (holds : State → UnitOp → Prop) : Prop := u.ins = i →
      ∃ t g', exec (.matrixOpStart core gid) s = .next t ∧ t.group? gid = some g' ∧
        (∀ x ∈ g'.flight, x.id = op → ∃ v, x.work = .matrix v ∧ v.started = true ∧ v.ins = i ∧ holds t v) ∧
        (∀ c i, (t.core c).cell i = (s.core c).cell i) ∧ ∀ j, j ≠ gid → t.group? j = s.group? j
    let begins (i : Instr) (holds : State → Prop) : Prop := starts i fun t v => v.out = u.out ∧ holds t
    let takes (i : Instr) (bytes : List Byte) : Prop := starts i fun t v => (∀ p, t.homeByte p = s.homeByte p) ∧
      ((bytePlaces u.segs).length = bytes.length → (v.out.flatMap fun w => w.bytes) = bytes ∧
        (v.out.flatMap fun w => spread w.place w.bytes.length) = bytePlaces u.segs)
    let tile (t : State) (f : Nat → Nat → Byte) : Prop :=
      ∀ y < cfgRows cd, ∀ x < cfgRow cd, t.homeByte (g.tilePlace d.toNat y + x) = f y x
    cfgRows cd ≤ 64 → cfgRow cd ≤ 128 → g.tile0 + d.toNat < 32 → g.acc0 + k.toNat + 4 ≤ 32 →
    begins (.tld d r) (fun t => seen.length = cfgRows cd * cfgRow cd → tile t fun y x => seen.getD (cfgRow cd * y + x) 0) ∧
    begins (.tzero d) (fun t => tile t fun _ _ => 0) ∧
    begins (.ttrans d a) (fun t => tile t fun y x =>
      s.homeByte (g.tilePlace a.toNat (x / cfgBytes cd) + cfgBytes cd * y + x % cfgBytes cd)) ∧
    begins (.zrd k r d) (fun t => tile t fun y x =>
      let e := s.homeNum (g.elemPlace k.toNat u.kind y (x / cfgBytes cd)) (if u.kind = 2 then 16 else 4)
      BitVec.ofNat 8 (readElement u.kind u.scalar ((modeOfCode u.mode).getD .rn) e / 256 ^ (x % cfgBytes cd))) ∧
    begins (.zclr k n) (fun t => ∀ x < (if u.kind = 2 ∨ n.toNat = 2 then 65536 else 16384), t.homeByte (g.accPlace k.toNat + x) = 0) ∧
    begins (.zld k r n) (fun t => seen.length = imageBytes n.toNat → ∀ x < imageBytes n.toNat, t.homeByte (g.accPlace k.toNat + x) = seen.getD x 0) ∧
    takes (.tst d r) ((List.range (cfgRows cd)).flatMap fun y => (spread (g.tilePlace d.toNat y) (cfgRow cd)).map s.homeByte) ∧
    takes (.zst k r) ((spread (g.accPlace k.toNat) (imageBytes u.kind)).map s.homeByte)) ∧
  ∀ (s : State) (core gid op : Nat) (g : Group) (u : UnitOp) (older younger : List (Nat × Nat)),
    (s.core core).matrix = older ++ (gid, op) :: younger → s.flying gid op g (.matrix u) → g.core = core →
    u.started = true → u.ends ≤ (s.core core).cycle.toNat → (∀ w ∈ u.out, s.mayUnitWrite g op u.mode w = true) →
    (∀ y ∈ older, ∀ x, s.unitDone core y = some x → u.ends < x.2.2.2.ends) →
    (∀ y ∈ younger, ∀ x, s.unitDone core y = some x → u.ends ≤ x.2.2.2.ends) →
    g.versioned = false → (∀ v ∈ s.versions, v.team ≠ g.team) → (∀ w ∈ (s.core core).l1, w.place + w.bytes.length ≤ chipBase) →
    (∀ w ∈ u.out, isChip w.place = true ∨ w.place + w.bytes.length ≤ chipBase) →
    ∃ t, exec (.matrixOpComplete core) s = .next t ∧ t.landed gid op ∧
      (t.core core).matrix = (s.core core).matrix.filter (fun y => (t.work? y.1 y.2).isSome) ∧ (∀ c i, (t.core c).cell i = (s.core c).cell i) ∧
      (∀ before w after, u.out = before ++ w :: after → (∀ y ∈ after, meets (w.place, w.bytes.length) (y.place, y.bytes.length) = false) →
        t.view core g.team w.place w.bytes.length = w.bytes) ∧
      (∀ p, isChip p = false → isAdobe p = false → (∀ w ∈ u.out, p < w.place ∨ w.place + w.bytes.length ≤ p) →
        t.viewByte core g.team p = s.viewByte core g.team p) ∧
      ∀ j, j ≠ gid → t.group? j = s.group? j

/-- COPY, COPYH and GATHER whose request is good put a copy in flight, and RECFENCE drops records from the record caches (R249, R250,
R251, R252, R253, R254, R255). -/
def Obligations.CopyIssueResults : Prop :=
  ∀ (s : State) (e : Env) (d h : BitVec 4) (r i : BitVec 6) (p : BitVec 3) (w : BitVec 1), Settled s e → e.slot.mask ≠ 0 →
    let good (s0 : State) (q : Request) : Prop := q.shapeFault = none ∧ copyUncovered q.src q.dst q.rows = false ∧
      copyOverlaps q.elems (copyBytes q.dst) = false ∧ s0.copyFault e.engine q.reach = none ∧
      e.overflowTrap s0 [] (copyWrites (s0.copyMoves e.engine q) (s0.copySignal e.engine q)) = none
    let room : Prop := e.g.counter .cpy < 63 ∧ e.core.copies.length < 16
    let writes (s0 : State) (q : Request) := copyWrites (s0.copyMoves e.engine q) (s0.copySignal e.engine q)
    let issues (j : Instr) (s0 : State) (q : Request) (records : State → Prop) : Prop :=
      let s1 := ((q.reach.foldl (fun s x => s.touchRange e.engine x.va x.n x.kind) s0).reserveVersions e.g (writes s0 q)).releasePins e.g.core e.g.team
      ∃ t, exec j s = .next t ∧ Launches s1 t e .cpy (.copy (e.hints.scope.getD 2) (e.hints.cache.getD 0) (s0.copyMoves e.engine q) (s0.copySignal e.engine q)
          (q.reach.map fun x => (x.va, x.n))) [] { core := fun c => { c with copies := [], records := [] } } ∧
        (t.core e.g.core).copies = e.core.copies ++ [(e.gid, s.nextId)] ∧ records t
    let shapes : Request := { src := e.g.shape h.toNat, dst := e.g.shape d.toNat, srcNo := h.toNat, dstNo := d.toNat }
    (Fits e { runs := .program, accepts := copyAccepts } (.copyh d h) → room → good s shapes → e.acquireHeld = false →
      issues (.copyh d h) s shapes fun t => (t.core e.g.core).records = e.core.records) ∧
    (let va := lowBits 64 (((e.scalar r.toNat).toNat : Int) + e.offset)
     let teams := (s.gang (s.team e.g.team).gang).map.length
     let record (j : Instr) (rows : Option (List Nat)) : Prop :=
      room → va % 64 = 0 → e.Clean r.toNat → (e.g.prot = true → e.pairDiffers r.toNat (BitVec.allOnes 64) e.lowest = false) →
      (∀ x, (e.core.records.find? fun y => y.team == e.g.team && y.va.toNat == va) = some x → e.acquireHeld = false →
        good s (recordRequest x.record teams rows) → issues j s (recordRequest x.record teams rows) fun t => (t.core e.g.core).records.head? = some x) ∧
      (∀ segs, (e.core.records.find? fun y => y.team == e.g.team && y.va.toNat == va) = none → s.checkRange e.who va 192 64 .read = .ok segs →
        e.acquireHeld = false → e.g.reaches segs = false → (∀ x ∈ segs, s.pinnedFrom e.g.team x.1 x.2 = false) →
        let b := BitVec.ofNat 1536 (numOf (segs.flatMap fun x => if onChip ≤ va then s.readHome x.1 x.2 else s.view e.g.core e.g.team x.1 x.2))
        let s0 := s.touchRange e.who va 192 .read
        good s0 (recordRequest b teams rows) → issues j s0 (recordRequest b teams rows) fun t =>
          (t.core e.g.core).records.head? = some { team := e.g.team, va := BitVec.ofNat 64 va, record := b })
     (Fits e { runs := .program, accepts := { copyAccepts with offset := true }, regs := [r.toNat] } (.copy r) → record (.copy r) none) ∧
     (Fits e { runs := .program, accepts := { copyAccepts with offset := true, neg := true }, guard := some p.toNat, regs := [i.toNat, r.toNat] }
       (.gather i r p w) → e.Clean i.toNat → record (.gather i r p w) (some (e.gatherRows i.toNat p.toNat w.toNat)))) ∧
    (Fits e { runs := .program, accepts := { scope := true }, regs := [r.toNat] } (.recfence r) → e.Clean r.toNat →
      (e.scalar r.toNat).toNat % 64 = 0 → (∀ o ∈ e.g.flight, o.work.stores = false ∨ o.finished = true) → (2 ≤ e.hints.scope.getD 1 → s.canDrain e.g.core = true) →
      ∃ t g, exec (.recfence r) s = .next t ∧ t.group? e.gid = some g ∧ g.rest = e.g.rest ∧ g.preds = e.g.preds ∧
        (g.slot e.src).pc = e.slot.pc + 4 ∧ (∀ c, (t.core c).records = (s.core c).records.filter fun x =>
          !(x.va == e.scalar r.toNat && s.fencedTeam e.g.team (e.hints.scope.getD 1) x.team)) ∧
        (∀ c k, (t.core c).cell k = (s.core c).cell k) ∧ ∀ gid, gid ≠ e.gid → t.group? gid = s.group? gid)

/-- A copy that completes has its elements at every destination and its completion word one higher; one of a killed gang ends its
lines (R250, R256, R257, R267). -/
def Obligations.CopyResults : Prop :=
  ∀ (s : State) (core gid op scope cache : Nat) (rest : List (Nat × Nat)) (moves : List Move) (signal : Option (Nat × Bool))
      (ranges : List (Nat × Nat)) (g : Group),
    (s.core core).copies = (gid, op) :: rest → s.flying gid op g (.copy scope cache moves signal ranges) → g.core = core →
    (s.core core).l1 = [] → (s.core core).signals = [] →
    ((∃ o ∈ g.before op, o.finished = false ∧ o.work.stores = true) → exec (.copyComplete core) s = .next s) ∧
    ((∀ o ∈ g.before op, o.finished = true ∨ (o.work.stores = false ∧ ∀ p q c, o.work ≠ .enq p q c)) →
      (∀ m ∈ moves, (∀ x, m.src = some x → s.endPinned g x = false) ∧ ∀ d ∈ m.dsts, s.endPinned g d = false) →
      (∀ v ∈ s.versions, v.team ≠ g.team) → (∀ e ∈ s.groups, e.2.team = g.team → e.2.versioned = false) → g.versioned = false →
      let ends := moves.flatMap fun m => m.dsts
      let places := ends.flatMap fun d => bytePlaces d.segs
      let word (y : Nat) : Prop := ∃ p, signal = some p ∧ p.1 ≤ y ∧ y < p.1 + 8
      (s.killed g = true →
        let begun := moves.flatMap fun m => m.did.flatMap fun d => (bytePlaces d.segs).map lineOf
        ∃ t, exec (.copyComplete core) s = .next t ∧ (t.core core).copies = (gid, op) :: rest ∧
          t.work? gid op = some (.copy scope cache [] signal ranges) ∧
          (∀ y, isChip y = false → isAdobe y = false →
            (∀ d ∈ ends, y ∈ bytePlaces d.segs → ∀ p ∈ bytePlaces d.segs, lineOf p ∉ begun) → t.homeByte y = s.homeByte y) ∧
          (∀ c k, (t.core c).cell k = (s.core c).cell k) ∧ ∀ j, j ≠ gid → t.group? j = s.group? j) ∧
      (s.killed g = false → (∀ p, signal = some p → s.pinnedFrom g.team p.1 8 = false ∧ s.halfOn none (lineOf p.1) = false ∧ p.1 % 8 = 0) →
        places.Nodup → (∀ y ∈ places, ¬ word y) →
        ∃ t, exec (.copyComplete core) s = .next t ∧ t.landed gid op ∧ (t.core core).copies = rest ∧
          (∀ m ∈ moves, ∀ d ∈ m.dsts, ∀ j < (bytePlaces d.segs).length,
            let y := (bytePlaces d.segs).getD j 0
            (∀ bs, m.held = some bs → j < bs.length → t.homeByte y = (bs.getD j (0, false)).1) ∧
            (∀ x, m.held = none → m.src = some x → j < (bytePlaces x.segs).length → t.homeByte y = s.homeByte ((bytePlaces x.segs).getD j 0)) ∧
            (m.held = none → m.src = none → j < m.bytes → t.homeByte y = (bytesOf m.const.toNat m.bytes).getD j 0)) ∧
          (∀ p, signal = some p → isChip p.1 = false → isAdobe p.1 = false → t.homeNum p.1 8 = (s.homeNum p.1 8 + 1) % 2 ^ 64) ∧
          (∀ y, isChip y = false → isAdobe y = false → y ∉ places → ¬ word y → t.homeByte y = s.homeByte y) ∧
          (∀ c k, (t.core c).cell k = (s.core c).cell k) ∧ ∀ j, j ≠ gid → t.group? j = s.group? j))

/-- BARINIT and BARMASK set an object, an arrival that reaches it counts its group, and a slot goes on once its generation has passed
(R259, R260, R261, R262, R263). That cause 0x12 hands every lane of the slot is the model's choice of log 30, and that a group which is a
member no more goes on at once that of log 70. -/
def Obligations.BarrierResults : Prop :=
  (∀ (s : State) (e : Env) (m b r : BitVec 6) (k : BitVec 2), Settled s e → e.slot.mask ≠ 0 →
    let gang := s.gangOf e.g
    let n := (e.scalar b.toNat).toNat
    let x := (s.gang gang).barrier n
    let clean6 : Prop := ∀ c ∈ e.copies, ∀ l < 6, e.core.cellPoison (e.cellOf c m.toNat l) = 0
    let sets (t : State) (y : Barrier) : Prop := Leaves s t e { state := fun s => { s with gangs := [] } } ∧
      (∀ j, j ≠ gang → t.gang j = s.gang j) ∧ (∀ j, (t.gang gang).barrier j = if j = n then y else (s.gang gang).barrier j) ∧
      { t.gang gang with barriers := [] } = { s.gang gang with barriers := [] }
    let passes (y : Barrier) : Barrier := if y.mask ≠ 0 ∧ y.arrived &&& y.mask = y.mask then { y with gen := y.gen + 1, arrived := 0 }
      else { y with arrived := y.arrived &&& y.mask }
    (Fits e { runs := .program, regs := (if k = 0 then [m.toNat] else []) ++ [b.toNat] } (.barinit m b k) → e.Clean b.toNat → (k = 0 → clean6) →
      (n < (s.gang gang).nb → 
        let mask := if k = 0 then e.maskReg m.toNat else if k = 1 then s.teamMembers e.g.team else s.clusterMembers gang
        ∃ t, exec (.barinit m b k) s = .next t ∧ sets t { gen := x.gen + 1, arrived := 0, mask := mask }) ∧
      ((s.gang gang).nb ≤ n → e.Stoppable → ∃ t, exec (.barinit m b k) s = .next t ∧
        Stops s t e 0x12 (maskOf e.lanes) (inLanes e.lanes (e.scalar b.toNat)) (inLanes e.lanes 0) e.stopPc)) ∧
    (Fits e { runs := .program, regs := (if k = 3 then [] else [m.toNat]) ++ [b.toNat] } (.barmask m b k) → e.Clean b.toNat → (k ≠ 3 → clean6) →
      n < (s.gang gang).nb →
      let mask := if k = 0 then e.maskReg m.toNat else if k = 1 then x.mask ||| e.maskReg m.toNat
        else if k = 2 then x.mask &&& ~~~(e.maskReg m.toNat) else x.mask &&& ~~~(s.memberBit e.g)
      ∃ t, exec (.barmask m b k) s = .next t ∧ sets t (passes { x with mask := mask })) ∧
    (let scope := e.hints.scope.getD 2
     let sends (i : Instr) (a : Arrival) : Prop := n < (s.gang gang).nb → e.Clean b.toNat → (∀ y ∈ e.g.arrivals, y.src ≠ e.src) →
       s.mayArrive e.g scope = true → ∃ t g, exec i s = .next t ∧ t.group? e.gid = some g ∧ g.arrivals = e.g.arrivals ++ [a] ∧
         (g.slot e.src).life = .stalled ∧ (g.slot e.src).pc = e.slot.pc ∧ g.preds = e.g.preds ∧ (∀ c i, (t.core c).cell i = (s.core c).cell i) ∧
         (2 ≤ scope → (t.core e.g.core).l1 = [] ∧ (t.team e.g.team).idempotent = false) ∧ ∀ gid, gid ≠ e.gid → t.group? gid = s.group? gid
     let waits (i : Instr) (token : BitVec 32) : Prop := n < (s.gang gang).nb → e.Clean b.toNat →
       let past := (x.gen - token).toNat
       (1 ≤ past ∧ past < 2 ^ 31 → ∃ t, exec i s = .next t ∧ Leaves s t e { group := fun g => { g with token := [] } }) ∧
       (¬ (1 ≤ past ∧ past < 2 ^ 31) → Stalls i s e)
     (Fits e { closes := .own, runs := .program, accepts := barAccepts, regs := [r.toNat, b.toNat] } (.arrive r b) →
       sends (.arrive r b) { src := e.src, object := n, cells := e.cells.map fun c => e.cellOf c.1 r.toNat c.2, sync := false }) ∧
     (Fits e { closes := .own, runs := .program, accepts := barAccepts, regs := [r.toNat, b.toNat] } (.waitb r b) → e.Clean r.toNat →
       waits (.waitb r b) ((e.scalar r.toNat).setWidth 32)) ∧
     (Fits e { closes := .own, runs := .program, accepts := barAccepts, regs := [b.toNat] } (.barsync b) →
       (NMap.find e.g.token (srcCode (some e.src)) = none → sends (.barsync b) { src := e.src, object := n, cells := [], sync := true }) ∧
       ∀ token, NMap.find e.g.token (srcCode (some e.src)) = some token → waits (.barsync b) (BitVec.ofNat 32 token)))) ∧
  ∀ (s : State) (gid : Nat) (g : Group) (a : Arrival), s.group? gid = some g → g.arrivals = [a] → (a.src = .slotA ∨ a.src = .slotB) →
    g.life = .live → g.preempt = false → g.frameReq = none → g.defers = [] → g.div = [] → g.joins = [] →
    (g.slot a.src).life = .stalled → ((g.slot a.src.other).life = .ready ∨ (g.slot a.src.other).life = .stalled ∨ (g.slot a.src.other).life = .empty) →
    a.cells.Nodup → (∀ c ∈ a.cells, c < 65536) → a.object < (s.gang (s.gangOf g)).nb →
    let x := (s.gang (s.gangOf g)).barrier a.object
    let bit := s.memberBit g
    let all := x.arrived ||| bit
    (x.mask &&& bit ≠ 0 → x.arrived &&& bit ≠ 0 → exec (.barrierArrival gid) s = .next s) ∧
    ((x.mask &&& bit = 0 ∨ x.arrived &&& bit = 0) → ∃ t h, exec (.barrierArrival gid) s = .next t ∧ t.group? gid = some h ∧ h.arrivals = [] ∧
      (t.gang (s.gangOf g)).barrier a.object = (if x.mask &&& bit = 0 then x
        else if all &&& x.mask = x.mask then { x with gen := x.gen + 1, arrived := 0 } else { x with arrived := all &&& x.mask }) ∧
      (if a.sync then NMap.find h.token (srcCode (some a.src)) = some x.gen.toNat ∧ (h.slot a.src).pc = (g.slot a.src).pc
       else (h.slot a.src).pc = (g.slot a.src).pc + 4 ∧ (h.slot a.src).life = .ready ∧
        ∀ c ∈ a.cells, (t.core g.core).cell c = x.gen.setWidth 64) ∧
      (∀ c, c ∉ a.cells → (t.core g.core).cell c = (s.core g.core).cell c) ∧ ∀ j, j ≠ gid → t.group? j = s.group? j)

/-- DISCARD drops lines, ADOBEQ reads page state, TLBINV drops translations and MAPPG maps or unmaps a page (R326, R328, R339, R340,
R341, R342). -/
def Obligations.PageInstructions : Prop :=
  (∀ (s : State) (gid op : Nat) (lines : List Nat) (g : Group), s.flying gid op g (.discard lines) →
    (∀ l ∈ lines, s.pinnedFrom g.team (128 * l) 128 = false) → g.held op (lines.map fun l => (128 * l, 128)) = false →
    ∃ t, exec (.storePerformed gid op) s = .next t ∧ t.landed gid op ∧
      (∀ y, lineOf y ∈ lines → NMap.find t.l2 y = none ∧ ∀ c, l1Byte y (t.core c).l1 = none) ∧
      (∀ y, lineOf y ∉ lines → isAdobe y = false → ∀ core team, t.viewByte core team y = s.viewByte core team y) ∧
      (∀ c i, (t.core c).cell i = (s.core c).cell i) ∧ ∀ j, j ≠ gid → t.group? j = s.group? j) ∧
  ∀ (s : State) (e : Env) (d r b : BitVec 6) (p : BitVec 3) (k : BitVec 2), Settled s e → e.slot.mask ≠ 0 →
    let agree (x : BitVec 6) : Prop := e.Clean x.toNat ∧ (e.g.prot = true → e.pairDiffers x.toNat (BitVec.allOnes 64) e.lowest = false)
    (let a := lowBits 64 (((e.scalar b.toNat).toNat : Int) + e.offset)
     let n := (e.scalar r.toNat).toNat
     Fits e { closes := .own, accepts := { offset := true }, regs := [b.toNat, r.toNat] } (.discard r b) → agree r → agree b →
     a % 128 = 0 → n % 128 = 0 → 0 < n → a + n ≤ onChip → e.g.versioned = false → e.g.counter .st < 63 →
     ∀ segs, s.checkRange { e.who with unlisted := true } a n 1 .write = .ok segs → e.acquireHeld = false →
     ∃ t, exec (.discard r b) s = .next t ∧
       Launches (s.touchRange e.who a n .write) t e .st (.discard (lineRange segs)) []
          { group := fun g => { g with flight := [] }, state := fun s => { s with teams := [] } }) ∧
    (Fits e { accepts := { neg := true }, guard := some p.toNat, regs := [d.toNat] ++ if k = 2 then [] else [r.toNat] } (.adobeq d r p k) →
      (k ≠ 2 → e.Clean r.toNat ∧ ∀ l ∈ e.active p.toNat, s.walkHeld e.who.root (e.val 0 r.toNat l).toNat = false) → e.g.counter .ld < 63 →
      let word (l : Nat) : Nat :=
        if k = 0 then s.pageWord e.who.root (e.val 0 r.toNat l).toNat
        else if k = 1 then s.sliceWord e.who.ctx e.who.root (e.val 0 r.toNat l).toNat else s.contextReserved e.who.ctx
      ∃ t, exec (.adobeq d r p k) s = .next t ∧ Launches s t e .ld (.adobeq ((e.active p.toNat).flatMap fun l => e.copies.map fun c =>
        { cell := e.cellOf c d.toNat l, bits := BitVec.allOnes 64, value := BitVec.ofNat 64 (word l) })) [([e.reg d.toNat], 0)]) ∧
    (let a := (e.scalar b.toNat).toNat
     let n := (e.scalar r.toNat).toNat
     let covers : Covers := { ctx := if k = 2 then none else some e.who.ctx, range := if k = 0 then some (a, n) else none }
     Fits e { runs := .supervisor, regs := if k = 0 then [b.toNat, r.toNat] else [] } (.tlbinv r b k) →
     (k = 0 → e.Clean b.toNat ∧ e.Clean r.toNat ∧ a % 4096 = 0 ∧ n % 4096 = 0) → s.handlerDone e = true →
     ((s.drainHandler e.g.core e.gid).drainFrees).writesHeld covers = false → s.copiesWithin covers = false →
     ∃ t g, exec (.tlbinv r b k) s = .next t ∧ t.group? e.gid = some g ∧ (g.slot e.src).pc = e.slot.pc + 4 ∧
       (∀ c, (t.core c).tlb = (s.core c).tlb.filter fun x => !covers.hits x.ctx x.page x.bytes) ∧
       (∀ c i, (t.core c).cell i = (s.core c).cell i) ∧ ∀ gid, gid ≠ e.gid → t.group? gid = s.group? gid) ∧
    (let va := (e.scalar b.toNat).toNat
     let word : Prop := p = 1 ∨ p = 2 ∨ p = 3
     Fits e { runs := .supervisor, regs := [d.toNat, b.toNat] } (.mappg d b p) → e.Clean b.toNat → (word → e.Clean d.toNat) →
     s.handlerDone e = true → s.mapHeld (some e.g.team) e.who.ctx e.who.root e.who.pool va p.toNat = false →
     let s0 := s.drainHandler e.g.core e.gid
     let out := s0.mapPage e.who.ctx e.who.root e.who.pool va p.toNat (e.scalar d.toNat).toNat
     (∃ t, exec (.mappg d b p) s = .next t ∧ LeavesAfter out.1 t e { cells := e.cellsOf d.toNat } ∧
       ∀ c ∈ e.copies, ∀ l ∈ e.lanes, (t.core e.g.core).cell (e.cellOf c d.toNat l) = out.2) ∧
     (p ≠ 4 → canonical va = true → (∃ a lv q, s0.walk e.who.root va = .leaf a lv q) → out = (s0, 0)) ∧
     (canonical va = false → out = (s0, BitVec.allOnes 64)))

/-- BURN, SHUNT and BALCLASS set their value from the lowest active lane, and BALRD reads the balance word (R203, R234, R235, R236). -/
def Obligations.BalanceResults : Prop :=
  ∀ (s : State) (e : Env) (r : BitVec 6) (p : BitVec 3), Settled s e →
    let fits (i : Instr) : Prop := Fits e (balForm p.toNat [r.toNat]) i ∧ e.Clean r.toNat
    let first : Option Nat := (e.active p.toNat).head?.map fun l => (e.val 0 r.toNat l).toNat
    (fits (.burn r p) → ∃ t g, exec (.burn r p) s = .next t ∧ Leaves s t e { group := fun g => { g with burn := 0 } } ∧ t.group? e.gid = some g ∧
      g.burn = match first with
        | some v => min 255 v
        | none => e.g.burn) ∧
    (fits (.shunt r p) → ∃ t g, exec (.shunt r p) s = .next t ∧ Leaves s t e { group := fun g => { g with shunt := 0 } } ∧ t.group? e.gid = some g ∧
      g.shunt = match first with
        | some v => min 255 v
        | none => e.g.shunt) ∧
    (fits (.balclass r p) → (NMap.find s.teams e.g.team).isSome = true →
      ∃ t, exec (.balclass r p) s = .next t ∧ Leaves s t e { state := fun s => { s with teams := [] } } ∧
        ∀ k, t.team k = if k = e.g.team ∧ first.isSome ∧ first.getD 0 < 4 then { s.team k with balClass := BitVec.ofNat 2 (first.getD 0) } else s.team k) ∧
    (Fits e (balForm p.toNat [r.toNat]) (.balrd r p) →
      ∃ t, exec (.balrd r p) s = .next t ∧ WritesLanes s t e r.toNat (some p.toNat) fun _ _ => s.balWord e.g.core)

/-- A drained group ends and frees its frames, versions are merged, a team's bit and DONE are set, and a kill forgets the gang's teams
(R55, R56, R57, R58, R192, R266, R267, R285, R335, R336). -/
def Obligations.GroupAndTeamEnds : Prop :=
  (∀ (s : State) (gid : Nat) (g : Group), s.group? gid = some g → g.life = .draining → g.emptied = true →
    let x := s.team g.team
    ((s.gang x.gang).kill ≠ none → exec (.groupDrained gid) s = .next s) ∧
    ((s.gang x.gang).kill = none → (s.lastToEnd g.team gid = false ∧ x.life = .live ∨
      s.lastToEnd g.team gid = true ∧ s.teamWritesHeld x.core g.team = false ∧ x.life ≠ .ended) →
    ∃ t h, exec (.groupDrained gid) s = .next t ∧ t.group? gid = some h ∧ h.life = .ended ∧ h.frames = [] ∧ h.flight = [] ∧ h.defers = [] ∧
      (∀ r ∈ g.frames.flatMap (fun (f : Frame) => f.grans), r ∉ (s.core g.core).withdrawn → r ∈ (t.core g.core).free) ∧
      (t.team g.team).life = (if s.lastToEnd g.team gid then .ended else .live) ∧
      (s.lastToEnd g.team gid = true → ∀ p ∈ t.pins, p.team ≠ g.team) ∧ ∀ j, j ≠ gid → t.group? j = s.group? j)) ∧
  (∀ (s : State) (gid : Nat) (g : Group), s.group? gid = some g → g.preempt = true → (s.team g.team).life = .saving → g.drained = true →
    let gang := (s.team g.team).gang
    (s.gang gang).kill = none → s.lastToSave g.team gid = false → s.groupHeld g = false →
      ((s.saveGroup gid).isSome = true → ∃ t h, exec (.groupSave gid) s = .next t ∧ t.group? gid = some h ∧ h.life = .saved ∧ h.preempt = false) ∧
      (s.saveGroup gid = none → g.team ∈ (s.gang gang).teams →
        ∃ t, exec (.groupSave gid) s = .next t ∧ (t.gang gang).kill = some { cause := 0x34, group := none })) ∧
  (∀ (s : State) (team : Nat) (x : Team), NMap.find s.teams team = some x → x.life = .ended →
    (s.gang x.gang).kill = none →
    let vs := s.versions.filter fun v => v.team == team
    (∀ v ∈ vs, (∀ p ∈ s.pins, p.line ≠ v.line) ∧ (NMap.keys v.bytes).Nodup ∧ (∀ k ∈ NMap.keys v.bytes, k < 128) ∧
      isAdobe (128 * v.line) = false ∧ 128 * v.line + 128 ≤ chipBase) → (vs.map fun (v : VersionLine) => v.line).Nodup →
    ∃ t, exec (.versionCommit team) s = .next t ∧ (∀ v ∈ t.versions, v.team ≠ team) ∧ (∀ v ∈ s.versions, v.team ≠ team → v ∈ t.versions) ∧
      (t.team team).vcount = x.vcount - vs.length ∧ ∀ v ∈ vs, ∀ k < 128, t.homeByte (128 * v.line + k) = (NMap.find v.bytes k).getD (s.homeByte (128 * v.line + k))) ∧
  (∀ (s : State) (team p d : Nat) (x : Team) (l : Launch), NMap.find s.teams team = some x → s.launches = [(x.launch, l)] → x.life = .ended →
    x.completed = false → (∀ v ∈ s.versions, v.team ≠ team) → s.signalsOf team = false → s.bitmapPinned l x.number = false → l.status ≠ 7 → l.finished = false →
    l.depMode = 0 → l.allOver = false → (∃ y ∈ (s.gang x.gang).teams, y ≠ team ∧ (s.team y).completed = false) → (s.gang x.gang).kill = none →
    let s0 := s.releasePins x.core team
    let bit := l.cbAddr + 64 + x.number / 8
    s0.ctxPlace l.ctx bit .rmw = some p → s0.ctxPlace l.ctx (l.cbAddr + 8) .rmw = some d →
    let s1 := s0.writeHome p (bytesOf (Nat.lor (s0.homeNum p 1) (2 ^ (x.number % 8))) 1) false
    let s2 := s1.writeHome d (bytesOf (s1.homeNum d 8 + 1) 8) false
    ∃ t, exec (.teamCompletion team) s = .next t ∧ (t.team team).completed = true ∧
      ∀ y, t.homeByte y = ((s2.ctxTouch l.ctx bit true).ctxTouch l.ctx (l.cbAddr + 8) true).homeByte y) ∧
  ∀ (s : State) (gang : Nat) (g : Gang) (k : Kill), NMap.find s.gangs gang = some g → g.kill = some k → g.killed = false →
    let dead := g.teams.filter fun t => !s.keepsTeam t
    let quiet (x : Nat) : Prop := s.teamWritesHeld (s.team x).core x = false ∧ ((s.team x).committing = true → ∀ v ∈ s.versions, v.team ≠ x) ∧
      ∀ gid ∈ (s.team x).groups, ∀ y, s.group? gid = some y →
      s.arrivalDue y = false ∧ ∀ o ∈ y.flight, o.completes = false
    ((∃ x ∈ dead, ¬ quiet x) → ∃ t, exec (.gangKill gang) s = .next t ∧ t.groups = s.groups ∧ t.teams = s.teams ∧ t.gangs = s.gangs ∧
      ∀ x ∈ dead, quiet x → ∀ p ∈ t.pins, p.team ≠ x) ∧
    ((∀ x ∈ dead, quiet x) → ∃ t, exec (.gangKill gang) s = .next t ∧ (t.gang gang).killed = true ∧ (t.gang gang).nb = 0 ∧
      (t.gang gang).teams = g.teams.filter (fun x => s.keepsTeam x) ∧
      (∀ x ∈ dead, NMap.find t.teams x = none ∧ ∀ gid ∈ (s.team x).groups, t.group? gid = none) ∧
      ∃ r ∈ (t.host.ring 1).waiting, r.after = .kill gang)

/-- A saved team is restored where R293 says, a killed gang is placed again, and pre-emption, time-outs and migration save teams
(R269, R288, R293, R295, R296, R292). That a cluster's 100 microseconds begin again at the request or the fence is the model's choice of
log 72. -/
def Obligations.RestoresAndRelaunches : Prop :=
  (∀ (s : State) (team d c : Nat), (List.range 4).find? (fun d => (s.die d).restore.contains team) = some d →
    (NMap.find s.teams team).isSome = true →
    ((s.restores d).find? fun t => (s.restoreCore d t fun _ => true).isSome) = some team → s.imageReached team = false →
    s.restoreCore d team (fun _ => true) = some c → s.restoreHeld team = false →
    (s.areaReady team (s.readContext { s.team team with core := c } (s.team team).ctx)).isSome = true →
    ∃ t, exec (.teamRestore team) s = .next t ∧ (t.team team).life = .live ∧ (t.team team).core = c ∧ (t.team team).placed = s.clock ∧
      ∀ x, team ∉ (t.die x).restore) ∧
  (∀ (s : State) (gang o : Nat) (g : Gang) (l : Launch) (since : Option Nat), NMap.find s.gangs gang = some g →
    NMap.find s.launches g.launch = some l → l.cluster g.cluster = .relaunch gang since → gang ≠ s.nextId →
    s.offerFits (g.launch, g.cluster) = some o → s.nextOffer (dieOf o) = some (g.launch, g.cluster) → s.contextHeld l.ctx = false →
    ∃ t h, exec (.gangRelaunch gang) s = .next t ∧ NMap.find t.gangs gang = none ∧ NMap.find t.gangs s.nextId = some h ∧
      h.relaunches = g.relaunches + 1 ∧ h.launch = g.launch ∧ h.cluster = g.cluster ∧ h.die = dieOf o ∧
      (NMap.get t.launches {} g.launch).cluster g.cluster = .placed s.nextId) ∧
  (∀ (s : State) (launch cluster origin : Nat) (l : Launch) (vs : List Nat), NMap.find s.launches launch = some l → l.die < 4 →
    l.finished = false → s.mayPlace l cluster = true → s.recordHeld l = false → (origins l.die l.w l.h).contains origin = true →
    s.offerFits (launch, cluster) = none → s.preempts = [] → s.vacates launch l cluster origin = some vs →
    let asks (t : State) : Prop := t.preempts = [{ launch := launch, cluster := cluster, origin := origin, victims := vs }] ∧
      ∀ x ∈ vs, (s.team x).life = .live → (t.team x).life = .saving ∧
        ∀ gid ∈ (s.team x).groups, ∀ g, s.group? gid = some g → g.life ≠ .ended → g.life ≠ .draining →
          ∃ h, t.group? gid = some h ∧ h.preempt = true ∧ h.frameReq = g.frameReq
    (∃ t, exec (.spatialPreemption launch cluster origin) s = .next t ∧ asks t) ∧
    ∀ w, (l.cluster cluster).since = some w → w + 100000 ≤ s.clock → s.fenceChoice launch l cluster = some origin →
      (∀ x ∈ (rectangle origin l.w l.h).flatMap s.teamsOn, x.2.prio < l.prio) →
      ∃ t, exec (.placementTimeout launch cluster) s = .next t ∧ asks t ∧ ((NMap.get t.launches {} launch).cluster cluster).since = some s.clock) ∧
  (∀ (s : State) (launch cluster o w : Nat) (l : Launch), NMap.find s.launches launch = some l → (l.cluster cluster).since = some w →
    w + 100000 ≤ s.clock → s.mayPlace l cluster = true → s.offerFits (launch, cluster) = none → s.fenceChoice launch l cluster = some o →
    (∃ x ∈ (rectangle o l.w l.h).flatMap s.teamsOn, l.prio ≤ x.2.prio) →
    (∀ f ∈ (s.die l.die).fences, f.launch ≠ launch ∨ f.cluster ≠ cluster) → (s.die l.die).fences.length < 4 →
    ∃ t, exec (.placementTimeout launch cluster) s = .next t ∧
      (t.die l.die).fences = (s.die l.die).fences ++ [{ launch := launch, cluster := cluster, origin := o }] ∧
      ((NMap.get t.launches {} launch).cluster cluster).since = some s.clock ∧ t.groups = s.groups ∧ t.teams = s.teams) ∧
  ∀ (s : State) (die x : Nat) (y : Team), s.now % 10000 = 0 → (s.die die).migrated ≠ some s.now →
    let p := 40 * die + s.hottest die
    let temp := (s.plot p).temp
    95 ≤ temp → ((plotCores p).flatMap s.teamsOn).filter (fun e => e.2.life == .live && !s.skipped e.2) = [(x, y)] → s.team x = y → y.life = .live →
    (s.restoreCore die x fun c => decide (s.coreTemp c + 10 ≤ temp)).isSome = true →
    ∃ t, exec (.hotSpotMigration die) s = .next t ∧ (t.team x).life = .saving ∧ (t.team x).migrate = some temp ∧ (t.die die).migrated = some s.now

/-- Wakes set PENDING, a mapped queue is scanned and its record retained, and the next cluster is placed with its gang, map and groups
(R185, R206, R259, R273, R276, R277, R278, R282, R283, R286, R288, R290). -/
def Obligations.QueueAndPlacementEvents : Prop :=
  (∀ (s : State) (q : Nat), s.host.posted = [] → q < 32768 → (∀ j < 64, isAdobe (s.queueAt q + j) = false) → s.pinnedAgainst none (lineOf (s.queueAt q)) = false →
    ∃ t, exec (.wakeRegisterWrite q) s = .next t ∧ t.queuePending q = true ∧
      (∀ y, y ≠ s.queueAt q + 16 → isAdobe y = false → t.homeByte y = s.homeByte y) ∧
      (∀ x ∈ (t.die (s.servingDie (s.queueDie q))).slots, x.queue = q → x.seen ≠ none) ∧ t.groups = s.groups) ∧
  (∀ (s : State) (die q : Nat), s.queuePending q = true → s.queueLog q ≠ 0 → q < 32768 → s.servingDie (s.queueDie q) = die →
    (s.die die).offline = false → (s.die die).boot = false → (∀ x ∈ (s.die die).slots, x.queue ≠ q) → (s.die die).slots.length < 64 →
    s.queueHeld none q = false →
    ∃ t, exec (.queueMap die q) s = .next t ∧
      (t.die die).slots = (s.die die).slots ++ [{ queue := q, read := s.readIndex q, lastRelease := s.clock, seen := some s.clock }] ∧
      (t.homeByte (s.queueAt q + 19)).getLsbD 3 = true ∧ t.groups = s.groups) ∧
  (∀ (s : State) (die slot since : Nat) (x : QSlot), (s.die die).slots[slot]? = some x → x.seen = some since → x.scanning = false → s.launches = [] →
    s.queueHeld none x.queue = false → s.queueLog x.queue ≠ 0 →
    let q := x.queue
    let s1 := s.clearPending q
    (s.queueTail q + 2 ^ 32 - x.read) % 2 ^ 32 = 1 → (∀ j < 64, isAdobe (s.queueAt q + j) = false) →
    s1.ctxHeld (s.queueCtx q) (s.recordVa q x.read) 128 = false →
    (max 1 (bitsOf (s.queueBits q) 175 168) ≤ 1 ∨ since + bitsOf (s.queueBits q) 191 176 ≤ s.clock) →
    ∃ t l, exec (.queueScan die slot) s = .next t ∧ NMap.find t.launches s.nextId = some l ∧ l.queue = q ∧ l.index = x.read ∧ l.die = die ∧
      l.ctx = s.queueCtx q ∧ l.record = BitVec.ofNat 1024 (s1.ctxNum (s.queueCtx q) (s.recordVa q x.read) 128) ∧
      ∀ y ∈ (t.die die).slots, y.queue = q → y.read = (x.read + 1) % 2 ^ 32) ∧
  (∀ (s : State) (launch cluster o : Nat) (l : Launch), let s0 := s.noteEligible
    NMap.find s0.launches launch = some l → l.closed = false → l.finished = false → (l.cluster cluster).isWaiting = true →
    s0.recordHeld l = false → s0.bitmapMapped l = true → (l.depMode = 0 ∨ s0.producerMapped l = true) →
    s0.offerFits (launch, cluster) = some o → s0.nextOffer (dieOf o) = some (launch, cluster) →
    s.Fresh → l.w * l.h ≤ 12 → l.gt ≤ 32 →
    ∃ t g, exec (.clusterPlacement launch cluster) s = .next t ∧ NMap.find t.gangs s.nextId = some g ∧ g.launch = launch ∧ g.cluster = cluster ∧
      g.die = dieOf o ∧ g.map = rectangle o l.w l.h ∧ g.nb = l.nb ∧
      (∀ i < l.nb, (g.barrier i).gen = 0 ∧ (g.barrier i).arrived = 0 ∧
        ∀ b < 384, (g.barrier i).mask.getLsbD b = decide (b / 32 < l.w * l.h ∧ b % 32 < l.gt)) ∧
      (NMap.get t.launches {} launch).cluster cluster = .placed s.nextId ∧
      ∀ r < l.w * l.h, ∃ f, s0.fit ((rectangle o l.w l.h).getD r 0) (l.need launch cluster) = some f ∧
        let tid := s.nextId + 1 + r * (l.gt + 1)
        (t.team tid).rank = r ∧ (t.team tid).core = (rectangle o l.w l.h).getD r 0 ∧ ((t.team tid).tx, (t.team tid).ty) = l.tileAt cluster r ∧
        (t.team tid).scratch = f.scratch ∧ (t.team tid).slot0 = f.slot ∧ (t.team tid).life = .live ∧
        ∀ i k ro z, l.members[i]? = some (k, ro, z) → ∃ h, t.group? (tid + 1 + i) = some h ∧ h.life = .pending ∧ h.team = tid ∧ h.index = i ∧
          h.role = k ∧ h.core = (t.team tid).core ∧ h.number = f.numbers.getD i 0 ∧ h.tile0 = f.tiles.getD i 0 ∧ h.tiles = ro.tiles ∧
          h.acc0 = f.slot + z ∧ h.accs = ro.accum ∧ h.zshared = ro.zshared ∧
          h.a.life = .ready ∧ h.a.pc = BitVec.ofNat 64 (l.code + 4 * ro.entry) ∧ h.a.mask = (if l.prot then 0xFFFF#32 else BitVec.allOnes 32) ∧
          h.b.life = .empty ∧ h.accessPc = BitVec.ofNat 64 (l.code + 4 * ro.aentry) ∧ h.accessLife = (if ro.ae then .running else .done) ∧
          h.qdir = (if ro.ae then ro.qdir else 0) ∧ h.frames = [] ∧
          ∃ q, h.frameReq = some q ∧ q.kind = .launch ∧ q.grans = ro.grans) ∧
  (∀ (used : List (Nat × Nat)) (n bound a : Nat), 0 < n → freeRun used n 1 bound = some a →
    a + n ≤ bound ∧ (∀ u ∈ used, u.2 = 0 ∨ a + n ≤ u.1 ∨ u.1 + u.2 ≤ a) ∧ ∀ b < a, ∃ u ∈ used, u.2 ≠ 0 ∧ u.1 < b + n ∧ b < u.1 + u.2) ∧
  ∀ (s : State) (launch c : Nat) (l : Launch), s.launches = [(launch, l)] → (∀ x, s.neverMet l x = false) → l.start ≤ s.now →
    l.closed = false → l.finished = false → c < l.count →
    l.cluster c = .waiting none → s.eligible l c = true →
    ∃ t, exec (.startTimeReached launch) s = .next t ∧ (NMap.get t.launches {} launch).cluster c = .waiting (some s.clock) ∧
      t.groups = s.groups ∧ t.teams = s.teams ∧ t.mem = s.mem

/-- Requests, ramps, steps, injections and control writes move a plot as its state machine says, and a sample reads counters and
energy (R302, R303, R304, R305, R306, R307, R308). The model's choices in it: OVR comes before the limit of 105 degrees, and a write of
PLOTCTL is a request (log 41); intervals are measured on the clock (log 67); the injector's grant and its waiting starts (log 74); the last die
(log 75). -/
def Obligations.PowerEvents : Prop :=
  (∀ (s : State) (d n : Nat) (code : BitVec 4) (v : BitVec 64), let k := 40 * d + n
    let p := s.plot k
    let off (p : Plot) : Plot := { p with
      injecting := false, heavy := 0
      injections := if p.injecting then p.injections.map fun x => (x.1, min x.2 p.cycle) else p.injections }
    let goOn (p : Plot) : Plot := if p.ftgt = p.fcur then { p with dvfs := .steady }
      else if 7 < p.ftgt ∧ p.highRail = false then { off p with dvfs := .rail, since := s.clock } else { p with dvfs := .step, since := s.clock }
    let ask (p : Plot) (r : Nat) : Plot := match p.dvfs with
      | .rail => { p with fque := r, queued := true }
      | .step => { p with ftgt := r }
      | .steady => if r = p.fcur then p
        else if p.highRail = true ∨ r ≤ 7 then { p with dvfs := .step, ftgt := r, since := s.clock }
        else { off p with dvfs := .rail, ftgt := r, since := s.clock }
    let cap (p : Plot) : Nat := if p.highOk then p.fcap else min 7 p.fcap
    let same (i : Instr) : Prop := exec i s = .next s
    (¬ (d < 4 ∧ n < 40) → ∀ b, same (.plotRequest d n code) ∧ same (.railSwitchSettle d n) ∧ same (.frequencyStep d n) ∧
      same (.droopInjection d n b) ∧ same (.injectionEnd d n) ∧ same (.droopClear d n) ∧ same (.plotctlWrite d n v)) ∧
    (d < 4 → n < 40 →
    (p.request = some code.toNat → PlotEvent (.plotRequest d n code) s k
      { (if p.ovr = true ∧ p.fovr ≠ code.toNat then p else ask p (min code.toNat (cap p))) with request := none }) ∧
    (p.request ≠ some code.toNat → same (.plotRequest d n code)) ∧
    (p.dvfs = .rail → p.since + 20 ≤ s.clock → PlotEvent (.railSwitchSettle d n) s k
      (goOn { p with highRail := !p.highRail, ftgt := (if p.queued then p.fque else p.ftgt), fque := 0, queued := false })) ∧
    ((p.dvfs ≠ .rail ∨ s.clock < p.since + 20) → same (.railSwitchSettle d n)) ∧
    (p.dvfs = .step → p.since + 40 ≤ s.clock → PlotEvent (.frequencyStep d n) s k
      (if 7 < p.ftgt ∧ p.highRail = false then goOn p
       else goOn { p with fcur := (if p.fcur < p.ftgt then p.fcur + 1 else if p.ftgt < p.fcur then p.fcur - 1 else p.fcur) })) ∧
    ((p.dvfs ≠ .step ∨ s.clock < p.since + 40) → same (.frequencyStep d n)) ∧
    (∀ sensed, let q := if sensed then { p with drooping := true } else p
      ((p.highRail = true ∨ p.dvfs = .rail ∨ p.injEn = false) → PlotEvent (.droopInjection d n sensed) s k { q with heavy := 0 }) ∧
      (p.highRail = false → p.dvfs ≠ .rail → p.injEn = true →
        ((p.injecting = true ∨ (q.drooping = false ∧ p.heavy = 0)) → PlotEvent (.droopInjection d n sensed) s k q) ∧
        (p.injecting = false → (q.drooping = true ∨ p.heavy ≠ 0) →
          (p.droopCount ≤ 120 → PlotEvent (.droopInjection d n sensed) s k { q with
            injecting := true, heavy := p.heavy - 1
            injections := (p.injections.filter fun x => decide (p.cycle < x.2 + 1024)) ++ [(p.cycle, p.cycle + 8)] }) ∧
          (120 < p.droopCount → PlotEvent (.droopInjection d n sensed) s k { q with denied := true, heavy := p.heavy - 1 })))) ∧
    (p.injecting = true → (∀ x ∈ p.injections, x.2 ≤ p.cycle) → PlotEvent (.injectionEnd d n) s k { p with injecting := false }) ∧
    ((p.injecting = false ∨ ∃ x ∈ p.injections, p.cycle < x.2) → same (.injectionEnd d n)) ∧
    PlotEvent (.droopClear d n) s k { p with drooping := false, denied := false } ∧
    ((s.die d).offline = true → same (.plotctlWrite d n v)) ∧
    ((s.die d).offline = false →
      let q : Plot := { p with
        ovr := v.getLsbD 63
        fovr := min 14 (v.extractLsb' 56 4).toNat
        fcap := min 14 (v.extractLsb' 52 4).toNat
        highOk := v.getLsbD 51
        injEn := v.getLsbD 50
        request := if v.getLsbD 63 then none else p.request }
      let q := if q.injEn then q else off q
      PlotEvent (.plotctlWrite d n v) s k (ask q (min (if q.ovr then q.fovr else if q.queued then q.fque else q.ftgt) (cap q)))))) ∧
  ∀ (s : State) (x : Sample), ((s.now % 10000 ≠ 0 ∨ s.sampledAt = s.now) → exec (.stallSample x) s = .next s) ∧
    (s.now % 10000 = 0 → s.sampledAt ≠ s.now → ∃ t, exec (.stallSample x) s = .next t ∧ t.sampledAt = s.now ∧ t.powerMw = x.powerMw ∧
      t.groups = s.groups ∧ t.mem = s.mem ∧
      (∀ c, (t.core c).cyc = 0 ∧ (t.core c).issues = 0 ∧ (t.core c).mstall = 0 ∧ (t.core c).share = [] ∧
        (t.core c).cstall = BitVec.ofNat 64 ((s.core c).ratio * 2 ^ 56 + (s.core c).mstall % 2 ^ 16 * 2 ^ 32 + (s.core c).issues % 2 ^ 16 * 2 ^ 16 +
          (s.core c).cyc % 2 ^ 16)) ∧
      (∀ k < 160, (s.die (k / 40)).offline = false → let p := s.plot k
        let q := t.plot k
        let temp := NMap.get x.temps 0 k
        let down : Prop := p.dvfs = .steady ∧ p.highRail = true ∧ p.fcur ≤ 7 ∧ 1 ≤ p.cool
        q.temp = temp ∧ q.hot = (if 110 ≤ temp then p.hot + 1 else 0) ∧
        (down → q.dvfs = .rail ∧ q.ftgt = p.fcur ∧ q.since = s.clock ∧ q.cool = 0) ∧
        (¬ down → q.dvfs = p.dvfs ∧ q.ftgt = p.ftgt ∧ q.since = p.since ∧ q.cool = (if p.highRail = true ∧ p.fcur ≤ 7 then p.cool + 1 else 0)) ∧
        (p.ovr = true → q.request = some p.fovr) ∧
        (p.ovr = false → 105 ≤ temp → q.request = some 0) ∧
        (p.ovr = false → temp < 105 → (∀ c ∈ plotCores k, s.liveGroups c = []) → q.request = some 7) ∧
        ∀ id g, s.gangs = [(id, g)] → s.gangLive g = true → (∃ c ∈ s.gangCores g, c ∈ plotCores k) → p.ovr = false → temp < 105 →
          (∃ c ∈ plotCores k, s.liveGroups c ≠ []) →
          let rho := ((s.gangCores g).map fun c => (s.core c).ratio).sum / (s.gangCores g).length
          let up : Prop := rho < 52 ∧ x.powerMw ≤ 1400000
          (154 ≤ rho → p.highRail = true → q.request = some (min 7 p.fcur) ∧ q.refusals = p.refusals) ∧
          (154 ≤ rho → p.highRail = false → q.request = some (p.fcur - 1) ∧ q.refusals = (p.refusals + 1) % 256) ∧
          (rho < 154 → ¬ up → q.request = some p.fcur ∧ q.refusals = p.refusals) ∧
          (up → q.request = some (min (p.fcur + 1) (if p.highOk then p.fcap else min 7 p.fcap)) ∧ q.refusals = p.refusals)) ∧
      ((∀ c, (s.core c).share = []) → ∀ d < 4, NMap.get t.ectr 0 (512 * d + 256) = NMap.get s.ectr 0 (512 * d + 256) +
        BitVec.ofNat 64 ((List.range 40).map fun p => NMap.get x.energy 0 (40 * d + p)).sum) ∧
      let hot (k : Nat) : Prop := k < 160 ∧ (s.die (k / 40)).offline = false ∧ 110 ≤ NMap.get x.temps 0 k ∧ 1 ≤ (s.plot k).hot
      t.thermalAt = s.thermalAt ∧
      (((∀ k, ¬ hot k) ∨ s.thermalDue ≠ none ∨ ∃ a, s.thermalAt = some a ∧ s.clock < a + 1000000) → t.thermalDue = s.thermalDue) ∧
      ((∃ k, hot k) → 2 ≤ s.online.length → s.thermalDue = none → (∀ a, s.thermalAt = some a → a + 1000000 ≤ s.clock) →
        ∃ d k, t.thermalDue = some d ∧ k / 40 = d ∧ d < 4 ∧ (s.die d).offline = false ∧
          ∀ j < 160, (s.die (j / 40)).offline = false → NMap.get x.temps 0 j ≤ NMap.get x.temps 0 k ∧
            (NMap.get x.temps 0 j = NMap.get x.temps 0 k → d ≤ j / 40)) ∧
      ((∃ k, hot k) → s.online.length = 1 → t.dies = s.dies ∧ t.thermalDue = s.thermalDue ∧
        ∀ k < 160, (t.plot k).fcap = 0 ∧ (t.plot k).highOk = false))

/-- Estimates, samples and throttles follow the pair's rules, an imbalance stops both cores, errors count toward a lasting verdict,
and a die is lost (R189, R196, R197, R199, R200, R235, R238, R308, R337, R393, R394). The model's choices in it: the count of occurrences
begins again after a lasting verdict (log 43); a failed lane check belongs to the last instruction of each pipe (log 76); a sample first does
what is due (log 67). -/
def Obligations.PairAndFaultEvents : Prop :=
  (∀ (s : State) (c : Nat), ((s.core c).window < 64 → exec (.estimateWindowEnd c) s = .next s) ∧
    (64 ≤ (s.core c).window → let live := s.liveGroups c
    let own := min 255 (4 * live.length + 2 * (s.core c).act / 5)
    let counts := live.filter fun e => !e.2.preempt
    let largest (m : Nat) (f : Group → Nat) : Prop := (∀ e ∈ counts, f e.2 ≤ m) ∧ (m = 0 ∨ ∃ e ∈ counts, f e.2 = m)
    ∃ t, exec (.estimateWindowEnd c) s = .next t ∧ (t.core c).ownest = own ∧ (t.core c).act = (s.core c).actNext ∧ (t.core c).actNext = 0 ∧ (t.core c).window = (s.core c).window - 64 ∧
      (t.core c).aburn = (if s.engaged c then (s.core c).mateest - own else 0) ∧
      largest (t.core c).eburn (fun g => g.burn) ∧ largest (t.core c).shuntlvl (fun g => g.shunt) ∧ (t.core (mateOf c)).mateest = own ∧
      (∀ i, (t.core c).cell i = (s.core c).cell i) ∧ (∀ j, j ≠ c → j ≠ mateOf c → t.core j = s.core j) ∧ { t with cores := s.cores } = s)) ∧
  (∀ (s : State) (c : Nat) (v : BitVec 16),
    let released (k : Core) : Core := { k with throttled := k.throttled && decide (k.calm < 100) }
    let new (k : Core) (v : BitVec 16) : Core := { released k with
        dev := v
        calm := if v.toInt.natAbs < 60 then k.calm + 1 else 0
        overs := if 160 ≤ v.toInt.natAbs then min 200 (k.overs + 1) else 0
        throttled := (released k).throttled || decide (80 ≤ v.toInt) }
    let trapped (t : State) : Prop :=
      (∀ k, k = c ∨ k = mateOf c → (t.core k).traps = min 0xFFFF ((s.core k).traps + 1)) ∧
      ∀ gid g, s.group? gid = some g → (g.core = c ∨ g.core = mateOf c) → g.life = .live → g.preempt = false → g.arrivals = [] →
        ∃ h y, t.group? gid = some h ∧ h.life = .stopped ∧ h.stop = some y ∧ y.record.cause.toNat % 2 ^ 8 = 0x30 ∧
          y.record.mask = g.liveLanes.setWidth 64
    ((s.core c).overs < 200 →
      (∃ t, exec (.midpointSample c v) s = .next t ∧ t.core c = new (s.core c) v ∧ t.core (mateOf c) = new (s.core (mateOf c)) (-v) ∧
        (∀ j, j ≠ c → j ≠ mateOf c → t.core j = s.core j) ∧ { t with cores := s.cores } = s) ∧
      exec (.imbalanceTrap c) s = .next s) ∧
    (200 ≤ (s.core c).overs → (∀ e ∈ s.groups, e.2.versioned = false) →
      (∃ t, exec (.imbalanceTrap c) s = .next t ∧ trapped t ∧ ∀ k, k = c ∨ k = mateOf c → (t.core k).overs = 0) ∧
      ∃ t, exec (.midpointSample c v) s = .next t ∧ trapped t ∧ (t.core c).dev = v ∧ (t.core (mateOf c)).dev = -v ∧
        (t.core c).overs = if 160 ≤ v.toInt.natAbs then 1 else 0)) ∧
  (∀ (s : State) (c : Nat), CoreEvent (.throttleRelease c) s c { s.core c with throttled := (s.core c).throttled && decide ((s.core c).calm < 100) } ∧
    CoreEvent (.issueResume c) s c (if (s.core c).paused then { s.core c with paused := false, laneremap := (s.core c).nextRemap } else s.core c)) ∧
  (∀ (s : State) (u : FaultUnit), let x := s.testOf u
    let counted (l : List Nat) : List Nat := l.filter fun n => decide (s.clock < n + 1000000000)
    let lasting (t : State) : Prop := (t.testOf u).lasting = true ∧ (t.testOf u).testing = false ∧ (t.testOf u).occurrences = [] ∧
      ∃ r ∈ (t.host.ring 1).waiting, r.bytes.getD 1 0 = 0x15#8
    (∀ site, ∃ t, exec (.errorDetection u site) s = .next t ∧
      let seen := counted x.occurrences ++ [s.clock]
      (seen.length < 3 → (t.testOf u).occurrences = seen ∧ (t.testOf u).testing = true ∧ (t.testOf u).lasting = x.lasting) ∧
      (3 ≤ seen.length → lasting t) ∧
      (site = .corrected → seen.length < 3 → (t.testOf u).corrected = x.corrected + 1 ∧ t.cores = s.cores ∧ t.poison = s.poison ∧ t.l2bad = s.l2bad) ∧
      (∀ c p, u = .lane c p → site = .residue → ∀ e ∈ (s.core c).wrote,
        ((∀ x ∈ s.groups, ∀ d ∈ x.2.defers, e.2.op ≠ some d.op) → ∀ w ∈ e.2.writes, physOf (s.core c).laneremap (32 * e.1 + w.cell % 32) = p →
          (t.core c).cellPoison w.cell &&& halvesOf w.bits = halvesOf w.bits) ∧
        ∀ gid g d, s.group? gid = some g → g.core = c → g.pipe = e.1 → d ∈ g.defers → e.2.op = some d.op → d.writes = none →
          ∃ h d', t.group? gid = some h ∧ d' ∈ h.defers ∧ d'.op = d.op ∧ d'.regs = d.regs ∧ p ∈ d'.hit) ∧
      (∀ c b k high, u = .rfBank c b → site = .regHalf c k high →
        (t.core c).cellPoison k = (s.core c).cellPoison k ||| (if high then 2#2 else 1#2)) ∧
      ∀ stack row pa, u = .hbmRow stack row → site = .memWord pa → isChip pa = false → NMap.get t.poison 0 (pa / 8) = 3) ∧
    (∀ again, x.testing = false → exec (.selfTestPass u again) s = .next s) ∧
    (∀ again, x.testing = true → ∃ t, exec (.selfTestPass u again) s = .next t ∧
      let seen := if again then counted x.occurrences ++ [s.clock] else x.occurrences
      (3 ≤ (counted seen).length → lasting t) ∧
      ((counted seen).length < 3 → (t.testOf u).occurrences = seen ∧ (t.testOf u).testing = decide (x.passes + 1 < 2))) ∧
    ∃ t, exec (.occurrenceExpiry u) s = .next t ∧ (t.testOf u).occurrences = counted x.occurrences) ∧
  ∀ (s : State) (d : Nat), d < 4 → (s.die d).offline = false →
    (∃ t, exec (.dieOffline d true) s = .next t ∧ (t.die d).offline = true ∧ (t.die d).thermal = false ∧ (t.die d).slots = [] ∧ (t.die d).fences = [] ∧
      ∀ g ∈ s.gangsOn d, s.gangTeams g ≠ [] → ((t.gang g).kill).isSome = true) ∧
    ((s.thermalDue ≠ some d ∨ (∃ p < 40, (s.plot (40 * d + p)).dvfs = .rail) ∨ ∃ a, s.thermalAt = some a ∧ s.clock < a + 1000000) → exec (.dieOffline d false) s = .next s) ∧
    (s.thermalDue = some d → (∀ p < 40, (s.plot (40 * d + p)).dvfs ≠ .rail) → (∀ a, s.thermalAt = some a → a + 1000000 ≤ s.clock) →
      (s.online.length ≠ 1 → ∃ t, exec (.dieOffline d false) s = .next t ∧ (t.die d).offline = true ∧ (t.die d).thermal = true ∧ t.thermalDue = none ∧ t.thermalAt = some s.clock ∧
        (∀ x y, NMap.find s.teams x = some y → y.life = .live → dieOf y.core = d → (t.team x).life = .saving) ∧
        ∀ p < 40, (t.plot (40 * d + p)).dvfs = .steady ∧ (t.plot (40 * d + p)).highRail = false ∧ (t.plot (40 * d + p)).fcur = 0) ∧
      (s.online.length = 1 → ∃ t, exec (.dieOffline d false) s = .next t ∧ (t.die d).offline = false ∧ t.thermalDue = none ∧
        t.groups = s.groups ∧ t.teams = s.teams ∧ ∀ k < 160, (t.plot k).fcap = 0 ∧ (t.plot k).highOk = false))

/-- Register writes of the management space read back, a stack serves the classes in order, and walks and teardowns change
translations (R8, R309, R319, R322, R323, R326, R334, R377, R378, R384, R389). The model's choices in it: management is served before
program requests up to its 1/16 (log 17), and the weighted round robin serves a class weight times in turn (log 43). -/
def Obligations.RegisterEvents : Prop :=
  (∀ (s : State) (k : Nat) (v : BitVec 64), ((s.die (k / 80)).offline = true → exec (.slicecfgWrite k v) s = .next s) ∧
    ((s.die (k / 80)).offline = false →
      let adw := (v.extractLsb' 8 4).toNat
      let vw := (v.extractLsb' 0 3).toNat
      let legal : Prop := adw ≤ 8 ∧ vw ≤ 4 ∧ ∀ set, s.setReserved k set ≤ adw ∧
        (s.versions.filter fun x => s.setKey x.line == (k, set)).length ≤ vw
      ∃ t, exec (.slicecfgWrite k v) s = .next t ∧ (legal → t.slice k = { adw := adw, vw := vw, refused := false }) ∧
        (¬ legal → t.slice k = { s.slice k with refused := true }) ∧ (∀ j, j ≠ k → t.slice j = s.slice j) ∧ { t with slices := s.slices } = s)) ∧
  (∀ (s : State) (v : BitVec 64),
    let reads (offset : Nat) (w : Lane) : Prop := ∃ t, exec (.registerWrite offset v) s = .next t ∧
        t.manageRead offset = w ∧ { t with host := s.host, dies := s.dies, bwclass := s.bwclass, filters := s.filters } = s
    reads 0x0 (v &&& 0xF03#64) ∧ reads 0x8 (v &&& 0xFFFF#64) ∧
    (∀ r < 4, reads (0x100 + 32 * r) v ∧ reads (0x108 + 32 * r) (v &&& 0x3F008F#64)) ∧ reads (0x110 + 32 * 3) (v &&& 0xFFFFFFFF#64) ∧
    (∀ r < 3, reads (0x118 + 32 * r) (v &&& 0xFFFFFFFF#64)) ∧
    (∀ d < 4, (s.die d).offline = false → (∀ j < 32, reads (2 ^ 24 * d + 0x200400 + 8 * j) (v &&& 0xFFFF#64)) ∧ reads (2 ^ 24 * d + 0x200500) v ∧
      ∀ r < 8, reads (2 ^ 24 * d + 0x300800 + 32 * r) v ∧ reads (2 ^ 24 * d + 0x300808 + 32 * r) (v &&& 0x8000FF000000000F#64) ∧
        reads (2 ^ 24 * d + 0x300810 + 32 * r) v) ∧
    ∀ j < 128, reads (0x300000 + 8 * j) v ∧ reads (2 ^ 25 + 0x300000 + 8 * j) v) ∧
  (∀ (s : State) (stack pending : Nat), (8 ≤ stack → exec (.hbmRequestSlot stack pending) s = .next s) ∧
    (stack < 8 →
    let queue := s.hbmQueue.filter fun r => (s.stackOf r.line).isSome
    let mine := queue.filter fun r => s.stackOf r.line == some stack
    let last (i : Nat) : Nat := NMap.get s.hbmLast 0 (4 * stack + i)
    let fresh : Prop := last 3 ≠ s.clock / 1000
    let had (c : Nat) : Nat := if fresh then 0 else s.served stack c
    let managed : Nat := if fresh then 0 else NMap.get s.hbmCount 0 (128 + 16 * stack)
    let most (c : Nat) : Nat := s.bwClass stack c / 256 % 256
    let least (c : Nat) : Nat := s.bwClass stack c % 256
    let waits (x : Traffic) : Prop := ∃ r ∈ mine, r.traffic = x
    let management : Prop := waits .management ∧ ((∀ r ∈ mine, r.traffic = .management) ∨ 16 * (managed + 1) ≤ Config.windowTransfers)
    let able (c : Nat) : Prop := c < 16 ∧ waits (.launch c) ∧ (most c = 0 ∨ 256 * had c < most c * Config.windowTransfers)
    let low (c : Nat) : Prop := able c ∧ 256 * had c < least c * Config.windowTransfers
    let next (p : Nat → Prop) (after c : Nat) : Prop := p c ∧ ((∃ x, p x ∧ after < x) → after < c) ∧ ∀ x, p x → (after < c → after < x) → c ≤ x
    ∃ t, exec (.hbmRequestSlot stack pending) s = .next t ∧ t.groups = s.groups ∧
      let serves (x : Traffic) : Prop := ∃ r rest, (mine.filter fun r => r.traffic == x)[pending % (mine.filter fun r => r.traffic == x).length]? = some r ∧ t.hbmQueue = queue.erase r ++ rest ∧
        (∀ y ∈ rest, y.fill = false) ∧ (r.fill = true → isAdobe (128 * r.line) = false →
          ∃ y ∈ NMap.get t.l2ways [] (s.wayKey r.line), y.line = r.line)
      (management → serves .management ∧ ∀ c < 16, t.served stack c = had c) ∧
      (¬ management → (∀ c, ¬ able c) → t.hbmQueue = queue ∧ t.mem = s.mem ∧ ∀ c < 16, t.served stack c = had c) ∧
      (¬ management → (∃ c, able c) → ∃ c, able c ∧ serves (.launch c) ∧ (∀ x < 16, t.served stack x = had x + if x = c then 1 else 0) ∧
        ((∃ x, low x) → next low (last 0) c) ∧
        ((∀ x, ¬ low x) → able (last 1) → last 2 < max (least (last 1)) 1 → c = last 1) ∧
        ((∀ x, ¬ low x) → (¬ able (last 1) ∨ max (least (last 1)) 1 ≤ last 2) → next able (last 1) c)))) ∧
  (∀ (s : State) (core ctx : Nat) (va : BitVec 64), canonical va.toNat = true → s.tlbHit core ctx va.toNat = none →
    (s.walkHeld (s.walkRoot core ctx) va.toNat = true → exec (.pageWalk core ctx va) s = .next s) ∧
    (s.walkHeld (s.walkRoot core ctx) va.toNat = false →
    (∀ a lv p, s.walk (s.walkRoot core ctx) va.toNat = .leaf a lv p →
      ∃ t, exec (.pageWalk core ctx va) s = .next t ∧ (t.core core).tlb.head? = some { tlbOf ctx va.toNat lv p with dirty := p.bit 8 } ∧
        ((∀ c ∈ plotCores (plotOf core), (s.core c).l1 = []) → (t.homeNum a 8).testBit 7 = true) ∧ t.groups = s.groups) ∧
    ((∀ a lv p, s.walk (s.walkRoot core ctx) va.toNat ≠ .leaf a lv p) → exec (.pageWalk core ctx va) s = .next s))) ∧
  ∀ (s : State) (ctx : Nat), ((∃ a ∈ s.adobes, a.ctx = ctx ∧ (s.walkHeld (s.contextRoot ctx) a.va = true ∨
        s.unmapHeld ctx (s.contextRoot ctx) a.va = true ∨ s.adobeHeld none (s.contextPool ctx) a.base a.bytes = true)) → exec (.contextTeardown ctx) s = .next s) ∧
    ((∀ a ∈ s.adobes, a.ctx = ctx → s.walkHeld (s.contextRoot ctx) a.va = false ∧ s.unmapHeld ctx (s.contextRoot ctx) a.va = false ∧
        s.adobeHeld none (s.contextPool ctx) a.base a.bytes = false) →
      ∃ t, exec (.contextTeardown ctx) s = .next t ∧ ∀ a ∈ t.adobes, a.ctx ≠ ctx)

/-- Host reads and posted writes reach their homes or are held at a pin, and a ring record is written where its index says (R356,
R362, R375, R376, R377, R378, R379, R380). The model's choices in it: a read waits behind a posted write, and after 10 ms it is retried no
more (log 44); the places of registers on the bus (log 18). -/
def Obligations.HostPortEvents : Prop :=
  (∀ (s : State) (id : Nat) (addr : BitVec 64) (len : Nat), let a := addr.toNat
    let answered (x : HostAnswer) : Prop := ∃ t, exec (.hostRead id addr len) s = .next t ∧ t.host.answers = s.host.answers ++ [x] ∧
      t.mem = s.mem ∧ t.l2 = s.l2 ∧ t.groups = s.groups
    (a + len ≤ 2 ^ 39 → s.host.bar4 = true → s.anyPinned a len = false → s.host.posted = [] → (∀ r ∈ s.host.reads, r.id = id → s.clock ≤ r.arrived + 10000000) →
      answered { id := id, bytes := s.readHome a len, poisoned := (spread a len).any s.homeBad }) ∧
    (a + len ≤ 2 ^ 39 → s.host.bar4 = true → (s.anyPinned a len = true ∨ s.host.posted ≠ []) → (∀ r ∈ s.host.reads, r.id ≠ id) →
      ∃ t, exec (.hostRead id addr len) s = .next t ∧ t.host.answers = s.host.answers ∧
        t.host.reads = s.host.reads ++ [{ id := id, addr := a, len := len, arrived := s.clock }]) ∧
    (a + len ≤ 2 ^ 39 → s.host.bar4 = true → (∃ r ∈ s.host.reads, r.id = id ∧ r.arrived + 10000000 < s.clock) → exec (.hostRead id addr len) s = .next s) ∧
    (a + len ≤ 2 ^ 39 → s.host.bar4 = false → answered { id := id, bytes := [], poisoned := false, unsupported := true }) ∧
    ∀ k < 2 ^ 24, a = bar0At + 8 * k → answered { id := id, bytes := (bytesOf (s.manageRead (8 * k)).toNat 8).take len, poisoned := false }) ∧
  (∀ (s : State) (addr : BitVec 64) (bytes : List Byte), let a := addr.toNat
    s.host.posted = [] → a + bytes.length ≤ 2 ^ 39 → bytes ≠ [] →
    (s.host.bar4 = true → s.anyPinned a bytes.length = false → ∃ t, exec (.hostPostedWrite addr bytes) s = .next t ∧
      t.readHome a bytes.length = bytes ∧ (∀ y, isAdobe y = false → y < a ∨ a + bytes.length ≤ y → t.homeByte y = s.homeByte y) ∧ t.host.posted = [] ∧
      t.groups = s.groups ∧ t.cores = s.cores) ∧
    (s.host.bar4 = true → s.anyPinned a bytes.length = true → ∃ t, exec (.hostPostedWrite addr bytes) s = .next t ∧
      t.host.posted = [(a, bytes)] ∧ { t with host := s.host } = s) ∧
    (s.host.bar4 = false → exec (.hostPostedWrite addr bytes) s = .next s)) ∧
  (∀ (s : State) (id : Nat) (r : HeldRead), s.host.reads.find? (fun r => r.id == id) = some r →
    ((s.anyPinned r.addr r.len = true ∧ r.arrived + 10000000 ≤ s.clock) ∨ r.arrived + 10000000 < s.clock → ∃ t, exec (.hostReadAbort id) s = .next t ∧
      t.host.answers = s.host.answers ++ [{ id := id, bytes := [], poisoned := false, abort := true }] ∧ (∀ x ∈ t.host.reads, x.id ≠ id) ∧
      { t with host := s.host } = s) ∧
    (s.clock < r.arrived + 10000000 ∨ (s.anyPinned r.addr r.len = false ∧ s.clock = r.arrived + 10000000) → exec (.hostReadAbort id) s = .next s)) ∧
  (∀ (s : State) (ring : Nat) (x : HostRec) (rest : List HostRec), let r := s.host.ring ring
    ring < 3 → r.waiting = x :: rest →
    (r.enabled = true → r.fill < 2 ^ r.log2 → x.after = .nothing →
      let i := r.pidx.toNat
      let bytes := x.fillIn (r.phase i) i
      let p := r.place ring i
      ∃ t, exec (.ringRecordWrite ring) s = .next t ∧ t.readHome p bytes.length = bytes ∧
        (∀ y, isAdobe y = false → y < p ∨ p + bytes.length ≤ y → t.homeByte y = s.homeByte y) ∧ (t.host.ring ring).pidx = r.pidx + 1 ∧
        (t.host.ring ring).waiting = rest ∧ (r.lastMsi = none → (t.host.ring ring).sent = r.sent + 1) ∧
        (∀ j, j ≠ ring → t.host.ring j = s.host.ring j) ∧ t.groups = s.groups ∧ t.cores = s.cores) ∧
    ((r.enabled = false ∨ 2 ^ r.log2 ≤ r.fill) → exec (.ringRecordWrite ring) s = .next s)) ∧
  ∀ (s : State) (ring last : Nat), let r := s.host.ring ring
    r.lastMsi = some last →
    (r.due = true → last + 1000 ≤ s.clock → ∃ t, exec (.msixDeferredSend ring) s = .next t ∧
      t.host.ring ring = { r with lastMsi := some s.clock, sent := r.sent + 1, due := false } ∧
      (∀ j, j ≠ ring → t.host.ring j = s.host.ring j) ∧ { t with host := s.host } = s) ∧
    ((r.due = false ∨ s.clock < last + 1000) → exec (.msixDeferredSend ring) s = .next s)

/-- Each management command has its effect and puts one completion record behind those of ring 2 (R162, R175, R266, R341, R342, R363,
R380, R381, R390, R391, R392). -/
def Obligations.CommandResults : Prop :=
  (∀ (s : State) (status result : Nat), let t := s.takeCommand.completeCommand status result
    (t.host.ring 3).cidx = (s.host.ring 3).cidx + 1 ∧ (t.host.ring 2).waiting = (s.host.ring 2).waiting ++
      [{ tagged := false, bytes := recordBytes 64 [recordHeader 0x21 status 0, (16, result), (24, s.now)] }] ∧ { t with host := s.host } = s) ∧
  (∀ (s : State) (pa : BitVec 64), (s.Commands 1 [pa.toNat] →
      (pa.toNat % 64 = 0 → pa.toNat < 2 ^ 57 → CommandDone (.setctxt pa) s 0 0 { s with host := { s.host with ctxTable := pa.toNat } }) ∧
      ((pa.toNat % 64 ≠ 0 ∨ 2 ^ 57 ≤ pa.toNat) → CommandDone (.setctxt pa) s 0x81 0 s)) ∧
    (s.Commands 2 [pa.toNat] → (pa.toNat % 64 = 0 → pa.toNat < 2 ^ 57 → CommandDone (.setqt pa) s 0 0 { s with host := { s.host with queueTable := pa.toNat } }) ∧
      ((pa.toNat % 64 ≠ 0 ∨ 2 ^ 57 ≤ pa.toNat) → CommandDone (.setqt pa) s 0x81 0 s))) ∧
  (∀ (s : State) (ctx va attr kind len : BitVec 64), let c := ctx.toNat
    let root := s.contextRoot c
    let ends (i : Instr) (r : State × Lane) : Prop := (r.2 ≠ BitVec.allOnes 64 → CommandDone i s 0 r.2.toNat r.1) ∧
      (r.2 = BitVec.allOnes 64 → CommandDone i s 0x80 (2 ^ 64 - 1) r.1)
    let held (k : Nat) : Prop := s.contextHeld c = true ∨ s.mapHeld none c root (s.contextPool c) va.toNat k = true
    c < 2 ^ 8 →
    (s.Commands 3 [c, va.toNat, attr.toNat, kind.toNat] → kind.toNat < 2 ^ 3 →
      (1 ≤ kind.toNat → kind.toNat ≤ 3 →
        (¬ held kind.toNat → ends (.map ctx va attr kind) (s.mapPage c root (s.contextPool c) va.toNat kind.toNat attr.toNat)) ∧
        (held kind.toNat → exec (.map ctx va attr kind) s = .next s)) ∧
      ((kind.toNat = 0 ∨ 3 < kind.toNat) → CommandDone (.map ctx va attr kind) s 0x81 0 s)) ∧
    (s.Commands 4 [c, va.toNat] → (¬ held 4 → ends (.unmap ctx va) (s.mapPage c root (s.contextPool c) va.toNat 4 0)) ∧
      (held 4 → exec (.unmap ctx va) s = .next s)) ∧
    (s.Commands 5 [kind.toNat, c, va.toNat, len.toNat] → kind.toNat < 3 → (kind.toNat = 0 → va.toNat % 4096 = 0 ∧ len.toNat % 4096 = 0) →
      let x : Covers := { ctx := if kind.toNat = 2 then none else some c, range := if kind.toNat = 0 then some (va.toNat, len.toNat) else none }
      (s.copiesWithin x = false → s.writesHeld x = false → CommandDone (.inval kind ctx va len) s 0 0 (s.invalidate x) ∧
        ∀ k e, e ∈ ((s.invalidate x).core k).tlb → x.hits e.ctx e.page e.bytes = false) ∧
      (s.copiesWithin x = true ∨ s.writesHeld x = true → exec (.inval kind ctx va len) s = .next s))) ∧
  (∀ (s : State), s.Commands 6 [] → (∀ e ∈ s.groups, e.2.writesOut = false) → (∀ c ∈ NMap.keys s.cores, s.canDrain c = true) → s.host.posted = [] →
    ∃ s1, CommandDone .icinv s 0 0 s1 ∧ (∀ c, (s1.core c).icache = [] ∧ (s1.core c).icodes = []) ∧ ∀ c, (∀ i, (s1.core c).cell i = (s.core c).cell i)) ∧
  (∀ (s : State) (tag action : BitVec 64), s.Commands 7 [tag.toNat, action.toNat] → tag.toNat < 2 ^ 32 → action.toNat < 2 ^ 2 →
    ((action = 1 ∨ action = 3) → CommandDone (.resume tag action) s 0x81 0 s) ∧
    (s.host.killing = none → ((action = 0 ∨ action = 2) → s.waiting tag.toNat = none → CommandDone (.resume tag action) s 0x80 0 s) ∧
      ∀ gid g, s.waiting tag.toNat = some (gid, g, none) →
        (action = 0 → badTarget g.trap.resume = false → g.life ≠ .saved →
          CommandDone (.resume tag action) s 0 0 ((s.dropTag tag.toNat).resumeGroup gid)) ∧
        (action = 0 → badTarget g.trap.resume = false → g.life = .saved → CommandDone (.resume tag action) s 0 0
          ((s.dropTag tag.toNat).onGroup gid fun g => { g with resumed := true, tag := none })) ∧
        (action = 2 → s.gangTeams (s.team g.team).gang ≠ [] → ∃ t, exec (.resume tag action) s = .next t ∧
          t.host.killing = some [(s.team g.team).gang] ∧ t.host.ring 3 = s.host.ring 3 ∧
          (t.gang (s.team g.team).gang).kill = some { cause := g.trap.cause.toNat % 256, group := some gid })) ∧
    ∀ gangs, action = 2 → s.host.killing = some gangs →
      ((∀ x ∈ gangs, s.reported x = true) → CommandDone (.resume tag action) s 0 0 { s with host := { s.host with killing := none } }) ∧
      ((∃ x ∈ gangs, s.reported x = false) → exec (.resume tag action) s = .next s)) ∧
  (∀ (s : State) (task cluster : BitVec 64), s.Commands 8 [task.toNat, cluster.toNat] → task.toNat < 2 ^ 32 →
    (cluster = BitVec.allOnes 64 ∨ cluster.toNat < 2 ^ 32) →
    let named (e : Nat × Gang) : Prop := (NMap.get s.launches {} e.2.launch).task = task.toNat ∧
      (cluster = BitVec.allOnes 64 ∨ e.2.cluster = cluster.toNat)
    (s.host.killing = none → ((∀ e ∈ s.gangs, ¬ named e) → CommandDone (.kill task cluster) s 0x80 0 s) ∧
      ((∃ e ∈ s.gangs, named e) → ∃ t gangs, exec (.kill task cluster) s = .next t ∧ t.host.killing = some gangs ∧
        (∀ k, k ∈ gangs ↔ ∃ e ∈ s.gangs, named e ∧ e.1 = k) ∧ t.host.ring 3 = s.host.ring 3 ∧
        (∀ e ∈ s.gangs, named e → e.2.killed = false → s.gangTeams e.1 ≠ [] → (∀ x ∈ s.gangs, x.1 = e.1 → x = e) →
          ((t.gang e.1).kill).isSome = true) ∧
        (∀ e ∈ s.gangs, (s.gang e.1).kill = none → s.gangTeams e.1 ≠ [] → named e → e.2.killed = false →
          (∀ x ∈ s.gangs, x.1 = e.1 → x = e) → (t.gang e.1).kill = some { cause := 0x33, group := none }) ∧ t.mem = s.mem ∧
        ∀ c i, (t.core c).cell i = (s.core c).cell i)) ∧
    ∀ gangs, s.host.killing = some gangs →
      ((∀ x ∈ gangs, s.reported x = true) → CommandDone (.kill task cluster) s 0 0 { s with host := { s.host with killing := none } }) ∧
      ((∃ x ∈ gangs, s.reported x = false) → exec (.kill task cluster) s = .next s)) ∧
  (∀ (s : State) (tag result : BitVec 64), s.Commands 9 [tag.toNat, result.toNat] → tag.toNat < 2 ^ 32 →
    (s.waiting tag.toNat = none → CommandDone (.sysret tag result) s 0x80 0 s) ∧
    ∀ gid g src, s.waiting tag.toNat = some (gid, g, some src) → g.life ≠ .saved → (src = .slotA ∨ src = .slotB) → g.frameReq = none → g.defers = [] →
      (∀ r ∈ (s.core g.core).requests, r.gid ≠ gid) → (frameReg g.frames (g.frameSize - 8)).isSome = true →
      ∃ s1, CommandDone (.sysret tag result) s 0 0 s1 ∧ (∀ l ∈ lanesOf (g.slot src).mask, ∀ x, (if g.prot then x = 2 * l ∨ x = 2 * l + 1 else x = l) →
        (s1.core g.core).cell (32 * g.regOf src (g.frameSize - 8) + x) = result)) ∧
  (∀ (s : State) (die : BitVec 64), s.Commands 10 [die.toNat] → die.toNat < 4 → let d := die.toNat
    ((s.die d).offline = false → CommandDone (.dieon die) s 0x80 0 s) ∧
    ((s.die d).offline = true → (∀ e ∈ s.teams, dieOf e.2.core = d → e.2.life ≠ .live ∧ e.2.life ≠ .saving) →
      (∀ x ∈ s.tests, x.lasting = true → unitDie x.unit ≠ d) →
      ∃ s1, CommandDone (.dieon die) s 0 0 s1 ∧ (s1.die d).offline = false ∧ (s1.die d).thermal = false ∧ (s1.die d).failedRails = [] ∧
        ∀ c, dieOf c = d → (s1.core c).l1 = [] ∧ (s1.core c).icache = [] ∧ (s1.core c).icodes = [] ∧ (s1.core c).free = ({} : Core).free ∧ ∀ i, (s1.core c).cell i = 0)) ∧
  (∀ (s : State) (nonce : BitVec 256) (addr : BitVec 64), (s.nextCommand = some (11 + nonce.toNat * 2 ^ 64 + addr.toNat * 2 ^ 320) →
      (s.host.attest = none → ∃ t, exec (.attest nonce addr) s = .next t ∧ t.host.attest = some (nonce, addr) ∧
        (t.host.ring 3).cidx = (s.host.ring 3).cidx + 1 ∧ { t with host := s.host } = s) ∧
      (s.host.attest ≠ none → exec (.attest nonce addr) s = .next s)) ∧
    (s.host.attest = some (nonce, addr) → let p := hostBase + addr.toNat % hostBase
      ∃ t, exec .attestReport s = .next t ∧ t.host.attest = none ∧ t.readHome p 32 = bytesOf nonce.toNat 32 ∧
        t.readHome (p + 128) 8 = bytesOf s.now 8 ∧ t.readHome (p + 136) 8 = bytesOf (s.host.pkgId.toNat + if s.warm then 2 ^ 16 else 0) 8 ∧
        (∀ y, isAdobe y = false → y < p ∨ p + 8000 ≤ y → t.homeByte y = s.homeByte y) ∧ (t.host.ring 2).waiting = (s.host.ring 2).waiting ++
          [{ tagged := false, bytes := recordBytes 64 [recordHeader 0x21 0 0, (16, 0), (24, s.now)] }])) ∧
  (∀ (s : State) (time : BitVec 64), s.Commands 12 [time.toNat] →
    (time.toNat < s.now → CommandDone (.timeset time) s 0x81 0 s) ∧
    (s.now ≤ time.toNat → ∃ s1, CommandDone (.timeset time) s 0 0 s1 ∧ s1.time = time ∧ s1.groups = s.groups ∧ s1.mem = s.mem ∧ s1.cores = s.cores)) ∧
  ∀ (s : State) (op : Byte) (record : Nat), s.nextCommand = some record → record % 256 = op.toNat → (op = 0 ∨ 12 < op.toNat) →
    CommandDone (.commandBadOpcode op) s 0x81 0 s

/-- Frames are checked, filtered and appended; flit groups are delivered, rebuilt or lost; link transfers move; starts reset the
package (R382, R383, R384, R385, R387, R388, R389, R390, R391). -/
def Obligations.NetworkAndStartEvents : Prop :=
  (∀ (s : State) (port : Nat), port < 2 →
    let counted (i : Instr) (k n : Nat) : Prop := ∃ t, exec i s = .next t ∧ (∀ j, t.netCounter port j = s.netCounter port j + (if j = k then BitVec.ofNat 64 n else 0)) ∧
      { t with netCounters := s.netCounters } = s
    counted (.frameReceive port .other) 4 1 ∧
    (∀ offset : Int, 1000000 < offset → ∃ t, exec (.frameReceive port (.ieee1588 offset)) s = .next t ∧ t.time = s.time + BitVec.ofInt 64 offset ∧
      t.groups = s.groups ∧ t.mem = s.mem ∧ t.cores = s.cores) ∧
    (∃ t, exec (.ieee1588MessageSend port) s = .next t ∧ NMap.find t.sentAt port = some s.time ∧ { t with sentAt := s.sentAt } = s) ∧
    ∀ good source udp payload, let field (o n : Nat) : Nat := numOf ((payload.drop o).take n)
      let i : Instr := .frameReceive port (.launch good source udp payload)
      let n := field 2 2
      let q := field 4 4
      let sound : Prop := good = true ∧ field 0 2 = 1 ∧ 1 ≤ n ∧ n ≤ 64 ∧ payload.length = 16 + 128 * n
      let admitted : Prop := (∃ e < 32, filterMatches (NMap.get s.filters 0 (32 * port + e)) source.toNat udp q = true) ∧ s.acceptsNet q = true
      let room : Prop := (s.queueTail q + 2 ^ 32 - s.queueHead q) % 2 ^ 32 + n ≤ 2 ^ s.queueLog q
      (¬ sound → counted i 2 1) ∧ (sound → ¬ admitted → counted i 3 1) ∧ (sound → admitted → ¬ room → counted i 1 1) ∧
      ∀ p, sound → admitted → room → n = 1 → s.framePlaces q 1 = some [p] → s.anyPinned p 128 = false →
        s.pinnedAgainst none (lineOf (s.queueAt q)) = false → (p + 128 ≤ s.queueAt q ∨ s.queueAt q + 64 ≤ p) →
        ∃ t, exec i s = .next t ∧ t.netCounter port 0 = s.netCounter port 0 + 1 ∧ t.readHome p 128 = payload.drop 16 ∧ t.queuePending q = true ∧
          t.groups = s.groups ∧ t.launches = s.launches) ∧
  (∀ (s : State) (port : Nat) (flits : List Flit), let x := NMap.get s.irend {} port
    let seg (r : Nat) : List Byte := ((flitAt flits r).getD []).take 64
    let good (q r : Nat) : Prop := ∃ f, flitAt flits r = some f ∧ flitGood f = true ∧ flitSeq f = q
    port < 12 → x.down = false → x.failed = [] → x.late = [] → ∃ t, exec (.flitGroupReceive port flits) s = .next t ∧
      (∀ q, (∀ r < 5, good q r) → (NMap.get t.irend {} port).delivered = x.delivered ++ [[0, 1, 2, 3].flatMap seg]) ∧
      (∀ q a, a < 5 → (∀ r < 5, r ≠ a → good q r) → (flitAt flits a = none ∨ ∃ f, flitAt flits a = some f ∧ flitGood f = false) →
        (NMap.get t.irend {} port).delivered = x.delivered ++ [[0, 1, 2, 3].flatMap fun r =>
          if r = a then xorSegments (([0, 1, 2, 3, 4].filter fun k => k != a).map seg) else seg r]) ∧
      (∀ a b, a < b → b < 5 → flitAt flits a = none → flitAt flits b = none →
        (NMap.get t.irend {} port).delivered = x.delivered ∧ (NMap.get t.irend {} port).lost = x.lost + 1 ∧
        ∀ d r y, (y ∈ (t.linkRing d r).pending → y ∈ (s.linkRing d r).pending) ∧
          (y ∈ (s.linkRing d r).pending → y.port ≠ port → y.port ≠ 0xFF → y ∈ (t.linkRing d r).pending)) ∧
      t.groups = s.groups ∧ t.mem = s.mem ∧ t.cores = s.cores) ∧
  (∀ (s : State) (port rail : Nat), let x := NMap.get s.irend {} port
    port < 12 → rail < 5 → x.down = false → rail ∉ x.failed → rail ∉ x.late → ∃ t, exec (.flitTimeout port rail) s = .next t ∧
      rail ∈ (NMap.get t.irend {} port).late ∧ s.clock ∈ NMap.get (NMap.get t.irend {} port).absent [] rail ∧ t.groups = s.groups ∧ t.mem = s.mem) ∧
  (∀ (s : State) (die ring p : Nat) (segs src : List (Nat × Nat)), let r := s.linkRing die ring
    let who := s.ctxWho (160 * die) r.ctx
    let at' := r.base.toNat + 64 * (r.cons.toNat % 2 ^ r.log2)
    let d := numOf (segs.flatMap fun x => s.readHome x.1 x.2)
    let word (o : Nat) : Nat := d / 2 ^ (8 * o) % 2 ^ 64
    let port := d / 2 ^ (8 * 42) % 256
    let bytes := src.flatMap fun x => s.readHome x.1 x.2
    let sent : Transfer := { pkg := d / 2 ^ (8 * 40) % 2 ^ 16, port := port, dst := word 16, rsig := word 24, lsig := word 32, bytes := bytes }
    die < 4 → ring < 8 → (s.die die).offline = false → r.enabled = true → s.ctxPlace r.ctx r.prod.toNat .read = some p →
    s.checkRange who at' 64 8 .read = .ok segs → s.homeNum p 8 ≠ r.cons.toNat → (∀ x ∈ segs, s.anyPinned x.1 x.2 = false) →
    word 8 % 8 = 0 → word 8 ≤ 2 ^ 32 → word 16 + word 8 ≤ 2 ^ 39 → d / 2 ^ (8 * 43) = 0 → (port < 12 ∨ port = 0xFF) → s.linkUp port = true →
    s.checkRange who (word 0) (word 8) 1 .read = .ok src → (∀ x ∈ src, s.anyPinned x.1 x.2 = false) →
    ∃ t, exec (.linkTransferStart die ring) s = .next t ∧ (t.linkRing die ring).cons = r.cons + 1 ∧
      (t.linkRing die ring).pending = r.pending ++ [sent] ∧ t.groups = s.groups) ∧
  (∀ (s : State) (dst rsig : BitVec 64) (bytes : List Byte), let d := dst.toNat
    let g := rsig.toNat
    d + bytes.length ≤ 2 ^ 39 → s.anyPinned d bytes.length = false →
    ((∀ j < 8, isHbm (g + j) = true ∨ isHost (g + j) = true) → (g = 0 ∨ (s.anyPinned g 8 = false ∧ (g + 8 ≤ d ∨ d + bytes.length ≤ g))) →
      ∃ t, exec (.linkRemoteTransfer dst rsig bytes) s = .next t ∧ t.readHome d bytes.length = bytes ∧
        (g ≠ 0 → t.homeNum g 8 = (s.homeNum g 8 + 1) % 2 ^ 64) ∧
        (∀ y, isAdobe y = false → (y < d ∨ d + bytes.length ≤ y) → (g = 0 ∨ y < g ∨ g + 8 ≤ y) → t.homeByte y = s.homeByte y) ∧ t.groups = s.groups) ∧
    ((∃ j < 8, isHbm (g + j) = false ∧ isHost (g + j) = false) →
      ∃ t, exec (.linkRemoteTransfer dst rsig bytes) s = .next t ∧ t.readHome d bytes.length = bytes ∧
        (∀ y, isAdobe y = false → (y < d ∨ d + bytes.length ≤ y) → t.homeByte y = s.homeByte y) ∧ t.groups = s.groups)) ∧
  (∀ (s : State) (die ring : Nat) (x : Transfer) (rest : List Transfer), let r := s.linkRing die ring
    r.pending = x :: rest →
    (x.lsig = 0 → ∃ t, exec (.linkAck die ring) s = .next t ∧ (t.linkRing die ring).pending = rest ∧ t.mem = s.mem ∧ t.l2 = s.l2) ∧
    (∀ p, x.lsig ≠ 0 → s.ctxPlace r.ctx x.lsig .rmw = some p → s.anyPinned p 8 = false →
      ∃ t, exec (.linkAck die ring) s = .next t ∧ (t.linkRing die ring).pending = rest ∧
        t.homeNum p 8 = ((s.ctxTouch r.ctx x.lsig true).homeNum p 8 + 1) % 2 ^ 64)) ∧
  ∀ (s : State), (∃ t, exec .coldStart s = .next t ∧ t.groups = [] ∧ t.teams = [] ∧ t.launches = [] ∧ t.cores = [] ∧ t.l2 = [] ∧ t.adobes = [] ∧ t.ectr = [] ∧
      t.time = 0 ∧ t.warm = false ∧ (∀ d < 4, (t.die d).boot = !Config.imageVerifies d) ∧ ∀ y, isHost y = true → t.homeByte y = s.homeByte y) ∧
    (s.host.cfg.getLsbD 1 = true → ∃ t, exec .warmStart s = .next t ∧ t.groups = [] ∧ t.teams = [] ∧ t.launches = [] ∧ t.cores = [] ∧ t.l2 = [] ∧
      t.mem = s.mem ∧ t.poison = s.poison ∧ t.ectr = s.ectr ∧ t.time = s.time ∧ t.warm = true ∧
      ∀ p, (NMap.get t.irend {} p).failed = (NMap.get s.irend {} p).failed ∧ (NMap.get t.irend {} p).down = (NMap.get s.irend {} p).down) ∧
    (s.host.cfg.getLsbD 1 = false → exec .warmStart s = exec .coldStart s)

/-- Decoding the word of a well-formed instruction gives it back, and a word that decodes is the word of what it decodes to (R60, R63,
R64, R66). -/
def Obligations.DecodeAndEncodeAgree : Prop :=
  (∀ i : Instr, i.wellFormed = true → ∃ w, encode i = some w ∧ decode w = .ok i) ∧
  ∀ (w : Word) (i : Instr), decode w = .ok i → i.wellFormed = true ∧ encode i = some w

/-- Words written out field by field from the spec's encodings decode to their instructions, and unassigned words are refused by name
(R60, R63, R64, R66). -/
def Obligations.DecodeSamples : Prop :=
  decode (8#6 ++ 2#3 ++ 5#6 ++ 9#6 ++ 33#6 ++ 6#3 ++ 1#2) = .ok (.ialuSub 2 5 9 33 6) ∧
  decode (95#9 ++ 17#6 ++ 0#6 ++ 1027#11) = .ok (.movImm 17 1027) ∧
  decode (7#5 ++ 6#4 ++ 63#6 ++ 1#6 ++ 1024#11) = .ok (.lopi 6 63 1 1024) ∧
  decode (8#5 ++ 9#4 ++ 4#3 ++ 3#3 ++ 41#6 ++ 22#6 ++ 5#3 ++ 0#2) = .ok (.cmp 9 4 3 41 22 5) ∧
  decode (23#6 ++ 1#3 ++ 2#6 ++ 3#6 ++ 4#6 ++ 5#3 ++ 0#2) = .ok (.fma 1 2 3 4 5) ∧
  decode (14#5 ++ 6#4 ++ 7#6 ++ 8#6 ++ 0#2 ++ 1#1 ++ 2#3 ++ 3#3 ++ 2#2) = .ok (.scan 6 7 8 1 2 3) ∧
  decode (16#5 ++ 3#4 ++ 10#6 ++ 20#6 ++ 6#3 ++ 4#3 ++ 1#2 ++ 2#3) = .ok (.lda 3 10 20 6 4 2) ∧
  decode (18#5 ++ 15#4 ++ 21#5 ++ 0#1 ++ 42#6 ++ 7#3 ++ 2#2 ++ 1#1 ++ 9#5) = .ok (.atomCas 15 21 42 7 2 1) ∧
  decode (320#9 ++ 5#4 ++ 2#2 ++ 0#2 ++ 9#4 ++ 3#11) = .ok (.qst 5 2 9) ∧
  decode (20#5 ++ 3#4 ++ 12#4 ++ 5#3 ++ 1029#11 ++ 5#5) = .ok (.ybr 3 12 5 1029) ∧
  decode (1472#11 ++ 11#4 ++ 45#6 ++ 6#3 ++ 1#3 ++ 2#5) = .ok (.mmaSb 11 45 6 1) ∧
  decode (400#9 ++ 0#6 ++ 37#6 ++ 0#4 ++ 2#2 ++ 0#5) = .ok (.barinit 0 37 2) ∧
  decode (17#8 ++ 5#3 ++ 1048577#21) = .ok (.braGuarded 5 1048577) ∧
  decode (10#8 ++ 1#1 ++ 5#3 ++ 0#1 ++ 1#1 ++ 0#1 ++ 6#3 ++ 1#1 ++ 3#3 ++ 0#10) = .ok (.hmod 1 5 0 1 0 6 1 3) ∧
  decode (1858#11 ++ 34#6 ++ 7#6 ++ 0#9) = .ok (.callx 34 7) ∧
  decode (31#5 ++ 5#27) = .error .unassignedMajor ∧
  decode (29#5 ++ 3#6 ++ 0#21) = .error .noSuchForm ∧
  decode (4#5 ++ 0#1 ++ 2#3 ++ 5#6 ++ 9#6 ++ 8#6 ++ 6#3 ++ 3#2) = .error (.illFormed .oddPair) ∧
  decode (10#5 ++ 1#1 ++ 7#3 ++ 5#6 ++ 9#6 ++ 33#6 ++ 6#3 ++ 1#2) = .error (.illFormed .typeNotAccepted) ∧
  decode (0#32) = .ok (.illegal 0)

/-- A step runs the instruction that the word at the PC of the slot whose turn it is decodes to, or the event or command due (R36,
R60, R66, R154, R185, R195, R326, R363, R381). -/
def Obligations.StepRunsDecoded : Prop :=
  (∀ (s : State) (gid : Nat) (src : Source) (e : Env) (place : Nat), let x := s.nextTurn
    let s1 := x.2.settled.elapse x.1.ns
    let due : Prop := (x.1.act = .stream gid ∧ src = .access ∧ s1.streamNext e.g.core = some gid) ∨
      (x.1.act = .slot gid src ∧ s1.choice e.g.core (e.g.number / 16) (some (gid, src)) = some (gid, src)) ∨
      ∃ c p, x.1.act = .pipe c p ∧ s1.choice c p none = some (gid, src)
    let sa := s1.streamTurn e.g src
    let s2 := sa.touch e.who e.slot.pc.toNat .fetch
    let word := s2.codeWord e.g.core place (sa.accessOf gid e.g 0)
    let s3 := { word.2 with actor := { gid := gid, src := src } }
    due → s1.envAt gid src = some e → s1.coreIssues e.g.core src = true → (e.g.imbalance && e.g.boundary) = false →
    ((src = .access ∧ e.g.waitingQst.isSome = true) → step s = exec (.qst 0 0 0) { sa with actor := { gid := gid, src := src } }) ∧
    ((src ≠ .access ∨ e.g.waitingQst = none) → sa.fetchPlace e = .ok place →
      (∀ i, NMap.find (s2.core e.g.core).icache (place / 4) = none → decodeBytes (s2.readHome place 4) = .ok i → step s = exec i s3) ∧
      (∀ i w, NMap.find (s2.core e.g.core).icache (place / 4) = some w → decode w = .ok i → step s = exec i s3) ∧
      (∀ why, decode word.1 = .error why → step s = exec (.wordNotAnInstruction word.1) s3) ∧
      s3.groups = s1.groups ∧ s3.teams = s1.teams ∧ ∀ c i, (s3.core c).cell i = (s1.core c).cell i)) ∧
  (∀ (s : State) (i : Instr), let s1 := s.nextTurn.2.settled.elapse s.nextTurn.1.ns
    s.nextTurn.1.act = .event i → i.isWord = false → (∀ w, i ≠ .wordNotAnInstruction w) → step s = exec i s1) ∧
  ∀ (s : State) (record : Nat), let s1 := s.nextTurn.2.settled.elapse s.nextTurn.1.ns
    s.nextTurn.1.act = .command → s1.nextCommand = some record → step s = exec (decodeCommand record) s1

/-- Every step of every state keeps memory in its canonical form (R315, R317, R318). -/
def Obligations.StepKeepsMemoryCanonical : Prop :=
  ∀ s t : State, s.MemoryCanonical → step s = .next t → t.MemoryCanonical

/-- Every step keeps the identifiers of groups, teams, operations and deferred writes below the next one that is given out (R53). -/
def Obligations.IdentifiersStayFresh : Prop :=
  ∀ s t : State, s.Fresh → step s = .next t → t.Fresh

/-- Memory is byte-addressed and little-endian, and an instruction word has its lowest bits at its lowest address (R7). -/
def Obligations.LittleEndianMemory : Prop :=
  (∀ (s : State) (place n count : Nat) (bad : Bool), let t := s.writeHome place (bytesOf n count) bad
    (∀ j < count, (t.homeByte (place + j)).toNat = n / 256 ^ j % 256) ∧ ∀ y, isAdobe y = false → (y < place ∨ place + count ≤ y) → t.homeByte y = s.homeByte y) ∧
  (∀ (s : State) (place count : Nat), s.homeNum place count = ((List.range count).map fun j => (s.homeByte (place + j)).toNat * 256 ^ j).sum) ∧
  ∀ b0 b1 b2 b3 : Byte, decodeBytes [b0, b1, b2, b3] = decode (BitVec.ofNat 32 (b0.toNat + 256 * b1.toNat + 256 ^ 2 * b2.toNat + 256 ^ 3 * b3.toNat))

/-- The signed types are two's complement and the natural types unsigned binary, each with its range (R12). -/
def Obligations.IntegerRanges : Prop :=
  ∀ k < 4, let w := 2 ^ (k + 3)
    widthOf k = w ∧ widthOf (4 + k) = w ∧
    (∀ n, intOf k n = (BitVec.ofNat w n).toInt ∧ -(2 ^ (w - 1)) ≤ intOf k n ∧ intOf k n ≤ 2 ^ (w - 1) - 1) ∧
    intOf k (2 ^ (w - 1)) = -(2 ^ (w - 1)) ∧ intOf k (2 ^ (w - 1) - 1) = 2 ^ (w - 1) - 1 ∧
    (∀ n, intOf (4 + k) n = ((BitVec.ofNat w n).toNat : Int) ∧ 0 ≤ intOf (4 + k) n ∧ intOf (4 + k) n ≤ 2 ^ w - 1) ∧
    intOf (4 + k) 0 = 0 ∧ intOf (4 + k) (2 ^ w - 1) = 2 ^ w - 1

/-- Reset leaves no group, launch or translation, the registers at the values the spec gives, and the invariants hold (R33, R306,
R307, R319, R323, R378, R384, R390, R391). -/
def Obligations.ResetState : Prop :=
  let s := State.reset
  s.MemoryCanonical ∧ s.Fresh ∧ s.time = 0 ∧ s.clock = 0 ∧ s.warm = false ∧ s.mem = [] ∧ s.l2 = [] ∧ s.l2ways = [] ∧ s.hbmQueue = [] ∧ s.preempts = [] ∧ s.groups = [] ∧ s.teams = [] ∧
  s.gangs = [] ∧ s.launches = [] ∧ s.pins = [] ∧ s.versions = [] ∧ s.adobes = [] ∧ (∀ c, (s.core c).tlb = [] ∧ (s.core c).l1 = [] ∧ (s.core c).cycle = 0) ∧
  (∀ k, s.slice k = { adw := 4, vw := 2, refused := false }) ∧ (∀ stack c, s.bwClass stack c = 15) ∧ (∀ d c, NMap.get s.ectr 0 (512 * d + c) = 0) ∧
  (∀ k, let p := s.plot k
    p.dvfs = .steady ∧ p.highRail = false ∧ p.fcur = 7 ∧ p.ftgt = 7 ∧ p.queued = false ∧ p.ovr = false ∧ p.fovr = 7 ∧ p.fcap = 14 ∧ p.highOk = true ∧ p.injEn = true) ∧
  s.host.cfg = 0 ∧ s.host.killing = none ∧ (∀ r, s.host.ring r = {}) ∧ (∀ p i, s.netCounter p i = 0) ∧ (∀ k, NMap.get s.filters 0 k = 0) ∧ ∀ d, (s.die d).offline = false ∧ (s.die d).slots = []
end

