-- ==== Sys2Proof/Laws/NMap.lean ====
section
/-! SUPPORT. Laws of the sparse maps: a read after a write, and the canonical form. -/

namespace Sys2Proof.Machine

variable {α : Type}

@[simp] theorem NMap.find_nil (k : Nat) : NMap.find ([] : NMap α) k = none := rfl

@[simp] theorem NMap.find_put_self (m : NMap α) (k : Nat) (x : α) : NMap.find (NMap.put m k x) k = some x := by
  induction m with
  | nil => simp [NMap.put, NMap.find]
  | cons e m ih =>
    obtain ⟨j, v⟩ := e
    rcases Nat.lt_trichotomy k j with h | rfl | h
    · simp [NMap.put, NMap.find, h]
    · simp [NMap.put, NMap.find]
    · have h1 : ¬ k < j := by omega
      have h2 : ¬ k = j := by omega
      have h3 : ¬ j = k := by omega
      simp only [NMap.put, h1, h2, ↓reduceIte, NMap.find, h3, ih]

theorem NMap.find_put_ne (m : NMap α) {k j : Nat} (x : α) (h : j ≠ k) : NMap.find (NMap.put m k x) j = NMap.find m j := by
  have hk : k ≠ j := h.symm
  induction m with
  | nil => simp [NMap.put, NMap.find, hk]
  | cons e m ih =>
    obtain ⟨i, v⟩ := e
    rcases Nat.lt_trichotomy k i with h' | rfl | h'
    · simp [NMap.put, NMap.find, h', hk]
    · simp [NMap.put, NMap.find, hk]
    · have h1 : ¬ k < i := by omega
      have h2 : ¬ k = i := by omega
      simp only [NMap.put, h1, h2, ↓reduceIte, NMap.find, ih]

theorem NMap.find_put (m : NMap α) (k j : Nat) (x : α) :
    NMap.find (NMap.put m k x) j = if j = k then some x else NMap.find m j := by
  split
  · next h => rw [h]; exact NMap.find_put_self m k x
  · next h => exact NMap.find_put_ne m x h

@[simp] theorem NMap.find_del_self (m : NMap α) (k : Nat) : NMap.find (NMap.del m k) k = none := by
  induction m with
  | nil => rfl
  | cons e m ih =>
    obtain ⟨i, v⟩ := e
    by_cases h : i = k
    · simpa [NMap.del, h] using ih
    · simpa [NMap.del, h, NMap.find] using ih

theorem NMap.find_del_ne (m : NMap α) {k j : Nat} (h : j ≠ k) : NMap.find (NMap.del m k) j = NMap.find m j := by
  induction m with
  | nil => rfl
  | cons e m ih =>
    obtain ⟨i, v⟩ := e
    by_cases hi : i = k
    · have : ¬ i = j := by omega
      simp_all [NMap.del, NMap.find]
    · simp only [NMap.del, List.filter_cons, bne_iff_ne, ne_eq, hi, not_false_eq_true, ↓reduceIte, NMap.find] at ih ⊢
      split
      · rfl
      · exact ih

@[simp] theorem NMap.get_put_self (m : NMap α) (d : α) (k : Nat) (x : α) : NMap.get (NMap.put m k x) d k = x := by
  simp [NMap.get]

theorem NMap.get_put_ne (m : NMap α) (d : α) {k j : Nat} (x : α) (h : j ≠ k) : NMap.get (NMap.put m k x) d j = NMap.get m d j := by
  simp [NMap.get, NMap.find_put_ne m x h]

@[simp] theorem NMap.get_store_self [DecidableEq α] (m : NMap α) (d : α) (k : Nat) (x : α) :
    NMap.get (NMap.store m d k x) d k = x := by
  unfold NMap.store
  split <;> simp_all [NMap.get]

theorem NMap.get_store_ne [DecidableEq α] (m : NMap α) (d : α) {k j : Nat} (x : α) (h : j ≠ k) :
    NMap.get (NMap.store m d k x) d j = NMap.get m d j := by
  unfold NMap.store
  split
  · simp [NMap.get, NMap.find_del_ne m h]
  · simp [NMap.get, NMap.find_put_ne m x h]

theorem NMap.get_store [DecidableEq α] (m : NMap α) (d : α) (k j : Nat) (x : α) :
    NMap.get (NMap.store m d k x) d j = if j = k then x else NMap.get m d j := by
  split
  · next h => rw [h]; exact NMap.get_store_self m d k x
  · next h => exact NMap.get_store_ne m d x h

theorem NMap.find_changeIf_self (m : NMap α) (k : Nat) (f : α → α) :
    NMap.find (NMap.changeIf m k f) k = (NMap.find m k).map f := by
  unfold NMap.changeIf
  cases h : NMap.find m k <;> simp [h]

theorem NMap.find_changeIf_ne (m : NMap α) {k j : Nat} (f : α → α) (h : j ≠ k) :
    NMap.find (NMap.changeIf m k f) j = NMap.find m j := by
  unfold NMap.changeIf
  cases NMap.find m k with
  | none => rfl
  | some v => exact NMap.find_put_ne m _ h

/-! ### The canonical form -/

theorem NMap.risesFrom_mono {lo hi : Nat} (m : NMap α) (h : lo ≤ hi) (r : NMap.risesFrom hi m = true) :
    NMap.risesFrom lo m = true := by
  cases m with
  | nil => rfl
  | cons e m => simp_all [NMap.risesFrom]; omega

theorem NMap.risesFrom_put (m : NMap α) (k : Nat) (x : α) (lo : Nat) (hk : lo ≤ k) (r : NMap.risesFrom lo m = true) :
    NMap.risesFrom lo (NMap.put m k x) = true := by
  induction m generalizing lo with
  | nil => simp [NMap.put, NMap.risesFrom, hk]
  | cons e m ih =>
    obtain ⟨i, v⟩ := e
    simp only [NMap.risesFrom, Bool.and_eq_true, decide_eq_true_eq] at r
    rcases Nat.lt_trichotomy k i with h | rfl | h
    · simp only [NMap.put, h, ↓reduceIte, NMap.risesFrom, Bool.and_eq_true, decide_eq_true_eq]
      exact ⟨hk, by omega, r.2⟩
    · simp [NMap.put, NMap.risesFrom, r.1, r.2]
    · have h1 : ¬ k < i := by omega
      have h2 : ¬ k = i := by omega
      simp only [NMap.put, h1, h2, ↓reduceIte, NMap.risesFrom, Bool.and_eq_true, decide_eq_true_eq]
      exact ⟨r.1, ih (i + 1) (by omega) r.2⟩

theorem NMap.risesFrom_filter (m : NMap α) (p : Nat × α → Bool) (lo : Nat) (r : NMap.risesFrom lo m = true) :
    NMap.risesFrom lo (m.filter p) = true := by
  induction m generalizing lo with
  | nil => rfl
  | cons e m ih =>
    obtain ⟨i, v⟩ := e
    simp only [NMap.risesFrom, Bool.and_eq_true, decide_eq_true_eq] at r
    by_cases h : p (i, v) = true
    · simp [h, NMap.risesFrom, r.1, ih (i + 1) r.2]
    · simp only [List.filter_cons, h, Bool.false_eq_true, ↓reduceIte]
      exact NMap.risesFrom_mono _ (by omega) (ih (i + 1) r.2)

theorem NMap.rises_put (m : NMap α) (k : Nat) (x : α) (r : NMap.rises m = true) : NMap.rises (NMap.put m k x) = true :=
  NMap.risesFrom_put m k x 0 (Nat.zero_le k) r

theorem NMap.rises_del (m : NMap α) (k : Nat) (r : NMap.rises m = true) : NMap.rises (NMap.del m k) = true :=
  NMap.risesFrom_filter m _ 0 r

theorem NMap.rises_store [DecidableEq α] (m : NMap α) (d : α) (k : Nat) (x : α) (r : NMap.rises m = true) :
    NMap.rises (NMap.store m d k x) = true := by
  unfold NMap.store
  split
  · exact NMap.rises_del m k r
  · exact NMap.rises_put m k x r

theorem NMap.mem_put {m : NMap α} {k : Nat} {x : α} {e : Nat × α} (h : e ∈ NMap.put m k x) : e = (k, x) ∨ e ∈ m := by
  induction m with
  | nil => simpa [NMap.put] using h
  | cons a m ih =>
    obtain ⟨i, v⟩ := a
    simp only [NMap.put] at h
    split at h
    · simpa using h
    · split at h
      · rcases List.mem_cons.1 h with h | h
        · exact Or.inl h
        · exact Or.inr (List.mem_cons_of_mem _ h)
      · rcases List.mem_cons.1 h with h | h
        · exact Or.inr (by simp [h])
        · rcases ih h with h | h
          · exact Or.inl h
          · exact Or.inr (List.mem_cons_of_mem _ h)

/-- No entry equal to what an unlisted key reads as survives a `store`. -/
theorem NMap.all_store [DecidableEq α] (m : NMap α) (d : α) (k : Nat) (x : α) (h : ∀ e ∈ m, e.2 ≠ d) :
    ∀ e ∈ NMap.store m d k x, e.2 ≠ d := by
  intro e he
  unfold NMap.store at he
  split at he
  · exact h e (List.mem_of_mem_filter he)
  · next hx =>
    rcases NMap.mem_put he with rfl | he
    · exact hx
    · exact h e he

end Sys2Proof.Machine
end

