-- ==== Sys2Proof/Laws/State.lean ====
section
/-! SUPPORT. One lemma per field per update of the state, and reads of a part after a change of it. -/

namespace Sys2Proof.Machine

variable (st : State)

/-! ### setCore -/

@[simp] theorem State.setCore_sched (c : Nat) (x : Core) : (st.setCore c x).sched = st.sched := rfl
@[simp] theorem State.setCore_actor (c : Nat) (x : Core) : (st.setCore c x).actor = st.actor := rfl
@[simp] theorem State.setCore_free (c : Nat) (x : Core) : (st.setCore c x).free = st.free := rfl
@[simp] theorem State.setCore_nextId (c : Nat) (x : Core) : (st.setCore c x).nextId = st.nextId := rfl
@[simp] theorem State.setCore_issueNo (c : Nat) (x : Core) : (st.setCore c x).issueNo = st.issueNo := rfl
@[simp] theorem State.setCore_time (c : Nat) (x : Core) : (st.setCore c x).time = st.time := rfl
@[simp] theorem State.setCore_clock (c : Nat) (x : Core) : (st.setCore c x).clock = st.clock := rfl
@[simp] theorem State.setCore_warm (c : Nat) (x : Core) : (st.setCore c x).warm = st.warm := rfl
@[simp] theorem State.setCore_mem (c : Nat) (x : Core) : (st.setCore c x).mem = st.mem := rfl
@[simp] theorem State.setCore_l2 (c : Nat) (x : Core) : (st.setCore c x).l2 = st.l2 := rfl
@[simp] theorem State.setCore_poison (c : Nat) (x : Core) : (st.setCore c x).poison = st.poison := rfl
@[simp] theorem State.setCore_pins (c : Nat) (x : Core) : (st.setCore c x).pins = st.pins := rfl
@[simp] theorem State.setCore_versions (c : Nat) (x : Core) : (st.setCore c x).versions = st.versions := rfl
@[simp] theorem State.setCore_adobes (c : Nat) (x : Core) : (st.setCore c x).adobes = st.adobes := rfl
@[simp] theorem State.setCore_adobeLines (c : Nat) (x : Core) : (st.setCore c x).adobeLines = st.adobeLines := rfl
@[simp] theorem State.setCore_adobeLost (c : Nat) (x : Core) : (st.setCore c x).adobeLost = st.adobeLost := rfl
@[simp] theorem State.setCore_adobeWriters (c : Nat) (x : Core) : (st.setCore c x).adobeWriters = st.adobeWriters := rfl
@[simp] theorem State.setCore_slices (c : Nat) (x : Core) : (st.setCore c x).slices = st.slices := rfl
@[simp] theorem State.setCore_groups (c : Nat) (x : Core) : (st.setCore c x).groups = st.groups := rfl
@[simp] theorem State.setCore_teams (c : Nat) (x : Core) : (st.setCore c x).teams = st.teams := rfl
@[simp] theorem State.setCore_gangs (c : Nat) (x : Core) : (st.setCore c x).gangs = st.gangs := rfl
@[simp] theorem State.setCore_launches (c : Nat) (x : Core) : (st.setCore c x).launches = st.launches := rfl
@[simp] theorem State.setCore_plots (c : Nat) (x : Core) : (st.setCore c x).plots = st.plots := rfl
@[simp] theorem State.setCore_dies (c : Nat) (x : Core) : (st.setCore c x).dies = st.dies := rfl
@[simp] theorem State.setCore_host (c : Nat) (x : Core) : (st.setCore c x).host = st.host := rfl
@[simp] theorem State.setCore_irend (c : Nat) (x : Core) : (st.setCore c x).irend = st.irend := rfl
@[simp] theorem State.setCore_ectr (c : Nat) (x : Core) : (st.setCore c x).ectr = st.ectr := rfl
@[simp] theorem State.setCore_powerMw (c : Nat) (x : Core) : (st.setCore c x).powerMw = st.powerMw := rfl
@[simp] theorem State.setCore_thermalAt (c : Nat) (x : Core) : (st.setCore c x).thermalAt = st.thermalAt := rfl
@[simp] theorem State.setCore_thermalDue (c : Nat) (x : Core) : (st.setCore c x).thermalDue = st.thermalDue := rfl
@[simp] theorem State.setCore_filters (c : Nat) (x : Core) : (st.setCore c x).filters = st.filters := rfl
@[simp] theorem State.setCore_netCounters (c : Nat) (x : Core) : (st.setCore c x).netCounters = st.netCounters := rfl
@[simp] theorem State.setCore_sentAt (c : Nat) (x : Core) : (st.setCore c x).sentAt = st.sentAt := rfl
@[simp] theorem State.setCore_tests (c : Nat) (x : Core) : (st.setCore c x).tests = st.tests := rfl
@[simp] theorem State.setCore_hbmCount (c : Nat) (x : Core) : (st.setCore c x).hbmCount = st.hbmCount := rfl
@[simp] theorem State.setCore_hbmLast (c : Nat) (x : Core) : (st.setCore c x).hbmLast = st.hbmLast := rfl
@[simp] theorem State.setCore_bwclass (c : Nat) (x : Core) : (st.setCore c x).bwclass = st.bwclass := rfl
@[simp] theorem State.setCore_sampledAt (c : Nat) (x : Core) : (st.setCore c x).sampledAt = st.sampledAt := rfl
@[simp] theorem State.setCore_l2bad (c : Nat) (x : Core) : (st.setCore c x).l2bad = st.l2bad := rfl
@[simp] theorem State.setCore_l2ways (c : Nat) (x : Core) : (st.setCore c x).l2ways = st.l2ways := rfl
@[simp] theorem State.setCore_crowded (c : Nat) (x : Core) : (st.setCore c x).crowded = st.crowded := rfl
@[simp] theorem State.setCore_hbmQueue (c : Nat) (x : Core) : (st.setCore c x).hbmQueue = st.hbmQueue := rfl
@[simp] theorem State.setCore_l1Tags (c : Nat) (x : Core) : (st.setCore c x).l1Tags = st.l1Tags := rfl
@[simp] theorem State.setCore_unreserved (c : Nat) (x : Core) : (st.setCore c x).unreserved = st.unreserved := rfl
@[simp] theorem State.setCore_preempts (c : Nat) (x : Core) : (st.setCore c x).preempts = st.preempts := rfl

/-! ### onCore -/

@[simp] theorem State.onCore_sched (c : Nat) (f : Core → Core) : (st.onCore c f).sched = st.sched := rfl
@[simp] theorem State.onCore_actor (c : Nat) (f : Core → Core) : (st.onCore c f).actor = st.actor := rfl
@[simp] theorem State.onCore_free (c : Nat) (f : Core → Core) : (st.onCore c f).free = st.free := rfl
@[simp] theorem State.onCore_nextId (c : Nat) (f : Core → Core) : (st.onCore c f).nextId = st.nextId := rfl
@[simp] theorem State.onCore_issueNo (c : Nat) (f : Core → Core) : (st.onCore c f).issueNo = st.issueNo := rfl
@[simp] theorem State.onCore_time (c : Nat) (f : Core → Core) : (st.onCore c f).time = st.time := rfl
@[simp] theorem State.onCore_clock (c : Nat) (f : Core → Core) : (st.onCore c f).clock = st.clock := rfl
@[simp] theorem State.onCore_warm (c : Nat) (f : Core → Core) : (st.onCore c f).warm = st.warm := rfl
@[simp] theorem State.onCore_mem (c : Nat) (f : Core → Core) : (st.onCore c f).mem = st.mem := rfl
@[simp] theorem State.onCore_l2 (c : Nat) (f : Core → Core) : (st.onCore c f).l2 = st.l2 := rfl
@[simp] theorem State.onCore_poison (c : Nat) (f : Core → Core) : (st.onCore c f).poison = st.poison := rfl
@[simp] theorem State.onCore_pins (c : Nat) (f : Core → Core) : (st.onCore c f).pins = st.pins := rfl
@[simp] theorem State.onCore_versions (c : Nat) (f : Core → Core) : (st.onCore c f).versions = st.versions := rfl
@[simp] theorem State.onCore_adobes (c : Nat) (f : Core → Core) : (st.onCore c f).adobes = st.adobes := rfl
@[simp] theorem State.onCore_adobeLines (c : Nat) (f : Core → Core) : (st.onCore c f).adobeLines = st.adobeLines := rfl
@[simp] theorem State.onCore_adobeLost (c : Nat) (f : Core → Core) : (st.onCore c f).adobeLost = st.adobeLost := rfl
@[simp] theorem State.onCore_adobeWriters (c : Nat) (f : Core → Core) : (st.onCore c f).adobeWriters = st.adobeWriters := rfl
@[simp] theorem State.onCore_slices (c : Nat) (f : Core → Core) : (st.onCore c f).slices = st.slices := rfl
@[simp] theorem State.onCore_groups (c : Nat) (f : Core → Core) : (st.onCore c f).groups = st.groups := rfl
@[simp] theorem State.onCore_teams (c : Nat) (f : Core → Core) : (st.onCore c f).teams = st.teams := rfl
@[simp] theorem State.onCore_gangs (c : Nat) (f : Core → Core) : (st.onCore c f).gangs = st.gangs := rfl
@[simp] theorem State.onCore_launches (c : Nat) (f : Core → Core) : (st.onCore c f).launches = st.launches := rfl
@[simp] theorem State.onCore_plots (c : Nat) (f : Core → Core) : (st.onCore c f).plots = st.plots := rfl
@[simp] theorem State.onCore_dies (c : Nat) (f : Core → Core) : (st.onCore c f).dies = st.dies := rfl
@[simp] theorem State.onCore_host (c : Nat) (f : Core → Core) : (st.onCore c f).host = st.host := rfl
@[simp] theorem State.onCore_irend (c : Nat) (f : Core → Core) : (st.onCore c f).irend = st.irend := rfl
@[simp] theorem State.onCore_ectr (c : Nat) (f : Core → Core) : (st.onCore c f).ectr = st.ectr := rfl
@[simp] theorem State.onCore_powerMw (c : Nat) (f : Core → Core) : (st.onCore c f).powerMw = st.powerMw := rfl
@[simp] theorem State.onCore_thermalAt (c : Nat) (f : Core → Core) : (st.onCore c f).thermalAt = st.thermalAt := rfl
@[simp] theorem State.onCore_thermalDue (c : Nat) (f : Core → Core) : (st.onCore c f).thermalDue = st.thermalDue := rfl
@[simp] theorem State.onCore_filters (c : Nat) (f : Core → Core) : (st.onCore c f).filters = st.filters := rfl
@[simp] theorem State.onCore_netCounters (c : Nat) (f : Core → Core) : (st.onCore c f).netCounters = st.netCounters := rfl
@[simp] theorem State.onCore_sentAt (c : Nat) (f : Core → Core) : (st.onCore c f).sentAt = st.sentAt := rfl
@[simp] theorem State.onCore_tests (c : Nat) (f : Core → Core) : (st.onCore c f).tests = st.tests := rfl
@[simp] theorem State.onCore_hbmCount (c : Nat) (f : Core → Core) : (st.onCore c f).hbmCount = st.hbmCount := rfl
@[simp] theorem State.onCore_hbmLast (c : Nat) (f : Core → Core) : (st.onCore c f).hbmLast = st.hbmLast := rfl
@[simp] theorem State.onCore_bwclass (c : Nat) (f : Core → Core) : (st.onCore c f).bwclass = st.bwclass := rfl
@[simp] theorem State.onCore_sampledAt (c : Nat) (f : Core → Core) : (st.onCore c f).sampledAt = st.sampledAt := rfl
@[simp] theorem State.onCore_l2bad (c : Nat) (f : Core → Core) : (st.onCore c f).l2bad = st.l2bad := rfl
@[simp] theorem State.onCore_l2ways (c : Nat) (f : Core → Core) : (st.onCore c f).l2ways = st.l2ways := rfl
@[simp] theorem State.onCore_crowded (c : Nat) (f : Core → Core) : (st.onCore c f).crowded = st.crowded := rfl
@[simp] theorem State.onCore_hbmQueue (c : Nat) (f : Core → Core) : (st.onCore c f).hbmQueue = st.hbmQueue := rfl
@[simp] theorem State.onCore_l1Tags (c : Nat) (f : Core → Core) : (st.onCore c f).l1Tags = st.l1Tags := rfl
@[simp] theorem State.onCore_unreserved (c : Nat) (f : Core → Core) : (st.onCore c f).unreserved = st.unreserved := rfl
@[simp] theorem State.onCore_preempts (c : Nat) (f : Core → Core) : (st.onCore c f).preempts = st.preempts := rfl

/-! ### setGroup -/

@[simp] theorem State.setGroup_sched (k : Nat) (x : Group) : (st.setGroup k x).sched = st.sched := rfl
@[simp] theorem State.setGroup_actor (k : Nat) (x : Group) : (st.setGroup k x).actor = st.actor := rfl
@[simp] theorem State.setGroup_free (k : Nat) (x : Group) : (st.setGroup k x).free = st.free := rfl
@[simp] theorem State.setGroup_nextId (k : Nat) (x : Group) : (st.setGroup k x).nextId = st.nextId := rfl
@[simp] theorem State.setGroup_issueNo (k : Nat) (x : Group) : (st.setGroup k x).issueNo = st.issueNo := rfl
@[simp] theorem State.setGroup_time (k : Nat) (x : Group) : (st.setGroup k x).time = st.time := rfl
@[simp] theorem State.setGroup_clock (k : Nat) (x : Group) : (st.setGroup k x).clock = st.clock := rfl
@[simp] theorem State.setGroup_warm (k : Nat) (x : Group) : (st.setGroup k x).warm = st.warm := rfl
@[simp] theorem State.setGroup_mem (k : Nat) (x : Group) : (st.setGroup k x).mem = st.mem := rfl
@[simp] theorem State.setGroup_l2 (k : Nat) (x : Group) : (st.setGroup k x).l2 = st.l2 := rfl
@[simp] theorem State.setGroup_poison (k : Nat) (x : Group) : (st.setGroup k x).poison = st.poison := rfl
@[simp] theorem State.setGroup_pins (k : Nat) (x : Group) : (st.setGroup k x).pins = st.pins := rfl
@[simp] theorem State.setGroup_versions (k : Nat) (x : Group) : (st.setGroup k x).versions = st.versions := rfl
@[simp] theorem State.setGroup_adobes (k : Nat) (x : Group) : (st.setGroup k x).adobes = st.adobes := rfl
@[simp] theorem State.setGroup_adobeLines (k : Nat) (x : Group) : (st.setGroup k x).adobeLines = st.adobeLines := rfl
@[simp] theorem State.setGroup_adobeLost (k : Nat) (x : Group) : (st.setGroup k x).adobeLost = st.adobeLost := rfl
@[simp] theorem State.setGroup_adobeWriters (k : Nat) (x : Group) : (st.setGroup k x).adobeWriters = st.adobeWriters := rfl
@[simp] theorem State.setGroup_slices (k : Nat) (x : Group) : (st.setGroup k x).slices = st.slices := rfl
@[simp] theorem State.setGroup_teams (k : Nat) (x : Group) : (st.setGroup k x).teams = st.teams := rfl
@[simp] theorem State.setGroup_gangs (k : Nat) (x : Group) : (st.setGroup k x).gangs = st.gangs := rfl
@[simp] theorem State.setGroup_launches (k : Nat) (x : Group) : (st.setGroup k x).launches = st.launches := rfl
@[simp] theorem State.setGroup_cores (k : Nat) (x : Group) : (st.setGroup k x).cores = st.cores := rfl
@[simp] theorem State.setGroup_plots (k : Nat) (x : Group) : (st.setGroup k x).plots = st.plots := rfl
@[simp] theorem State.setGroup_dies (k : Nat) (x : Group) : (st.setGroup k x).dies = st.dies := rfl
@[simp] theorem State.setGroup_host (k : Nat) (x : Group) : (st.setGroup k x).host = st.host := rfl
@[simp] theorem State.setGroup_irend (k : Nat) (x : Group) : (st.setGroup k x).irend = st.irend := rfl
@[simp] theorem State.setGroup_ectr (k : Nat) (x : Group) : (st.setGroup k x).ectr = st.ectr := rfl
@[simp] theorem State.setGroup_powerMw (k : Nat) (x : Group) : (st.setGroup k x).powerMw = st.powerMw := rfl
@[simp] theorem State.setGroup_thermalAt (k : Nat) (x : Group) : (st.setGroup k x).thermalAt = st.thermalAt := rfl
@[simp] theorem State.setGroup_thermalDue (k : Nat) (x : Group) : (st.setGroup k x).thermalDue = st.thermalDue := rfl
@[simp] theorem State.setGroup_filters (k : Nat) (x : Group) : (st.setGroup k x).filters = st.filters := rfl
@[simp] theorem State.setGroup_netCounters (k : Nat) (x : Group) : (st.setGroup k x).netCounters = st.netCounters := rfl
@[simp] theorem State.setGroup_sentAt (k : Nat) (x : Group) : (st.setGroup k x).sentAt = st.sentAt := rfl
@[simp] theorem State.setGroup_tests (k : Nat) (x : Group) : (st.setGroup k x).tests = st.tests := rfl
@[simp] theorem State.setGroup_hbmCount (k : Nat) (x : Group) : (st.setGroup k x).hbmCount = st.hbmCount := rfl
@[simp] theorem State.setGroup_hbmLast (k : Nat) (x : Group) : (st.setGroup k x).hbmLast = st.hbmLast := rfl
@[simp] theorem State.setGroup_bwclass (k : Nat) (x : Group) : (st.setGroup k x).bwclass = st.bwclass := rfl
@[simp] theorem State.setGroup_sampledAt (k : Nat) (x : Group) : (st.setGroup k x).sampledAt = st.sampledAt := rfl
@[simp] theorem State.setGroup_l2bad (k : Nat) (x : Group) : (st.setGroup k x).l2bad = st.l2bad := rfl
@[simp] theorem State.setGroup_l2ways (k : Nat) (x : Group) : (st.setGroup k x).l2ways = st.l2ways := rfl
@[simp] theorem State.setGroup_crowded (k : Nat) (x : Group) : (st.setGroup k x).crowded = st.crowded := rfl
@[simp] theorem State.setGroup_hbmQueue (k : Nat) (x : Group) : (st.setGroup k x).hbmQueue = st.hbmQueue := rfl
@[simp] theorem State.setGroup_l1Tags (k : Nat) (x : Group) : (st.setGroup k x).l1Tags = st.l1Tags := rfl
@[simp] theorem State.setGroup_unreserved (k : Nat) (x : Group) : (st.setGroup k x).unreserved = st.unreserved := rfl
@[simp] theorem State.setGroup_preempts (k : Nat) (x : Group) : (st.setGroup k x).preempts = st.preempts := rfl

/-! ### onGroup -/

@[simp] theorem State.onGroup_sched (k : Nat) (f : Group → Group) : (st.onGroup k f).sched = st.sched := rfl
@[simp] theorem State.onGroup_actor (k : Nat) (f : Group → Group) : (st.onGroup k f).actor = st.actor := rfl
@[simp] theorem State.onGroup_free (k : Nat) (f : Group → Group) : (st.onGroup k f).free = st.free := rfl
@[simp] theorem State.onGroup_nextId (k : Nat) (f : Group → Group) : (st.onGroup k f).nextId = st.nextId := rfl
@[simp] theorem State.onGroup_issueNo (k : Nat) (f : Group → Group) : (st.onGroup k f).issueNo = st.issueNo := rfl
@[simp] theorem State.onGroup_time (k : Nat) (f : Group → Group) : (st.onGroup k f).time = st.time := rfl
@[simp] theorem State.onGroup_clock (k : Nat) (f : Group → Group) : (st.onGroup k f).clock = st.clock := rfl
@[simp] theorem State.onGroup_warm (k : Nat) (f : Group → Group) : (st.onGroup k f).warm = st.warm := rfl
@[simp] theorem State.onGroup_mem (k : Nat) (f : Group → Group) : (st.onGroup k f).mem = st.mem := rfl
@[simp] theorem State.onGroup_l2 (k : Nat) (f : Group → Group) : (st.onGroup k f).l2 = st.l2 := rfl
@[simp] theorem State.onGroup_poison (k : Nat) (f : Group → Group) : (st.onGroup k f).poison = st.poison := rfl
@[simp] theorem State.onGroup_pins (k : Nat) (f : Group → Group) : (st.onGroup k f).pins = st.pins := rfl
@[simp] theorem State.onGroup_versions (k : Nat) (f : Group → Group) : (st.onGroup k f).versions = st.versions := rfl
@[simp] theorem State.onGroup_adobes (k : Nat) (f : Group → Group) : (st.onGroup k f).adobes = st.adobes := rfl
@[simp] theorem State.onGroup_adobeLines (k : Nat) (f : Group → Group) : (st.onGroup k f).adobeLines = st.adobeLines := rfl
@[simp] theorem State.onGroup_adobeLost (k : Nat) (f : Group → Group) : (st.onGroup k f).adobeLost = st.adobeLost := rfl
@[simp] theorem State.onGroup_adobeWriters (k : Nat) (f : Group → Group) : (st.onGroup k f).adobeWriters = st.adobeWriters := rfl
@[simp] theorem State.onGroup_slices (k : Nat) (f : Group → Group) : (st.onGroup k f).slices = st.slices := rfl
@[simp] theorem State.onGroup_teams (k : Nat) (f : Group → Group) : (st.onGroup k f).teams = st.teams := rfl
@[simp] theorem State.onGroup_gangs (k : Nat) (f : Group → Group) : (st.onGroup k f).gangs = st.gangs := rfl
@[simp] theorem State.onGroup_launches (k : Nat) (f : Group → Group) : (st.onGroup k f).launches = st.launches := rfl
@[simp] theorem State.onGroup_cores (k : Nat) (f : Group → Group) : (st.onGroup k f).cores = st.cores := rfl
@[simp] theorem State.onGroup_plots (k : Nat) (f : Group → Group) : (st.onGroup k f).plots = st.plots := rfl
@[simp] theorem State.onGroup_dies (k : Nat) (f : Group → Group) : (st.onGroup k f).dies = st.dies := rfl
@[simp] theorem State.onGroup_host (k : Nat) (f : Group → Group) : (st.onGroup k f).host = st.host := rfl
@[simp] theorem State.onGroup_irend (k : Nat) (f : Group → Group) : (st.onGroup k f).irend = st.irend := rfl
@[simp] theorem State.onGroup_ectr (k : Nat) (f : Group → Group) : (st.onGroup k f).ectr = st.ectr := rfl
@[simp] theorem State.onGroup_powerMw (k : Nat) (f : Group → Group) : (st.onGroup k f).powerMw = st.powerMw := rfl
@[simp] theorem State.onGroup_thermalAt (k : Nat) (f : Group → Group) : (st.onGroup k f).thermalAt = st.thermalAt := rfl
@[simp] theorem State.onGroup_thermalDue (k : Nat) (f : Group → Group) : (st.onGroup k f).thermalDue = st.thermalDue := rfl
@[simp] theorem State.onGroup_filters (k : Nat) (f : Group → Group) : (st.onGroup k f).filters = st.filters := rfl
@[simp] theorem State.onGroup_netCounters (k : Nat) (f : Group → Group) : (st.onGroup k f).netCounters = st.netCounters := rfl
@[simp] theorem State.onGroup_sentAt (k : Nat) (f : Group → Group) : (st.onGroup k f).sentAt = st.sentAt := rfl
@[simp] theorem State.onGroup_tests (k : Nat) (f : Group → Group) : (st.onGroup k f).tests = st.tests := rfl
@[simp] theorem State.onGroup_hbmCount (k : Nat) (f : Group → Group) : (st.onGroup k f).hbmCount = st.hbmCount := rfl
@[simp] theorem State.onGroup_hbmLast (k : Nat) (f : Group → Group) : (st.onGroup k f).hbmLast = st.hbmLast := rfl
@[simp] theorem State.onGroup_bwclass (k : Nat) (f : Group → Group) : (st.onGroup k f).bwclass = st.bwclass := rfl
@[simp] theorem State.onGroup_sampledAt (k : Nat) (f : Group → Group) : (st.onGroup k f).sampledAt = st.sampledAt := rfl
@[simp] theorem State.onGroup_l2bad (k : Nat) (f : Group → Group) : (st.onGroup k f).l2bad = st.l2bad := rfl
@[simp] theorem State.onGroup_l2ways (k : Nat) (f : Group → Group) : (st.onGroup k f).l2ways = st.l2ways := rfl
@[simp] theorem State.onGroup_crowded (k : Nat) (f : Group → Group) : (st.onGroup k f).crowded = st.crowded := rfl
@[simp] theorem State.onGroup_hbmQueue (k : Nat) (f : Group → Group) : (st.onGroup k f).hbmQueue = st.hbmQueue := rfl
@[simp] theorem State.onGroup_l1Tags (k : Nat) (f : Group → Group) : (st.onGroup k f).l1Tags = st.l1Tags := rfl
@[simp] theorem State.onGroup_unreserved (k : Nat) (f : Group → Group) : (st.onGroup k f).unreserved = st.unreserved := rfl
@[simp] theorem State.onGroup_preempts (k : Nat) (f : Group → Group) : (st.onGroup k f).preempts = st.preempts := rfl

/-! ### onTeam -/

@[simp] theorem State.onTeam_sched (k : Nat) (f : Team → Team) : (st.onTeam k f).sched = st.sched := rfl
@[simp] theorem State.onTeam_actor (k : Nat) (f : Team → Team) : (st.onTeam k f).actor = st.actor := rfl
@[simp] theorem State.onTeam_free (k : Nat) (f : Team → Team) : (st.onTeam k f).free = st.free := rfl
@[simp] theorem State.onTeam_nextId (k : Nat) (f : Team → Team) : (st.onTeam k f).nextId = st.nextId := rfl
@[simp] theorem State.onTeam_issueNo (k : Nat) (f : Team → Team) : (st.onTeam k f).issueNo = st.issueNo := rfl
@[simp] theorem State.onTeam_time (k : Nat) (f : Team → Team) : (st.onTeam k f).time = st.time := rfl
@[simp] theorem State.onTeam_clock (k : Nat) (f : Team → Team) : (st.onTeam k f).clock = st.clock := rfl
@[simp] theorem State.onTeam_warm (k : Nat) (f : Team → Team) : (st.onTeam k f).warm = st.warm := rfl
@[simp] theorem State.onTeam_mem (k : Nat) (f : Team → Team) : (st.onTeam k f).mem = st.mem := rfl
@[simp] theorem State.onTeam_l2 (k : Nat) (f : Team → Team) : (st.onTeam k f).l2 = st.l2 := rfl
@[simp] theorem State.onTeam_poison (k : Nat) (f : Team → Team) : (st.onTeam k f).poison = st.poison := rfl
@[simp] theorem State.onTeam_pins (k : Nat) (f : Team → Team) : (st.onTeam k f).pins = st.pins := rfl
@[simp] theorem State.onTeam_versions (k : Nat) (f : Team → Team) : (st.onTeam k f).versions = st.versions := rfl
@[simp] theorem State.onTeam_adobes (k : Nat) (f : Team → Team) : (st.onTeam k f).adobes = st.adobes := rfl
@[simp] theorem State.onTeam_adobeLines (k : Nat) (f : Team → Team) : (st.onTeam k f).adobeLines = st.adobeLines := rfl
@[simp] theorem State.onTeam_adobeLost (k : Nat) (f : Team → Team) : (st.onTeam k f).adobeLost = st.adobeLost := rfl
@[simp] theorem State.onTeam_adobeWriters (k : Nat) (f : Team → Team) : (st.onTeam k f).adobeWriters = st.adobeWriters := rfl
@[simp] theorem State.onTeam_slices (k : Nat) (f : Team → Team) : (st.onTeam k f).slices = st.slices := rfl
@[simp] theorem State.onTeam_groups (k : Nat) (f : Team → Team) : (st.onTeam k f).groups = st.groups := rfl
@[simp] theorem State.onTeam_gangs (k : Nat) (f : Team → Team) : (st.onTeam k f).gangs = st.gangs := rfl
@[simp] theorem State.onTeam_launches (k : Nat) (f : Team → Team) : (st.onTeam k f).launches = st.launches := rfl
@[simp] theorem State.onTeam_cores (k : Nat) (f : Team → Team) : (st.onTeam k f).cores = st.cores := rfl
@[simp] theorem State.onTeam_plots (k : Nat) (f : Team → Team) : (st.onTeam k f).plots = st.plots := rfl
@[simp] theorem State.onTeam_dies (k : Nat) (f : Team → Team) : (st.onTeam k f).dies = st.dies := rfl
@[simp] theorem State.onTeam_host (k : Nat) (f : Team → Team) : (st.onTeam k f).host = st.host := rfl
@[simp] theorem State.onTeam_irend (k : Nat) (f : Team → Team) : (st.onTeam k f).irend = st.irend := rfl
@[simp] theorem State.onTeam_ectr (k : Nat) (f : Team → Team) : (st.onTeam k f).ectr = st.ectr := rfl
@[simp] theorem State.onTeam_powerMw (k : Nat) (f : Team → Team) : (st.onTeam k f).powerMw = st.powerMw := rfl
@[simp] theorem State.onTeam_thermalAt (k : Nat) (f : Team → Team) : (st.onTeam k f).thermalAt = st.thermalAt := rfl
@[simp] theorem State.onTeam_thermalDue (k : Nat) (f : Team → Team) : (st.onTeam k f).thermalDue = st.thermalDue := rfl
@[simp] theorem State.onTeam_filters (k : Nat) (f : Team → Team) : (st.onTeam k f).filters = st.filters := rfl
@[simp] theorem State.onTeam_netCounters (k : Nat) (f : Team → Team) : (st.onTeam k f).netCounters = st.netCounters := rfl
@[simp] theorem State.onTeam_sentAt (k : Nat) (f : Team → Team) : (st.onTeam k f).sentAt = st.sentAt := rfl
@[simp] theorem State.onTeam_tests (k : Nat) (f : Team → Team) : (st.onTeam k f).tests = st.tests := rfl
@[simp] theorem State.onTeam_hbmCount (k : Nat) (f : Team → Team) : (st.onTeam k f).hbmCount = st.hbmCount := rfl
@[simp] theorem State.onTeam_hbmLast (k : Nat) (f : Team → Team) : (st.onTeam k f).hbmLast = st.hbmLast := rfl
@[simp] theorem State.onTeam_bwclass (k : Nat) (f : Team → Team) : (st.onTeam k f).bwclass = st.bwclass := rfl
@[simp] theorem State.onTeam_sampledAt (k : Nat) (f : Team → Team) : (st.onTeam k f).sampledAt = st.sampledAt := rfl
@[simp] theorem State.onTeam_l2bad (k : Nat) (f : Team → Team) : (st.onTeam k f).l2bad = st.l2bad := rfl
@[simp] theorem State.onTeam_l2ways (k : Nat) (f : Team → Team) : (st.onTeam k f).l2ways = st.l2ways := rfl
@[simp] theorem State.onTeam_crowded (k : Nat) (f : Team → Team) : (st.onTeam k f).crowded = st.crowded := rfl
@[simp] theorem State.onTeam_hbmQueue (k : Nat) (f : Team → Team) : (st.onTeam k f).hbmQueue = st.hbmQueue := rfl
@[simp] theorem State.onTeam_l1Tags (k : Nat) (f : Team → Team) : (st.onTeam k f).l1Tags = st.l1Tags := rfl
@[simp] theorem State.onTeam_unreserved (k : Nat) (f : Team → Team) : (st.onTeam k f).unreserved = st.unreserved := rfl
@[simp] theorem State.onTeam_preempts (k : Nat) (f : Team → Team) : (st.onTeam k f).preempts = st.preempts := rfl

/-! ### onGang -/

@[simp] theorem State.onGang_sched (k : Nat) (f : Gang → Gang) : (st.onGang k f).sched = st.sched := rfl
@[simp] theorem State.onGang_actor (k : Nat) (f : Gang → Gang) : (st.onGang k f).actor = st.actor := rfl
@[simp] theorem State.onGang_free (k : Nat) (f : Gang → Gang) : (st.onGang k f).free = st.free := rfl
@[simp] theorem State.onGang_nextId (k : Nat) (f : Gang → Gang) : (st.onGang k f).nextId = st.nextId := rfl
@[simp] theorem State.onGang_issueNo (k : Nat) (f : Gang → Gang) : (st.onGang k f).issueNo = st.issueNo := rfl
@[simp] theorem State.onGang_time (k : Nat) (f : Gang → Gang) : (st.onGang k f).time = st.time := rfl
@[simp] theorem State.onGang_clock (k : Nat) (f : Gang → Gang) : (st.onGang k f).clock = st.clock := rfl
@[simp] theorem State.onGang_warm (k : Nat) (f : Gang → Gang) : (st.onGang k f).warm = st.warm := rfl
@[simp] theorem State.onGang_mem (k : Nat) (f : Gang → Gang) : (st.onGang k f).mem = st.mem := rfl
@[simp] theorem State.onGang_l2 (k : Nat) (f : Gang → Gang) : (st.onGang k f).l2 = st.l2 := rfl
@[simp] theorem State.onGang_poison (k : Nat) (f : Gang → Gang) : (st.onGang k f).poison = st.poison := rfl
@[simp] theorem State.onGang_pins (k : Nat) (f : Gang → Gang) : (st.onGang k f).pins = st.pins := rfl
@[simp] theorem State.onGang_versions (k : Nat) (f : Gang → Gang) : (st.onGang k f).versions = st.versions := rfl
@[simp] theorem State.onGang_adobes (k : Nat) (f : Gang → Gang) : (st.onGang k f).adobes = st.adobes := rfl
@[simp] theorem State.onGang_adobeLines (k : Nat) (f : Gang → Gang) : (st.onGang k f).adobeLines = st.adobeLines := rfl
@[simp] theorem State.onGang_adobeLost (k : Nat) (f : Gang → Gang) : (st.onGang k f).adobeLost = st.adobeLost := rfl
@[simp] theorem State.onGang_adobeWriters (k : Nat) (f : Gang → Gang) : (st.onGang k f).adobeWriters = st.adobeWriters := rfl
@[simp] theorem State.onGang_slices (k : Nat) (f : Gang → Gang) : (st.onGang k f).slices = st.slices := rfl
@[simp] theorem State.onGang_groups (k : Nat) (f : Gang → Gang) : (st.onGang k f).groups = st.groups := rfl
@[simp] theorem State.onGang_teams (k : Nat) (f : Gang → Gang) : (st.onGang k f).teams = st.teams := rfl
@[simp] theorem State.onGang_launches (k : Nat) (f : Gang → Gang) : (st.onGang k f).launches = st.launches := rfl
@[simp] theorem State.onGang_cores (k : Nat) (f : Gang → Gang) : (st.onGang k f).cores = st.cores := rfl
@[simp] theorem State.onGang_plots (k : Nat) (f : Gang → Gang) : (st.onGang k f).plots = st.plots := rfl
@[simp] theorem State.onGang_dies (k : Nat) (f : Gang → Gang) : (st.onGang k f).dies = st.dies := rfl
@[simp] theorem State.onGang_host (k : Nat) (f : Gang → Gang) : (st.onGang k f).host = st.host := rfl
@[simp] theorem State.onGang_irend (k : Nat) (f : Gang → Gang) : (st.onGang k f).irend = st.irend := rfl
@[simp] theorem State.onGang_ectr (k : Nat) (f : Gang → Gang) : (st.onGang k f).ectr = st.ectr := rfl
@[simp] theorem State.onGang_powerMw (k : Nat) (f : Gang → Gang) : (st.onGang k f).powerMw = st.powerMw := rfl
@[simp] theorem State.onGang_thermalAt (k : Nat) (f : Gang → Gang) : (st.onGang k f).thermalAt = st.thermalAt := rfl
@[simp] theorem State.onGang_thermalDue (k : Nat) (f : Gang → Gang) : (st.onGang k f).thermalDue = st.thermalDue := rfl
@[simp] theorem State.onGang_filters (k : Nat) (f : Gang → Gang) : (st.onGang k f).filters = st.filters := rfl
@[simp] theorem State.onGang_netCounters (k : Nat) (f : Gang → Gang) : (st.onGang k f).netCounters = st.netCounters := rfl
@[simp] theorem State.onGang_sentAt (k : Nat) (f : Gang → Gang) : (st.onGang k f).sentAt = st.sentAt := rfl
@[simp] theorem State.onGang_tests (k : Nat) (f : Gang → Gang) : (st.onGang k f).tests = st.tests := rfl
@[simp] theorem State.onGang_hbmCount (k : Nat) (f : Gang → Gang) : (st.onGang k f).hbmCount = st.hbmCount := rfl
@[simp] theorem State.onGang_hbmLast (k : Nat) (f : Gang → Gang) : (st.onGang k f).hbmLast = st.hbmLast := rfl
@[simp] theorem State.onGang_bwclass (k : Nat) (f : Gang → Gang) : (st.onGang k f).bwclass = st.bwclass := rfl
@[simp] theorem State.onGang_sampledAt (k : Nat) (f : Gang → Gang) : (st.onGang k f).sampledAt = st.sampledAt := rfl
@[simp] theorem State.onGang_l2bad (k : Nat) (f : Gang → Gang) : (st.onGang k f).l2bad = st.l2bad := rfl
@[simp] theorem State.onGang_l2ways (k : Nat) (f : Gang → Gang) : (st.onGang k f).l2ways = st.l2ways := rfl
@[simp] theorem State.onGang_crowded (k : Nat) (f : Gang → Gang) : (st.onGang k f).crowded = st.crowded := rfl
@[simp] theorem State.onGang_hbmQueue (k : Nat) (f : Gang → Gang) : (st.onGang k f).hbmQueue = st.hbmQueue := rfl
@[simp] theorem State.onGang_l1Tags (k : Nat) (f : Gang → Gang) : (st.onGang k f).l1Tags = st.l1Tags := rfl
@[simp] theorem State.onGang_unreserved (k : Nat) (f : Gang → Gang) : (st.onGang k f).unreserved = st.unreserved := rfl
@[simp] theorem State.onGang_preempts (k : Nat) (f : Gang → Gang) : (st.onGang k f).preempts = st.preempts := rfl

/-! ### onLaunch -/

@[simp] theorem State.onLaunch_sched (k : Nat) (f : Launch → Launch) : (st.onLaunch k f).sched = st.sched := rfl
@[simp] theorem State.onLaunch_actor (k : Nat) (f : Launch → Launch) : (st.onLaunch k f).actor = st.actor := rfl
@[simp] theorem State.onLaunch_free (k : Nat) (f : Launch → Launch) : (st.onLaunch k f).free = st.free := rfl
@[simp] theorem State.onLaunch_nextId (k : Nat) (f : Launch → Launch) : (st.onLaunch k f).nextId = st.nextId := rfl
@[simp] theorem State.onLaunch_issueNo (k : Nat) (f : Launch → Launch) : (st.onLaunch k f).issueNo = st.issueNo := rfl
@[simp] theorem State.onLaunch_time (k : Nat) (f : Launch → Launch) : (st.onLaunch k f).time = st.time := rfl
@[simp] theorem State.onLaunch_clock (k : Nat) (f : Launch → Launch) : (st.onLaunch k f).clock = st.clock := rfl
@[simp] theorem State.onLaunch_warm (k : Nat) (f : Launch → Launch) : (st.onLaunch k f).warm = st.warm := rfl
@[simp] theorem State.onLaunch_mem (k : Nat) (f : Launch → Launch) : (st.onLaunch k f).mem = st.mem := rfl
@[simp] theorem State.onLaunch_l2 (k : Nat) (f : Launch → Launch) : (st.onLaunch k f).l2 = st.l2 := rfl
@[simp] theorem State.onLaunch_poison (k : Nat) (f : Launch → Launch) : (st.onLaunch k f).poison = st.poison := rfl
@[simp] theorem State.onLaunch_pins (k : Nat) (f : Launch → Launch) : (st.onLaunch k f).pins = st.pins := rfl
@[simp] theorem State.onLaunch_versions (k : Nat) (f : Launch → Launch) : (st.onLaunch k f).versions = st.versions := rfl
@[simp] theorem State.onLaunch_adobes (k : Nat) (f : Launch → Launch) : (st.onLaunch k f).adobes = st.adobes := rfl
@[simp] theorem State.onLaunch_adobeLines (k : Nat) (f : Launch → Launch) : (st.onLaunch k f).adobeLines = st.adobeLines := rfl
@[simp] theorem State.onLaunch_adobeLost (k : Nat) (f : Launch → Launch) : (st.onLaunch k f).adobeLost = st.adobeLost := rfl
@[simp] theorem State.onLaunch_adobeWriters (k : Nat) (f : Launch → Launch) : (st.onLaunch k f).adobeWriters = st.adobeWriters := rfl
@[simp] theorem State.onLaunch_slices (k : Nat) (f : Launch → Launch) : (st.onLaunch k f).slices = st.slices := rfl
@[simp] theorem State.onLaunch_groups (k : Nat) (f : Launch → Launch) : (st.onLaunch k f).groups = st.groups := rfl
@[simp] theorem State.onLaunch_teams (k : Nat) (f : Launch → Launch) : (st.onLaunch k f).teams = st.teams := rfl
@[simp] theorem State.onLaunch_gangs (k : Nat) (f : Launch → Launch) : (st.onLaunch k f).gangs = st.gangs := rfl
@[simp] theorem State.onLaunch_cores (k : Nat) (f : Launch → Launch) : (st.onLaunch k f).cores = st.cores := rfl
@[simp] theorem State.onLaunch_plots (k : Nat) (f : Launch → Launch) : (st.onLaunch k f).plots = st.plots := rfl
@[simp] theorem State.onLaunch_dies (k : Nat) (f : Launch → Launch) : (st.onLaunch k f).dies = st.dies := rfl
@[simp] theorem State.onLaunch_host (k : Nat) (f : Launch → Launch) : (st.onLaunch k f).host = st.host := rfl
@[simp] theorem State.onLaunch_irend (k : Nat) (f : Launch → Launch) : (st.onLaunch k f).irend = st.irend := rfl
@[simp] theorem State.onLaunch_ectr (k : Nat) (f : Launch → Launch) : (st.onLaunch k f).ectr = st.ectr := rfl
@[simp] theorem State.onLaunch_powerMw (k : Nat) (f : Launch → Launch) : (st.onLaunch k f).powerMw = st.powerMw := rfl
@[simp] theorem State.onLaunch_thermalAt (k : Nat) (f : Launch → Launch) : (st.onLaunch k f).thermalAt = st.thermalAt := rfl
@[simp] theorem State.onLaunch_thermalDue (k : Nat) (f : Launch → Launch) : (st.onLaunch k f).thermalDue = st.thermalDue := rfl
@[simp] theorem State.onLaunch_filters (k : Nat) (f : Launch → Launch) : (st.onLaunch k f).filters = st.filters := rfl
@[simp] theorem State.onLaunch_netCounters (k : Nat) (f : Launch → Launch) : (st.onLaunch k f).netCounters = st.netCounters := rfl
@[simp] theorem State.onLaunch_sentAt (k : Nat) (f : Launch → Launch) : (st.onLaunch k f).sentAt = st.sentAt := rfl
@[simp] theorem State.onLaunch_tests (k : Nat) (f : Launch → Launch) : (st.onLaunch k f).tests = st.tests := rfl
@[simp] theorem State.onLaunch_hbmCount (k : Nat) (f : Launch → Launch) : (st.onLaunch k f).hbmCount = st.hbmCount := rfl
@[simp] theorem State.onLaunch_hbmLast (k : Nat) (f : Launch → Launch) : (st.onLaunch k f).hbmLast = st.hbmLast := rfl
@[simp] theorem State.onLaunch_bwclass (k : Nat) (f : Launch → Launch) : (st.onLaunch k f).bwclass = st.bwclass := rfl
@[simp] theorem State.onLaunch_sampledAt (k : Nat) (f : Launch → Launch) : (st.onLaunch k f).sampledAt = st.sampledAt := rfl
@[simp] theorem State.onLaunch_l2bad (k : Nat) (f : Launch → Launch) : (st.onLaunch k f).l2bad = st.l2bad := rfl
@[simp] theorem State.onLaunch_l2ways (k : Nat) (f : Launch → Launch) : (st.onLaunch k f).l2ways = st.l2ways := rfl
@[simp] theorem State.onLaunch_crowded (k : Nat) (f : Launch → Launch) : (st.onLaunch k f).crowded = st.crowded := rfl
@[simp] theorem State.onLaunch_hbmQueue (k : Nat) (f : Launch → Launch) : (st.onLaunch k f).hbmQueue = st.hbmQueue := rfl
@[simp] theorem State.onLaunch_l1Tags (k : Nat) (f : Launch → Launch) : (st.onLaunch k f).l1Tags = st.l1Tags := rfl
@[simp] theorem State.onLaunch_unreserved (k : Nat) (f : Launch → Launch) : (st.onLaunch k f).unreserved = st.unreserved := rfl
@[simp] theorem State.onLaunch_preempts (k : Nat) (f : Launch → Launch) : (st.onLaunch k f).preempts = st.preempts := rfl

/-! ### onDie -/

@[simp] theorem State.onDie_sched (k : Nat) (f : Die → Die) : (st.onDie k f).sched = st.sched := rfl
@[simp] theorem State.onDie_actor (k : Nat) (f : Die → Die) : (st.onDie k f).actor = st.actor := rfl
@[simp] theorem State.onDie_free (k : Nat) (f : Die → Die) : (st.onDie k f).free = st.free := rfl
@[simp] theorem State.onDie_nextId (k : Nat) (f : Die → Die) : (st.onDie k f).nextId = st.nextId := rfl
@[simp] theorem State.onDie_issueNo (k : Nat) (f : Die → Die) : (st.onDie k f).issueNo = st.issueNo := rfl
@[simp] theorem State.onDie_time (k : Nat) (f : Die → Die) : (st.onDie k f).time = st.time := rfl
@[simp] theorem State.onDie_clock (k : Nat) (f : Die → Die) : (st.onDie k f).clock = st.clock := rfl
@[simp] theorem State.onDie_warm (k : Nat) (f : Die → Die) : (st.onDie k f).warm = st.warm := rfl
@[simp] theorem State.onDie_mem (k : Nat) (f : Die → Die) : (st.onDie k f).mem = st.mem := rfl
@[simp] theorem State.onDie_l2 (k : Nat) (f : Die → Die) : (st.onDie k f).l2 = st.l2 := rfl
@[simp] theorem State.onDie_poison (k : Nat) (f : Die → Die) : (st.onDie k f).poison = st.poison := rfl
@[simp] theorem State.onDie_pins (k : Nat) (f : Die → Die) : (st.onDie k f).pins = st.pins := rfl
@[simp] theorem State.onDie_versions (k : Nat) (f : Die → Die) : (st.onDie k f).versions = st.versions := rfl
@[simp] theorem State.onDie_adobes (k : Nat) (f : Die → Die) : (st.onDie k f).adobes = st.adobes := rfl
@[simp] theorem State.onDie_adobeLines (k : Nat) (f : Die → Die) : (st.onDie k f).adobeLines = st.adobeLines := rfl
@[simp] theorem State.onDie_adobeLost (k : Nat) (f : Die → Die) : (st.onDie k f).adobeLost = st.adobeLost := rfl
@[simp] theorem State.onDie_adobeWriters (k : Nat) (f : Die → Die) : (st.onDie k f).adobeWriters = st.adobeWriters := rfl
@[simp] theorem State.onDie_slices (k : Nat) (f : Die → Die) : (st.onDie k f).slices = st.slices := rfl
@[simp] theorem State.onDie_groups (k : Nat) (f : Die → Die) : (st.onDie k f).groups = st.groups := rfl
@[simp] theorem State.onDie_teams (k : Nat) (f : Die → Die) : (st.onDie k f).teams = st.teams := rfl
@[simp] theorem State.onDie_gangs (k : Nat) (f : Die → Die) : (st.onDie k f).gangs = st.gangs := rfl
@[simp] theorem State.onDie_launches (k : Nat) (f : Die → Die) : (st.onDie k f).launches = st.launches := rfl
@[simp] theorem State.onDie_cores (k : Nat) (f : Die → Die) : (st.onDie k f).cores = st.cores := rfl
@[simp] theorem State.onDie_plots (k : Nat) (f : Die → Die) : (st.onDie k f).plots = st.plots := rfl
@[simp] theorem State.onDie_host (k : Nat) (f : Die → Die) : (st.onDie k f).host = st.host := rfl
@[simp] theorem State.onDie_irend (k : Nat) (f : Die → Die) : (st.onDie k f).irend = st.irend := rfl
@[simp] theorem State.onDie_ectr (k : Nat) (f : Die → Die) : (st.onDie k f).ectr = st.ectr := rfl
@[simp] theorem State.onDie_powerMw (k : Nat) (f : Die → Die) : (st.onDie k f).powerMw = st.powerMw := rfl
@[simp] theorem State.onDie_thermalAt (k : Nat) (f : Die → Die) : (st.onDie k f).thermalAt = st.thermalAt := rfl
@[simp] theorem State.onDie_thermalDue (k : Nat) (f : Die → Die) : (st.onDie k f).thermalDue = st.thermalDue := rfl
@[simp] theorem State.onDie_filters (k : Nat) (f : Die → Die) : (st.onDie k f).filters = st.filters := rfl
@[simp] theorem State.onDie_netCounters (k : Nat) (f : Die → Die) : (st.onDie k f).netCounters = st.netCounters := rfl
@[simp] theorem State.onDie_sentAt (k : Nat) (f : Die → Die) : (st.onDie k f).sentAt = st.sentAt := rfl
@[simp] theorem State.onDie_tests (k : Nat) (f : Die → Die) : (st.onDie k f).tests = st.tests := rfl
@[simp] theorem State.onDie_hbmCount (k : Nat) (f : Die → Die) : (st.onDie k f).hbmCount = st.hbmCount := rfl
@[simp] theorem State.onDie_hbmLast (k : Nat) (f : Die → Die) : (st.onDie k f).hbmLast = st.hbmLast := rfl
@[simp] theorem State.onDie_bwclass (k : Nat) (f : Die → Die) : (st.onDie k f).bwclass = st.bwclass := rfl
@[simp] theorem State.onDie_sampledAt (k : Nat) (f : Die → Die) : (st.onDie k f).sampledAt = st.sampledAt := rfl
@[simp] theorem State.onDie_l2bad (k : Nat) (f : Die → Die) : (st.onDie k f).l2bad = st.l2bad := rfl
@[simp] theorem State.onDie_l2ways (k : Nat) (f : Die → Die) : (st.onDie k f).l2ways = st.l2ways := rfl
@[simp] theorem State.onDie_crowded (k : Nat) (f : Die → Die) : (st.onDie k f).crowded = st.crowded := rfl
@[simp] theorem State.onDie_hbmQueue (k : Nat) (f : Die → Die) : (st.onDie k f).hbmQueue = st.hbmQueue := rfl
@[simp] theorem State.onDie_l1Tags (k : Nat) (f : Die → Die) : (st.onDie k f).l1Tags = st.l1Tags := rfl
@[simp] theorem State.onDie_unreserved (k : Nat) (f : Die → Die) : (st.onDie k f).unreserved = st.unreserved := rfl
@[simp] theorem State.onDie_preempts (k : Nat) (f : Die → Die) : (st.onDie k f).preempts = st.preempts := rfl

/-! ### onPlot -/

@[simp] theorem State.onPlot_sched (k : Nat) (f : Plot → Plot) : (st.onPlot k f).sched = st.sched := rfl
@[simp] theorem State.onPlot_actor (k : Nat) (f : Plot → Plot) : (st.onPlot k f).actor = st.actor := rfl
@[simp] theorem State.onPlot_free (k : Nat) (f : Plot → Plot) : (st.onPlot k f).free = st.free := rfl
@[simp] theorem State.onPlot_nextId (k : Nat) (f : Plot → Plot) : (st.onPlot k f).nextId = st.nextId := rfl
@[simp] theorem State.onPlot_issueNo (k : Nat) (f : Plot → Plot) : (st.onPlot k f).issueNo = st.issueNo := rfl
@[simp] theorem State.onPlot_time (k : Nat) (f : Plot → Plot) : (st.onPlot k f).time = st.time := rfl
@[simp] theorem State.onPlot_clock (k : Nat) (f : Plot → Plot) : (st.onPlot k f).clock = st.clock := rfl
@[simp] theorem State.onPlot_warm (k : Nat) (f : Plot → Plot) : (st.onPlot k f).warm = st.warm := rfl
@[simp] theorem State.onPlot_mem (k : Nat) (f : Plot → Plot) : (st.onPlot k f).mem = st.mem := rfl
@[simp] theorem State.onPlot_l2 (k : Nat) (f : Plot → Plot) : (st.onPlot k f).l2 = st.l2 := rfl
@[simp] theorem State.onPlot_poison (k : Nat) (f : Plot → Plot) : (st.onPlot k f).poison = st.poison := rfl
@[simp] theorem State.onPlot_pins (k : Nat) (f : Plot → Plot) : (st.onPlot k f).pins = st.pins := rfl
@[simp] theorem State.onPlot_versions (k : Nat) (f : Plot → Plot) : (st.onPlot k f).versions = st.versions := rfl
@[simp] theorem State.onPlot_adobes (k : Nat) (f : Plot → Plot) : (st.onPlot k f).adobes = st.adobes := rfl
@[simp] theorem State.onPlot_adobeLines (k : Nat) (f : Plot → Plot) : (st.onPlot k f).adobeLines = st.adobeLines := rfl
@[simp] theorem State.onPlot_adobeLost (k : Nat) (f : Plot → Plot) : (st.onPlot k f).adobeLost = st.adobeLost := rfl
@[simp] theorem State.onPlot_adobeWriters (k : Nat) (f : Plot → Plot) : (st.onPlot k f).adobeWriters = st.adobeWriters := rfl
@[simp] theorem State.onPlot_slices (k : Nat) (f : Plot → Plot) : (st.onPlot k f).slices = st.slices := rfl
@[simp] theorem State.onPlot_groups (k : Nat) (f : Plot → Plot) : (st.onPlot k f).groups = st.groups := rfl
@[simp] theorem State.onPlot_teams (k : Nat) (f : Plot → Plot) : (st.onPlot k f).teams = st.teams := rfl
@[simp] theorem State.onPlot_gangs (k : Nat) (f : Plot → Plot) : (st.onPlot k f).gangs = st.gangs := rfl
@[simp] theorem State.onPlot_launches (k : Nat) (f : Plot → Plot) : (st.onPlot k f).launches = st.launches := rfl
@[simp] theorem State.onPlot_cores (k : Nat) (f : Plot → Plot) : (st.onPlot k f).cores = st.cores := rfl
@[simp] theorem State.onPlot_dies (k : Nat) (f : Plot → Plot) : (st.onPlot k f).dies = st.dies := rfl
@[simp] theorem State.onPlot_host (k : Nat) (f : Plot → Plot) : (st.onPlot k f).host = st.host := rfl
@[simp] theorem State.onPlot_irend (k : Nat) (f : Plot → Plot) : (st.onPlot k f).irend = st.irend := rfl
@[simp] theorem State.onPlot_ectr (k : Nat) (f : Plot → Plot) : (st.onPlot k f).ectr = st.ectr := rfl
@[simp] theorem State.onPlot_powerMw (k : Nat) (f : Plot → Plot) : (st.onPlot k f).powerMw = st.powerMw := rfl
@[simp] theorem State.onPlot_thermalAt (k : Nat) (f : Plot → Plot) : (st.onPlot k f).thermalAt = st.thermalAt := rfl
@[simp] theorem State.onPlot_thermalDue (k : Nat) (f : Plot → Plot) : (st.onPlot k f).thermalDue = st.thermalDue := rfl
@[simp] theorem State.onPlot_filters (k : Nat) (f : Plot → Plot) : (st.onPlot k f).filters = st.filters := rfl
@[simp] theorem State.onPlot_netCounters (k : Nat) (f : Plot → Plot) : (st.onPlot k f).netCounters = st.netCounters := rfl
@[simp] theorem State.onPlot_sentAt (k : Nat) (f : Plot → Plot) : (st.onPlot k f).sentAt = st.sentAt := rfl
@[simp] theorem State.onPlot_tests (k : Nat) (f : Plot → Plot) : (st.onPlot k f).tests = st.tests := rfl
@[simp] theorem State.onPlot_hbmCount (k : Nat) (f : Plot → Plot) : (st.onPlot k f).hbmCount = st.hbmCount := rfl
@[simp] theorem State.onPlot_hbmLast (k : Nat) (f : Plot → Plot) : (st.onPlot k f).hbmLast = st.hbmLast := rfl
@[simp] theorem State.onPlot_bwclass (k : Nat) (f : Plot → Plot) : (st.onPlot k f).bwclass = st.bwclass := rfl
@[simp] theorem State.onPlot_sampledAt (k : Nat) (f : Plot → Plot) : (st.onPlot k f).sampledAt = st.sampledAt := rfl
@[simp] theorem State.onPlot_l2bad (k : Nat) (f : Plot → Plot) : (st.onPlot k f).l2bad = st.l2bad := rfl
@[simp] theorem State.onPlot_l2ways (k : Nat) (f : Plot → Plot) : (st.onPlot k f).l2ways = st.l2ways := rfl
@[simp] theorem State.onPlot_crowded (k : Nat) (f : Plot → Plot) : (st.onPlot k f).crowded = st.crowded := rfl
@[simp] theorem State.onPlot_hbmQueue (k : Nat) (f : Plot → Plot) : (st.onPlot k f).hbmQueue = st.hbmQueue := rfl
@[simp] theorem State.onPlot_l1Tags (k : Nat) (f : Plot → Plot) : (st.onPlot k f).l1Tags = st.l1Tags := rfl
@[simp] theorem State.onPlot_unreserved (k : Nat) (f : Plot → Plot) : (st.onPlot k f).unreserved = st.unreserved := rfl
@[simp] theorem State.onPlot_preempts (k : Nat) (f : Plot → Plot) : (st.onPlot k f).preempts = st.preempts := rfl

/-! ### onRing -/

@[simp] theorem State.onRing_sched (k : Nat) (f : Ring → Ring) : (st.onRing k f).sched = st.sched := rfl
@[simp] theorem State.onRing_actor (k : Nat) (f : Ring → Ring) : (st.onRing k f).actor = st.actor := rfl
@[simp] theorem State.onRing_free (k : Nat) (f : Ring → Ring) : (st.onRing k f).free = st.free := rfl
@[simp] theorem State.onRing_nextId (k : Nat) (f : Ring → Ring) : (st.onRing k f).nextId = st.nextId := rfl
@[simp] theorem State.onRing_issueNo (k : Nat) (f : Ring → Ring) : (st.onRing k f).issueNo = st.issueNo := rfl
@[simp] theorem State.onRing_time (k : Nat) (f : Ring → Ring) : (st.onRing k f).time = st.time := rfl
@[simp] theorem State.onRing_clock (k : Nat) (f : Ring → Ring) : (st.onRing k f).clock = st.clock := rfl
@[simp] theorem State.onRing_warm (k : Nat) (f : Ring → Ring) : (st.onRing k f).warm = st.warm := rfl
@[simp] theorem State.onRing_mem (k : Nat) (f : Ring → Ring) : (st.onRing k f).mem = st.mem := rfl
@[simp] theorem State.onRing_l2 (k : Nat) (f : Ring → Ring) : (st.onRing k f).l2 = st.l2 := rfl
@[simp] theorem State.onRing_poison (k : Nat) (f : Ring → Ring) : (st.onRing k f).poison = st.poison := rfl
@[simp] theorem State.onRing_pins (k : Nat) (f : Ring → Ring) : (st.onRing k f).pins = st.pins := rfl
@[simp] theorem State.onRing_versions (k : Nat) (f : Ring → Ring) : (st.onRing k f).versions = st.versions := rfl
@[simp] theorem State.onRing_adobes (k : Nat) (f : Ring → Ring) : (st.onRing k f).adobes = st.adobes := rfl
@[simp] theorem State.onRing_adobeLines (k : Nat) (f : Ring → Ring) : (st.onRing k f).adobeLines = st.adobeLines := rfl
@[simp] theorem State.onRing_adobeLost (k : Nat) (f : Ring → Ring) : (st.onRing k f).adobeLost = st.adobeLost := rfl
@[simp] theorem State.onRing_adobeWriters (k : Nat) (f : Ring → Ring) : (st.onRing k f).adobeWriters = st.adobeWriters := rfl
@[simp] theorem State.onRing_slices (k : Nat) (f : Ring → Ring) : (st.onRing k f).slices = st.slices := rfl
@[simp] theorem State.onRing_groups (k : Nat) (f : Ring → Ring) : (st.onRing k f).groups = st.groups := rfl
@[simp] theorem State.onRing_teams (k : Nat) (f : Ring → Ring) : (st.onRing k f).teams = st.teams := rfl
@[simp] theorem State.onRing_gangs (k : Nat) (f : Ring → Ring) : (st.onRing k f).gangs = st.gangs := rfl
@[simp] theorem State.onRing_launches (k : Nat) (f : Ring → Ring) : (st.onRing k f).launches = st.launches := rfl
@[simp] theorem State.onRing_cores (k : Nat) (f : Ring → Ring) : (st.onRing k f).cores = st.cores := rfl
@[simp] theorem State.onRing_plots (k : Nat) (f : Ring → Ring) : (st.onRing k f).plots = st.plots := rfl
@[simp] theorem State.onRing_dies (k : Nat) (f : Ring → Ring) : (st.onRing k f).dies = st.dies := rfl
@[simp] theorem State.onRing_irend (k : Nat) (f : Ring → Ring) : (st.onRing k f).irend = st.irend := rfl
@[simp] theorem State.onRing_ectr (k : Nat) (f : Ring → Ring) : (st.onRing k f).ectr = st.ectr := rfl
@[simp] theorem State.onRing_powerMw (k : Nat) (f : Ring → Ring) : (st.onRing k f).powerMw = st.powerMw := rfl
@[simp] theorem State.onRing_thermalAt (k : Nat) (f : Ring → Ring) : (st.onRing k f).thermalAt = st.thermalAt := rfl
@[simp] theorem State.onRing_thermalDue (k : Nat) (f : Ring → Ring) : (st.onRing k f).thermalDue = st.thermalDue := rfl
@[simp] theorem State.onRing_filters (k : Nat) (f : Ring → Ring) : (st.onRing k f).filters = st.filters := rfl
@[simp] theorem State.onRing_netCounters (k : Nat) (f : Ring → Ring) : (st.onRing k f).netCounters = st.netCounters := rfl
@[simp] theorem State.onRing_sentAt (k : Nat) (f : Ring → Ring) : (st.onRing k f).sentAt = st.sentAt := rfl
@[simp] theorem State.onRing_tests (k : Nat) (f : Ring → Ring) : (st.onRing k f).tests = st.tests := rfl
@[simp] theorem State.onRing_hbmCount (k : Nat) (f : Ring → Ring) : (st.onRing k f).hbmCount = st.hbmCount := rfl
@[simp] theorem State.onRing_hbmLast (k : Nat) (f : Ring → Ring) : (st.onRing k f).hbmLast = st.hbmLast := rfl
@[simp] theorem State.onRing_bwclass (k : Nat) (f : Ring → Ring) : (st.onRing k f).bwclass = st.bwclass := rfl
@[simp] theorem State.onRing_sampledAt (k : Nat) (f : Ring → Ring) : (st.onRing k f).sampledAt = st.sampledAt := rfl
@[simp] theorem State.onRing_l2bad (k : Nat) (f : Ring → Ring) : (st.onRing k f).l2bad = st.l2bad := rfl
@[simp] theorem State.onRing_l2ways (k : Nat) (f : Ring → Ring) : (st.onRing k f).l2ways = st.l2ways := rfl
@[simp] theorem State.onRing_crowded (k : Nat) (f : Ring → Ring) : (st.onRing k f).crowded = st.crowded := rfl
@[simp] theorem State.onRing_hbmQueue (k : Nat) (f : Ring → Ring) : (st.onRing k f).hbmQueue = st.hbmQueue := rfl
@[simp] theorem State.onRing_l1Tags (k : Nat) (f : Ring → Ring) : (st.onRing k f).l1Tags = st.l1Tags := rfl
@[simp] theorem State.onRing_unreserved (k : Nat) (f : Ring → Ring) : (st.onRing k f).unreserved = st.unreserved := rfl
@[simp] theorem State.onRing_preempts (k : Nat) (f : Ring → Ring) : (st.onRing k f).preempts = st.preempts := rfl

/-! ### Slots of a group -/

@[simp] theorem Group.setSlot_team (g : Group) (src : Source) (s : Slot) : (g.setSlot src s).team = g.team := by cases src <;> rfl
@[simp] theorem Group.setSlot_core (g : Group) (src : Source) (s : Slot) : (g.setSlot src s).core = g.core := by cases src <;> rfl
@[simp] theorem Group.setSlot_number (g : Group) (src : Source) (s : Slot) : (g.setSlot src s).number = g.number := by cases src <;> rfl
@[simp] theorem Group.setSlot_index (g : Group) (src : Source) (s : Slot) : (g.setSlot src s).index = g.index := by cases src <;> rfl
@[simp] theorem Group.setSlot_role (g : Group) (src : Source) (s : Slot) : (g.setSlot src s).role = g.role := by cases src <;> rfl
@[simp] theorem Group.setSlot_life (g : Group) (src : Source) (s : Slot) : (g.setSlot src s).life = g.life := by cases src <;> rfl
@[simp] theorem Group.setSlot_stage (g : Group) (src : Source) (s : Slot) : (g.setSlot src s).stage = g.stage := by cases src <;> rfl
@[simp] theorem Group.setSlot_prefer (g : Group) (src : Source) (s : Slot) : (g.setSlot src s).prefer = g.prefer := by cases src <;> rfl
@[simp] theorem Group.setSlot_issued (g : Group) (src : Source) (s : Slot) : (g.setSlot src s).issued = g.issued := by cases src <;> rfl
@[simp] theorem Group.setSlot_preds (g : Group) (src : Source) (s : Slot) : (g.setSlot src s).preds = g.preds := by cases src <;> rfl
@[simp] theorem Group.setSlot_joins (g : Group) (src : Source) (s : Slot) : (g.setSlot src s).joins = g.joins := by cases src <;> rfl
@[simp] theorem Group.setSlot_div (g : Group) (src : Source) (s : Slot) : (g.setSlot src s).div = g.div := by cases src <;> rfl
@[simp] theorem Group.setSlot_frames (g : Group) (src : Source) (s : Slot) : (g.setSlot src s).frames = g.frames := by cases src <;> rfl
@[simp] theorem Group.setSlot_handlerGrans (g : Group) (src : Source) (s : Slot) : (g.setSlot src s).handlerGrans = g.handlerGrans := by cases src <;> rfl
@[simp] theorem Group.setSlot_accessLife (g : Group) (src : Source) (s : Slot) : (g.setSlot src s).accessLife = g.accessLife := by cases src <;> rfl
@[simp] theorem Group.setSlot_y (g : Group) (src : Source) (s : Slot) : (g.setSlot src s).y = g.y := by cases src <;> rfl
@[simp] theorem Group.setSlot_queues (g : Group) (src : Source) (s : Slot) : (g.setSlot src s).queues = g.queues := by cases src <;> rfl
@[simp] theorem Group.setSlot_shapes (g : Group) (src : Source) (s : Slot) : (g.setSlot src s).shapes = g.shapes := by cases src <;> rfl
@[simp] theorem Group.setSlot_shapeAfter (g : Group) (src : Source) (s : Slot) : (g.setSlot src s).shapeAfter = g.shapeAfter := by cases src <;> rfl
@[simp] theorem Group.setSlot_flight (g : Group) (src : Source) (s : Slot) : (g.setSlot src s).flight = g.flight := by cases src <;> rfl
@[simp] theorem Group.setSlot_defers (g : Group) (src : Source) (s : Slot) : (g.setSlot src s).defers = g.defers := by cases src <;> rfl
@[simp] theorem Group.setSlot_keys (g : Group) (src : Source) (s : Slot) : (g.setSlot src s).keys = g.keys := by cases src <;> rfl
@[simp] theorem Group.setSlot_ctrs (g : Group) (src : Source) (s : Slot) : (g.setSlot src s).ctrs = g.ctrs := by cases src <;> rfl
@[simp] theorem Group.setSlot_trap (g : Group) (src : Source) (s : Slot) : (g.setSlot src s).trap = g.trap := by cases src <;> rfl
@[simp] theorem Group.setSlot_hwin (g : Group) (src : Source) (s : Slot) : (g.setSlot src s).hwin = g.hwin := by cases src <;> rfl
@[simp] theorem Group.setSlot_stop (g : Group) (src : Source) (s : Slot) : (g.setSlot src s).stop = g.stop := by cases src <;> rfl
@[simp] theorem Group.setSlot_frameReq (g : Group) (src : Source) (s : Slot) : (g.setSlot src s).frameReq = g.frameReq := by cases src <;> rfl
@[simp] theorem Group.setSlot_arrivals (g : Group) (src : Source) (s : Slot) : (g.setSlot src s).arrivals = g.arrivals := by cases src <;> rfl
@[simp] theorem Group.setSlot_token (g : Group) (src : Source) (s : Slot) : (g.setSlot src s).token = g.token := by cases src <;> rfl
@[simp] theorem Group.setSlot_tag (g : Group) (src : Source) (s : Slot) : (g.setSlot src s).tag = g.tag := by cases src <;> rfl
@[simp] theorem Group.setSlot_sysret (g : Group) (src : Source) (s : Slot) : (g.setSlot src s).sysret = g.sysret := by cases src <;> rfl
@[simp] theorem Group.setSlot_resumed (g : Group) (src : Source) (s : Slot) : (g.setSlot src s).resumed = g.resumed := by cases src <;> rfl
@[simp] theorem Group.setSlot_imbalance (g : Group) (src : Source) (s : Slot) : (g.setSlot src s).imbalance = g.imbalance := by cases src <;> rfl
@[simp] theorem Group.setSlot_preempt (g : Group) (src : Source) (s : Slot) : (g.setSlot src s).preempt = g.preempt := by cases src <;> rfl
@[simp] theorem Group.setSlot_burn (g : Group) (src : Source) (s : Slot) : (g.setSlot src s).burn = g.burn := by cases src <;> rfl
@[simp] theorem Group.setSlot_shunt (g : Group) (src : Source) (s : Slot) : (g.setSlot src s).shunt = g.shunt := by cases src <;> rfl
@[simp] theorem Group.setSlot_tile0 (g : Group) (src : Source) (s : Slot) : (g.setSlot src s).tile0 = g.tile0 := by cases src <;> rfl
@[simp] theorem Group.setSlot_tiles (g : Group) (src : Source) (s : Slot) : (g.setSlot src s).tiles = g.tiles := by cases src <;> rfl
@[simp] theorem Group.setSlot_acc0 (g : Group) (src : Source) (s : Slot) : (g.setSlot src s).acc0 = g.acc0 := by cases src <;> rfl
@[simp] theorem Group.setSlot_accs (g : Group) (src : Source) (s : Slot) : (g.setSlot src s).accs = g.accs := by cases src <;> rfl
@[simp] theorem Group.setSlot_zshared (g : Group) (src : Source) (s : Slot) : (g.setSlot src s).zshared = g.zshared := by cases src <;> rfl
@[simp] theorem Group.setSlot_pbase (g : Group) (src : Source) (s : Slot) : (g.setSlot src s).pbase = g.pbase := by cases src <;> rfl
@[simp] theorem Group.setSlot_psize (g : Group) (src : Source) (s : Slot) : (g.setSlot src s).psize = g.psize := by cases src <;> rfl
@[simp] theorem Group.setSlot_lrec (g : Group) (src : Source) (s : Slot) : (g.setSlot src s).lrec = g.lrec := by cases src <;> rfl
@[simp] theorem Group.setSlot_qdir (g : Group) (src : Source) (s : Slot) : (g.setSlot src s).qdir = g.qdir := by cases src <;> rfl
@[simp] theorem Group.setSlot_task (g : Group) (src : Source) (s : Slot) : (g.setSlot src s).task = g.task := by cases src <;> rfl
@[simp] theorem Group.setSlot_prot (g : Group) (src : Source) (s : Slot) : (g.setSlot src s).prot = g.prot := by cases src <;> rfl
@[simp] theorem Group.setSlot_versioned (g : Group) (src : Source) (s : Slot) : (g.setSlot src s).versioned = g.versioned := by cases src <;> rfl
@[simp] theorem Group.setSlot_syscalls (g : Group) (src : Source) (s : Slot) : (g.setSlot src s).syscalls = g.syscalls := by cases src <;> rfl
@[simp] theorem Group.setSlot_shown (g : Group) (src : Source) (s : Slot) : (g.setSlot src s).shown = g.shown := by cases src <;> rfl

/-! ### Reading back -/

@[simp] theorem State.core_setCore (c : Nat) (x : Core) : (st.setCore c x).core c = x := by simp [State.core, State.setCore]

theorem State.core_setCore_ne {c k : Nat} (x : Core) (h : k ≠ c) : (st.setCore c x).core k = st.core k := by
  simp [State.core, State.setCore, NMap.get_put_ne _ _ _ h]

@[simp] theorem State.core_onCore (c : Nat) (f : Core → Core) : (st.onCore c f).core c = f (st.core c) := by simp [State.onCore]

theorem State.core_onCore_ne {c k : Nat} (f : Core → Core) (h : k ≠ c) : (st.onCore c f).core k = st.core k := by
  simp [State.onCore, State.core_setCore_ne _ _ h]

@[simp] theorem State.group?_setGroup (k : Nat) (g : Group) : (st.setGroup k g).group? k = some g := by
  simp [State.group?, State.setGroup]

theorem State.group?_setGroup_ne {k j : Nat} (g : Group) (h : j ≠ k) : (st.setGroup k g).group? j = st.group? j := by
  simp [State.group?, State.setGroup, NMap.find_put_ne _ _ h]

@[simp] theorem State.group?_onGroup (k : Nat) (f : Group → Group) : (st.onGroup k f).group? k = (st.group? k).map f := by
  simp [State.group?, State.onGroup, NMap.find_changeIf_self]

theorem State.group?_onGroup_ne {k j : Nat} (f : Group → Group) (h : j ≠ k) : (st.onGroup k f).group? j = st.group? j := by
  simp [State.group?, State.onGroup, NMap.find_changeIf_ne _ _ h]

@[simp] theorem State.group?_onCore (k c : Nat) (f : Core → Core) : (st.onCore c f).group? k = st.group? k := rfl
@[simp] theorem State.group?_setCore (k c : Nat) (x : Core) : (st.setCore c x).group? k = st.group? k := rfl
@[simp] theorem State.core_onGroup (k c : Nat) (f : Group → Group) : (st.onGroup k f).core c = st.core c := rfl
@[simp] theorem State.core_setGroup (k c : Nat) (g : Group) : (st.setGroup k g).core c = st.core c := rfl
@[simp] theorem State.team_onGroup (k t : Nat) (f : Group → Group) : (st.onGroup k f).team t = st.team t := rfl
@[simp] theorem State.team_setGroup (k t : Nat) (g : Group) : (st.setGroup k g).team t = st.team t := rfl
@[simp] theorem State.team_onCore (c t : Nat) (f : Core → Core) : (st.onCore c f).team t = st.team t := rfl
@[simp] theorem State.team_setCore (c t : Nat) (x : Core) : (st.setCore c x).team t = st.team t := rfl

theorem State.die_onDie (d : Nat) (f : Die → Die) : (st.onDie d f).die d = f (st.die d) := by simp [State.die, State.onDie]
theorem State.plot_onPlot (p : Nat) (f : Plot → Plot) : (st.onPlot p f).plot p = f (st.plot p) := by simp [State.plot, State.onPlot]

@[simp] theorem Group.slot_setSlot (g : Group) (src : Source) (s : Slot) (h : src ≠ .access) : (g.setSlot src s).slot src = s := by
  cases src <;> first | rfl | exact absurd rfl h

theorem Group.slot_setSlot_ne (g : Group) {src other : Source} (s : Slot) (h : other ≠ src) :
    (g.setSlot src s).slot other = g.slot other := by
  cases src <;> cases other <;> first | rfl | exact absurd rfl h

end Sys2Proof.Machine
end

