-- ==== Sys2Proof/Laws/Cells.lean ====
section
/-! SUPPORT. Sub-elements and cells: what a write of some sub-elements of a register leaves in each of its sub-elements. -/

namespace Sys2Proof.Machine

theorem subOf_testBit (w s : Nat) (x : Lane) (i : Nat) : (subOf w s x).testBit i = (decide (i < w) && x.getLsbD (w * s + i)) := by
  simp [subOf, Nat.testBit_mod_two_pow, Nat.testBit_div_two_pow, BitVec.getLsbD, Nat.add_comm]

theorem subAt_getLsbD (w s n i : Nat) :
    (subAt w s n).getLsbD i = (decide (i < 64) && (decide (w * s ≤ i) && (decide (i < w * s + w) && n.testBit (i - w * s)))) := by
  simp only [subAt, BitVec.getLsbD_ofNat, Nat.testBit_mul_two_pow, Nat.testBit_mod_two_pow]
  by_cases h : w * s ≤ i
  · have : (i - w * s < w) = (i < w * s + w) := propext (by omega)
    simp [h, this]
  · simp [h]

theorem subBits_getLsbD (w s i : Nat) :
    (subBits w s).getLsbD i = (decide (i < 64) && (decide (w * s ≤ i) && decide (i < w * s + w))) := by
  rw [subBits, subAt_getLsbD]
  by_cases h : w * s ≤ i ∧ i < w * s + w
  · have : i - w * s < w := by omega
    simp [h.1, h.2, Nat.testBit_two_pow_sub_one, this]
  · by_cases h1 : w * s ≤ i
    · have : ¬ i < w * s + w := fun h2 => h ⟨h1, h2⟩
      simp [this]
    · simp [h1]

theorem getLsbD_foldl_or (ss : List Nat) (f : Nat → Lane) (m : Lane) (i : Nat) :
    (ss.foldl (fun m s => m ||| f s) m).getLsbD i = (m.getLsbD i || ss.any fun s => (f s).getLsbD i) := by
  induction ss generalizing m with
  | nil => simp
  | cons a ss ih => simp [ih, Bool.or_assoc]

/-- Sub-elements of one width do not overlap. -/
theorem sub_disjoint {w s j i : Nat} (hi : i < w) (h1 : w * s ≤ w * j + i) (h2 : w * j + i < w * s + w) : s = j := by
  rcases Nat.lt_trichotomy s j with h | h | h
  · have := Nat.mul_le_mul_left w (Nat.succ_le_of_lt h)
    rw [Nat.mul_succ] at this
    omega
  · exact h
  · have := Nat.mul_le_mul_left w (Nat.succ_le_of_lt h)
    rw [Nat.mul_succ] at this
    omega

/-- The value that a write of the sub-elements `ss` leaves. -/
def mergeSubs (w : Nat) (ss : List Nat) (f : Nat → Nat) (x : Lane) : Lane :=
  (x &&& ~~~(ss.foldl (fun m s => m ||| subBits w s) 0)) |||
    (ss.foldl (fun m s => m ||| subAt w s (f s)) 0 &&& ss.foldl (fun m s => m ||| subBits w s) 0)

theorem subOf_mergeSubs {w : Nat} (ss : List Nat) (f : Nat → Nat) (x : Lane) {j : Nat} (hj : w * j + w ≤ 64) :
    subOf w j (mergeSubs w ss f x) = if j ∈ ss then f j % 2 ^ w else subOf w j x := by
  apply Nat.eq_of_testBit_eq
  intro i
  rw [subOf_testBit]
  by_cases hi : i < w
  · have h64 : w * j + i < 64 := by omega
    have hb : ∀ s, (subBits w s).getLsbD (w * j + i) = decide (s = j) := by
      intro s
      rw [subBits_getLsbD]
      by_cases hs : s = j
      · subst hs; simp [h64]; omega
      · have : ¬ (w * s ≤ w * j + i ∧ w * j + i < w * s + w) := fun h => hs (sub_disjoint hi h.1 h.2)
        simp only [hs, decide_false, h64, decide_true, Bool.true_and]
        rw [← Bool.decide_and]
        simpa using this
    have ha : ∀ s, (subAt w s (f s)).getLsbD (w * j + i) = (decide (s = j) && (f j).testBit i) := by
      intro s
      rw [subAt_getLsbD]
      by_cases hs : s = j
      · subst hs; simp [h64, hi]
      · have : ¬ (w * s ≤ w * j + i ∧ w * j + i < w * s + w) := fun h => hs (sub_disjoint hi h.1 h.2)
        by_cases h1 : w * s ≤ w * j + i
        · have h2 : ¬ w * j + i < w * s + w := fun h => this ⟨h1, h⟩
          simp [hs, h2]
        · simp [hs, h1]
    have any1 : (ss.any fun s => decide (s = j)) = decide (j ∈ ss) := by
      rw [Bool.eq_iff_iff]; simp
    have any2 : (ss.any fun s => decide (s = j) && (f j).testBit i) = (decide (j ∈ ss) && (f j).testBit i) := by
      rw [Bool.eq_iff_iff]; simp
    simp only [mergeSubs, BitVec.getLsbD_or, BitVec.getLsbD_and, BitVec.getLsbD_not, getLsbD_foldl_or, hb, ha, any1, any2,
      hi, decide_true, Bool.true_and, h64]
    by_cases hm : j ∈ ss
    · simp [hm, Nat.testBit_mod_two_pow, hi]
    · simp [hm, subOf_testBit, hi]
  · simp only [hi, decide_false, Bool.false_and]
    split
    · simp [Nat.testBit_mod_two_pow, hi]
    · simp [subOf_testBit, hi]

/-! ### Cells -/

@[simp] theorem Core.cell_write_self (c : Core) (w : CellWrite) :
    (c.write w).cell w.cell = (c.cell w.cell &&& ~~~w.bits) ||| (w.value &&& w.bits) := by
  simp [Core.write, Core.cell]

theorem Core.cell_write_ne (c : Core) (w : CellWrite) {i : Nat} (h : i ≠ w.cell) : (c.write w).cell i = c.cell i := by
  simp [Core.write, Core.cell, NMap.get_store_ne _ _ _ h]

theorem Core.cellPoison_write_self (c : Core) (w : CellWrite) :
    (c.write w).cellPoison w.cell = (c.cellPoison w.cell &&& ~~~halvesOf w.bits) ||| (w.poison &&& halvesOf w.bits) := by
  simp [Core.write, Core.cellPoison]

theorem Core.cellPoison_write_ne (c : Core) (w : CellWrite) {i : Nat} (h : i ≠ w.cell) :
    (c.write w).cellPoison i = c.cellPoison i := by
  simp [Core.write, Core.cellPoison, NMap.get_store_ne _ _ _ h]

theorem Core.writeAll_ne (c : Core) (ws : List CellWrite) {i : Nat} (h : ∀ w ∈ ws, w.cell ≠ i) :
    (c.writeAll ws).cell i = c.cell i ∧ (c.writeAll ws).cellPoison i = c.cellPoison i := by
  induction ws generalizing c with
  | nil => exact ⟨rfl, rfl⟩
  | cons w ws ih =>
    have h1 := ih (c.write w) fun x hx => h x (List.mem_cons_of_mem _ hx)
    have h2 : i ≠ w.cell := fun hh => h w List.mem_cons_self hh.symm
    exact ⟨h1.1.trans (Core.cell_write_ne c w h2), h1.2.trans (Core.cellPoison_write_ne c w h2)⟩

theorem merge_again {n : Nat} (x b v : BitVec n) : ((((x &&& ~~~b) ||| (v &&& b)) &&& ~~~b) ||| (v &&& b)) = (x &&& ~~~b) ||| (v &&& b) := by
  ext i hi
  simp only [BitVec.getElem_or, BitVec.getElem_and, BitVec.getElem_not]
  cases x[i] <;> cases b[i] <;> cases v[i] <;> rfl

/-- The one write of a list to a cell decides it. -/
theorem Core.writeAll_one (c : Core) (ws : List CellWrite) (w : CellWrite) (hm : w ∈ ws) (hn : ∀ x ∈ ws, x.cell = w.cell → x = w) :
    (c.writeAll ws).cell w.cell = (c.cell w.cell &&& ~~~w.bits) ||| (w.value &&& w.bits) ∧
    (c.writeAll ws).cellPoison w.cell = (c.cellPoison w.cell &&& ~~~halvesOf w.bits) ||| (w.poison &&& halvesOf w.bits) := by
  induction ws generalizing c with
  | nil => cases hm
  | cons x ws ih =>
    have hn' : ∀ y ∈ ws, y.cell = w.cell → y = w := fun y hy => hn y (List.mem_cons_of_mem _ hy)
    by_cases hx : x = w
    · subst hx
      by_cases hw : x ∈ ws
      · have := ih (c.write x) hw hn'
        rw [Core.cell_write_self, Core.cellPoison_write_self, merge_again, merge_again] at this
        exact this
      · have hne : ∀ y ∈ ws, y.cell ≠ x.cell := fun y hy h => hw (hn' y hy h ▸ hy)
        have := Core.writeAll_ne (c.write x) ws hne
        exact ⟨this.1.trans (Core.cell_write_self c x), this.2.trans (Core.cellPoison_write_self c x)⟩
    · have hmw : w ∈ ws := (List.mem_cons.1 hm).resolve_left fun h => hx h.symm
      have hcell : w.cell ≠ x.cell := fun h => hx (hn x List.mem_cons_self h.symm)
      have := ih (c.write x) hmw hn'
      rw [Core.cell_write_ne c x hcell, Core.cellPoison_write_ne c x hcell] at this
      exact this

theorem Core.writeAll_same (c : Core) (ws : List CellWrite) :
    { c.writeAll ws with rf := c.rf, rfPoison := c.rfPoison } = c := by
  induction ws generalizing c with
  | nil => rfl
  | cons w ws ih =>
    have := ih (c.write w)
    exact congrArg (fun x : Core => { x with rf := c.rf, rfPoison := c.rfPoison }) this

@[simp] theorem Core.counted_rest (c : Core) (src : Source) (pipe : Nat) : (c.counted src pipe).rest = c.rest := by cases src <;> rfl
@[simp] theorem Core.counted_cell (c : Core) (src : Source) (pipe i : Nat) : (c.counted src pipe).cell i = c.cell i := by cases src <;> rfl
@[simp] theorem Core.counted_cellPoison (c : Core) (src : Source) (pipe i : Nat) : (c.counted src pipe).cellPoison i = c.cellPoison i := by
  cases src <;> rfl

theorem Core.writeAll_rest (c : Core) (ws : List CellWrite) : (c.writeAll ws).rest = c.rest := by
  have := congrArg Core.rest (Core.writeAll_same c ws)
  exact this

end Sys2Proof.Machine
end

