-- ==== Sys2Proof/Laws/Issue.lean ====
section
/-! SUPPORT. What the issue of a word does, said once: the state that the rest of a meaning is given, and what retiring leaves. -/

namespace Sys2Proof.Machine

/-- The environment after a new attempt has begun: only the note of what the slot waited for is gone. -/
def Env.fresh (e : Env) : Env :=
  { e with
    g := e.g.setSlot e.src { e.g.slot e.src with onMemory := false, atBarrier := false }
    slot := { e.slot with onMemory := false, atBarrier := false } }

theorem State.envAt_some {st : State} {gid : Nat} {src : Source} {e : Env} (h : st.envAt gid src = some e) :
    st.group? gid = some e.g ∧ e.g.mayIssue src = true ∧ e.gid = gid ∧ e.src = src ∧ e.slot = e.g.slot src ∧
    e.core = st.core e.g.core ∧ e.who = { st.whoOf e.g (src == .handler) with unlisted := src == .access } ∧
    e.hints = Hints.ofList e.slot.hints := by
  unfold State.envAt at h
  split at h
  · cases h
  · next g hg =>
    split at h
    · next hm => cases h; exact ⟨hg, hm, rfl, rfl, rfl, rfl, rfl, rfl⟩
    · cases h

theorem State.env?_some {st : State} {e : Env} (h : st.env? = some e) :
    st.group? e.gid = some e.g ∧ e.g.mayIssue e.src = true ∧ e.gid = st.actor.gid ∧ e.src = st.actor.src ∧
    e.slot = e.g.slot e.src ∧ e.core = st.core e.g.core ∧ e.who = { st.whoOf e.g (e.src == .handler) with unlisted := e.src == .access } ∧
    e.hints = Hints.ofList e.slot.hints := by
  obtain ⟨h1, h2, h3, h4, h5, h6, h7, h8⟩ := State.envAt_some h
  rw [h4, h3]
  exact ⟨h1, h2, rfl, rfl, h5, h6, h7, h8⟩

theorem Group.mayIssue_setSlot (g : Group) (src : Source) (s : Slot) (h : s.life = (g.slot src).life) (src' : Source) :
    (g.setSlot src s).mayIssue src' = g.mayIssue src' := by
  cases src <;> cases src' <;> first | rfl | skip
  · show (g.life == .live && !g.preempt && (s.life == .ready || s.life == .stalled) && !g.blockedBy .slotA) = _
    rw [h]; rfl
  · show (g.life == .live && !g.preempt && (s.life == .ready || s.life == .stalled) && !g.blockedBy .slotB) = _
    rw [h]; rfl

theorem Group.slot_setSlot_fresh (g : Group) (src : Source) :
    (g.setSlot src { g.slot src with onMemory := false, atBarrier := false }).slot src = { g.slot src with onMemory := false, atBarrier := false } := by
  cases src <;> rfl

theorem State.env?_clearWait {st : State} {e : Env} (h : st.env? = some e) : (st.clearWait e).env? = some e.fresh := by
  obtain ⟨h1, h2, h3, h4, h5, h6, h7, h8⟩ := State.env?_some h
  have hg : (st.clearWait e).group? e.gid = some e.fresh.g := by
    simp [State.clearWait, h1, Env.fresh]
  have ha : (st.clearWait e).actor = st.actor := rfl
  have hm : e.fresh.g.mayIssue e.src = true := by
    rw [← h2]
    exact Group.mayIssue_setSlot e.g e.src { e.g.slot e.src with onMemory := false, atBarrier := false } rfl e.src
  have hs : e.fresh.g.slot e.src = e.fresh.slot := by
    simp only [Env.fresh, h5]
    exact Group.slot_setSlot_fresh _ _
  have hc : (st.clearWait e).core e.fresh.g.core = e.core := by
    rw [h6]
    simp [State.clearWait, Env.fresh]
  have hw : { (st.clearWait e).whoOf e.fresh.g (e.src == .handler) with unlisted := e.src == .access } = e.who := by
    rw [h7]
    simp [State.clearWait, Env.fresh, State.whoOf]
  have hh : Hints.ofList e.fresh.slot.hints = e.hints := by rw [h8]; rfl
  unfold State.env? State.envAt
  rw [ha, ← h3, ← h4, hg]
  simp only [hm, ↓reduceIte, hs, hc, hw, hh]
  rfl

/-- A word that passes its checks, of a form that closes no window, is no barrier and does not go to the matrix unit: the rest of its
meaning answers. -/
theorem State.issue_of_ready {st : State} {e : Env} {f : Form} {i : Instr} {run : Env → State → Verdict} (h : Ready st e)
    (hc : f.closes = .nothing) (hb : f.barrier = false) (hu : f.unit = false) (hf : Fits e f i) :
    st.issue f (infoWord i) run = match run e.fresh (st.clearWait e) with
      | .trap t r => .next (if t.cause = 0 then (st.clearWait e).stall e.fresh else e.fresh.raise t (st.clearWait e) r)
      | .wait s => .next (s.stall e)
      | .next s => .next (s.retire e.fresh)
      | .jump s => .next s := by
  have h1 : ¬ (f.runs = .program ∧ e.fresh.src = .handler) := fun hp => hf.stream hp.1 hp.2
  have h2 : e.fresh.formTrap f (infoWord i) = none := by
    rw [← hf.form]
    have hn : e.fresh.g.names e.fresh.src = e.g.names e.src := by
      funext r
      simp only [Env.fresh]
      cases e.src <;> rfl
    have hl : e.fresh.g.liveLanes = e.g.liveLanes := by
      cases hs : e.src <;> simp [Env.fresh, Group.liveLanes, hs, Group.setSlot, Group.slot]
    have hg : e.fresh.activeOf f.guard = e.activeOf f.guard := by
      cases f.guard <;> simp [Env.activeOf, Env.active, Env.lanes, Env.guard, Env.fresh, Group.pred, Env.phys]
    unfold Env.formTrap Env.streamTrap
    simp only [hn, hl, hg]
    rfl
  have h3 : e.fresh.g.windowsHold e.fresh.src f.closes = false := by
    rw [hc]
    simp only [Group.windowsHold, Env.fresh, Group.setSlot_defers, List.any_eq_false, Deferred.holds, Bool.and_eq_true, beq_iff_eq, not_and]
    exact fun d hd hs => (h.windows d hd).1 hs
  unfold State.issue
  simp only [h.env, hc, hb, State.closeFor, State.env?_clearWait h.env]
  rw [hc] at h3
  simp only [h3, hu, Bool.false_eq_true, false_and, ↓reduceIte, h1, h2]
  rfl

/-- A group none of whose deferred writes is due: its result has not arrived, or its window is open. -/
def Group.Awaits (g : Group) : Prop := ∀ d ∈ g.defers, d.writes = none ∨ d.left ≠ 0

theorem settleList_awaits (ds : List Deferred) (h : ∀ d ∈ ds, d.writes = none ∨ d.left ≠ 0) (b : List Nat) : settleList ds b = (ds, []) := by
  induction ds generalizing b with
  | nil => rfl
  | cons d ds ih =>
    have h2 := ih (fun x hx => h x (List.mem_cons_of_mem _ hx)) (d.regs ++ b)
    rcases h d List.mem_cons_self with h1 | h1
    · simp [settleList, h1, h2]
    · cases hw : d.writes <;> simp [settleList, hw, h1, h2]

theorem State.settle_group (st : State) {gid : Nat} {g : Group} (h : st.group? gid = some g) (hd : g.Awaits) :
    (st.settle gid).group? gid = some g := by
  simp only [State.settle, h, settleList_awaits _ hd, State.group?_onCore, State.group?_setGroup]

theorem State.settle_group_ne (st : State) {gid k : Nat} (h : k ≠ gid) : (st.settle gid).group? k = st.group? k := by
  unfold State.settle
  split
  · rfl
  · simp [State.group?_setGroup_ne _ _ h]

theorem State.settle_core (st : State) {gid : Nat} {g : Group} (h : st.group? gid = some g) (hd : g.Awaits) (c : Nat) :
    (st.settle gid).core c = st.core c := by
  simp only [State.settle, h, settleList_awaits _ hd]
  by_cases hc : c = g.core
  · subst hc; simp [Core.writeAll]
  · rw [State.core_onCore_ne _ _ hc]; rfl

theorem State.settle_rest (st : State) (gid : Nat) :
    { st.settle gid with groups := st.groups, cores := st.cores } = st := by
  unfold State.settle
  split <;> rfl

@[simp] theorem State.settle_issueNo (st : State) (gid : Nat) : (st.settle gid).issueNo = st.issueNo := by
  unfold State.settle
  split <;> rfl

theorem Group.counted_defers (g : Group) (e : Env) (b : Bool) (n : Nat) : (g.counted e b n).defers =
    g.defers.map fun d => if b && d.src == e.src && e.g.defers.any (fun x => x.op == d.op) then { d with left := d.left - 1 } else d := by
  unfold Group.counted
  cases e.src <;> rfl

/-- The windows of a group whose deferred writes are those that its stream issued beside, once it has issued. -/
theorem Group.counted_lowers (g : Group) (e : Env) (n : Nat) (h : g.defers = e.g.defers) : (g.counted e true n).defers = g.defers.map e.lowered := by
  rw [Group.counted_defers]
  refine List.map_congr_left fun d hd => ?_
  have : e.g.defers.any (fun x => x.op == d.op) = true := List.any_eq_true.2 ⟨d, h ▸ hd, beq_self_eq_true _⟩
  simp [Env.lowered, this]

/-- A group that an instruction has just been issued for, and that has no deferred write due after it. -/
def Group.AwaitsAfter (g : Group) (e : Env) : Prop := ∀ n, (g.counted e true n).Awaits

theorem Group.awaitsAfter_of_lowered {g : Group} {e : Env} (h : g.defers = e.g.defers)
    (hw : ∀ d ∈ e.g.defers, d.writes = none ∨ (e.lowered d).left ≠ 0) : g.AwaitsAfter e := by
  intro n d hd
  rw [Group.counted_lowers g e n h, List.mem_map] at hd
  obtain ⟨x, hx, rfl⟩ := hd
  have h1 := hw x (h ▸ hx)
  have h2 : (e.lowered x).writes = x.writes := by unfold Env.lowered; split <;> rfl
  rw [h2]
  exact h1

@[simp] theorem Group.goesOn_defers (g : Group) (e : Env) : (g.goesOn e).defers = g.defers := by
  unfold Group.goesOn
  cases e.src <;> rfl

theorem State.countIssue_group (st : State) {e : Env} {g : Group} (h : st.group? e.gid = some g) (hd : g.AwaitsAfter e) :
    (st.countIssue e true).group? e.gid = some (g.counted e true (st.issueNo + 1)) := by
  refine State.settle_group _ ?_ (hd _)
  rw [State.group?_onGroup, State.group?_onCore]
  exact congrArg (Option.map _) h

theorem State.countIssue_group_ne (st : State) (e : Env) (b : Bool) {k : Nat} (h : k ≠ e.gid) :
    (st.countIssue e b).group? k = st.group? k := by
  unfold State.countIssue
  rw [State.settle_group_ne _ h, State.group?_onGroup_ne _ _ h, State.group?_onCore]
  rfl

theorem State.countIssue_core (st : State) {e : Env} {g : Group} (h : st.group? e.gid = some g) (hd : g.AwaitsAfter e) :
    (st.countIssue e true).core e.g.core = (st.core e.g.core).counted e.src e.g.pipe := by
  unfold State.countIssue
  rw [State.settle_core (g := g.counted e true (st.issueNo + 1)) _ _ (hd _)]
  · rw [State.core_onGroup, State.core_onCore]; rfl
  · rw [State.group?_onGroup, State.group?_onCore]; exact congrArg (Option.map _) h

theorem State.countIssue_core_ne (st : State) {e : Env} {g : Group} (h : st.group? e.gid = some g) (hd : g.AwaitsAfter e)
    {c : Nat} (hc : c ≠ e.g.core) : (st.countIssue e true).core c = st.core c := by
  unfold State.countIssue
  rw [State.settle_core (g := g.counted e true (st.issueNo + 1)) _ _ (hd _)]
  · rw [State.core_onGroup, State.core_onCore_ne _ _ hc]; rfl
  · rw [State.group?_onGroup, State.group?_onCore]; exact congrArg (Option.map _) h

theorem State.countIssue_rest (st : State) (e : Env) (b : Bool) :
    { st.countIssue e b with groups := st.groups, cores := st.cores, issueNo := st.issueNo } = st := by
  have h := State.settle_rest ((State.onCore { st with issueNo := st.issueNo + 1 } e.g.core fun c => c.counted e.src e.g.pipe).onGroup e.gid
    fun g => g.counted e b (st.issueNo + 1)) e.gid
  exact congrArg (fun x : State => { x with groups := st.groups, cores := st.cores, issueNo := st.issueNo }) h

@[simp] theorem State.countIssue_issueNo (st : State) (e : Env) (b : Bool) : (st.countIssue e b).issueNo = st.issueNo + 1 := by
  simp [State.countIssue]

/-- What retiring leaves: the group gone on, the core counted, every other group and core and the rest of the package as they were. -/
theorem State.retire_leaves (st : State) {e : Env} {g : Group} (h : st.group? e.gid = some g) (hd : g.AwaitsAfter e) :
    (st.retire e).group? e.gid = some ((g.goesOn e).counted e true (st.issueNo + 1)) ∧
    (∀ k, k ≠ e.gid → (st.retire e).group? k = st.group? k) ∧
    (st.retire e).core e.g.core = (st.core e.g.core).counted e.src e.g.pipe ∧
    (∀ c, c ≠ e.g.core → (st.retire e).core c = st.core c) ∧
    { st.retire e with groups := st.groups, cores := st.cores, issueNo := st.issueNo } = st ∧
    (st.retire e).issueNo = st.issueNo + 1 := by
  have hg : (st.onGroup e.gid fun g => g.goesOn e).group? e.gid = some (g.goesOn e) := by
    rw [State.group?_onGroup, h]; rfl
  have hd' : (g.goesOn e).AwaitsAfter e := by
    intro n
    have := hd n
    rwa [Group.Awaits, Group.counted_defers, ← Group.goesOn_defers g e, ← Group.counted_defers] at this
  refine ⟨State.countIssue_group _ hg hd', fun k hk => ?_, ?_, fun c hc => ?_, ?_, State.countIssue_issueNo _ _ _⟩
  · rw [State.retire, State.issued, State.countIssue_group_ne _ _ _ hk, State.group?_onGroup_ne _ _ hk]
  · rw [State.retire, State.issued, State.countIssue_core _ hg hd', State.core_onGroup]
  · rw [State.retire, State.issued, State.countIssue_core_ne _ hg hd' hc, State.core_onGroup]
  · exact congrArg (fun x : State => { x with groups := st.groups }) (State.countIssue_rest (st.onGroup e.gid fun g => g.goesOn e) e true)

/-- The memories of a core agree. -/
def Core.SameMemories (c d : Core) : Prop :=
  c.l1 = d.l1 ∧ c.scratch = d.scratch ∧ c.scratchPoison = d.scratchPoison ∧ c.tile = d.tile ∧ c.tilePoison = d.tilePoison ∧
  c.acc = d.acc ∧ c.accPoison = d.accPoison

theorem Core.sameMemories_of_rest {c d : Core} (h : c.rest = d.rest) : c.SameMemories d :=
  ⟨by have := congrArg Core.l1 h; exact this,
    by have := congrArg Core.scratch h; exact this,
    by have := congrArg Core.scratchPoison h; exact this,
    by have := congrArg Core.tile h; exact this,
    by have := congrArg Core.tilePoison h; exact this,
    by have := congrArg Core.acc h; exact this,
    by have := congrArg Core.accPoison h; exact this⟩

/-- What a core and a team see of memory does not depend on groups or on register files. -/
theorem State.view_congr {s t : State} (h : { t with groups := s.groups, cores := s.cores, issueNo := s.issueNo } = s)
    (hc : ∀ c, (t.core c).SameMemories (s.core c)) (core team place : Nat) :
    t.viewByte core team place = s.viewByte core team place ∧ t.viewBad core team place = s.viewBad core team place := by
  have ht : t = { s with groups := t.groups, cores := t.cores, issueNo := t.issueNo } := by
    rw [← h]
  generalize t.groups = G, t.cores = C, t.issueNo = n at ht
  subst ht
  have hchip : ∀ p, State.chipByte { s with groups := G, cores := C, issueNo := n } p = s.chipByte p := by
    intro p
    obtain ⟨-, h2, -, h4, -, h6, -⟩ := hc ((p - chipBase) / 2 ^ 24)
    simp only [State.chipByte, h2, h4, h6]
    rfl
  have hhome : ∀ p, State.homeByte { s with groups := G, cores := C, issueNo := n } p = s.homeByte p := by
    intro p
    simp only [State.homeByte, hchip]
    rfl
  have hbad : ∀ p, State.homeBad { s with groups := G, cores := C, issueNo := n } p = s.homeBad p := by
    intro p
    obtain ⟨-, -, h3, -, h5, -, h7⟩ := hc ((p - chipBase) / 2 ^ 24)
    simp only [State.homeBad, h3, h5, h7]
    rfl
  constructor
  · simp only [State.viewByte, hchip, hhome, (hc core).1]
    rfl
  · simp only [State.viewBad, hbad, (hc core).1]

theorem firstTrap_none {l : List (Option Trap)} : firstTrap l = none ↔ ∀ x ∈ l, x = none := by
  simp [firstTrap, List.findSome?_eq_none_iff]

/-- A word that passes its checks: the stream may run it, no field stands where an immediate is bound, every hint is accepted, and
every register is named by the frame. -/
theorem Env.formTrap_none {e : Env} {f : Form} {word : Lane} (h : e.formTrap f word = none) :
    e.streamTrap f word = none ∧ (f.accepts.imm = true → e.hints.imm.isSome = true → f.imm11 = 0 ∧ f.b.getD 0 = 0) ∧
    e.hints.accepted f.accepts = true ∧ ∀ r ∈ f.regs, e.g.names e.src r = true := by
  have h := firstTrap_none.1 h
  refine ⟨h _ (by simp), fun h1 h2 => ?_, ?_, ?_⟩
  · have h3 := h _ (List.mem_cons_of_mem _ List.mem_cons_self)
    by_contra hn
    rw [if_pos] at h3
    · cases h3
    · simp only [h1, h2, Bool.true_and, Bool.or_eq_true, decide_eq_true_eq]
      by_cases h0 : f.imm11 = 0
      · exact Or.inr fun hb => hn ⟨h0, hb⟩
      · exact Or.inl h0
  · have h3 := h _ (List.mem_cons_of_mem _ (List.mem_cons_of_mem _ List.mem_cons_self))
    by_contra hn
    rw [if_neg hn] at h3
    cases h3
  · have h3 := h _ (List.mem_cons_of_mem _ (List.mem_cons_of_mem _ (List.mem_cons_of_mem _ List.mem_cons_self)))
    intro r hr
    by_contra hn
    rw [if_neg] at h3
    · cases h3
    · intro hall
      exact hn (List.all_eq_true.1 hall r (List.mem_append_left _ hr))

theorem Env.hints_accepted {e : Env} {f : Form} {i : Instr} (h : Fits e f i) : e.hints.accepted f.accepts = true :=
  (Env.formTrap_none h.form).2.2.1

theorem Hints.accepted_iff {h : Hints} {a : Accepts} (x : h.accepted a = true) :
    h.bad = false ∧ (a.imm = false → h.imm = none) ∧ (a.re = false → h.re = none) ∧ (a.sat = false → h.sat = false) ∧
    (a.neg = false → h.neg = false) ∧ (a.scope = false → h.scope = none) ∧ (a.cache = false → h.cache = none) ∧
    (a.offset = false → h.offset = none) ∧ (a.la = false → h.la = 0) := by
  simp only [Hints.accepted, Bool.and_eq_true, Bool.or_eq_true, Bool.not_eq_true', Option.isNone_iff_eq_none, beq_iff_eq] at x
  repeat' apply And.intro
  all_goals intros; simp_all only [Bool.false_eq_true, false_or]

end Sys2Proof.Machine
end

