-- ==== Sys2Proof/Laws/Compute.lean ====
section
/-! SUPPORT. The short-latency instructions: what their one shared operation leaves (R98 to R101, R110). -/

namespace Sys2Proof.Machine

/-! ### The environment of a new attempt reads as the old one -/

@[simp] theorem Env.fresh_gid (e : Env) : e.fresh.gid = e.gid := rfl
@[simp] theorem Env.fresh_src (e : Env) : e.fresh.src = e.src := rfl
@[simp] theorem Env.fresh_core (e : Env) : e.fresh.core = e.core := rfl
@[simp] theorem Env.fresh_hints (e : Env) : e.fresh.hints = e.hints := rfl
@[simp] theorem Env.fresh_who (e : Env) : e.fresh.who = e.who := rfl
@[simp] theorem Env.fresh_mask (e : Env) : e.fresh.slot.mask = e.slot.mask := rfl
@[simp] theorem Env.fresh_pc (e : Env) : e.fresh.slot.pc = e.slot.pc := rfl
@[simp] theorem Env.fresh_lanes (e : Env) : e.fresh.lanes = e.lanes := rfl
@[simp] theorem Env.fresh_lowest (e : Env) : e.fresh.lowest = e.lowest := rfl
@[simp] theorem Env.fresh_gcore (e : Env) : e.fresh.g.core = e.g.core := by simp [Env.fresh]
@[simp] theorem Env.fresh_gpipe (e : Env) : e.fresh.g.pipe = e.g.pipe := by
  unfold Group.pipe Env.fresh
  cases e.src <;> rfl
@[simp] theorem Env.fresh_gteam (e : Env) : e.fresh.g.team = e.g.team := by simp [Env.fresh]
@[simp] theorem Env.fresh_gprot (e : Env) : e.fresh.g.prot = e.g.prot := by simp [Env.fresh]
@[simp] theorem Env.fresh_gdefers (e : Env) : e.fresh.g.defers = e.g.defers := by simp [Env.fresh]
@[simp] theorem Env.fresh_gflight (e : Env) : e.fresh.g.flight = e.g.flight := by simp [Env.fresh]
@[simp] theorem Env.fresh_copies (e : Env) : e.fresh.copies = e.copies := by simp [Env.copies]
@[simp] theorem Env.fresh_phys (e : Env) (k l : Nat) : e.fresh.phys k l = e.phys k l := by simp [Env.phys]
@[simp] theorem Env.fresh_cells (e : Env) : e.fresh.cells = e.cells := by simp [Env.cells]
@[simp] theorem Env.fresh_pred (e : Env) (p l : Nat) : e.fresh.g.pred p l = e.g.pred p l := by simp [Env.fresh, Group.pred]
@[simp] theorem Env.fresh_reg (e : Env) (r : Nat) : e.fresh.reg r = e.reg r := by
  simp only [Env.reg, Env.fresh]
  cases e.src <;> rfl
@[simp] theorem Env.fresh_cellOf (e : Env) (k r l : Nat) : e.fresh.cellOf k r l = e.cellOf k r l := by simp [Env.cellOf]
@[simp] theorem Env.fresh_val (e : Env) (k r l : Nat) : e.fresh.val k r l = e.val k r l := by simp [Env.val]
@[simp] theorem Env.fresh_scalar (e : Env) (r : Nat) : e.fresh.scalar r = e.scalar r := by simp [Env.scalar]
@[simp] theorem Env.fresh_guard (e : Env) (p k l : Nat) : e.fresh.guard p k l = e.guard p k l := by simp [Env.guard]
@[simp] theorem Env.fresh_active (e : Env) (p : Nat) : e.fresh.active p = e.active p := by simp [Env.active]
@[simp] theorem Env.fresh_guardOf (e : Env) (p : Option Nat) (k l : Nat) : e.fresh.guardOf p k l = e.guardOf p k l := by
  cases p
  · rfl
  · simp [Env.guardOf]
@[simp] theorem Env.fresh_activeOf (e : Env) (p : Option Nat) : e.fresh.activeOf p = e.activeOf p := by
  cases p <;> simp [Env.activeOf]
@[simp] theorem Env.fresh_subs (e : Env) (p : Option Nat) (w k l : Nat) : e.fresh.subs p w k l = e.subs p w k l := by simp [Env.subs]
@[simp] theorem Env.fresh_bSub (e : Env) (b w k l s : Nat) : e.fresh.bSub b w k l s = e.bSub b w k l s := by simp [Env.bSub]
@[simp] theorem Env.fresh_bVal (e : Env) (b k l : Nat) : e.fresh.bVal b k l = e.bVal b k l := by simp [Env.bVal]
@[simp] theorem Env.fresh_subReads (e : Env) (r : Nat) (p : Option Nat) (w : Nat) : e.fresh.subReads r p w = e.subReads r p w := by
  simp [Env.subReads]
@[simp] theorem Env.fresh_bReads (e : Env) (r : Nat) (p : Option Nat) (w : Nat) : e.fresh.bReads r p w = e.bReads r p w := by
  simp [Env.bReads]
@[simp] theorem Env.fresh_crossReads (e : Env) (r p w : Nat) (takes : Nat → Nat → Bool) :
    e.fresh.crossReads r p w takes = e.crossReads r p w takes := by
  simp [Env.crossReads]
@[simp] theorem Env.fresh_subWrites (e : Env) (d : Nat) (p : Option Nat) (w : Nat) (f : Nat → Nat → Nat → Nat) :
    e.fresh.subWrites d p w f = e.subWrites d p w f := by simp [Env.subWrites]
@[simp] theorem Env.fresh_laneWrites (e : Env) (d : Nat) (p : Option Nat) (f : Nat → Nat → Lane) :
    e.fresh.laneWrites d p f = e.laneWrites d p f := by simp [Env.laneWrites]
@[simp] theorem Env.fresh_condWrites (e : Env) (p : Option Nat) (w : Nat) (f : Nat → Nat → Nat → Bool) :
    e.fresh.condWrites p w f = e.condWrites p w f := by simp [Env.condWrites]
@[simp] theorem Env.fresh_reads (e : Env) (r : Nat) (ls : List Nat) (h : BitVec 2) : e.fresh.reads r ls h = e.reads r ls h := by
  simp [Env.reads]
@[simp] theorem Env.fresh_readLowest (e : Env) (r : Nat) (h : BitVec 2) : e.fresh.readLowest r h = e.readLowest r h := by
  simp [Env.readLowest]
@[simp] theorem Env.fresh_poisonTrap (e : Env) (rs : List Read) : e.fresh.poisonTrap rs = e.poisonTrap rs := by
  simp [Env.poisonTrap]

/-! ### Poison -/

theorem Env.poisonTrap_none (e : Env) (rs : List Read)
    (h : ∀ r ∈ rs, e.core.cellPoison (32 * e.reg r.reg + r.phys) = 0) : e.poisonTrap rs = none := by
  have hb : (rs.filter fun r => (e.core.cellPoison (32 * e.reg r.reg + r.phys) &&& r.halves) != 0) = [] := by
    rw [List.filter_eq_nil_iff]
    intro r hr
    simp [h r hr]
  simp only [Env.poisonTrap, hb, List.isEmpty_nil, ↓reduceIte]

theorem Env.mem_cells (e : Env) {k l : Nat} : (k, l) ∈ e.cells ↔ k ∈ e.copies ∧ l ∈ e.lanes := by
  simp [Env.cells]

theorem Env.clean_subReads {e : Env} {r : Nat} (h : e.Clean r) (p : Option Nat) (w : Nat) :
    ∀ x ∈ e.subReads r p w, e.core.cellPoison (32 * e.reg x.reg + x.phys) = 0 := by
  intro x hx
  simp only [Env.subReads, List.mem_filterMap] at hx
  obtain ⟨⟨k, l⟩, hkl, hx⟩ := hx
  split at hx
  · cases hx
  · cases hx
    have := e.mem_cells.1 hkl
    exact h k this.1 l this.2

theorem Env.clean_crossReads {e : Env} {r : Nat} (h : e.Clean r) (p w : Nat) (takes : Nat → Nat → Bool) :
    ∀ x ∈ e.crossReads r p w takes, e.core.cellPoison (32 * e.reg x.reg + x.phys) = 0 := by
  intro x hx
  simp only [Env.crossReads, List.mem_flatMap, List.mem_map, List.mem_filter] at hx
  obtain ⟨⟨k, l⟩, hkl, s, -, m, ⟨hm, -⟩, rfl⟩ := hx
  exact h k (e.mem_cells.1 hkl).1 m hm

theorem Env.clean_bReads {e : Env} {b : Nat} (h : e.hints.imm = none → e.Clean b) (p : Option Nat) (w : Nat) :
    ∀ x ∈ e.bReads b p w, e.core.cellPoison (32 * e.reg x.reg + x.phys) = 0 := by
  intro x hx
  unfold Env.bReads at hx
  split at hx
  · cases hx
  · next hi => exact Env.clean_subReads (h (by simpa using hi)) p w x hx

/-! ### Cells of the slot -/

theorem Env.phys_inj (e : Env) {k l k' l' : Nat} (hk : k ∈ e.copies) (hk' : k' ∈ e.copies) (h : e.phys k l = e.phys k' l') :
    k = k' ∧ l = l' := by
  cases hp : e.g.prot
  · simp_all [Env.copies, Env.phys]
  · simp only [Env.copies, hp, ↓reduceIte, List.mem_cons, List.not_mem_nil, or_false] at hk hk'
    simp only [Env.phys, hp, ↓reduceIte] at h
    omega

/-- A list of writes made from the cells of the slot, at most one for each, each to its own cell. -/
theorem Core.writeAll_cells (e : Env) (c : Core) (d : Nat) (F : Nat × Nat → Option CellWrite)
    (hF : ∀ k l w, F (k, l) = some w → w.cell = e.cellOf k d l) {k l : Nat} (hk : k ∈ e.copies) (hl : l ∈ e.lanes) :
    (∀ w, F (k, l) = some w →
      (c.writeAll (e.cells.filterMap F)).cell (e.cellOf k d l) = (c.cell w.cell &&& ~~~w.bits) ||| (w.value &&& w.bits) ∧
      (c.writeAll (e.cells.filterMap F)).cellPoison (e.cellOf k d l) =
        (c.cellPoison w.cell &&& ~~~halvesOf w.bits) ||| (w.poison &&& halvesOf w.bits)) ∧
    (F (k, l) = none → (c.writeAll (e.cells.filterMap F)).cell (e.cellOf k d l) = c.cell (e.cellOf k d l)) := by
  have inj : ∀ {k' l'}, (k', l') ∈ e.cells → e.cellOf k' d l' = e.cellOf k d l → (k', l') = (k, l) := by
    intro k' l' h h'
    have hp : e.phys k' l' = e.phys k l := by
      unfold Env.cellOf at h'
      omega
    obtain ⟨rfl, rfl⟩ := e.phys_inj (e.mem_cells.1 h).1 hk hp
    rfl
  constructor
  · intro w hw
    have hcell := hF k l w hw
    rw [← hcell]
    refine Core.writeAll_one c _ w ?_ ?_
    · exact List.mem_filterMap.2 ⟨(k, l), e.mem_cells.2 ⟨hk, hl⟩, hw⟩
    · intro x hx hxc
      obtain ⟨⟨k', l'⟩, h1, h2⟩ := List.mem_filterMap.1 hx
      have := inj h1 (by rw [← hF k' l' x h2, hxc, hcell])
      rw [this, hw] at h2
      exact (Option.some.inj h2).symm
  · intro hn
    refine (Core.writeAll_ne c _ ?_).1
    intro w hw hc
    obtain ⟨⟨k', l'⟩, h1, h2⟩ := List.mem_filterMap.1 hw
    have := inj h1 (by rw [← hF k' l' w h2, hc])
    rw [this, hn] at h2
    cases h2

/-! ### What is left when an instruction that writes registers or predicates is done -/

/-- The group after the issue of a word. -/
theorem Group.retired_rest (e : Env) (n : Nat) :
    ((e.fresh.g.goesOn e.fresh).counted e.fresh true n).rest = { e.g.rest with defers := e.g.defers.map e.lowered } := by
  have hd : ((e.fresh.g.goesOn e.fresh).counted e.fresh true n).defers = e.g.defers.map e.lowered := by
    rw [Group.counted_lowers _ _ _ (by rw [Group.goesOn_defers]), Group.goesOn_defers, Env.fresh_gdefers]
    rfl
  rw [← hd]
  cases hs : e.src <;> simp [Group.counted, Group.goesOn, Group.setSlot, Group.slot, Env.fresh, hs, Group.rest]

theorem Group.retired_advances (e : Env) (h5 : e.slot = e.g.slot e.src) (n : Nat) :
    Advances e n ((e.fresh.g.goesOn e.fresh).counted e.fresh true n) := by
  constructor
  · intro hx
    cases hs : e.src <;>
      simp_all [Group.counted, Group.goesOn, Group.setSlot, Group.slot, Env.fresh]
  · intro x hx
    cases hs : e.src <;> cases x <;>
      first
      | exact absurd hs.symm hx
      | simp [Group.counted, Group.goesOn, Group.setSlot, Group.slot, Env.fresh, hs]
  · intro hs
    simp [Group.counted, Group.goesOn, Group.setSlot, Group.slot, Env.fresh, hs]
  · cases hs : e.src <;> simp [Group.counted, Group.goesOn, Group.setSlot, Group.slot, Env.fresh, hs]
    by_cases h : e.g.accessLife = .done <;> simp [h]
  · cases hs : e.src <;> simp [Group.counted, Group.goesOn, Group.setSlot, Group.slot, Env.fresh, hs]
  · cases hs : e.src <;> simp [Group.counted, Group.goesOn, Group.setSlot, Group.slot, Env.fresh, hs]

theorem Group.retired_preds (g : Group) (e : Env) (ps : NMap Byte) (n : Nat) :
    (Group.goesOn { g with preds := ps } e).counted e true n = { (g.goesOn e).counted e true n with preds := ps } := by
  unfold Group.counted Group.goesOn
  cases e.src <;> rfl

@[simp] theorem Group.retired_keeps_preds (g : Group) (e : Env) (n : Nat) :
    ((g.goesOn e).counted e true n).preds = g.preds := by
  unfold Group.counted Group.goesOn
  cases e.src <;> rfl

/-- A stream that is ready leaves no deferred write due, where the group's are those it issued beside. -/
theorem Ready.awaits {s : State} {e : Env} (h : Ready s e) {g : Group} (hg : g.defers = e.fresh.g.defers) : g.AwaitsAfter e.fresh :=
  Group.awaitsAfter_of_lowered hg fun d hd => (h.windows d (by rwa [Env.fresh_gdefers] at hd)).2

/-- Retiring after a change to the group's register file alone leaves what `Leaves` says. -/
theorem leaves_of_cells {s : State} {e : Env} (h : Ready s e) (ws : List CellWrite) {cells : Nat → Prop}
    (hw : ∀ w ∈ ws, cells w.cell) :
    Leaves s (((s.clearWait e).writeCells e.fresh.g.core ws).retire e.fresh) e { cells := cells } ∧
    ∀ i, ((((s.clearWait e).writeCells e.fresh.g.core ws).retire e.fresh).core e.g.core).cell i = (e.core.writeAll ws).cell i ∧
      ((((s.clearWait e).writeCells e.fresh.g.core ws).retire e.fresh).core e.g.core).cellPoison i =
        (e.core.writeAll ws).cellPoison i := by
  obtain ⟨h1, h2, h3, h4, h5, h6, h7, h8⟩ := State.env?_some h.env
  have hg : ((s.clearWait e).writeCells e.fresh.g.core ws).group? e.fresh.gid = some e.fresh.g := by
    simp only [State.writeCells, State.group?_onCore, State.clearWait, Env.fresh_gid, State.group?_onGroup, h1]
    rfl
  obtain ⟨r1, r2, r3, r4, r5, r6⟩ := State.retire_leaves _ hg (h.awaits rfl)
  obtain ⟨W, hcore⟩ : ∃ W, (((s.clearWait e).writeCells e.fresh.g.core ws).retire e.fresh).core e.g.core =
      ({ e.core.writeAll ws with wrote := W } : Core).counted e.src e.g.pipe := by
    refine ⟨NMap.put e.core.wrote (match (s.clearWait e).group? (s.clearWait e).actor.gid with
      | some g => g.pipe
      | none => 0) { writes := ws, fresh := true }, ?_⟩
    rw [Env.fresh_gcore, Env.fresh_gpipe] at r3
    rw [Env.fresh_gcore, r3, State.writeCells, State.core_onCore, h6]
    rfl
  have hrest : (({ e.core.writeAll ws with wrote := W } : Core).counted e.src e.g.pipe).rest = e.core.rest :=
    (Core.counted_rest _ _ _).trans (Core.writeAll_rest e.core ws)
  have hcell : ∀ i, ((((s.clearWait e).writeCells e.fresh.g.core ws).retire e.fresh).core e.g.core).cell i =
      (e.core.writeAll ws).cell i ∧
      ((((s.clearWait e).writeCells e.fresh.g.core ws).retire e.fresh).core e.g.core).cellPoison i =
        (e.core.writeAll ws).cellPoison i := by
    intro i
    rw [hcore, Core.counted_cell, Core.counted_cellPoison]
    exact ⟨rfl, rfl⟩
  refine ⟨⟨?_, ?_, ?_, ?_, ?_, ?_, ?_, ?_⟩, hcell⟩
  · exact congrArg (fun x : State => { x with groups := s.groups, cores := s.cores }) r5
  · rw [r6]; rfl
  · intro gid hne
    rw [r2 gid hne, State.writeCells, State.group?_onCore, State.clearWait, State.group?_onGroup_ne _ _ hne]
  · intro c hc
    rw [Env.fresh_gcore] at r4 ⊢
    rw [r4 c hc, State.writeCells, State.core_onCore_ne _ _ hc]
    rfl
  · rw [hcore]
    exact hrest
  · intro i hi
    have := Core.writeAll_ne e.core ws (i := i) fun w hm hc => hi (hc ▸ hw w hm)
    rw [(hcell i).1, (hcell i).2]
    exact this
  · refine ⟨_, r1, ?_, ?_, fun i _ => ?_⟩
    · exact congrArg (fun g : Group => g) (Group.retired_rest e _)
    · exact Group.retired_advances e h5 _
    · rw [Group.retired_keeps_preds, Env.fresh, Group.setSlot_preds]
  · intro core team place
    refine (fun v => ⟨fun _ => And.left v, fun _ => And.right v⟩) (State.view_congr ?_ ?_ core team place)
    · exact congrArg (fun x : State => { x with groups := s.groups, cores := s.cores }) r5
    · intro c
      by_cases hc : c = e.g.core
      · subst hc
        refine Core.sameMemories_of_rest ?_
        rw [hcore, ← h6]
        exact hrest
      · rw [Env.fresh_gcore] at r4 ⊢
        rw [r4 c hc, State.writeCells, State.core_onCore_ne _ _ hc]
        exact ⟨rfl, rfl, rfl, rfl, rfl, rfl, rfl⟩

theorem State.compute_next {s : State} {e : Env} {i : Instr} {f : Form} {reads : Env → List Read} {writes : Env → List CellWrite}
    (h : Ready s e) (hf : Fits e f i) (hc : f.closes = .nothing) (hb : f.barrier = false) (hu : f.unit = false)
    (hr : ∀ r ∈ reads e.fresh, e.core.cellPoison (32 * e.reg r.reg + r.phys) = 0) :
    s.compute i f reads writes = .next (((s.clearWait e).writeCells e.fresh.g.core (writes e.fresh)).retire e.fresh) := by
  rw [State.compute, State.issue_of_ready h hc hb hu hf, Env.fresh_poisonTrap, Env.poisonTrap_none e _ hr]

theorem mem_activeSubs {w j : Nat} {g : Byte} (hj : j < 64 / w) : j ∈ activeSubs w g ↔ g.getLsbD (w / 8 * j) = true := by
  simp [activeSubs, hj]

theorem halvesOf_subs {w : Nat} (hw : w = 8 ∨ w = 16 ∨ w = 32 ∨ w = 64) (ss : List Nat) {j : Nat} (hj : j ∈ ss) (hj' : j < 64 / w)
    (x y : BitVec 2) :
    ((x &&& ~~~halvesOf (ss.foldl (fun m s => m ||| subBits w s) 0)) ||| (0#2 &&& y)) &&& halfOf w j = 0 := by
  have hbit : ∀ i, w * j ≤ i → i < w * j + w → i < 64 → (ss.foldl (fun m s => m ||| subBits w s) 0#64).getLsbD i = true := by
    intro i h1 h2 h3
    rw [getLsbD_foldl_or]
    simp only [BitVec.getLsbD_zero, Bool.false_or, List.any_eq_true]
    exact ⟨j, hj, by rw [subBits_getLsbD]; simp [h1, h2, h3]⟩
  generalize ss.foldl (fun m s => m ||| subBits w s) 0#64 = b at hbit
  have low : ∀ i, i < 32 → b.getLsbD i = true → b.toNat % 2 ^ 32 ≠ 0 := by
    intro i hi hb h0
    have : (b.toNat % 2 ^ 32).testBit i = true := by rw [Nat.testBit_mod_two_pow]; simp [hi, BitVec.testBit_toNat, hb]
    rw [h0] at this
    simp at this
  have high : ∀ i, 32 ≤ i → b.getLsbD i = true → b.toNat / 2 ^ 32 ≠ 0 := by
    intro i hi hb h0
    have : (b.toNat / 2 ^ 32).testBit (i - 32) = true := by
      rw [Nat.testBit_div_two_pow, BitVec.testBit_toNat]
      rw [show i - 32 + 32 = i by omega]
      exact hb
    rw [h0] at this
    simp at this
  have hor : w = 64 ∨ (w ≠ 64 ∧ w * j < 32) ∨ (w ≠ 64 ∧ 32 ≤ w * j) := by omega
  rcases hor with h | ⟨h1, h2⟩ | ⟨h1, h2⟩
  · subst h
    have hj0 : j = 0 := by omega
    subst hj0
    have h1 := low 0 (by omega) (hbit 0 (by omega) (by omega) (by omega))
    have h2 := high 32 (by omega) (hbit 32 (by omega) (by omega) (by omega))
    simp only [halvesOf, h1, h2, ne_eq, not_false_eq_true, ↓reduceIte, halfOf]
    revert x y; decide
  · have h3 := low (w * j) h2 (hbit _ (by omega) (by omega) (by omega))
    simp only [halvesOf, h3, ne_eq, not_false_eq_true, ↓reduceIte, halfOf, h1, h2]
    split <;> revert x y <;> decide
  · have h3 := high (w * j) h2 (hbit _ (by omega) (by omega) (by rcases hw with rfl | rfl | rfl | rfl <;> omega))
    have h4 : ¬ w * j < 32 := by omega
    simp only [halvesOf, h3, ne_eq, not_false_eq_true, ↓reduceIte, halfOf, h1, h4]
    split <;> revert x y <;> decide

/-- A result in the sub-elements of a register. -/
theorem State.compute_subs {s : State} {e : Env} {i : Instr} {f : Form} {reads : Env → List Read} {d w : Nat} {p : Option Nat}
    {F : Env → Nat → Nat → Nat → Nat} (h : Ready s e) (hf : Fits e f i) (hc : f.closes = .nothing) (hb : f.barrier = false) (hu : f.unit = false)
    (hr : ∀ r ∈ reads e.fresh, e.core.cellPoison (32 * e.reg r.reg + r.phys) = 0)
    (hw : w = 8 ∨ w = 16 ∨ w = 32 ∨ w = 64) :
    ∃ t, s.compute i f reads (fun e => e.subWrites d p w (F e)) = .next t ∧ WritesSubs s t e d w (e.acts p w) (F e.fresh) := by
  refine ⟨_, State.compute_next h hf hc hb hu hr, ?_⟩
  rw [Env.fresh_subWrites]
  have hcells : ∀ x ∈ e.subWrites d p w (F e.fresh), e.cellsOf d x.cell := by
    intro x hx
    simp only [Env.subWrites, List.mem_filterMap] at hx
    obtain ⟨⟨k, l⟩, h1, h2⟩ := hx
    split at h2
    · cases h2
    · cases h2
      have := e.mem_cells.1 h1
      exact ⟨k, this.1, l, this.2, rfl⟩
  obtain ⟨hl, hv⟩ := leaves_of_cells h (e.subWrites d p w (F e.fresh)) hcells
  have hw8 : ∀ j, j < 64 / w → w * j + w ≤ 64 := by
    intro j hj
    rcases hw with rfl | rfl | rfl | rfl <;> omega
  have key := fun k l hk hl' => Core.writeAll_cells e e.core d (fun x : Nat × Nat =>
    let ss := e.subs p w x.1 x.2
    if ss.isEmpty then none
    else some
      ({ cell := e.cellOf x.1 d x.2
         bits := ss.foldl (fun m s => m ||| subBits w s) 0
         value := ss.foldl (fun m s => m ||| subAt w s (F e.fresh x.1 x.2 s)) 0 } : CellWrite))
    (by intro k l x hx; dsimp only at hx; split at hx; · cases hx
        · cases hx; rfl) (k := k) (l := l) hk hl'
  refine ⟨?_, ?_, hl⟩
  · intro k hk l hl' j hj ha
    have hm : j ∈ e.subs p w k l := (mem_activeSubs hj).2 ha
    have hne : ¬ (e.subs p w k l).isEmpty = true := by
      intro hh
      rw [List.isEmpty_iff] at hh
      rw [hh] at hm
      cases hm
    have h1 := (key k l hk hl').1 _ (by dsimp only; rw [if_neg hne])
    rw [(hv _).1, (hv _).2]
    constructor
    · have h2 := subOf_mergeSubs (w := w) (e.subs p w k l) (F e.fresh k l) (e.core.cell (e.cellOf k d l)) (hw8 j hj)
      rw [if_pos hm] at h2
      rw [← h2]
      exact congrArg (subOf w j) h1.1
    · have h2 := h1.2
      refine (congrArg (· &&& halfOf w j) h2).trans ?_
      exact halvesOf_subs hw _ hm hj _ _
  · intro k hk l hl' j hj ha
    have hm : ¬ j ∈ e.subs p w k l := fun hh => by
      have := (mem_activeSubs hj).1 hh
      rw [Env.acts] at ha
      rw [ha] at this
      cases this
    rw [(hv _).1]
    by_cases hne : (e.subs p w k l).isEmpty = true
    · exact congrArg (subOf w j) ((key k l hk hl').2 (by dsimp only; rw [if_pos hne]))
    · have h1 := (key k l hk hl').1 _ (by dsimp only; rw [if_neg hne])
      have h2 := subOf_mergeSubs (w := w) (e.subs p w k l) (F e.fresh k l) (e.core.cell (e.cellOf k d l)) (hw8 j hj)
      rw [if_neg hm] at h2
      exact (congrArg (subOf w j) h1.1).trans h2

theorem all_bits (x v : Lane) : ((x &&& ~~~BitVec.allOnes 64) ||| (v &&& BitVec.allOnes 64)) = v := by
  rw [BitVec.not_allOnes, BitVec.and_zero, BitVec.zero_or, BitVec.and_allOnes]

theorem all_halves (x : BitVec 2) : ((x &&& ~~~halvesOf (BitVec.allOnes 64)) ||| (0#2 &&& halvesOf (BitVec.allOnes 64))) = 0 := by
  have : halvesOf (BitVec.allOnes 64) = 3 := by decide
  rw [this]
  revert x
  decide

/-- A result in whole lanes of a register. -/
theorem State.compute_lanes {s : State} {e : Env} {i : Instr} {f : Form} {reads : Env → List Read} {d : Nat} {p : Option Nat}
    {F : Env → Nat → Nat → Lane} (h : Ready s e) (hf : Fits e f i) (hc : f.closes = .nothing) (hb : f.barrier = false) (hu : f.unit = false)
    (hr : ∀ r ∈ reads e.fresh, e.core.cellPoison (32 * e.reg r.reg + r.phys) = 0) :
    ∃ t, s.compute i f reads (fun e => e.laneWrites d p (F e)) = .next t ∧ WritesLanes s t e d p (F e.fresh) := by
  refine ⟨_, State.compute_next h hf hc hb hu hr, ?_⟩
  rw [Env.fresh_laneWrites]
  have hcells : ∀ x ∈ e.laneWrites d p (F e.fresh), e.cellsOf d x.cell := by
    intro x hx
    simp only [Env.laneWrites, List.mem_filterMap] at hx
    obtain ⟨⟨k, l⟩, h1, h2⟩ := hx
    split at h2
    · cases h2
      have := e.mem_cells.1 h1
      exact ⟨k, this.1, l, this.2, rfl⟩
    · cases h2
  obtain ⟨hl, hv⟩ := leaves_of_cells h (e.laneWrites d p (F e.fresh)) hcells
  have key := fun k l hk hl' => Core.writeAll_cells e e.core d (fun x : Nat × Nat =>
    if (e.guardOf p x.1 x.2).getLsbD 0 then
      some ({ cell := e.cellOf x.1 d x.2, bits := BitVec.allOnes 64, value := F e.fresh x.1 x.2 } : CellWrite)
    else none)
    (by intro k l x hx; dsimp only at hx; split at hx
        · cases hx; rfl
        · cases hx) (k := k) (l := l) hk hl'
  refine ⟨?_, ?_, hl⟩
  · intro k hk l hl' ha
    have h1 := (key k l hk hl').1 _ (by dsimp only; rw [if_pos ha])
    rw [(hv _).1, (hv _).2]
    exact ⟨h1.1.trans (all_bits _ _), h1.2.trans (all_halves _)⟩
  · intro k hk l hl' ha
    rw [(hv _).1]
    exact (key k l hk hl').2 (by dsimp only; rw [if_neg (by rw [ha]; decide)])

/-! ### Predicates -/

theorem Group.pred_setPred_self (g : Group) {q : Nat} (hq : q ≠ 0) (l : Nat) (m v : Byte) :
    (g.setPred q l m v).pred q l = (g.pred q l &&& ~~~m) ||| (v &&& m) := by
  simp [Group.setPred, Group.pred, hq]

theorem Group.preds_setPred_ne (g : Group) (q l : Nat) (m v : Byte) {i : Nat} (h : q = 0 ∨ i ≠ 32 * q + l) :
    NMap.get (g.setPred q l m v).preds 0 i = NMap.get g.preds 0 i := by
  unfold Group.setPred
  split
  · rfl
  · next hq => exact NMap.get_store_ne _ _ _ (h.resolve_left hq)

theorem Group.writePreds_preds (g : Group) (q : Nat) (ws : List PredWrite) :
    g.writePreds q ws = { g with preds := (g.writePreds q ws).preds } := by
  induction ws generalizing g with
  | nil => rfl
  | cons w ws ih =>
    have h1 : g.setPred q w.phys w.mask w.value = { g with preds := (g.setPred q w.phys w.mask w.value).preds } := by
      unfold Group.setPred
      split <;> rfl
    have h2 := ih (g.setPred q w.phys w.mask w.value)
    have h3 : g.writePreds q (w :: ws) = (g.setPred q w.phys w.mask w.value).writePreds q ws := rfl
    rw [h3, h2, h1]

theorem Group.writePreds_ne (g : Group) (q : Nat) (ws : List PredWrite) {i : Nat} (h : q = 0 ∨ ∀ w ∈ ws, i ≠ 32 * q + w.phys) :
    NMap.get (g.writePreds q ws).preds 0 i = NMap.get g.preds 0 i := by
  induction ws generalizing g with
  | nil => rfl
  | cons w ws ih =>
    refine (ih (g.setPred q w.phys w.mask w.value) (h.imp id fun h x hx => h x (List.mem_cons_of_mem _ hx))).trans ?_
    exact Group.preds_setPred_ne g q _ _ _ (h.imp id fun h => h w List.mem_cons_self)

theorem Group.writePreds_one (g : Group) {q : Nat} (hq : q ≠ 0) (ws : List PredWrite) (w : PredWrite) (hm : w ∈ ws)
    (hn : ∀ x ∈ ws, x.phys = w.phys → x = w) :
    (g.writePreds q ws).pred q w.phys = (g.pred q w.phys &&& ~~~w.mask) ||| (w.value &&& w.mask) := by
  induction ws generalizing g with
  | nil => cases hm
  | cons x ws ih =>
    have hn' : ∀ y ∈ ws, y.phys = w.phys → y = w := fun y hy => hn y (List.mem_cons_of_mem _ hy)
    have hstep : g.writePreds q (x :: ws) = (g.setPred q x.phys x.mask x.value).writePreds q ws := rfl
    rw [hstep]
    by_cases hx : x = w
    · subst hx
      by_cases hw : x ∈ ws
      · have := ih (g.setPred q x.phys x.mask x.value) hw hn'
        rw [this, Group.pred_setPred_self g hq, merge_again]
      · have hne : ∀ y ∈ ws, 32 * q + x.phys ≠ 32 * q + y.phys := fun y hy h => hw (hn' y hy (by omega) ▸ hy)
        have h1 := Group.writePreds_ne (g.setPred q x.phys x.mask x.value) q ws (i := 32 * q + x.phys) (Or.inr hne)
        have h2 := Group.pred_setPred_self g hq x.phys x.mask x.value
        simp only [Group.pred, hq, ↓reduceIte] at h1 h2 ⊢
        rw [h1, h2]
    · have hmw : w ∈ ws := (List.mem_cons.1 hm).resolve_left fun h => hx h.symm
      have hph : w.phys ≠ x.phys := fun h => hx (hn x List.mem_cons_self h.symm)
      have := ih (g.setPred q x.phys x.mask x.value) hmw hn'
      have h1 := Group.preds_setPred_ne g q x.phys x.mask x.value (i := 32 * q + w.phys) (Or.inr (by omega))
      rw [this]
      simp only [Group.pred, hq, ↓reduceIte, h1]

theorem Group.writePreds_congr {g g' : Group} (q : Nat) (ws : List PredWrite) (h : g.preds = g'.preds) :
    (g.writePreds q ws).preds = (g'.writePreds q ws).preds := by
  induction ws generalizing g g' with
  | nil => exact h
  | cons w ws ih =>
    refine ih (g := g.setPred q w.phys w.mask w.value) (g' := g'.setPred q w.phys w.mask w.value) ?_
    unfold Group.setPred Group.pred
    split
    · exact h
    · simp only [h]

theorem State.computePred_next {s : State} {e : Env} {i : Instr} {f : Form} {q : Nat} {reads : Env → List Read}
    {writes : Env → List PredWrite} (h : Ready s e) (hf : Fits e f i) (hc : f.closes = .nothing) (hb : f.barrier = false) (hu : f.unit = false)
    (hr : ∀ r ∈ reads e.fresh, e.core.cellPoison (32 * e.reg r.reg + r.phys) = 0) :
    s.computePred i f q reads writes =
      .next (((s.clearWait e).onGroup e.gid fun g => g.writePreds q (writes e.fresh)).retire e.fresh) := by
  rw [State.computePred, State.issue_of_ready h hc hb hu hf, Env.fresh_poisonTrap, Env.poisonTrap_none e _ hr]
  rfl

/-- Retiring after a change to the predicates of the group alone. -/
theorem leaves_of_preds {s : State} {e : Env} (h : Ready s e) (q : Nat) (ws : List PredWrite)
    (hw : ∀ w ∈ ws, q ≠ 0 → e.predsOf q (32 * q + w.phys)) :
    Leaves s (((s.clearWait e).onGroup e.gid fun g => g.writePreds q ws).retire e.fresh) e { preds := e.predsOf q } ∧
    ∃ g, (((s.clearWait e).onGroup e.gid fun g => g.writePreds q ws).retire e.fresh).group? e.gid = some g ∧
      ∀ i, NMap.get g.preds 0 i = NMap.get (e.g.writePreds q ws).preds 0 i := by
  obtain ⟨h1, h2, h3, h4, h5, h6, h7, h8⟩ := State.env?_some h.env
  have hg : ((s.clearWait e).onGroup e.gid fun g => g.writePreds q ws).group? e.fresh.gid = some (e.fresh.g.writePreds q ws) := by
    simp only [State.clearWait, Env.fresh_gid, State.group?_onGroup, h1]
    rfl
  have hpr := Group.writePreds_preds e.fresh.g q ws
  obtain ⟨r1, r2, r3, r4, r5, r6⟩ := State.retire_leaves _ hg (h.awaits (by rw [hpr]))
  have hcore : (((s.clearWait e).onGroup e.gid fun g => g.writePreds q ws).retire e.fresh).core e.g.core = e.core.counted e.src e.g.pipe := by
    rw [Env.fresh_gcore, Env.fresh_gpipe] at r3
    rw [r3, State.core_onGroup, h6]
    rfl
  have hpreds : (e.fresh.g.writePreds q ws).preds = (e.g.writePreds q ws).preds := by
    exact Group.writePreds_congr q ws (by simp [Env.fresh])
  refine ⟨⟨?_, ?_, ?_, ?_, ?_, ?_, ?_, ?_⟩, _, r1, ?_⟩
  · exact congrArg (fun x : State => { x with groups := s.groups, cores := s.cores }) r5
  · rw [r6]; rfl
  · intro gid hne
    rw [r2 gid hne, State.group?_onGroup_ne _ _ hne, State.clearWait, State.group?_onGroup_ne _ _ hne]
  · intro c hc
    rw [Env.fresh_gcore] at r4
    rw [r4 c hc]
    rfl
  · rw [hcore, Core.counted_rest]
  · intro i _
    rw [hcore, Core.counted_cell, Core.counted_cellPoison]
    exact ⟨rfl, rfl⟩
  · refine ⟨_, r1, ?_, ?_, ?_⟩
    · rw [hpr, Group.retired_preds]
      exact Group.retired_rest e _
    · rw [hpr, Group.retired_preds]
      have := Group.retired_advances e h5 (s.issueNo + 1)
      refine ⟨this.slot, fun x hx => ?_, this.access, this.stream, this.issued, this.prefer⟩
      rw [← this.others x hx]
      cases x <;> rfl
    · intro i hi
      rw [Group.retired_keeps_preds, hpreds]
      refine Group.writePreds_ne _ _ _ ?_
      by_cases hq : q = 0
      · exact Or.inl hq
      · exact Or.inr fun w hm hh => hi (hh ▸ hw w hm hq)
  · intro core team place
    refine (fun v => ⟨fun _ => And.left v, fun _ => And.right v⟩) (State.view_congr ?_ ?_ core team place)
    · exact congrArg (fun x : State => { x with groups := s.groups, cores := s.cores }) r5
    · intro c
      by_cases hc : c = e.g.core
      · subst hc
        refine Core.sameMemories_of_rest ?_
        rw [hcore, ← h6, Core.counted_rest]
      · rw [Env.fresh_gcore] at r4
        rw [r4 c hc]
        exact ⟨rfl, rfl, rfl, rfl, rfl, rfl, rfl⟩
  · intro i
    rw [Group.retired_keeps_preds, hpreds]

theorem predBits_getLsbD {w j i : Nat} :
    (predBits w j).getLsbD i = (decide (i < 8) && (decide (w / 8 * j ≤ i) && decide (i < w / 8 * j + w / 8))) := by
  simp only [predBits, BitVec.getLsbD_ofNat, Nat.testBit_mul_two_pow]
  by_cases h : w / 8 * j ≤ i
  · simp only [h, decide_true, Bool.true_and, Nat.testBit_two_pow_sub_one]
    congr 1
    exact decide_eq_decide.2 (by omega)
  · simp [h]

theorem getLsbD_foldl_orByte (ss : List Nat) (f : Nat → Byte) (m : Byte) (i : Nat) :
    (ss.foldl (fun m s => m ||| f s) m).getLsbD i = (m.getLsbD i || ss.any fun s => (f s).getLsbD i) := by
  induction ss generalizing m with
  | nil => simp
  | cons a ss ih => simp [ih, Bool.or_assoc]

theorem foldl_if_or (ss : List Nat) (c : Nat → Bool) (f : Nat → Byte) (m : Byte) :
    ss.foldl (fun m s => if c s then m ||| f s else m) m = ss.foldl (fun m s => m ||| if c s then f s else 0) m := by
  induction ss generalizing m with
  | nil => rfl
  | cons a ss ih =>
    rw [List.foldl_cons, List.foldl_cons, ih]
    congr 1
    split <;> simp

/-- A condition in a predicate. -/
theorem State.computePred_conds {s : State} {e : Env} {i : Instr} {f : Form} {q w : Nat} {p : Option Nat} {reads : Env → List Read}
    {F : Env → Nat → Nat → Nat → Bool} (h : Ready s e) (hf : Fits e f i) (hc : f.closes = .nothing) (hb : f.barrier = false) (hu : f.unit = false)
    (hr : ∀ r ∈ reads e.fresh, e.core.cellPoison (32 * e.reg r.reg + r.phys) = 0)
    (hw : w = 8 ∨ w = 16 ∨ w = 32 ∨ w = 64) :
    ∃ t, s.computePred i f q reads (fun e => e.condWrites p w (F e)) = .next t ∧ WritesPred s t e q p w (F e.fresh) := by
  refine ⟨_, State.computePred_next h hf hc hb hu hr, ?_⟩
  rw [Env.fresh_condWrites]
  have hph : ∀ x ∈ e.condWrites p w (F e.fresh), q ≠ 0 → e.predsOf q (32 * q + x.phys) := by
    intro x hx hq
    simp only [Env.condWrites, List.mem_map] at hx
    obtain ⟨⟨k, l⟩, h1, rfl⟩ := hx
    have := e.mem_cells.1 h1
    exact ⟨hq, k, this.1, l, this.2, rfl⟩
  obtain ⟨hl, g0, hg0, hv⟩ := leaves_of_preds h q (e.condWrites p w (F e.fresh)) hph
  refine ⟨?_, hl⟩
  intro hq k hk l hl' j hj g hg i h1 h2
  rw [hg0] at hg
  cases hg
  have hmem : ({ phys := e.phys k l
                 mask := (e.subs p w k l).foldl (fun m s => m ||| predBits w s) 0
                 value := (e.subs p w k l).foldl (fun m s => if F e.fresh k l s then m ||| predBits w s else m) 0 } : PredWrite) ∈
      e.condWrites p w (F e.fresh) := List.mem_map.2 ⟨(k, l), e.mem_cells.2 ⟨hk, hl'⟩, rfl⟩
  have hone := Group.writePreds_one e.g hq _ _ hmem (by
    intro x hx hxp
    simp only [Env.condWrites, List.mem_map] at hx
    obtain ⟨⟨k', l'⟩, h3, rfl⟩ := hx
    obtain ⟨rfl, rfl⟩ := e.phys_inj (e.mem_cells.1 h3).1 hk hxp
    rfl)
  have hp : g0.pred q (e.phys k l) = (e.g.writePreds q (e.condWrites p w (F e.fresh))).pred q (e.phys k l) := by
    simp only [Group.pred, hq, ↓reduceIte, hv]
  rw [hp, hone]
  have hi8 : i < 8 := by rcases hw with rfl | rfl | rfl | rfl <;> omega
  have hlt : i < w / 8 * j + w / 8 := by rw [Nat.mul_succ] at h2; exact h2
  have hb : ∀ s', (predBits w s').getLsbD i = decide (s' = j) := by
    intro s'
    rw [predBits_getLsbD]
    by_cases hs : s' = j
    · subst hs; simp [hi8, h1, hlt]
    · have : ¬ (w / 8 * s' ≤ i ∧ i < w / 8 * s' + w / 8) := by
        rintro ⟨h3, h4⟩
        refine hs (sub_disjoint (w := w / 8) (i := i - w / 8 * j) ?_ ?_ ?_) <;> omega
      simp only [hs, decide_false, hi8, decide_true, Bool.true_and]
      rw [← Bool.decide_and]
      simpa using this
  have hmask : ((e.subs p w k l).foldl (fun m s => m ||| predBits w s) (0 : Byte)).getLsbD i = e.acts p w k l j := by
    rw [getLsbD_foldl_orByte]
    simp only [hb, BitVec.ofNat_eq_ofNat, BitVec.getLsbD_zero, Bool.false_or]
    rw [Bool.eq_iff_iff, List.any_eq_true]
    simp only [decide_eq_true_eq, exists_eq_right]
    exact mem_activeSubs hj
  have hval : ((e.subs p w k l).foldl (fun m s => if F e.fresh k l s then m ||| predBits w s else m) (0 : Byte)).getLsbD i =
      (e.acts p w k l j && F e.fresh k l j) := by
    rw [foldl_if_or, getLsbD_foldl_orByte]
    have hb2 : ∀ s', (if F e.fresh k l s' then predBits w s' else (0 : Byte)).getLsbD i = (decide (s' = j) && F e.fresh k l j) := by
      intro s'
      by_cases hs : s' = j
      · subst hs
        cases F e.fresh k l s' <;> simp [hb]
      · split <;> simp [hb, hs]
    simp only [BitVec.ofNat_eq_ofNat, BitVec.getLsbD_zero, Bool.false_or]
    simp only [BitVec.ofNat_eq_ofNat] at hb2
    simp only [hb2]
    rw [Bool.eq_iff_iff, List.any_eq_true]
    simp only [Bool.and_eq_true, decide_eq_true_eq]
    constructor
    · rintro ⟨x, hx, rfl, hf⟩
      exact ⟨(mem_activeSubs hj).1 hx, hf⟩
    · rintro ⟨ha, hf⟩
      exact ⟨j, (mem_activeSubs hj).2 ha, rfl, hf⟩
  rw [BitVec.getLsbD_or, BitVec.getLsbD_and, BitVec.getLsbD_and, BitVec.getLsbD_not, hmask, hval]
  cases e.acts p w k l j <;> simp only [hi8, decide_true, Bool.not_false, Bool.not_true, Bool.and_true, Bool.and_false, Bool.false_and,
    Bool.true_and, Bool.or_false, Bool.false_or, Bool.false_eq_true, ↓reduceIte]

end Sys2Proof.Machine
end

