-- ==== Sys2Proof/Laws/Memory.lean ====
section
/-! SUPPORT. The operations of memory keep its canonical form, and a byte that is written reads back. -/

namespace Sys2Proof.Machine

/-- One state's memory is canonical if another's is. -/
def KeepsForm (s t : State) : Prop := s.MemoryCanonical → t.MemoryCanonical

theorem KeepsForm.refl (s : State) : KeepsForm s s := id
theorem KeepsForm.trans {s t u : State} (h : KeepsForm s t) (h' : KeepsForm t u) : KeepsForm s u := h' ∘ h
theorem KeepsForm.ofEq {s t : State} (h : t.mem = s.mem) : KeepsForm s t := fun hs => by
  unfold State.MemoryCanonical at *; rw [h]; exact hs

/-- A fold of operations that keep the form keeps it. -/
theorem KeepsForm.foldl {α : Type} (f : State → α → State) (h : ∀ s a, KeepsForm s (f s a)) (l : List α) (s : State) :
    KeepsForm s (l.foldl f s) := by
  induction l generalizing s with
  | nil => exact .refl s
  | cons a l ih => exact (h s a).trans (ih (f s a))

/-- The same, begun in a state that keeps it. -/
theorem KeepsForm.after {α : Type} {s s0 : State} (h0 : KeepsForm s s0) {f : State → α → State} (h : ∀ s a, KeepsForm s (f s a))
    {l : List α} : KeepsForm s (l.foldl f s0) := h0.trans (KeepsForm.foldl f h l s0)

/-- A fold of operations that leave memory leaves it. -/
theorem foldl_mem {α : Type} (f : State → α → State) (h : ∀ s a, (f s a).mem = s.mem) (l : List α) (s : State) :
    (l.foldl f s).mem = s.mem := by
  induction l generalizing s with
  | nil => rfl
  | cons a l ih => rw [List.foldl_cons, ih, h]

theorem Memory.wf_store (m : List Host.Cell) (a : Nat) (b : Byte) (h : Memory.wf m = true) :
    Memory.wf (NMap.store m unlistedByte a b) = true := by
  unfold Memory.wf at *
  simp only [Bool.and_eq_true, List.all_eq_true, bne_iff_ne] at *
  exact ⟨NMap.rises_store m unlistedByte a b h.1, NMap.all_store m unlistedByte a b h.2⟩

theorem Memory.wf_keep (m : List Host.Cell) (p : Nat → Byte → Bool) (h : Memory.wf m = true) : Memory.wf (NMap.keep m p) = true := by
  unfold Memory.wf at *
  simp only [Bool.and_eq_true, List.all_eq_true, bne_iff_ne] at *
  exact ⟨NMap.risesFrom_filter m _ 0 h.1, fun e he => h.2 e (List.mem_of_mem_filter he)⟩

theorem reset_memoryCanonical : State.reset.MemoryCanonical := rfl

/-! ### What leaves memory as it is -/

@[simp] theorem State.send_mem (s : State) (n : Nat) (r : HostRec) : (s.send n r).mem = s.mem := rfl
@[simp] theorem State.sendUnit_mem (s : State) (k : Nat) (d : List (Nat × Nat)) : (s.sendUnit k d).mem = s.mem := rfl
@[simp] theorem State.setChipByte_mem (s : State) (p : Nat) (b : Byte) : (s.setChipByte p b).mem = s.mem := rfl

@[simp] theorem State.setHomePoison_mem (s : State) (p : Nat) (b : BitVec 2) : (s.setHomePoison p b).mem = s.mem := by
  unfold State.setHomePoison
  split
  · rfl
  · split <;> rfl

@[simp] theorem State.setHomeBad_mem (s : State) (p : Nat) (b : Bool) : (s.setHomeBad p b).mem = s.mem := by
  unfold State.setHomeBad
  split
  · rfl
  · exact State.setHomePoison_mem s p _

@[simp] theorem State.reinstall_mem (s : State) (l : Nat) : (s.reinstall l).mem = s.mem := by
  unfold State.reinstall
  split
  · exact foldl_mem _ (fun s a => State.setHomeBad_mem s _ _) _ _
  · rfl

@[simp] theorem State.reportAccess_mem (s : State) (p : Nat) (a : Access) : (s.reportAccess p a).mem = s.mem := by
  unfold State.reportAccess; split <;> rfl

@[simp] theorem State.noteAccess_mem (s : State) (p : Nat) (a : Access) : (s.noteAccess p a).mem = s.mem := by
  unfold State.noteAccess; split
  · exact State.reportAccess_mem s p a
  · rfl

@[simp] theorem State.noteFrame_mem (s : State) (p : Nat) (a : Access) : (s.noteFrame p a).mem = s.mem := by
  unfold State.noteFrame; split
  · exact State.reportAccess_mem s _ a
  · rfl

@[simp] theorem State.takeWay_mem (s : State) (l : Nat) (a : Access) : (s.takeWay l a).mem = s.mem := rfl

@[simp] theorem State.touchWay_mem (s : State) (p : Nat) (a : Access) : (s.touchWay p a).mem = s.mem := by
  unfold State.touchWay
  dsimp only
  split
  · rfl
  · split <;> rfl

@[simp] theorem State.noteWriter_mem (s : State) (l : Nat) (a : Access) : (s.noteWriter l a).mem = s.mem := by
  unfold State.noteWriter; split <;> rfl

@[simp] theorem State.install_mem (s : State) (p : Nat) (a : Access) : (s.install p a).mem = s.mem := by
  unfold State.install
  dsimp only
  split
  · have h1 := (State.noteWriter_mem (s.reinstall (lineOf p)) (lineOf p) a).trans (State.reinstall_mem s _)
    generalize (s.reinstall (lineOf p)).noteWriter (lineOf p) a = s1 at *
    repeat' split
    all_goals first | exact h1 | exact (State.touchWay_mem _ _ _).trans ((State.noteFrame_mem _ _ _).trans h1)
  · split
    · exact (State.touchWay_mem _ _ _).trans (State.noteAccess_mem s p a)
    · rfl

@[simp] theorem State.giveUp_mem (s : State) (l : Nat) (k : Option Nat) : (s.giveUp l k).mem = s.mem := rfl

@[simp] theorem State.versionLine_mem (s : State) (t l : Nat) : (s.versionLine t l).mem = s.mem := by
  unfold State.versionLine; split <;> rfl

@[simp] theorem State.writeVersion_mem (s : State) (t p : Nat) (bs : List Byte) (bad : Bool) : (s.writeVersion t p bs bad).mem = s.mem := by
  unfold State.writeVersion
  apply foldl_mem
  intro s a
  exact State.versionLine_mem s _ _

@[simp] theorem State.forgetLine_mem (s : State) (l : Nat) : (s.forgetLine l).mem = s.mem := rfl
@[simp] theorem State.dropLine_mem (s : State) (l : Nat) : (s.dropLine l).mem = s.mem := rfl

@[simp] theorem State.dropVersion_mem (s : State) (t : Nat) : (s.dropVersion t).mem = s.mem := rfl
@[simp] theorem State.unpin_mem (s : State) (t : Nat) : (s.unpin t).mem = s.mem := rfl

@[simp] theorem State.pinLanes_mem (s : State) (g : Group) (n : Nat) (l : List LaneAcc) : (s.pinLanes g n l).mem = s.mem := by
  unfold State.pinLanes; split <;> rfl

@[simp] theorem State.takeCommand_mem (s : State) : s.takeCommand.mem = s.mem := rfl
@[simp] theorem State.completeCommand_mem (s : State) (x r : Nat) : (s.completeCommand x r).mem = s.mem := rfl
@[simp] theorem State.answer_mem (s : State) (a : HostAnswer) : (s.answer a).mem = s.mem := rfl

/-! ### What writes memory -/

theorem State.setMemByte_keeps (s : State) (p : Nat) (b : Byte) : KeepsForm s (s.setMemByte p b) := by
  intro h
  unfold State.setMemByte
  split
  · exact h
  · exact Memory.wf_store s.mem p b h

theorem State.setHomeByte_keeps (s : State) (p : Nat) (b : Byte) : KeepsForm s (s.setHomeByte p b) := by
  unfold State.setHomeByte
  split
  · exact .ofEq rfl
  · split
    · exact State.setMemByte_keeps s p b
    · exact .ofEq rfl

theorem State.writeHome_keeps (s : State) (p : Nat) (bs : List Byte) (bad : Bool) (a : Access) (k : Option Nat) :
    KeepsForm s (s.writeHome p bs bad a k) := by
  unfold State.writeHome
  dsimp only
  refine (KeepsForm.ofEq (foldl_mem _ (fun s p => State.install_mem s p { a with write := true }) (firstInLines p bs.length) s)).trans ?_
  generalize (firstInLines p bs.length).foldl (fun s p => s.install p { a with write := true }) s = s1
  have h1 : KeepsForm s1 ((bs.zipIdx p).foldl (fun s (e : Byte × Nat) => s.setHomeByte e.2 e.1) s1) := by
    apply KeepsForm.foldl
    intro s a
    exact State.setHomeByte_keeps s _ _
  refine h1.trans (.ofEq ?_)
  rw [apply_ite State.mem, foldl_mem _ (fun s p => State.giveUp_mem s (lineOf p) k), ite_self]
  apply foldl_mem
  intro s w
  repeat' split
  all_goals first | rfl | exact State.setHomeBad_mem s _ _ | exact State.setHomePoison_mem s _ _

theorem State.landWrite_keeps (s : State) (c : Nat) (w : L1Write) : KeepsForm s (s.landWrite c w) := State.writeHome_keeps s _ _ _ _ _

theorem State.drainRange_keeps (s : State) (c lo n : Nat) : KeepsForm s (s.drainRange c lo n) := by
  unfold State.drainRange
  dsimp only
  apply KeepsForm.after (.ofEq (State.setCore_mem _ _ _))
  intro s a
  exact State.landWrite_keeps s _ _

@[simp] theorem State.dropTags_mem (s : State) (cs : List Nat) (p n : Nat) : (s.dropTags cs p n).mem = s.mem := rfl

theorem State.tlbFill_keeps (s : State) (c : Nat) (e : TlbEntry) : KeepsForm s (s.tlbFill c e) := by
  unfold State.tlbFill
  dsimp only
  refine KeepsForm.trans ?_ (.ofEq (State.onCore_mem _ _ _))
  apply KeepsForm.foldl
  intro s a
  split
  · refine KeepsForm.trans ?_ (.ofEq ((State.onCore_mem _ _ _).trans (foldl_mem _ (fun s a => State.dropTags_mem s _ _ _) _ _)))
    apply KeepsForm.foldl
    intro s a
    apply KeepsForm.foldl
    intro s a
    exact State.drainRange_keeps s _ _ _
  · exact .refl _

theorem State.pteOr_keeps (s : State) (a m : Nat) : KeepsForm s (s.pteOr a m) := State.writeHome_keeps s _ _ _ _ _

theorem State.walkFill_keeps (s : State) (c x r v : Nat) (w : Bool) : KeepsForm s (s.walkFill c x r v w) := by
  unfold State.walkFill
  split
  · split
    · split
      · exact (State.pteOr_keeps s _ _).trans (State.tlbFill_keeps _ _ _)
      · exact State.tlbFill_keeps _ _ _
    · apply KeepsForm.foldl
      intro s a
      exact .ofEq (State.onCore_mem _ _ _)
  · split
    · refine KeepsForm.trans ?_ (State.tlbFill_keeps _ _ _)
      exact (KeepsForm.ofEq (foldl_mem _ (fun s a => State.install_mem s a _) _ _)).trans (State.pteOr_keeps _ _ _)
    · exact .refl _

theorem State.touch_keeps (s : State) (w : Who) (v : Nat) (k : AccKind) : KeepsForm s (s.touch w v k) := by
  unfold State.touch
  split
  · exact .refl _
  · exact State.walkFill_keeps s _ _ _ _ _

theorem State.touchRange_keeps (s : State) (w : Who) (v n : Nat) (k : AccKind) : KeepsForm s (s.touchRange w v n k) := by
  unfold State.touchRange
  apply KeepsForm.foldl
  intro s a
  exact State.touch_keeps s _ _ _

theorem State.touchLanes_keeps (s : State) (w : Who) (l : List (Nat × Nat)) (k : AccKind) : KeepsForm s (s.touchLanes w l k) := by
  unfold State.touchLanes
  apply KeepsForm.foldl
  intro s a
  exact State.touch_keeps s _ _ _

theorem State.writeAtHome_keeps (s : State) (gid : Nat) (g : Group) (p : Nat) (bs : List Byte) (cache : Nat) (image bad : Bool) :
    KeepsForm s (s.writeAtHome gid g p bs cache image bad) := by
  unfold State.writeAtHome
  split
  · exact .ofEq (State.writeVersion_mem s _ _ _ _)
  · exact (State.drainRange_keeps s _ _ _).trans (State.writeHome_keeps _ _ _ _ _ _)

theorem State.l1Use_mem (s : State) (c l p : Nat) : (s.l1Use c l p).mem = s.mem := by
  unfold State.l1Use
  dsimp only
  repeat' split
  all_goals rfl

theorem State.writeOwn_keeps (s : State) (gid : Nat) (g : Group) (op p : Nat) (bs : List Byte) (cache : Nat) (image bad : Bool) :
    KeepsForm s (s.writeOwn gid g op p bs cache image bad) := by
  unfold State.writeOwn
  split
  · exact State.writeAtHome_keeps s _ _ _ _ _ _ _
  · refine .ofEq ?_
    exact (State.onCore_mem _ _ _).trans (State.l1Use_mem s _ _ _)

theorem State.drainAll_keeps (s : State) (c : Nat) : KeepsForm s (s.drainAll c) := by
  unfold State.drainAll
  dsimp only
  apply KeepsForm.after (.ofEq (State.setCore_mem _ _ _))
  intro s a
  exact State.landWrite_keeps s _ _

theorem State.release_keeps (s : State) (g : Group) (n : Nat) : KeepsForm s (s.release g n) := by
  unfold State.release
  split
  · exact .refl _
  · exact .trans (State.drainAll_keeps s _) (.ofEq rfl)

theorem State.drainNth_keeps (s : State) (c k : Nat) : KeepsForm s (s.drainNth c k) := by
  unfold State.drainNth
  dsimp only
  split
  · exact .refl _
  · split
    · exact .refl _
    · exact KeepsForm.trans (.ofEq (State.onCore_mem _ _ _)) (State.landWrite_keeps _ _ _)

theorem State.writeBack_keeps (s : State) (l : Nat) (k : Option Traffic) : KeepsForm s (s.writeBack l k) := by
  unfold State.writeBack
  dsimp only
  split
  · exact .refl _
  · rename_i pa _
    have h1 : (if s.dirtyLine l then s.reportAccess pa else s).mem = s.mem := by
      split
      · exact State.reportAccess_mem s pa {}
      · rfl
    refine (KeepsForm.ofEq (t := if s.dirtyLine l && isHbm pa && !s.unreachable pa then _ else _) ?_).trans (KeepsForm.foldl _ ?_ _ _)
    · rw [apply_ite State.mem]
      exact (ite_self _).trans h1
    · intro s a
      exact State.setMemByte_keeps s _ _

@[simp] theorem State.holdWhole_mem (s : State) (l : Nat) : (s.holdWhole l).mem = s.mem := by simp only [State.holdWhole]

theorem State.setBacking_keeps (s : State) (p e : Nat) : KeepsForm s (s.setBacking p e) := by
  unfold State.setBacking
  dsimp only
  exact (KeepsForm.ofEq (foldl_mem _ State.holdWhole_mem _ _)).trans (State.writeHome_keeps _ _ _ _ _ _)

theorem State.takeFrame_keeps (s : State) (p : Nat) : KeepsForm s (s.takeFrame p).1 := by
  unfold State.takeFrame
  dsimp only
  split
  · exact .refl _
  · exact State.writeHome_keeps s _ _ _ _ _

theorem State.giveFrame_keeps (s : State) (p f : Nat) : KeepsForm s (s.giveFrame p f) :=
  (State.writeHome_keeps s _ _ _ _ _).trans (State.writeHome_keeps _ _ _ _ _ _)

theorem State.setTail_keeps (s : State) (q n : Nat) : KeepsForm s (s.setTail q n) := State.writeHome_keeps s _ _ _ _ _
theorem State.setHead_keeps (s : State) (q n : Nat) : KeepsForm s (s.setHead q n) := State.writeHome_keeps s _ _ _ _ _
theorem State.setMapped_keeps (s : State) (q : Nat) (b : Bool) : KeepsForm s (s.setMapped q b) := State.writeHome_keeps s _ _ _ _ _
theorem State.clearPending_keeps (s : State) (q : Nat) : KeepsForm s (s.clearPending q) := State.writeHome_keeps s _ _ _ _ _
theorem State.setPending_keeps (s : State) (q : Nat) : KeepsForm s (s.setPending q) :=
  KeepsForm.trans (State.writeHome_keeps s _ _ _ _ _) (.ofEq (State.onDie_mem _ _ _))

theorem State.ctxTouch_keeps (s : State) (c v : Nat) (w : Bool) : KeepsForm s (s.ctxTouch c v w) := by
  unfold State.ctxTouch
  split
  · exact State.pteOr_keeps s _ _
  · exact .refl _

theorem State.performPosted_keeps (s : State) (n : Nat) : KeepsForm s (s.performPosted n) := by
  induction n generalizing s with
  | zero => exact .refl _
  | succ n ih =>
    unfold State.performPosted
    split
    · exact .refl _
    · split
      · exact .refl _
      · refine KeepsForm.trans ?_ (ih _)
        intro h
        exact State.writeHome_keeps _ _ _ _ _ _ h

/-! ### A byte written reads back -/

theorem State.homeByte_setChipByte (s : State) (p : Nat) (b : Byte) (h : isChip p = true) : (s.setChipByte p b).homeByte p = b := by
  have hc : ∀ f : Core → Core, (s.onCore ((p - chipBase) / 2 ^ 24) f).core ((p - chipBase) / 2 ^ 24) = f (s.core ((p - chipBase) / 2 ^ 24)) := by
    intro f; simp [State.onCore, State.setCore, State.core]
  unfold State.homeByte State.setChipByte State.chipByte
  rw [if_pos h]
  dsimp only
  rw [hc]
  by_cases h1 : (p - chipBase) % 2 ^ 24 < 0x200000
  · simp only [h1, ↓reduceIte, NMap.find_put_self]
  · by_cases h2 : (p - chipBase) % 2 ^ 24 < 0x400000
    · simp only [h1, h2, ↓reduceIte, NMap.get_store_self]
    · simp only [h1, h2, ↓reduceIte, NMap.get_store_self]

theorem isHbm_of_isHost {p : Nat} (h : isHost p = true) : isHbm p = false := by
  unfold isHost hostBase at h
  unfold isHbm adobeBase
  simp only [Bool.and_eq_true, decide_eq_true_eq] at h
  simp only [decide_eq_false_iff_not]
  omega

/-- A byte written at its home is what its home then holds. -/
theorem State.homeByte_setHomeByte (s : State) (p : Nat) (b : Byte) : (s.setHomeByte p b).homeByte p = b := by
  by_cases hc : isChip p = true
  · unfold State.setHomeByte; rw [if_pos hc]; exact State.homeByte_setChipByte s p b hc
  · by_cases hh : isHost p = true
    · have hu : s.unreachable p = false := by simp [State.unreachable, isHbm_of_isHost hh]
      simp [State.setHomeByte, State.homeByte, hc, hh, State.setMemByte, hu, State.memByte]
    · simp [State.setHomeByte, State.homeByte, hc, hh]

end Sys2Proof.Machine
end

