-- ==== Sys2Proof/Laws/PerInstr.lean ====
section
/-! SUPPORT. Decoding gives back what was encoded, instruction by instruction (R60 to R64). -/

namespace Sys2Proof.Laws

theorem fieldAt_eq {n : Nat} (f : BitVec n) (lo w : Nat) (h : w / 2 ^ lo % 2 ^ n = f.toNat) : fieldAt n lo w = f := by
  apply BitVec.eq_of_toNat_eq; simp [fieldAt, h]

theorem decodeForm_0 (w : Nat) (h : w / 2 ^ 27 = 0) : decodeForm w = decodeSys w := by
  have : bits w 31 27 = 0 := by simp only [bits]; omega
  simp only [decodeForm, this]
theorem decodeForm_1 (w : Nat) (h : w / 2 ^ 27 = 1) : decodeForm w = decodeHint w := by
  have : bits w 31 27 = 1 := by simp only [bits]; omega
  simp only [decodeForm, this]
theorem decodeForm_2 (w : Nat) (h : w / 2 ^ 27 = 2) : decodeForm w = decodeBr w := by
  have : bits w 31 27 = 2 := by simp only [bits]; omega
  simp only [decodeForm, this]
theorem decodeForm_3 (w : Nat) (h : w / 2 ^ 27 = 3) : decodeForm w = decodeCall w := by
  have : bits w 31 27 = 3 := by simp only [bits]; omega
  simp only [decodeForm, this]
theorem decodeForm_4 (w : Nat) (h : w / 2 ^ 27 = 4) : decodeForm w = decodeIalu w := by
  have : bits w 31 27 = 4 := by simp only [bits]; omega
  simp only [decodeForm, this]
theorem decodeForm_5 (w : Nat) (h : w / 2 ^ 27 = 5) : decodeForm w = decodeIalui w := by
  have : bits w 31 27 = 5 := by simp only [bits]; omega
  simp only [decodeForm, this]
theorem decodeForm_6 (w : Nat) (h : w / 2 ^ 27 = 6) : decodeForm w = decodeLogic w := by
  have : bits w 31 27 = 6 := by simp only [bits]; omega
  simp only [decodeForm, this]
theorem decodeForm_7 (w : Nat) (h : w / 2 ^ 27 = 7) : decodeForm w = decodeLogici w := by
  have : bits w 31 27 = 7 := by simp only [bits]; omega
  simp only [decodeForm, this]
theorem decodeForm_8 (w : Nat) (h : w / 2 ^ 27 = 8) : decodeForm w = decodeCmp w := by
  have : bits w 31 27 = 8 := by simp only [bits]; omega
  simp only [decodeForm, this]
theorem decodeForm_9 (w : Nat) (h : w / 2 ^ 27 = 9) : decodeForm w = decodeCmpi w := by
  have : bits w 31 27 = 9 := by simp only [bits]; omega
  simp only [decodeForm, this]
theorem decodeForm_10 (w : Nat) (h : w / 2 ^ 27 = 10) : decodeForm w = decodeFalu w := by
  have : bits w 31 27 = 10 := by simp only [bits]; omega
  simp only [decodeForm, this]
theorem decodeForm_11 (w : Nat) (h : w / 2 ^ 27 = 11) : decodeForm w = decodeFma w := by
  have : bits w 31 27 = 11 := by simp only [bits]; omega
  simp only [decodeForm, this]
theorem decodeForm_12 (w : Nat) (h : w / 2 ^ 27 = 12) : decodeForm w = decodeCvt w := by
  have : bits w 31 27 = 12 := by simp only [bits]; omega
  simp only [decodeForm, this]
theorem decodeForm_13 (w : Nat) (h : w / 2 ^ 27 = 13) : decodeForm w = decodeXlane w := by
  have : bits w 31 27 = 13 := by simp only [bits]; omega
  simp only [decodeForm, this]
theorem decodeForm_14 (w : Nat) (h : w / 2 ^ 27 = 14) : decodeForm w = decodeVote w := by
  have : bits w 31 27 = 14 := by simp only [bits]; omega
  simp only [decodeForm, this]
theorem decodeForm_15 (w : Nat) (h : w / 2 ^ 27 = 15) : decodeForm w = decodeSfu w := by
  have : bits w 31 27 = 15 := by simp only [bits]; omega
  simp only [decodeForm, this]
theorem decodeForm_16 (w : Nat) (h : w / 2 ^ 27 = 16) : decodeForm w = decodeLd w := by
  have : bits w 31 27 = 16 := by simp only [bits]; omega
  simp only [decodeForm, this]
theorem decodeForm_17 (w : Nat) (h : w / 2 ^ 27 = 17) : decodeForm w = decodeSt w := by
  have : bits w 31 27 = 17 := by simp only [bits]; omega
  simp only [decodeForm, this]
theorem decodeForm_18 (w : Nat) (h : w / 2 ^ 27 = 18) : decodeForm w = decodeAtom w := by
  have : bits w 31 27 = 18 := by simp only [bits]; omega
  simp only [decodeForm, this]
theorem decodeForm_19 (w : Nat) (h : w / 2 ^ 27 = 19) : decodeForm w = decodeSync w := by
  have : bits w 31 27 = 19 := by simp only [bits]; omega
  simp only [decodeForm, this]
theorem decodeForm_20 (w : Nat) (h : w / 2 ^ 27 = 20) : decodeForm w = decodeQueue w := by
  have : bits w 31 27 = 20 := by simp only [bits]; omega
  simp only [decodeForm, this]
theorem decodeForm_21 (w : Nat) (h : w / 2 ^ 27 = 21) : decodeForm w = decodeShape w := by
  have : bits w 31 27 = 21 := by simp only [bits]; omega
  simp only [decodeForm, this]
theorem decodeForm_22 (w : Nat) (h : w / 2 ^ 27 = 22) : decodeForm w = decodeTile w := by
  have : bits w 31 27 = 22 := by simp only [bits]; omega
  simp only [decodeForm, this]
theorem decodeForm_23 (w : Nat) (h : w / 2 ^ 27 = 23) : decodeForm w = decodeMma w := by
  have : bits w 31 27 = 23 := by simp only [bits]; omega
  simp only [decodeForm, this]
theorem decodeForm_24 (w : Nat) (h : w / 2 ^ 27 = 24) : decodeForm w = decodeCopy w := by
  have : bits w 31 27 = 24 := by simp only [bits]; omega
  simp only [decodeForm, this]
theorem decodeForm_25 (w : Nat) (h : w / 2 ^ 27 = 25) : decodeForm w = decodeBar w := by
  have : bits w 31 27 = 25 := by simp only [bits]; omega
  simp only [decodeForm, this]
theorem decodeForm_26 (w : Nat) (h : w / 2 ^ 27 = 26) : decodeForm w = decodePage w := by
  have : bits w 31 27 = 26 := by simp only [bits]; omega
  simp only [decodeForm, this]
theorem decodeForm_27 (w : Nat) (h : w / 2 ^ 27 = 27) : decodeForm w = decodeBal w := by
  have : bits w 31 27 = 27 := by simp only [bits]; omega
  simp only [decodeForm, this]
theorem decodeForm_28 (w : Nat) (h : w / 2 ^ 27 = 28) : decodeForm w = decodeTrap w := by
  have : bits w 31 27 = 28 := by simp only [bits]; omega
  simp only [decodeForm, this]
theorem decodeForm_29 (w : Nat) (h : w / 2 ^ 27 = 29) : decodeForm w = decodeFrame w := by
  have : bits w 31 27 = 29 := by simp only [bits]; omega
  simp only [decodeForm, this]
theorem decodeForm_30 (w : Nat) (h : w / 2 ^ 27 = 30) : decodeForm w = decodeRng w := by
  have : bits w 31 27 = 30 := by simp only [bits]; omega
  simp only [decodeForm, this]

/-- What the family says of an instruction. -/
def RoundTrip.Statement (i : Instr) : Prop := i.wellFormed = true → ∃ w, encode i = some w ∧ decode w = .ok i

/-- A word whose major opcode is assigned decodes to the row that has its fixed bits. -/
theorem RoundTrip.of {i : Instr} (w : Nat) (he : encodeNat i = w) (hw : i.isWord = true) (hl : w / 2 ^ 27 < 31)
    (hd : i.wellFormed = true → decodeForm w = some i) : RoundTrip.Statement i := by
  subst he
  intro h
  refine ⟨BitVec.ofNat 32 (encodeNat i), by simp [encode, hw], ?_⟩
  have hn : (BitVec.ofNat 32 (encodeNat i)).toNat = encodeNat i := by simp; omega
  have hm : bits (encodeNat i) 31 27 ≠ 31 := by simp only [bits]; omega
  have hg : i.defect = none := by simpa [Instr.wellFormed] using h
  unfold decode
  rw [hn]
  simp only [hm, if_false, hd h, hg]

namespace RoundTrip

/-- The first check of a form whose word passes. -/
theorem checked {q : Prop} [Decidable q] {x : Bool} {d e f : Defect}
    (h : (Instr.firstDefect [(true, d), (decide q, e), (x, f)]).isNone = true) : q := by
  by_contra hc
  simp [Instr.firstDefect, hc] at h

theorem illegal (i : BitVec 21) : Statement (.illegal i) := by
  have := i.isLt
  generalize hw : word 0x0 [place i 0] = z
  refine of z hw rfl ?_ ?_ <;> simp only [word, place, Nat.reducePow] at hw
  · omega
  · intro _
    rw [decodeForm_0 z (by omega), decodeSys, if_pos (by simp only [bits]; omega), fieldAt_eq i 0 z (by omega)]
theorem nop (x : BitVec 21) : Statement (.nop x) := by
  have := x.isLt
  generalize hw : word 0x200000 [place x 0] = z
  refine of z hw rfl ?_ ?_ <;> simp only [word, place, Nat.reducePow] at hw
  · omega
  · intro _
    rw [decodeForm_0 z (by omega), decodeSys, if_neg (by simp only [bits]; omega), if_pos (by simp only [bits]; omega), fieldAt_eq x 0 z (by omega)]
theorem syscall (c : BitVec 21) : Statement (.syscall c) := by
  have := c.isLt
  generalize hw : word 0x400000 [place c 0] = z
  refine of z hw rfl ?_ ?_ <;> simp only [word, place, Nat.reducePow] at hw
  · omega
  · intro _
    rw [decodeForm_0 z (by omega), decodeSys, if_neg (by simp only [bits]; omega), if_neg (by simp only [bits]; omega), if_pos (by simp only [bits]; omega), fieldAt_eq c 0 z (by omega)]
theorem crrd (d : BitVec 6) (n : BitVec 8) : Statement (.crrd d n) := by
  have := d.isLt; have := n.isLt
  generalize hw : word 0x600000 [place d 15, place n 7] = z
  refine of z hw rfl ?_ ?_ <;> simp only [word, place, Nat.reducePow] at hw
  · omega
  · intro _
    rw [decodeForm_0 z (by omega), decodeSys, if_neg (by simp only [bits]; omega), if_neg (by simp only [bits]; omega), if_neg (by simp only [bits]; omega), if_pos (by simp only [bits]; omega), fieldAt_eq d 15 z (by omega), fieldAt_eq n 7 z (by omega)]
theorem crwr (s : BitVec 6) (n : BitVec 8) : Statement (.crwr s n) := by
  have := s.isLt; have := n.isLt
  generalize hw : word 0x800000 [place s 15, place n 7] = z
  refine of z hw rfl ?_ ?_ <;> simp only [word, place, Nat.reducePow] at hw
  · omega
  · intro _
    rw [decodeForm_0 z (by omega), decodeSys, if_neg (by simp only [bits]; omega), if_neg (by simp only [bits]; omega), if_neg (by simp only [bits]; omega), if_neg (by simp only [bits]; omega), if_pos (by simp only [bits]; omega), fieldAt_eq s 15 z (by omega), fieldAt_eq n 7 z (by omega)]
theorem enq (a : BitVec 6) (q : BitVec 15) : Statement (.enq a q) := by
  have := a.isLt; have := q.isLt
  generalize hw : word 0xa00000 [place a 15, place q 0] = z
  refine of z hw rfl ?_ ?_ <;> simp only [word, place, Nat.reducePow] at hw
  · omega
  · intro _
    rw [decodeForm_0 z (by omega), decodeSys, if_neg (by simp only [bits]; omega), if_neg (by simp only [bits]; omega), if_neg (by simp only [bits]; omega), if_neg (by simp only [bits]; omega), if_neg (by simp only [bits]; omega), if_pos (by simp only [bits]; omega), fieldAt_eq a 15 z (by omega), fieldAt_eq q 0 z (by omega)]
theorem himm (i : BitVec 24) : Statement (.himm i) := by
  have := i.isLt
  generalize hw : word 0x8000000 [place i 0] = z
  refine of z hw rfl ?_ ?_ <;> simp only [word, place, Nat.reducePow] at hw
  · omega
  · intro _
    rw [decodeForm_1 z (by omega), decodeHint, if_pos (by simp only [bits]; omega), fieldAt_eq i 0 z (by omega)]
theorem himmhi (i : BitVec 24) : Statement (.himmhi i) := by
  have := i.isLt
  generalize hw : word 0x9000000 [place i 0] = z
  refine of z hw rfl ?_ ?_ <;> simp only [word, place, Nat.reducePow] at hw
  · omega
  · intro _
    rw [decodeForm_1 z (by omega), decodeHint, if_neg (by simp only [bits]; omega), if_pos (by simp only [bits]; omega), fieldAt_eq i 0 z (by omega)]
theorem hmod (e : BitVec 1) (r : BitVec 3) (s : BitVec 1) (n : BitVec 1) (x : BitVec 1) (o : BitVec 3) (c : BitVec 1) (k : BitVec 3) : Statement (.hmod e r s n x o c k) := by
  have := e.isLt; have := r.isLt; have := s.isLt; have := n.isLt; have := x.isLt; have := o.isLt; have := c.isLt; have := k.isLt
  generalize hw : word 0xa000000 [place e 23, place r 20, place s 19, place n 18, place x 17, place o 14, place c 13, place k 10] = z
  refine of z hw rfl ?_ ?_ <;> simp only [word, place, Nat.reducePow] at hw
  · omega
  · intro _
    rw [decodeForm_1 z (by omega), decodeHint, if_neg (by simp only [bits]; omega), if_neg (by simp only [bits]; omega), if_pos (by simp only [bits]; omega), fieldAt_eq e 23 z (by omega), fieldAt_eq r 20 z (by omega), fieldAt_eq s 19 z (by omega), fieldAt_eq n 18 z (by omega), fieldAt_eq x 17 z (by omega), fieldAt_eq o 14 z (by omega), fieldAt_eq c 13 z (by omega), fieldAt_eq k 10 z (by omega)]
theorem hsched (y : BitVec 1) (l : BitVec 4) : Statement (.hsched y l) := by
  have := y.isLt; have := l.isLt
  generalize hw : word 0xb000000 [place y 4, place l 0] = z
  refine of z hw rfl ?_ ?_ <;> simp only [word, place, Nat.reducePow] at hw
  · omega
  · intro _
    rw [decodeForm_1 z (by omega), decodeHint, if_neg (by simp only [bits]; omega), if_neg (by simp only [bits]; omega), if_neg (by simp only [bits]; omega), if_pos (by simp only [bits]; omega), fieldAt_eq y 4 z (by omega), fieldAt_eq l 0 z (by omega)]
theorem hoff (o : BitVec 24) : Statement (.hoff o) := by
  have := o.isLt
  generalize hw : word 0xc000000 [place o 0] = z
  refine of z hw rfl ?_ ?_ <;> simp only [word, place, Nat.reducePow] at hw
  · omega
  · intro _
    rw [decodeForm_1 z (by omega), decodeHint, if_neg (by simp only [bits]; omega), if_neg (by simp only [bits]; omega), if_neg (by simp only [bits]; omega), if_neg (by simp only [bits]; omega), if_pos (by simp only [bits]; omega), fieldAt_eq o 0 z (by omega)]
theorem bra (o : BitVec 24) : Statement (.bra o) := by
  have := o.isLt
  generalize hw : word 0x10000000 [place o 0] = z
  refine of z hw rfl ?_ ?_ <;> simp only [word, place, Nat.reducePow] at hw
  · omega
  · intro _
    rw [decodeForm_2 z (by omega), decodeBr, if_pos (by simp only [bits]; omega), fieldAt_eq o 0 z (by omega)]
theorem braGuarded (p : BitVec 3) (o : BitVec 21) : Statement (.braGuarded p o) := by
  have := p.isLt; have := o.isLt
  generalize hw : word 0x11000000 [place p 21, place o 0] = z
  refine of z hw rfl ?_ ?_ <;> simp only [word, place, Nat.reducePow] at hw
  · omega
  · intro _
    rw [decodeForm_2 z (by omega), decodeBr, if_neg (by simp only [bits]; omega), if_pos (by simp only [bits]; omega), fieldAt_eq p 21 z (by omega), fieldAt_eq o 0 z (by omega)]
theorem braAny (p : BitVec 3) (o : BitVec 21) : Statement (.braAny p o) := by
  have := p.isLt; have := o.isLt
  generalize hw : word 0x12000000 [place p 21, place o 0] = z
  refine of z hw rfl ?_ ?_ <;> simp only [word, place, Nat.reducePow] at hw
  · omega
  · intro _
    rw [decodeForm_2 z (by omega), decodeBr, if_neg (by simp only [bits]; omega), if_neg (by simp only [bits]; omega), if_pos (by simp only [bits]; omega), fieldAt_eq p 21 z (by omega), fieldAt_eq o 0 z (by omega)]
theorem braAll (p : BitVec 3) (o : BitVec 21) : Statement (.braAll p o) := by
  have := p.isLt; have := o.isLt
  generalize hw : word 0x13000000 [place p 21, place o 0] = z
  refine of z hw rfl ?_ ?_ <;> simp only [word, place, Nat.reducePow] at hw
  · omega
  · intro _
    rw [decodeForm_2 z (by omega), decodeBr, if_neg (by simp only [bits]; omega), if_neg (by simp only [bits]; omega), if_neg (by simp only [bits]; omega), if_pos (by simp only [bits]; omega), fieldAt_eq p 21 z (by omega), fieldAt_eq o 0 z (by omega)]
theorem reconv (k : BitVec 4) (o : BitVec 20) : Statement (.reconv k o) := by
  have := k.isLt; have := o.isLt
  generalize hw : word 0x14000000 [place k 20, place o 0] = z
  refine of z hw rfl ?_ ?_ <;> simp only [word, place, Nat.reducePow] at hw
  · omega
  · intro _
    rw [decodeForm_2 z (by omega), decodeBr, if_neg (by simp only [bits]; omega), if_neg (by simp only [bits]; omega), if_neg (by simp only [bits]; omega), if_neg (by simp only [bits]; omega), if_pos (by simp only [bits]; omega), fieldAt_eq k 20 z (by omega), fieldAt_eq o 0 z (by omega)]
theorem join (k : BitVec 4) : Statement (.join k) := by
  have := k.isLt
  generalize hw : word 0x15000000 [place k 20] = z
  refine of z hw rfl ?_ ?_ <;> simp only [word, place, Nat.reducePow] at hw
  · omega
  · intro _
    rw [decodeForm_2 z (by omega), decodeBr, if_neg (by simp only [bits]; omega), if_neg (by simp only [bits]; omega), if_neg (by simp only [bits]; omega), if_neg (by simp only [bits]; omega), if_neg (by simp only [bits]; omega), if_pos (by simp only [bits]; omega), fieldAt_eq k 20 z (by omega)]
theorem exit (p : BitVec 3) : Statement (.exit p) := by
  have := p.isLt
  generalize hw : word 0x16000000 [place p 21] = z
  refine of z hw rfl ?_ ?_ <;> simp only [word, place, Nat.reducePow] at hw
  · omega
  · intro _
    rw [decodeForm_2 z (by omega), decodeBr, if_neg (by simp only [bits]; omega), if_neg (by simp only [bits]; omega), if_neg (by simp only [bits]; omega), if_neg (by simp only [bits]; omega), if_neg (by simp only [bits]; omega), if_neg (by simp only [bits]; omega), if_pos (by simp only [bits]; omega), fieldAt_eq p 21 z (by omega)]
theorem brx (t : BitVec 6) (p : BitVec 3) : Statement (.brx t p) := by
  have := t.isLt; have := p.isLt
  generalize hw : word 0x17000000 [place t 18, place p 15] = z
  refine of z hw rfl ?_ ?_ <;> simp only [word, place, Nat.reducePow] at hw
  · omega
  · intro _
    rw [decodeForm_2 z (by omega), decodeBr, if_neg (by simp only [bits]; omega), if_neg (by simp only [bits]; omega), if_neg (by simp only [bits]; omega), if_neg (by simp only [bits]; omega), if_neg (by simp only [bits]; omega), if_neg (by simp only [bits]; omega), if_neg (by simp only [bits]; omega), if_pos (by simp only [bits]; omega), fieldAt_eq t 18 z (by omega), fieldAt_eq p 15 z (by omega)]
theorem call (d : BitVec 6) (o : BitVec 21) : Statement (.call d o) := by
  have := d.isLt; have := o.isLt
  generalize hw : word 0x18000000 [place d 21, place o 0] = z
  refine of z hw rfl ?_ ?_ <;> simp only [word, place, Nat.reducePow] at hw
  · omega
  · intro _
    rw [decodeForm_3 z (by omega), decodeCall, fieldAt_eq d 21 z (by omega), fieldAt_eq o 0 z (by omega)]
theorem ialuAdd (t : BitVec 3) (d : BitVec 6) (a : BitVec 6) (b : BitVec 6) (p : BitVec 3) : Statement (.ialuAdd t d a b p) := by
  have := t.isLt; have := d.isLt; have := a.isLt; have := b.isLt; have := p.isLt
  generalize hw : word 0x20000000 [place t 23, place d 17, place a 11, place b 5, place p 2] = z
  refine of z hw rfl ?_ ?_ <;> simp only [word, place, Nat.reducePow] at hw
  · omega
  · intro _
    rw [decodeForm_4 z (by omega), decodeIalu, if_pos (by simp only [bits]; omega), fieldAt_eq t 23 z (by omega), fieldAt_eq d 17 z (by omega), fieldAt_eq a 11 z (by omega), fieldAt_eq b 5 z (by omega), fieldAt_eq p 2 z (by omega)]
theorem ialuSub (t : BitVec 3) (d : BitVec 6) (a : BitVec 6) (b : BitVec 6) (p : BitVec 3) : Statement (.ialuSub t d a b p) := by
  have := t.isLt; have := d.isLt; have := a.isLt; have := b.isLt; have := p.isLt
  generalize hw : word 0x20000001 [place t 23, place d 17, place a 11, place b 5, place p 2] = z
  refine of z hw rfl ?_ ?_ <;> simp only [word, place, Nat.reducePow] at hw
  · omega
  · intro _
    rw [decodeForm_4 z (by omega), decodeIalu, if_neg (by simp only [bits]; omega), if_pos (by simp only [bits]; omega), fieldAt_eq t 23 z (by omega), fieldAt_eq d 17 z (by omega), fieldAt_eq a 11 z (by omega), fieldAt_eq b 5 z (by omega), fieldAt_eq p 2 z (by omega)]
theorem ialuMul (t : BitVec 3) (d : BitVec 6) (a : BitVec 6) (b : BitVec 6) (p : BitVec 3) : Statement (.ialuMul t d a b p) := by
  have := t.isLt; have := d.isLt; have := a.isLt; have := b.isLt; have := p.isLt
  generalize hw : word 0x20000002 [place t 23, place d 17, place a 11, place b 5, place p 2] = z
  refine of z hw rfl ?_ ?_ <;> simp only [word, place, Nat.reducePow] at hw
  · omega
  · intro _
    rw [decodeForm_4 z (by omega), decodeIalu, if_neg (by simp only [bits]; omega), if_neg (by simp only [bits]; omega), if_pos (by simp only [bits]; omega), fieldAt_eq t 23 z (by omega), fieldAt_eq d 17 z (by omega), fieldAt_eq a 11 z (by omega), fieldAt_eq b 5 z (by omega), fieldAt_eq p 2 z (by omega)]
theorem ialuMin (t : BitVec 3) (d : BitVec 6) (a : BitVec 6) (p : BitVec 3) : Statement (.ialuMin t d a p) := by
  have := t.isLt; have := d.isLt; have := a.isLt; have := p.isLt
  generalize hw : word 0x20000023 [place t 23, place d 17, place a 11, place p 2] = z
  refine of z hw rfl ?_ ?_ <;> simp only [word, place, Nat.reducePow] at hw
  · omega
  · intro _
    rw [decodeForm_4 z (by omega), decodeIalu, if_neg (by simp only [bits]; omega), if_neg (by simp only [bits]; omega), if_neg (by simp only [bits]; omega), if_pos (by simp only [bits]; omega), fieldAt_eq t 23 z (by omega), fieldAt_eq d 17 z (by omega), fieldAt_eq a 11 z (by omega), fieldAt_eq p 2 z (by omega)]
theorem ialuMax (t : BitVec 3) (d : BitVec 6) (a : BitVec 6) (p : BitVec 3) : Statement (.ialuMax t d a p) := by
  have := t.isLt; have := d.isLt; have := a.isLt; have := p.isLt
  generalize hw : word 0x20000043 [place t 23, place d 17, place a 11, place p 2] = z
  refine of z hw rfl ?_ ?_ <;> simp only [word, place, Nat.reducePow] at hw
  · omega
  · intro _
    rw [decodeForm_4 z (by omega), decodeIalu, if_neg (by simp only [bits]; omega), if_neg (by simp only [bits]; omega), if_neg (by simp only [bits]; omega), if_neg (by simp only [bits]; omega), if_pos (by simp only [bits]; omega), fieldAt_eq t 23 z (by omega), fieldAt_eq d 17 z (by omega), fieldAt_eq a 11 z (by omega), fieldAt_eq p 2 z (by omega)]
theorem ialuNeg (t : BitVec 3) (d : BitVec 6) (a : BitVec 6) (p : BitVec 3) : Statement (.ialuNeg t d a p) := by
  have := t.isLt; have := d.isLt; have := a.isLt; have := p.isLt
  generalize hw : word 0x20000063 [place t 23, place d 17, place a 11, place p 2] = z
  refine of z hw rfl ?_ ?_ <;> simp only [word, place, Nat.reducePow] at hw
  · omega
  · intro _
    rw [decodeForm_4 z (by omega), decodeIalu, if_neg (by simp only [bits]; omega), if_neg (by simp only [bits]; omega), if_neg (by simp only [bits]; omega), if_neg (by simp only [bits]; omega), if_neg (by simp only [bits]; omega), if_pos (by simp only [bits]; omega), fieldAt_eq t 23 z (by omega), fieldAt_eq d 17 z (by omega), fieldAt_eq a 11 z (by omega), fieldAt_eq p 2 z (by omega)]
theorem ialuAbs (t : BitVec 3) (d : BitVec 6) (a : BitVec 6) (p : BitVec 3) : Statement (.ialuAbs t d a p) := by
  have := t.isLt; have := d.isLt; have := a.isLt; have := p.isLt
  generalize hw : word 0x20000083 [place t 23, place d 17, place a 11, place p 2] = z
  refine of z hw rfl ?_ ?_ <;> simp only [word, place, Nat.reducePow] at hw
  · omega
  · intro _
    rw [decodeForm_4 z (by omega), decodeIalu, if_neg (by simp only [bits]; omega), if_neg (by simp only [bits]; omega), if_neg (by simp only [bits]; omega), if_neg (by simp only [bits]; omega), if_neg (by simp only [bits]; omega), if_neg (by simp only [bits]; omega), if_pos (by simp only [bits]; omega), fieldAt_eq t 23 z (by omega), fieldAt_eq d 17 z (by omega), fieldAt_eq a 11 z (by omega), fieldAt_eq p 2 z (by omega)]
theorem absdiff (t : BitVec 3) (d : BitVec 6) (a : BitVec 6) (p : BitVec 3) : Statement (.absdiff t d a p) := by
  have := t.isLt; have := d.isLt; have := a.isLt; have := p.isLt
  generalize hw : word 0x200000a3 [place t 23, place d 17, place a 11, place p 2] = z
  refine of z hw rfl ?_ ?_ <;> simp only [word, place, Nat.reducePow] at hw
  · omega
  · intro _
    rw [decodeForm_4 z (by omega), decodeIalu, if_neg (by simp only [bits]; omega), if_neg (by simp only [bits]; omega), if_neg (by simp only [bits]; omega), if_neg (by simp only [bits]; omega), if_neg (by simp only [bits]; omega), if_neg (by simp only [bits]; omega), if_neg (by simp only [bits]; omega), if_pos (by simp only [bits]; omega), fieldAt_eq t 23 z (by omega), fieldAt_eq d 17 z (by omega), fieldAt_eq a 11 z (by omega), fieldAt_eq p 2 z (by omega)]
theorem avg (t : BitVec 3) (d : BitVec 6) (a : BitVec 6) (p : BitVec 3) : Statement (.avg t d a p) := by
  have := t.isLt; have := d.isLt; have := a.isLt; have := p.isLt
  generalize hw : word 0x200000c3 [place t 23, place d 17, place a 11, place p 2] = z
  refine of z hw rfl ?_ ?_ <;> simp only [word, place, Nat.reducePow] at hw
  · omega
  · intro _
    rw [decodeForm_4 z (by omega), decodeIalu, if_neg (by simp only [bits]; omega), if_neg (by simp only [bits]; omega), if_neg (by simp only [bits]; omega), if_neg (by simp only [bits]; omega), if_neg (by simp only [bits]; omega), if_neg (by simp only [bits]; omega), if_neg (by simp only [bits]; omega), if_neg (by simp only [bits]; omega), if_pos (by simp only [bits]; omega), fieldAt_eq t 23 z (by omega), fieldAt_eq d 17 z (by omega), fieldAt_eq a 11 z (by omega), fieldAt_eq p 2 z (by omega)]
theorem mulhi (t : BitVec 3) (d : BitVec 6) (a : BitVec 6) (p : BitVec 3) : Statement (.mulhi t d a p) := by
  have := t.isLt; have := d.isLt; have := a.isLt; have := p.isLt
  generalize hw : word 0x200000e3 [place t 23, place d 17, place a 11, place p 2] = z
  refine of z hw rfl ?_ ?_ <;> simp only [word, place, Nat.reducePow] at hw
  · omega
  · intro _
    rw [decodeForm_4 z (by omega), decodeIalu, if_neg (by simp only [bits]; omega), if_neg (by simp only [bits]; omega), if_neg (by simp only [bits]; omega), if_neg (by simp only [bits]; omega), if_neg (by simp only [bits]; omega), if_neg (by simp only [bits]; omega), if_neg (by simp only [bits]; omega), if_neg (by simp only [bits]; omega), if_neg (by simp only [bits]; omega), if_pos (by simp only [bits]; omega), fieldAt_eq t 23 z (by omega), fieldAt_eq d 17 z (by omega), fieldAt_eq a 11 z (by omega), fieldAt_eq p 2 z (by omega)]
theorem mulw (t : BitVec 3) (d : BitVec 6) (a : BitVec 6) (p : BitVec 3) : Statement (.mulw t d a p) := by
  have := t.isLt; have := d.isLt; have := a.isLt; have := p.isLt
  generalize hw : word 0x20000103 [place t 23, place d 17, place a 11, place p 2] = z
  refine of z hw rfl ?_ ?_ <;> simp only [word, place, Nat.reducePow] at hw
  · omega
  · intro _
    rw [decodeForm_4 z (by omega), decodeIalu, if_neg (by simp only [bits]; omega), if_neg (by simp only [bits]; omega), if_neg (by simp only [bits]; omega), if_neg (by simp only [bits]; omega), if_neg (by simp only [bits]; omega), if_neg (by simp only [bits]; omega), if_neg (by simp only [bits]; omega), if_neg (by simp only [bits]; omega), if_neg (by simp only [bits]; omega), if_neg (by simp only [bits]; omega), if_pos (by simp only [bits]; omega), fieldAt_eq t 23 z (by omega), fieldAt_eq d 17 z (by omega), fieldAt_eq a 11 z (by omega), fieldAt_eq p 2 z (by omega)]
theorem addw (t : BitVec 3) (d : BitVec 6) (a : BitVec 6) (p : BitVec 3) : Statement (.addw t d a p) := by
  have := t.isLt; have := d.isLt; have := a.isLt; have := p.isLt
  generalize hw : word 0x20000123 [place t 23, place d 17, place a 11, place p 2] = z
  refine of z hw rfl ?_ ?_ <;> simp only [word, place, Nat.reducePow] at hw
  · omega
  · intro _
    rw [decodeForm_4 z (by omega), decodeIalu, if_neg (by simp only [bits]; omega), if_neg (by simp only [bits]; omega), if_neg (by simp only [bits]; omega), if_neg (by simp only [bits]; omega), if_neg (by simp only [bits]; omega), if_neg (by simp only [bits]; omega), if_neg (by simp only [bits]; omega), if_neg (by simp only [bits]; omega), if_neg (by simp only [bits]; omega), if_neg (by simp only [bits]; omega), if_neg (by simp only [bits]; omega), if_pos (by simp only [bits]; omega), fieldAt_eq t 23 z (by omega), fieldAt_eq d 17 z (by omega), fieldAt_eq a 11 z (by omega), fieldAt_eq p 2 z (by omega)]
theorem subw (t : BitVec 3) (d : BitVec 6) (a : BitVec 6) (p : BitVec 3) : Statement (.subw t d a p) := by
  have := t.isLt; have := d.isLt; have := a.isLt; have := p.isLt
  generalize hw : word 0x20000143 [place t 23, place d 17, place a 11, place p 2] = z
  refine of z hw rfl ?_ ?_ <;> simp only [word, place, Nat.reducePow] at hw
  · omega
  · intro _
    rw [decodeForm_4 z (by omega), decodeIalu, if_neg (by simp only [bits]; omega), if_neg (by simp only [bits]; omega), if_neg (by simp only [bits]; omega), if_neg (by simp only [bits]; omega), if_neg (by simp only [bits]; omega), if_neg (by simp only [bits]; omega), if_neg (by simp only [bits]; omega), if_neg (by simp only [bits]; omega), if_neg (by simp only [bits]; omega), if_neg (by simp only [bits]; omega), if_neg (by simp only [bits]; omega), if_neg (by simp only [bits]; omega), if_pos (by simp only [bits]; omega), fieldAt_eq t 23 z (by omega), fieldAt_eq d 17 z (by omega), fieldAt_eq a 11 z (by omega), fieldAt_eq p 2 z (by omega)]
theorem ialuiAdd (t : BitVec 3) (d : BitVec 6) (a : BitVec 6) (i : BitVec 11) : Statement (.ialuiAdd t d a i) := by
  have := t.isLt; have := d.isLt; have := a.isLt; have := i.isLt
  generalize hw : word 0x28000000 [place t 23, place d 17, place a 11, place i 0] = z
  refine of z hw rfl ?_ ?_ <;> simp only [word, place, Nat.reducePow] at hw
  · omega
  · intro _
    rw [decodeForm_5 z (by omega), decodeIalui, if_pos (by simp only [bits]; omega), fieldAt_eq t 23 z (by omega), fieldAt_eq d 17 z (by omega), fieldAt_eq a 11 z (by omega), fieldAt_eq i 0 z (by omega)]
theorem movImm (d : BitVec 6) (i : BitVec 11) : Statement (.movImm d i) := by
  have := d.isLt; have := i.isLt
  generalize hw : word 0x2f800000 [place d 17, place i 0] = z
  refine of z hw rfl ?_ ?_ <;> simp only [word, place, Nat.reducePow] at hw
  · omega
  · intro _
    rw [decodeForm_5 z (by omega), decodeIalui, if_neg (by simp only [bits]; omega), if_pos (by simp only [bits]; omega), fieldAt_eq d 17 z (by omega), fieldAt_eq i 0 z (by omega)]
theorem lop (t : BitVec 4) (d : BitVec 6) (a : BitVec 6) (b : BitVec 6) (p : BitVec 3) : Statement (.lop t d a b p) := by
  have := t.isLt; have := d.isLt; have := a.isLt; have := b.isLt; have := p.isLt
  generalize hw : word 0x30000000 [place t 23, place d 17, place a 11, place b 5, place p 2] = z
  refine of z hw rfl ?_ ?_ <;> simp only [word, place, Nat.reducePow] at hw
  · omega
  · intro _
    rw [decodeForm_6 z (by omega), decodeLogic, if_pos (by simp only [bits]; omega), fieldAt_eq t 23 z (by omega), fieldAt_eq d 17 z (by omega), fieldAt_eq a 11 z (by omega), fieldAt_eq b 5 z (by omega), fieldAt_eq p 2 z (by omega)]
theorem shl (t : BitVec 4) (d : BitVec 6) (a : BitVec 6) (b : BitVec 6) (p : BitVec 3) : Statement (.shl t d a b p) := by
  have := t.isLt; have := d.isLt; have := a.isLt; have := b.isLt; have := p.isLt
  generalize hw : word 0x30000001 [place t 23, place d 17, place a 11, place b 5, place p 2] = z
  refine of z hw rfl ?_ ?_ <;> simp only [word, place, Nat.reducePow] at hw
  · omega
  · intro _
    rw [decodeForm_6 z (by omega), decodeLogic, if_neg (by simp only [bits]; omega), if_pos (by simp only [bits]; omega), fieldAt_eq t 23 z (by omega), fieldAt_eq d 17 z (by omega), fieldAt_eq a 11 z (by omega), fieldAt_eq b 5 z (by omega), fieldAt_eq p 2 z (by omega)]
theorem shr (t : BitVec 4) (d : BitVec 6) (a : BitVec 6) (b : BitVec 6) (p : BitVec 3) : Statement (.shr t d a b p) := by
  have := t.isLt; have := d.isLt; have := a.isLt; have := b.isLt; have := p.isLt
  generalize hw : word 0x30000002 [place t 23, place d 17, place a 11, place b 5, place p 2] = z
  refine of z hw rfl ?_ ?_ <;> simp only [word, place, Nat.reducePow] at hw
  · omega
  · intro _
    rw [decodeForm_6 z (by omega), decodeLogic, if_neg (by simp only [bits]; omega), if_neg (by simp only [bits]; omega), if_pos (by simp only [bits]; omega), fieldAt_eq t 23 z (by omega), fieldAt_eq d 17 z (by omega), fieldAt_eq a 11 z (by omega), fieldAt_eq b 5 z (by omega), fieldAt_eq p 2 z (by omega)]
theorem bfx (d : BitVec 6) (a : BitVec 6) (b : BitVec 6) (p : BitVec 3) : Statement (.bfx d a b p) := by
  have := d.isLt; have := a.isLt; have := b.isLt; have := p.isLt
  generalize hw : word 0x30000003 [place d 17, place a 11, place b 5, place p 2] = z
  refine of z hw rfl ?_ ?_ <;> simp only [word, place, Nat.reducePow] at hw
  · omega
  · intro _
    rw [decodeForm_6 z (by omega), decodeLogic, if_neg (by simp only [bits]; omega), if_neg (by simp only [bits]; omega), if_neg (by simp only [bits]; omega), if_pos (by simp only [bits]; omega), fieldAt_eq d 17 z (by omega), fieldAt_eq a 11 z (by omega), fieldAt_eq b 5 z (by omega), fieldAt_eq p 2 z (by omega)]
theorem bfxs (d : BitVec 6) (a : BitVec 6) (b : BitVec 6) (p : BitVec 3) : Statement (.bfxs d a b p) := by
  have := d.isLt; have := a.isLt; have := b.isLt; have := p.isLt
  generalize hw : word 0x30800003 [place d 17, place a 11, place b 5, place p 2] = z
  refine of z hw rfl ?_ ?_ <;> simp only [word, place, Nat.reducePow] at hw
  · omega
  · intro _
    rw [decodeForm_6 z (by omega), decodeLogic, if_neg (by simp only [bits]; omega), if_neg (by simp only [bits]; omega), if_neg (by simp only [bits]; omega), if_neg (by simp only [bits]; omega), if_pos (by simp only [bits]; omega), fieldAt_eq d 17 z (by omega), fieldAt_eq a 11 z (by omega), fieldAt_eq b 5 z (by omega), fieldAt_eq p 2 z (by omega)]
theorem bfi (d : BitVec 6) (a : BitVec 6) (b : BitVec 6) (p : BitVec 3) : Statement (.bfi d a b p) := by
  have := d.isLt; have := a.isLt; have := b.isLt; have := p.isLt
  generalize hw : word 0x31000003 [place d 17, place a 11, place b 5, place p 2] = z
  refine of z hw rfl ?_ ?_ <;> simp only [word, place, Nat.reducePow] at hw
  · omega
  · intro _
    rw [decodeForm_6 z (by omega), decodeLogic, if_neg (by simp only [bits]; omega), if_neg (by simp only [bits]; omega), if_neg (by simp only [bits]; omega), if_neg (by simp only [bits]; omega), if_neg (by simp only [bits]; omega), if_pos (by simp only [bits]; omega), fieldAt_eq d 17 z (by omega), fieldAt_eq a 11 z (by omega), fieldAt_eq b 5 z (by omega), fieldAt_eq p 2 z (by omega)]
theorem popc (d : BitVec 6) (a : BitVec 6) (p : BitVec 3) : Statement (.popc d a p) := by
  have := d.isLt; have := a.isLt; have := p.isLt
  generalize hw : word 0x31800003 [place d 17, place a 11, place p 2] = z
  refine of z hw rfl ?_ ?_ <;> simp only [word, place, Nat.reducePow] at hw
  · omega
  · intro _
    rw [decodeForm_6 z (by omega), decodeLogic, if_neg (by simp only [bits]; omega), if_neg (by simp only [bits]; omega), if_neg (by simp only [bits]; omega), if_neg (by simp only [bits]; omega), if_neg (by simp only [bits]; omega), if_neg (by simp only [bits]; omega), if_pos (by simp only [bits]; omega), fieldAt_eq d 17 z (by omega), fieldAt_eq a 11 z (by omega), fieldAt_eq p 2 z (by omega)]
theorem clz (d : BitVec 6) (a : BitVec 6) (p : BitVec 3) : Statement (.clz d a p) := by
  have := d.isLt; have := a.isLt; have := p.isLt
  generalize hw : word 0x32000003 [place d 17, place a 11, place p 2] = z
  refine of z hw rfl ?_ ?_ <;> simp only [word, place, Nat.reducePow] at hw
  · omega
  · intro _
    rw [decodeForm_6 z (by omega), decodeLogic, if_neg (by simp only [bits]; omega), if_neg (by simp only [bits]; omega), if_neg (by simp only [bits]; omega), if_neg (by simp only [bits]; omega), if_neg (by simp only [bits]; omega), if_neg (by simp only [bits]; omega), if_neg (by simp only [bits]; omega), if_pos (by simp only [bits]; omega), fieldAt_eq d 17 z (by omega), fieldAt_eq a 11 z (by omega), fieldAt_eq p 2 z (by omega)]
theorem ctz (d : BitVec 6) (a : BitVec 6) (p : BitVec 3) : Statement (.ctz d a p) := by
  have := d.isLt; have := a.isLt; have := p.isLt
  generalize hw : word 0x32800003 [place d 17, place a 11, place p 2] = z
  refine of z hw rfl ?_ ?_ <;> simp only [word, place, Nat.reducePow] at hw
  · omega
  · intro _
    rw [decodeForm_6 z (by omega), decodeLogic, if_neg (by simp only [bits]; omega), if_neg (by simp only [bits]; omega), if_neg (by simp only [bits]; omega), if_neg (by simp only [bits]; omega), if_neg (by simp only [bits]; omega), if_neg (by simp only [bits]; omega), if_neg (by simp only [bits]; omega), if_neg (by simp only [bits]; omega), if_pos (by simp only [bits]; omega), fieldAt_eq d 17 z (by omega), fieldAt_eq a 11 z (by omega), fieldAt_eq p 2 z (by omega)]
theorem brev (d : BitVec 6) (a : BitVec 6) (p : BitVec 3) : Statement (.brev d a p) := by
  have := d.isLt; have := a.isLt; have := p.isLt
  generalize hw : word 0x33000003 [place d 17, place a 11, place p 2] = z
  refine of z hw rfl ?_ ?_ <;> simp only [word, place, Nat.reducePow] at hw
  · omega
  · intro _
    rw [decodeForm_6 z (by omega), decodeLogic, if_neg (by simp only [bits]; omega), if_neg (by simp only [bits]; omega), if_neg (by simp only [bits]; omega), if_neg (by simp only [bits]; omega), if_neg (by simp only [bits]; omega), if_neg (by simp only [bits]; omega), if_neg (by simp only [bits]; omega), if_neg (by simp only [bits]; omega), if_neg (by simp only [bits]; omega), if_pos (by simp only [bits]; omega), fieldAt_eq d 17 z (by omega), fieldAt_eq a 11 z (by omega), fieldAt_eq p 2 z (by omega)]
theorem rol (d : BitVec 6) (a : BitVec 6) (b : BitVec 6) (p : BitVec 3) : Statement (.rol d a b p) := by
  have := d.isLt; have := a.isLt; have := b.isLt; have := p.isLt
  generalize hw : word 0x33800003 [place d 17, place a 11, place b 5, place p 2] = z
  refine of z hw rfl ?_ ?_ <;> simp only [word, place, Nat.reducePow] at hw
  · omega
  · intro _
    rw [decodeForm_6 z (by omega), decodeLogic, if_neg (by simp only [bits]; omega), if_neg (by simp only [bits]; omega), if_neg (by simp only [bits]; omega), if_neg (by simp only [bits]; omega), if_neg (by simp only [bits]; omega), if_neg (by simp only [bits]; omega), if_neg (by simp only [bits]; omega), if_neg (by simp only [bits]; omega), if_neg (by simp only [bits]; omega), if_neg (by simp only [bits]; omega), if_pos (by simp only [bits]; omega), fieldAt_eq d 17 z (by omega), fieldAt_eq a 11 z (by omega), fieldAt_eq b 5 z (by omega), fieldAt_eq p 2 z (by omega)]
theorem ror (d : BitVec 6) (a : BitVec 6) (b : BitVec 6) (p : BitVec 3) : Statement (.ror d a b p) := by
  have := d.isLt; have := a.isLt; have := b.isLt; have := p.isLt
  generalize hw : word 0x34000003 [place d 17, place a 11, place b 5, place p 2] = z
  refine of z hw rfl ?_ ?_ <;> simp only [word, place, Nat.reducePow] at hw
  · omega
  · intro _
    rw [decodeForm_6 z (by omega), decodeLogic, if_neg (by simp only [bits]; omega), if_neg (by simp only [bits]; omega), if_neg (by simp only [bits]; omega), if_neg (by simp only [bits]; omega), if_neg (by simp only [bits]; omega), if_neg (by simp only [bits]; omega), if_neg (by simp only [bits]; omega), if_neg (by simp only [bits]; omega), if_neg (by simp only [bits]; omega), if_neg (by simp only [bits]; omega), if_neg (by simp only [bits]; omega), if_pos (by simp only [bits]; omega), fieldAt_eq d 17 z (by omega), fieldAt_eq a 11 z (by omega), fieldAt_eq b 5 z (by omega), fieldAt_eq p 2 z (by omega)]
theorem lopi (t : BitVec 4) (d : BitVec 6) (a : BitVec 6) (i : BitVec 11) : Statement (.lopi t d a i) := by
  have := t.isLt; have := d.isLt; have := a.isLt; have := i.isLt
  generalize hw : word 0x38000000 [place t 23, place d 17, place a 11, place i 0] = z
  refine of z hw rfl ?_ ?_ <;> simp only [word, place, Nat.reducePow] at hw
  · omega
  · intro _
    rw [decodeForm_7 z (by omega), decodeLogici, fieldAt_eq t 23 z (by omega), fieldAt_eq d 17 z (by omega), fieldAt_eq a 11 z (by omega), fieldAt_eq i 0 z (by omega)]
theorem cmp (t : BitVec 4) (c : BitVec 3) (q : BitVec 3) (a : BitVec 6) (b : BitVec 6) (p : BitVec 3) : Statement (.cmp t c q a b p) := by
  have := t.isLt; have := c.isLt; have := q.isLt; have := a.isLt; have := b.isLt; have := p.isLt
  generalize hw : word 0x40000000 [place t 23, place c 20, place q 17, place a 11, place b 5, place p 2] = z
  refine of z hw rfl ?_ ?_ <;> simp only [word, place, Nat.reducePow] at hw
  · omega
  · intro _
    rw [decodeForm_8 z (by omega), decodeCmp, if_pos (by simp only [bits]; omega), fieldAt_eq t 23 z (by omega), fieldAt_eq c 20 z (by omega), fieldAt_eq q 17 z (by omega), fieldAt_eq a 11 z (by omega), fieldAt_eq b 5 z (by omega), fieldAt_eq p 2 z (by omega)]
theorem sel (t : BitVec 4) (d : BitVec 6) (a : BitVec 6) (b : BitVec 6) (p : BitVec 3) : Statement (.sel t d a b p) := by
  have := t.isLt; have := d.isLt; have := a.isLt; have := b.isLt; have := p.isLt
  generalize hw : word 0x40000001 [place t 23, place d 17, place a 11, place b 5, place p 2] = z
  refine of z hw rfl ?_ ?_ <;> simp only [word, place, Nat.reducePow] at hw
  · omega
  · intro _
    rw [decodeForm_8 z (by omega), decodeCmp, if_neg (by simp only [bits]; omega), if_pos (by simp only [bits]; omega), fieldAt_eq t 23 z (by omega), fieldAt_eq d 17 z (by omega), fieldAt_eq a 11 z (by omega), fieldAt_eq b 5 z (by omega), fieldAt_eq p 2 z (by omega)]
theorem plop (t : BitVec 4) (d : BitVec 3) (a : BitVec 3) (b : BitVec 3) (p : BitVec 3) : Statement (.plop t d a b p) := by
  have := t.isLt; have := d.isLt; have := a.isLt; have := b.isLt; have := p.isLt
  generalize hw : word 0x40000002 [place t 23, place d 17, place a 11, place b 5, place p 2] = z
  refine of z hw rfl ?_ ?_ <;> simp only [word, place, Nat.reducePow] at hw
  · omega
  · intro _
    rw [decodeForm_8 z (by omega), decodeCmp, if_neg (by simp only [bits]; omega), if_neg (by simp only [bits]; omega), if_pos (by simp only [bits]; omega), fieldAt_eq t 23 z (by omega), fieldAt_eq d 17 z (by omega), fieldAt_eq a 11 z (by omega), fieldAt_eq b 5 z (by omega), fieldAt_eq p 2 z (by omega)]
theorem test (t : BitVec 3) (q : BitVec 3) (a : BitVec 6) (m : BitVec 6) (p : BitVec 3) : Statement (.test t q a m p) := by
  have := t.isLt; have := q.isLt; have := a.isLt; have := m.isLt; have := p.isLt
  generalize hw : word 0x44000003 [place t 23, place q 17, place a 11, place m 5, place p 2] = z
  refine of z hw rfl ?_ ?_ <;> simp only [word, place, Nat.reducePow] at hw
  · omega
  · intro _
    rw [decodeForm_8 z (by omega), decodeCmp, if_neg (by simp only [bits]; omega), if_neg (by simp only [bits]; omega), if_neg (by simp only [bits]; omega), if_pos (by simp only [bits]; omega), fieldAt_eq t 23 z (by omega), fieldAt_eq q 17 z (by omega), fieldAt_eq a 11 z (by omega), fieldAt_eq m 5 z (by omega), fieldAt_eq p 2 z (by omega)]
theorem cmpi (t : BitVec 4) (c : BitVec 3) (q : BitVec 3) (a : BitVec 6) (i : BitVec 11) : Statement (.cmpi t c q a i) := by
  have := t.isLt; have := c.isLt; have := q.isLt; have := a.isLt; have := i.isLt
  generalize hw : word 0x48000000 [place t 23, place c 20, place q 17, place a 11, place i 0] = z
  refine of z hw rfl ?_ ?_ <;> simp only [word, place, Nat.reducePow] at hw
  · omega
  · intro _
    rw [decodeForm_9 z (by omega), decodeCmpi, fieldAt_eq t 23 z (by omega), fieldAt_eq c 20 z (by omega), fieldAt_eq q 17 z (by omega), fieldAt_eq a 11 z (by omega), fieldAt_eq i 0 z (by omega)]
theorem faluAdd (t : BitVec 3) (d : BitVec 6) (a : BitVec 6) (b : BitVec 6) (p : BitVec 3) : Statement (.faluAdd t d a b p) := by
  have := t.isLt; have := d.isLt; have := a.isLt; have := b.isLt; have := p.isLt
  generalize hw : word 0x54000000 [place t 23, place d 17, place a 11, place b 5, place p 2] = z
  refine of z hw rfl ?_ ?_ <;> simp only [word, place, Nat.reducePow] at hw
  · omega
  · intro _
    rw [decodeForm_10 z (by omega), decodeFalu, if_pos (by simp only [bits]; omega), fieldAt_eq t 23 z (by omega), fieldAt_eq d 17 z (by omega), fieldAt_eq a 11 z (by omega), fieldAt_eq b 5 z (by omega), fieldAt_eq p 2 z (by omega)]
theorem faluSub (t : BitVec 3) (d : BitVec 6) (a : BitVec 6) (b : BitVec 6) (p : BitVec 3) : Statement (.faluSub t d a b p) := by
  have := t.isLt; have := d.isLt; have := a.isLt; have := b.isLt; have := p.isLt
  generalize hw : word 0x54000001 [place t 23, place d 17, place a 11, place b 5, place p 2] = z
  refine of z hw rfl ?_ ?_ <;> simp only [word, place, Nat.reducePow] at hw
  · omega
  · intro _
    rw [decodeForm_10 z (by omega), decodeFalu, if_neg (by simp only [bits]; omega), if_pos (by simp only [bits]; omega), fieldAt_eq t 23 z (by omega), fieldAt_eq d 17 z (by omega), fieldAt_eq a 11 z (by omega), fieldAt_eq b 5 z (by omega), fieldAt_eq p 2 z (by omega)]
theorem faluMul (t : BitVec 3) (d : BitVec 6) (a : BitVec 6) (b : BitVec 6) (p : BitVec 3) : Statement (.faluMul t d a b p) := by
  have := t.isLt; have := d.isLt; have := a.isLt; have := b.isLt; have := p.isLt
  generalize hw : word 0x54000002 [place t 23, place d 17, place a 11, place b 5, place p 2] = z
  refine of z hw rfl ?_ ?_ <;> simp only [word, place, Nat.reducePow] at hw
  · omega
  · intro _
    rw [decodeForm_10 z (by omega), decodeFalu, if_neg (by simp only [bits]; omega), if_neg (by simp only [bits]; omega), if_pos (by simp only [bits]; omega), fieldAt_eq t 23 z (by omega), fieldAt_eq d 17 z (by omega), fieldAt_eq a 11 z (by omega), fieldAt_eq b 5 z (by omega), fieldAt_eq p 2 z (by omega)]
theorem faluMin (t : BitVec 3) (d : BitVec 6) (a : BitVec 6) (p : BitVec 3) : Statement (.faluMin t d a p) := by
  have := t.isLt; have := d.isLt; have := a.isLt; have := p.isLt
  generalize hw : word 0x54000023 [place t 23, place d 17, place a 11, place p 2] = z
  refine of z hw rfl ?_ ?_ <;> simp only [word, place, Nat.reducePow] at hw
  · omega
  · intro _
    rw [decodeForm_10 z (by omega), decodeFalu, if_neg (by simp only [bits]; omega), if_neg (by simp only [bits]; omega), if_neg (by simp only [bits]; omega), if_pos (by simp only [bits]; omega), fieldAt_eq t 23 z (by omega), fieldAt_eq d 17 z (by omega), fieldAt_eq a 11 z (by omega), fieldAt_eq p 2 z (by omega)]
theorem faluMax (t : BitVec 3) (d : BitVec 6) (a : BitVec 6) (p : BitVec 3) : Statement (.faluMax t d a p) := by
  have := t.isLt; have := d.isLt; have := a.isLt; have := p.isLt
  generalize hw : word 0x54000043 [place t 23, place d 17, place a 11, place p 2] = z
  refine of z hw rfl ?_ ?_ <;> simp only [word, place, Nat.reducePow] at hw
  · omega
  · intro _
    rw [decodeForm_10 z (by omega), decodeFalu, if_neg (by simp only [bits]; omega), if_neg (by simp only [bits]; omega), if_neg (by simp only [bits]; omega), if_neg (by simp only [bits]; omega), if_pos (by simp only [bits]; omega), fieldAt_eq t 23 z (by omega), fieldAt_eq d 17 z (by omega), fieldAt_eq a 11 z (by omega), fieldAt_eq p 2 z (by omega)]
theorem faluNeg (t : BitVec 3) (d : BitVec 6) (a : BitVec 6) (p : BitVec 3) : Statement (.faluNeg t d a p) := by
  have := t.isLt; have := d.isLt; have := a.isLt; have := p.isLt
  generalize hw : word 0x54000063 [place t 23, place d 17, place a 11, place p 2] = z
  refine of z hw rfl ?_ ?_ <;> simp only [word, place, Nat.reducePow] at hw
  · omega
  · intro _
    rw [decodeForm_10 z (by omega), decodeFalu, if_neg (by simp only [bits]; omega), if_neg (by simp only [bits]; omega), if_neg (by simp only [bits]; omega), if_neg (by simp only [bits]; omega), if_neg (by simp only [bits]; omega), if_pos (by simp only [bits]; omega), fieldAt_eq t 23 z (by omega), fieldAt_eq d 17 z (by omega), fieldAt_eq a 11 z (by omega), fieldAt_eq p 2 z (by omega)]
theorem faluAbs (t : BitVec 3) (d : BitVec 6) (a : BitVec 6) (p : BitVec 3) : Statement (.faluAbs t d a p) := by
  have := t.isLt; have := d.isLt; have := a.isLt; have := p.isLt
  generalize hw : word 0x54000083 [place t 23, place d 17, place a 11, place p 2] = z
  refine of z hw rfl ?_ ?_ <;> simp only [word, place, Nat.reducePow] at hw
  · omega
  · intro _
    rw [decodeForm_10 z (by omega), decodeFalu, if_neg (by simp only [bits]; omega), if_neg (by simp only [bits]; omega), if_neg (by simp only [bits]; omega), if_neg (by simp only [bits]; omega), if_neg (by simp only [bits]; omega), if_neg (by simp only [bits]; omega), if_pos (by simp only [bits]; omega), fieldAt_eq t 23 z (by omega), fieldAt_eq d 17 z (by omega), fieldAt_eq a 11 z (by omega), fieldAt_eq p 2 z (by omega)]
theorem rint (t : BitVec 3) (d : BitVec 6) (a : BitVec 6) (p : BitVec 3) : Statement (.rint t d a p) := by
  have := t.isLt; have := d.isLt; have := a.isLt; have := p.isLt
  generalize hw : word 0x54000143 [place t 23, place d 17, place a 11, place p 2] = z
  refine of z hw rfl ?_ ?_ <;> simp only [word, place, Nat.reducePow] at hw
  · omega
  · intro _
    rw [decodeForm_10 z (by omega), decodeFalu, if_neg (by simp only [bits]; omega), if_neg (by simp only [bits]; omega), if_neg (by simp only [bits]; omega), if_neg (by simp only [bits]; omega), if_neg (by simp only [bits]; omega), if_neg (by simp only [bits]; omega), if_neg (by simp only [bits]; omega), if_pos (by simp only [bits]; omega), fieldAt_eq t 23 z (by omega), fieldAt_eq d 17 z (by omega), fieldAt_eq a 11 z (by omega), fieldAt_eq p 2 z (by omega)]
theorem fma (t : BitVec 3) (d : BitVec 6) (a : BitVec 6) (b : BitVec 6) (p : BitVec 3) : Statement (.fma t d a b p) := by
  have := t.isLt; have := d.isLt; have := a.isLt; have := b.isLt; have := p.isLt
  generalize hw : word 0x5c000000 [place t 23, place d 17, place a 11, place b 5, place p 2] = z
  refine of z hw rfl ?_ ?_ <;> simp only [word, place, Nat.reducePow] at hw
  · omega
  · intro _
    rw [decodeForm_11 z (by omega), decodeFma, if_pos (by simp only [bits]; omega), fieldAt_eq t 23 z (by omega), fieldAt_eq d 17 z (by omega), fieldAt_eq a 11 z (by omega), fieldAt_eq b 5 z (by omega), fieldAt_eq p 2 z (by omega)]
theorem mad (t : BitVec 3) (d : BitVec 6) (a : BitVec 6) (b : BitVec 6) (p : BitVec 3) : Statement (.mad t d a b p) := by
  have := t.isLt; have := d.isLt; have := a.isLt; have := b.isLt; have := p.isLt
  generalize hw : word 0x58000000 [place t 23, place d 17, place a 11, place b 5, place p 2] = z
  refine of z hw rfl ?_ ?_ <;> simp only [word, place, Nat.reducePow] at hw
  · omega
  · intro _
    rw [decodeForm_11 z (by omega), decodeFma, if_neg (by simp only [bits]; omega), if_pos (by simp only [bits]; omega), fieldAt_eq t 23 z (by omega), fieldAt_eq d 17 z (by omega), fieldAt_eq a 11 z (by omega), fieldAt_eq b 5 z (by omega), fieldAt_eq p 2 z (by omega)]
theorem fms (t : BitVec 3) (d : BitVec 6) (a : BitVec 6) (b : BitVec 6) (p : BitVec 3) : Statement (.fms t d a b p) := by
  have := t.isLt; have := d.isLt; have := a.isLt; have := b.isLt; have := p.isLt
  generalize hw : word 0x5c000001 [place t 23, place d 17, place a 11, place b 5, place p 2] = z
  refine of z hw rfl ?_ ?_ <;> simp only [word, place, Nat.reducePow] at hw
  · omega
  · intro _
    rw [decodeForm_11 z (by omega), decodeFma, if_neg (by simp only [bits]; omega), if_neg (by simp only [bits]; omega), if_pos (by simp only [bits]; omega), fieldAt_eq t 23 z (by omega), fieldAt_eq d 17 z (by omega), fieldAt_eq a 11 z (by omega), fieldAt_eq b 5 z (by omega), fieldAt_eq p 2 z (by omega)]
theorem fnma (t : BitVec 3) (d : BitVec 6) (a : BitVec 6) (b : BitVec 6) (p : BitVec 3) : Statement (.fnma t d a b p) := by
  have := t.isLt; have := d.isLt; have := a.isLt; have := b.isLt; have := p.isLt
  generalize hw : word 0x5c000002 [place t 23, place d 17, place a 11, place b 5, place p 2] = z
  refine of z hw rfl ?_ ?_ <;> simp only [word, place, Nat.reducePow] at hw
  · omega
  · intro _
    rw [decodeForm_11 z (by omega), decodeFma, if_neg (by simp only [bits]; omega), if_neg (by simp only [bits]; omega), if_neg (by simp only [bits]; omega), if_pos (by simp only [bits]; omega), fieldAt_eq t 23 z (by omega), fieldAt_eq d 17 z (by omega), fieldAt_eq a 11 z (by omega), fieldAt_eq b 5 z (by omega), fieldAt_eq p 2 z (by omega)]
theorem dot4 (t : BitVec 4) (d : BitVec 6) (a : BitVec 6) (b : BitVec 6) (p : BitVec 3) : Statement (.dot4 t d a b p) := by
  have := t.isLt; have := d.isLt; have := a.isLt; have := b.isLt; have := p.isLt
  generalize hw : word 0x58000003 [place t 23, place d 17, place a 11, place b 5, place p 2] = z
  refine of z hw rfl ?_ ?_ <;> simp only [word, place, Nat.reducePow] at hw
  · omega
  · intro _
    rw [decodeForm_11 z (by omega), decodeFma, if_neg (by simp only [bits]; omega), if_neg (by simp only [bits]; omega), if_neg (by simp only [bits]; omega), if_neg (by simp only [bits]; omega), if_pos (by simp only [bits]; omega), fieldAt_eq t 23 z (by omega), fieldAt_eq d 17 z (by omega), fieldAt_eq a 11 z (by omega), fieldAt_eq b 5 z (by omega), fieldAt_eq p 2 z (by omega)]
theorem cvt (t : BitVec 4) (d : BitVec 6) (a : BitVec 6) (s : BitVec 4) (p : BitVec 3) : Statement (.cvt t d a s p) := by
  have := t.isLt; have := d.isLt; have := a.isLt; have := s.isLt; have := p.isLt
  generalize hw : word 0x60000000 [place t 23, place d 17, place a 11, place s 5, place p 2] = z
  refine of z hw rfl ?_ ?_ <;> simp only [word, place, Nat.reducePow] at hw
  · omega
  · intro _
    rw [decodeForm_12 z (by omega), decodeCvt, if_pos (by simp only [bits]; omega), fieldAt_eq t 23 z (by omega), fieldAt_eq d 17 z (by omega), fieldAt_eq a 11 z (by omega), fieldAt_eq s 5 z (by omega), fieldAt_eq p 2 z (by omega)]
theorem cvtFp8 (f : BitVec 1) (d : BitVec 6) (a : BitVec 6) (s : BitVec 4) (p : BitVec 3) : Statement (.cvtFp8 f d a s p) := by
  have := f.isLt; have := d.isLt; have := a.isLt; have := s.isLt; have := p.isLt
  generalize hw : word 0x60000001 [place f 23, place d 17, place a 11, place s 5, place p 2] = z
  refine of z hw rfl ?_ ?_ <;> simp only [word, place, Nat.reducePow] at hw
  · omega
  · intro _
    rw [decodeForm_12 z (by omega), decodeCvt, if_neg (by simp only [bits]; omega), if_pos (by simp only [bits]; omega), fieldAt_eq f 23 z (by omega), fieldAt_eq d 17 z (by omega), fieldAt_eq a 11 z (by omega), fieldAt_eq s 5 z (by omega), fieldAt_eq p 2 z (by omega)]
theorem routePick (t : BitVec 4) (d : BitVec 6) (a : BitVec 6) (b : BitVec 6) (p : BitVec 3) : Statement (.routePick t d a b p) := by
  have := t.isLt; have := d.isLt; have := a.isLt; have := b.isLt; have := p.isLt
  generalize hw : word 0x68000000 [place t 23, place d 17, place a 11, place b 5, place p 2] = z
  refine of z hw rfl ?_ ?_ <;> simp only [word, place, Nat.reducePow] at hw
  · omega
  · intro _
    rw [decodeForm_13 z (by omega), decodeXlane, if_pos (by simp only [bits]; omega), fieldAt_eq t 23 z (by omega), fieldAt_eq d 17 z (by omega), fieldAt_eq a 11 z (by omega), fieldAt_eq b 5 z (by omega), fieldAt_eq p 2 z (by omega)]
theorem routeSlide (t : BitVec 4) (d : BitVec 6) (a : BitVec 6) (b : BitVec 6) (p : BitVec 3) : Statement (.routeSlide t d a b p) := by
  have := t.isLt; have := d.isLt; have := a.isLt; have := b.isLt; have := p.isLt
  generalize hw : word 0x68000001 [place t 23, place d 17, place a 11, place b 5, place p 2] = z
  refine of z hw rfl ?_ ?_ <;> simp only [word, place, Nat.reducePow] at hw
  · omega
  · intro _
    rw [decodeForm_13 z (by omega), decodeXlane, if_neg (by simp only [bits]; omega), if_pos (by simp only [bits]; omega), fieldAt_eq t 23 z (by omega), fieldAt_eq d 17 z (by omega), fieldAt_eq a 11 z (by omega), fieldAt_eq b 5 z (by omega), fieldAt_eq p 2 z (by omega)]
theorem routeRot (t : BitVec 4) (d : BitVec 6) (a : BitVec 6) (b : BitVec 6) (p : BitVec 3) : Statement (.routeRot t d a b p) := by
  have := t.isLt; have := d.isLt; have := a.isLt; have := b.isLt; have := p.isLt
  generalize hw : word 0x68000002 [place t 23, place d 17, place a 11, place b 5, place p 2] = z
  refine of z hw rfl ?_ ?_ <;> simp only [word, place, Nat.reducePow] at hw
  · omega
  · intro _
    rw [decodeForm_13 z (by omega), decodeXlane, if_neg (by simp only [bits]; omega), if_neg (by simp only [bits]; omega), if_pos (by simp only [bits]; omega), fieldAt_eq t 23 z (by omega), fieldAt_eq d 17 z (by omega), fieldAt_eq a 11 z (by omega), fieldAt_eq b 5 z (by omega), fieldAt_eq p 2 z (by omega)]
theorem routeFlip (t : BitVec 4) (d : BitVec 6) (a : BitVec 6) (b : BitVec 6) (p : BitVec 3) : Statement (.routeFlip t d a b p) := by
  have := t.isLt; have := d.isLt; have := a.isLt; have := b.isLt; have := p.isLt
  generalize hw : word 0x68000003 [place t 23, place d 17, place a 11, place b 5, place p 2] = z
  refine of z hw rfl ?_ ?_ <;> simp only [word, place, Nat.reducePow] at hw
  · omega
  · intro _
    rw [decodeForm_13 z (by omega), decodeXlane, if_neg (by simp only [bits]; omega), if_neg (by simp only [bits]; omega), if_neg (by simp only [bits]; omega), if_pos (by simp only [bits]; omega), fieldAt_eq t 23 z (by omega), fieldAt_eq d 17 z (by omega), fieldAt_eq a 11 z (by omega), fieldAt_eq b 5 z (by omega), fieldAt_eq p 2 z (by omega)]
theorem vote (o : BitVec 2) (d : BitVec 6) (q : BitVec 3) (p : BitVec 3) : Statement (.vote o d q p) := by
  have := o.isLt; have := d.isLt; have := q.isLt; have := p.isLt
  generalize hw : word 0x70000000 [place o 23, place d 17, place q 11, place p 2] = z
  refine of z hw rfl ?_ ?_ <;> simp only [word, place, Nat.reducePow] at hw
  · omega
  · intro _
    rw [decodeForm_14 z (by omega), decodeVote, if_pos (by simp only [bits]; omega), fieldAt_eq o 23 z (by omega), fieldAt_eq d 17 z (by omega), fieldAt_eq q 11 z (by omega), fieldAt_eq p 2 z (by omega)]
theorem reduce (t : BitVec 4) (d : BitVec 6) (a : BitVec 6) (o : BitVec 3) (p : BitVec 3) : Statement (.reduce t d a o p) := by
  have := t.isLt; have := d.isLt; have := a.isLt; have := o.isLt; have := p.isLt
  generalize hw : word 0x70000001 [place t 23, place d 17, place a 11, place o 5, place p 2] = z
  refine of z hw rfl ?_ ?_ <;> simp only [word, place, Nat.reducePow] at hw
  · omega
  · intro _
    rw [decodeForm_14 z (by omega), decodeVote, if_neg (by simp only [bits]; omega), if_pos (by simp only [bits]; omega), fieldAt_eq t 23 z (by omega), fieldAt_eq d 17 z (by omega), fieldAt_eq a 11 z (by omega), fieldAt_eq o 5 z (by omega), fieldAt_eq p 2 z (by omega)]
theorem scan (t : BitVec 4) (d : BitVec 6) (a : BitVec 6) (x : BitVec 1) (o : BitVec 3) (p : BitVec 3) : Statement (.scan t d a x o p) := by
  have := t.isLt; have := d.isLt; have := a.isLt; have := x.isLt; have := o.isLt; have := p.isLt
  generalize hw : word 0x70000002 [place t 23, place d 17, place a 11, place x 8, place o 5, place p 2] = z
  refine of z hw rfl ?_ ?_ <;> simp only [word, place, Nat.reducePow] at hw
  · omega
  · intro _
    rw [decodeForm_14 z (by omega), decodeVote, if_neg (by simp only [bits]; omega), if_neg (by simp only [bits]; omega), if_pos (by simp only [bits]; omega), fieldAt_eq t 23 z (by omega), fieldAt_eq d 17 z (by omega), fieldAt_eq a 11 z (by omega), fieldAt_eq x 8 z (by omega), fieldAt_eq o 5 z (by omega), fieldAt_eq p 2 z (by omega)]
theorem matchB64 (d : BitVec 6) (a : BitVec 6) (p : BitVec 3) : Statement (.matchB64 d a p) := by
  have := d.isLt; have := a.isLt; have := p.isLt
  generalize hw : word 0x77800003 [place d 17, place a 11, place p 2] = z
  refine of z hw rfl ?_ ?_ <;> simp only [word, place, Nat.reducePow] at hw
  · omega
  · intro _
    rw [decodeForm_14 z (by omega), decodeVote, if_neg (by simp only [bits]; omega), if_neg (by simp only [bits]; omega), if_neg (by simp only [bits]; omega), if_pos (by simp only [bits]; omega), fieldAt_eq d 17 z (by omega), fieldAt_eq a 11 z (by omega), fieldAt_eq p 2 z (by omega)]
theorem rcp (t : BitVec 3) (d : BitVec 6) (a : BitVec 6) (p : BitVec 3) : Statement (.rcp t d a p) := by
  have := t.isLt; have := d.isLt; have := a.isLt; have := p.isLt
  generalize hw : word 0x7c000000 [place t 23, place d 17, place a 11, place p 2] = z
  refine of z hw rfl ?_ ?_ <;> simp only [word, place, Nat.reducePow] at hw
  · omega
  · intro _
    rw [decodeForm_15 z (by omega), decodeSfu, if_pos (by simp only [bits]; omega), fieldAt_eq t 23 z (by omega), fieldAt_eq d 17 z (by omega), fieldAt_eq a 11 z (by omega), fieldAt_eq p 2 z (by omega)]
theorem rsqrt (t : BitVec 3) (d : BitVec 6) (a : BitVec 6) (p : BitVec 3) : Statement (.rsqrt t d a p) := by
  have := t.isLt; have := d.isLt; have := a.isLt; have := p.isLt
  generalize hw : word 0x7c000020 [place t 23, place d 17, place a 11, place p 2] = z
  refine of z hw rfl ?_ ?_ <;> simp only [word, place, Nat.reducePow] at hw
  · omega
  · intro _
    rw [decodeForm_15 z (by omega), decodeSfu, if_neg (by simp only [bits]; omega), if_pos (by simp only [bits]; omega), fieldAt_eq t 23 z (by omega), fieldAt_eq d 17 z (by omega), fieldAt_eq a 11 z (by omega), fieldAt_eq p 2 z (by omega)]
theorem sqrt (t : BitVec 3) (d : BitVec 6) (a : BitVec 6) (p : BitVec 3) : Statement (.sqrt t d a p) := by
  have := t.isLt; have := d.isLt; have := a.isLt; have := p.isLt
  generalize hw : word 0x7c000040 [place t 23, place d 17, place a 11, place p 2] = z
  refine of z hw rfl ?_ ?_ <;> simp only [word, place, Nat.reducePow] at hw
  · omega
  · intro _
    rw [decodeForm_15 z (by omega), decodeSfu, if_neg (by simp only [bits]; omega), if_neg (by simp only [bits]; omega), if_pos (by simp only [bits]; omega), fieldAt_eq t 23 z (by omega), fieldAt_eq d 17 z (by omega), fieldAt_eq a 11 z (by omega), fieldAt_eq p 2 z (by omega)]
theorem exp2 (t : BitVec 3) (d : BitVec 6) (a : BitVec 6) (p : BitVec 3) : Statement (.exp2 t d a p) := by
  have := t.isLt; have := d.isLt; have := a.isLt; have := p.isLt
  generalize hw : word 0x7c000060 [place t 23, place d 17, place a 11, place p 2] = z
  refine of z hw rfl ?_ ?_ <;> simp only [word, place, Nat.reducePow] at hw
  · omega
  · intro _
    rw [decodeForm_15 z (by omega), decodeSfu, if_neg (by simp only [bits]; omega), if_neg (by simp only [bits]; omega), if_neg (by simp only [bits]; omega), if_pos (by simp only [bits]; omega), fieldAt_eq t 23 z (by omega), fieldAt_eq d 17 z (by omega), fieldAt_eq a 11 z (by omega), fieldAt_eq p 2 z (by omega)]
theorem log2 (t : BitVec 3) (d : BitVec 6) (a : BitVec 6) (p : BitVec 3) : Statement (.log2 t d a p) := by
  have := t.isLt; have := d.isLt; have := a.isLt; have := p.isLt
  generalize hw : word 0x7c000080 [place t 23, place d 17, place a 11, place p 2] = z
  refine of z hw rfl ?_ ?_ <;> simp only [word, place, Nat.reducePow] at hw
  · omega
  · intro _
    rw [decodeForm_15 z (by omega), decodeSfu, if_neg (by simp only [bits]; omega), if_neg (by simp only [bits]; omega), if_neg (by simp only [bits]; omega), if_neg (by simp only [bits]; omega), if_pos (by simp only [bits]; omega), fieldAt_eq t 23 z (by omega), fieldAt_eq d 17 z (by omega), fieldAt_eq a 11 z (by omega), fieldAt_eq p 2 z (by omega)]
theorem sin (t : BitVec 3) (d : BitVec 6) (a : BitVec 6) (p : BitVec 3) : Statement (.sin t d a p) := by
  have := t.isLt; have := d.isLt; have := a.isLt; have := p.isLt
  generalize hw : word 0x7c0000a0 [place t 23, place d 17, place a 11, place p 2] = z
  refine of z hw rfl ?_ ?_ <;> simp only [word, place, Nat.reducePow] at hw
  · omega
  · intro _
    rw [decodeForm_15 z (by omega), decodeSfu, if_neg (by simp only [bits]; omega), if_neg (by simp only [bits]; omega), if_neg (by simp only [bits]; omega), if_neg (by simp only [bits]; omega), if_neg (by simp only [bits]; omega), if_pos (by simp only [bits]; omega), fieldAt_eq t 23 z (by omega), fieldAt_eq d 17 z (by omega), fieldAt_eq a 11 z (by omega), fieldAt_eq p 2 z (by omega)]
theorem cos (t : BitVec 3) (d : BitVec 6) (a : BitVec 6) (p : BitVec 3) : Statement (.cos t d a p) := by
  have := t.isLt; have := d.isLt; have := a.isLt; have := p.isLt
  generalize hw : word 0x7c0000c0 [place t 23, place d 17, place a 11, place p 2] = z
  refine of z hw rfl ?_ ?_ <;> simp only [word, place, Nat.reducePow] at hw
  · omega
  · intro _
    rw [decodeForm_15 z (by omega), decodeSfu, if_neg (by simp only [bits]; omega), if_neg (by simp only [bits]; omega), if_neg (by simp only [bits]; omega), if_neg (by simp only [bits]; omega), if_neg (by simp only [bits]; omega), if_neg (by simp only [bits]; omega), if_pos (by simp only [bits]; omega), fieldAt_eq t 23 z (by omega), fieldAt_eq d 17 z (by omega), fieldAt_eq a 11 z (by omega), fieldAt_eq p 2 z (by omega)]
theorem tanh (t : BitVec 3) (d : BitVec 6) (a : BitVec 6) (p : BitVec 3) : Statement (.tanh t d a p) := by
  have := t.isLt; have := d.isLt; have := a.isLt; have := p.isLt
  generalize hw : word 0x7c0000e0 [place t 23, place d 17, place a 11, place p 2] = z
  refine of z hw rfl ?_ ?_ <;> simp only [word, place, Nat.reducePow] at hw
  · omega
  · intro _
    rw [decodeForm_15 z (by omega), decodeSfu, if_neg (by simp only [bits]; omega), if_neg (by simp only [bits]; omega), if_neg (by simp only [bits]; omega), if_neg (by simp only [bits]; omega), if_neg (by simp only [bits]; omega), if_neg (by simp only [bits]; omega), if_neg (by simp only [bits]; omega), if_pos (by simp only [bits]; omega), fieldAt_eq t 23 z (by omega), fieldAt_eq d 17 z (by omega), fieldAt_eq a 11 z (by omega), fieldAt_eq p 2 z (by omega)]
theorem div (t : BitVec 3) (d : BitVec 6) (a : BitVec 6) (b : BitVec 6) (p : BitVec 3) : Statement (.div t d a b p) := by
  have := t.isLt; have := d.isLt; have := a.isLt; have := b.isLt; have := p.isLt
  generalize hw : word 0x7c000001 [place t 23, place d 17, place a 11, place b 5, place p 2] = z
  refine of z hw rfl ?_ ?_ <;> simp only [word, place, Nat.reducePow] at hw
  · omega
  · intro _
    rw [decodeForm_15 z (by omega), decodeSfu, if_neg (by simp only [bits]; omega), if_neg (by simp only [bits]; omega), if_neg (by simp only [bits]; omega), if_neg (by simp only [bits]; omega), if_neg (by simp only [bits]; omega), if_neg (by simp only [bits]; omega), if_neg (by simp only [bits]; omega), if_neg (by simp only [bits]; omega), if_pos (by simp only [bits]; omega), fieldAt_eq t 23 z (by omega), fieldAt_eq d 17 z (by omega), fieldAt_eq a 11 z (by omega), fieldAt_eq b 5 z (by omega), fieldAt_eq p 2 z (by omega)]
theorem idiv (t : BitVec 3) (d : BitVec 6) (a : BitVec 6) (b : BitVec 6) (p : BitVec 3) : Statement (.idiv t d a b p) := by
  have := t.isLt; have := d.isLt; have := a.isLt; have := b.isLt; have := p.isLt
  generalize hw : word 0x78000002 [place t 23, place d 17, place a 11, place b 5, place p 2] = z
  refine of z hw rfl ?_ ?_ <;> simp only [word, place, Nat.reducePow] at hw
  · omega
  · intro _
    rw [decodeForm_15 z (by omega), decodeSfu, if_neg (by simp only [bits]; omega), if_neg (by simp only [bits]; omega), if_neg (by simp only [bits]; omega), if_neg (by simp only [bits]; omega), if_neg (by simp only [bits]; omega), if_neg (by simp only [bits]; omega), if_neg (by simp only [bits]; omega), if_neg (by simp only [bits]; omega), if_neg (by simp only [bits]; omega), if_pos (by simp only [bits]; omega), fieldAt_eq t 23 z (by omega), fieldAt_eq d 17 z (by omega), fieldAt_eq a 11 z (by omega), fieldAt_eq b 5 z (by omega), fieldAt_eq p 2 z (by omega)]
theorem irem (t : BitVec 3) (d : BitVec 6) (a : BitVec 6) (b : BitVec 6) (p : BitVec 3) : Statement (.irem t d a b p) := by
  have := t.isLt; have := d.isLt; have := a.isLt; have := b.isLt; have := p.isLt
  generalize hw : word 0x78000003 [place t 23, place d 17, place a 11, place b 5, place p 2] = z
  refine of z hw rfl ?_ ?_ <;> simp only [word, place, Nat.reducePow] at hw
  · omega
  · intro _
    rw [decodeForm_15 z (by omega), decodeSfu, if_neg (by simp only [bits]; omega), if_neg (by simp only [bits]; omega), if_neg (by simp only [bits]; omega), if_neg (by simp only [bits]; omega), if_neg (by simp only [bits]; omega), if_neg (by simp only [bits]; omega), if_neg (by simp only [bits]; omega), if_neg (by simp only [bits]; omega), if_neg (by simp only [bits]; omega), if_neg (by simp only [bits]; omega), if_pos (by simp only [bits]; omega), fieldAt_eq t 23 z (by omega), fieldAt_eq d 17 z (by omega), fieldAt_eq a 11 z (by omega), fieldAt_eq b 5 z (by omega), fieldAt_eq p 2 z (by omega)]
theorem ld (l : BitVec 4) (d : BitVec 6) (b : BitVec 6) (p : BitVec 3) (w : BitVec 3) : Statement (.ld l d b p w) := by
  have := l.isLt; have := d.isLt; have := b.isLt; have := p.isLt; have := w.isLt
  generalize hw : word 0x80000000 [place l 23, place d 17, place b 11, place p 8, place w 5] = z
  refine of z hw rfl ?_ ?_ <;> simp only [word, place, Nat.reducePow] at hw
  · omega
  · intro _
    rw [decodeForm_16 z (by omega), decodeLd, if_pos (by simp only [bits]; omega), fieldAt_eq l 23 z (by omega), fieldAt_eq d 17 z (by omega), fieldAt_eq b 11 z (by omega), fieldAt_eq p 8 z (by omega), fieldAt_eq w 5 z (by omega)]
theorem lda (l : BitVec 4) (d : BitVec 6) (b : BitVec 6) (p : BitVec 3) (w : BitVec 3) (s : BitVec 3) : Statement (.lda l d b p w s) := by
  have := l.isLt; have := d.isLt; have := b.isLt; have := p.isLt; have := w.isLt; have := s.isLt
  generalize hw : word 0x80000008 [place l 23, place d 17, place b 11, place p 8, place w 5, place s 0] = z
  refine of z hw rfl ?_ ?_ <;> simp only [word, place, Nat.reducePow] at hw
  · omega
  · intro _
    rw [decodeForm_16 z (by omega), decodeLd, if_neg (by simp only [bits]; omega), if_pos (by simp only [bits]; omega), fieldAt_eq l 23 z (by omega), fieldAt_eq d 17 z (by omega), fieldAt_eq b 11 z (by omega), fieldAt_eq p 8 z (by omega), fieldAt_eq w 5 z (by omega), fieldAt_eq s 0 z (by omega)]
theorem st (s : BitVec 6) (b : BitVec 6) (p : BitVec 3) (w : BitVec 2) : Statement (.st s b p w) := by
  have := s.isLt; have := b.isLt; have := p.isLt; have := w.isLt
  generalize hw : word 0x88000000 [place s 17, place b 11, place p 8, place w 5] = z
  refine of z hw rfl ?_ ?_ <;> simp only [word, place, Nat.reducePow] at hw
  · omega
  · intro _
    rw [decodeForm_17 z (by omega), decodeSt, if_pos (by simp only [bits]; omega), fieldAt_eq s 17 z (by omega), fieldAt_eq b 11 z (by omega), fieldAt_eq p 8 z (by omega), fieldAt_eq w 5 z (by omega)]
theorem str (s : BitVec 6) (b : BitVec 6) (p : BitVec 3) (w : BitVec 2) (c : BitVec 3) : Statement (.str s b p w c) := by
  have := s.isLt; have := b.isLt; have := p.isLt; have := w.isLt; have := c.isLt
  generalize hw : word 0x88000008 [place s 17, place b 11, place p 8, place w 5, place c 0] = z
  refine of z hw rfl ?_ ?_ <;> simp only [word, place, Nat.reducePow] at hw
  · omega
  · intro _
    rw [decodeForm_17 z (by omega), decodeSt, if_neg (by simp only [bits]; omega), if_pos (by simp only [bits]; omega), fieldAt_eq s 17 z (by omega), fieldAt_eq b 11 z (by omega), fieldAt_eq p 8 z (by omega), fieldAt_eq w 5 z (by omega), fieldAt_eq c 0 z (by omega)]
theorem atomAdd (l : BitVec 4) (d : BitVec 6) (b : BitVec 6) (p : BitVec 3) (o : BitVec 2) (s : BitVec 1) : Statement (.atomAdd l d b p o s) := by
  have := l.isLt; have := d.isLt; have := b.isLt; have := p.isLt; have := o.isLt; have := s.isLt
  generalize hw : word 0x90000000 [place l 23, place d 17, place b 11, place p 8, place o 6, place s 5] = z
  refine of z hw rfl ?_ ?_ <;> simp only [word, place, Nat.reducePow] at hw
  · omega
  · intro _
    rw [decodeForm_18 z (by omega), decodeAtom, if_pos (by simp only [bits]; omega), fieldAt_eq l 23 z (by omega), fieldAt_eq d 17 z (by omega), fieldAt_eq b 11 z (by omega), fieldAt_eq p 8 z (by omega), fieldAt_eq o 6 z (by omega), fieldAt_eq s 5 z (by omega)]
theorem atomMinI (l : BitVec 4) (d : BitVec 6) (b : BitVec 6) (p : BitVec 3) (o : BitVec 2) (s : BitVec 1) : Statement (.atomMinI l d b p o s) := by
  have := l.isLt; have := d.isLt; have := b.isLt; have := p.isLt; have := o.isLt; have := s.isLt
  generalize hw : word 0x90000001 [place l 23, place d 17, place b 11, place p 8, place o 6, place s 5] = z
  refine of z hw rfl ?_ ?_ <;> simp only [word, place, Nat.reducePow] at hw
  · omega
  · intro _
    rw [decodeForm_18 z (by omega), decodeAtom, if_neg (by simp only [bits]; omega), if_pos (by simp only [bits]; omega), fieldAt_eq l 23 z (by omega), fieldAt_eq d 17 z (by omega), fieldAt_eq b 11 z (by omega), fieldAt_eq p 8 z (by omega), fieldAt_eq o 6 z (by omega), fieldAt_eq s 5 z (by omega)]
theorem atomMaxI (l : BitVec 4) (d : BitVec 6) (b : BitVec 6) (p : BitVec 3) (o : BitVec 2) (s : BitVec 1) : Statement (.atomMaxI l d b p o s) := by
  have := l.isLt; have := d.isLt; have := b.isLt; have := p.isLt; have := o.isLt; have := s.isLt
  generalize hw : word 0x90000002 [place l 23, place d 17, place b 11, place p 8, place o 6, place s 5] = z
  refine of z hw rfl ?_ ?_ <;> simp only [word, place, Nat.reducePow] at hw
  · omega
  · intro _
    rw [decodeForm_18 z (by omega), decodeAtom, if_neg (by simp only [bits]; omega), if_neg (by simp only [bits]; omega), if_pos (by simp only [bits]; omega), fieldAt_eq l 23 z (by omega), fieldAt_eq d 17 z (by omega), fieldAt_eq b 11 z (by omega), fieldAt_eq p 8 z (by omega), fieldAt_eq o 6 z (by omega), fieldAt_eq s 5 z (by omega)]
theorem atomMinN (l : BitVec 4) (d : BitVec 6) (b : BitVec 6) (p : BitVec 3) (o : BitVec 2) (s : BitVec 1) : Statement (.atomMinN l d b p o s) := by
  have := l.isLt; have := d.isLt; have := b.isLt; have := p.isLt; have := o.isLt; have := s.isLt
  generalize hw : word 0x90000003 [place l 23, place d 17, place b 11, place p 8, place o 6, place s 5] = z
  refine of z hw rfl ?_ ?_ <;> simp only [word, place, Nat.reducePow] at hw
  · omega
  · intro _
    rw [decodeForm_18 z (by omega), decodeAtom, if_neg (by simp only [bits]; omega), if_neg (by simp only [bits]; omega), if_neg (by simp only [bits]; omega), if_pos (by simp only [bits]; omega), fieldAt_eq l 23 z (by omega), fieldAt_eq d 17 z (by omega), fieldAt_eq b 11 z (by omega), fieldAt_eq p 8 z (by omega), fieldAt_eq o 6 z (by omega), fieldAt_eq s 5 z (by omega)]
theorem atomMaxN (l : BitVec 4) (d : BitVec 6) (b : BitVec 6) (p : BitVec 3) (o : BitVec 2) (s : BitVec 1) : Statement (.atomMaxN l d b p o s) := by
  have := l.isLt; have := d.isLt; have := b.isLt; have := p.isLt; have := o.isLt; have := s.isLt
  generalize hw : word 0x90000004 [place l 23, place d 17, place b 11, place p 8, place o 6, place s 5] = z
  refine of z hw rfl ?_ ?_ <;> simp only [word, place, Nat.reducePow] at hw
  · omega
  · intro _
    rw [decodeForm_18 z (by omega), decodeAtom, if_neg (by simp only [bits]; omega), if_neg (by simp only [bits]; omega), if_neg (by simp only [bits]; omega), if_neg (by simp only [bits]; omega), if_pos (by simp only [bits]; omega), fieldAt_eq l 23 z (by omega), fieldAt_eq d 17 z (by omega), fieldAt_eq b 11 z (by omega), fieldAt_eq p 8 z (by omega), fieldAt_eq o 6 z (by omega), fieldAt_eq s 5 z (by omega)]
theorem atomAnd (l : BitVec 4) (d : BitVec 6) (b : BitVec 6) (p : BitVec 3) (o : BitVec 2) (s : BitVec 1) : Statement (.atomAnd l d b p o s) := by
  have := l.isLt; have := d.isLt; have := b.isLt; have := p.isLt; have := o.isLt; have := s.isLt
  generalize hw : word 0x90000005 [place l 23, place d 17, place b 11, place p 8, place o 6, place s 5] = z
  refine of z hw rfl ?_ ?_ <;> simp only [word, place, Nat.reducePow] at hw
  · omega
  · intro _
    rw [decodeForm_18 z (by omega), decodeAtom, if_neg (by simp only [bits]; omega), if_neg (by simp only [bits]; omega), if_neg (by simp only [bits]; omega), if_neg (by simp only [bits]; omega), if_neg (by simp only [bits]; omega), if_pos (by simp only [bits]; omega), fieldAt_eq l 23 z (by omega), fieldAt_eq d 17 z (by omega), fieldAt_eq b 11 z (by omega), fieldAt_eq p 8 z (by omega), fieldAt_eq o 6 z (by omega), fieldAt_eq s 5 z (by omega)]
theorem atomOr (l : BitVec 4) (d : BitVec 6) (b : BitVec 6) (p : BitVec 3) (o : BitVec 2) (s : BitVec 1) : Statement (.atomOr l d b p o s) := by
  have := l.isLt; have := d.isLt; have := b.isLt; have := p.isLt; have := o.isLt; have := s.isLt
  generalize hw : word 0x90000006 [place l 23, place d 17, place b 11, place p 8, place o 6, place s 5] = z
  refine of z hw rfl ?_ ?_ <;> simp only [word, place, Nat.reducePow] at hw
  · omega
  · intro _
    rw [decodeForm_18 z (by omega), decodeAtom, if_neg (by simp only [bits]; omega), if_neg (by simp only [bits]; omega), if_neg (by simp only [bits]; omega), if_neg (by simp only [bits]; omega), if_neg (by simp only [bits]; omega), if_neg (by simp only [bits]; omega), if_pos (by simp only [bits]; omega), fieldAt_eq l 23 z (by omega), fieldAt_eq d 17 z (by omega), fieldAt_eq b 11 z (by omega), fieldAt_eq p 8 z (by omega), fieldAt_eq o 6 z (by omega), fieldAt_eq s 5 z (by omega)]
theorem atomXor (l : BitVec 4) (d : BitVec 6) (b : BitVec 6) (p : BitVec 3) (o : BitVec 2) (s : BitVec 1) : Statement (.atomXor l d b p o s) := by
  have := l.isLt; have := d.isLt; have := b.isLt; have := p.isLt; have := o.isLt; have := s.isLt
  generalize hw : word 0x90000007 [place l 23, place d 17, place b 11, place p 8, place o 6, place s 5] = z
  refine of z hw rfl ?_ ?_ <;> simp only [word, place, Nat.reducePow] at hw
  · omega
  · intro _
    rw [decodeForm_18 z (by omega), decodeAtom, if_neg (by simp only [bits]; omega), if_neg (by simp only [bits]; omega), if_neg (by simp only [bits]; omega), if_neg (by simp only [bits]; omega), if_neg (by simp only [bits]; omega), if_neg (by simp only [bits]; omega), if_neg (by simp only [bits]; omega), if_pos (by simp only [bits]; omega), fieldAt_eq l 23 z (by omega), fieldAt_eq d 17 z (by omega), fieldAt_eq b 11 z (by omega), fieldAt_eq p 8 z (by omega), fieldAt_eq o 6 z (by omega), fieldAt_eq s 5 z (by omega)]
theorem atomXchg (l : BitVec 4) (d : BitVec 6) (b : BitVec 6) (p : BitVec 3) (o : BitVec 2) (s : BitVec 1) : Statement (.atomXchg l d b p o s) := by
  have := l.isLt; have := d.isLt; have := b.isLt; have := p.isLt; have := o.isLt; have := s.isLt
  generalize hw : word 0x90000008 [place l 23, place d 17, place b 11, place p 8, place o 6, place s 5] = z
  refine of z hw rfl ?_ ?_ <;> simp only [word, place, Nat.reducePow] at hw
  · omega
  · intro _
    rw [decodeForm_18 z (by omega), decodeAtom, if_neg (by simp only [bits]; omega), if_neg (by simp only [bits]; omega), if_neg (by simp only [bits]; omega), if_neg (by simp only [bits]; omega), if_neg (by simp only [bits]; omega), if_neg (by simp only [bits]; omega), if_neg (by simp only [bits]; omega), if_neg (by simp only [bits]; omega), if_pos (by simp only [bits]; omega), fieldAt_eq l 23 z (by omega), fieldAt_eq d 17 z (by omega), fieldAt_eq b 11 z (by omega), fieldAt_eq p 8 z (by omega), fieldAt_eq o 6 z (by omega), fieldAt_eq s 5 z (by omega)]
theorem atomCas (l : BitVec 4) (d : BitVec 5) (b : BitVec 6) (p : BitVec 3) (o : BitVec 2) (s : BitVec 1) : Statement (.atomCas l d b p o s) := by
  have := l.isLt; have := d.isLt; have := b.isLt; have := p.isLt; have := o.isLt; have := s.isLt
  generalize hw : word 0x90000009 [place l 23, place d 18, place b 11, place p 8, place o 6, place s 5] = z
  refine of z hw rfl ?_ ?_ <;> simp only [word, place, Nat.reducePow] at hw
  · omega
  · intro _
    rw [decodeForm_18 z (by omega), decodeAtom, if_neg (by simp only [bits]; omega), if_neg (by simp only [bits]; omega), if_neg (by simp only [bits]; omega), if_neg (by simp only [bits]; omega), if_neg (by simp only [bits]; omega), if_neg (by simp only [bits]; omega), if_neg (by simp only [bits]; omega), if_neg (by simp only [bits]; omega), if_neg (by simp only [bits]; omega), if_pos (by simp only [bits]; omega), fieldAt_eq l 23 z (by omega), fieldAt_eq d 18 z (by omega), fieldAt_eq b 11 z (by omega), fieldAt_eq p 8 z (by omega), fieldAt_eq o 6 z (by omega), fieldAt_eq s 5 z (by omega)]
theorem atomFadd (l : BitVec 4) (d : BitVec 6) (b : BitVec 6) (p : BitVec 3) (o : BitVec 2) : Statement (.atomFadd l d b p o) := by
  have := l.isLt; have := d.isLt; have := b.isLt; have := p.isLt; have := o.isLt
  generalize hw : word 0x9000000a [place l 23, place d 17, place b 11, place p 8, place o 6] = z
  refine of z hw rfl ?_ ?_ <;> simp only [word, place, Nat.reducePow] at hw
  · omega
  · intro _
    rw [decodeForm_18 z (by omega), decodeAtom, if_neg (by simp only [bits]; omega), if_neg (by simp only [bits]; omega), if_neg (by simp only [bits]; omega), if_neg (by simp only [bits]; omega), if_neg (by simp only [bits]; omega), if_neg (by simp only [bits]; omega), if_neg (by simp only [bits]; omega), if_neg (by simp only [bits]; omega), if_neg (by simp only [bits]; omega), if_neg (by simp only [bits]; omega), if_pos (by simp only [bits]; omega), fieldAt_eq l 23 z (by omega), fieldAt_eq d 17 z (by omega), fieldAt_eq b 11 z (by omega), fieldAt_eq p 8 z (by omega), fieldAt_eq o 6 z (by omega)]
theorem fence (s : BitVec 3) : Statement (.fence s) := by
  have := s.isLt
  generalize hw : word 0x98000000 [place s 5] = z
  refine of z hw rfl ?_ ?_ <;> simp only [word, place, Nat.reducePow] at hw
  · omega
  · intro _
    rw [decodeForm_19 z (by omega), decodeSync, if_pos (by simp only [bits]; omega), fieldAt_eq s 5 z (by omega)]
theorem wait (t : BitVec 6) (h : BitVec 3) : Statement (.wait t h) := by
  have := t.isLt; have := h.isLt
  generalize hw : word 0x98000001 [place t 11, place h 5] = z
  refine of z hw rfl ?_ ?_ <;> simp only [word, place, Nat.reducePow] at hw
  · omega
  · intro _
    rw [decodeForm_19 z (by omega), decodeSync, if_neg (by simp only [bits]; omega), if_pos (by simp only [bits]; omega), fieldAt_eq t 11 z (by omega), fieldAt_eq h 5 z (by omega)]
theorem pop (d : BitVec 6) (n : BitVec 2) (p : BitVec 3) : Statement (.pop d n p) := by
  have := d.isLt; have := n.isLt; have := p.isLt
  generalize hw : word 0xa0000000 [place d 17, place n 11, place p 8] = z
  refine of z hw rfl ?_ ?_ <;> simp only [word, place, Nat.reducePow] at hw
  · omega
  · intro _
    rw [decodeForm_20 z (by omega), decodeQueue, if_neg (by simp only [bits]; omega), if_neg (by simp only [bits]; omega), if_pos (by simp only [bits]; omega), fieldAt_eq d 17 z (by omega), fieldAt_eq n 11 z (by omega), fieldAt_eq p 8 z (by omega)]
theorem push (s : BitVec 6) (n : BitVec 2) (p : BitVec 3) : Statement (.push s n p) := by
  have := s.isLt; have := n.isLt; have := p.isLt
  generalize hw : word 0xa0000001 [place s 17, place n 11, place p 8] = z
  refine of z hw rfl ?_ ?_ <;> simp only [word, place, Nat.reducePow] at hw
  · omega
  · intro _
    rw [decodeForm_20 z (by omega), decodeQueue, if_neg (by simp only [bits]; omega), if_neg (by simp only [bits]; omega), if_neg (by simp only [bits]; omega), if_pos (by simp only [bits]; omega), fieldAt_eq s 17 z (by omega), fieldAt_eq n 11 z (by omega), fieldAt_eq p 8 z (by omega)]
theorem qld (i : BitVec 4) (n : BitVec 2) (k : BitVec 4) : Statement (.qld i n k) := by
  have := i.isLt; have := n.isLt; have := k.isLt
  generalize hw : word 0xa0000002 [place i 19, place n 17, place k 11] = z
  refine of z hw rfl ?_ ?_ <;> simp only [word, place, Nat.reducePow] at hw
  · omega
  · intro _
    rw [decodeForm_20 z (by omega), decodeQueue, if_neg (by simp only [bits]; omega), if_neg (by simp only [bits]; omega), if_neg (by simp only [bits]; omega), if_neg (by simp only [bits]; omega), if_pos (by simp only [bits]; omega), fieldAt_eq i 19 z (by omega), fieldAt_eq n 17 z (by omega), fieldAt_eq k 11 z (by omega)]
theorem qst (i : BitVec 4) (n : BitVec 2) (k : BitVec 4) : Statement (.qst i n k) := by
  have := i.isLt; have := n.isLt; have := k.isLt
  generalize hw : word 0xa0000003 [place i 19, place n 17, place k 11] = z
  refine of z hw rfl ?_ ?_ <;> simp only [word, place, Nat.reducePow] at hw
  · omega
  · intro _
    rw [decodeForm_20 z (by omega), decodeQueue, if_neg (by simp only [bits]; omega), if_neg (by simp only [bits]; omega), if_neg (by simp only [bits]; omega), if_neg (by simp only [bits]; omega), if_neg (by simp only [bits]; omega), if_pos (by simp only [bits]; omega), fieldAt_eq i 19 z (by omega), fieldAt_eq n 17 z (by omega), fieldAt_eq k 11 z (by omega)]
theorem yopReg (d : BitVec 4) (a : BitVec 4) (o : BitVec 4) (b : BitVec 4) : Statement (.yopReg d a o b) := by
  have := d.isLt; have := a.isLt; have := o.isLt; have := b.isLt
  generalize hw : word 0xa0000004 [place d 23, place a 19, place o 15, place b 5] = z
  refine of z hw rfl ?_ ?_ <;> simp only [word, place, Nat.reducePow] at hw
  · omega
  · intro hf
    have : o.toNat ≤ 10 := checked hf
    rw [decodeForm_20 z (by omega), decodeQueue, if_neg (by simp only [bits]; omega), if_neg (by simp only [bits]; omega), if_neg (by simp only [bits]; omega), if_neg (by simp only [bits]; omega), if_neg (by simp only [bits]; omega), if_neg (by simp only [bits]; omega), if_pos (by simp only [bits]; omega), fieldAt_eq d 23 z (by omega), fieldAt_eq a 19 z (by omega), fieldAt_eq o 15 z (by omega), fieldAt_eq b 5 z (by omega)]
theorem yopImm (d : BitVec 4) (a : BitVec 4) (o : BitVec 4) (i : BitVec 9) : Statement (.yopImm d a o i) := by
  have := d.isLt; have := a.isLt; have := o.isLt; have := i.isLt
  generalize hw : word 0xa0004004 [place d 23, place a 19, place o 15, place i 5] = z
  refine of z hw rfl ?_ ?_ <;> simp only [word, place, Nat.reducePow] at hw
  · omega
  · intro hf
    have : o.toNat ≤ 10 := checked hf
    rw [decodeForm_20 z (by omega), decodeQueue, if_neg (by simp only [bits]; omega), if_neg (by simp only [bits]; omega), if_neg (by simp only [bits]; omega), if_neg (by simp only [bits]; omega), if_neg (by simp only [bits]; omega), if_neg (by simp only [bits]; omega), if_neg (by simp only [bits]; omega), if_pos (by simp only [bits]; omega), fieldAt_eq d 23 z (by omega), fieldAt_eq a 19 z (by omega), fieldAt_eq o 15 z (by omega), fieldAt_eq i 5 z (by omega)]
theorem yopHrd (d : BitVec 4) (a : BitVec 4) (s : BitVec 4) : Statement (.yopHrd d a s) := by
  have := d.isLt; have := a.isLt; have := s.isLt
  generalize hw : word 0xa005c004 [place d 23, place a 19, place s 5] = z
  refine of z hw rfl ?_ ?_ <;> simp only [word, place, Nat.reducePow] at hw
  · omega
  · intro _
    rw [decodeForm_20 z (by omega), decodeQueue, if_pos (by simp only [bits]; omega), fieldAt_eq d 23 z (by omega), fieldAt_eq a 19 z (by omega), fieldAt_eq s 5 z (by omega)]
theorem yopHwait (a : BitVec 4) : Statement (.yopHwait a) := by
  have := a.isLt
  generalize hw : word 0xa0060004 [place a 19] = z
  refine of z hw rfl ?_ ?_ <;> simp only [word, place, Nat.reducePow] at hw
  · omega
  · intro _
    rw [decodeForm_20 z (by omega), decodeQueue, if_neg (by simp only [bits]; omega), if_pos (by simp only [bits]; omega), fieldAt_eq a 19 z (by omega)]
theorem ybr (a : BitVec 4) (b : BitVec 4) (c : BitVec 3) (o : BitVec 11) : Statement (.ybr a b c o) := by
  have := a.isLt; have := b.isLt; have := c.isLt; have := o.isLt
  generalize hw : word 0xa0000005 [place a 23, place b 19, place c 16, place o 5] = z
  refine of z hw rfl ?_ ?_ <;> simp only [word, place, Nat.reducePow] at hw
  · omega
  · intro _
    rw [decodeForm_20 z (by omega), decodeQueue, if_neg (by simp only [bits]; omega), if_neg (by simp only [bits]; omega), if_neg (by simp only [bits]; omega), if_neg (by simp only [bits]; omega), if_neg (by simp only [bits]; omega), if_neg (by simp only [bits]; omega), if_neg (by simp only [bits]; omega), if_neg (by simp only [bits]; omega), if_pos (by simp only [bits]; omega), fieldAt_eq a 23 z (by omega), fieldAt_eq b 19 z (by omega), fieldAt_eq c 16 z (by omega), fieldAt_eq o 5 z (by omega)]
theorem adone : Statement .adone := by
  generalize hw : word 0xa0000006 [] = z
  refine of z hw rfl ?_ ?_ <;> simp only [word] at hw
  · omega
  · intro _
    rw [decodeForm_20 z (by omega), decodeQueue, if_neg (by simp only [bits]; omega), if_neg (by simp only [bits]; omega), if_neg (by simp only [bits]; omega), if_neg (by simp only [bits]; omega), if_neg (by simp only [bits]; omega), if_neg (by simp only [bits]; omega), if_neg (by simp only [bits]; omega), if_neg (by simp only [bits]; omega), if_neg (by simp only [bits]; omega), if_pos (by simp only [bits]; omega)]
theorem hrd (d : BitVec 6) (k : BitVec 4) (p : BitVec 3) (s : BitVec 4) : Statement (.hrd d k p s) := by
  have := d.isLt; have := k.isLt; have := p.isLt; have := s.isLt
  generalize hw : word 0xa8000000 [place d 17, place k 11, place p 8, place s 0] = z
  refine of z hw rfl ?_ ?_ <;> simp only [word, place, Nat.reducePow] at hw
  · omega
  · intro _
    rw [decodeForm_21 z (by omega), decodeShape, if_pos (by simp only [bits]; omega), fieldAt_eq d 17 z (by omega), fieldAt_eq k 11 z (by omega), fieldAt_eq p 8 z (by omega), fieldAt_eq s 0 z (by omega)]
theorem hwr (d : BitVec 6) (k : BitVec 4) (p : BitVec 3) (s : BitVec 4) : Statement (.hwr d k p s) := by
  have := d.isLt; have := k.isLt; have := p.isLt; have := s.isLt
  generalize hw : word 0xa8000010 [place d 17, place k 11, place p 8, place s 0] = z
  refine of z hw rfl ?_ ?_ <;> simp only [word, place, Nat.reducePow] at hw
  · omega
  · intro _
    rw [decodeForm_21 z (by omega), decodeShape, if_neg (by simp only [bits]; omega), if_pos (by simp only [bits]; omega), fieldAt_eq d 17 z (by omega), fieldAt_eq k 11 z (by omega), fieldAt_eq p 8 z (by omega), fieldAt_eq s 0 z (by omega)]
theorem tcfg (t : BitVec 3) (s : BitVec 6) : Statement (.tcfg t s) := by
  have := t.isLt; have := s.isLt
  generalize hw : word 0xb0000000 [place t 17, place s 11] = z
  refine of z hw rfl ?_ ?_ <;> simp only [word, place, Nat.reducePow] at hw
  · omega
  · intro _
    rw [decodeForm_22 z (by omega), decodeTile, if_pos (by simp only [bits]; omega), fieldAt_eq t 17 z (by omega), fieldAt_eq s 11 z (by omega)]
theorem tld (t : BitVec 3) (b : BitVec 6) : Statement (.tld t b) := by
  have := t.isLt; have := b.isLt
  generalize hw : word 0xb0000001 [place t 17, place b 11] = z
  refine of z hw rfl ?_ ?_ <;> simp only [word, place, Nat.reducePow] at hw
  · omega
  · intro _
    rw [decodeForm_22 z (by omega), decodeTile, if_neg (by simp only [bits]; omega), if_pos (by simp only [bits]; omega), fieldAt_eq t 17 z (by omega), fieldAt_eq b 11 z (by omega)]
theorem tst (t : BitVec 3) (b : BitVec 6) : Statement (.tst t b) := by
  have := t.isLt; have := b.isLt
  generalize hw : word 0xb0000002 [place t 17, place b 11] = z
  refine of z hw rfl ?_ ?_ <;> simp only [word, place, Nat.reducePow] at hw
  · omega
  · intro _
    rw [decodeForm_22 z (by omega), decodeTile, if_neg (by simp only [bits]; omega), if_neg (by simp only [bits]; omega), if_pos (by simp only [bits]; omega), fieldAt_eq t 17 z (by omega), fieldAt_eq b 11 z (by omega)]
theorem tzero (t : BitVec 3) : Statement (.tzero t) := by
  have := t.isLt
  generalize hw : word 0xb0000003 [place t 17] = z
  refine of z hw rfl ?_ ?_ <;> simp only [word, place, Nat.reducePow] at hw
  · omega
  · intro _
    rw [decodeForm_22 z (by omega), decodeTile, if_neg (by simp only [bits]; omega), if_neg (by simp only [bits]; omega), if_neg (by simp only [bits]; omega), if_pos (by simp only [bits]; omega), fieldAt_eq t 17 z (by omega)]
theorem ttrans (d : BitVec 3) (s : BitVec 3) : Statement (.ttrans d s) := by
  have := d.isLt; have := s.isLt
  generalize hw : word 0xb0000004 [place d 17, place s 11] = z
  refine of z hw rfl ?_ ?_ <;> simp only [word, place, Nat.reducePow] at hw
  · omega
  · intro _
    rw [decodeForm_22 z (by omega), decodeTile, if_neg (by simp only [bits]; omega), if_neg (by simp only [bits]; omega), if_neg (by simp only [bits]; omega), if_neg (by simp only [bits]; omega), if_pos (by simp only [bits]; omega), fieldAt_eq d 17 z (by omega), fieldAt_eq s 11 z (by omega)]
theorem mma (k : BitVec 4) (f : BitVec 6) (a : BitVec 3) (b : BitVec 3) : Statement (.mma k f a b) := by
  have := k.isLt; have := f.isLt; have := a.isLt; have := b.isLt
  generalize hw : word 0xb8000000 [place k 17, place f 11, place a 8, place b 5] = z
  refine of z hw rfl ?_ ?_ <;> simp only [word, place, Nat.reducePow] at hw
  · omega
  · intro _
    rw [decodeForm_23 z (by omega), decodeMma, if_pos (by simp only [bits]; omega), fieldAt_eq k 17 z (by omega), fieldAt_eq f 11 z (by omega), fieldAt_eq a 8 z (by omega), fieldAt_eq b 5 z (by omega)]
theorem mmaExact (k : BitVec 4) (f : BitVec 6) (a : BitVec 3) (b : BitVec 3) : Statement (.mmaExact k f a b) := by
  have := k.isLt; have := f.isLt; have := a.isLt; have := b.isLt
  generalize hw : word 0xb8000001 [place k 17, place f 11, place a 8, place b 5] = z
  refine of z hw rfl ?_ ?_ <;> simp only [word, place, Nat.reducePow] at hw
  · omega
  · intro _
    rw [decodeForm_23 z (by omega), decodeMma, if_neg (by simp only [bits]; omega), if_pos (by simp only [bits]; omega), fieldAt_eq k 17 z (by omega), fieldAt_eq f 11 z (by omega), fieldAt_eq a 8 z (by omega), fieldAt_eq b 5 z (by omega)]
theorem mmaSb (k : BitVec 4) (f : BitVec 6) (a : BitVec 3) (b : BitVec 3) : Statement (.mmaSb k f a b) := by
  have := k.isLt; have := f.isLt; have := a.isLt; have := b.isLt
  generalize hw : word 0xb8000002 [place k 17, place f 11, place a 8, place b 5] = z
  refine of z hw rfl ?_ ?_ <;> simp only [word, place, Nat.reducePow] at hw
  · omega
  · intro _
    rw [decodeForm_23 z (by omega), decodeMma, if_neg (by simp only [bits]; omega), if_neg (by simp only [bits]; omega), if_pos (by simp only [bits]; omega), fieldAt_eq k 17 z (by omega), fieldAt_eq f 11 z (by omega), fieldAt_eq a 8 z (by omega), fieldAt_eq b 5 z (by omega)]
theorem mmaWide (k : BitVec 4) (f : BitVec 6) (a : BitVec 3) (b : BitVec 3) : Statement (.mmaWide k f a b) := by
  have := k.isLt; have := f.isLt; have := a.isLt; have := b.isLt
  generalize hw : word 0xb8000003 [place k 17, place f 11, place a 8, place b 5] = z
  refine of z hw rfl ?_ ?_ <;> simp only [word, place, Nat.reducePow] at hw
  · omega
  · intro _
    rw [decodeForm_23 z (by omega), decodeMma, if_neg (by simp only [bits]; omega), if_neg (by simp only [bits]; omega), if_neg (by simp only [bits]; omega), if_pos (by simp only [bits]; omega), fieldAt_eq k 17 z (by omega), fieldAt_eq f 11 z (by omega), fieldAt_eq a 8 z (by omega), fieldAt_eq b 5 z (by omega)]
theorem zrd (k : BitVec 4) (r : BitVec 6) (d : BitVec 3) : Statement (.zrd k r d) := by
  have := k.isLt; have := r.isLt; have := d.isLt
  generalize hw : word 0xb8000004 [place k 17, place r 11, place d 8] = z
  refine of z hw rfl ?_ ?_ <;> simp only [word, place, Nat.reducePow] at hw
  · omega
  · intro _
    rw [decodeForm_23 z (by omega), decodeMma, if_neg (by simp only [bits]; omega), if_neg (by simp only [bits]; omega), if_neg (by simp only [bits]; omega), if_neg (by simp only [bits]; omega), if_pos (by simp only [bits]; omega), fieldAt_eq k 17 z (by omega), fieldAt_eq r 11 z (by omega), fieldAt_eq d 8 z (by omega)]
theorem zclr (k : BitVec 4) (n : BitVec 3) : Statement (.zclr k n) := by
  have := k.isLt; have := n.isLt
  generalize hw : word 0xb8000005 [place k 17, place n 5] = z
  refine of z hw rfl ?_ ?_ <;> simp only [word, place, Nat.reducePow] at hw
  · omega
  · intro _
    rw [decodeForm_23 z (by omega), decodeMma, if_neg (by simp only [bits]; omega), if_neg (by simp only [bits]; omega), if_neg (by simp only [bits]; omega), if_neg (by simp only [bits]; omega), if_neg (by simp only [bits]; omega), if_pos (by simp only [bits]; omega), fieldAt_eq k 17 z (by omega), fieldAt_eq n 5 z (by omega)]
theorem zld (k : BitVec 4) (b : BitVec 6) (n : BitVec 3) : Statement (.zld k b n) := by
  have := k.isLt; have := b.isLt; have := n.isLt
  generalize hw : word 0xb8000006 [place k 17, place b 11, place n 5] = z
  refine of z hw rfl ?_ ?_ <;> simp only [word, place, Nat.reducePow] at hw
  · omega
  · intro _
    rw [decodeForm_23 z (by omega), decodeMma, if_neg (by simp only [bits]; omega), if_neg (by simp only [bits]; omega), if_neg (by simp only [bits]; omega), if_neg (by simp only [bits]; omega), if_neg (by simp only [bits]; omega), if_neg (by simp only [bits]; omega), if_pos (by simp only [bits]; omega), fieldAt_eq k 17 z (by omega), fieldAt_eq b 11 z (by omega), fieldAt_eq n 5 z (by omega)]
theorem zst (k : BitVec 4) (b : BitVec 6) : Statement (.zst k b) := by
  have := k.isLt; have := b.isLt
  generalize hw : word 0xb8000007 [place k 17, place b 11] = z
  refine of z hw rfl ?_ ?_ <;> simp only [word, place, Nat.reducePow] at hw
  · omega
  · intro _
    rw [decodeForm_23 z (by omega), decodeMma, if_neg (by simp only [bits]; omega), if_neg (by simp only [bits]; omega), if_neg (by simp only [bits]; omega), if_neg (by simp only [bits]; omega), if_neg (by simp only [bits]; omega), if_neg (by simp only [bits]; omega), if_neg (by simp only [bits]; omega), if_pos (by simp only [bits]; omega), fieldAt_eq k 17 z (by omega), fieldAt_eq b 11 z (by omega)]
theorem copy (r : BitVec 6) : Statement (.copy r) := by
  have := r.isLt
  generalize hw : word 0xc0000000 [place r 11] = z
  refine of z hw rfl ?_ ?_ <;> simp only [word, place, Nat.reducePow] at hw
  · omega
  · intro _
    rw [decodeForm_24 z (by omega), decodeCopy, if_pos (by simp only [bits]; omega), fieldAt_eq r 11 z (by omega)]
theorem copyh (d : BitVec 4) (s : BitVec 4) : Statement (.copyh d s) := by
  have := d.isLt; have := s.isLt
  generalize hw : word 0xc0000001 [place d 17, place s 11] = z
  refine of z hw rfl ?_ ?_ <;> simp only [word, place, Nat.reducePow] at hw
  · omega
  · intro _
    rw [decodeForm_24 z (by omega), decodeCopy, if_neg (by simp only [bits]; omega), if_pos (by simp only [bits]; omega), fieldAt_eq d 17 z (by omega), fieldAt_eq s 11 z (by omega)]
theorem gather (i : BitVec 6) (r : BitVec 6) (p : BitVec 3) (w : BitVec 1) : Statement (.gather i r p w) := by
  have := i.isLt; have := r.isLt; have := p.isLt; have := w.isLt
  generalize hw : word 0xc0000002 [place i 17, place r 11, place p 8, place w 5] = z
  refine of z hw rfl ?_ ?_ <;> simp only [word, place, Nat.reducePow] at hw
  · omega
  · intro _
    rw [decodeForm_24 z (by omega), decodeCopy, if_neg (by simp only [bits]; omega), if_neg (by simp only [bits]; omega), if_pos (by simp only [bits]; omega), fieldAt_eq i 17 z (by omega), fieldAt_eq r 11 z (by omega), fieldAt_eq p 8 z (by omega), fieldAt_eq w 5 z (by omega)]
theorem recfence (r : BitVec 6) : Statement (.recfence r) := by
  have := r.isLt
  generalize hw : word 0xc0000003 [place r 11] = z
  refine of z hw rfl ?_ ?_ <;> simp only [word, place, Nat.reducePow] at hw
  · omega
  · intro _
    rw [decodeForm_24 z (by omega), decodeCopy, if_neg (by simp only [bits]; omega), if_neg (by simp only [bits]; omega), if_neg (by simp only [bits]; omega), if_pos (by simp only [bits]; omega), fieldAt_eq r 11 z (by omega)]
theorem barinit (m : BitVec 6) (b : BitVec 6) (k : BitVec 2) : Statement (.barinit m b k) := by
  have := m.isLt; have := b.isLt; have := k.isLt
  generalize hw : word 0xc8000000 [place m 17, place b 11, place k 5] = z
  refine of z hw rfl ?_ ?_ <;> simp only [word, place, Nat.reducePow] at hw
  · omega
  · intro _
    rw [decodeForm_25 z (by omega), decodeBar, if_pos (by simp only [bits]; omega), fieldAt_eq m 17 z (by omega), fieldAt_eq b 11 z (by omega), fieldAt_eq k 5 z (by omega)]
theorem arrive (t : BitVec 6) (b : BitVec 6) : Statement (.arrive t b) := by
  have := t.isLt; have := b.isLt
  generalize hw : word 0xc8000001 [place t 17, place b 11] = z
  refine of z hw rfl ?_ ?_ <;> simp only [word, place, Nat.reducePow] at hw
  · omega
  · intro _
    rw [decodeForm_25 z (by omega), decodeBar, if_neg (by simp only [bits]; omega), if_pos (by simp only [bits]; omega), fieldAt_eq t 17 z (by omega), fieldAt_eq b 11 z (by omega)]
theorem waitb (t : BitVec 6) (b : BitVec 6) : Statement (.waitb t b) := by
  have := t.isLt; have := b.isLt
  generalize hw : word 0xc8000002 [place t 17, place b 11] = z
  refine of z hw rfl ?_ ?_ <;> simp only [word, place, Nat.reducePow] at hw
  · omega
  · intro _
    rw [decodeForm_25 z (by omega), decodeBar, if_neg (by simp only [bits]; omega), if_neg (by simp only [bits]; omega), if_pos (by simp only [bits]; omega), fieldAt_eq t 17 z (by omega), fieldAt_eq b 11 z (by omega)]
theorem barsync (b : BitVec 6) : Statement (.barsync b) := by
  have := b.isLt
  generalize hw : word 0xc8000003 [place b 11] = z
  refine of z hw rfl ?_ ?_ <;> simp only [word, place, Nat.reducePow] at hw
  · omega
  · intro _
    rw [decodeForm_25 z (by omega), decodeBar, if_neg (by simp only [bits]; omega), if_neg (by simp only [bits]; omega), if_neg (by simp only [bits]; omega), if_pos (by simp only [bits]; omega), fieldAt_eq b 11 z (by omega)]
theorem barmask (m : BitVec 6) (b : BitVec 6) (k : BitVec 2) : Statement (.barmask m b k) := by
  have := m.isLt; have := b.isLt; have := k.isLt
  generalize hw : word 0xc8000004 [place m 17, place b 11, place k 5] = z
  refine of z hw rfl ?_ ?_ <;> simp only [word, place, Nat.reducePow] at hw
  · omega
  · intro _
    rw [decodeForm_25 z (by omega), decodeBar, if_neg (by simp only [bits]; omega), if_neg (by simp only [bits]; omega), if_neg (by simp only [bits]; omega), if_neg (by simp only [bits]; omega), if_pos (by simp only [bits]; omega), fieldAt_eq m 17 z (by omega), fieldAt_eq b 11 z (by omega), fieldAt_eq k 5 z (by omega)]
theorem discard (l : BitVec 6) (b : BitVec 6) : Statement (.discard l b) := by
  have := l.isLt; have := b.isLt
  generalize hw : word 0xd0000000 [place l 17, place b 11] = z
  refine of z hw rfl ?_ ?_ <;> simp only [word, place, Nat.reducePow] at hw
  · omega
  · intro _
    rw [decodeForm_26 z (by omega), decodePage, if_pos (by simp only [bits]; omega), fieldAt_eq l 17 z (by omega), fieldAt_eq b 11 z (by omega)]
theorem adobeq (d : BitVec 6) (s : BitVec 6) (p : BitVec 3) (k : BitVec 2) : Statement (.adobeq d s p k) := by
  have := d.isLt; have := s.isLt; have := p.isLt; have := k.isLt
  generalize hw : word 0xd0000001 [place d 17, place s 11, place p 8, place k 5] = z
  refine of z hw rfl ?_ ?_ <;> simp only [word, place, Nat.reducePow] at hw
  · omega
  · intro _
    rw [decodeForm_26 z (by omega), decodePage, if_neg (by simp only [bits]; omega), if_pos (by simp only [bits]; omega), fieldAt_eq d 17 z (by omega), fieldAt_eq s 11 z (by omega), fieldAt_eq p 8 z (by omega), fieldAt_eq k 5 z (by omega)]
theorem tlbinv (l : BitVec 6) (a : BitVec 6) (k : BitVec 2) : Statement (.tlbinv l a k) := by
  have := l.isLt; have := a.isLt; have := k.isLt
  generalize hw : word 0xd0000002 [place l 17, place a 11, place k 5] = z
  refine of z hw rfl ?_ ?_ <;> simp only [word, place, Nat.reducePow] at hw
  · omega
  · intro _
    rw [decodeForm_26 z (by omega), decodePage, if_neg (by simp only [bits]; omega), if_neg (by simp only [bits]; omega), if_pos (by simp only [bits]; omega), fieldAt_eq l 17 z (by omega), fieldAt_eq a 11 z (by omega), fieldAt_eq k 5 z (by omega)]
theorem mappg (d : BitVec 6) (a : BitVec 6) (k : BitVec 3) : Statement (.mappg d a k) := by
  have := d.isLt; have := a.isLt; have := k.isLt
  generalize hw : word 0xd0000003 [place d 17, place a 11, place k 5] = z
  refine of z hw rfl ?_ ?_ <;> simp only [word, place, Nat.reducePow] at hw
  · omega
  · intro _
    rw [decodeForm_26 z (by omega), decodePage, if_neg (by simp only [bits]; omega), if_neg (by simp only [bits]; omega), if_neg (by simp only [bits]; omega), if_pos (by simp only [bits]; omega), fieldAt_eq d 17 z (by omega), fieldAt_eq a 11 z (by omega), fieldAt_eq k 5 z (by omega)]
theorem fretResume : Statement .fretResume := by
  generalize hw : word 0xd0000004 [] = z
  refine of z hw rfl ?_ ?_ <;> simp only [word] at hw
  · omega
  · intro _
    rw [decodeForm_26 z (by omega), decodePage, if_neg (by simp only [bits]; omega), if_neg (by simp only [bits]; omega), if_neg (by simp only [bits]; omega), if_neg (by simp only [bits]; omega), if_pos (by simp only [bits]; omega)]
theorem fretEscalate : Statement .fretEscalate := by
  generalize hw : word 0xd0000024 [] = z
  refine of z hw rfl ?_ ?_ <;> simp only [word] at hw
  · omega
  · intro _
    rw [decodeForm_26 z (by omega), decodePage, if_neg (by simp only [bits]; omega), if_neg (by simp only [bits]; omega), if_neg (by simp only [bits]; omega), if_neg (by simp only [bits]; omega), if_neg (by simp only [bits]; omega), if_pos (by simp only [bits]; omega)]
theorem fretKill : Statement .fretKill := by
  generalize hw : word 0xd0000044 [] = z
  refine of z hw rfl ?_ ?_ <;> simp only [word] at hw
  · omega
  · intro _
    rw [decodeForm_26 z (by omega), decodePage, if_neg (by simp only [bits]; omega), if_neg (by simp only [bits]; omega), if_neg (by simp only [bits]; omega), if_neg (by simp only [bits]; omega), if_neg (by simp only [bits]; omega), if_neg (by simp only [bits]; omega), if_pos (by simp only [bits]; omega)]
theorem fretPoolEmpty : Statement .fretPoolEmpty := by
  generalize hw : word 0xd0000064 [] = z
  refine of z hw rfl ?_ ?_ <;> simp only [word] at hw
  · omega
  · intro _
    rw [decodeForm_26 z (by omega), decodePage, if_neg (by simp only [bits]; omega), if_neg (by simp only [bits]; omega), if_neg (by simp only [bits]; omega), if_neg (by simp only [bits]; omega), if_neg (by simp only [bits]; omega), if_neg (by simp only [bits]; omega), if_neg (by simp only [bits]; omega), if_pos (by simp only [bits]; omega)]
theorem burn (s : BitVec 6) (p : BitVec 3) : Statement (.burn s p) := by
  have := s.isLt; have := p.isLt
  generalize hw : word 0xd8000000 [place s 11, place p 2] = z
  refine of z hw rfl ?_ ?_ <;> simp only [word, place, Nat.reducePow] at hw
  · omega
  · intro _
    rw [decodeForm_27 z (by omega), decodeBal, if_pos (by simp only [bits]; omega), fieldAt_eq s 11 z (by omega), fieldAt_eq p 2 z (by omega)]
theorem shunt (s : BitVec 6) (p : BitVec 3) : Statement (.shunt s p) := by
  have := s.isLt; have := p.isLt
  generalize hw : word 0xd8000001 [place s 11, place p 2] = z
  refine of z hw rfl ?_ ?_ <;> simp only [word, place, Nat.reducePow] at hw
  · omega
  · intro _
    rw [decodeForm_27 z (by omega), decodeBal, if_neg (by simp only [bits]; omega), if_pos (by simp only [bits]; omega), fieldAt_eq s 11 z (by omega), fieldAt_eq p 2 z (by omega)]
theorem balrd (d : BitVec 6) (p : BitVec 3) : Statement (.balrd d p) := by
  have := d.isLt; have := p.isLt
  generalize hw : word 0xd8000002 [place d 17, place p 2] = z
  refine of z hw rfl ?_ ?_ <;> simp only [word, place, Nat.reducePow] at hw
  · omega
  · intro _
    rw [decodeForm_27 z (by omega), decodeBal, if_neg (by simp only [bits]; omega), if_neg (by simp only [bits]; omega), if_pos (by simp only [bits]; omega), fieldAt_eq d 17 z (by omega), fieldAt_eq p 2 z (by omega)]
theorem balclass (s : BitVec 6) (p : BitVec 3) : Statement (.balclass s p) := by
  have := s.isLt; have := p.isLt
  generalize hw : word 0xd8000003 [place s 11, place p 2] = z
  refine of z hw rfl ?_ ?_ <;> simp only [word, place, Nat.reducePow] at hw
  · omega
  · intro _
    rw [decodeForm_27 z (by omega), decodeBal, if_neg (by simp only [bits]; omega), if_neg (by simp only [bits]; omega), if_neg (by simp only [bits]; omega), if_pos (by simp only [bits]; omega), fieldAt_eq s 11 z (by omega), fieldAt_eq p 2 z (by omega)]
theorem trap (c : BitVec 21) : Statement (.trap c) := by
  have := c.isLt
  generalize hw : word 0xe0000000 [place c 0] = z
  refine of z hw rfl ?_ ?_ <;> simp only [word, place, Nat.reducePow] at hw
  · omega
  · intro _
    rw [decodeForm_28 z (by omega), decodeTrap, if_pos (by simp only [bits]; omega), fieldAt_eq c 0 z (by omega)]
theorem bkpt (g : BitVec 21) : Statement (.bkpt g) := by
  have := g.isLt
  generalize hw : word 0xe0200000 [place g 0] = z
  refine of z hw rfl ?_ ?_ <;> simp only [word, place, Nat.reducePow] at hw
  · omega
  · intro _
    rw [decodeForm_28 z (by omega), decodeTrap, if_neg (by simp only [bits]; omega), if_pos (by simp only [bits]; omega), fieldAt_eq g 0 z (by omega)]
theorem ret : Statement .ret := by
  generalize hw : word 0xe8000000 [] = z
  refine of z hw rfl ?_ ?_ <;> simp only [word] at hw
  · omega
  · intro _
    rw [decodeForm_29 z (by omega), decodeFrame, if_pos (by simp only [bits]; omega)]
theorem unwind (t : BitVec 8) : Statement (.unwind t) := by
  have := t.isLt
  generalize hw : word 0xe8200000 [place t 0] = z
  refine of z hw rfl ?_ ?_ <;> simp only [word, place, Nat.reducePow] at hw
  · omega
  · intro _
    rw [decodeForm_29 z (by omega), decodeFrame, if_neg (by simp only [bits]; omega), if_pos (by simp only [bits]; omega), fieldAt_eq t 0 z (by omega)]
theorem callx (t : BitVec 6) (d : BitVec 6) : Statement (.callx t d) := by
  have := t.isLt; have := d.isLt
  generalize hw : word 0xe8400000 [place t 15, place d 9] = z
  refine of z hw rfl ?_ ?_ <;> simp only [word, place, Nat.reducePow] at hw
  · omega
  · intro _
    rw [decodeForm_29 z (by omega), decodeFrame, if_neg (by simp only [bits]; omega), if_neg (by simp only [bits]; omega), if_pos (by simp only [bits]; omega), fieldAt_eq t 15 z (by omega), fieldAt_eq d 9 z (by omega)]
theorem rand (t : BitVec 4) (d : BitVec 6) (p : BitVec 3) : Statement (.rand t d p) := by
  have := t.isLt; have := d.isLt; have := p.isLt
  generalize hw : word 0xf0000000 [place t 23, place d 17, place p 2] = z
  refine of z hw rfl ?_ ?_ <;> simp only [word, place, Nat.reducePow] at hw
  · omega
  · intro _
    rw [decodeForm_30 z (by omega), decodeRng, if_pos (by simp only [bits]; omega), fieldAt_eq t 23 z (by omega), fieldAt_eq d 17 z (by omega), fieldAt_eq p 2 z (by omega)]
theorem seed (a : BitVec 6) (b : BitVec 6) (p : BitVec 3) : Statement (.seed a b p) := by
  have := a.isLt; have := b.isLt; have := p.isLt
  generalize hw : word 0xf0000001 [place a 11, place b 5, place p 2] = z
  refine of z hw rfl ?_ ?_ <;> simp only [word, place, Nat.reducePow] at hw
  · omega
  · intro _
    rw [decodeForm_30 z (by omega), decodeRng, if_neg (by simp only [bits]; omega), if_pos (by simp only [bits]; omega), fieldAt_eq a 11 z (by omega), fieldAt_eq b 5 z (by omega), fieldAt_eq p 2 z (by omega)]
theorem catsample (t : BitVec 1) (d : BitVec 6) (a : BitVec 6) (p : BitVec 3) : Statement (.catsample t d a p) := by
  have := t.isLt; have := d.isLt; have := a.isLt; have := p.isLt
  generalize hw : word 0xf4000002 [place t 24, place d 17, place a 11, place p 2] = z
  refine of z hw rfl ?_ ?_ <;> simp only [word, place, Nat.reducePow] at hw
  · omega
  · intro _
    rw [decodeForm_30 z (by omega), decodeRng, if_neg (by simp only [bits]; omega), if_neg (by simp only [bits]; omega), if_pos (by simp only [bits]; omega), fieldAt_eq t 24 z (by omega), fieldAt_eq d 17 z (by omega), fieldAt_eq a 11 z (by omega), fieldAt_eq p 2 z (by omega)]
theorem granuleGrant (core : Nat) : Statement (.granuleGrant core) := fun h => absurd h Bool.false_ne_true
theorem siltTrigger (core : Nat) : Statement (.siltTrigger core) := fun h => absurd h Bool.false_ne_true
theorem siltSpill (core : Nat) : Statement (.siltSpill core) := fun h => absurd h Bool.false_ne_true
theorem frameRefill (gid : Nat) : Statement (.frameRefill gid) := fun h => absurd h Bool.false_ne_true
theorem loadReturn (gid : Nat) (op : Nat) : Statement (.loadReturn gid op) := fun h => absurd h Bool.false_ne_true
theorem storePerformed (gid : Nat) (op : Nat) : Statement (.storePerformed gid op) := fun h => absurd h Bool.false_ne_true
theorem atomicPerformed (gid : Nat) (op : Nat) : Statement (.atomicPerformed gid op) := fun h => absurd h Bool.false_ne_true
theorem sfuStart (core : Nat) (pipe : Nat) : Statement (.sfuStart core pipe) := fun h => absurd h Bool.false_ne_true
theorem sfuResult (core : Nat) (pipe : Nat) : Statement (.sfuResult core pipe) := fun h => absurd h Bool.false_ne_true
theorem queueEntryFill (gid : Nat) (op : Nat) : Statement (.queueEntryFill gid op) := fun h => absurd h Bool.false_ne_true
theorem qstWritePerformed (gid : Nat) (op : Nat) : Statement (.qstWritePerformed gid op) := fun h => absurd h Bool.false_ne_true
theorem handlerEntry (gid : Nat) : Statement (.handlerEntry gid) := fun h => absurd h Bool.false_ne_true
theorem handlerFrameGrant (gid : Nat) : Statement (.handlerFrameGrant gid) := fun h => absurd h Bool.false_ne_true
theorem groupSave (gid : Nat) : Statement (.groupSave gid) := fun h => absurd h Bool.false_ne_true
theorem groupDrained (gid : Nat) : Statement (.groupDrained gid) := fun h => absurd h Bool.false_ne_true
theorem barrierArrival (gid : Nat) : Statement (.barrierArrival gid) := fun h => absurd h Bool.false_ne_true
theorem enqAppend (gid : Nat) (op : Nat) : Statement (.enqAppend gid op) := fun h => absurd h Bool.false_ne_true
theorem copyComplete (core : Nat) : Statement (.copyComplete core) := fun h => absurd h Bool.false_ne_true
theorem matrixOpStart (core : Nat) (gid : Nat) : Statement (.matrixOpStart core gid) := fun h => absurd h Bool.false_ne_true
theorem matrixOpComplete (core : Nat) : Statement (.matrixOpComplete core) := fun h => absurd h Bool.false_ne_true
theorem errorDetection (unit : FaultUnit) (site : ErrorSite) : Statement (.errorDetection unit site) := fun h => absurd h Bool.false_ne_true
theorem selfTestPass (unit : FaultUnit) (reproduced : Bool) : Statement (.selfTestPass unit reproduced) := fun h => absurd h Bool.false_ne_true
theorem occurrenceExpiry (unit : FaultUnit) : Statement (.occurrenceExpiry unit) := fun h => absurd h Bool.false_ne_true
theorem issueResume (core : Nat) : Statement (.issueResume core) := fun h => absurd h Bool.false_ne_true
theorem estimateWindowEnd (core : Nat) : Statement (.estimateWindowEnd core) := fun h => absurd h Bool.false_ne_true
theorem midpointSample (upper : Nat) (dev : BitVec 16) : Statement (.midpointSample upper dev) := fun h => absurd h Bool.false_ne_true
theorem throttleRelease (core : Nat) : Statement (.throttleRelease core) := fun h => absurd h Bool.false_ne_true
theorem imbalanceTrap (upper : Nat) : Statement (.imbalanceTrap upper) := fun h => absurd h Bool.false_ne_true
theorem wakeRegisterWrite (queue : Nat) : Statement (.wakeRegisterWrite queue) := fun h => absurd h Bool.false_ne_true
theorem queueScan (die : Nat) (slot : Nat) : Statement (.queueScan die slot) := fun h => absurd h Bool.false_ne_true
theorem queueMap (die : Nat) (queue : Nat) : Statement (.queueMap die queue) := fun h => absurd h Bool.false_ne_true
theorem clusterPlacement (launch : Nat) (cluster : Nat) : Statement (.clusterPlacement launch cluster) := fun h => absurd h Bool.false_ne_true
theorem startTimeReached (launch : Nat) : Statement (.startTimeReached launch) := fun h => absurd h Bool.false_ne_true
theorem teamCompletion (team : Nat) : Statement (.teamCompletion team) := fun h => absurd h Bool.false_ne_true
theorem versionCommit (team : Nat) : Statement (.versionCommit team) := fun h => absurd h Bool.false_ne_true
theorem spatialPreemption (launch : Nat) (cluster : Nat) (origin : Nat) : Statement (.spatialPreemption launch cluster origin) := fun h => absurd h Bool.false_ne_true
theorem teamRestore (team : Nat) : Statement (.teamRestore team) := fun h => absurd h Bool.false_ne_true
theorem placementTimeout (launch : Nat) (cluster : Nat) : Statement (.placementTimeout launch cluster) := fun h => absurd h Bool.false_ne_true
theorem hotSpotMigration (die : Nat) : Statement (.hotSpotMigration die) := fun h => absurd h Bool.false_ne_true
theorem gangKill (gang : Nat) : Statement (.gangKill gang) := fun h => absurd h Bool.false_ne_true
theorem gangRelaunch (gang : Nat) : Statement (.gangRelaunch gang) := fun h => absurd h Bool.false_ne_true
theorem stallSample (sample : Sample) : Statement (.stallSample sample) := fun h => absurd h Bool.false_ne_true
theorem plotRequest (die : Nat) (plot : Nat) (code : BitVec 4) : Statement (.plotRequest die plot code) := fun h => absurd h Bool.false_ne_true
theorem railSwitchSettle (die : Nat) (plot : Nat) : Statement (.railSwitchSettle die plot) := fun h => absurd h Bool.false_ne_true
theorem frequencyStep (die : Nat) (plot : Nat) : Statement (.frequencyStep die plot) := fun h => absurd h Bool.false_ne_true
theorem droopInjection (die : Nat) (plot : Nat) (sensed : Bool) : Statement (.droopInjection die plot sensed) := fun h => absurd h Bool.false_ne_true
theorem injectionEnd (die : Nat) (plot : Nat) : Statement (.injectionEnd die plot) := fun h => absurd h Bool.false_ne_true
theorem plotctlWrite (die : Nat) (plot : Nat) (value : BitVec 64) : Statement (.plotctlWrite die plot value) := fun h => absurd h Bool.false_ne_true
theorem dieOffline (die : Nat) (byFault : Bool) : Statement (.dieOffline die byFault) := fun h => absurd h Bool.false_ne_true
theorem slicecfgWrite (slice : Nat) (value : BitVec 64) : Statement (.slicecfgWrite slice value) := fun h => absurd h Bool.false_ne_true
theorem registerWrite (offset : Nat) (value : BitVec 64) : Statement (.registerWrite offset value) := fun h => absurd h Bool.false_ne_true
theorem hbmRequestSlot (stack pending : Nat) : Statement (.hbmRequestSlot stack pending) := fun h => absurd h Bool.false_ne_true
theorem pageWalk (core : Nat) (ctx : Nat) (va : BitVec 64) : Statement (.pageWalk core ctx va) := fun h => absurd h Bool.false_ne_true
theorem pinnedRetry (gid : Nat) (op : Nat) : Statement (.pinnedRetry gid op) := fun h => absurd h Bool.false_ne_true
theorem hostRead (id : Nat) (addr : BitVec 64) (len : Nat) : Statement (.hostRead id addr len) := fun h => absurd h Bool.false_ne_true
theorem hostPostedWrite (addr : BitVec 64) (bytes : List Byte) : Statement (.hostPostedWrite addr bytes) := fun h => absurd h Bool.false_ne_true
theorem hostReadAbort (id : Nat) : Statement (.hostReadAbort id) := fun h => absurd h Bool.false_ne_true
theorem ringRecordWrite (ring : Nat) : Statement (.ringRecordWrite ring) := fun h => absurd h Bool.false_ne_true
theorem msixDeferredSend (ring : Nat) : Statement (.msixDeferredSend ring) := fun h => absurd h Bool.false_ne_true
theorem setctxt (pa : BitVec 64) : Statement (.setctxt pa) := fun h => absurd h Bool.false_ne_true
theorem setqt (pa : BitVec 64) : Statement (.setqt pa) := fun h => absurd h Bool.false_ne_true
theorem map (ctx : BitVec 64) (va : BitVec 64) (attr : BitVec 64) (kind : BitVec 64) : Statement (.map ctx va attr kind) := fun h => absurd h Bool.false_ne_true
theorem unmap (ctx : BitVec 64) (va : BitVec 64) : Statement (.unmap ctx va) := fun h => absurd h Bool.false_ne_true
theorem inval (kind : BitVec 64) (ctx : BitVec 64) (va : BitVec 64) (len : BitVec 64) : Statement (.inval kind ctx va len) := fun h => absurd h Bool.false_ne_true
theorem icinv : Statement (.icinv) := fun h => absurd h Bool.false_ne_true
theorem resume (tag : BitVec 64) (action : BitVec 64) : Statement (.resume tag action) := fun h => absurd h Bool.false_ne_true
theorem kill (task : BitVec 64) (cluster : BitVec 64) : Statement (.kill task cluster) := fun h => absurd h Bool.false_ne_true
theorem sysret (tag : BitVec 64) (result : BitVec 64) : Statement (.sysret tag result) := fun h => absurd h Bool.false_ne_true
theorem dieon (die : BitVec 64) : Statement (.dieon die) := fun h => absurd h Bool.false_ne_true
theorem attest (nonce : BitVec 256) (addr : BitVec 64) : Statement (.attest nonce addr) := fun h => absurd h Bool.false_ne_true
theorem attestReport : Statement (.attestReport) := fun h => absurd h Bool.false_ne_true
theorem timeset (time : BitVec 64) : Statement (.timeset time) := fun h => absurd h Bool.false_ne_true
theorem frameReceive (port : Nat) (frame : NetFrame) : Statement (.frameReceive port frame) := fun h => absurd h Bool.false_ne_true
theorem flitGroupReceive (port : Nat) (flits : List Flit) : Statement (.flitGroupReceive port flits) := fun h => absurd h Bool.false_ne_true
theorem flitTimeout (port : Nat) (rail : Nat) : Statement (.flitTimeout port rail) := fun h => absurd h Bool.false_ne_true
theorem linkTransferStart (die : Nat) (ring : Nat) : Statement (.linkTransferStart die ring) := fun h => absurd h Bool.false_ne_true
theorem linkRemoteTransfer (dst : BitVec 64) (rsig : BitVec 64) (bytes : List Byte) : Statement (.linkRemoteTransfer dst rsig bytes) := fun h => absurd h Bool.false_ne_true
theorem linkAck (die : Nat) (ring : Nat) : Statement (.linkAck die ring) := fun h => absurd h Bool.false_ne_true
theorem coldStart : Statement (.coldStart) := fun h => absurd h Bool.false_ne_true
theorem warmStart : Statement (.warmStart) := fun h => absurd h Bool.false_ne_true
theorem wordNotAnInstruction (w : Word) : Statement (.wordNotAnInstruction w) := fun h => absurd h Bool.false_ne_true
theorem droopClear (die : Nat) (plot : Nat) : Statement (.droopClear die plot) := fun h => absurd h Bool.false_ne_true
theorem contextTeardown (ctx : Nat) : Statement (.contextTeardown ctx) := fun h => absurd h Bool.false_ne_true
theorem commandBadOpcode (op : Byte) : Statement (.commandBadOpcode op) := fun h => absurd h Bool.false_ne_true
theorem ieee1588MessageSend (port : Nat) : Statement (.ieee1588MessageSend port) := fun h => absurd h Bool.false_ne_true

end RoundTrip

end Sys2Proof.Laws
end

