-- ==== Sys2Proof/Tests/Slice0.lean ====
section
/-! SUPPORT. Tests of single instructions, and for every statement with hypotheses concrete states and operands that meet them. The
expected results are worked out by hand from the rules of spec/ that each comment names. -/

open Sys2Proof Sys2Proof.Machine

namespace Sys2Proof.Tests

set_option Elab.async false

/-! ### Small states -/

/-- The loaded machine with one instruction placed, its stream the actor. -/
def placed (i : Instr) : State :=
  let s := State.reset.placeWord (encodeNat i)
  { s with actor := { gid := 1, src := streamOf i } }

/-- The loaded machine with its group changed, a stream of it the actor. -/
def loaded (src : Source) (f : Group → Group) : State :=
  let i : Instr := match src with
    | .handler => .fretResume
    | .access => .adone
    | _ => .nop 0
  let s := (State.reset.placeWord (encodeNat i)).onGroup 1 f
  { s with actor := { gid := 1, src := src } }

/-- The environment of the actor meets a test. -/
def envTest (s : State) (p : Env → Bool) : Bool := match s.env? with
  | some e => p e
  | none => false

theorem env_of_test {s : State} {p : Env → Bool} (h : envTest s p = true) : ∃ e, s.env? = some e ∧ p e = true := by
  unfold envTest at h
  split at h
  · next e he => exact ⟨e, he, h⟩
  · cases h

theorem group_of {s : State} {gid : Nat} {P : Group → Prop} [∀ g, Decidable (P g)]
    (h : ((s.group? gid).any fun g => decide (P g)) = true) : ∃ g, s.group? gid = some g ∧ P g := by
  cases hg : s.group? gid with
  | none => simp [hg] at h
  | some g => exact ⟨g, rfl, by simpa [hg] using h⟩

/-- What `Settled`, `Fits` and `Clean` ask, as a test. -/
def fitsTest (f : Form) (i : Instr) (rs : List Nat) (e : Env) : Bool :=
  e.g.defers.isEmpty && (e.formTrap f (infoWord i)).isNone && (decide (f.runs ≠ .program) || decide (e.src ≠ .handler)) &&
    rs.all fun r => e.copies.all fun k => e.lanes.all fun l => decide (e.core.cellPoison (e.cellOf k r l) = 0)

/-- A state and its stream in which an instruction of a form may issue, with registers that are clean, and more. -/
def Meets (s : State) (f : Form) (i : Instr) (rs : List Nat) (more : Env → Prop := fun _ => True) : Prop :=
  ∃ e, Settled s e ∧ Fits e f i ∧ (∀ r ∈ rs, e.Clean r) ∧ more e

theorem Meets.of {s : State} {f : Form} {i : Instr} {rs : List Nat} {more : Env → Prop} [∀ e, Decidable (more e)]
    (h : envTest s (fun e => fitsTest f i rs e && decide (more e)) = true) : Meets s f i rs more := by
  obtain ⟨e, he, h⟩ := env_of_test h
  simp only [fitsTest, Bool.and_eq_true, List.isEmpty_iff, Option.isNone_iff_eq_none, Bool.or_eq_true, decide_eq_true_eq,
    List.all_eq_true] at h
  obtain ⟨⟨⟨⟨h1, h2⟩, h3⟩, h4⟩, h5⟩ := h
  exact ⟨e, ⟨he, h1⟩, ⟨h2, fun hp => h3.resolve_left (fun hn => hn hp)⟩, fun r hr k hk l hl => h4 r hr k hk l hl, h5⟩

theorem Meets.all {s : State} {xs : List (Form × Instr)} {rs : List Nat} {more : Env → Prop} [∀ e, Decidable (more e)]
    (h : envTest s (fun e => xs.all fun x => fitsTest x.1 x.2 rs e && decide (more e)) = true) :
    ∀ x ∈ xs, Meets s x.1 x.2 rs more := by
  intro x hx
  refine Meets.of ?_
  unfold envTest at *
  split at h
  · exact (List.all_eq_true.mp h) x hx
  · cases h

/-- Writes a number of n bytes in memory. -/
def withBytes (s : State) (place n v : Nat) : State := ((bytesOf v n).zipIdx place).foldl (fun (s : State) e => s.setHomeByte e.2 e.1) s

/-- `Env.Stoppable` as a test. -/
def stoppableTest (e : Env) : Bool := e.g.arrivals.isEmpty && !e.g.versioned

theorem ready_of {s : State} {p : Env → Prop} [∀ e, Decidable (p e)]
    (h : envTest s (fun e => e.g.defers.isEmpty && decide (p e)) = true) : ∃ e, Settled s e ∧ p e := by
  obtain ⟨e, he, h⟩ := env_of_test h
  simp only [Bool.and_eq_true, List.isEmpty_iff, decide_eq_true_eq] at h
  exact ⟨e, ⟨he, h.1⟩, h.2⟩

theorem ready_stoppable {s : State} {p : Env → Prop} [∀ e, Decidable (p e)]
    (h : envTest s (fun e => e.g.defers.isEmpty && decide (stoppableTest e = true ∧ p e)) = true) : ∃ e, Settled s e ∧ e.Stoppable ∧ p e := by
  obtain ⟨e, he, h1, h2⟩ := ready_of (p := fun e => stoppableTest e = true ∧ p e) h
  simp only [stoppableTest, Bool.and_eq_true, List.isEmpty_iff, Bool.not_eq_true'] at h1
  exact ⟨e, he, h1, h2⟩

/-- A program slot that may issue, with every lane and 64 registers. -/
def plain : State := loaded .slotA id

theorem test_meets : Meets plain {} (.nop 5) [1, 2, 3] := Meets.of (by decide +kernel)

def ab (acc : Accepts) : Form := formAB 0 1 2 3 acc
def fa (acc : Accepts) : Form := formA 0 1 2 acc

theorem hyps_IntegerResults :
    (∀ x ∈ [(ab { sat := true }, Instr.ialuAdd 3 1 2 3 0), (ab { sat := true }, .ialuSub 3 1 2 3 0), (ab {}, .ialuMul 3 1 2 3 0),
      (ab { sat := true }, .mad 3 1 2 3 0), (fa {}, .ialuMin 3 1 2 0), (fa {}, .ialuMax 3 1 2 0), (fa { sat := true }, .ialuNeg 3 1 2 0),
      (fa { sat := true }, .ialuAbs 3 1 2 0), (fa {}, .absdiff 3 1 2 0), (fa {}, .avg 3 1 2 0), (fa {}, .mulhi 3 1 2 0),
      ({ accepts := { imm := true, sat := true }, regs := [1, 2], imm11 := 5 }, .ialuiAdd 3 1 2 5)], Meets plain x.1 x.2 [1, 2, 3]) ∧
    ∀ x ∈ [({ fa { sat := true } with regs := [1, 2, 2] }, Instr.mulw 3 1 2 0), ({ fa { sat := true } with regs := [1, 2, 2] }, .addw 3 1 2 0),
      ({ fa { sat := true } with regs := [1, 2, 2] }, .subw 3 1 2 0)], Meets plain x.1 x.2 [1, 2]
      fun e => ∀ k ∈ e.copies, ∀ l ∈ e.lanes, ∀ k' ∈ e.copies, ∀ l' ∈ e.lanes, e.cellOf k 1 l ≠ e.cellOf k' 2 l' :=
  ⟨Meets.all (by decide +kernel), Meets.all (by decide +kernel)⟩


theorem hyps_LogicAndBitFieldResults :
    (∀ x ∈ [(ab {}, Instr.lop 6 1 2 3 0), ({ accepts := { imm := true }, regs := [1, 2], imm11 := 9 }, .lopi 6 1 2 9),
      ({ accepts := { imm := true }, regs := [1], imm11 := 9 }, .movImm 1 9), (ab {}, .bfx 1 2 3 0), (ab {}, .bfxs 1 2 3 0),
      (ab {}, .bfi 1 2 3 0), (fa {}, .popc 1 2 0), (fa {}, .clz 1 2 0), (fa {}, .ctz 1 2 0), (fa {}, .brev 1 2 0), (ab {}, .rol 1 2 3 0),
      (ab {}, .ror 1 2 3 0)], Meets plain x.1 x.2 [1, 2, 3]) ∧ (1 : Lane) ≠ 0 :=
  ⟨Meets.all (by decide +kernel), by decide⟩

theorem hyps_ShiftResults : ∀ x ∈ [(ab {}, Instr.shl 6 1 2 3 0), (ab {}, .shr 2 1 2 3 0)], Meets plain x.1 x.2 [2, 3] :=
  Meets.all (by decide +kernel)

theorem hyps_CompareAndPredicateResults :
    (∀ x ∈ [(({ accepts := { neg := true, imm := true }, guard := some 0, regs := [2], b := some 3 } : Form), Instr.cmp 3 2 1 2 3 0),
      ({ accepts := { imm := true }, regs := [2], imm11 := 9 }, .cmpi 3 2 1 2 9),
      ({ accepts := { neg := true }, guard := some 0, regs := [2] }, .test 2 1 2 5 0),
      ({ accepts := { neg := true, imm := true }, regs := [1, 2], b := some 3 }, .sel 3 1 2 3 0),
      ({ accepts := { neg := true }, guard := some 0 }, .plop 6 1 2 3 0)], Meets plain x.1 x.2 [1, 2, 3]) ∧ (1 : BitVec 3) ≠ 0 :=
  ⟨Meets.all (by decide +kernel), by decide⟩

theorem hyps_FloatArithmeticResults :
    ∀ x ∈ [(ab { re := true }, Instr.faluAdd 2 1 2 3 0), (ab { re := true }, .faluSub 2 1 2 3 0), (ab { re := true }, .faluMul 2 1 2 3 0),
      (ab { re := true }, .fma 2 1 2 3 0), (ab { re := true }, .fms 2 1 2 3 0), (ab { re := true }, .fnma 2 1 2 3 0),
      (fa { re := true }, .faluMin 2 1 2 0), (fa { re := true }, .faluMax 2 1 2 0), (fa { re := true }, .faluNeg 2 1 2 0),
      (fa { re := true }, .faluAbs 2 1 2 0), (fa { re := true }, .rint 2 1 2 0)], Meets plain x.1 x.2 [1, 2, 3] :=
  Meets.all (by decide +kernel)

theorem hyps_DotAndConversionResults :
    (∀ x ∈ [(({ accepts := { neg := true, re := false }, guard := some 0, regs := [1, 2, 3] } : Form), Instr.dot4 0 1 2 3 0),
      ({ accepts := { neg := true, re := true }, guard := some 0, regs := [1, 2, 3] }, .dot4 12 1 2 3 0),
      (fa { re := true, sat := true }, .cvt 2 1 2 10 0), (fa { re := true, sat := true }, .cvtFp8 1 1 2 10 0)], Meets plain x.1 x.2 [1, 2, 3]) ∧
    kindOf 0 ≠ .tapered :=
  ⟨Meets.all (by decide +kernel), by decide⟩

theorem hyps_CrossLaneResults :
    (∀ x ∈ [(ab {}, Instr.routePick 3 1 2 3 0), (ab {}, .routeSlide 3 1 2 3 0), (ab {}, .routeRot 3 1 2 3 0), (ab {}, .routeFlip 3 1 2 3 0),
      ({ accepts := { neg := true }, guard := some 0, regs := [1] }, .vote 2 1 4 0),
      ({ accepts := redAccepts 2, guard := some 0, regs := [1, 2] }, .reduce 2 1 2 0 0),
      ({ accepts := redAccepts 2, guard := some 0, regs := [1, 2] }, .scan 2 1 2 1 0 0), (fa {}, .matchB64 1 2 0)],
      Meets plain x.1 x.2 [1, 2, 3] fun e => ∀ k ∈ e.copies, ∀ l < 32, e.core.cellPoison (e.cellOf k 2 l) = 0) :=
  Meets.all (by decide +kernel)

/-- The placed group with an open window of slot A, and of slot B's a result that has arrived. -/
def opened : State := loaded .slotA fun g => { g with
  defers := [⟨9, .slotA, 2, [5], none, []⟩, ⟨8, .slotB, 1, [6], some [], []⟩, ⟨7, .slotA, 2, [7], some [], []⟩] }

/-- `Ready` holds with open windows, and the words of the integer, load and store families still pass the checks. -/
theorem hyps_open_windows : ∃ e, Ready opened e ∧ e.g.defers ≠ [] ∧ (∀ d ∈ e.g.defers, d.op < 10) ∧
    (∀ x ∈ [(ab { sat := true }, Instr.ialuAdd 3 1 2 3 0),
      ({ accepts := { neg := true, cache := true, offset := true }, guard := some 0, regs := [1, 3] }, .ld 2 1 3 0 3),
      ({ accepts := { neg := true, cache := true, offset := true }, guard := some 0, regs := [1, 3] }, .st 1 3 0 3)],
      e.formTrap x.1 (infoWord x.2) = none) ∧ ∀ r ∈ [1, 2, 3], e.Clean r := by
  obtain ⟨e, he, h⟩ := env_of_test (s := opened) (p := fun e => decide (e.g.defers =
      [⟨9, .slotA, 2, [5], none, []⟩, ⟨8, .slotB, 1, [6], some [], []⟩, ⟨7, .slotA, 2, [7], some [], []⟩] ∧ e.src = .slotA) &&
    [(ab { sat := true }, Instr.ialuAdd 3 1 2 3 0),
      ({ accepts := { neg := true, cache := true, offset := true }, guard := some 0, regs := [1, 3] }, .ld 2 1 3 0 3),
      ({ accepts := { neg := true, cache := true, offset := true }, guard := some 0, regs := [1, 3] }, .st 1 3 0 3)].all (fun x =>
      (e.formTrap x.1 (infoWord x.2)).isNone) &&
    [1, 2, 3].all fun r => e.copies.all fun k => e.lanes.all fun l => decide (e.core.cellPoison (e.cellOf k r l) = 0)) (by decide +kernel)
  simp only [Bool.and_eq_true, decide_eq_true_eq] at h
  obtain ⟨⟨⟨hd, hs⟩, hf⟩, hc⟩ := h
  refine ⟨e, ⟨he, ?_⟩, by rw [hd]; decide, by rw [hd]; decide, fun x hx => Option.isNone_iff_eq_none.mp (List.all_eq_true.mp hf x hx), ?_⟩
  · rw [hd]
    intro d hd
    simp only [List.mem_cons, List.not_mem_nil, or_false] at hd
    rcases hd with rfl | rfl | rfl <;> simp [Env.lowered, hs]
  · intro r hr k hk l hl
    simp only [List.all_eq_true, decide_eq_true_eq] at hc
    exact hc r hr k hk l hl

theorem hyps_RandomResults :
    ∀ x ∈ [(({ runs := .program, accepts := { neg := true }, guard := some 0, regs := [2, 3] } : Form), Instr.seed 2 3 0),
      ({ runs := .program, accepts := { neg := true }, guard := some 0, regs := [1] }, .rand 7 1 0),
      ({ runs := .program, accepts := { neg := true }, guard := some 0, regs := [1, 2] }, .catsample 0 1 2 0)], Meets plain x.1 x.2 [2, 3] :=
  Meets.all (by decide +kernel)

/-- An SFU operation of the placed group in its pipe's queue, behind one that arrives later. -/
def withSfu (arrives : Option Nat) (defers : List Deferred) (now : Nat) : State :=
  (loaded .slotA fun g => { g with
    flight := [⟨8, .sfu, .slotA, false, .sfu 0 40 16 (some 56) []⟩, ⟨9, .sfu, .slotA, false, .sfu 0 12 1 arrives []⟩], defers := defers }).onCore 0
    fun c => { c with sfu0 := [(1, 8), (1, 9)], sfuFree := [(0, 16)], cycle := BitVec.ofNat 64 now }

theorem hyps_SpecialFunctionResults :
    (∀ x ∈ ([Instr.rcp 2 1 2 0, .rsqrt 2 1 2 0, .sqrt 2 1 2 0, .exp2 2 1 2 0, .log2 2 1 2 0, .sin 2 1 2 0, .cos 2 1 2 0, .tanh 2 1 2 0].map
        fun i => (fa { re := true, la := true }, i)) ++
        [(ab { re := true, la := true }, Instr.div 2 1 2 3 0), (ab { re := false, la := true }, .idiv 2 1 2 3 0),
          (ab { re := false, la := true }, .irem 2 1 2 3 0)],
      Meets plain x.1 x.2 [2, 3] fun e => (e.core.sfuQueue e.g.pipe).length < 16 ∧ e.room .sfu = true) ∧
    (∀ now ∈ ([15, 16] : List Nat), let s := withSfu none [] now
     s.work? 1 9 = some (.sfu 0 12 1 none []) ∧ (((s.core 0).sfuQueue 0).find? fun x => (s.sfuArrives x).isNone) = some (1, 9) ∧
       ((s.core 0).cycle.toNat < NMap.get (s.core 0).sfuFree 0 0 ↔ now = 15)) ∧
    ∀ now ∈ ([27, 28] : List Nat), let s := withSfu (some 28) [⟨9, .slotA, 0, [5], none, []⟩] now
     s.work? 1 9 = some (.sfu 0 12 1 (some 28) []) ∧ (s.core 0).sfuQueue 0 = [(1, 8)] ++ (1, 9) :: [] ∧
       (∀ x ∈ [((1, 8) : Nat × Nat)], s.sfuArrives x = some 56) ∧ ((s.core 0).cycle.toNat < 28 ↔ now = 27) ∧
       ((s.group? 1).map fun g => (g.core, g.defers)) = some (0, [⟨9, .slotA, 0, [5], none, []⟩]) :=
  ⟨Meets.all (by decide +kernel), by decide +kernel, by decide +kernel⟩

/-- The placed group with hint words that wait in slot A. -/
def hinted (ws : List Word) : State :=
  loaded .slotA fun g => { g with a := { g.a with hints := ws.map fun w => { addr := 0x10000, word := w } } }

theorem hyps_HintsAccumulate :
    (∃ e, Settled (hinted [0x50000001, 0x51000001]) e ∧ e.src ≠ .access ∧ e.slot.hints.length < 3) ∧
    (∃ e, Settled (hinted [0x50000001, 0x51000001, 0x51000002]) e ∧ e.Stoppable ∧ e.src ≠ .access ∧ 3 ≤ e.slot.hints.length ∧ e.src ≠ .handler) :=
  ⟨ready_of (by decide +kernel), ready_stoppable (by decide +kernel)⟩

/-- The placed group with p1 true in lane 0 alone. -/
def guarded : State := loaded .slotA fun g => { g with preds := [(32, 0xFF)] }

theorem hyps_BranchResults :
    (∀ x ∈ [(({ closes := .own } : Form), Instr.bra 4), ({ closes := .own, accepts := { neg := true }, guard := some 1 }, .braGuarded 1 4),
      ({ closes := .own, accepts := { neg := true } }, .braAny 1 4), ({ closes := .own, accepts := { neg := true } }, .braAll 1 4),
      ({ closes := .own, accepts := { neg := true }, guard := some 1, regs := [2] }, .brx 2 1)],
      Meets guarded x.1 x.2 [2] fun e => e.active 1 = [0] ∧ badTarget (e.slot.pc + 16) = false ∧ badTarget (e.val 0 2 0) = false ∧
        e.src ≠ .handler ∧ e.g.prot = false) ∧
    Meets ((loaded .slotA id).onCore 0 fun c => { c with rf := [(64, 0x20000), (65, 0x30000)] })
      { closes := .own, accepts := { neg := true }, guard := some 0, regs := [2] } (.brx 2 0) [2] (fun e =>
        (e.active 0).filter (fun l => e.val 0 2 l == e.val 0 2 0) = [0] ∧ badTarget (e.val 0 2 0) = false ∧ e.g.prot = false) :=
  ⟨Meets.all (by decide +kernel), Meets.of (by decide +kernel)⟩

/-- A joined group: entry 3 armed at its PC, with these lanes expected. -/
def joining (expected arrived : Mask) : State :=
  loaded .slotA fun g => { g with joins := [(3, { armed := true, expected := expected, arrived := arrived, pc := 0x10000, depth := 0 })] }

theorem join_others (m a : Mask) (g : Group) (h : g.joins = [(3, ⟨true, m, a, 0x10000, 0⟩)]) : ∀ k, k ≠ 3 → (g.join k).armed = false := by
  intro k hk
  simp [Group.join, h, NMap.get, NMap.find, Ne.symm hk]

theorem hyps_JoinResults :
    Meets plain { runs := .program } (.reconv 3 5) [] (fun e => (e.g.join 3).armed = false) ∧
    Meets (joining 0xFFFFFFFF 0) { runs := .program } (.reconv 3 5) [] (fun e => (e.g.join 3).armed = true ∧ stoppableTest e = true) ∧
    (∀ s ∈ [joining 0xFFFFFFFF 0, joining 0xFFFFFFFF 0xF, joining 0 0], Meets s { closes := .own, runs := .program } (.join 3) [] fun e =>
      (e.g.join 3).armed = true ∧ (e.g.join 3).pc = e.slot.pc ∧ (e.g.join 3).depth = e.g.depth ∧ e.g.div = [] ∧
        ∃ m a, e.g.joins = [(3, ⟨true, m, a, 0x10000, 0⟩)]) ∧
    Meets plain { closes := .own, runs := .program } (.join 3) [] (fun e => (e.g.join 3).armed = false ∧ stoppableTest e = true) := by
  refine ⟨Meets.of (by decide +kernel), Meets.of (by decide +kernel), ?_, Meets.of (by decide +kernel)⟩
  intro s hs
  have h : ∃ m a, s = joining m a := by
    rcases List.mem_cons.mp hs with rfl | hs
    · exact ⟨_, _, rfl⟩
    rcases List.mem_cons.mp hs with rfl | hs
    · exact ⟨_, _, rfl⟩
    · rw [List.mem_singleton.mp hs]; exact ⟨_, _, rfl⟩
  have hm : ∀ s ∈ [joining 0xFFFFFFFF 0, joining 0xFFFFFFFF 0xF, joining 0 0],
      envTest s (fun e => fitsTest { closes := .own, runs := .program } (.join 3) [] e && decide ((e.g.join 3).armed = true ∧
        (e.g.join 3).pc = e.slot.pc ∧ (e.g.join 3).depth = e.g.depth ∧ e.g.div = [] ∧
        e.g.joins = [(3, ⟨true, (e.g.join 3).expected, (e.g.join 3).arrived, 0x10000, 0⟩)])) = true := by decide +kernel
  obtain ⟨e, h1, h2, h3, h4, h5, h6, h7, h8⟩ := Meets.of (hm s hs)
  exact ⟨e, h1, h2, h3, h4, h5, h6, h7, _, _, h8⟩

theorem hyps_CallResults :
    (∀ x ∈ [(({ closes := .own, runs := .program } : Form), Instr.call 16 5), ({ closes := .own, runs := .program, regs := [2] }, .callx 2 16)],
      Meets plain x.1 x.2 [2] fun e => e.g.depth < 255 ∧ e.g.frameReq = none ∧ badTarget (e.slot.pc + 20) = false ∧ e.slot.mask ≠ 0 ∧
        badTarget (e.scalar 2) = false ∧ frameOf 16 / 8 - 1 = 1 ∧ 1 ≤ e.core.free.length ∧ ∀ r ∈ e.core.requests, e.core.free.length < r.grans) ∧
    frameOf 8 / 8 - 1 = 0 ∧
    ∀ x ∈ [(({ closes := .own, runs := .program } : Form), Instr.call 8 5), ({ closes := .own, runs := .program, regs := [2] }, .callx 2 8)],
      Meets (loaded .slotA fun g => { g with frames := List.replicate 255 {} ++ g.frames }) x.1 x.2 [2] fun e =>
        e.g.depth = 255 ∧ stoppableTest e = true :=
  ⟨Meets.all (by decide +kernel), by decide, Meets.all (by decide +kernel)⟩

/-- The placed group after a call of 16 registers at each depth, and what else is changed. -/
def called (n : Nat) (src : Source := .slotA) (f : Group → Group := id) : State :=
  loaded src fun g => f { g with frames := (List.range n).reverse.map (fun k => { link := 0x10020, own := 1, base := 8 + k, size := 16, grans := [8 + k] }) ++ g.frames }

theorem hyps_ReturnResults :
    let f : Form := { closes := .own, runs := .program }
    let good (e : Env) : Bool := decide (0 < e.g.depth ∧ (e.g.frames[e.g.depth - 1]?).map (badTarget ·.link) = some false ∧ e.g.frameReq = none ∧
      (e.g.slot e.src.other).life ≠ .held ∧ e.g.div = [] ∧ e.g.joins = []) && (e.g.frames.drop e.g.depth).all fun x => !x.spilled
    Meets (called 1) f .ret [] (fun e => good e = true ∧ e.g.depth - 1 = 0) ∧ Meets (called 1) f (.unwind 0) [] (fun e => good e = true) ∧
    Meets (called 3) f (.unwind 0) [] (fun e => good e = true) ∧
    Meets (called 2 .slotA fun g => { g with
      b := { g.a with life := .held, tag := 1 }, div := [{ pc := 0x10000, mask := 1, kind := 1, depth := 1 }]
      joins := [(3, { armed := true, expected := 3, arrived := 0, pc := 0x10000, depth := 2 }),
        (4, { armed := true, expected := 3, arrived := 1, pc := 0x10000, depth := 1 })] }) f .ret [] (fun e => e.g.depth - 1 = 1 ∧
        e.g.frameReq = none ∧ (e.g.slot e.src.other).life = .held ∧ (e.g.slot e.src.other).tag = 1 ∧ (∀ r ∈ e.g.div, r.depth ≤ 1 ∧ r.kind = 1) ∧
        e.g.joins ≠ [] ∧ (∀ j ∈ e.g.joins, j.2.armed = true → (1 < j.2.depth → j.2.arrived = 0) ∧ (j.2.depth = 1 → j.2.arrived ≠ j.2.expected)) ∧
        (e.g.frames[e.g.depth - 2]?).map (badTarget ·.link) = some false ∧ (e.g.frames.drop 1).all (!·.spilled) = true) ∧
    Meets plain f .ret [] fun e => e.g.depth = 0 ∧ e.g.frameReq = none ∧ stoppableTest e = true :=
  ⟨Meets.of (by decide +kernel), Meets.of (by decide +kernel), Meets.of (by decide +kernel), Meets.of (by decide +kernel),
    Meets.of (by decide +kernel)⟩

/-- The placed group with one armed join entry at its depth. -/
def exitJoin (expected arrived : Mask) (g : Group) : Group :=
  { g with joins := [(3, { armed := true, expected := expected, arrived := arrived, pc := 0x10000, depth := g.depth })] }

theorem hyps_ExitResults :
    let f : Form := { closes := .own, runs := .program, accepts := { neg := true }, guard := some 1 }
    Meets guarded f (.exit 1) [] (fun e => e.g.joins = [] ∧ e.g.div = [] ∧ e.slot.mask &&& ~~~(maskOf (e.active 1)) ≠ 0) ∧
    Meets plain { f with guard := some 0 } (.exit 0) [] (fun e => e.g.joins = [] ∧ e.g.div = [] ∧ e.slot.mask &&& ~~~(maskOf (e.active 0)) = 0 ∧
      (e.g.slot e.src.other).life = .empty) ∧
    Meets (loaded .slotA fun g => { g with b := { g.a with pc := 0x10010 } }) { f with guard := some 0 } (.exit 0) []
      (fun e => e.g.joins = [] ∧ e.g.div = [] ∧ e.slot.mask &&& ~~~(maskOf (e.active 0)) = 0 ∧ (e.g.slot e.src.other).life = .ready) ∧
    Meets (loaded .slotA fun g => exitJoin 0xFFFFFFFF 0xFF { g with preds := [(32, 0xFF)] }) f (.exit 1) [] (fun e => e.g.div = [] ∧
      e.slot.mask &&& ~~~(maskOf (e.active 1)) ≠ 0 ∧ (e.g.join 3).armed = true ∧ (e.g.join 3).arrived &&& ~~~(maskOf (e.active 1)) ≠
        (e.g.join 3).expected &&& ~~~(maskOf (e.active 1)) ∧ ∀ x ∈ e.g.joins, x.1 = 3) ∧
    Meets (loaded .slotA fun g => exitJoin 0xFFFFFFFF 0xFFFFFFFE { g with preds := [(32, 0xFF)] }) f (.exit 1) [] (fun e => e.g.div = [] ∧
      (e.g.join 3).armed = true ∧ (e.g.join 3).depth = e.g.depth ∧ (e.g.join 3).arrived &&& ~~~(maskOf (e.active 1)) =
        (e.g.join 3).expected &&& ~~~(maskOf (e.active 1)) ∧ (e.g.join 3).expected &&& ~~~(maskOf (e.active 1)) ≠ 0 ∧ ∀ x ∈ e.g.joins, x.1 = 3) ∧
    Meets (called 1 .slotA fun g => { g with b := { g.a with life := .held, tag := 0 } }) { f with guard := some 0 } (.exit 0) [] (fun e =>
      e.g.div = [] ∧ e.slot.mask &&& ~~~(maskOf (e.active 0)) = 0 ∧ e.g.frameReq = none ∧ (e.g.slot e.src.other).life = .held ∧
      (e.g.slot e.src.other).tag < e.g.depth ∧ e.g.joins = [] ∧ ∀ x ∈ e.g.frames.drop (e.g.depth - (e.g.slot e.src.other).tag), x.spilled = false) :=
  ⟨Meets.of (by decide +kernel), Meets.of (by decide +kernel), Meets.of (by decide +kernel), Meets.of (by decide +kernel),
    Meets.of (by decide +kernel), Meets.of (by decide +kernel)⟩

theorem hyps_ControlRegisterResults :
    Meets plain {} (.nop 7) [] ∧
    (∀ x ∈ [(({ regs := [1] } : Form), Instr.crrd 1 0x00), ({ regs := [1] }, .crrd 1 0x48)], Meets plain x.1 x.2 [] fun _ => NMap.rises plain.groups = true) ∧
    (∀ x ∈ [(({ runs := .supervisor, regs := [2] } : Form), Instr.crwr 2 0x22), ({ runs := .supervisor, regs := [2] }, .crwr 2 0x27)],
      Meets (loaded .handler id) x.1 x.2 [2] fun e => e.src = .handler ∧ e.slot.mask ≠ 0 ∧ e.g.prot = false) ∧
    ∃ e, Settled plain e ∧ e.Stoppable ∧ e.src = .slotA :=
  ⟨Meets.of (by decide +kernel), Meets.all (by decide +kernel), Meets.all (by decide +kernel), ready_stoppable (by decide +kernel)⟩

theorem hyps_SystemCallParks :
    let f : Form := { closes := .both, runs := .program }
    Meets plain f (.syscall 5) ((List.range 8).map fun i => 56 + i) (fun e => e.slot.mask ≠ 0 ∧ e.g.syscalls = true ∧ e.g.arrivals = [] ∧
      e.g.frameSize - 8 = 56 ∧ e.g.prot = false) ∧
    Meets (loaded .slotA fun g => { g with syscalls := false }) f (.syscall 5) [] fun e => e.slot.mask ≠ 0 ∧ e.g.syscalls = false ∧ stoppableTest e = true :=
  ⟨Meets.of (by decide +kernel), Meets.of (by decide +kernel)⟩

theorem hyps_SoftwareStops :
    (∀ x ∈ [(({ closes := .both, runs := .program } : Form), Instr.trap 9), ({ closes := .both, runs := .program }, .bkpt 9)],
      Meets plain x.1 x.2 [] fun e => e.src = .slotA ∧ stoppableTest e = true) ∧ (0xFFFFFFFF#32).toNat / 2 ^ 27 ≠ 1 :=
  ⟨Meets.all (by decide +kernel), by decide⟩

theorem hyps_FormErrorsAndPoisonStop :
    (∃ e, Settled (hinted [BitVec.ofNat 32 (encodeNat (.hoff 4))]) e ∧ e.Stoppable ∧ e.src = .slotA ∧ e.hints.imm = none ∧
      e.hints.accepted { imm := true, neg := true, sat := true } = false) ∧
    (∃ e, Settled (loaded .slotA fun g => { g with frames := [{ own := 1, size := 8, grans := [0] }] }) e ∧ e.Stoppable ∧ e.src = .slotA ∧
      e.hints.imm = none ∧ e.hints.accepted { imm := true, neg := true, sat := true } = true ∧ e.g.frameSize ≤ 8) ∧
    Meets ((loaded .slotA id).onCore 0 fun c => { c with rfPoison := [(64, 1)] }) (ab { sat := true }) (.ialuAdd 2 1 2 3 0) [] fun e =>
      e.src = .slotA ∧ e.g.arrivals = [] ∧ ∃ l ∈ e.lanes, ∃ k ∈ e.copies, ∃ j < 64 / widthOf 2, e.acts (some 0) (widthOf 2) k l j = true ∧
        e.core.cellPoison (e.cellOf k 2 l) &&& halfOf (widthOf 2) j ≠ 0 :=
  ⟨ready_stoppable (by decide +kernel), ready_stoppable (by decide +kernel), Meets.of (by decide +kernel)⟩

/-- The placed group stopped in a stage, with a stop that waits. -/
def stoppedAt (stage : Stage) (fate : Fate) : State :=
  loaded .slotA fun g => { g with life := .stopped, stage := stage, stop := some { src := some .slotA, record := {}, fate := fate } }

theorem hyps_HandlerEntryWritesTheRecord :
    (∃ g, (stoppedAt .draining .handler).group? 1 = some g ∧ g.life = .stopped ∧ g.stop.map (·.fate) = some .handler ∧ g.stage = .draining ∧
      g.settled = true) ∧
    (∃ g, (stoppedAt .draining .debugger).group? 1 = some g ∧ g.life = .stopped ∧ g.stop.map (·.fate) = some .debugger ∧ g.stage = .draining ∧
      g.settled = true) ∧
    ∃ g, (stoppedAt .frameWait .handler).group? 1 = some g ∧ g.life = .stopped ∧ g.stage = .frameWait ∧
      ((stoppedAt .frameWait .handler).core g.core).reserve = 248 :: 249 :: [250, 251, 252, 253, 254, 255] :=
  ⟨group_of (by decide +kernel), group_of (by decide +kernel), group_of (by decide +kernel)⟩

theorem hyps_ReturnFromHandler :
    (∀ i ∈ [Instr.fretResume, .fretEscalate, .fretPoolEmpty, .fretKill], Meets (loaded .handler id) { closes := .own, runs := .supervisor, accepts := { any := false } }
      i [] fun e => e.src = .handler ∧ (loaded .handler id).handlerDone e = true ∧ recordSource e.g.trap.cause = some .slotA ∧
        (e.g.slot .slotA).life ≠ .empty ∧ badTarget e.g.trap.resume = false ∧ e.g.a.life ≠ .parked ∧ e.g.b.life ≠ .parked ∧ e.g.div = [] ∧
        e.g.frameReq = none ∧
        (let gang := ((loaded .handler id).team e.g.team).gang
         ((loaded .handler id).gang gang).kill = none ∧ (loaded .handler id).gangTeams gang ≠ [] ∧ NMap.find (loaded .handler id).gangs gang ≠ none)) := by
  intro i hi
  have h : ∀ i ∈ [Instr.fretResume, .fretEscalate, .fretPoolEmpty, .fretKill], envTest (loaded .handler id) (fun e =>
      fitsTest { closes := .own, runs := .supervisor, accepts := { any := false } } i [] e && decide (e.src = .handler ∧
        (loaded .handler id).handlerDone e = true ∧ recordSource e.g.trap.cause = some .slotA ∧ (e.g.slot .slotA).life ≠ .empty ∧
        badTarget e.g.trap.resume = false ∧ e.g.a.life ≠ .parked ∧ e.g.b.life ≠ .parked ∧ e.g.div = [] ∧ e.g.frameReq = none ∧
        (let gang := ((loaded .handler id).team e.g.team).gang
         ((loaded .handler id).gang gang).kill = none ∧ (loaded .handler id).gangTeams gang ≠ [] ∧ NMap.find (loaded .handler id).gangs gang ≠ none))) = true := by
    decide +kernel
  exact Meets.of (h i hi)

theorem hyps_HandlerFaultIsDouble : (∃ e, Settled (loaded .handler id) e ∧ e.src = .handler) ∧ (0xFFFFFFFF#32).toNat / 2 ^ 27 ≠ 1 :=
  ⟨ready_of (by decide +kernel), by decide⟩

theorem isOk_of {α β : Type} {x : Except α β} (h : x.toOption.isSome = true) : ∃ v, x = .ok v := by
  cases x with
  | ok v => exact ⟨v, rfl⟩
  | error e => cases h

/-- The called group with a request at its core, and what else of the core is changed. -/
def requesting (n : Nat) (req : FrameReq) (f : Group → Group) (c : Core → Core) : State :=
  ((called n .slotA f).onGroup 1 fun g => { g with frameReq := some req }).onCore 0 fun k => c { k with requests := [req] }

def callReq : FrameReq := ⟨1, .slotA, .call 16 0x10040 0x10004, 1, 0⟩
def refillReq : FrameReq := ⟨1, .slotA, .refill (some 0x10020), 1, 0⟩
/-- The page that holds the private memory of the group, mapped to itself and written before. -/
def privPage : TlbEntry :=
  { ctx := 0, page := 0x40000000, bytes := 0x200000, frame := 0x40000000, r := true, w := true, x := false, sup := false, adobe := false, dirty := true }
/-- The frame of the placed group spilled. -/
def spilledFrame (g : Group) : Group := { g with frames := [{ own := 1, size := 8, spilled := true }] }

/-- A spill of SILT that may be made: the second frame keeps its top granule, the third goes out whole. -/
def spilling (first : Bool) : State := requesting 2 ⟨1, .slotA, .call 80 0x10040 0x10004, 9, 0⟩ (fun g => { g with
    pbase := 0x40000000
    frames := g.frames.modify 1 fun f => if first then { f with own := 2, grans := [10, 11] } else { f with spilled := true, topKept := true } })
  fun c => { c with free := [], silt := { chosen := some 1 }, tlb := privPage :: c.tlb }

/-- What the statement asks of a spill of frame i that takes n granules out. -/
abbrev SpillGood (s : State) (i n : Nat) (g : Group) : Prop :=
  let f := g.frames.getD i {}
  let out := if g.aliasFrame == some i then f.grans.dropLast else f.grans
  let off (k : Nat) : Nat := spillOffset (g.frames.drop (i + 1)) k
  g.core = 0 ∧ (s.core 0).silt.chosen = some 1 ∧ (∃ r ∈ (s.core 0).blocked, r.gid = 1) ∧ g.spillable = some i ∧ out.length = n ∧
  (∀ r ∈ (s.core 0).requests, (s.core 0).free.length + out.length < r.grans) ∧
  ((s.privRange g (off 0) (2048 * out.length) .write).toOption.map fun segs => s.segsPinned (some g.team) segs) = some false ∧ privPage.dirty = true ∧
  ∀ k < out.length, let place := privPage.physical (g.pbase.toNat + off k)
    s.tlbHit 0 (s.hwWho g).ctx (g.pbase.toNat + off k) = some privPage ∧
    (s.privRange g (off k) 2048 .write).toOption = some [(place, 2048)] ∧ isHbm place = true ∧ isHbm (place + 2047) = true ∧ place % 8 = 0

theorem hyps_FrameEventResults :
    (let s := requesting 0 callReq id id
     (s.envAt 1 .slotA).isSome = true ∧ ∃ g, s.group? 1 = some g ∧ g.core = 0 ∧ g.defers = [] ∧ (s.core 0).requests = [⟨1, .slotA, .call 16 0x10040 0x10004, 16 / 8 - 1, 0⟩] ∧
       16 / 8 - 1 ≤ (s.core 0).free.length) ∧
    (let s := requesting 1 callReq id fun c => { c with silt := { count := 256 } }
     (s.core 0).silt.chosen = none ∧ 256 ≤ (s.core 0).silt.count ∧
     ((s.core 0).blocked.find? fun r => ((s.group? r.gid).bind Group.spillable).isSome) = some callReq) ∧
    (plain.core 0).silt.count < 256 ∧
    (let s := (called 1).onCore 0 fun c => { c with silt := { chosen := some 1 } }
     (s.core 0).silt.chosen = some 1 ∧ ∀ r ∈ (s.core 0).blocked, r.gid ≠ 1) ∧
    (∃ g, (spilling true).group? 1 = some g ∧ SpillGood (spilling true) 1 1 g) ∧
    (∃ g, (spilling false).group? 1 = some g ∧ SpillGood (spilling false) 2 8 g) ∧
    (∃ g, plain.group? 1 = some g ∧ ∀ r ∈ (plain.core g.core).requests, r.gid ≠ 1) ∧
    (let s := requesting 0 refillReq spilledFrame id
     ∃ g, s.group? 1 = some g ∧ g.frames = { own := 1, size := 8, spilled := true } :: [] ∧ g.frameReq = some refillReq ∧ (s.core g.core).requests = [refillReq] ∧
       g.defers = [] ∧ 1 ≤ (s.core g.core).free.length ∧ (s.core g.core).free.Nodup ∧
       ((s.privRange g (spillOffset [] 0) (2048 * 1) .read).toOption.map fun segs => s.segsPinned (some g.team) segs) = some false) :=
  ⟨⟨by decide +kernel, group_of (by decide +kernel)⟩, by decide +kernel, by decide +kernel, by decide +kernel, group_of (by decide +kernel),
    group_of (by decide +kernel), group_of (by decide +kernel), group_of (by decide +kernel)⟩

/-! ### Memory -/

/-- A context whose page table maps addresses 0 to 2^30 - 1 to themselves, with queue 0, a ring of four records that takes
ENQ, and queue 2, which is full. -/
def withTables (s : State) : State :=
  let words : List (Nat × Nat) := [(0x8000, 2 ^ 63), (0x8008, 0x100), (0x9000, 0xA000 + 2 * 2 ^ 3), (0x9010, 2 ^ 29), (0x9080, 0xA000 + 2 * 2 ^ 3), (0x9088, 4 * 2 ^ 32), (0x100000, 0x101001),
    (0x101000, 0x102001), (0x102000, 0x1F)]
  let s : State := { s with host := { s.host with ctxTable := 0x8000, queueTable := 0x9000 } }
  words.foldl (fun (s : State) (w : Nat × Nat) => withBytes s w.1 8 w.2) s

/-- The placed group with addresses in v3, one for each lane, and one address in every lane of v4. -/
def based (src : Source) (f : Group → Group) : State :=
  (loaded src fun g => f { g with pbase := 0x40000000 }).onCore 0 fun c => { c with
    rf := ((List.range 32).map fun l => (96 + l, BitVec.ofNat 64 (0x11000 + 8 * l))) ++ (List.range 32).map fun l => (128 + l, 0x12000) }

/-- An access form over v1 or v2 with its addresses in v3. -/
def accessForm (r : Nat) (scope : Bool := false) : Form :=
  { accepts := { neg := true, cache := true, offset := true, scope := scope }, guard := some 0, regs := [r, 3] }

/-- The lanes of v3 pass the checks, and nothing that the group has in flight holds the access back. -/
def lanesGood (s : State) (n : Nat) (k : AccKind) (e : Env) : Bool := match s.checkLanes e.who (e.addresses 3 (e.active 0)) n n k with
  | .ok ps => !e.acquireHeld && decide (ps.length = 32 ∧ ∀ x ∈ e.g.defers, x.op < s.nextId) &&
      (e.overflowTrap s (e.addresses 3 (e.active 0)) (((ps.map (e.laneAcc 0)).filter fun a => !a.image).map fun a => (a.place, n))).isNone
  | .error _ => false

/-- The placed group with 63 loads in flight. -/
def fullPath : State := based .slotA fun g => { g with flight := List.replicate 63 ⟨0, .ld, .slotA, false, .load 8 false [] none 0⟩ }

/-- A narrow acquire of slot A whose result has not come. -/
def acquiring : State := based .slotA fun g => { g with flight := [⟨0, .ld, .slotA, false, .load 8 false [] (some 1) 0⟩] }

theorem hyps_LoadIssue :
    (∀ x ∈ [(accessForm 1, Instr.ld 2 1 3 0 3), (accessForm 1, .lda 2 1 3 0 3 1)], Meets (based .slotA id) x.1 x.2 [3] fun e =>
      e.g.counter .ld < 63 ∧ lanesGood (based .slotA id) 8 .read e = true) ∧
    (∀ x ∈ [(accessForm 1, Instr.ld 2 1 3 0 3), (accessForm 1, .lda 2 1 3 0 3 1)], Meets fullPath x.1 x.2 [3] fun e =>
      63 ≤ e.g.counter .ld ∧ lanesGood fullPath 8 .read e = true) ∧
    ∀ x ∈ [(accessForm 1, Instr.ld 2 1 3 0 3), (accessForm 1, .lda 2 1 3 0 3 1)], Meets acquiring x.1 x.2 [3] fun e =>
      e.acquireHeld = true ∧ (acquiring.checkLanes e.who (e.addresses 3 (e.active 0)) 8 8 .read).toOption.isSome = true :=
  ⟨Meets.all (by decide +kernel), Meets.all (by decide +kernel), Meets.all (by decide +kernel)⟩

/-- The placed group with one operation in flight. -/
def flying (p : Path) (w : Work) (defers : List Deferred := []) (f : Group → Group := id) : State :=
  based .slotA fun g => f { g with flight := [⟨9, p, .slotA, false, w⟩], defers := defers }

theorem flying_of {s : State} {gid op : Nat} {w : Work} {P : Group → Prop} [∀ g, Decidable (P g)]
    (h : ((s.group? gid).any fun g => decide (s.work? gid op = some w ∧ (∀ o ∈ g.flight, o.id = op → o.finished = false) ∧ P g)) = true) :
    ∃ g, s.flying gid op g w ∧ P g := by
  obtain ⟨g, h1, h2, h3, h4⟩ := group_of (P := fun g => s.work? gid op = some w ∧ (∀ o ∈ g.flight, o.id = op → o.finished = false) ∧ P g) h
  exact ⟨g, ⟨h1, h2, h3⟩, h4⟩

/-- An operation of the same group, issued before and not performed. -/
def behind (w : Work) (g : Group) : Group := { g with flight := ⟨8, .st, .slotA, false, w⟩ :: g.flight }

def lane0 : LaneAcc := { lane := 0, va := 0x11000, place := 0x11000, cell := 32, operand := 5 }
/-- Lane 1 at the next word, and at the word of lane 0. -/
def lane1 : LaneAcc := { lane := 1, va := 0x11008, place := 0x11008, cell := 33, operand := 6 }
def twin1 : LaneAcc := { lane := 1, va := 0x11000, place := 0x11000, cell := 33, operand := 6 }
def line0 : List Pin := [{ core := 5, team := 77, line := 0x11000 / 128 }]

/-- The pins of a core that has all but n of its 64. -/
def pinsBut (n : Nat) : List Pin := (List.range (64 - n)).map fun i => { core := 0, team := 2, line := 0x1000 + i }

theorem hyps_LoadReturns :
    (let s : State := { flying .ld (.load 8 false [lane0] none 0) with pins := line0 }
     ∃ g, s.flying 1 9 g (.load 8 false [lane0] none 0) ∧ ∃ a ∈ [lane0], a.done = false ∧ s.pinnedFrom g.team a.place 8 = true) ∧
    (let s := flying .ld (.load 8 false [lane0] none 0) [] (behind (.load 8 false [lane0] none 0))
     ∃ g, s.flying 1 9 g (.load 8 false [lane0] none 0) ∧ g.held 9 [(lane0.place, 8)] = true) ∧
    ∀ x ∈ ([(none, 64), (some 1, 64), (some 1, 1), (some 1, 0), (some 3, 64)] : List (Option Nat × Nat)),
      let w : Work := .load 8 false [lane0, lane1] x.1 0
      let s : State := { flying .ld w [⟨9, .slotA, 0, [1], none, []⟩] with pins := pinsBut x.2 }
      ∃ g, s.flying 1 9 g w ∧ (∀ a ∈ [lane0, lane1], a.done = false ∧ a.got = [] ∧ s.pinnedFrom g.team a.place 8 = false) ∧ s.mayAcquire g x.1 [lane0, lane1] = true ∧
       g.held 9 ([lane0, lane1].map fun a => (a.place, 8)) = false ∧ s.pinScope g (x.1.getD 3) [lane0, lane1] = (if x.1 = some 1 ∧ x.2 ≠ 0 then 1 else if x.1 = some 1 then 2 else 3) ∧
       g.defers = [⟨9, .slotA, 0, [1], none, []⟩] ∧ (∀ r ∈ [1], r < 2048) ∧
       ([lane0, lane1].flatMap fun a => if g.prot then [a.cell, a.cell + 1] else [a.cell]).Nodup ∧ ([lane0, lane1].map fun a => a.lane).Nodup := by
  refine ⟨flying_of (by decide +kernel), flying_of (by decide +kernel), ?_⟩
  intro x hx
  simp only [List.mem_cons, List.not_mem_nil, or_false] at hx
  rcases hx with rfl | rfl | rfl | rfl | rfl <;> exact flying_of (by decide +kernel)

theorem hyps_StoreResults : Meets (based .slotA id) (accessForm 1) (.st 1 3 0 3) [1, 3] fun e => lanesGood (based .slotA id) 8 .write e = true ∧
    e.g.prot = false ∧ e.g.counter .st < 63 :=
  Meets.of (by decide +kernel)

theorem hyps_StoreReachesHome :
    (∀ x ∈ ([(none, 64), (some 1, 64), (some 1, 1), (some 1, 0), (some 2, 64)] : List (Option Nat × Nat)),
      let w : Work := .store 8 x.1 0 [lane0, twin1]
      let s : State := { flying .st w with pins := pinsBut x.2 }
      ∃ g, s.flying 1 9 g w ∧ g.versioned = false ∧ (∀ v ∈ s.versions, v.team ≠ g.team) ∧
       s.mayPin g (s.pinScope g (x.1.getD 3) [lane0, twin1]) [lane0, twin1] = true ∧
       (∀ a ∈ [lane0, twin1], a.done = false ∧ a.got = [] ∧ s.pinnedFrom g.team a.place 8 = false ∧ (isChip a.place = true ∨ a.place + 8 ≤ chipBase)) ∧
       (s.core g.core).l1 = [] ∧ (∀ a ∈ [lane0, twin1], g.held 9 [(a.place, 8)] = false) ∧ s.ownTakes g 0 [lane0, twin1] = true ∧ g.before 9 = [] ∧
       s.canDrain g.core = true ∧ s.pinScope g (x.1.getD 3) [lane0, twin1] = (if x.1 = some 1 ∧ x.2 ≠ 0 then 1 else if x.1 = none then 3 else 2)) ∧
    (∃ g, (flying .st (.store 8 (some 1) 0 [lane0]) [] (behind (.store 8 none 0 [lane0]))).flying 1 9 g (.store 8 (some 1) 0 [lane0]) ∧
      ∃ o ∈ g.before 9, o.finished = false ∧ o.work.isMemory = true) ∧
    isChip 0x11000 = false ∧ isAdobe 0x11000 = false ∧ 0x11000 + 8 ≤ chipBase ∧ 0x11000 / 128 ≤ 0x11007 / 128 ∧ 0x11007 < 0x11000 + 8 := by
  refine ⟨?_, flying_of (by decide +kernel), by decide +kernel, by decide +kernel, by decide +kernel, by decide, by decide⟩
  intro x hx
  simp only [List.mem_cons, List.not_mem_nil, or_false] at hx
  rcases hx with rfl | rfl | rfl | rfl | rfl <;> exact flying_of (by decide +kernel)

theorem hyps_ReleaseAndAtomicIssue :
    (Meets (based .slotA id) (accessForm 1) (.str 1 3 0 3 1) [1, 3] fun e => e.g.counter .st < 63 ∧ e.g.prot = false ∧
      lanesGood (based .slotA id) 8 .write e = true) ∧
    (∀ x ∈ [(accessForm 2 true, Instr.atomAdd 1 2 3 0 0 1), (accessForm 2 true, .atomMinI 1 2 3 0 1 1), (accessForm 2 true, .atomMaxI 1 2 3 0 2 1),
      (accessForm 2 true, .atomMinN 1 2 3 0 3 1), (accessForm 2 true, .atomMaxN 1 2 3 0 0 1), (accessForm 2 true, .atomAnd 1 2 3 0 0 1),
      (accessForm 2 true, .atomOr 1 2 3 0 0 1), (accessForm 2 true, .atomXor 1 2 3 0 0 1), (accessForm 2 true, .atomXchg 1 2 3 0 0 1),
      ({ accessForm 6 true with regs := [6, 3, 7] }, .atomCas 1 3 3 0 0 1)], Meets (based .slotA id) x.1 x.2 [2, 3, 6, 7] fun e =>
      e.g.counter .st < 63 ∧ e.g.prot = false ∧ lanesGood (based .slotA id) 8 .rmw e = true) ∧
    Meets (based .slotA id) (accessForm 2 true) (.atomFadd 1 2 3 0 0) [2, 3] fun e => lanesGood (based .slotA id) 4 .rmw e = true :=
  ⟨Meets.of (by decide +kernel), Meets.all (by decide +kernel), Meets.of (by decide +kernel)⟩

theorem hyps_AtomicResults :
    (∀ x ∈ ([(0, 2, 64), (1, 1, 64), (2, 1, 1), (3, 2, 64), (3, 1, 0)] : List (Nat × Nat × Nat)),
      let ls := [lane0, twin1]
      let w : Work := .atomic .add 8 x.1 x.2.1 0 ls
      let s : State := { flying .st w [⟨9, .slotA, 0, [1], none, []⟩] with pins := pinsBut x.2.2 }
      ∃ g, s.flying 1 9 g w ∧ g.versioned = false ∧ (∀ v ∈ s.versions, v.team ≠ g.team) ∧
        s.atomBarred 1 g 9 8 (if x.1 = 0 then x.2.1 else s.pinScope g x.2.1 ls) ls = false ∧ s.mayPin g (s.pinScope g x.2.1 ls) ls = true ∧
        (∀ a ∈ ls, a.done = false ∧ a.half = false ∧ a.got = [] ∧ a.place % 8 = 0 ∧ isAdobe a.place = false ∧ a.image = false ∧ s.pinnedFrom g.team a.place 8 = false) ∧
        (s.core g.core).l1 = [] ∧ (ls.map fun a => a.lane).Nodup ∧ (ls.flatMap fun a => if g.prot then [a.cell, a.cell + 1] else [a.cell]).Nodup ∧
        g.before 9 = [] ∧ s.canDrain g.core = true ∧ g.held 9 (ls.map fun a => (a.place, 8)) = false ∧ s.ownTakes g 0 ls = true ∧
        (s.pinScope g x.2.1 ls < 2 ↔ x.2.1 < 2 ∧ x.2.2 ≠ 0) ∧ g.defers = [⟨9, .slotA, 0, [1], none, []⟩]) ∧
    ∀ order ∈ ([2, 3] : List Nat), let w : Work := .atomic .add 8 order 2 0 [lane0]
      ∃ g, (flying .st w [] (behind (.store 8 none 0 [lane0]))).flying 1 9 g w ∧ ∃ o ∈ g.before 9, o.finished = false ∧ o.work.isMemory = true := by
  refine ⟨?_, ?_⟩ <;> intro x hx <;> simp only [List.mem_cons, List.not_mem_nil, or_false] at hx
  · rcases hx with rfl | rfl | rfl | rfl | rfl <;> exact flying_of (by decide +kernel)
  · rcases hx with rfl | rfl <;> exact flying_of (by decide +kernel)

theorem hyps_FenceAndWait :
    (∀ x ∈ [(({ closes := .own } : Form), Instr.fence 1), ({ closes := .own }, .fence 2), ({ closes := .own, regs := [2] }, .wait 2 0)],
      Meets plain x.1 x.2 [2] fun e => e.src ≠ .access ∧ e.g.flight = [] ∧ plain.canDrain e.g.core = true ∧ e.slot.mask ≠ 0 ∧
        e.g.counter (pathOf 0) ≤ (e.scalar 2).toNat) ∧
    ∀ x ∈ [(({ closes := .own } : Form), Instr.fence 1), ({ closes := .own, regs := [2] }, .wait 2 0)],
      Meets (flying .ld (.load 8 false [lane0] none 0)) x.1 x.2 [2] fun e => e.src ≠ .access ∧
        (∃ o ∈ e.g.flight, o.finished = false ∧ o.work.isAccess = true) ∧ (e.scalar 2).toNat < e.g.counter (pathOf 0) :=
  ⟨Meets.all (by decide +kernel), Meets.all (by decide +kernel)⟩

/-- The 128 bytes of a record at the address of v4 may be read. -/
def recordGood (s : State) (e : Env) : Bool := match s.checkLanes { e.who with unlisted := true } [(e.lowest, (e.scalar 4).toNat)] 128 128 .read with
  | .ok ps => !e.acquireHeld && !ps.isEmpty
  | .error _ => false

def enqWork (q : Nat) (scope : Nat := 1) : Work := .enq [(0x12000, 128)] q scope

/-- The leaf entry that the walk of the ring slot ends at lies outside the slot, in the state that the append leaves. -/
def leafApart (s : State) (g : Group) (scope dst : Nat) : Bool :=
  let u := s.release g scope
  let bytes := u.view g.core g.team 0x12000 128
  let written := ((s.release g scope).readIn 1 g 0x12000 0 |>.drainRange g.core dst 128).writeHome dst bytes false (u.accessOf 1 g 0)
  match written.walk (written.contextRoot (s.queueCtx 0)) (written.recordVa 0 (s.queueTail 0)) with
  | .leaf a _ _ => decide (dst + 128 ≤ a ∨ a + 8 ≤ dst)
  | _ => true

theorem hyps_EnqResults :
    (let f : Form := { closes := .own, runs := .program, accepts := { scope := true }, regs := [4] }
     Meets (withTables (based .slotA id)) f (.enq 4 0) [4] (fun e => e.slot.mask ≠ 0 ∧ e.g.prot = false ∧ recordGood (withTables (based .slotA id)) e = true ∧
       (withTables (based .slotA id)).acceptsEnq 0 e.who.ctx = true ∧ e.g.counter .st < 63) ∧
     Meets (withTables (based .slotA id)) f (.enq 4 1) [4] (fun e => e.slot.mask ≠ 0 ∧ e.g.prot = false ∧ recordGood (withTables (based .slotA id)) e = true ∧
       (withTables (based .slotA id)).acceptsEnq 1 e.who.ctx = false ∧ stoppableTest e = true)) ∧
    (let s := withTables (flying .st (enqWork 2))
     ∃ g, s.flying 1 9 g (enqWork 2) ∧ 2 ^ s.queueLog 2 ≤ (s.queueTail 2 + 2 ^ 32 - s.queueHead 2) % 2 ^ 32) ∧
    (let s := flying .st (enqWork 0) [] fun g => { g with flight := ⟨8, .st, .slotA, false, enqWork 0⟩ :: g.flight }
     ∃ g, s.flying 1 9 g (enqWork 0) ∧ ((g.before 9).any fun o => !o.finished && decide (o.work = enqWork 0)) = true) ∧
    (∀ scope ∈ ([1, 3] : List Nat), let s := withTables (flying .st (enqWork 0 scope))
     ∃ g, s.flying 1 9 g (enqWork 0 scope) ∧ (s.queueTail 0 + 2 ^ 32 - s.queueHead 0) % 2 ^ 32 < 2 ^ s.queueLog 0 ∧
       s.ctxPlace (s.queueCtx 0) (s.recordVa 0 (s.queueTail 0)) .write = some 0xA000 ∧ g.before 9 = [] ∧ s.pinnedFrom g.team 0xA000 128 = false ∧
       s.canDrain g.core = true ∧ s.queueHeld (some g.team) 0 = false ∧ s.walkHeld (s.contextRoot (s.queueCtx 0)) (s.recordVa 0 (s.queueTail 0)) = false ∧
       s.pinnedFrom g.team 0x12000 128 = false ∧ s.queueAt 0 + 64 ≤ 0xA000 ∧ leafApart s g scope 0xA000 = true) := by
  refine ⟨⟨Meets.of (by decide +kernel), Meets.of (by decide +kernel)⟩, flying_of (by decide +kernel), flying_of (by decide +kernel), ?_⟩
  intro x hx
  simp only [List.mem_cons, List.not_mem_nil, or_false] at hx
  rcases hx with rfl | rfl <;> exact flying_of (by decide +kernel)

/-! ### Queues and shapes -/

/-- A one-dimensional shape of 64-bit elements. -/
def shapeOf (base ext : Nat) : BitVec 512 := BitVec.ofNat 512 (base * 2 ^ 448 + ext * 2 ^ 288 + 8 * 2 ^ 88 + 3 * 2 ^ 27 + 2 ^ 24)

/-- A FULL entry 0 of queue 0, in use, with data 7 and every byte of lane 0 to be stored. -/
def fullQueue : NMap Queue := [(0, { entries := [(0, { life := .full, data := [(0, 7)], mask := [(0, 0xFF)] })], order := [0], next := 1 })]

def queueForm : Form := { runs := .program, accepts := { neg := true }, guard := some 0, regs := [2] }

theorem hyps_QueueTransfers :
    Meets (based .slotA fun g => { g with qdir := 1 }) queueForm (.pop 2 0 0) [] (fun e => e.g.isStore 0 = true ∧ stoppableTest e = true) ∧
    Meets (based .slotA fun g => { g with queues := fullQueue }) queueForm (.pop 2 0 0) [] (fun e => e.g.isStore 0 = false ∧
      (e.g.queue 0).order = [0] ∧ ((e.g.queue 0).entry 0).life = .full) ∧
    Meets plain queueForm (.push 2 0 0) [2] (fun e => e.g.prot = false ∧ e.g.isStore 0 = false ∧ stoppableTest e = true) ∧
    Meets (based .slotA fun g => { g with qdir := 1 }) queueForm (.push 2 0 0) [2] (fun e => e.g.isStore 0 = true ∧ (e.g.queue 0).nextFree = some 0) :=
  ⟨Meets.of (by decide +kernel), Meets.of (by decide +kernel), Meets.of (by decide +kernel), Meets.of (by decide +kernel)⟩

def streamForm : Form := { runs := .stream, accepts := { any := false } }

/-- The access stream with shape 2 over 32 elements, and queues. -/
def streaming (qdir : BitVec 4) (qs : NMap Queue) : State :=
  based .access fun g => { g with qdir := qdir, queues := qs, shapes := [(2, shapeOf 0x11000 32)] }

/-- What a QLD or QST needs of its shape, elements and path. -/
def streamGood (s : State) (k : AccKind) (els : List (Nat × Nat × Element)) (e : Env) : Bool :=
  decide (shInvalid (e.g.shape 2) = false ∧ shSand (e.g.shape 2) = false ∧ e.g.counter .qs < 63 ∧ e.g.shapeHeld 2 = false ∧ boundsTrap els = none) &&
    match s.checkElements e.who (insideOf els) (shBytes (e.g.shape 2)) k with
    | .ok xs => s.mayRequest e.g.core (xs.map fun x => (x.2.2, shBytes (e.g.shape 2))) && decide (xs.length = 32 ∨ xs.length = 1)
    | .error _ => false

def qldWork : Work := .qld 0 0 8 [(0, 0, 0x11000)]
def qstWork : Work := .qst 0 0 (shapeOf 0x11000 32) 0 8 (some [(0, 0, 0x11000)])

theorem hyps_StreamTransfers :
    Meets (streaming 1 []) streamForm (.qld 0 0 2) [] (fun e => e.src = .access ∧ e.g.isStore 0 = true ∧ stoppableTest e = true) ∧
    Meets (streaming 0 []) streamForm (.qld 0 0 2) [] (fun e => e.src = .access ∧ e.g.isStore 0 = false ∧ (e.g.queue 0).nextFree = some 0 ∧
      streamGood (streaming 0 []) .read (e.elements (e.g.shape 2) false 0) e = true) ∧
    Meets (streaming 1 fullQueue) streamForm (.qst 0 0 2) [] (fun e => e.src = .access ∧ e.g.waitingQst = none ∧ e.g.isStore 0 = true ∧
      e.g.versioned = false ∧ ((e.g.queue 0).order.find? fun j => !((e.g.queue 0).entry j).bound) = some 0 ∧ e.g.flight = [] ∧
      streamGood (streaming 1 fullQueue) .write (maskedOf ((e.g.queue 0).entry 0) 8 (e.elements (e.g.shape 2) true 0)) e = true ∧
      ∀ o ∈ e.g.flight, o.id ≠ (streaming 1 fullQueue).nextId) ∧
    (let s := flying .qs qldWork
     ∃ g, s.flying 1 9 g qldWork ∧ g.life ≠ .draining ∧ s.streamHeld g 9 [(0x11000, 8)] = false) ∧
    (let s := flying .qs qstWork [] fun g => { g with queues := fullQueue }
     ∃ g, s.flying 1 9 g qstWork ∧ s.streamHeld g 9 [(0x11000, 8)] = false ∧ g.versioned = false ∧ isChip 0x11000 = false ∧ isAdobe 0x11000 = false ∧ 0x11000 % 8 = 0 ∧
       (NMap.get ((g.queue 0).entry 0).mask 0 0).toNat / 2 ^ (8 * 0) % 2 ^ 8 = 2 ^ 8 - 1 ∧ s.versions = []) :=
  ⟨Meets.of (by decide +kernel), Meets.of (by decide +kernel), Meets.of (by decide +kernel), flying_of (by decide +kernel), flying_of (by decide +kernel)⟩

theorem hyps_ScalarAndShapeResults :
    (∀ x ∈ [(streamForm, Instr.yopReg 1 2 0 3), (streamForm, .yopImm 1 2 9 5), (streamForm, .yopHrd 1 2 4), (streamForm, .adone)],
      Meets (streaming 0 []) x.1 x.2 [] fun e => e.src = .access) ∧
    Meets (streaming 0 []) streamForm (.yopHwait 2) [] (fun e => e.src = .access ∧ shRank (e.g.shape 2) ≠ 0) ∧
    Meets (streaming 0 []) streamForm (.yopHwait 3) [] (fun e => e.src = .access ∧ shRank (e.g.shape 3) = 0) ∧
    Meets (streaming 0 []) streamForm (.ybr 1 2 0 4) [] (fun e => e.src = .access ∧ (NMap.get e.g.y 0 1).toInt = (NMap.get e.g.y 0 2).toInt ∧
      badTarget (e.g.accessPc + BitVec.ofInt 64 (4 * (4 : BitVec 11).toInt)) = false) ∧
    Meets (streaming 0 []) streamForm (.ybr 1 2 1 4) [] (fun e => e.src = .access ∧ ¬ (NMap.get e.g.y 0 1).toInt ≠ (NMap.get e.g.y 0 2).toInt) ∧
    (∀ x ∈ [(({ accepts := { neg := true }, guard := some 0, regs := [2] } : Form), Instr.hrd 2 1 0 0),
      ({ accepts := { neg := true }, guard := some 0, regs := [2] }, .hrd 2 1 0 12), ({ accepts := { neg := true }, guard := some 0, regs := [2] }, .hrd 2 1 0 13),
      ({ accepts := { neg := true }, guard := some 0, regs := [2] }, .hwr 2 1 0 0), ({ accepts := { neg := true }, guard := some 0, regs := [2] }, .hwr 2 1 0 12), ({ accepts := { neg := true }, guard := some 0, regs := [2] }, .hwr 2 1 0 13)],
      Meets plain x.1 x.2 [2] fun e => (e.active 0).head? = some 0) ∧
    Meets plain { accepts := { neg := true }, guard := some 1, regs := [2] } (.hwr 2 1 1 13) [2] (fun e => e.active 1 = []) ∧
    Meets (loaded .slotA fun g => { g with preds := [(40, 0xFF)] }) { accepts := { neg := true }, guard := some 1, regs := [2] } (.hwr 2 1 1 13) [2]
      (fun e => e.active 1 = [8]) :=
  ⟨Meets.all (by decide +kernel), Meets.of (by decide +kernel), Meets.of (by decide +kernel), Meets.of (by decide +kernel), Meets.of (by decide +kernel),
    Meets.all (by decide +kernel), Meets.of (by decide +kernel), Meets.of (by decide +kernel)⟩

/-! ### The matrix unit -/

/-- Two rows and two columns of an element width, rows 64 bytes apart. -/
def cfgOf (ew : Nat) : Lane := BitVec.ofNat 64 (2 + 2 * 2 ^ 8 + ew * 2 ^ 16 + 64 * 2 ^ 32)

/-- The based group with tiles and accumulator tiles, its accumulator kinds, and a word in every lane of v5. -/
def units (ew : Nat) (kinds : NMap Nat) (word : Lane) (f : Group → Group := id) : State :=
  (based .slotA fun g => f { g with tiles := 8, accs := 8 }).onCore 0 fun c => { c with
    tileCfg := (List.range 8).map fun t => (t, cfgOf ew)
    accKind := kinds
    rf := c.rf ++ (List.range 32).map fun l => (160 + l, word) }

/-- Ranges that pass the checks, and nothing that holds the operation back. -/
def reachGood (s : State) (rs : List Reach) (e : Env) : Bool :=
  let who : Who := { e.who with unlisted := true }
  (s.copyFault who rs).isNone && !e.acquireHeld && (e.overflowTrap s [] (rs.flatMap (s.copyPlace who))).isNone && decide (s.unitCount e.g.core < 16)

def unitRoomTest (e : Env) : Bool := [Path.ld, .st, .mma].all fun p => decide (e.g.counter p < 63)

def unitForm : Form := { runs := .program, accepts := { offset := true, cache := true }, regs := [4] }

theorem hyps_TileIssue :
    Meets (units 2 [] 0) { runs := .program, regs := [5] } (.tcfg 1 5) [5] (fun e => 1 < e.g.tiles ∧ e.slot.mask ≠ 0 ∧ e.g.matrixOps = [] ∧
      (units 2 [] 0).unitCount e.g.core < 16) ∧
    Meets plain { runs := .program, regs := [5] } (.tcfg 1 5) [] (fun e => e.g.tiles ≤ 1 ∧ stoppableTest e = true) ∧
    Meets (units 2 [] 0) unitForm (.tld 1 4) [4] (fun e => 1 < e.g.tiles ∧ e.slot.mask ≠ 0 ∧ e.g.prot = false ∧ cfgValid (e.cfg 1) = true ∧
      unitRoomTest e = true ∧ reachGood (units 2 [] 0) (tileRows (e.cfg 1) (e.unitAddress 4) .read) e = true) ∧
    Meets (units 2 [] 0) unitForm (.tst 1 4) [4] (fun e => unitRoomTest e = true ∧
      reachGood (units 2 [] 0) (tileRows (e.cfg 1) (e.unitAddress 4) .write) e = true) ∧
    Meets (units 2 [] 0) { runs := .program } (.tzero 1) [] (fun e => 1 < e.g.tiles ∧ cfgValid (e.cfg 1) = true ∧ unitRoomTest e = true) ∧
    Meets (units 2 [] 0) { runs := .program } (.ttrans 2 1) [] (fun e => cfgValid (e.cfg 2) = true ∧ cfgEw (e.cfg 2) < 4 ∧ cfgEw (e.cfg 2) = cfgEw (e.cfg 1) ∧
      cfgRows (e.cfg 2) = cfgCols (e.cfg 1) ∧ cfgCols (e.cfg 2) = cfgRows (e.cfg 1) ∧ unitRoomTest e = true) :=
  ⟨Meets.of (by decide +kernel), Meets.of (by decide +kernel), Meets.of (by decide +kernel), Meets.of (by decide +kernel), Meets.of (by decide +kernel),
    Meets.of (by decide +kernel)⟩

/-- The vote and the shapes of an MMA are good. -/
def mmaGood (form : MmaForm) (e : Env) : Bool := decide (1 < e.g.tiles ∧ 2 < e.g.tiles ∧ 0 < e.g.accs ∧ e.g.prot = false ∧ laneCount e.slot.mask = e.width) &&
  (e.lanes.all fun l => e.val 0 5 l == e.scalar 5) && ((e.mmaCodes form 0 1 2 (e.scalar 5)).all fun c => !c.1) && unitRoomTest e

def accForm : Form := { runs := .program, regs := [5] }

theorem hyps_AccumulatorIssue :
    Meets (units 0 [(0, 1)] 0) accForm (.mma 0 5 1 2) [5] (fun e => mmaGood .plain e = true) ∧
    Meets (units 1 [(0, 2), (1, 3), (2, 3), (3, 3)] 0xD0D) accForm (.mmaExact 0 5 1 2) [5] (fun e => mmaGood .exact e = true) ∧
    Meets (units 4 [] 0x1212) accForm (.mmaSb 0 5 1 2) [5] (fun e => mmaGood .sand e = true) ∧
    Meets (units 2 [] 0xA0A) accForm (.mmaWide 0 5 1 2) [5] (fun e => mmaGood .wide e = true) ∧
    Meets ((units 0 [(0, 1)] 0).onCore 0 fun c => { c with rf := NMap.put c.rf 161 4 }) accForm (.mma 0 5 1 2) [5]
      (fun e => e.lanes.filter (fun l => e.val 0 5 l != e.scalar 5) = [1] ∧ stoppableTest e = true) ∧
    Meets (units 0 [(0, 1)] 0 fun g => { g with a := { g.a with mask := 7 } }) accForm (.mma 0 5 1 2) [5]
      (fun e => laneCount e.slot.mask < e.width ∧ stoppableTest e = true ∧ ∀ l ∈ e.lanes, e.val 0 5 l = e.scalar 5) ∧
    Meets (units 2 [] 0x200) { runs := .program, accepts := { re := true }, regs := [5] } (.zrd 0 5 1) [5] (fun e => 1 < e.g.tiles ∧ 0 < e.g.accs ∧
      cfgValid (e.cfg 1) = true ∧ cfgCols (e.cfg 1) ≤ 64 ∧ e.g.accKind e.core 0 ≠ 3 ∧ readGood (e.scalar 5) (e.g.accKind e.core 0) = true ∧
      cfgEw (e.cfg 1) = readEw (readFmt (e.scalar 5)) ∧ unitRoomTest e = true) ∧
    Meets (units 2 [] 0) { runs := .program } (.zclr 4 2) [] (fun e => e.kindName 4 2 = true ∧ e.g.accKind e.core 4 ≠ 3 ∧ unitRoomTest e = true) ∧
    Meets (units 2 [] 0) unitForm (.zld 4 4 0) [4] (fun e => e.kindName 4 0 = true ∧ unitRoomTest e = true ∧
      reachGood (units 2 [] 0) [{ va := e.unitAddress 4, n := imageBytes 0, align := 128, kind := .read }] e = true) ∧
    Meets (units 2 [] 0) unitForm (.zst 0 4) [4] (fun e => 0 < e.g.accs ∧ e.g.accKind e.core 0 ≠ 3 ∧ unitRoomTest e = true ∧
      reachGood (units 2 [] 0) [{ va := e.unitAddress 4, n := imageBytes 0, align := 128, kind := .write }] e = true) :=
  ⟨Meets.of (by decide +kernel), Meets.of (by decide +kernel), Meets.of (by decide +kernel), Meets.of (by decide +kernel), Meets.of (by decide +kernel),
    Meets.of (by decide +kernel), Meets.of (by decide +kernel), Meets.of (by decide +kernel), Meets.of (by decide +kernel), Meets.of (by decide +kernel)⟩

/-- An operation of the matrix unit in flight, and its core's queue. -/
def unitState (u : UnitOp) (before : List Op := []) (c : Core → Core := id) : State :=
  (units 2 [] u.scalar fun g => { g with flight := before ++ [⟨9, .mma, .slotA, false, .matrix u⟩] }).onCore 0 fun k => c { k with matrix := [(1, 9)] }

/-- An operation that has not begun. -/
def unitOp (i : Instr) (w : Lane) (segs : List (Nat × Nat)) (kind : Nat := 0) : UnitOp := { ins := i, scalar := w, segs := segs, kind := kind }

/-- A tile operation that runs. -/
def running : Op := ⟨8, .mma, .slotA, false, .matrix { ins := .tzero 1, started := true }⟩

theorem hyps_ProductResults :
    (∀ x ∈ [(Instr.mma 0 5 1 2, MmaForm.plain), (.mmaExact 0 5 1 2, .exact), (.mmaSb 0 5 1 2, .sand), (.mmaWide 0 5 1 2, .wide)],
      let u := unitOp x.1 0x1010 []
      let s := unitState u
      ∃ g, s.group? 1 = some g ∧ g.nextUnit = some (9, u) ∧ g.core = 0 ∧ u.segs = [] ∧ g.tilesFree x.1 = true ∧
        (s.core 0).unitFree ≤ (s.core 0).cycle.toNat ∧ cfgRows (g.cfg (s.core 0) 1) ≤ 64 ∧
        mmaColumns x.2 (g.cfg (s.core 0) 2) ≤ 64 ∧ g.acc0 + 0 + (if x.2.kind (wordA 0x1010) = 2 then 4 else 1) ≤ 32) ∧
    (let s := unitState (unitOp (.mma 0 5 1 2) 0 []) [running]
     ∃ g, s.group? 1 = some g ∧ g.nextUnit = some (9, unitOp (.mma 0 5 1 2) 0 []) ∧ g.core = 0 ∧ g.tilesFree (.mma 0 5 1 2) = false) ∧
    (let s := unitState (unitOp (.mma 0 5 1 2) 0 []) [] fun c => { c with unitFree := 5, cycle := 4 }
     ∃ g, s.group? 1 = some g ∧ g.nextUnit = some (9, unitOp (.mma 0 5 1 2) 0 []) ∧ g.core = 0 ∧ (s.core 0).cycle.toNat < (s.core 0).unitFree) := by
  refine ⟨?_, group_of (by decide +kernel), group_of (by decide +kernel)⟩
  intro x hx
  simp only [List.mem_cons, List.not_mem_nil, or_false] at hx
  rcases hx with rfl | rfl | rfl | rfl <;> exact group_of (by decide +kernel)

theorem pieceCells_length (s : State) (g : Group) (x : Nat × Nat) : (s.pieceCells g x).length = x.2 := by
  simp [State.pieceCells, spread]

theorem unitCells_length (s : State) (g : Group) (u : UnitOp) (a n : Nat) (h : u.segs = [(a, n)]) (hg : u.got = []) :
    (s.unitCells g u).length = n := by
  simp [State.unitCells, h, hg, List.zipIdx, NMap.find, pieceCells_length]

theorem unitOpen_of (s : State) (g : Group) (op : Nat) (u : UnitOp) (hb : g.before op = []) (hp : s.pins = []) : s.unitOpen g op u = true := by
  unfold State.unitOpen
  split <;> simp [Group.held, State.pinnedFrom, State.pinnedAgainst, hb, hp]

theorem unitOpen_and {s : State} {u : UnitOp} {P : Group → Prop}
    (h : ∃ g, s.group? 1 = some g ∧ g.before 9 = [] ∧ g.nextUnit = some (9, u) ∧ P g) (hp : s.pins = []) :
    ∃ g, s.group? 1 = some g ∧ g.nextUnit = some (9, u) ∧ s.unitOpen g 9 u = true ∧ P g := by
  obtain ⟨g, h1, h2, h3, h4⟩ := h
  exact ⟨g, h1, h3, unitOpen_of s g 9 u h2 hp, h4⟩

theorem hyps_TileResults :
    (∀ x ∈ [(Instr.tld 1 4, [(0x12000, 16)]), (.tzero 1, []), (.ttrans 1 2, []), (.zrd 0 5 1, []), (.zclr 0 0, []),
        (.zld 0 4 0, [(0x12000, 16384)]), (.tst 1 4, [(0x12000, 16)]), (.zst 0 4, [(0x12000, 16384)])],
      let u := unitOp x.1 0x200 x.2
      let s := unitState u
      ∃ g, s.group? 1 = some g ∧ g.nextUnit = some (9, u) ∧ s.unitOpen g 9 u = true ∧ g.core = 0 ∧ (s.core 0).unitFree ≤ (s.core 0).cycle.toNat ∧
        g.tilesFree x.1 = true ∧ cfgRows (g.cfg (s.core 0) 1) = 2 ∧ cfgRow (g.cfg (s.core 0) 1) = 8 ∧ g.tile0 + 1 < 32 ∧ g.acc0 + 0 + 4 ≤ 32) ∧
    (∀ s g, (State.unitCells s g (unitOp (.tld 1 4) 0x200 [(0x12000, 16)])).length = 16 ∧
      (State.unitCells s g (unitOp (.zld 0 4 0) 0x200 [(0x12000, 16384)])).length = 16384) ∧
    (let u : UnitOp := { unitOp (.tst 1 4) 0 [(0x12000, 16)] with started := true, ends := 7, out := [⟨0x12000, [1, 2], false⟩, ⟨0x12040, [3, 4], false⟩] }
     let s := unitState u [] fun c => { c with cycle := 7 }
     (s.core 0).matrix = [] ++ (1, 9) :: [] ∧ ∃ g, s.flying 1 9 g (.matrix u) ∧ g.core = 0 ∧ u.ends ≤ (s.core 0).cycle.toNat ∧
       (∀ w ∈ u.out, s.mayUnitWrite g 9 u.mode w = true ∧ w.place + w.bytes.length ≤ chipBase) ∧ g.versioned = false ∧
       (∀ v ∈ s.versions, v.team ≠ g.team) ∧ (s.core 0).l1 = []) := by
  refine ⟨?_, fun s g => ⟨unitCells_length s g _ _ _ rfl rfl, unitCells_length s g _ _ _ rfl rfl⟩, by decide +kernel, flying_of (by decide +kernel)⟩
  intro x hx
  simp only [List.mem_cons, List.not_mem_nil, or_false] at hx
  rcases hx with rfl | rfl | rfl | rfl | rfl | rfl | rfl | rfl <;> exact unitOpen_and (group_of (by decide +kernel)) (by decide +kernel)

/-! ### Copies and barriers -/

/-- A copy record between two shapes, its control part version 1. -/
def copyRec (src dst : BitVec 512) : Nat := src.toNat + dst.toNat * 2 ^ 512 + 2 ^ 1464

/-- The based group with two shapes, a copy record in memory at the address of v4, and perhaps in the record cache. -/
def copying (cached : Bool) : State :=
  let r := copyRec (shapeOf 0x11000 2) (shapeOf 0x13000 2)
  (withBytes (based .slotA fun g => { g with shapes := [(1, shapeOf 0x11000 2), (2, shapeOf 0x13000 2)] }) 0x12000 192 r).onCore 0 fun c => { c with
    records := if cached then [{ team := 2, va := 0x12000, record := BitVec.ofNat 1536 r }] else [] }

/-- The checks of a request that is good. -/
def requestGood (s0 : State) (q : Request) (e : Env) : Bool :=
  decide (q.shapeFault = none ∧ copyUncovered q.src q.dst q.rows = false ∧ copyOverlaps q.elems (copyBytes q.dst) = false ∧
    s0.copyFault e.engine q.reach = none ∧ e.overflowTrap s0 [] (copyWrites (s0.copyMoves e.engine q) (s0.copySignal e.engine q)) = none ∧
    e.g.counter .cpy < 63 ∧ e.core.copies.length < 16 ∧ e.slot.mask ≠ 0 ∧ e.g.prot = false ∧ e.acquireHeld = false)

/-- The record of v4 in the cache. -/
def cachedOf (e : Env) : Option CachedRecord := e.core.records.find? fun y => y.team == e.g.team && y.va.toNat == (e.scalar 4).toNat

/-- The record of v4 as memory gives it. -/
def fetchedOf (s : State) (e : Env) : Option (BitVec 1536) := match s.checkRange e.who (e.scalar 4).toNat 192 64 .read with
  | .ok segs => if e.g.reaches segs || segs.any (fun x => s.pinnedFrom e.g.team x.1 x.2) then none
      else some (BitVec.ofNat 1536 (numOf (segs.flatMap fun x => if onChip ≤ (e.scalar 4).toNat then s.readHome x.1 x.2 else s.view e.g.core e.g.team x.1 x.2)))
  | .error _ => none

def recordForm : Form := { runs := .program, accepts := { copyAccepts with offset := true }, regs := [4] }
def gatherForm : Form := { runs := .program, accepts := { copyAccepts with offset := true, neg := true }, guard := some 0, regs := [2, 4] }

theorem hyps_CopyIssueResults :
    Meets (copying false) { runs := .program, accepts := copyAccepts } (.copyh 2 1) [] (fun e => e.acquireHeld = false ∧
      requestGood (copying false) { src := e.g.shape 1, dst := e.g.shape 2, srcNo := 1, dstNo := 2 } e = true) ∧
    Meets (copying true) recordForm (.copy 4) [4] (fun e => e.acquireHeld = false ∧ (e.scalar 4).toNat % 64 = 0 ∧
      ((cachedOf e).any fun x => requestGood (copying true) (recordRequest x.record 1 none) e) = true) ∧
    Meets (copying false) recordForm (.copy 4) [4] (fun e => cachedOf e = none ∧
      ((fetchedOf (copying false) e).any fun b => requestGood ((copying false).touchRange e.who 0x12000 192 .read) (recordRequest b 1 none) e) = true) ∧
    Meets (copying true) gatherForm (.gather 2 4 0 1) [2, 4] (fun e => e.acquireHeld = false ∧
      ((cachedOf e).any fun x => requestGood (copying true) (recordRequest x.record 1 (some (e.gatherRows 2 0 1))) e) = true) ∧
    Meets (copying false) gatherForm (.gather 2 4 0 0) [2, 4] (fun e => cachedOf e = none ∧
      ((fetchedOf (copying false) e).any fun b => requestGood ((copying false).touchRange e.who 0x12000 192 .read)
        (recordRequest b 1 (some (e.gatherRows 2 0 0))) e) = true) ∧
    Meets (copying true) { runs := .program, accepts := { scope := true }, regs := [4] } (.recfence 4) [4] (fun e => (e.scalar 4).toNat % 64 = 0 ∧
      e.g.flight = [] ∧ e.slot.mask ≠ 0 ∧ (copying true).canDrain e.g.core = true) :=
  ⟨Meets.of (by decide +kernel), Meets.of (by decide +kernel), Meets.of (by decide +kernel), Meets.of (by decide +kernel), Meets.of (by decide +kernel),
    Meets.of (by decide +kernel)⟩

/-- Two elements, the first copied to two places and read already where `held` says, the second a constant. -/
def copyMoves (held : Option (List (Byte × Bool))) : List Move :=
  [{ src := some ⟨[(0x11000, 8)], false⟩, dsts := [⟨[(0x13000, 8)], false⟩, ⟨[(0x13100, 4), (0x13104, 4)], false⟩], bytes := 8, held := held },
   { src := none, const := 5, dsts := [⟨[(0x13200, 8)], false⟩], bytes := 8, did := [⟨[(0x13208, 8)], false⟩] }]

def copyWork (held : Option (List (Byte × Bool))) : Work := .copy 2 0 (copyMoves held) (some (0x14000, false)) []

/-- A copy in flight at the head of its engine, and perhaps its gang killed. -/
def copyState (held : Option (List (Byte × Bool))) (kill : Bool) (f : Group → Group := id) : State :=
  ((flying .cpy (copyWork held) [] f).onCore 0 fun c => { c with copies := [(1, 9)] }).onGang 3 fun g =>
    { g with kill := if kill then some { cause := 6, group := none } else none }

theorem hyps_CopyResults :
    (let s := copyState none false (behind (.store 8 none 0 [lane0]))
     (s.core 0).copies = [(1, 9)] ∧ (s.core 0).l1 = [] ∧ (s.core 0).signals = [] ∧
     ∃ g, s.flying 1 9 g (copyWork none) ∧ g.core = 0 ∧ ∃ o ∈ g.before 9, o.finished = false ∧ o.work.stores = true) ∧
    (∀ x ∈ [(none, false), (some (List.replicate 8 ((3 : Byte), false)), false), (none, true)],
     let s := copyState x.1 x.2
     (s.core 0).copies = [(1, 9)] ∧ (s.core 0).l1 = [] ∧ (s.core 0).signals = [] ∧ s.pins = [] ∧ s.versions = [] ∧
     (∀ e ∈ s.groups, e.2.versioned = false) ∧ (∃ g, s.flying 1 9 g (copyWork x.1) ∧ g.core = 0 ∧ g.before 9 = [] ∧ s.killed g = x.2 ∧ g.versioned = false ∧
       s.pinnedFrom g.team 0x14000 8 = false ∧ s.halfOn none (lineOf 0x14000) = false ∧ 0x14000 % 8 = 0 ∧
       ∀ m ∈ copyMoves x.1, (∀ y, m.src = some y → s.endPinned g y = false) ∧ ∀ d ∈ m.dsts, s.endPinned g d = false)) ∧
    (let places := ((copyMoves none).flatMap fun m => m.dsts).flatMap fun d => bytePlaces d.segs
     places.Nodup ∧ (∀ y ∈ places, ¬ (0x14000 ≤ y ∧ y < 0x14000 + 8)) ∧ lineOf 0x13208 = lineOf 0x13200) := by
  refine ⟨⟨by decide +kernel, by decide +kernel, by decide +kernel, flying_of (by decide +kernel)⟩, ?_, by decide +kernel⟩
  intro x hx
  simp only [List.mem_cons, List.not_mem_nil, or_false] at hx
  rcases hx with rfl | rfl | rfl <;> exact ⟨by decide +kernel, by decide +kernel, by decide +kernel, by decide +kernel, by decide +kernel,
    by decide +kernel, flying_of (by decide +kernel)⟩

/-- The placed gang with four barrier objects, and the number of one in v5. -/
def atBarriers (n : Nat) (x : Barrier) (f : Group → Group := id) : State :=
  (units 2 [] (BitVec.ofNat 64 n) f).onGang 3 fun g => { g with nb := 4, barriers := if x = {} then [] else [(n, x)] }

/-- Number of objects of the issuing group's gang, and the object that v5 names. -/
def objects (s : State) (e : Env) : Nat := (s.gang (s.gangOf e.g)).nb

def barForm (rs : List Nat) : Form := { closes := .own, runs := .program, accepts := barAccepts, regs := rs }

/-- Generations passed since a token. -/
def passed (s : State) (e : Env) (token : BitVec 32) : Nat := (((s.gang (s.gangOf e.g)).barrier (e.scalar 5).toNat).gen - token).toNat

/-- A slot whose arrival waits at object 3, whose member set and arrivals are given. -/
def arriving (sync : Bool) (mask arrived : BitVec 384) : State :=
  atBarriers 3 { mask := mask, arrived := arrived } fun g => { g with
    arrivals := [{ src := .slotA, object := 3, cells := [32, 33], sync := sync }], a := { g.a with life := .stalled } }

/-- What the arrival of that slot needs. -/
def arrivalGood (s : State) (g : Group) : Bool := decide (g.life = .live ∧ g.preempt = false ∧ g.frameReq = none ∧ g.defers = [] ∧ g.div = [] ∧ g.joins = [] ∧
  (g.slot .slotA).life = .stalled ∧ (g.slot .slotB).life = .empty ∧ g.arrivals.length = 1 ∧ (∀ a ∈ g.arrivals, ∀ c ∈ a.cells, c < 65536) ∧ 3 < (s.gang (s.gangOf g)).nb)

theorem hyps_BarrierResults :
    Meets (atBarriers 3 {}) { runs := .program, regs := [2, 5] } (.barinit 2 5 0) [2, 5] (fun e => e.slot.mask ≠ 0 ∧ (e.scalar 5).toNat < objects (atBarriers 3 {}) e ∧
      ∀ c ∈ e.copies, ∀ l < 6, e.core.cellPoison (e.cellOf c 2 l) = 0) ∧
    Meets (atBarriers 4 {}) { runs := .program, regs := [5] } (.barinit 2 5 1) [5] (fun e => objects (atBarriers 4 {}) e ≤ (e.scalar 5).toNat ∧ stoppableTest e = true) ∧
    (∀ x ∈ [(({ runs := .program, regs := [2, 5] } : Form), Instr.barmask 2 5 0), ({ runs := .program, regs := [2, 5] }, .barmask 2 5 1),
      ({ runs := .program, regs := [2, 5] }, .barmask 2 5 2), ({ runs := .program, regs := [5] }, .barmask 2 5 3),
      ({ runs := .program, regs := [5] }, .barinit 2 5 1), ({ runs := .program, regs := [5] }, .barinit 2 5 2)],
      Meets (atBarriers 3 {}) x.1 x.2 [2, 5] fun e => e.slot.mask ≠ 0 ∧ (e.scalar 5).toNat < objects (atBarriers 3 {}) e ∧
        ∀ c ∈ e.copies, ∀ l < 6, e.core.cellPoison (e.cellOf c 2 l) = 0) ∧
    (∀ x ∈ [(barForm [2, 5], Instr.arrive 2 5), (barForm [5], .barsync 5)], Meets (atBarriers 3 {}) x.1 x.2 [5] fun e =>
      (e.scalar 5).toNat < objects (atBarriers 3 {}) e ∧ e.g.arrivals = [] ∧ (atBarriers 3 {}).mayArrive e.g 2 = true ∧
        NMap.find e.g.token (srcCode (some e.src)) = none) ∧
    (∀ x ∈ [(barForm [2, 5], Instr.waitb 2 5), (barForm [5], .barsync 5)], Meets (atBarriers 3 { gen := 0x7FFFFFFF } fun g => { g with token := [(0, 0)] }) x.1 x.2 [2, 5]
      fun e => (e.scalar 5).toNat < 4 ∧ passed (atBarriers 3 { gen := 0x7FFFFFFF }) e ((e.scalar 2).setWidth 32) = 2 ^ 31 - 1 ∧
        NMap.find e.g.token (srcCode (some e.src)) = some 0) ∧
    (∀ x ∈ [(barForm [2, 5], Instr.waitb 2 5), (barForm [5], .barsync 5)], Meets (atBarriers 3 { gen := 0x80000000 } fun g => { g with token := [(0, 0)] }) x.1 x.2 [2, 5]
      fun e => (e.scalar 5).toNat < 4 ∧ passed (atBarriers 3 { gen := 0x80000000 }) e ((e.scalar 2).setWidth 32) = 2 ^ 31 ∧
        NMap.find e.g.token (srcCode (some e.src)) = some 0) ∧
    (∃ g, (arriving false 1 1).group? 1 = some g ∧ arrivalGood (arriving false 1 1) g = true ∧ (1 : BitVec 384) &&& (arriving false 1 1).memberBit g ≠ 0) ∧
    (∃ g, (arriving false 1 0).group? 1 = some g ∧ arrivalGood (arriving false 1 0) g = true ∧ (0 : BitVec 384) &&& (arriving false 1 0).memberBit g = 0) ∧
    (∃ g, (arriving true 3 2).group? 1 = some g ∧ arrivalGood (arriving true 3 2) g = true ∧ (2 : BitVec 384) &&& (arriving true 3 2).memberBit g = 0) ∧
    (∃ g, (arriving true 2 2).group? 1 = some g ∧ arrivalGood (arriving true 2 2) g = true ∧ (2 : BitVec 384) &&& (arriving true 2 2).memberBit g = 0) :=
  ⟨Meets.of (by decide +kernel), Meets.of (by decide +kernel), Meets.all (by decide +kernel), Meets.all (by decide +kernel), Meets.all (by decide +kernel),
    Meets.all (by decide +kernel), group_of (by decide +kernel), group_of (by decide +kernel), group_of (by decide +kernel), group_of (by decide +kernel)⟩

/-! ### Pages and balance -/

/-- The handler of the placed group, with a number in every lane of v4 and its context's tables. -/
def handling (v : Lane) : State :=
  ((withTables (loaded .handler id)).onCore 0 fun c => { c with rf := (List.range 32).map fun l => (256 * 248 + 128 + l, v) }).onTeam 2 fun t =>
    { t with ptroot := 0x100000 }

/-- What TLBINV of kind k covers for the handler of a context, of a range. -/
def coversOf (e : Env) (k a n : Nat) : Covers := { ctx := if k = 2 then none else some e.who.ctx, range := if k = 0 then some (a, n) else none }

/-- Nothing holds a TLBINV or a MAPPG of the handler back. -/
def nothingHeld (s : State) (e : Env) : Bool := s.handlerDone e && ([0, 1, 2] : List Nat).all fun k =>
  let c := coversOf e k (e.scalar 2).toNat (e.scalar 3).toNat
  !((s.drainHandler e.g.core e.gid).drainFrees).writesHeld c && !s.copiesWithin c

theorem hyps_PageInstructions :
    (let s := flying .st (.discard [0x11000 / 128])
     ∃ g, s.flying 1 9 g (.discard [0x11000 / 128]) ∧ s.pinnedFrom g.team (128 * (0x11000 / 128)) 128 = false ∧
       g.held 9 [(128 * (0x11000 / 128), 128)] = false) ∧
    Meets (units 2 [] 128) { closes := .own, accepts := { offset := true }, regs := [4, 5] } (.discard 5 4) [4, 5] (fun e => e.slot.mask ≠ 0 ∧ e.g.prot = false ∧
      (e.scalar 4).toNat % 128 = 0 ∧ (e.scalar 5).toNat = 128 ∧ (e.scalar 4).toNat + 128 ≤ onChip ∧ e.g.versioned = false ∧ e.g.counter .st < 63 ∧ e.acquireHeld = false ∧
      ((units 2 [] 128).checkRange { e.who with unlisted := true } (e.scalar 4).toNat 128 1 .write).toOption.isSome = true) ∧
    (∀ x ∈ [(({ accepts := { neg := true }, guard := some 0, regs := [1, 3] } : Form), Instr.adobeq 1 3 0 0),
      ({ accepts := { neg := true }, guard := some 0, regs := [1, 3] }, .adobeq 1 3 0 1), ({ accepts := { neg := true }, guard := some 0, regs := [1] }, .adobeq 1 3 0 2)],
      Meets (based .slotA id) x.1 x.2 [3] fun e => e.g.counter .ld < 63 ∧ e.slot.mask ≠ 0 ∧
        ∀ l ∈ e.active 0, (based .slotA id).walkHeld e.who.root (e.val 0 3 l).toNat = false) ∧
    (∀ x ∈ [(({ runs := .supervisor, regs := [3, 2] } : Form), Instr.tlbinv 2 3 0), ({ runs := .supervisor, regs := [] }, .tlbinv 2 3 1),
      ({ runs := .supervisor, regs := [] }, .tlbinv 2 3 2)], Meets (handling 0) x.1 x.2 [2, 3] fun e => (e.scalar 3).toNat % 4096 = 0 ∧ (e.scalar 2).toNat % 4096 = 0 ∧
        nothingHeld (handling 0) e = true) ∧
    (∀ x ∈ [(({ runs := .supervisor, regs := [2, 4] } : Form), Instr.mappg 2 4 1), ({ runs := .supervisor, regs := [2, 4] }, .mappg 2 4 4)],
      Meets (handling 0x11000) x.1 x.2 [2, 4] fun e => canonical (e.scalar 4).toNat = true ∧ nothingHeld (handling 0x11000) e = true ∧
        (∀ k ∈ ([1, 4] : List Nat), (handling 0x11000).mapHeld (some e.g.team) e.who.ctx e.who.root e.who.pool (e.scalar 4).toNat k = false) ∧
        (match (handling 0x11000).walk e.who.root (e.scalar 4).toNat with
          | .leaf _ _ _ => true
          | _ => false) = true) ∧
    Meets (handling 0x0200000000000000) { runs := .supervisor, regs := [2, 4] } (.mappg 2 4 1) [2, 4] (fun e => canonical (e.scalar 4).toNat = false ∧
      nothingHeld (handling 0x0200000000000000) e = true ∧ (handling 0x0200000000000000).mapHeld (some e.g.team) e.who.ctx e.who.root e.who.pool (e.scalar 4).toNat 1 = false) :=
  ⟨flying_of (by decide +kernel), Meets.of (by decide +kernel), Meets.all (by decide +kernel), Meets.all (by decide +kernel), Meets.all (by decide +kernel),
    Meets.of (by decide +kernel)⟩

theorem hyps_BalanceResults :
    ∀ x ∈ [(balForm 0 [5], Instr.burn 5 0), (balForm 0 [5], .shunt 5 0), (balForm 0 [5], .balclass 5 0), (balForm 0 [5], .balrd 5 0)],
      Meets (units 2 [] 3) x.1 x.2 [5] fun e => (NMap.find (units 2 [] 3).teams e.g.team).isSome = true ∧
        ((e.active 0).head?.map fun l => (e.val 0 5 l).toNat) = some 3 :=
  Meets.all (by decide +kernel)

/-! ### Groups, teams and launches -/

theorem find_of {α : Type} {m : NMap α} {k : Nat} {P : α → Prop} [∀ x, Decidable (P x)]
    (h : ((NMap.find m k).any fun x => decide (P x)) = true) : ∃ x, NMap.find m k = some x ∧ P x := by
  cases hx : NMap.find m k with
  | none => simp [hx] at h
  | some x => exact ⟨x, rfl, by simpa [hx] using h⟩

/-- A launch of one cluster of one team of one group, two barrier objects, with its bitmap at 0x14000. -/
def launchOf (prio released : Nat) (w h : Nat := 1) : Launch :=
  { record := BitVec.ofNat 1024 (2 ^ 513 + 2 ^ 500 + 2 ^ 488 + w * 2 ^ 484 + h * 2 ^ 480 + 2 * 2 ^ 465 + 0x14000 / 64 * 2 ^ 256), prio := prio, released := released }

/-- A second group of the placed team. -/
def withMate (life : Life) (s : State) : State :=
  (s.setGroup 50 { (({} : Group)) with team := 2, life := life, number := 1 }).onTeam 2 fun t => { t with groups := [1, 50] }

/-- A second team of the placed gang, not completed. -/
def withTeam (s : State) : State := { (s.onGang 3 fun g => { g with teams := [2, 60] }) with teams := s.teams ++ [(60, { gang := 3, launch := 4, rank := 1, core := 1 })] }

def drainingGroup (g : Group) : Group := { g with life := .draining }

/-- A group whose team is saving, with its private memory mapped or not. -/
def savingGroup (mapped : Bool) (frames : Bool) : State :=
  (((withMate .live (based .slotA fun g => { g with preempt := true, frames := if frames then [{ own := 1, size := 8, grans := [0] }] else [] })).onTeam 2 fun t =>
    { t with life := .saving }).onCore 0 fun c => { c with tlb := if mapped then privPage :: c.tlb else c.tlb })

/-- The placed gang under a kill, and its group changed. -/
def killing (f : Group → Group) : State := (loaded .slotA f).onGang 3 fun g => { g with kill := some { cause := 0x33, group := none } }

/-- Nothing of the placed team must be completed before the kill takes effect. -/
def quietTest (s : State) : Bool := (!(s.team 2).committing || s.versions.all fun v => v.team != 2) && !s.teamWritesHeld (s.team 2).core 2 && (s.team 2).groups.all fun gid => s.groups.all fun e =>
  e.1 != gid || (!s.arrivalDue e.2 && e.2.flight.all fun o => !o.completes)

theorem hyps_GroupAndTeamEnds :
    (let s := killing drainingGroup
     ∃ g, s.group? 1 = some g ∧ g.life = .draining ∧ g.emptied = true ∧ (s.gang (s.team g.team).gang).kill ≠ none) ∧
    (let s := loaded .slotA drainingGroup
     ∃ g, s.group? 1 = some g ∧ g.life = .draining ∧ g.emptied = true ∧ s.lastToEnd g.team 1 = true ∧ s.teamWritesHeld (s.team g.team).core g.team = false ∧
       (s.team g.team).life ≠ .ended ∧ (s.gang (s.team g.team).gang).kill = none) ∧
    (let s := withMate .live (loaded .slotA drainingGroup)
     ∃ g, s.group? 1 = some g ∧ g.life = .draining ∧ g.emptied = true ∧ s.lastToEnd g.team 1 = false ∧ (s.team g.team).life = .live ∧
       (s.gang (s.team g.team).gang).kill = none) ∧
    (∀ x ∈ [(true, false), (false, true), (false, false)], let s := savingGroup x.1 x.2
     ∃ g, s.group? 1 = some g ∧ g.preempt = true ∧ (s.team g.team).life = .saving ∧ g.drained = true ∧ (s.gang (s.team g.team).gang).kill = none ∧
       s.lastToSave g.team 1 = false ∧ s.groupHeld g = false ∧ (s.saveGroup 1).isSome = x.1 ∧ (g.frames = [] ↔ x.2 = false) ∧ g.team ∈ (s.gang (s.team g.team).gang).teams) ∧
    (let s : State := { (plain.onTeam 2 fun t => { t with life := .ended }) with versions := [{ team := 2, line := 0x11000 / 128, bytes := [(0, 5), (127, 6)] }] }
     (NMap.find s.teams 2).map (·.life) = some .ended ∧ (s.gang (s.team 2).gang).kill = none ∧ (∀ v ∈ s.versions, (∀ p ∈ s.pins, p.line ≠ v.line) ∧ (NMap.keys v.bytes).Nodup ∧
       (∀ k ∈ NMap.keys v.bytes, k < 128) ∧ isAdobe (128 * v.line) = false ∧ 128 * v.line + 128 ≤ chipBase) ∧
       (s.versions.map fun (v : VersionLine) => v.line).Nodup) ∧
    (let s : State := { withTables (withTeam (plain.onTeam 2 fun t => { t with life := .ended })) with launches := [(4, launchOf 0 0)] }
     let l := launchOf 0 0
     (NMap.find s.teams 2).map (fun x => (x.life, x.launch, x.completed, x.number)) = some (.ended, 4, false, 0) ∧ s.versions = [] ∧ s.signalsOf 2 = false ∧ s.bitmapPinned l 0 = false ∧
       l.status ≠ 7 ∧ l.finished = false ∧ l.depMode = 0 ∧ l.allOver = false ∧ (∃ y ∈ (s.gang 3).teams, y ≠ 2 ∧ (s.team y).completed = false) ∧
       (s.gang 3).kill = none ∧ (s.releasePins 0 2).ctxPlace 0 (l.cbAddr + 64) .rmw = some 0x14040 ∧ (s.releasePins 0 2).ctxPlace 0 (l.cbAddr + 8) .rmw = some 0x14008) ∧
    (let s := killing id
     (NMap.find s.gangs 3).map (fun g => (g.kill.isSome, g.killed, g.teams)) = some (true, false, [2]) ∧ s.keepsTeam 2 = false ∧ quietTest s = true) ∧
    (let s := killing fun g => { g with flight := [⟨8, .st, .slotA, false, .store 8 none 0 [lane0]⟩] }
     (NMap.find s.gangs 3).map (fun g => (g.kill.isSome, g.killed, g.teams)) = some (true, false, [2]) ∧ s.keepsTeam 2 = false ∧ quietTest s = false) := by
  refine ⟨group_of (by decide +kernel), group_of (by decide +kernel), group_of (by decide +kernel), ?_, by decide +kernel,
    by decide +kernel, by decide +kernel, by decide +kernel⟩
  intro x hx
  simp only [List.mem_cons, List.not_mem_nil, or_false] at hx
  rcases hx with rfl | rfl | rfl <;> exact group_of (by decide +kernel)

/-- The placed team alone can hold its core and the others are fenced or on dies out of service. -/
def crowded (now : BitVec 64) (prio : Nat) : State :=
  let s := plain.onTeam 2 fun t => { t with ssize := 0x1C0000 }
  { s with
    time := now
    clock := now.toNat
    launches := [(7, { launchOf 0 1 with record := (launchOf 0 1).record ||| BitVec.ofNat 1024 (2 ^ 471), prio := prio, clusters := [(0, .waiting (some 0))] }),
      (20, { launchOf 0 5 15 10 with finished := true }), (21, { launchOf 0 5 1 9 with finished := true })]
    dies := [(0, { fences := [{ launch := 20, cluster := 0, origin := 1 }, { launch := 21, cluster := 0, origin := 16 }] }), (1, { offline := true }),
      (2, { offline := true }), (3, { offline := true })] }

theorem hyps_RestoresAndRelaunches :
    (let s := ((loaded .slotA fun g => { g with life := .saved }).onTeam 2 fun t => { t with life := .saved }).onDie 0 fun d => { d with restore := [2] }
     (List.range 4).find? (fun d => (s.die d).restore.contains 2) = some 0 ∧ (NMap.find s.teams 2).isSome = true ∧
       ((s.restores 0).find? fun t => (s.restoreCore 0 t fun _ => true).isSome) = some 2 ∧ s.imageReached 2 = false ∧
       s.restoreHeld 2 = false ∧ (s.restoreCore 0 2 fun _ => true).any (fun c =>
         (s.areaReady 2 (s.readContext { s.team 2 with core := c } (s.team 2).ctx)).isSome) = true) ∧
    (let s : State := { (plain.onGang 3 fun g => { g with killed := true, again := some [0] }) with
       launches := [(4, { launchOf 0 0 with clusters := [(0, .relaunch 3 none)] })] }
     (NMap.find s.gangs 3).map (fun g => (g.launch, g.cluster)) = some (4, 0) ∧ (3 : Nat) ≠ s.nextId ∧
       (s.offerFits (4, 0)).map (fun o => s.nextOffer (dieOf o)) = some (some (4, 0)) ∧ s.contextHeld (launchOf 0 0).ctx = false) ∧
    (∀ now ∈ ([0, 99999, 100000] : List Nat), let s := crowded (BitVec.ofNat 64 now) 5
     ∃ l, NMap.find s.launches 7 = some l ∧ l.die < 4 ∧ l.finished = false ∧ s.mayPlace l 0 = true ∧ s.recordHeld l = false ∧
       (origins l.die l.w l.h).contains 0 = true ∧ s.offerFits (7, 0) = none ∧ s.preempts = [] ∧ s.vacates 7 l 0 0 = some [2] ∧ (s.team 2).life = .live ∧
       (∀ x ∈ (rectangle 0 l.w l.h).flatMap s.teamsOn, x.2.prio < l.prio) ∧ (l.cluster 0).since = some 0 ∧ s.fenceChoice 7 l 0 = some 0 ∧
       (0 + 100000 ≤ s.clock ↔ now = 100000)) ∧
    (let s := crowded 100000 0
     ∃ l, NMap.find s.launches 7 = some l ∧ (l.cluster 0).since = some 0 ∧ 0 + 100000 ≤ s.clock ∧ s.mayPlace l 0 = true ∧ s.offerFits (7, 0) = none ∧
       s.fenceChoice 7 l 0 = some 0 ∧ (∃ x ∈ (rectangle 0 l.w l.h).flatMap s.teamsOn, l.prio ≤ x.2.prio) ∧
       (∀ f ∈ (s.die l.die).fences, f.launch ≠ 7 ∨ f.cluster ≠ 0) ∧ (s.die l.die).fences.length < 4) ∧
    (let s := plain.onPlot 0 fun p => { p with temp := 95 }
     s.now % 10000 = 0 ∧ (s.die 0).migrated ≠ some s.now ∧ (s.plot (40 * 0 + s.hottest 0)).temp = 95 ∧
       ((plotCores (40 * 0 + s.hottest 0)).flatMap s.teamsOn).filter (fun e => e.2.life == .live && !s.skipped e.2) = [(2, s.team 2)] ∧
       (s.restoreCore 0 2 fun c => decide (s.coreTemp c + 10 ≤ 95)).isSome = true) := by
  refine ⟨by decide +kernel, by decide +kernel, ?_, find_of (by decide +kernel), by decide +kernel⟩
  intro x hx
  simp only [List.mem_cons, List.not_mem_nil, or_false] at hx
  rcases hx with rfl | rfl | rfl <;> exact find_of (by decide +kernel)

/-- The tables, with one queue slot on die 0. -/
def scanned : State :=
  (withBytes (withTables State.reset) 0x9008 8 (2 ^ 32)).onDie 0 fun d => { d with slots := [{ queue := 0, read := 0, seen := some 0 }] }

theorem hyps_QueueAndPlacementEvents :
    (let s := withTables State.reset
     s.host.posted = [] ∧ (∀ j < 64, isAdobe (s.queueAt 0 + j) = false) ∧ s.pinnedAgainst none (lineOf (s.queueAt 0)) = false) ∧
    (let s := withBytes (withTables State.reset) 0x9010 8 (2 ^ 29 + 1)
     s.queuePending 0 = true ∧ s.queueLog 0 ≠ 0 ∧ s.servingDie (s.queueDie 0) = 0 ∧ (s.die 0).offline = false ∧ (s.die 0).boot = false ∧
       (s.die 0).slots.length < 64 ∧ s.queueHeld none 0 = false ∧ ∀ x ∈ (s.die 0).slots, x.queue ≠ 0) ∧
    (let s := scanned
     (s.die 0).slots[0]? = some { queue := 0, read := 0, seen := some 0 } ∧ s.launches = [] ∧ s.queueLog 0 ≠ 0 ∧ (s.queueTail 0 + 2 ^ 32 - 0) % 2 ^ 32 = 1 ∧
       (∀ j < 64, isAdobe (s.queueAt 0 + j) = false) ∧ max 1 (bitsOf (s.queueBits 0) 175 168) ≤ 1 ∧ s.queueHeld none 0 = false ∧
       (s.clearPending 0).ctxHeld (s.queueCtx 0) (s.recordVa 0 0) 128 = false) ∧
    (let s : State := { withTables State.reset with launches := [(7, launchOf 0 0)] }
     let s0 := s.noteEligible
     ∃ l, NMap.find s0.launches 7 = some l ∧ l.closed = false ∧ l.finished = false ∧ (l.cluster 0).isWaiting = true ∧ s0.recordHeld l = false ∧ s0.bitmapMapped l = true ∧
       l.depMode = 0 ∧ (s0.offerFits (7, 0)).map (fun o => s0.nextOffer (dieOf o)) = some (some (7, 0)) ∧ l.w * l.h ≤ 12 ∧ l.gt ≤ 32 ∧ l.nb = 2 ∧
       s.groups = [] ∧ s.teams = []) ∧
    (∀ s : State, s.groups = [] → s.teams = [] → s.Fresh) ∧ freeRun [(0, 3), (4, 2)] 2 1 32 = some 6 ∧
    (let s : State := { State.reset with launches := [(7, launchOf 0 0)] }
     s.launches = [(7, launchOf 0 0)] ∧ (∀ x, s.neverMet (launchOf 0 0) x = false) ∧
       (launchOf 0 0).start ≤ s.now ∧ (launchOf 0 0).closed = false ∧ (launchOf 0 0).finished = false ∧ 0 < (launchOf 0 0).count ∧
       (launchOf 0 0).cluster 0 = .waiting none ∧ s.eligible (launchOf 0 0) 0 = true) := by
  have dep : (launchOf 0 0).depMode = 0 := by decide +kernel
  refine ⟨by decide +kernel, by decide +kernel, by decide +kernel, find_of (by decide +kernel), ?_, by decide +kernel, rfl,
    fun x => by simp [State.neverMet, dep], by decide +kernel⟩
  intro s hg ht
  exact ⟨fun e he => by simp [hg] at he, fun e he => by simp [ht] at he⟩

/-! ### Power, faults, registers, host, network -/

/-- The reset state with plot 0 changed. -/
def plotted (p : Plot) (now : BitVec 64 := 0) : State := { State.reset.onPlot 0 fun _ => p with time := now, clock := now.toNat }

/-- The placed gang at a sample, its core's stalls of 256 cycles and what else of plot 0 is changed. -/
def sampling (stalls : Nat) (p : Plot) : State :=
  { (plain.onCore 0 fun c => { c with cyc := 256, mstall := stalls }).onPlot 0 fun _ => p with time := 10000, clock := 10000 }

/-- Plot 0 hot for the second time, on the dies that are in service. -/
def heated (gone : List Nat) : State :=
  gone.foldl (fun s d => s.onDie d fun d => { d with offline := true }) (plotted { temp := 111, hot := 1 } 10000)

def hotSample (mw : Nat) : Sample := { temps := [(0, 110), (1, 109)], energy := [(0, 7)], powerMw := mw }

theorem hyps_PowerEvents :
    ((plotted { request := some 3 }).plot (40 * 0 + 0)).request = some (3#4).toNat ∧ (State.reset.plot (40 * 0 + 0)).request ≠ some (3#4).toNat ∧
    (let s := plotted { dvfs := .rail, since := 5 } 25
     (s.plot 0).dvfs = .rail ∧ (s.plot 0).since + 20 ≤ s.clock) ∧
    (let s := plotted { dvfs := .rail, since := 5 } 24
     (s.plot 0).dvfs ≠ .rail ∨ s.clock < (s.plot 0).since + 20) ∧
    (let s := plotted { dvfs := .step, since := 5, ftgt := 8 } 45
     (s.plot 0).dvfs = .step ∧ (s.plot 0).since + 40 ≤ s.clock) ∧
    (let s := plotted { dvfs := .step, since := 5 } 44
     (s.plot 0).dvfs ≠ .step ∨ s.clock < (s.plot 0).since + 40) ∧
    (let p := (plotted { injections := [(0, 120)], cycle := 130, heavy := 1 }).plot 0
     p.highRail = false ∧ p.dvfs ≠ .rail ∧ p.injEn = true ∧ p.injecting = false ∧ p.heavy ≠ 0 ∧ p.droopCount = 120) ∧
    (let p := (plotted { injections := [(0, 121)], cycle := 130, drooping := true }).plot 0
     p.highRail = false ∧ p.dvfs ≠ .rail ∧ p.injEn = true ∧ p.injecting = false ∧ p.drooping = true ∧ 120 < p.droopCount) ∧
    (let p := (plotted {}).plot 0
     p.highRail = false ∧ p.dvfs ≠ .rail ∧ p.injEn = true ∧ p.drooping = false ∧ p.heavy = 0) ∧
    ((plotted { highRail := true }).plot 0).highRail = true ∧
    (let p := (plotted { injecting := true, injections := [(1, 9)], cycle := 9 }).plot 0
     p.injecting = true ∧ ∀ x ∈ p.injections, x.2 ≤ p.cycle) ∧
    (let p := (plotted { injecting := true, injections := [(1, 9)], cycle := 8 }).plot 0
     p.injecting = true ∧ ∃ x ∈ p.injections, p.cycle < x.2) ∧
    ((plotted {}).plot 0).injecting = false ∧ ((plotted {}).die 0).offline = false ∧ ((plotted {}).onDie 0 fun d => { d with offline := true }).die 0 = { offline := true } ∧
    ¬ ((3 : Nat) < 4 ∧ 40 < 40) := by
  decide +kernel

theorem hyps_PowerEvents_samples :
    (plotted {} 1).now % 10000 ≠ 0 ∧ ({ plotted {} 10000 with sampledAt := 10000 } : State).sampledAt = (plotted {} 10000).now ∧
    (plotted {} 10000).now % 10000 = 0 ∧ (plotted {} 10000).sampledAt ≠ (plotted {} 10000).now ∧
    (∀ k < 160, ((plotted {} 10000).die (k / 40)).offline = false) ∧
    (let p := (plotted { highRail := true, fcur := 7, cool := 1 } 10000).plot 0
     p.dvfs = .steady ∧ p.highRail = true ∧ p.fcur ≤ 7 ∧ 1 ≤ p.cool) ∧
    ((plotted { ovr := true } 10000).plot 0).ovr = true ∧ (∀ c ∈ plotCores 0, (plotted {} 10000).liveGroups c = []) ∧
    (∀ x ∈ ([(154, true), (154, false), (153, false), (52, false), (51, false)] : List (Nat × Bool)), let s := sampling x.1 { highRail := x.2 }
     ∃ g, s.gangs = [(3, g)] ∧ s.gangLive g = true ∧ (∃ c ∈ s.gangCores g, c ∈ plotCores 0) ∧ (s.plot 0).ovr = false ∧ (∃ c ∈ plotCores 0, s.liveGroups c ≠ []) ∧
       ((s.gangCores g).map fun c => (s.core c).ratio).sum / (s.gangCores g).length = x.1) ∧
    (let s := heated []
     (s.die 0).offline = false ∧ 110 ≤ NMap.get (hotSample 0).temps 0 0 ∧ 1 ≤ (s.plot 0).hot ∧ 2 ≤ s.online.length ∧ s.thermalDue = none ∧ s.thermalAt = none) ∧
    (let s := heated [1, 2, 3]
     (s.die 0).offline = false ∧ 1 ≤ (s.plot 0).hot ∧ s.online.length = 1) ∧ (hotSample 1400000).powerMw ≤ 1400000 ∧ ¬ (hotSample 1400001).powerMw ≤ 1400000 := by
  and_intros
  any_goals decide +kernel
  intro x hx
  simp only [List.mem_cons, List.not_mem_nil, or_false] at hx
  rcases hx with rfl | rfl | rfl | rfl | rfl <;> exact ⟨_, rfl, by decide +kernel⟩

theorem stalled_share_reset : ∀ c, ((plotted {} 10000).core c).share = [] := by
  intro c
  simp [plotted, State.reset, State.onPlot, State.core, NMap.get, NMap.find]

/-- A unit with its times of errors, its test and what has been found. -/
def testing (u : TestUnit) : State := { State.reset with tests := [u], time := 2000000000, clock := 2000000000 }

theorem hyps_PairAndFaultEvents :
    ((State.reset.onCore 0 fun c => { c with window := 63 }).core 0).window < 64 ∧
    (let s := plain.onCore 0 fun c => { c with window := 64 }
     64 ≤ (s.core 0).window ∧ s.liveGroups 0 ≠ []) ∧
    ((State.reset.onCore 0 fun c => { c with overs := 199 }).core 0).overs < 200 ∧
    (let s := plain.onCore 0 fun c => { c with overs := 200 }
     200 ≤ (s.core 0).overs ∧ (∀ e ∈ s.groups, e.2.versioned = false) ∧
     ∃ g, s.group? 1 = some g ∧ g.core = 0 ∧ g.life = .live ∧ g.preempt = false ∧ g.arrivals = []) ∧
    (State.reset.testOf (.hbmRow 0 1)).testing = false ∧
    (∀ x ∈ ([(1000000000, 1), (1000000001, 3)] : List (Nat × Nat)),
     let s := testing { unit := .hbmRow 0 1, occurrences := [x.1, x.1], testing := true, passes := 1 }
     (s.testOf (.hbmRow 0 1)).testing = true ∧
       (((s.testOf (.hbmRow 0 1)).occurrences ++ [s.clock]).filter fun n => decide (s.clock < n + 1000000000)).length = x.2) ∧
    (let s := (loaded .slotA fun g => { g with defers := [⟨9, .slotA, 1, [1], none, []⟩] }).onCore 0 fun c => { c with
       wrote := [(0, { writes := [⟨33, BitVec.allOnes 64, 5, 0⟩] }), (1, { writes := [], op := some 9 })] }
     (∃ e ∈ (s.core 0).wrote, e.1 = 1 ∧ e.2.op = some 9) ∧ (∃ g, s.group? 1 = some g ∧ g.core = 0 ∧ ∃ d ∈ g.defers, d.op = 9 ∧ d.writes = none) ∧
     ∃ e ∈ (s.core 0).wrote, (∀ x ∈ s.groups, ∀ d ∈ x.2.defers, e.2.op ≠ some d.op) ∧ ∃ w ∈ e.2.writes, physOf (s.core 0).laneremap (32 * e.1 + w.cell % 32) = 1) ∧
    isChip 0x11000 = false ∧
    (plain.die 0).offline = false ∧ (∃ g ∈ plain.gangsOn 0, plain.gangTeams g ≠ []) ∧ plain.thermalDue ≠ some 0 ∧
    (let s : State := { plain with thermalDue := some 0 }
     s.thermalDue = some 0 ∧ (∀ p < 40, (s.plot (40 * 0 + p)).dvfs ≠ .rail) ∧ s.thermalAt = none ∧ s.online.length ≠ 1 ∧ (s.team 2).life = .live ∧ dieOf (s.team 2).core = 0) ∧
    (let s : State := { plain.onPlot 0 (fun p => { p with dvfs := .rail }) with thermalDue := some 0 }
     ∃ p < 40, (s.plot (40 * 0 + p)).dvfs = .rail) ∧
    (let s : State := { heated [1, 2, 3] with thermalDue := some 0 }
     (s.die 0).offline = false ∧ s.thermalDue = some 0 ∧ (∀ p < 40, (s.plot (40 * 0 + p)).dvfs ≠ .rail) ∧ s.online.length = 1) := by
  and_intros <;> decide +kernel

/-- Requests that wait for stack 0, and the transfers that its classes have had. -/
def requesting0 (xs : List Traffic) (counts : NMap Nat) (last : NMap Nat) : State :=
  { State.reset with
    hbmQueue := xs.map fun x => { line := 0x11000 / 128, traffic := x, fill := true }
    hbmCount := counts, hbmLast := last, bwclass := [(3, 0x1002), (5, 0x0001)] }

theorem hyps_RegisterEvents :
    (State.reset.onDie 0 fun d => { d with offline := true }).die (3 / 80) = { offline := true } ∧ (State.reset.die (3 / 80)).offline = false ∧
    (let v : BitVec 64 := 0x804
     (v.extractLsb' 8 4).toNat ≤ 8 ∧ (v.extractLsb' 0 3).toNat ≤ 4 ∧ State.reset.adobes = [] ∧ State.reset.versions = []) ∧
    ¬ ((0x900 : BitVec 64).extractLsb' 8 4).toNat ≤ 8 ∧
    (let s := requesting0 [.launch 3, .launch 5, .management] [] []
     (∀ r ∈ s.hbmQueue, s.stackOf r.line = some 0) ∧ (∃ r ∈ s.hbmQueue, r.traffic = .management) ∧ NMap.get s.hbmLast 0 3 = s.clock / 1000) ∧
    (let s := requesting0 [.launch 3, .launch 5] [] []
     (∃ r ∈ s.hbmQueue, r.traffic = .launch 3) ∧ (∃ r ∈ s.hbmQueue, r.traffic = .launch 5) ∧ (∀ r ∈ s.hbmQueue, r.traffic ≠ .management) ∧
       s.bwClass 0 3 / 256 % 256 = 16 ∧ s.bwClass 0 3 % 256 = 2 ∧ s.bwClass 0 5 / 256 % 256 = 0 ∧ s.served 0 5 = 0) ∧
    (State.reset.hbmQueue = [] ∧ (8 : Nat) ≤ 8) ∧
    (let s := withTables State.reset
     canonical (0x11000 : BitVec 64).toNat = true ∧ s.tlbHit 0 0 0x11000 = none ∧ s.walkHeld (s.walkRoot 0 0) 0x11000 = false ∧
       s.walk (s.walkRoot 0 0) 0x11000 = .leaf 0x102000 2 ⟨0x1F⟩ ∧ ∀ c ∈ plotCores (plotOf 0), (s.core c).l1 = []) ∧
    (let s : State := { withTables State.reset with pins := [{ core := 5, team := 77, line := 0x102000 / 128 }] }
     s.walkHeld (s.walkRoot 0 0) 0x11000 = true) ∧
    State.reset.walk (State.reset.walkRoot 0 0) 0x11000 = .missing 4 ∧
    (∀ n ∈ ([0, 1] : List Nat), let s : State := { withTables State.reset with
       adobes := [{ ctx := 0, base := adobeBase, bytes := 0x10000, va := 0x11000 }]
       pins := List.replicate n { core := 5, team := 77, line := 0x102000 / 128 } }
     ∃ a ∈ s.adobes, a.ctx = 0 ∧ s.walkHeld (s.contextRoot 0) a.va = decide (n = 1) ∧ s.unmapHeld 0 (s.contextRoot 0) a.va = false ∧
       s.adobeHeld none (s.contextPool 0) a.base a.bytes = false) := by
  and_intros <;> decide +kernel

/-- The reset state with BAR4 served, pins, and what else of the host port is changed. -/
def served (pins : List Pin) (h : HostPort → HostPort := id) : State :=
  { State.reset with host := h { State.reset.host with cfg := 1 }, pins := pins }

def pin1 : List Pin := [{ core := 0, team := 9, line := 1 }]
def held1 : HeldRead := { id := 4, addr := 128, len := 8, arrived := 0 }
def record1 : HostRec := { tagged := false, bytes := List.replicate 128 0 }

theorem hyps_HostPortEvents :
    (let s := served []
     0 + 8 ≤ 2 ^ 39 ∧ s.host.bar4 = true ∧ s.anyPinned 0 8 = false ∧ s.host.posted = []) ∧
    (let s := served pin1
     128 + 8 ≤ 2 ^ 39 ∧ s.host.bar4 = true ∧ s.anyPinned 128 8 = true ∧ s.host.posted = [] ∧ ∀ r ∈ s.host.reads, r.id ≠ 4) ∧
    State.reset.host.bar4 = false ∧ (BitVec.ofNat 64 (bar0At + 8 * (2 ^ 24 - 1))).toNat = bar0At + 8 * (2 ^ 24 - 1) ∧
    (let s : State := { served pin1 (fun h => { h with reads := [held1] }) with clock := 10000000 }
     s.host.reads.find? (fun r => r.id == 4) = some held1 ∧ s.anyPinned 128 8 = true ∧ held1.arrived + 10000000 ≤ s.clock) ∧
    (let s : State := { served pin1 (fun h => { h with reads := [held1] }) with clock := 9999999 }
     s.host.reads.find? (fun r => r.id == 4) = some held1 ∧ s.clock < held1.arrived + 10000000) ∧
    (let s : State := { served [] (fun h => { h with reads := [held1] }) with clock := 10000001 }
     s.host.reads.find? (fun r => r.id == 4) = some held1 ∧ held1.arrived + 10000000 < s.clock) ∧
    (let s : State := { served [] (fun h => { h with reads := [held1] }) with clock := 10000000 }
     s.host.reads.find? (fun r => r.id == 4) = some held1 ∧ s.anyPinned 128 8 = false ∧ s.clock = held1.arrived + 10000000) ∧
    (let r := (served [] fun h => { h with rings := [(1, { ctl := 0x84, waiting := [record1] })] }).host.ring 1
     r.waiting = [record1] ∧ r.enabled = true ∧ r.fill < 2 ^ r.log2 ∧ record1.after = .nothing ∧ r.lastMsi = none) ∧
    (let r := (served [] fun h => { h with rings := [(1, { ctl := 0x84, pidx := 16, waiting := [record1] })] }).host.ring 1
     r.waiting = [record1] ∧ 2 ^ r.log2 ≤ r.fill) ∧
    (let s : State := { served [] (fun h => { h with rings := [(1, { lastMsi := some 0, due := true })] }) with clock := 1000 }
     (s.host.ring 1).lastMsi = some 0 ∧ (s.host.ring 1).due = true ∧ 0 + 1000 ≤ s.clock) ∧
    (let s : State := { served [] (fun h => { h with rings := [(1, { lastMsi := some 0, due := true })] }) with clock := 999 }
     (s.host.ring 1).lastMsi = some 0 ∧ s.clock < 0 + 1000) := by
  decide +kernel

/-- A state whose next command record is given. -/
def commanding (s : State) (record : Nat) : State :=
  withBytes { s with host := { s.host with rings := [(3, { ctl := 0x84, pidx := 1 })] } } hostBase 64 record

def commandingOf (s : State) (op : Nat) (words : List Nat) : State := commanding s (commandRecord op words)

/-- A group whose stop or system call the host is to answer, with TAG 6. -/
def tagged (src : Option Source) : State :=
  let s := loaded .slotA fun g => { g with life := .stopped }
  { s with host := { s.host with tags := [(6, 1, src)] } }

/-- `State.Commands`, and the group that a tag stands for, as tests. -/
def commandsTest (s : State) (op : Nat) (words : List Nat) : Bool := decide (s.nextCommand = some (commandRecord op words))
def waitingTest (s : State) (tag : Nat) (p : Nat × Group × Option Source → Bool) : Bool := (s.waiting tag).any p

def rangeOf (kind : Nat) : Covers := { ctx := if kind = 2 then none else some 0, range := if kind = 0 then some (0x11000, 0x1000) else none }

theorem hyps_CommandResults_tables :
    (∀ x ∈ [(1, [64]), (1, [65]), (2, [64]), (2, [65]), (3, [0, 0x11000, 0, 1]), (3, [0, 0x11000, 0, 4]), (4, [0, 0x11000]), (5, [0, 0, 0x11000, 0x1000]),
      (5, [2, 0, 0, 0]), (6, []), (7, [6, 1]), (9, [6, 1]), (10, [3]), (12, [0])], commandsTest (commandingOf (withTables State.reset) x.1 x.2) x.1 x.2 = true) ∧
    (let s := withTables State.reset
     (s.mapPage 0 (s.contextRoot 0) (s.contextPool 0) 0x11000 1 0).2 ≠ BitVec.allOnes 64 ∧ (s.mapPage 0 (s.contextRoot 0) (s.contextPool 0) 0x0200000000000000 1 0).2 = BitVec.allOnes 64 ∧
       s.contextHeld 0 = false ∧ (∀ k ∈ ([1, 4] : List Nat), s.mapHeld none 0 (s.contextRoot 0) (s.contextPool 0) 0x11000 k = false) ∧ (∀ k ∈ ([0, 1, 2] : List Nat), s.copiesWithin (rangeOf k) = false ∧ s.writesHeld (rangeOf k) = false) ∧ s.groups = [] ∧
       s.cores = [] ∧ s.host.posted = []) ∧
    (let s : State := { withTables State.reset with pins := [{ core := 5, team := 77, line := 0x102000 / 128 }] }
     s.mapHeld none 0 (s.contextRoot 0) (s.contextPool 0) 0x11000 1 = true) ∧
    (flying .cpy (.copy 2 0 [] none [(0x11000, 8)])).copiesWithin (rangeOf 0) = true ∧
    (let s : State := { plain.onCore 0 (fun c => { c with l1 := [{ gid := 1, op := 9, team := 2, place := 0x11000, bytes := [5] }] }) with pins := line0 }
     s.writesHeld (rangeOf 2) = true) ∧
    (plain.groups.all fun e => !e.2.writesOut) = true ∧ (NMap.keys plain.cores).all plain.canDrain = true ∧ plain.host.posted = [] := by
  and_intros <;> decide +kernel

theorem hyps_CommandResults_groups :
    (let s := commandingOf (tagged none) 7 [6, 0]
     commandsTest s 7 [6, 0] = true ∧ waitingTest s 6 (fun x => x.1 == 1 && x.2.2 == none && !badTarget x.2.1.trap.resume && decide (x.2.1.life ≠ .saved)) = true) ∧
    (let s := commandingOf ((tagged none).onGroup 1 fun g => { g with life := .saved }) 7 [6, 0]
     commandsTest s 7 [6, 0] = true ∧ waitingTest s 6 (fun x => x.1 == 1 && x.2.2 == none && !badTarget x.2.1.trap.resume && decide (x.2.1.life = .saved)) = true) ∧
    (let s := commandingOf (tagged none) 7 [6, 2]
     commandsTest s 7 [6, 2] = true ∧ s.host.killing = none ∧ waitingTest s 6 (fun x => x.2.2 == none && !(s.gangTeams (s.team x.2.1.team).gang).isEmpty) = true) ∧
    (let s := commandingOf (tagged none) 7 [5, 0]
     commandsTest s 7 [5, 0] = true ∧ s.host.killing = none ∧ (s.waiting 5).isNone = true) ∧
    (let s := commandingOf (tagged (some .slotA)) 9 [6, 77]
     commandsTest s 9 [6, 77] = true ∧ waitingTest s 6 (fun x => x.2.2 == some .slotA && decide (x.2.1.life ≠ .saved ∧ x.2.1.frameReq = none ∧ x.2.1.defers = [] ∧
       (∀ r ∈ (s.core x.2.1.core).requests, r.gid ≠ x.1) ∧ (frameReg x.2.1.frames (x.2.1.frameSize - 8)).isSome = true)) = true) ∧
    (let s := commandingOf plain 8 [0, 2 ^ 64 - 1]
     commandsTest s 8 [0, 2 ^ 64 - 1] = true ∧ s.host.killing = none ∧ (∃ e ∈ s.gangs, (NMap.get s.launches {} e.2.launch).task = 0 ∧ e.2.killed = false ∧ s.gangTeams e.1 ≠ [] ∧
       (s.gang e.1).kill = none ∧ ∀ x ∈ s.gangs, x.1 = e.1 → x = e)) ∧
    (∀ kill ∈ ([none, some { cause := 0x33, group := none }] : List (Option Kill)), ∀ x ∈ ([(7, [6, 2]), (8, [0, 0])] : List (Nat × List Nat)),
     let s0 := commandingOf (plain.onGang 3 fun g => { g with kill := kill }) x.1 x.2
     let s : State := { s0 with host := { s0.host with killing := some [3] } }
     commandsTest s x.1 x.2 = true ∧ s.reported 3 = kill.isNone) ∧
    (let s := commandingOf plain 8 [1, 0]
     commandsTest s 8 [1, 0] = true ∧ s.host.killing = none ∧ ∀ e ∈ s.gangs, (NMap.get s.launches {} e.2.launch).task ≠ 1) ∧
    (let s := commandingOf (State.reset.onDie 3 fun d => { d with offline := true }) 10 [3]
     commandsTest s 10 [3] = true ∧ (s.die 3).offline = true ∧ s.teams = [] ∧ s.tests = []) ∧
    (let s := commandingOf { State.reset.onDie 3 (fun d => { d with offline := true }) with tests := [{ unit := .lane 5 1, lasting := true }] } 10 [3]
     commandsTest s 10 [3] = true ∧ (s.die 3).offline = true ∧ ∀ x ∈ s.tests, x.lasting = true → unitDie x.unit ≠ 3) ∧
    (let s := commandingOf State.reset 10 [3]
     commandsTest s 10 [3] = true ∧ (s.die 3).offline = false) ∧
    (let s := commanding State.reset (11 + 5 * 2 ^ 64 + 0x4000 * 2 ^ 320)
     s.nextCommand = some (11 + (5#256).toNat * 2 ^ 64 + (0x4000#64).toNat * 2 ^ 320) ∧ s.host.attest = none) ∧
    (let s := commandingOf { State.reset with time := 9 } 12 [8]
     commandsTest s 12 [8] = true ∧ 8 < s.now ∧ commandsTest (commandingOf { State.reset with time := 9 } 12 [9]) 12 [9] = true) ∧
    (let s := commanding State.reset (13 + 7 * 2 ^ 64)
     s.nextCommand = some (13 + 7 * 2 ^ 64) ∧ (13 + 7 * 2 ^ 64) % 256 = (13#8).toNat) := by
  and_intros <;> decide +kernel

theorem num_of_bytes (k : Nat) : ∀ n, numOf (bytesOf n k) = n % 256 ^ k := by
  induction k with
  | zero => intro n; simp [bytesOf, numOf, Nat.mod_one]
  | succ k ih =>
    intro n
    simp only [bytesOf, numOf, ih, BitVec.toNat_ofNat]
    rw [show 256 ^ (k + 1) = 256 * 256 ^ k by rw [pow_succ, Nat.mul_comm], Nat.mod_mul]

/-- A flit of zeros with its CRC. -/
def goodFlit : List Byte := List.replicate 68 0 ++ bytesOf (Config.flitCrc (List.replicate 68 0)).toNat 4

theorem good_flit : flitGood goodFlit = true ∧ flitSeq goodFlit = 0 := by
  have h : goodFlit.take 68 = List.replicate 68 0 := by simp [goodFlit]
  have h2 : goodFlit.drop 68 = bytesOf (Config.flitCrc (List.replicate 68 0)).toNat 4 := by simp [goodFlit]
  have h3 : goodFlit.length = 72 := by simp [goodFlit, bytesOf]
  refine ⟨?_, ?_⟩
  · simp only [flitGood, h, h2, h3, num_of_bytes]
    rw [Nat.mod_eq_of_lt (show (Config.flitCrc (List.replicate 68 0)).toNat < 256 ^ 4 from (Config.flitCrc (List.replicate 68 0)).isLt)]
    simp only [beq_self_eq_true, Bool.and_self]
  · have : (goodFlit.drop 64).take 2 = [0, 0] := by simp [goodFlit]
    simp [flitSeq, this, numOf]

theorem hyps_NetworkAndStartEvents_flits :
    (State.reset.irend = [] ∧ (0 : Nat) < 12 ∧ ∀ r < 5, ∃ f, flitAt (List.replicate 5 (some goodFlit)) r = some f ∧ flitGood f = true ∧ flitSeq f = 0) ∧
    ((∀ r < 5, r ≠ 4 → ∃ f, flitAt (List.replicate 4 (some goodFlit) ++ [none]) r = some f ∧ flitGood f = true ∧ flitSeq f = 0) ∧
      flitAt (List.replicate 4 (some goodFlit) ++ [none]) 4 = none) ∧
    (flitAt [none, none] 0 = none ∧ flitAt [none, none] 1 = none) ∧
    (let x := NMap.get State.reset.irend {} 11
     x.down = false ∧ x.failed = [] ∧ x.late = []) := by
  refine ⟨⟨rfl, by decide, ?_⟩, ⟨?_, rfl⟩, ⟨rfl, rfl⟩, by decide +kernel⟩
  · intro r hr
    exact ⟨goodFlit, by interval_cases r <;> rfl, good_flit⟩
  · intro r hr hn
    exact ⟨goodFlit, by interval_cases r <;> first | rfl | exact absurd rfl hn, good_flit⟩

/-- A launch frame of one record for queue 3, and the filters and tables that admit it. -/
def framePayload (version : Nat) : List Byte := bytesOf (version + 1 * 2 ^ 16 + 3 * 2 ^ 32) 16 ++ List.replicate 128 0
def frameTables (tail : Nat) : State :=
  { withBytes (withBytes (withBytes (withTables State.reset) 0x90C0 8 (0xA000 + 2 * 2 ^ 3)) 0x90C8 8 (tail * 2 ^ 32)) 0x90D0 8 (2 ^ 28) with
    filters := [(32 * 1 + 31, BitVec.ofNat 256 (2 ^ 192 + 3 * 2 ^ 160 + 9 * 2 ^ 144))] }

/-- A link ring of die 0 with one transfer to send. -/
def linking : State :=
  (withBytes (withBytes (withBytes (withBytes (withTables State.reset) 0x15000 8 1) 0x16000 8 0x11000) 0x16008 8 8) 0x16028 8 (0xFF * 2 ^ 16)).onDie 0 fun d =>
    { d with links := [(7, { base := 0x16000, ctl := BitVec.ofNat 64 (2 ^ 63 + 4), prod := 0x15000 })] }

theorem hyps_NetworkAndStartEvents :
    (let field (o n : Nat) : Nat := numOf (((framePayload 1).drop o).take n)
     field 0 2 = 1 ∧ field 2 2 = 1 ∧ field 4 4 = 3 ∧ (framePayload 1).length = 16 + 128 * 1) ∧
    numOf (((framePayload 2).drop 0).take 2) ≠ 1 ∧ (1000000 : Int) < 1000001 ∧
    (let s := frameTables 0
     (∃ e < 32, filterMatches (NMap.get s.filters 0 (32 * 1 + e)) 0 9 3 = true) ∧ s.acceptsNet 3 = true ∧
       (s.queueTail 3 + 2 ^ 32 - s.queueHead 3) % 2 ^ 32 + 1 ≤ 2 ^ s.queueLog 3 ∧ s.framePlaces 3 1 = some [0xA000] ∧ s.anyPinned 0xA000 128 = false ∧
       s.pinnedAgainst none (lineOf (s.queueAt 3)) = false ∧ s.queueAt 3 + 64 ≤ 0xA000) ∧
    ¬ (∃ e < 32, filterMatches (NMap.get (frameTables 0).filters 0 (32 * 0 + e)) 0 9 3 = true) ∧
    (let s := frameTables 4
     s.acceptsNet 3 = true ∧ ¬ (s.queueTail 3 + 2 ^ 32 - s.queueHead 3) % 2 ^ 32 + 1 ≤ 2 ^ s.queueLog 3) ∧
    (let s := linking
     let r := s.linkRing 0 7
     let d := numOf (s.readHome 0x16000 64)
     (s.die 0).offline = false ∧ r.enabled = true ∧ s.ctxPlace r.ctx r.prod.toNat .read = some 0x15000 ∧
       (s.checkRange (s.ctxWho (160 * 0) r.ctx) (r.base.toNat + 64 * (r.cons.toNat % 2 ^ r.log2)) 64 8 .read).toOption = some [(0x16000, 64)] ∧
       s.homeNum 0x15000 8 ≠ r.cons.toNat ∧ d / 2 ^ (8 * 8) % 2 ^ 64 = 8 ∧ 8 % 8 = 0 ∧ 8 ≤ 2 ^ 32 ∧ d / 2 ^ (8 * 16) % 2 ^ 64 + 8 ≤ 2 ^ 39 ∧ d / 2 ^ (8 * 43) = 0 ∧
       d / 2 ^ (8 * 42) % 256 = 0xFF ∧ s.linkUp 0xFF = true ∧ s.pins = [] ∧
       (s.checkRange (s.ctxWho (160 * 0) r.ctx) (d % 2 ^ 64) 8 1 .read).toOption = some [(0x11000, 8)]) ∧
    (let s := withTables State.reset
     0x11000 + ([1, 2] : List Byte).length ≤ 2 ^ 39 ∧ s.anyPinned 0x11000 2 = false ∧ s.anyPinned 0x12000 8 = false ∧ 0x11000 + 2 ≤ 0x12000 ∧
       (∀ j < 8, isHbm (0x12000 + j) = true ∨ isHost (0x12000 + j) = true) ∧
       ∃ j < 8, isHbm (0x8000000000 + j) = false ∧ isHost (0x8000000000 + j) = false) ∧
    (let s := (withTables State.reset).onLink 0 7 fun r => { r with pending := [⟨0, 0, 0, 0, 0, []⟩, ⟨0, 0, 0, 0, 0x12000, []⟩] }
     (s.linkRing 0 7).pending = [⟨0, 0, 0, 0, 0, []⟩, ⟨0, 0, 0, 0, 0x12000, []⟩]) ∧
    (let s := (withTables State.reset).onLink 0 7 fun r => { r with pending := [⟨0, 0, 0, 0, 0x12000, []⟩] }
     (s.linkRing 0 7).pending = [⟨0, 0, 0, 0, 0x12000, []⟩] ∧ s.ctxPlace (s.linkRing 0 7).ctx 0x12000 .rmw = some 0x12000 ∧ s.anyPinned 0x12000 8 = false) ∧
    State.reset.host.cfg.getLsbD 1 = false ∧ (served [] fun h => { h with cfg := 2 }).host.cfg.getLsbD 1 = true := by
  and_intros <;> decide +kernel

/-! ### Well-formedness: an ill-formed term for each check -/

theorem test_defects : ∀ x ∈ [
    (Instr.faluAdd 7 1 2 3 0, Defect.typeNotAccepted), (.dot4 1 1 2 3 0, .typeNotAccepted), (.reduce 8 1 2 3 0, .typeNotAccepted),
    (.rand 9 1 0, .typeNotAccepted), (.cvtFp8 0 1 2 15 0, .typeNotAccepted), (.shl 8 1 2 3 0, .typeNotAccepted), (.cmpi 8 0 1 2 0, .typeNotAccepted),
    (.mulw 2 1 2 0, .oddPair), (.addw 2 3 2 0, .oddPair), (.subw 2 5 2 0, .oddPair),
    (.cmp 8 7 1 2 3 0, .conditionIllegal), (.cmp 2 6 1 2 3 0, .conditionIllegal), (.cmpi 2 6 1 2 0, .conditionIllegal), (.ybr 0 0 7 0, .conditionIllegal),
    (.test 0 1 2 0 0, .maskZero),
    (.reduce 2 1 2 6 0, .operationIllegal), (.yopReg 1 2 11 3, .operationIllegal), (.yopImm 1 2 15 3, .operationIllegal),
    (.ld 0 1 2 0 7, .widthIllegal), (.lda 0 1 2 0 7 0, .widthIllegal),
    (.lda 0 1 2 0 3 5, .scopeIllegal), (.str 1 2 0 3 7, .scopeIllegal), (.fence 6, .scopeIllegal),
    (.wait 1 6, .pathIllegal),
    (.yopHrd 1 2 13, .selectorIllegal), (.hrd 1 2 0 14, .selectorIllegal), (.hwr 1 2 0 15, .selectorIllegal),
    (.zclr 0 3, .kindIllegal), (.zld 0 1 4, .kindIllegal), (.barinit 0 1 3, .kindIllegal), (.adobeq 1 2 0 3, .kindIllegal), (.tlbinv 0 0 3, .kindIllegal),
    (.mappg 1 2 5, .kindIllegal),
    (.yopReg 1 2 10 3, .fieldNotZero), (.ybr 1 0 6 4, .fieldNotZero), (.barinit 1 2 1, .fieldNotZero), (.barmask 1 2 3, .fieldNotZero), (.tlbinv 1 0 1, .fieldNotZero),
    (.coldStart, .notAWord), (.wordNotAnInstruction 5, .notAWord)], x.1.defect = some x.2 := by decide +kernel

/-! ### Decoding: a word of every row, written field by field from the opcode table -/

theorem test_decode_major_00 : ∀ x ∈ [
    ((0#11 ++ 2097132#21 : Word), Instr.illegal 2097132),
    ((1#11 ++ 164447#21 : Word), Instr.nop 164447),
    ((2#11 ++ 2097090#21 : Word), Instr.syscall 2097090),
    ((3#11 ++ 57#6 ++ 178#8 ++ 0#7 : Word), Instr.crrd 57 178),
    ((4#11 ++ 30#6 ++ 166#8 ++ 0#7 : Word), Instr.crwr 30 166),
    ((5#11 ++ 30#6 ++ 28071#15 : Word), Instr.enq 30 28071)],
    decode x.1 = .ok x.2 := by decide +kernel

theorem test_decode_major_01 : ∀ x ∈ [
    ((8#8 ++ 1239814#24 : Word), Instr.himm 1239814),
    ((9#8 ++ 2834769#24 : Word), Instr.himmhi 2834769),
    ((10#8 ++ 0#1 ++ 3#3 ++ 1#1 ++ 0#1 ++ 1#1 ++ 0#3 ++ 1#1 ++ 7#3 ++ 0#10 : Word), Instr.hmod 0 3 1 0 1 0 1 7),
    ((5767168#27 ++ 0#1 ++ 15#4 : Word), Instr.hsched 0 15),
    ((12#8 ++ 16777168#24 : Word), Instr.hoff 16777168)],
    decode x.1 = .ok x.2 := by decide +kernel

theorem test_decode_major_02 : ∀ x ∈ [
    ((16#8 ++ 16777175#24 : Word), Instr.bra 16777175),
    ((17#8 ++ 1#3 ++ 1561274#21 : Word), Instr.braGuarded 1 1561274),
    ((18#8 ++ 6#3 ++ 822557#21 : Word), Instr.braAny 6 822557),
    ((19#8 ++ 7#3 ++ 2097119#21 : Word), Instr.braAll 7 2097119),
    ((20#8 ++ 3#4 ++ 548251#20 : Word), Instr.reconv 3 548251),
    ((21#8 ++ 1#4 ++ 0#20 : Word), Instr.join 1),
    ((22#8 ++ 1#3 ++ 0#21 : Word), Instr.exit 1),
    ((23#8 ++ 19#6 ++ 7#3 ++ 0#15 : Word), Instr.brx 19 7)],
    decode x.1 = .ok x.2 := by decide +kernel

theorem test_decode_major_03 : ∀ x ∈ [
    ((3#5 ++ 2#6 ++ 2097119#21 : Word), Instr.call 2 2097119)],
    decode x.1 = .ok x.2 := by decide +kernel

theorem test_decode_major_04 : ∀ x ∈ [
    ((8#6 ++ 7#3 ++ 0#6 ++ 35#6 ++ 45#6 ++ 3#3 ++ 0#2 : Word), Instr.ialuAdd 7 0 35 45 3),
    ((8#6 ++ 6#3 ++ 18#6 ++ 10#6 ++ 27#6 ++ 0#3 ++ 1#2 : Word), Instr.ialuSub 6 18 10 27 0),
    ((8#6 ++ 4#3 ++ 7#6 ++ 50#6 ++ 59#6 ++ 3#3 ++ 2#2 : Word), Instr.ialuMul 4 7 50 59 3),
    ((8#6 ++ 1#3 ++ 57#6 ++ 43#6 ++ 1#6 ++ 5#3 ++ 3#2 : Word), Instr.ialuMin 1 57 43 5),
    ((8#6 ++ 2#3 ++ 46#6 ++ 4#6 ++ 2#6 ++ 2#3 ++ 3#2 : Word), Instr.ialuMax 2 46 4 2),
    ((8#6 ++ 1#3 ++ 32#6 ++ 15#6 ++ 3#6 ++ 0#3 ++ 3#2 : Word), Instr.ialuNeg 1 32 15 0),
    ((8#6 ++ 0#3 ++ 63#6 ++ 48#6 ++ 4#6 ++ 7#3 ++ 3#2 : Word), Instr.ialuAbs 0 63 48 7),
    ((8#6 ++ 2#3 ++ 30#6 ++ 45#6 ++ 5#6 ++ 4#3 ++ 3#2 : Word), Instr.absdiff 2 30 45 4),
    ((8#6 ++ 3#3 ++ 51#6 ++ 27#6 ++ 6#6 ++ 2#3 ++ 3#2 : Word), Instr.avg 3 51 27 2),
    ((8#6 ++ 2#3 ++ 30#6 ++ 33#6 ++ 7#6 ++ 3#3 ++ 3#2 : Word), Instr.mulhi 2 30 33 3),
    ((8#6 ++ 2#3 ++ 38#6 ++ 10#6 ++ 8#6 ++ 2#3 ++ 3#2 : Word), Instr.mulw 2 38 10 2),
    ((8#6 ++ 7#3 ++ 38#6 ++ 15#6 ++ 9#6 ++ 2#3 ++ 3#2 : Word), Instr.addw 7 38 15 2),
    ((8#6 ++ 2#3 ++ 18#6 ++ 34#6 ++ 10#6 ++ 6#3 ++ 3#2 : Word), Instr.subw 2 18 34 6)],
    decode x.1 = .ok x.2 := by decide +kernel

theorem test_decode_major_05 : ∀ x ∈ [
    ((10#6 ++ 0#3 ++ 53#6 ++ 5#6 ++ 357#11 : Word), Instr.ialuiAdd 0 53 5 357),
    ((95#9 ++ 17#6 ++ 0#6 ++ 1229#11 : Word), Instr.movImm 17 1229)],
    decode x.1 = .ok x.2 := by decide +kernel

theorem test_decode_major_06 : ∀ x ∈ [
    ((6#5 ++ 2#4 ++ 14#6 ++ 15#6 ++ 62#6 ++ 2#3 ++ 0#2 : Word), Instr.lop 2 14 15 62 2),
    ((6#5 ++ 0#4 ++ 33#6 ++ 7#6 ++ 22#6 ++ 4#3 ++ 1#2 : Word), Instr.shl 0 33 7 22 4),
    ((6#5 ++ 1#4 ++ 40#6 ++ 1#6 ++ 8#6 ++ 6#3 ++ 2#2 : Word), Instr.shr 1 40 1 8 6),
    ((96#9 ++ 50#6 ++ 59#6 ++ 4#6 ++ 0#3 ++ 3#2 : Word), Instr.bfx 50 59 4 0),
    ((97#9 ++ 8#6 ++ 8#6 ++ 25#6 ++ 0#3 ++ 3#2 : Word), Instr.bfxs 8 8 25 0),
    ((98#9 ++ 42#6 ++ 56#6 ++ 34#6 ++ 4#3 ++ 3#2 : Word), Instr.bfi 42 56 34 4),
    ((99#9 ++ 8#6 ++ 12#6 ++ 0#6 ++ 6#3 ++ 3#2 : Word), Instr.popc 8 12 6),
    ((100#9 ++ 27#6 ++ 26#6 ++ 0#6 ++ 4#3 ++ 3#2 : Word), Instr.clz 27 26 4),
    ((101#9 ++ 16#6 ++ 13#6 ++ 0#6 ++ 4#3 ++ 3#2 : Word), Instr.ctz 16 13 4),
    ((102#9 ++ 33#6 ++ 5#6 ++ 0#6 ++ 2#3 ++ 3#2 : Word), Instr.brev 33 5 2),
    ((103#9 ++ 41#6 ++ 48#6 ++ 12#6 ++ 2#3 ++ 3#2 : Word), Instr.rol 41 48 12 2),
    ((104#9 ++ 33#6 ++ 23#6 ++ 5#6 ++ 2#3 ++ 3#2 : Word), Instr.ror 33 23 5 2)],
    decode x.1 = .ok x.2 := by decide +kernel

theorem test_decode_major_07 : ∀ x ∈ [
    ((7#5 ++ 8#4 ++ 46#6 ++ 8#6 ++ 490#11 : Word), Instr.lopi 8 46 8 490)],
    decode x.1 = .ok x.2 := by decide +kernel

theorem test_decode_major_08 : ∀ x ∈ [
    ((8#5 ++ 0#4 ++ 4#3 ++ 1#3 ++ 36#6 ++ 22#6 ++ 2#3 ++ 0#2 : Word), Instr.cmp 0 4 1 36 22 2),
    ((8#5 ++ 7#4 ++ 11#6 ++ 60#6 ++ 55#6 ++ 2#3 ++ 1#2 : Word), Instr.sel 7 11 60 55 2),
    ((8#5 ++ 7#4 ++ 0#3 ++ 0#3 ++ 0#3 ++ 4#3 ++ 0#3 ++ 7#3 ++ 2#3 ++ 2#2 : Word), Instr.plop 7 0 4 7 2),
    ((17#6 ++ 6#3 ++ 0#3 ++ 2#3 ++ 23#6 ++ 2#6 ++ 1#3 ++ 3#2 : Word), Instr.test 6 2 23 2 1)],
    decode x.1 = .ok x.2 := by decide +kernel

theorem test_decode_major_09 : ∀ x ∈ [
    ((9#5 ++ 12#4 ++ 1#3 ++ 5#3 ++ 1#6 ++ 1129#11 : Word), Instr.cmpi 12 1 5 1 1129)],
    decode x.1 = .ok x.2 := by decide +kernel

theorem test_decode_major_0A : ∀ x ∈ [
    ((21#6 ++ 4#3 ++ 10#6 ++ 62#6 ++ 5#6 ++ 2#3 ++ 0#2 : Word), Instr.faluAdd 4 10 62 5 2),
    ((21#6 ++ 1#3 ++ 36#6 ++ 58#6 ++ 47#6 ++ 5#3 ++ 1#2 : Word), Instr.faluSub 1 36 58 47 5),
    ((21#6 ++ 0#3 ++ 63#6 ++ 15#6 ++ 20#6 ++ 0#3 ++ 2#2 : Word), Instr.faluMul 0 63 15 20 0),
    ((21#6 ++ 6#3 ++ 37#6 ++ 37#6 ++ 1#6 ++ 6#3 ++ 3#2 : Word), Instr.faluMin 6 37 37 6),
    ((21#6 ++ 0#3 ++ 29#6 ++ 14#6 ++ 2#6 ++ 5#3 ++ 3#2 : Word), Instr.faluMax 0 29 14 5),
    ((21#6 ++ 0#3 ++ 63#6 ++ 60#6 ++ 3#6 ++ 3#3 ++ 3#2 : Word), Instr.faluNeg 0 63 60 3),
    ((21#6 ++ 6#3 ++ 23#6 ++ 60#6 ++ 4#6 ++ 3#3 ++ 3#2 : Word), Instr.faluAbs 6 23 60 3),
    ((21#6 ++ 1#3 ++ 57#6 ++ 62#6 ++ 10#6 ++ 0#3 ++ 3#2 : Word), Instr.rint 1 57 62 0)],
    decode x.1 = .ok x.2 := by decide +kernel

theorem test_decode_major_0B : ∀ x ∈ [
    ((23#6 ++ 6#3 ++ 19#6 ++ 34#6 ++ 30#6 ++ 1#3 ++ 0#2 : Word), Instr.fma 6 19 34 30 1),
    ((22#6 ++ 2#3 ++ 21#6 ++ 11#6 ++ 19#6 ++ 3#3 ++ 0#2 : Word), Instr.mad 2 21 11 19 3),
    ((23#6 ++ 0#3 ++ 54#6 ++ 62#6 ++ 63#6 ++ 5#3 ++ 1#2 : Word), Instr.fms 0 54 62 63 5),
    ((23#6 ++ 5#3 ++ 12#6 ++ 36#6 ++ 59#6 ++ 2#3 ++ 2#2 : Word), Instr.fnma 5 12 36 59 2),
    ((11#5 ++ 12#4 ++ 40#6 ++ 63#6 ++ 57#6 ++ 0#3 ++ 3#2 : Word), Instr.dot4 12 40 63 57 0)],
    decode x.1 = .ok x.2 := by decide +kernel

theorem test_decode_major_0C : ∀ x ∈ [
    ((12#5 ++ 14#4 ++ 36#6 ++ 43#6 ++ 0#2 ++ 8#4 ++ 0#3 ++ 0#2 : Word), Instr.cvt 14 36 43 8 0),
    ((96#8 ++ 0#1 ++ 62#6 ++ 56#6 ++ 0#2 ++ 8#4 ++ 4#3 ++ 1#2 : Word), Instr.cvtFp8 0 62 56 8 4)],
    decode x.1 = .ok x.2 := by decide +kernel

theorem test_decode_major_0D : ∀ x ∈ [
    ((13#5 ++ 8#4 ++ 60#6 ++ 56#6 ++ 49#6 ++ 1#3 ++ 0#2 : Word), Instr.routePick 8 60 56 49 1),
    ((13#5 ++ 3#4 ++ 25#6 ++ 41#6 ++ 36#6 ++ 4#3 ++ 1#2 : Word), Instr.routeSlide 3 25 41 36 4),
    ((13#5 ++ 0#4 ++ 30#6 ++ 19#6 ++ 48#6 ++ 2#3 ++ 2#2 : Word), Instr.routeRot 0 30 19 48 2),
    ((13#5 ++ 9#4 ++ 32#6 ++ 2#6 ++ 47#6 ++ 0#3 ++ 3#2 : Word), Instr.routeFlip 9 32 2 47 0)],
    decode x.1 = .ok x.2 := by decide +kernel

theorem test_decode_major_0E : ∀ x ∈ [
    ((56#7 ++ 0#2 ++ 55#6 ++ 0#3 ++ 3#3 ++ 0#6 ++ 0#3 ++ 0#2 : Word), Instr.vote 0 55 3 0),
    ((14#5 ++ 2#4 ++ 4#6 ++ 26#6 ++ 0#3 ++ 0#3 ++ 2#3 ++ 1#2 : Word), Instr.reduce 2 4 26 0 2),
    ((14#5 ++ 11#4 ++ 50#6 ++ 54#6 ++ 0#2 ++ 0#1 ++ 0#3 ++ 4#3 ++ 2#2 : Word), Instr.scan 11 50 54 0 0 4),
    ((239#9 ++ 32#6 ++ 14#6 ++ 0#6 ++ 2#3 ++ 3#2 : Word), Instr.matchB64 32 14 2)],
    decode x.1 = .ok x.2 := by decide +kernel

theorem test_decode_major_0F : ∀ x ∈ [
    ((31#6 ++ 0#3 ++ 23#6 ++ 25#6 ++ 0#6 ++ 6#3 ++ 0#2 : Word), Instr.rcp 0 23 25 6),
    ((31#6 ++ 6#3 ++ 3#6 ++ 47#6 ++ 1#6 ++ 6#3 ++ 0#2 : Word), Instr.rsqrt 6 3 47 6),
    ((31#6 ++ 4#3 ++ 56#6 ++ 14#6 ++ 2#6 ++ 2#3 ++ 0#2 : Word), Instr.sqrt 4 56 14 2),
    ((31#6 ++ 6#3 ++ 55#6 ++ 5#6 ++ 3#6 ++ 0#3 ++ 0#2 : Word), Instr.exp2 6 55 5 0),
    ((31#6 ++ 4#3 ++ 54#6 ++ 37#6 ++ 4#6 ++ 4#3 ++ 0#2 : Word), Instr.log2 4 54 37 4),
    ((31#6 ++ 1#3 ++ 17#6 ++ 47#6 ++ 5#6 ++ 6#3 ++ 0#2 : Word), Instr.sin 1 17 47 6),
    ((31#6 ++ 3#3 ++ 9#6 ++ 4#6 ++ 6#6 ++ 0#3 ++ 0#2 : Word), Instr.cos 3 9 4 0),
    ((31#6 ++ 1#3 ++ 23#6 ++ 0#6 ++ 7#6 ++ 7#3 ++ 0#2 : Word), Instr.tanh 1 23 0 7),
    ((31#6 ++ 2#3 ++ 15#6 ++ 13#6 ++ 5#6 ++ 7#3 ++ 1#2 : Word), Instr.div 2 15 13 5 7),
    ((30#6 ++ 3#3 ++ 24#6 ++ 22#6 ++ 4#6 ++ 1#3 ++ 2#2 : Word), Instr.idiv 3 24 22 4 1),
    ((30#6 ++ 1#3 ++ 61#6 ++ 47#6 ++ 6#6 ++ 2#3 ++ 3#2 : Word), Instr.irem 1 61 47 6 2)],
    decode x.1 = .ok x.2 := by decide +kernel

theorem test_decode_major_10 : ∀ x ∈ [
    ((16#5 ++ 3#4 ++ 58#6 ++ 51#6 ++ 7#3 ++ 1#3 ++ 0#5 : Word), Instr.ld 3 58 51 7 1),
    ((16#5 ++ 12#4 ++ 19#6 ++ 37#6 ++ 1#3 ++ 0#3 ++ 1#2 ++ 1#3 : Word), Instr.lda 12 19 37 1 0 1)],
    decode x.1 = .ok x.2 := by decide +kernel

theorem test_decode_major_11 : ∀ x ∈ [
    ((272#9 ++ 41#6 ++ 40#6 ++ 0#3 ++ 0#1 ++ 2#2 ++ 0#5 : Word), Instr.st 41 40 0 2),
    ((272#9 ++ 57#6 ++ 31#6 ++ 5#3 ++ 0#1 ++ 3#2 ++ 1#2 ++ 4#3 : Word), Instr.str 57 31 5 3 4)],
    decode x.1 = .ok x.2 := by decide +kernel

theorem test_decode_major_12 : ∀ x ∈ [
    ((18#5 ++ 14#4 ++ 25#6 ++ 58#6 ++ 7#3 ++ 0#2 ++ 1#1 ++ 0#5 : Word), Instr.atomAdd 14 25 58 7 0 1),
    ((18#5 ++ 2#4 ++ 39#6 ++ 35#6 ++ 6#3 ++ 3#2 ++ 1#1 ++ 1#5 : Word), Instr.atomMinI 2 39 35 6 3 1),
    ((18#5 ++ 15#4 ++ 42#6 ++ 2#6 ++ 2#3 ++ 2#2 ++ 0#1 ++ 2#5 : Word), Instr.atomMaxI 15 42 2 2 2 0),
    ((18#5 ++ 11#4 ++ 12#6 ++ 13#6 ++ 1#3 ++ 2#2 ++ 1#1 ++ 3#5 : Word), Instr.atomMinN 11 12 13 1 2 1),
    ((18#5 ++ 9#4 ++ 14#6 ++ 4#6 ++ 5#3 ++ 1#2 ++ 1#1 ++ 4#5 : Word), Instr.atomMaxN 9 14 4 5 1 1),
    ((18#5 ++ 9#4 ++ 39#6 ++ 23#6 ++ 2#3 ++ 3#2 ++ 0#1 ++ 5#5 : Word), Instr.atomAnd 9 39 23 2 3 0),
    ((18#5 ++ 14#4 ++ 31#6 ++ 53#6 ++ 1#3 ++ 2#2 ++ 0#1 ++ 6#5 : Word), Instr.atomOr 14 31 53 1 2 0),
    ((18#5 ++ 15#4 ++ 47#6 ++ 10#6 ++ 3#3 ++ 3#2 ++ 0#1 ++ 7#5 : Word), Instr.atomXor 15 47 10 3 3 0),
    ((18#5 ++ 2#4 ++ 5#6 ++ 17#6 ++ 0#3 ++ 2#2 ++ 1#1 ++ 8#5 : Word), Instr.atomXchg 2 5 17 0 2 1),
    ((18#5 ++ 8#4 ++ 24#5 ++ 0#1 ++ 35#6 ++ 0#3 ++ 2#2 ++ 1#1 ++ 9#5 : Word), Instr.atomCas 8 24 35 0 2 1),
    ((18#5 ++ 1#4 ++ 20#6 ++ 56#6 ++ 5#3 ++ 1#2 ++ 10#6 : Word), Instr.atomFadd 1 20 56 5 1)],
    decode x.1 = .ok x.2 := by decide +kernel

theorem test_decode_major_13 : ∀ x ∈ [
    ((9961472#24 ++ 2#3 ++ 0#5 : Word), Instr.fence 2),
    ((19456#15 ++ 53#6 ++ 0#3 ++ 3#3 ++ 1#5 : Word), Instr.wait 53 3)],
    decode x.1 = .ok x.2 := by decide +kernel

theorem test_decode_major_14 : ∀ x ∈ [
    ((320#9 ++ 1#6 ++ 0#4 ++ 0#2 ++ 6#3 ++ 0#8 : Word), Instr.pop 1 0 6),
    ((320#9 ++ 57#6 ++ 0#4 ++ 2#2 ++ 6#3 ++ 1#8 : Word), Instr.push 57 2 6),
    ((320#9 ++ 9#4 ++ 1#2 ++ 0#2 ++ 10#4 ++ 2#11 : Word), Instr.qld 9 1 10),
    ((320#9 ++ 1#4 ++ 0#2 ++ 0#2 ++ 5#4 ++ 3#11 : Word), Instr.qst 1 0 5),
    ((20#5 ++ 1#4 ++ 0#4 ++ 1#4 ++ 0#6 ++ 6#4 ++ 4#5 : Word), Instr.yopReg 1 0 1 6),
    ((20#5 ++ 3#4 ++ 3#4 ++ 0#4 ++ 1#1 ++ 139#9 ++ 4#5 : Word), Instr.yopImm 3 3 0 139),
    ((20#5 ++ 4#4 ++ 5#4 ++ 736#10 ++ 1#4 ++ 4#5 : Word), Instr.yopHrd 4 5 1),
    ((320#9 ++ 11#4 ++ 393220#19 : Word), Instr.yopHwait 11),
    ((20#5 ++ 2#4 ++ 6#4 ++ 2#3 ++ 1026#11 ++ 5#5 : Word), Instr.ybr 2 6 2 1026),
    ((2684354566#32 : Word), Instr.adone)],
    decode x.1 = .ok x.2 := by decide +kernel

theorem test_decode_major_15 : ∀ x ∈ [
    ((336#9 ++ 35#6 ++ 0#2 ++ 12#4 ++ 5#3 ++ 0#4 ++ 9#4 : Word), Instr.hrd 35 12 5 9),
    ((336#9 ++ 25#6 ++ 0#2 ++ 3#4 ++ 3#3 ++ 1#4 ++ 10#4 : Word), Instr.hwr 25 3 3 10)],
    decode x.1 = .ok x.2 := by decide +kernel

theorem test_decode_major_16 : ∀ x ∈ [
    ((2816#12 ++ 0#3 ++ 1#6 ++ 0#11 : Word), Instr.tcfg 0 1),
    ((2816#12 ++ 4#3 ++ 19#6 ++ 1#11 : Word), Instr.tld 4 19),
    ((2816#12 ++ 7#3 ++ 21#6 ++ 2#11 : Word), Instr.tst 7 21),
    ((2816#12 ++ 7#3 ++ 3#17 : Word), Instr.tzero 7),
    ((2816#12 ++ 2#3 ++ 0#3 ++ 3#3 ++ 4#11 : Word), Instr.ttrans 2 3)],
    decode x.1 = .ok x.2 := by decide +kernel

theorem test_decode_major_17 : ∀ x ∈ [
    ((1472#11 ++ 6#4 ++ 56#6 ++ 2#3 ++ 1#3 ++ 0#5 : Word), Instr.mma 6 56 2 1),
    ((1472#11 ++ 1#4 ++ 57#6 ++ 7#3 ++ 6#3 ++ 1#5 : Word), Instr.mmaExact 1 57 7 6),
    ((1472#11 ++ 12#4 ++ 62#6 ++ 6#3 ++ 7#3 ++ 2#5 : Word), Instr.mmaSb 12 62 6 7),
    ((1472#11 ++ 6#4 ++ 31#6 ++ 7#3 ++ 0#3 ++ 3#5 : Word), Instr.mmaWide 6 31 7 0),
    ((1472#11 ++ 12#4 ++ 1#6 ++ 6#3 ++ 4#8 : Word), Instr.zrd 12 1 6),
    ((1472#11 ++ 8#4 ++ 0#9 ++ 2#3 ++ 5#5 : Word), Instr.zclr 8 2),
    ((1472#11 ++ 1#4 ++ 28#6 ++ 0#3 ++ 2#3 ++ 6#5 : Word), Instr.zld 1 28 2),
    ((1472#11 ++ 13#4 ++ 25#6 ++ 7#11 : Word), Instr.zst 13 25)],
    decode x.1 = .ok x.2 := by decide +kernel

theorem test_decode_major_18 : ∀ x ∈ [
    ((24576#15 ++ 53#6 ++ 0#11 : Word), Instr.copy 53),
    ((1536#11 ++ 4#4 ++ 0#2 ++ 12#4 ++ 1#11 : Word), Instr.copyh 4 12),
    ((384#9 ++ 30#6 ++ 5#6 ++ 4#3 ++ 0#2 ++ 1#1 ++ 2#5 : Word), Instr.gather 30 5 4 1),
    ((24576#15 ++ 7#6 ++ 3#11 : Word), Instr.recfence 7)],
    decode x.1 = .ok x.2 := by decide +kernel

theorem test_decode_major_19 : ∀ x ∈ [
    ((400#9 ++ 9#6 ++ 60#6 ++ 0#4 ++ 0#2 ++ 0#5 : Word), Instr.barinit 9 60 0),
    ((400#9 ++ 30#6 ++ 7#6 ++ 1#11 : Word), Instr.arrive 30 7),
    ((400#9 ++ 23#6 ++ 24#6 ++ 2#11 : Word), Instr.waitb 23 24),
    ((25600#15 ++ 61#6 ++ 3#11 : Word), Instr.barsync 61),
    ((400#9 ++ 19#6 ++ 28#6 ++ 0#4 ++ 1#2 ++ 4#5 : Word), Instr.barmask 19 28 1)],
    decode x.1 = .ok x.2 := by decide +kernel

theorem test_decode_major_1A : ∀ x ∈ [
    ((416#9 ++ 63#6 ++ 49#6 ++ 0#11 : Word), Instr.discard 63 49),
    ((416#9 ++ 2#6 ++ 8#6 ++ 7#3 ++ 0#1 ++ 2#2 ++ 1#5 : Word), Instr.adobeq 2 8 7 2),
    ((416#9 ++ 44#6 ++ 7#6 ++ 0#4 ++ 0#2 ++ 2#5 : Word), Instr.tlbinv 44 7 0),
    ((416#9 ++ 52#6 ++ 26#6 ++ 0#3 ++ 4#3 ++ 3#5 : Word), Instr.mappg 52 26 4),
    ((3489660932#32 : Word), Instr.fretResume),
    ((3489660964#32 : Word), Instr.fretEscalate),
    ((3489660996#32 : Word), Instr.fretKill),
    ((3489661028#32 : Word), Instr.fretPoolEmpty)],
    decode x.1 = .ok x.2 := by decide +kernel

theorem test_decode_major_1B : ∀ x ∈ [
    ((27648#15 ++ 49#6 ++ 0#6 ++ 4#3 ++ 0#2 : Word), Instr.burn 49 4),
    ((27648#15 ++ 48#6 ++ 0#6 ++ 4#3 ++ 1#2 : Word), Instr.shunt 48 4),
    ((432#9 ++ 25#6 ++ 0#12 ++ 6#3 ++ 2#2 : Word), Instr.balrd 25 6),
    ((27648#15 ++ 44#6 ++ 0#6 ++ 4#3 ++ 3#2 : Word), Instr.balclass 44 4)],
    decode x.1 = .ok x.2 := by decide +kernel

theorem test_decode_major_1C : ∀ x ∈ [
    ((1792#11 ++ 1761670#21 : Word), Instr.trap 1761670),
    ((1793#11 ++ 382213#21 : Word), Instr.bkpt 382213)],
    decode x.1 = .ok x.2 := by decide +kernel

theorem test_decode_major_1D : ∀ x ∈ [
    ((3892314112#32 : Word), Instr.ret),
    ((15212544#24 ++ 96#8 : Word), Instr.unwind 96),
    ((1858#11 ++ 63#6 ++ 37#6 ++ 0#9 : Word), Instr.callx 63 37)],
    decode x.1 = .ok x.2 := by decide +kernel

theorem test_decode_major_1E : ∀ x ∈ [
    ((30#5 ++ 10#4 ++ 34#6 ++ 0#12 ++ 7#3 ++ 0#2 : Word), Instr.rand 10 34 7),
    ((30720#15 ++ 3#6 ++ 33#6 ++ 6#3 ++ 1#2 : Word), Instr.seed 3 33 6),
    ((122#7 ++ 1#1 ++ 0#1 ++ 21#6 ++ 2#6 ++ 0#6 ++ 0#3 ++ 2#2 : Word), Instr.catsample 1 21 2 0)],
    decode x.1 = .ok x.2 := by decide +kernel

/-- Reserved majors, selectors and fields are refused by name. -/
theorem test_decode_refused : ∀ x ∈ [((0xF8000000 : Word), DecodeError.unassignedMajor), (0x0D000000, .noSuchForm), (0x00C00000, .noSuchForm)], decode x.1 = .error x.2 := by decide +kernel

/-! ### Single steps -/

/-- The state after one step of the loaded machine that runs one instruction, with numbers in every lane of some registers. -/
def run (i : Instr) (regs : List (Nat × Lane)) (f : State → State := id) : State :=
  let s := (State.reset.withFetchWord 32 (encodeNat i)).onCore 0 fun c => { c with
    rf := regs.flatMap fun r => (List.range 32).map fun l => (32 * r.1 + l, r.2) }
  match step (f s) with
  | .next t => t
  | _ => State.reset

/-- A lane of a register after it, and the group. -/
def laneOf (s : State) (r l : Nat) : Lane := (s.core 0).cell (32 * r + l)
def grp (s : State) : Group := (s.group? 1).getD {}

/-- Two S32 sub-elements: 2147483647 + 1 wraps, 1 + 1 = 2 (R104). -/
theorem test_add_wraps : laneOf (run (.ialuAdd 2 1 2 3 0) [(2, 0x7FFFFFFF00000001), (3, 0x0000000100000001)]) 1 31 = 0x8000000000000002 := by decide +kernel
/-- N8: 3 - 5 = 254, and the next sub-element takes no borrow (R104). -/
theorem test_sub_lanes : laneOf (run (.ialuSub 4 1 2 3 0) [(2, 0x0903), (3, 0x0405)]) 1 0 = 0x05FE := by decide +kernel
/-- S16: -2 x 3 = -6 (R104). -/
theorem test_mul : laneOf (run (.ialuMul 1 1 2 3 0) [(2, 0xFFFE), (3, 3)]) 1 0 = 0xFFFA := by decide +kernel
/-- N64: 2 x 3 + 5 = 11, the destination the addend (R104). -/
theorem test_mad : laneOf (run (.mad 7 1 2 3 0) [(1, 5), (2, 2), (3, 3)]) 1 0 = 11 := by decide +kernel
/-- S64: the high half of -1 x 1 is -1 (R105). -/
theorem test_mulhi : laneOf (run (.mulhi 3 1 2 0) [(1, 1), (2, 0xFFFFFFFFFFFFFFFF)]) 1 0 = 0xFFFFFFFFFFFFFFFF := by decide +kernel
/-- N64: (2^64 - 1) + (2^64 - 1) has its carry in d + 1 (R106). -/
theorem test_addw : laneOf (run (.addw 7 2 4 0) [(2, 0xFFFFFFFFFFFFFFFF), (4, 0xFFFFFFFFFFFFFFFF)]) 3 0 = 1 := by decide +kernel
/-- S8: the average of -1 and 2 rounds up to 1; of -3 and -2 to -2 (R105). -/
theorem test_avg : laneOf (run (.avg 0 1 2 0) [(1, 0xFDFF), (2, 0xFE02)]) 1 0 = 0xFE01 := by decide +kernel
/-- S8: -128 shifted right by 200 is -1; N8 gives 0 (R108). -/
theorem test_shr_wide : laneOf (run (.shr 0 1 2 3 0) [(2, 0x80), (3, 200)]) 1 0 = 0xFF ∧ laneOf (run (.shr 4 1 2 3 0) [(2, 0x80), (3, 200)]) 1 0 = 0 := by decide +kernel
/-- Truth table 6 is the exclusive or (R107). -/
theorem test_lop_xor : laneOf (run (.lop 6 1 2 3 0) [(2, 0xFF00), (3, 0x0FF0)]) 1 0 = 0xF0F0 := by decide +kernel
/-- Position 8, length 8 (R109). -/
theorem test_bfx : laneOf (run (.bfx 1 2 3 0) [(2, 0x123456), (3, 0x0808)]) 1 0 = 0x34 ∧ laneOf (run (.bfxs 1 2 3 0) [(2, 0xF456), (3, 0x0808)]) 1 0 = 0xFFFFFFFFFFFFFFF4 := by decide +kernel
/-- Counts of 0 (R109). -/
theorem test_clz_ctz : laneOf (run (.clz 1 2 0) []) 1 0 = 64 ∧ laneOf (run (.ctz 1 2 0) [(2, 8)]) 1 0 = 3 := by decide +kernel
/-- F32: 1.5 x 2 + 0.5 = 3.5 (R114). -/
theorem test_fma : laneOf (run (.fma 2 1 2 3 0) [(1, 0x3F000000), (2, 0x3FC00000), (3, 0x40000000)]) 1 0 &&& 0xFFFFFFFF = 0x40600000 := by decide +kernel
/-- F64: 1 + 2^-60 rounds to 1 (R15, R114). -/
theorem test_add_rounds : laneOf (run (.faluAdd 3 1 2 3 0) [(2, 0x3FF0000000000000), (3, 0x3C30000000000000)]) 1 0 = 0x3FF0000000000000 := by decide +kernel
/-- F32 -1.5 to S32 under RNE is -2 (R117, R31). -/
theorem test_cvt : laneOf (run (.cvt 2 1 2 10 0) [(2, 0xBFC00000)]) 1 0 &&& 0xFFFFFFFF = 0xFFFFFFFE := by decide +kernel
/-- A saturating conversion to the same type still replaces the infinity by the largest finite value (R31). -/
theorem test_cvt_same_type : convert 10 10 .rn true 0x7F800000 = 0x7F7FFFFF ∧ convert 10 10 .rn false 0x7F800000 = 0x7F800000 := by decide +kernel
/-- Four products of 1 and 2 in each word, added to 5: 13 (R116). -/
theorem test_dot4 : laneOf (run (.dot4 0 1 2 3 0) [(1, 5), (2, 0x01010101), (3, 0x02020202)]) 1 0 &&& 0xFFFFFFFF = 13 := by decide +kernel
/-- The sum of 1 over 32 lanes (R121). -/
theorem test_reduce : laneOf (run (.reduce 7 1 2 0 0) [(2, 1)]) 1 9 = 32 := by decide +kernel
/-- An exclusive scan gives lane 3 the sum of lanes 0 to 2 (R122). -/
theorem test_scan : laneOf (run (.scan 7 1 2 1 0 0) [(2, 1)]) 1 3 = 3 := by decide +kernel
/-- BALLOT of p0 (R120). -/
theorem test_vote : laneOf (run (.vote 2 1 0 0) []) 1 5 = 0xFFFFFFFF := by decide +kernel
/-- -1 < 1 as S64, but not as N64 (R110). -/
theorem test_cmp : (grp (run (.cmp 3 2 1 2 3 0) [(2, 0xFFFFFFFFFFFFFFFF), (3, 1)])).pred 1 4 = 0xFF ∧
    (grp (run (.cmp 7 2 1 2 3 0) [(2, 0xFFFFFFFFFFFFFFFF), (3, 1)])).pred 1 4 = 0 := by decide +kernel
/-- A branch moves the PC by four times its displacement (R60, R131). -/
theorem test_bra : (grp (run (.bra 0xFFFFFF) [])).a.pc = 0xFFFC := by decide +kernel
/-- A call of 16 registers takes one granule and links behind itself (R136, R42). -/
theorem test_call : ((grp (run (.call 16 5) [])).a.pc, (grp (run (.call 16 5) [])).frames.length, ((run (.call 16 5) []).core 0).free.length) = (0x10014, 2, 239) := by decide +kernel
/-- A group without lanes drains (R135, R56). -/
theorem test_exit : (grp (run (.exit 0) [])).life = .draining := by decide +kernel
/-- TRAP stops the group behind itself with cause 0x20 (R163, R170). -/
theorem test_trap : (grp (run (.trap 7) [])).life = .stopped ∧ ((grp (run (.trap 7) [])).stop.map fun x => (x.record.cause.toNat % 256, x.record.resume)) = some (0x20, 0x10004) := by decide +kernel
/-- A word of major 0x1F stops with cause 0x01 at itself (R66, R171). -/
theorem test_illegal : ((grp (match step (State.reset.withFetchWord 32 0xF8000000) with
  | .next t => t
  | _ => State.reset)).stop.map fun x => (x.record.cause.toNat % 2 ^ 28, x.record.pc, NMap.get x.record.info 0 0)) = some (0x01, 0x10000, 0xF8000000) := by decide +kernel
/-- A hint of kind 5 stops with cause 0x01 and HINT, since cr.tpc names a hint word (R66, R170). -/
theorem test_hint_kind : ((grp (match step (State.reset.withFetchWord 32 0x0D000000) with
  | .next t => t
  | _ => State.reset)).stop.map fun x => (x.record.cause.toNat % 2 ^ 28, x.record.pc)) = some (0x04000001, 0x10000) := by decide +kernel
/-- An odd offset is misaligned: cause 0x10 and no load in flight (R140). -/
theorem test_load_misaligned : (grp (run (.ld 0 1 3 0 3) [(3, 0x11001)] fun s => s.onGroup 1 fun g => { g with pbase := 0x40000000 })).flight = [] ∧
    ((grp (run (.ld 0 1 3 0 3) [(3, 0x11001)] fun s => s.onGroup 1 fun g => { g with pbase := 0x40000000 })).stop.map fun x => x.record.cause.toNat % 256) = some 0x10 := by decide +kernel
/-- A store of two bytes is in flight with the low bytes of its lanes (R144), and once performed is seen by its own core, low byte first
(R346, R7). -/
theorem test_store : ((grp (run (.st 1 3 0 1) [(1, 0x123ABCD), (3, 0x11000)] fun s => s.onGroup 1 fun g => { g with pbase := 0x40000000 })).flight.map fun o =>
      match o.work with
      | .store 2 none 0 ls => ls.map fun a => a.operand
      | _ => []) = [List.replicate 32 0xABCD] ∧
    (match exec (.storePerformed 1 9) (flying .st (.store 2 none 0 [{ lane0 with operand := 0xABCD }])) with
      | .next t => (List.range 3).map fun i => t.viewByte 0 2 (0x11000 + i)
      | _ => []) = [0xCD, 0xAB, 0] := by decide +kernel
/-- A hint waits in its slot (R68). -/
theorem test_hint : (grp (run (.himm 5) [])).a.hints.length = 1 ∧ (grp (run (.himm 5) [])).a.pc = 0x10004 := by decide +kernel
/-- cr.lane (R52). -/
theorem test_crrd_lane : laneOf (run (.crrd 1 0) []) 1 17 = 17 := by decide +kernel
/-- 7 - 9 as scalars of the access stream (R155). -/
theorem test_yop : NMap.get (grp (run (.yopImm 1 2 1 9) [] fun s => s.onGroup 1 fun g => { g with y := [(2, 7)] })).y 0 1 = 0xFFFFFFFFFFFFFFFE := by decide +kernel
/-- ADONE ends the access stream (R152). -/
theorem test_adone : (grp (run .adone [])).accessLife = .done := by decide +kernel
/-- BURN takes at most 255 (R234). -/
theorem test_burn : (grp (run (.burn 2 0) [(2, 300)])).burn = 255 := by decide +kernel
/-- SYSCALL parks its slot (R162). -/
theorem test_syscall : (grp (run (.syscall 3) [])).a.life = .parked ∧ ((run (.syscall 3) []).host.ring 0).waiting.length = 1 := by decide +kernel
/-- FRET escalates a stopped group with a record (R175). -/
theorem test_fret : (grp (run .fretEscalate [])).stage = .escalated ∧ ((run .fretEscalate []).host.ring 1).waiting.length = 1 := by decide +kernel

/-! ### Hypotheses about steps -/

/-- The state of one listed turn. -/
def turning (s : State) (a : Act) : State := { s with sched := [{ act := a }] }

/-- What a step acts on: the state at its turn, settled, its time passed. -/
def elapsed (s : State) : State := s.nextTurn.2.settled.elapse s.nextTurn.1.ns

theorem env_at_of {s : State} {gid : Nat} {src : Source} {P : Env → Prop} [∀ e, Decidable (P e)]
    (h : ((s.envAt gid src).any fun e => decide (P e)) = true) : ∃ e, s.envAt gid src = some e ∧ P e := by
  cases he : s.envAt gid src with
  | none => simp [he] at h
  | some e => exact ⟨e, rfl, by simpa [he] using h⟩

/-- The word at the PC of a stream decodes, and no cache of the core holds it. -/
def fetchTest (s1 : State) (src : Source) (place : Nat) (i : Instr) : Bool := match s1.envAt 1 src with
  | none => false
  | some e =>
    let sa := s1.streamTurn e.g src
    let s2 := sa.touch e.who e.slot.pc.toNat .fetch
    s1.coreIssues e.g.core src && !(e.g.imbalance && e.g.boundary) && e.g.waitingQst.isNone && decide ((sa.fetchPlace e).toOption = some place) &&
      (NMap.find (s2.core e.g.core).icache (place / 4)).isNone && decide (decodeBytes (s2.readHome place 4) = .ok i)

theorem hyps_StepRunsDecoded :
    (let s := State.reset.withFetchWord 32 (encodeNat (.nop 5))
     let s1 := elapsed s
     s.nextTurn.1.act = .slot 1 .slotA ∧ s1.choice 0 0 (some (1, .slotA)) = some (1, .slotA) ∧ fetchTest s1 .slotA 0x10000 (.nop 5) = true) ∧
    (let s := State.reset.withFetchWord 32 (encodeNat .adone)
     s.nextTurn.1.act = .stream 1 ∧ (elapsed s).streamNext 0 = some 1 ∧ fetchTest (elapsed s) .access 0x10000 .adone = true) ∧
    (let s := (State.reset.withFetchWord 32 (encodeNat .adone)).onGroup 1 fun g => { g with
       flight := [⟨9, .qs, .access, false, .qst 0 0 0 0 8 none⟩] }
     let s1 := elapsed s
     s.nextTurn.1.act = .stream 1 ∧ s1.streamNext 0 = some 1 ∧ ∃ e, s1.envAt 1 .access = some e ∧ s1.coreIssues e.g.core .access = true ∧
       (e.g.imbalance && e.g.boundary) = false ∧ e.g.waitingQst.isSome = true) ∧
    (let s := turning (State.reset.withFetchWord 32 (encodeNat (.nop 5))) (.pipe 0 0)
     let s1 := elapsed s
     s.nextTurn.1.act = .pipe 0 0 ∧ s1.choice 0 0 none = some (1, .slotA) ∧ fetchTest s1 .slotA 0x10000 (.nop 5) = true) ∧
    (let s := (State.reset.withFetchWord 32 0).onCore 0 fun c => { c with icache := [(0x10000 / 4, 0xF8000000)] }
     let s1 := elapsed s
     ∃ g, s1.group? 1 = some g ∧ NMap.find (s1.core g.core).icache (0x10000 / 4) = some 0xF8000000 ∧ decode 0xF8000000 = .error .unassignedMajor) ∧
    (let s := turning State.reset (.event (.throttleRelease 3))
     s.nextTurn.1.act = .event (.throttleRelease 3) ∧ (Instr.throttleRelease 3).isWord = false) ∧
    (let s := turning (commandingOf State.reset 12 [5]) .command
     s.nextTurn.1.act = .command ∧ (elapsed s).nextCommand = some (commandRecord 12 [5])) := by
  refine ⟨by decide +kernel, by decide +kernel, ⟨by decide +kernel, by decide +kernel, ?_⟩, by decide +kernel, group_of (by decide +kernel),
    by decide +kernel, by decide +kernel⟩
  exact env_at_of (P := fun e => (elapsed _).coreIssues e.g.core .access = true ∧ (e.g.imbalance && e.g.boundary) = false ∧ e.g.waitingQst.isSome = true)
    (by decide +kernel)

/-- A step that answers a next state from a state whose memory is canonical and whose operations have fresh identifiers. -/
theorem hyps_invariants :
    let s := State.reset.withFetchWord 32 (encodeNat (.nop 5))
    s.MemoryCanonical ∧ s.Fresh ∧ (match step s with
      | .next _ => true
      | _ => false) = true := by
  refine ⟨by unfold State.MemoryCanonical; decide +kernel, ⟨by decide +kernel, by decide +kernel⟩, by decide +kernel⟩

theorem hyps_DecodeAndEncodeAgree : (Instr.atomCas 15 21 42 7 2 1).wellFormed = true ∧ (∃ w i, decode w = .ok i) :=
  ⟨by decide, 0, .illegal 0, by decide +kernel⟩

theorem hyps_LittleEndianMemory : isAdobe 0x7FFFFFFFFF = false ∧ (0x7FFFFFFFFF < 0x8000000000 ∨ 0x8000000000 + 8 ≤ 0x7FFFFFFFFF) := by decide +kernel

end Sys2Proof.Tests
end

section
/-! What a byte at its home depends on, and writes of runs of bytes (R7, R317). -/

namespace Sys2Proof.Machine

/-! ### What a home byte depends on -/

/-- What the bytes at their homes depend on: memory, L2, the dies with their ADOBEBT, the teams with their allotments, and the on-chip
memories of the cores. -/
def State.homeStore (s : State) : List Host.Cell × NMap Byte × NMap Die × NMap Team × (Nat → NMap Byte × NMap Byte × NMap Byte) :=
  (s.mem, s.l2, s.dies, s.teams, fun c => ((s.core c).scratch, (s.core c).tile, (s.core c).acc))

theorem State.homeByte_eq_of_homeStore {s t : State} (h : t.homeStore = s.homeStore) (p : Nat) : t.homeByte p = s.homeByte p := by
  simp only [State.homeStore, Prod.mk.injEq, funext_iff] at h
  obtain ⟨hmem, hl2, hdies, hteams, hcores⟩ := h
  have hdie : ∀ d, t.die d = s.die d := fun d => by simp only [State.die, hdies]
  have hchip : ∀ p, t.chipByte p = s.chipByte p := fun p => by
    obtain ⟨hscratch, htile, hacc⟩ := hcores ((p - chipBase) / 2 ^ 24)
    simp only [State.chipByte, State.allotmentAt, hscratch, htile, hacc, hteams]
  have hword : ∀ p, t.memWord p = s.memWord p := fun p => by simp only [State.memWord, State.memByte, hl2, hmem]
  have htable : t.adobeTable = s.adobeTable := by simp only [State.adobeTable, State.online, hdie]
  have hplace : t.memPlace p = s.memPlace p := by
    unfold State.memPlace State.backing
    rw [htable, hword]
  unfold State.homeByte State.memByte
  rw [hchip, hplace, hmem, hl2]

/-- A fold of operations that leave a part of the state leaves it. -/
theorem foldl_view {α β : Type} (view : State → β) (f : State → α → State) (h : ∀ s a, view (f s a) = view s) (l : List α) (s : State) :
    view (l.foldl f s) = view s := by
  induction l generalizing s with
  | nil => rfl
  | cons a l ih => rw [List.foldl_cons, ih, h]

/-- A change of a core outside its memories leaves every home byte. -/
theorem State.onCore_homeStore (s : State) (c : Nat) (f : Core → Core)
    (h : ∀ k, (f k).scratch = k.scratch ∧ (f k).tile = k.tile ∧ (f k).acc = k.acc) : (s.onCore c f).homeStore = s.homeStore := by
  simp only [State.homeStore, State.onCore_mem, State.onCore_l2, State.onCore_dies, State.onCore_teams, Prod.mk.injEq, true_and]
  funext j
  by_cases hj : j = c
  · obtain ⟨hscratch, htile, hacc⟩ := h (s.core c)
    subst hj
    simp only [State.core_onCore, hscratch, htile, hacc]
  · simp only [State.core_onCore_ne _ _ hj]

@[simp] theorem State.setHomePoison_homeStore (s : State) (p : Nat) (b : BitVec 2) : (s.setHomePoison p b).homeStore = s.homeStore := by
  unfold State.setHomePoison
  split
  · rfl
  · split <;> rfl

/-- What a change of an on-chip word's mark does to its core. -/
def Core.setMark (off : Nat) (bad : Bool) (c : Core) : Core :=
  if off < 0x200000 then { c with scratchPoison := NMap.store c.scratchPoison false (off / 8) bad }
  else if off < 0x400000 then { c with tilePoison := NMap.store c.tilePoison false ((off - 0x200000) / 8) bad }
  else { c with accPoison := NMap.store c.accPoison false ((off - 0x400000) / 8) bad }

theorem Core.setMark_memories (off : Nat) (bad : Bool) (c : Core) :
    (c.setMark off bad).scratch = c.scratch ∧ (c.setMark off bad).tile = c.tile ∧ (c.setMark off bad).acc = c.acc := by
  unfold Core.setMark
  split
  · exact ⟨rfl, rfl, rfl⟩
  · split <;> exact ⟨rfl, rfl, rfl⟩

theorem State.setHomeBad_eq_onCore (s : State) {p : Nat} (b : Bool) (h : isChip p = true) :
    s.setHomeBad p b = s.onCore ((p - chipBase) / 2 ^ 24) (Core.setMark ((p - chipBase) % 2 ^ 24) b) := by
  rw [State.setHomeBad, if_pos h]
  rfl

@[simp] theorem State.setHomeBad_homeStore (s : State) (p : Nat) (b : Bool) : (s.setHomeBad p b).homeStore = s.homeStore := by
  by_cases h : isChip p = true
  · rw [State.setHomeBad_eq_onCore s b h, State.onCore_homeStore s _ _ (Core.setMark_memories _ b)]
  · rw [State.setHomeBad, if_neg h, State.setHomePoison_homeStore]

@[simp] theorem State.giveUp_homeStore (s : State) (l : Nat) (k : Option Nat) : (s.giveUp l k).homeStore = s.homeStore := rfl

@[simp] theorem State.takeWay_homeStore (s : State) (l : Nat) (a : Access) : (s.takeWay l a).homeStore = s.homeStore := rfl

@[simp] theorem State.reinstall_homeStore (s : State) (l : Nat) : (s.reinstall l).homeStore = s.homeStore := by
  unfold State.reinstall
  split
  · exact foldl_view _ _ (fun s _ => State.setHomeBad_homeStore s _ _) _ _
  · rfl

@[simp] theorem State.noteWriter_homeStore (s : State) (l : Nat) (a : Access) : (s.noteWriter l a).homeStore = s.homeStore := by
  unfold State.noteWriter
  split <;> rfl

@[simp] theorem State.reportAccess_homeStore (s : State) (p : Nat) (a : Access) : (s.reportAccess p a).homeStore = s.homeStore := by
  unfold State.reportAccess
  split <;> rfl

@[simp] theorem State.noteAccess_homeStore (s : State) (p : Nat) (a : Access) : (s.noteAccess p a).homeStore = s.homeStore := by
  unfold State.noteAccess
  split
  · exact State.reportAccess_homeStore s p a
  · rfl

@[simp] theorem State.noteFrame_homeStore (s : State) (p : Nat) (a : Access) : (s.noteFrame p a).homeStore = s.homeStore := by
  unfold State.noteFrame
  split
  · exact State.reportAccess_homeStore s _ a
  · rfl

@[simp] theorem State.touchWay_homeStore (s : State) (p : Nat) (a : Access) : (s.touchWay p a).homeStore = s.homeStore := by
  unfold State.touchWay
  dsimp only
  split
  · rfl
  · split <;> rfl

theorem State.install_homeStore_of_isAdobe (s : State) (p : Nat) (a : Access) (h : isAdobe p = true) :
    (s.install p a).homeStore = s.homeStore := by
  unfold State.install
  rw [if_pos h]
  dsimp only
  have hnoted : ((s.reinstall (lineOf p)).noteWriter (lineOf p) a).homeStore = s.homeStore := by simp
  generalize (s.reinstall (lineOf p)).noteWriter (lineOf p) a = u at hnoted ⊢
  have htouched : ((u.noteFrame p a).touchWay p a).homeStore = s.homeStore := by simp [hnoted]
  split
  · split
    · exact htouched
    · simp [hnoted]
  · split
    · exact hnoted
    · split
      · simp only [State.touchWay_homeStore, State.noteFrame_homeStore]
        exact hnoted
      · exact hnoted

@[simp] theorem State.install_homeStore (s : State) (p : Nat) (a : Access) : (s.install p a).homeStore = s.homeStore := by
  by_cases h : isAdobe p = true
  · exact State.install_homeStore_of_isAdobe s p a h
  · unfold State.install
    rw [if_neg h]
    split
    · simp
    · rfl

/-! ### Bytes at different places -/

theorem isChip_iff {p : Nat} : isChip p = true ↔ 0xFFFFFF8000000000 ≤ p := by
  rw [isChip, decide_eq_true_eq, chipBase]

theorem isAdobe_iff {p : Nat} : isAdobe p = true ↔ 0x8000000000 ≤ p ∧ p < 0x10000000000 := by
  rw [isAdobe, Bool.and_eq_true, decide_eq_true_eq, decide_eq_true_eq, adobeBase]

theorem isHost_iff {p : Nat} : isHost p = true ↔ 0x0100000000000000 ≤ p ∧ p < 0x0200000000000000 := by
  rw [isHost, Bool.and_eq_true, decide_eq_true_eq, decide_eq_true_eq, hostBase]

/-- A place in adobe space is no on-chip place and none in host memory. -/
theorem not_isChip_not_isHost_of_isAdobe {p : Nat} (h : isAdobe p = true) : ¬ isChip p = true ∧ ¬ isHost p = true := by
  rw [isChip_iff, isHost_iff]
  rw [isAdobe_iff] at h
  omega

/-- Two on-chip places of one core lie at different offsets. -/
theorem chipOffset_ne {p y : Nat} (hp : isChip p = true) (hy : isChip y = true) (h : y ≠ p)
    (hc : (y - chipBase) / 2 ^ 24 = (p - chipBase) / 2 ^ 24) : (y - chipBase) % 2 ^ 24 ≠ (p - chipBase) % 2 ^ 24 := by
  simp only [isChip, decide_eq_true_eq] at hp hy
  omega

theorem State.chipByte_setChipByte_ne (s : State) {p y : Nat} (b : Byte) (hp : isChip p = true) (hy : isChip y = true) (h : y ≠ p) :
    (s.setChipByte p b).chipByte y = s.chipByte y := by
  unfold State.setChipByte State.chipByte
  dsimp only
  by_cases hc : (y - chipBase) / 2 ^ 24 = (p - chipBase) / 2 ^ 24
  · have hoff := chipOffset_ne hp hy h hc
    rw [hc, State.core_onCore]
    generalize (y - chipBase) % 2 ^ 24 = oy at *
    generalize (p - chipBase) % 2 ^ 24 = op at *
    by_cases hp1 : op < 0x200000
    · simp only [hp1, ↓reduceIte, NMap.find_put_ne _ _ hoff]
      rfl
    by_cases hp2 : op < 0x400000
    · by_cases hy1 : oy < 0x200000
      · simp only [hp1, hp2, hy1, ↓reduceIte]
        rfl
      · have hne : oy - 0x200000 ≠ op - 0x200000 := by omega
        simp only [hp1, hp2, hy1, ↓reduceIte, NMap.get_store_ne _ _ _ hne]
    · by_cases hy2 : oy < 0x400000
      · simp only [hp1, hp2, hy2, ↓reduceIte]
        rfl
      · have hne : oy - 0x400000 ≠ op - 0x400000 := by omega
        have hy1 : ¬ oy < 0x200000 := by omega
        simp only [hp1, hp2, hy1, hy2, ↓reduceIte, NMap.get_store_ne _ _ _ hne]
  · rw [State.core_onCore_ne _ _ hc]
    rfl

/-- A write of one byte of memory leaves the others. -/
theorem State.memByte_setMemByte_ne (s : State) {p y : Nat} (b : Byte) (h : y ≠ p) : (s.setMemByte p b).memByte y = s.memByte y := by
  unfold State.setMemByte
  split
  · rfl
  · exact NMap.get_store_ne s.mem unlistedByte b h

@[simp] theorem State.setMemByte_l2 (s : State) (p : Nat) (b : Byte) : (s.setMemByte p b).l2 = s.l2 := by
  unfold State.setMemByte
  split <;> rfl

/-- Host memory and L2 hold no on-chip byte. -/
theorem State.chipByte_setHomeByte (s : State) {p : Nat} (b : Byte) (h : ¬ isChip p = true) (y : Nat) :
    (s.setHomeByte p b).chipByte y = s.chipByte y := by
  unfold State.setHomeByte State.setMemByte
  rw [if_neg h]
  split
  · split <;> rfl
  · rfl

/-- A home byte of L2 or of memory, where the place is not in adobe space or L2 holds it. -/
theorem State.homeByte_eq_find (s : State) {y : Nat} (hc : ¬ isChip y = true) (hh : ¬ isHost y = true)
    (hy : isAdobe y = true → (NMap.find s.l2 y).isSome = true) : s.homeByte y = (NMap.find s.l2 y).getD (s.memByte y) := by
  unfold State.homeByte State.memPlace
  rw [if_neg hc, if_neg hh]
  cases hfind : NMap.find s.l2 y with
  | some b => rfl
  | none =>
    have hna : ¬ isAdobe y = true := fun ha => by simpa [hfind] using hy ha
    rw [if_neg hna]
    rfl

theorem State.find_l2_setHomeByte_ne (s : State) {p y : Nat} (b : Byte) (h : y ≠ p) :
    NMap.find (s.setHomeByte p b).l2 y = NMap.find s.l2 y := by
  unfold State.setHomeByte
  split
  · rfl
  · split
    · rw [State.setMemByte_l2]
    · exact NMap.find_put_ne s.l2 b h

theorem State.memByte_setHomeByte_ne (s : State) {p y : Nat} (b : Byte) (h : y ≠ p) : (s.setHomeByte p b).memByte y = s.memByte y := by
  unfold State.setHomeByte
  split
  · rfl
  · split
    · exact State.memByte_setMemByte_ne s b h
    · rfl

/-- A byte written leaves every other; one in adobe space that L2 does not hold may change with the backing table (log 48). -/
theorem State.homeByte_setHomeByte_ne (s : State) {p y : Nat} (b : Byte) (h : y ≠ p)
    (hy : isAdobe y = true → (NMap.find s.l2 y).isSome = true) : (s.setHomeByte p b).homeByte y = s.homeByte y := by
  have hfind := State.find_l2_setHomeByte_ne s b h
  have hmem := State.memByte_setHomeByte_ne s b h
  by_cases hc : isChip y = true
  · have hchip : (s.setHomeByte p b).chipByte y = s.chipByte y := by
      by_cases hp : isChip p = true
      · rw [State.setHomeByte, if_pos hp]
        exact State.chipByte_setChipByte_ne s b hp hc h
      · exact State.chipByte_setHomeByte s b hp y
    rw [State.homeByte, State.homeByte, if_pos hc, if_pos hc, hchip]
  by_cases hh : isHost y = true
  · rw [State.homeByte, State.homeByte, if_neg hc, if_neg hc, if_pos hh, if_pos hh, hmem]
  · rw [State.homeByte_eq_find s hc hh hy, State.homeByte_eq_find _ hc hh (by rwa [hfind]), hfind, hmem]

/-- A byte in adobe space that is written is held by L2. -/
theorem State.find_l2_setHomeByte_self (s : State) {p : Nat} (b : Byte) (h : isAdobe p = true) :
    NMap.find (s.setHomeByte p b).l2 p = some b := by
  obtain ⟨hc, hh⟩ := not_isChip_not_isHost_of_isAdobe h
  rw [State.setHomeByte, if_neg hc, if_neg hh]
  exact NMap.find_put_self s.l2 p b

/-! ### Runs of bytes -/

/-- Writes bytes one after the other from a place on. -/
def State.setHomeRun (s : State) (place : Nat) (bytes : List Byte) : State :=
  (bytes.zipIdx place).foldl (fun s e => s.setHomeByte e.2 e.1) s

theorem State.setHomeRun_cons (s : State) (place : Nat) (b : Byte) (bytes : List Byte) :
    s.setHomeRun place (b :: bytes) = (s.setHomeByte place b).setHomeRun (place + 1) bytes := rfl

/-- A run leaves the bytes beside it. -/
theorem State.homeByte_setHomeRun_beside (s : State) (place : Nat) (bytes : List Byte) {y : Nat}
    (h : y < place ∨ place + bytes.length ≤ y) (hy : isAdobe y = true → (NMap.find s.l2 y).isSome = true) :
    (s.setHomeRun place bytes).homeByte y = s.homeByte y := by
  induction bytes generalizing s place with
  | nil => rfl
  | cons b bytes ih =>
    rw [List.length_cons] at h
    have hne : y ≠ place := by omega
    rw [State.setHomeRun_cons, ih _ _ (by omega) (by rwa [State.find_l2_setHomeByte_ne s b hne]), State.homeByte_setHomeByte_ne s b hne hy]

/-- A run leaves its bytes in order. -/
theorem State.homeByte_setHomeRun (s : State) (place : Nat) (bytes : List Byte) {j : Nat} (h : j < bytes.length) :
    (s.setHomeRun place bytes).homeByte (place + j) = bytes[j] := by
  induction bytes generalizing s place j with
  | nil => exact absurd h (Nat.not_lt_zero j)
  | cons b bytes ih =>
    rw [State.setHomeRun_cons]
    cases j with
    | zero =>
      have hheld : isAdobe place = true → (NMap.find (s.setHomeByte place b).l2 place).isSome = true := fun ha => by
        rw [State.find_l2_setHomeByte_self s b ha, Option.isSome_some]
      exact (State.homeByte_setHomeRun_beside _ _ bytes (Or.inl (Nat.lt_add_one place)) hheld).trans (State.homeByte_setHomeByte s place b)
    | succ j =>
      rw [show place + (j + 1) = place + 1 + j by omega]
      exact ih _ _ (Nat.lt_of_succ_lt_succ h)

/-- A write at home is a run of bytes, begun in a state with the same home bytes and followed by changes of marks and tags. -/
theorem State.writeHome_homeStore (s : State) (place : Nat) (bytes : List Byte) (bad : Bool) (a : Access) (k : Option Nat) :
    ∃ s0 : State, s0.homeStore = s.homeStore ∧
      (s.writeHome place bytes bad a k).homeStore = (s0.setHomeRun place bytes).homeStore := by
  refine ⟨(firstInLines place bytes.length).foldl (fun s p => s.install p { a with write := true }) s,
    foldl_view _ _ (fun s _ => State.install_homeStore s _ _) _ _, ?_⟩
  unfold State.writeHome
  dsimp only
  rw [apply_ite State.homeStore, foldl_view _ _ (fun s _ => State.giveUp_homeStore s _ k), ite_self]
  refine foldl_view _ _ (fun s w => ?_) _ _
  split
  · exact State.setHomeBad_homeStore s _ _
  · split
    · exact State.setHomeBad_homeStore s _ _
    · split
      · rfl
      · exact State.setHomePoison_homeStore s _ _

theorem State.homeByte_writeHome (s : State) (place : Nat) (bytes : List Byte) (bad : Bool) (a : Access) (k : Option Nat) {j : Nat}
    (h : j < bytes.length) : (s.writeHome place bytes bad a k).homeByte (place + j) = bytes[j] := by
  obtain ⟨s0, -, hrun⟩ := State.writeHome_homeStore s place bytes bad a k
  rw [State.homeByte_eq_of_homeStore hrun, State.homeByte_setHomeRun s0 place bytes h]

theorem State.homeByte_writeHome_beside (s : State) (place : Nat) (bytes : List Byte) (bad : Bool) (a : Access) (k : Option Nat) {y : Nat}
    (hy : isAdobe y = false) (h : y < place ∨ place + bytes.length ≤ y) :
    (s.writeHome place bytes bad a k).homeByte y = s.homeByte y := by
  obtain ⟨s0, hs0, hrun⟩ := State.writeHome_homeStore s place bytes bad a k
  rw [State.homeByte_eq_of_homeStore hrun, State.homeByte_setHomeRun_beside s0 place bytes h (by simp [hy]),
    State.homeByte_eq_of_homeStore hs0]

/-! ### Little-endian numbers -/

@[simp] theorem length_bytesOf (n count : Nat) : (bytesOf n count).length = count := by
  induction count generalizing n with
  | zero => rfl
  | succ count ih => rw [bytesOf, List.length_cons, ih]

theorem toNat_getElem_bytesOf (n count : Nat) {j : Nat} (h : j < (bytesOf n count).length) :
    (bytesOf n count)[j].toNat = n / 256 ^ j % 256 := by
  induction count generalizing n j with
  | zero => exact absurd h (Nat.not_lt_zero j)
  | succ count ih =>
    cases j with
    | zero => simp [bytesOf]
    | succ j =>
      have hstep : (bytesOf (n / 256) count)[j]'(Nat.lt_of_succ_lt_succ h) = (bytesOf n (count + 1))[j + 1] := rfl
      rw [← hstep, ih, Nat.div_div_eq_div_mul, Nat.pow_succ']

/-- A number of bytes is their sum, each by its power of 256. -/
theorem numOf_map_range (f : Nat → Byte) (count : Nat) :
    numOf ((List.range count).map f) = ((List.range count).map fun j => (f j).toNat * 256 ^ j).sum := by
  induction count generalizing f with
  | zero => rfl
  | succ count ih =>
    have hshift : ((List.range count).map fun j => (f (j + 1)).toNat * 256 ^ (j + 1)) =
        (List.range count).map fun j => 256 * ((f (j + 1)).toNat * 256 ^ j) := by
      refine List.map_congr_left fun j _ => ?_
      rw [Nat.pow_succ']
      ring
    rw [List.range_succ_eq_map, List.map_cons, List.map_map, List.map_cons, List.map_map, List.sum_cons, numOf]
    have hrest := ih fun j => f (j + 1)
    simp only [Function.comp_def, Nat.succ_eq_add_one, hshift, List.sum_map_mul_left, hrest]
    simp

/-- The first byte of a word is its lowest (R7, R60). -/
theorem wordOfBytes_eq_ofNat (b0 b1 b2 b3 : Byte) :
    wordOfBytes b0 b1 b2 b3 = BitVec.ofNat 32 (b0.toNat + 256 * b1.toNat + 256 ^ 2 * b2.toNat + 256 ^ 3 * b3.toNat) := by
  have append {m : Nat} (hi : BitVec m) (lo : Byte) : (hi ++ lo).toNat = 256 * hi.toNat + lo.toNat := by
    rw [BitVec.toNat_append, ← Nat.shiftLeft_add_eq_or_of_lt lo.isLt, Nat.shiftLeft_eq, Nat.mul_comm]
  apply BitVec.eq_of_toNat_eq
  have h0 := b0.isLt
  have h1 := b1.isLt
  have h2 := b2.isLt
  have h3 := b3.isLt
  rw [wordOfBytes, append, append, append, BitVec.toNat_ofNat]
  omega

/-- Settles O58: a write is a run of single bytes at different places, a number is the sum of its bytes, and a word the bytes joined. -/
theorem littleEndianMemory : Obligations.LittleEndianMemory := by
  unfold Obligations.LittleEndianMemory
  refine ⟨fun s place n count bad => ⟨fun j hj => ?_, fun y hy hbeside => ?_⟩, fun s place count => ?_, fun b0 b1 b2 b3 => ?_⟩
  · rw [State.homeByte_writeHome s place _ bad {} none (by rwa [length_bytesOf]), toNat_getElem_bytesOf]
  · exact State.homeByte_writeHome_beside s place _ bad {} none hy (by rwa [length_bytesOf])
  · rw [State.homeNum, State.readHome, spread, List.map_map]
    exact numOf_map_range _ count
  · rw [decodeBytes, wordOfBytes_eq_ofNat]

end Sys2Proof.Machine
end

section
/-! A request slot whose eviction takes a late frame (R318, R322, R323, R331). -/

namespace Sys2Proof.Machine

/-- The adobe page of context 0 at the first identity, 2 MiB from virtual address 0x200000. -/
def latePage : Adobe := { ctx := 0, base := adobeBase, bytes := 2 ^ 21, va := 0x200000 }

/-- The miss that waits for stack 0. -/
def waitingMiss : HbmRequest := { line := 0x4b9de7, traffic := .management, fill := true }

/-- The normal lines of the miss's set, most recently used first: last an unreserved line of the adobe page. -/
def fullWays : List L2Line :=
  [0x2fcbf, 0x356d5, 0x41705, 0x60481, 0xac5b1, 0xc6619, 0xc9124, 0x21284a, 0x24c731, 0x263f8f, 0x2792e4, 0x34390e, 0x355956,
    0x4cad2b, 0x526499, lineOf adobeBase].map fun l => { line := l }

/-- Writes an aligned 64-bit word of memory. -/
def State.pokeWord (s : State) (w : Nat × Nat) : State := ((bytesOf w.2 8).zipIdx w.1).foldl (fun s e => s.setMemByte e.2 e.1) s

/-- Context 0: its descriptor, a table that maps the adobe page with FB set, and a pool with one frame. -/
def lateWords : List (Nat × Nat) :=
  [(0x8000, 2 ^ 63), (0x8008, 0x100), (0x8010, 0xC000 / 64), (0xC000, 0xD000), (0xC008, 1), (0xD000, 0x300000),
    (0x100000, 0x101001), (0x101000, 0x102001), (0x102000, 0x103001), (0x103008, 2 ^ 59 + adobeBase + 0x4F)]

/-- A miss waits for a set whose victim is a dirty adobe line without a frame. -/
def lateFrameState : State :=
  { lateWords.foldl State.pokeWord State.reset with
    host := { ctxTable := 0x8000 }
    dies := (List.range 4).map fun d => (d, { regs := [(0x500, 0x4000000)] })
    adobes := [latePage], unreserved := [lineOf adobeBase], l2 := [(adobeBase, 1)]
    l2ways := [(State.reset.wayKey waitingMiss.line, fullWays)], hbmQueue := [waitingMiss] }

/-- The requests that wait after an instruction. -/
def queueAfter (i : Instr) (s : State) : List HbmRequest := match exec i s with
  | .next t => t.hbmQueue
  | _ => []

/-- The miss on the pool's COUNT, which a late frame decrements. -/
def poolMiss : HbmRequest := { line := lineOf 0xC008, traffic := .management, fill := true, writer := some .management }

/-- Eviction of the adobe line takes a late frame: the pool and the backing table are written, and both miss L2, so two fills join
the queue before the write-back (R318, R322, R331). -/
theorem queueAfter_lateFrameState : queueAfter (.hbmRequestSlot 0 0) lateFrameState =
    [poolMiss, { poolMiss with line := lineOf 0x4000000 }, { line := lineOf adobeBase, traffic := .management, fill := false }] := by
  decide +kernel

theorem lateFrameState_mine :
    (lateFrameState.hbmQueue.filter fun r => (lateFrameState.stackOf r.line).isSome).filter
      (fun r => lateFrameState.stackOf r.line == some 0) = [waitingMiss] := by decide +kernel

/-- Refutes O49: the queue is said to gain only write-backs beside what it loses, but the line that a served miss evicts may be an adobe
line that takes a late frame, and then the misses on the pool and on the backing table join the queue as fills. -/
theorem not_registerEvents : ¬ Obligations.RegisterEvents := by
  unfold Obligations.RegisterEvents
  rintro ⟨-, -, hslot, -, -⟩
  obtain ⟨t, ht, -, hmanaged, -⟩ := (hslot lateFrameState 0 0).2 (by decide)
  have honly : ∀ r ∈ [waitingMiss], r.traffic = .management := by simp [waitingMiss]
  obtain ⟨⟨r, rest, -, hqueue, hrest, -⟩, -⟩ := hmanaged
    ⟨⟨waitingMiss, lateFrameState_mine ▸ List.mem_singleton_self _, rfl⟩, Or.inl (lateFrameState_mine ▸ honly)⟩
  have hafter : queueAfter (.hbmRequestSlot 0 0) lateFrameState = t.hbmQueue := by rw [queueAfter, ht]
  have hfill : poolMiss ∈ t.hbmQueue := by rw [← hafter, queueAfter_lateFrameState]; exact List.mem_cons_self
  rw [hqueue, List.mem_append] at hfill
  rcases hfill with hold | hnew
  · have hin := (List.mem_filter.1 (List.mem_of_mem_erase hold)).1
    exact absurd hin (by decide)
  · exact absurd (hrest _ hnew) (by decide)

end Sys2Proof.Machine
end

section
/-! How the integer types read a sub-element's code, and the ends of their ranges (R12). -/

namespace Sys2Proof.Machine

/-! ### Widths and kinds -/

theorem widthOf_int {k : Nat} (hk : k < 4) : widthOf k = 2 ^ (k + 3) := by
  interval_cases k <;> rfl

theorem widthOf_nat {k : Nat} (hk : k < 4) : widthOf (4 + k) = 2 ^ (k + 3) := by
  interval_cases k <;> rfl

theorem intOf_int {k : Nat} (hk : k < 4) (n : Nat) : intOf k n = signedOf (2 ^ (k + 3)) n := by
  have hkind : kindOf k = .int := if_pos hk
  rw [intOf, if_pos hkind, widthOf_int hk]

theorem intOf_nat {k : Nat} (hk : k < 4) (n : Nat) : intOf (4 + k) n = (n % 2 ^ 2 ^ (k + 3) : Nat) := by
  have hkind : kindOf (4 + k) = .nat := by rw [kindOf, if_neg (by omega), if_pos (by omega)]
  rw [intOf, hkind, if_neg (by decide), widthOf_nat hk]

/-! ### The signed reading -/

/-- The signed reading is two's complement: the codes with the top bit set stand for themselves less 2^w. -/
theorem signedOf_eq_toInt {w : Nat} (hw : 0 < w) (n : Nat) : signedOf w n = (BitVec.ofNat w n).toInt := by
  have hhalf : n % 2 ^ w < 2 ^ (w - 1) ↔ 2 * (n % 2 ^ w) < 2 ^ w := by
    rw [← Nat.two_pow_pred_mul_two hw]
    omega
  rw [signedOf, BitVec.toInt_eq_toNat_cond, BitVec.toNat_ofNat, if_congr hhalf rfl rfl]

theorem neg_two_pow_le_signedOf {w : Nat} (hw : 0 < w) (n : Nat) : -(2 ^ (w - 1)) ≤ signedOf w n := by
  rw [signedOf_eq_toInt hw]
  exact BitVec.le_toInt _

theorem signedOf_le_two_pow_sub_one {w : Nat} (hw : 0 < w) (n : Nat) : signedOf w n ≤ 2 ^ (w - 1) - 1 := by
  rw [signedOf_eq_toInt hw]
  exact Int.le_sub_one_of_lt BitVec.toInt_lt

/-- The code with the top bit alone is the least. -/
theorem signedOf_two_pow_pred {w : Nat} (hw : 0 < w) : signedOf w (2 ^ (w - 1)) = -(2 ^ (w - 1)) := by
  have hmod : 2 ^ (w - 1) % 2 ^ w = 2 ^ (w - 1) := Nat.mod_eq_of_lt (Nat.two_pow_pred_lt_two_pow hw)
  rw [signedOf, hmod, if_neg (Nat.lt_irrefl _), ← Nat.two_pow_pred_mul_two hw]
  push_cast
  ring

/-- The code with every bit but the top one is the greatest. -/
theorem signedOf_two_pow_pred_sub_one {w : Nat} (hw : 0 < w) : signedOf w (2 ^ (w - 1) - 1) = 2 ^ (w - 1) - 1 := by
  have hpos := Nat.two_pow_pos (w - 1)
  have hlow : 2 ^ (w - 1) - 1 < 2 ^ (w - 1) := Nat.sub_one_lt_of_lt hpos
  have hmod : (2 ^ (w - 1) - 1) % 2 ^ w = 2 ^ (w - 1) - 1 := Nat.mod_eq_of_lt (hlow.trans (Nat.two_pow_pred_lt_two_pow hw))
  rw [signedOf, hmod, if_pos hlow]
  push_cast [hpos]
  rfl

/-! ### The unsigned reading -/

theorem mod_two_pow_le_cast (w n : Nat) : ((n % 2 ^ w : Nat) : Int) ≤ 2 ^ w - 1 := by
  refine Int.le_sub_one_of_lt ?_
  exact_mod_cast Nat.mod_lt n (Nat.two_pow_pos w)

theorem two_pow_sub_one_mod_cast (w : Nat) : (((2 ^ w - 1) % 2 ^ w : Nat) : Int) = 2 ^ w - 1 := by
  have hpos := Nat.two_pow_pos w
  rw [Nat.mod_eq_of_lt (Nat.sub_one_lt_of_lt hpos)]
  push_cast [hpos]
  rfl

/-- Settles O59: the codes 0 to 3 go through the signed reading of their width, the codes 4 to 7 through the remainder by 2^w. -/
theorem integerRanges : Obligations.IntegerRanges := by
  unfold Obligations.IntegerRanges
  intro k hk w
  have hw : 0 < w := Nat.two_pow_pos (k + 3)
  have hint : ∀ n, intOf k n = signedOf w n := intOf_int hk
  have hnat : ∀ n, intOf (4 + k) n = (n % 2 ^ w : Nat) := intOf_nat hk
  refine ⟨widthOf_int hk, widthOf_nat hk, fun n => ?_, ?_, ?_, fun n => ?_, ?_, ?_⟩
  · rw [hint]
    exact ⟨signedOf_eq_toInt hw n, neg_two_pow_le_signedOf hw n, signedOf_le_two_pow_sub_one hw n⟩
  · rw [hint, signedOf_two_pow_pred hw]
  · rw [hint, signedOf_two_pow_pred_sub_one hw]
  · rw [hnat, BitVec.toNat_ofNat]
    exact ⟨rfl, Int.natCast_nonneg _, mod_two_pow_le_cast w n⟩
  · rw [hnat, Nat.zero_mod, Nat.cast_zero]
  · rw [hnat, two_pow_sub_one_mod_cast]

end Sys2Proof.Machine
end

section
/-! The word of a row that the decoder answers is the word it has read (R60 to R64, R66). The fields and the fixed bits of a row cover the word
from bit 0 to bit 31, so the word is the sum of its pieces: each piece is what the word has below its end, less what it has below its
beginning. -/

namespace Sys2Proof.Laws

/-! ### Pieces of a word -/

/-- The part of a word below bit k. -/
def low (w k : Nat) : Nat := w % 2 ^ k

theorem low_zero (w : Nat) : low w 0 = 0 := Nat.mod_one w

theorem low_add (w lo n : Nat) : low w (lo + n) = low w lo + w / 2 ^ lo % 2 ^ n * 2 ^ lo := by
  rw [low, low, Nat.pow_add, Nat.mod_mul, Nat.mul_comm (2 ^ lo)]

theorem cast_place_fieldAt (n lo w : Nat) : (place (fieldAt n lo w) lo : Int) = low w (lo + n) - low w lo := by
  rw [low_add, place, fieldAt, BitVec.toNat_ofNat]
  push_cast
  ring

theorem bits_eq_iff {w hi lo v : Nat} (h : lo ≤ hi + 1) : bits w hi lo = v ↔ low w (hi + 1) = low w lo + v * 2 ^ lo := by
  obtain ⟨n, hn⟩ := Nat.exists_eq_add_of_le h
  rw [bits, hn, low_add, Nat.add_left_cancel_iff, Nat.mul_left_inj (Nat.two_pow_pos lo).ne', Nat.add_sub_cancel_left]

theorem eq_low_add_major {w : Nat} (hw : w < 2 ^ 32) : w = low w 27 + bits w 31 27 * 2 ^ 27 := by
  rw [low, bits]
  omega

/-! ### Rows that read back -/

/-- The row answered, if any, has the word w. -/
def ReadsBack (w : Nat) (o : Option Instr) : Prop := ∀ i, o = some i → encodeNat i = w

theorem readsBack_none (w : Nat) : ReadsBack w none := fun _ h => nomatch h

theorem readsBack_some {w : Nat} {i : Instr} (h : (encodeNat i : Int) = w) : ReadsBack w (some i) :=
  fun _ hi => Option.some.inj hi ▸ Int.ofNat.inj h

theorem ReadsBack.row {w : Nat} {c : Prop} {_ : Decidable c} {i : Instr} {rest : Option Instr}
    (hrow : c → (encodeNat i : Int) = w) (hrest : ReadsBack w rest) : ReadsBack w (if c then some i else rest) := by
  split
  · next h => exact readsBack_some (hrow h)
  · exact hrest

/-- Whatever row the decoder answers has the word that was read: the majors 3, 7 and 9 have one row, the others are read row by row. -/
theorem decodeForm_readsBack {w : Nat} (hw : w < 2 ^ 32) : ReadsBack w (decodeForm w) := by
  have hword := eq_low_add_major hw
  unfold decodeForm
  split
  case h_32 => exact readsBack_none w
  case h_4 | h_8 | h_10 =>
    next hmajor =>
    rw [hmajor] at hword
    refine readsBack_some (show ((word _ _ : Nat) : Int) = w from ?_)
    simp only [word, Nat.cast_add, cast_place_fieldAt, Nat.reduceAdd, low_zero]
    omega
  all_goals
    next hmajor =>
    rw [hmajor] at hword
    clear hw hmajor
    simp only [decodeSys, decodeHint, decodeBr, decodeIalu, decodeIalui, decodeLogic, decodeCmp, decodeFalu, decodeFma, decodeCvt, decodeXlane,
      decodeVote, decodeSfu, decodeLd, decodeSt, decodeAtom, decodeSync, decodeQueue, decodeShape, decodeTile, decodeMma, decodeCopy,
      decodeBar, decodePage, decodeBal, decodeTrap, decodeFrame, decodeRng]
    repeat' refine ReadsBack.row (fun h => show ((word _ _ : Nat) : Int) = w from ?_) ?_
    on_goal -1 => exact readsBack_none w
    all_goals
      simp only [word, Nat.cast_add, cast_place_fieldAt, bits_eq_iff, Nat.reduceAdd, Nat.reduceLeDiff, low_zero] at h ⊢
      omega

/-! ### Words and instructions -/

/-- What a word that decodes says: its row is the decoder's, and every check of that row passes. -/
theorem decode_ok {w : Word} {i : Instr} (h : decode w = .ok i) : decodeForm w.toNat = some i ∧ i.defect = none := by
  unfold decode at h
  split at h
  · cases h
  · split at h
    · cases h
    · next j hj =>
      split at h
      · next hd => cases h; exact ⟨hj, hd⟩
      · cases h

theorem isWord_of_defect_none {i : Instr} (h : i.defect = none) : i.isWord = true := by
  by_contra hw
  simp [Instr.defect, Instr.firstDefect, hw] at h

theorem wellFormed_of_decode {w : Word} {i : Instr} (h : decode w = .ok i) : i.wellFormed = true := by
  rw [Instr.wellFormed, (decode_ok h).2, Option.isNone_none]

theorem encode_of_decode {w : Word} {i : Instr} (h : decode w = .ok i) : encode i = some w := by
  obtain ⟨hform, hdefect⟩ := decode_ok h
  rw [encode, if_pos (isWord_of_defect_none hdefect), decodeForm_readsBack w.isLt i hform, BitVec.ofNat_toNat, BitVec.setWidth_eq]

/-- The family as one statement; an event is not well formed. -/
theorem RoundTrip.all (i : Instr) : RoundTrip.Statement i := by
  cases i with
  | illegal i => exact RoundTrip.illegal i
  | nop x => exact RoundTrip.nop x
  | syscall c => exact RoundTrip.syscall c
  | crrd d n => exact RoundTrip.crrd d n
  | crwr s n => exact RoundTrip.crwr s n
  | enq a q => exact RoundTrip.enq a q
  | himm i => exact RoundTrip.himm i
  | himmhi i => exact RoundTrip.himmhi i
  | hmod e r s n x o c k => exact RoundTrip.hmod e r s n x o c k
  | hsched y l => exact RoundTrip.hsched y l
  | hoff o => exact RoundTrip.hoff o
  | bra o => exact RoundTrip.bra o
  | braGuarded p o => exact RoundTrip.braGuarded p o
  | braAny p o => exact RoundTrip.braAny p o
  | braAll p o => exact RoundTrip.braAll p o
  | reconv k o => exact RoundTrip.reconv k o
  | join k => exact RoundTrip.join k
  | exit p => exact RoundTrip.exit p
  | brx t p => exact RoundTrip.brx t p
  | call d o => exact RoundTrip.call d o
  | ialuAdd t d a b p => exact RoundTrip.ialuAdd t d a b p
  | ialuSub t d a b p => exact RoundTrip.ialuSub t d a b p
  | ialuMul t d a b p => exact RoundTrip.ialuMul t d a b p
  | ialuMin t d a p => exact RoundTrip.ialuMin t d a p
  | ialuMax t d a p => exact RoundTrip.ialuMax t d a p
  | ialuNeg t d a p => exact RoundTrip.ialuNeg t d a p
  | ialuAbs t d a p => exact RoundTrip.ialuAbs t d a p
  | absdiff t d a p => exact RoundTrip.absdiff t d a p
  | avg t d a p => exact RoundTrip.avg t d a p
  | mulhi t d a p => exact RoundTrip.mulhi t d a p
  | mulw t d a p => exact RoundTrip.mulw t d a p
  | addw t d a p => exact RoundTrip.addw t d a p
  | subw t d a p => exact RoundTrip.subw t d a p
  | ialuiAdd t d a i => exact RoundTrip.ialuiAdd t d a i
  | movImm d i => exact RoundTrip.movImm d i
  | lop t d a b p => exact RoundTrip.lop t d a b p
  | shl t d a b p => exact RoundTrip.shl t d a b p
  | shr t d a b p => exact RoundTrip.shr t d a b p
  | bfx d a b p => exact RoundTrip.bfx d a b p
  | bfxs d a b p => exact RoundTrip.bfxs d a b p
  | bfi d a b p => exact RoundTrip.bfi d a b p
  | popc d a p => exact RoundTrip.popc d a p
  | clz d a p => exact RoundTrip.clz d a p
  | ctz d a p => exact RoundTrip.ctz d a p
  | brev d a p => exact RoundTrip.brev d a p
  | rol d a b p => exact RoundTrip.rol d a b p
  | ror d a b p => exact RoundTrip.ror d a b p
  | lopi t d a i => exact RoundTrip.lopi t d a i
  | cmp t c q a b p => exact RoundTrip.cmp t c q a b p
  | sel t d a b p => exact RoundTrip.sel t d a b p
  | plop t d a b p => exact RoundTrip.plop t d a b p
  | test t q a m p => exact RoundTrip.test t q a m p
  | cmpi t c q a i => exact RoundTrip.cmpi t c q a i
  | faluAdd t d a b p => exact RoundTrip.faluAdd t d a b p
  | faluSub t d a b p => exact RoundTrip.faluSub t d a b p
  | faluMul t d a b p => exact RoundTrip.faluMul t d a b p
  | faluMin t d a p => exact RoundTrip.faluMin t d a p
  | faluMax t d a p => exact RoundTrip.faluMax t d a p
  | faluNeg t d a p => exact RoundTrip.faluNeg t d a p
  | faluAbs t d a p => exact RoundTrip.faluAbs t d a p
  | rint t d a p => exact RoundTrip.rint t d a p
  | fma t d a b p => exact RoundTrip.fma t d a b p
  | mad t d a b p => exact RoundTrip.mad t d a b p
  | fms t d a b p => exact RoundTrip.fms t d a b p
  | fnma t d a b p => exact RoundTrip.fnma t d a b p
  | dot4 t d a b p => exact RoundTrip.dot4 t d a b p
  | cvt t d a s p => exact RoundTrip.cvt t d a s p
  | cvtFp8 f d a s p => exact RoundTrip.cvtFp8 f d a s p
  | routePick t d a b p => exact RoundTrip.routePick t d a b p
  | routeSlide t d a b p => exact RoundTrip.routeSlide t d a b p
  | routeRot t d a b p => exact RoundTrip.routeRot t d a b p
  | routeFlip t d a b p => exact RoundTrip.routeFlip t d a b p
  | vote o d q p => exact RoundTrip.vote o d q p
  | reduce t d a o p => exact RoundTrip.reduce t d a o p
  | scan t d a x o p => exact RoundTrip.scan t d a x o p
  | matchB64 d a p => exact RoundTrip.matchB64 d a p
  | rcp t d a p => exact RoundTrip.rcp t d a p
  | rsqrt t d a p => exact RoundTrip.rsqrt t d a p
  | sqrt t d a p => exact RoundTrip.sqrt t d a p
  | exp2 t d a p => exact RoundTrip.exp2 t d a p
  | log2 t d a p => exact RoundTrip.log2 t d a p
  | sin t d a p => exact RoundTrip.sin t d a p
  | cos t d a p => exact RoundTrip.cos t d a p
  | tanh t d a p => exact RoundTrip.tanh t d a p
  | div t d a b p => exact RoundTrip.div t d a b p
  | idiv t d a b p => exact RoundTrip.idiv t d a b p
  | irem t d a b p => exact RoundTrip.irem t d a b p
  | ld l d b p w => exact RoundTrip.ld l d b p w
  | lda l d b p w s => exact RoundTrip.lda l d b p w s
  | st s b p w => exact RoundTrip.st s b p w
  | str s b p w c => exact RoundTrip.str s b p w c
  | atomAdd l d b p o s => exact RoundTrip.atomAdd l d b p o s
  | atomMinI l d b p o s => exact RoundTrip.atomMinI l d b p o s
  | atomMaxI l d b p o s => exact RoundTrip.atomMaxI l d b p o s
  | atomMinN l d b p o s => exact RoundTrip.atomMinN l d b p o s
  | atomMaxN l d b p o s => exact RoundTrip.atomMaxN l d b p o s
  | atomAnd l d b p o s => exact RoundTrip.atomAnd l d b p o s
  | atomOr l d b p o s => exact RoundTrip.atomOr l d b p o s
  | atomXor l d b p o s => exact RoundTrip.atomXor l d b p o s
  | atomXchg l d b p o s => exact RoundTrip.atomXchg l d b p o s
  | atomCas l d b p o s => exact RoundTrip.atomCas l d b p o s
  | atomFadd l d b p o => exact RoundTrip.atomFadd l d b p o
  | fence s => exact RoundTrip.fence s
  | wait t h => exact RoundTrip.wait t h
  | pop d n p => exact RoundTrip.pop d n p
  | push s n p => exact RoundTrip.push s n p
  | qld i n k => exact RoundTrip.qld i n k
  | qst i n k => exact RoundTrip.qst i n k
  | yopReg d a o b => exact RoundTrip.yopReg d a o b
  | yopImm d a o i => exact RoundTrip.yopImm d a o i
  | yopHrd d a s => exact RoundTrip.yopHrd d a s
  | yopHwait a => exact RoundTrip.yopHwait a
  | ybr a b c o => exact RoundTrip.ybr a b c o
  | adone => exact RoundTrip.adone
  | hrd d k p s => exact RoundTrip.hrd d k p s
  | hwr d k p s => exact RoundTrip.hwr d k p s
  | tcfg t s => exact RoundTrip.tcfg t s
  | tld t b => exact RoundTrip.tld t b
  | tst t b => exact RoundTrip.tst t b
  | tzero t => exact RoundTrip.tzero t
  | ttrans d s => exact RoundTrip.ttrans d s
  | mma k f a b => exact RoundTrip.mma k f a b
  | mmaExact k f a b => exact RoundTrip.mmaExact k f a b
  | mmaSb k f a b => exact RoundTrip.mmaSb k f a b
  | mmaWide k f a b => exact RoundTrip.mmaWide k f a b
  | zrd k r d => exact RoundTrip.zrd k r d
  | zclr k n => exact RoundTrip.zclr k n
  | zld k b n => exact RoundTrip.zld k b n
  | zst k b => exact RoundTrip.zst k b
  | copy r => exact RoundTrip.copy r
  | copyh d s => exact RoundTrip.copyh d s
  | gather i r p w => exact RoundTrip.gather i r p w
  | recfence r => exact RoundTrip.recfence r
  | barinit m b k => exact RoundTrip.barinit m b k
  | arrive t b => exact RoundTrip.arrive t b
  | waitb t b => exact RoundTrip.waitb t b
  | barsync b => exact RoundTrip.barsync b
  | barmask m b k => exact RoundTrip.barmask m b k
  | discard l b => exact RoundTrip.discard l b
  | adobeq d s p k => exact RoundTrip.adobeq d s p k
  | tlbinv l a k => exact RoundTrip.tlbinv l a k
  | mappg d a k => exact RoundTrip.mappg d a k
  | fretResume => exact RoundTrip.fretResume
  | fretEscalate => exact RoundTrip.fretEscalate
  | fretKill => exact RoundTrip.fretKill
  | fretPoolEmpty => exact RoundTrip.fretPoolEmpty
  | burn s p => exact RoundTrip.burn s p
  | shunt s p => exact RoundTrip.shunt s p
  | balrd d p => exact RoundTrip.balrd d p
  | balclass s p => exact RoundTrip.balclass s p
  | trap c => exact RoundTrip.trap c
  | bkpt g => exact RoundTrip.bkpt g
  | ret => exact RoundTrip.ret
  | unwind t => exact RoundTrip.unwind t
  | callx t d => exact RoundTrip.callx t d
  | rand t d p => exact RoundTrip.rand t d p
  | seed a b p => exact RoundTrip.seed a b p
  | catsample t d a p => exact RoundTrip.catsample t d a p
  | _ => exact fun h => absurd h Bool.false_ne_true

/-- Settles O53: from the instruction to the word by the row's own round trip, from the word to the instruction because the row that the decoder
answers reads back. -/
theorem decodeAndEncodeAgree : Obligations.DecodeAndEncodeAgree := by
  unfold Obligations.DecodeAndEncodeAgree
  exact ⟨RoundTrip.all, fun w i h => ⟨wellFormed_of_decode h, encode_of_decode h⟩⟩

/-- Settles O54, by evaluation of the decoder. -/
theorem decodeSamples : Obligations.DecodeSamples := by
  unfold Obligations.DecodeSamples
  decide +kernel

end Sys2Proof.Laws
end

section
/-! What changes of a group's bookkeeping leave alone: the other groups, the registers and the memories. -/

namespace Sys2Proof.Machine

/-- Two cores hold the same registers and memories. -/
def Core.SameValues (c d : Core) : Prop := c.SameMemories d ∧ ∀ i, c.cell i = d.cell i ∧ c.cellPoison i = d.cellPoison i

@[simp] theorem Core.SameValues.refl (c : Core) : c.SameValues c := ⟨⟨rfl, rfl, rfl, rfl, rfl, rfl, rfl⟩, fun _ => ⟨rfl, rfl⟩⟩

theorem Core.SameValues.trans {a b c : Core} (h : a.SameValues b) (k : b.SameValues c) : a.SameValues c := by
  obtain ⟨⟨h1, h2, h3, h4, h5, h6, h7⟩, hcell⟩ := h
  obtain ⟨⟨k1, k2, k3, k4, k5, k6, k7⟩, kcell⟩ := k
  exact ⟨⟨h1.trans k1, h2.trans k2, h3.trans k3, h4.trans k4, h5.trans k5, h6.trans k6, h7.trans k7⟩,
    fun i => ⟨(hcell i).1.trans (kcell i).1, (hcell i).2.trans (kcell i).2⟩⟩

theorem Core.sameValues_counted (c : Core) (src : Source) (pipe : Nat) : (c.counted src pipe).SameValues c :=
  ⟨Core.sameMemories_of_rest (c.counted_rest src pipe), fun i => ⟨c.counted_cell src pipe i, c.counted_cellPoison src pipe i⟩⟩

/-- Of the package nothing but one group, the count of issues and the cores has changed, and the cores hold the same values. -/
structure SameBut (s t : State) (gid : Nat) : Prop where
  package : { t with groups := s.groups, cores := s.cores, issueNo := s.issueNo } = s
  groups : ∀ k, k ≠ gid → t.group? k = s.group? k
  cores : ∀ c, (t.core c).SameValues (s.core c)

theorem SameBut.trans {s t u : State} {gid : Nat} (h : SameBut s t gid) (k : SameBut t u gid) : SameBut s u gid where
  package := (congrArg (fun x : State => { x with groups := s.groups, cores := s.cores, issueNo := s.issueNo }) k.package).trans h.package
  groups j hj := (k.groups j hj).trans (h.groups j hj)
  cores c := (k.cores c).trans (h.cores c)

theorem SameBut.memory {s t : State} {gid : Nat} (h : SameBut s t gid) (core team place : Nat) :
    t.viewByte core team place = s.viewByte core team place :=
  (State.view_congr h.package (fun c => (h.cores c).1) core team place).1

theorem sameBut_onGroup (s : State) (gid : Nat) (f : Group → Group) : SameBut s (s.onGroup gid f) gid :=
  ⟨rfl, fun _ hk => State.group?_onGroup_ne s f hk, fun c => Core.SameValues.refl (s.core c)⟩

theorem sameBut_setGroup (s : State) (gid : Nat) (g : Group) : SameBut s (s.setGroup gid g) gid :=
  ⟨rfl, fun _ hk => State.group?_setGroup_ne s g hk, fun c => Core.SameValues.refl (s.core c)⟩

theorem sameValues_onCore (s : State) (n : Nat) {f : Core → Core} (h : ∀ c, (f c).SameValues c) (c : Nat) :
    ((s.onCore n f).core c).SameValues (s.core c) := by
  by_cases hc : c = n
  · subst hc
    rw [State.core_onCore]
    exact h _
  · rw [State.core_onCore_ne s f hc]
    exact Core.SameValues.refl _

theorem sameBut_onCore (s : State) (gid n : Nat) {f : Core → Core} (h : ∀ c, (f c).SameValues c) : SameBut s (s.onCore n f) gid :=
  ⟨rfl, fun _ _ => rfl, sameValues_onCore s n h⟩

theorem sameBut_clearWait (s : State) (e : Env) : SameBut s (s.clearWait e) e.gid := sameBut_onGroup s e.gid _

/-! ### Windows of a group without deferred writes -/

theorem Group.awaits_of_defers_nil {g : Group} (h : g.defers = []) : g.Awaits := by
  rw [Group.Awaits, h]
  exact fun d hd => nomatch hd

theorem sameBut_settle {s : State} {gid : Nat} {g : Group} (hg : s.group? gid = some g) (h : g.defers = []) :
    SameBut s (s.settle gid) gid where
  package := congrArg (fun x : State => { x with issueNo := s.issueNo }) (State.settle_rest s gid)
  groups _ hk := State.settle_group_ne s hk
  cores c := by rw [State.settle_core s hg (Group.awaits_of_defers_nil h)]; exact Core.SameValues.refl _

theorem State.group?_closeWindows {s : State} {gid : Nat} {g : Group} (hg : s.group? gid = some g) (h : g.defers = []) (p : Source → Bool) :
    (s.closeWindows gid p).group? gid = some g := by
  refine State.settle_group _ ?_ (Group.awaits_of_defers_nil h)
  rw [State.group?_onGroup, hg, Option.map_some, h, List.map_nil, ← h]

theorem sameBut_closeWindows {s : State} {gid : Nat} {g : Group} (hg : s.group? gid = some g) (h : g.defers = []) (p : Source → Bool) :
    SameBut s (s.closeWindows gid p) gid := by
  refine (sameBut_onGroup s gid _).trans (sameBut_settle (g := g) ?_ h)
  rw [State.group?_onGroup, hg, Option.map_some, h, List.map_nil, ← h]

/-! ### Frame requests -/

theorem Core.sameValues_requests (c : Core) (rs : List FrameReq) : Core.SameValues { c with requests := rs } c := Core.SameValues.refl c

theorem State.group?_withdraw {s : State} {gid : Nat} {g : Group} (hg : s.group? gid = some g) :
    ∃ keep, (s.withdraw gid).group? gid = some { g with frameReq := keep } := by
  unfold State.withdraw
  rw [hg]
  exact ⟨_, by rw [State.group?_onCore, State.group?_setGroup]⟩

theorem sameBut_withdraw {s : State} {gid : Nat} {g : Group} (hg : s.group? gid = some g) : SameBut s (s.withdraw gid) gid := by
  unfold State.withdraw
  rw [hg]
  exact (sameBut_setGroup s gid _).trans (sameBut_onCore _ gid _ fun c => c.sameValues_requests _)

/-! ### The issue of a word that is no instruction of its own -/

theorem sameBut_countIssue {s : State} {e : Env} {g : Group} (hg : s.group? e.gid = some g) (h : g.defers = []) (b : Bool) :
    SameBut s (s.countIssue e b) e.gid := by
  have hdefers : (g.counted e b (s.issueNo + 1)).defers = [] := by rw [Group.counted_defers, h, List.map_nil]
  have hcount : SameBut s { s with issueNo := s.issueNo + 1 } e.gid := ⟨rfl, fun _ _ => rfl, fun c => Core.SameValues.refl (s.core c)⟩
  refine ((hcount.trans (sameBut_onCore _ e.gid e.g.core fun c => c.sameValues_counted e.src e.g.pipe)).trans
    (sameBut_onGroup _ e.gid _)).trans (sameBut_settle ?_ hdefers)
  rw [State.group?_onGroup, State.group?_onCore]
  exact congrArg (Option.map _) hg

theorem State.group?_countIssue {s : State} {e : Env} {g : Group} (hg : s.group? e.gid = some g) (h : g.defers = []) (b : Bool) :
    (s.countIssue e b).group? e.gid = some (g.counted e b (s.issueNo + 1)) := by
  refine State.settle_group _ ?_ (Group.awaits_of_defers_nil (by rw [Group.counted_defers, h, List.map_nil]))
  rw [State.group?_onGroup, State.group?_onCore]
  exact congrArg (Option.map _) hg

end Sys2Proof.Machine
end

section
/-! What a stop of a program stream leaves (R166 to R172). -/

namespace Sys2Proof.Machine

theorem lowestLane_lt (m : Mask) : lowestLane m < 32 := by
  unfold lowestLane
  cases h : lanesOf m with
  | nil => decide
  | cons l ls =>
    have hl : l ∈ lanesOf m := h ▸ List.mem_cons_self
    exact List.mem_range.1 (List.mem_filter.1 hl).1

theorem srcCode_lt (src : Option Source) : srcCode src < 4 := by
  cases src with
  | none => decide
  | some src => cases src <;> decide

/-- The fields of cr.tcause do not overlap: its number is their sum (R170). -/
theorem toNat_causeWord (src : Option Source) {t : Trap} (hinted vdisc : Bool) (hc : t.cause < 256) (hl : t.lane = none) :
    (causeWord src t hinted vdisc).toNat = t.cause + 2 ^ 8 * lowestLane t.lanes + 2 ^ 24 * srcCode src +
      (if hinted then 2 ^ 26 else 0) + (if vdisc then 2 ^ 27 else 0) := by
  have hlane := lowestLane_lt t.lanes
  have hsrc := srcCode_lt src
  have hhint : (if hinted then 2 ^ 26 else 0) ≤ 2 ^ 26 := by split <;> omega
  have hdisc : (if vdisc then 2 ^ 27 else 0) ≤ 2 ^ 27 := by split <;> omega
  rw [causeWord, hl, Option.getD_none, BitVec.toNat_ofNat]
  omega

theorem toNat_causeWord_mod (src : Option Source) {t : Trap} (hinted vdisc : Bool) (hc : t.cause < 256) (hl : t.lane = none) :
    (causeWord src t hinted vdisc).toNat % 2 ^ 8 = t.cause := by
  rw [toNat_causeWord src hinted vdisc hc hl]
  split <;> split <;> omega

/-- The record of a stop, as its group keeps it (R169 to R171). -/
def Group.record (g : Group) (src : Source) (t : Trap) (pc resume : Lane) (hinted : Bool) : TrapRecord :=
  { cause := causeWord (some src) t hinted g.versioned, pc := pc, resume := resume, mask := t.lanes.setWidth 64, addr := t.addr, info := t.info }

/-- The group as a stop of one of its streams leaves it, but for a frame request (R167, R172 step 1). -/
def Group.stoppedBy (g : Group) (src : Source) (x : Stop) (pc : Lane) : Group :=
  let g : Group := { g with
    life := .stopped
    a := if src = .slotA then { g.a with hints := [] } else g.a
    b := if src = .slotB then { g.b with hints := [] } else g.b
    stop := some x
    trap := if x.fate = .gang then x.record else g.trap
    stage := if x.fate = .gang then .doomed else .draining }
  g.setSlot src { g.slot src with pc := pc }

section
variable (g : Group) (src : Source) (x : Stop) (pc : Lane)

@[simp] theorem Group.stoppedBy_life : (g.stoppedBy src x pc).life = .stopped := by simp [Group.stoppedBy]
@[simp] theorem Group.stoppedBy_stage : (g.stoppedBy src x pc).stage = if x.fate = .gang then .doomed else .draining := by
  simp [Group.stoppedBy]
@[simp] theorem Group.stoppedBy_stop : (g.stoppedBy src x pc).stop = some x := by simp [Group.stoppedBy]
@[simp] theorem Group.stoppedBy_trap : (g.stoppedBy src x pc).trap = if x.fate = .gang then x.record else g.trap := by
  simp [Group.stoppedBy]
@[simp] theorem Group.stoppedBy_preds : (g.stoppedBy src x pc).preds = g.preds := by simp [Group.stoppedBy]
@[simp] theorem Group.stoppedBy_frames : (g.stoppedBy src x pc).frames = g.frames := by simp [Group.stoppedBy]
@[simp] theorem Group.stoppedBy_flight : (g.stoppedBy src x pc).flight = g.flight := by simp [Group.stoppedBy]
@[simp] theorem Group.stoppedBy_defers : (g.stoppedBy src x pc).defers = g.defers := by simp [Group.stoppedBy]
@[simp] theorem Group.stoppedBy_slot_pc : ((g.stoppedBy src x pc).slot src).pc = pc := by cases src <;> rfl

end

/-- The part of a stop's effect that every stop has: the group is set, its windows close, and its frame request goes. -/
def State.stopGroup (s : State) (gid : Nat) (g : Group) : State := ((s.setGroup gid g).closeWindows gid fun y => y != .handler).withdraw gid

theorem State.group?_stopGroup (s : State) (gid : Nat) {g : Group} (hd : g.defers = []) :
    ∃ keep, (s.stopGroup gid g).group? gid = some { g with frameReq := keep } :=
  State.group?_withdraw (State.group?_closeWindows (State.group?_setGroup s gid g) hd _)

theorem sameBut_stopGroup (s : State) (gid : Nat) {g : Group} (hd : g.defers = []) : SameBut s (s.stopGroup gid g) gid := by
  have hg := State.group?_setGroup s gid g
  exact ((sameBut_setGroup s gid g).trans (sameBut_closeWindows hg hd _)).trans (sameBut_withdraw (State.group?_closeWindows hg hd _))

/-- How a stop of a group goes on (R166, R176, R182). -/
def State.fateFor (s : State) (g : Group) (cause : Nat) : Fate := if g.versioned then .gang else fateOf cause (s.team g.team).debug

/-- A stop taken at once: what every stop does, and for a gang's kill the request after it. -/
theorem State.takeStop_eq {s : State} {gid : Nat} {g : Group} {t : Trap} (hg : s.group? gid = some g) (ha : g.arrivals = [])
    (h6 : t.cause ≠ 0x06) (src : Source) (pc resume : Lane) (hinted : Bool) :
    s.takeStop gid (some src) t pc resume hinted =
      let u := s.stopGroup gid (g.stoppedBy src ⟨some src, g.record src t pc resume hinted, s.fateFor g t.cause⟩ pc)
      if s.fateFor g t.cause = .gang then
        (if g.versioned then u.dropVersion g.team else u).doom (s.team g.team).gang { cause := t.cause, group := some gid }
      else u := by
  have hnone : ¬ (!g.arrivals.isEmpty) = true := by simp [ha]
  unfold State.takeStop
  simp only [hg, hnone, h6, ↓reduceIte]
  cases src <;> rfl

end Sys2Proof.Machine
end

section
/-! What a stop that goes to the handler leaves of the package, and the checks that a word fails before its operands are read (R66, R67, R69). -/

namespace Sys2Proof.Machine

/-- A group that may be stopped at once, and whose stop goes to the handler, is stopped and drains. -/
theorem State.takeStop_drains {s : State} {gid : Nat} {g : Group} {t : Trap} (hg : s.group? gid = some g) (hd : g.defers = [])
    (ha : g.arrivals = []) (hv : g.versioned = false) (hf : fateOf t.cause (s.team g.team).debug = .handler)
    (src : Source) (pc resume : Lane) (hinted : Bool) :
    SameBut s (s.takeStop gid (some src) t pc resume hinted) gid ∧
    ∃ keep, (s.takeStop gid (some src) t pc resume hinted).group? gid =
      some { g.stoppedBy src ⟨some src, g.record src t pc resume hinted, .handler⟩ pc with frameReq := keep } := by
  have h6 : t.cause ≠ 0x06 := by
    intro h
    rw [h] at hf
    cases hf
  have hfate : s.fateFor g t.cause = .handler := by rw [State.fateFor, hv, if_neg Bool.false_ne_true, hf]
  have hdefers : (g.stoppedBy src ⟨some src, g.record src t pc resume hinted, .handler⟩ pc).defers = [] := by
    rw [Group.stoppedBy_defers, hd]
  rw [State.takeStop_eq hg ha h6, hfate]
  exact ⟨sameBut_stopGroup s gid hdefers, State.group?_stopGroup s gid hdefers⟩

/-- A program stream's own stop, where it goes to the handler. -/
theorem Env.raise_stops {s : State} {e : Env} {t : Trap} (hg : s.group? e.gid = some e.g) (hd : e.g.defers = []) (hs : e.Stoppable)
    (hsrc : e.src ≠ .handler) (hf : fateOf t.cause (s.team e.g.team).debug = .handler) (hc : t.cause < 256) (hl : t.lane = none)
    (resume : Option Lane) :
    Stops s (e.raise t s resume) e t.cause t.lanes t.addr t.info (resume.getD e.stopPc) := by
  obtain ⟨ha, hv⟩ := hs
  have hraise : e.raise t s resume = s.takeStop e.gid (some e.src) t e.stopPc (resume.getD e.stopPc) (!e.slot.hints.isEmpty) := by
    unfold Env.raise
    cases h : e.src
    case handler => exact absurd h hsrc
    all_goals rfl
  obtain ⟨hsame, keep, hgroup⟩ :=
    State.takeStop_drains hg hd ha hv hf e.src e.stopPc (resume.getD e.stopPc) (!e.slot.hints.isEmpty)
  rw [hraise]
  refine ⟨⟨_, _, hgroup, Group.stoppedBy_life .., by simp, Group.stoppedBy_stop .., rfl, ?_, rfl, rfl, rfl, rfl, rfl, ?_,
    Group.stoppedBy_preds .., Group.stoppedBy_frames .., Group.stoppedBy_flight ..⟩, hsame.groups, fun c i => (hsame.cores c).2 i, hsame.memory⟩
  · show (causeWord _ _ _ _).toNat = _
    rw [toNat_causeWord _ _ _ hc hl, hv]
    cases e.slot.hints <;> simp
  · exact Group.stoppedBy_slot_pc e.g e.src _ _

@[simp] theorem Env.fresh_gpreds (e : Env) : e.fresh.g.preds = e.g.preds := by simp [Env.fresh]
@[simp] theorem Env.fresh_gframes (e : Env) : e.fresh.g.frames = e.g.frames := by simp [Env.fresh]
@[simp] theorem Env.fresh_garrivals (e : Env) : e.fresh.g.arrivals = e.g.arrivals := by simp [Env.fresh]
@[simp] theorem Env.fresh_gversioned (e : Env) : e.fresh.g.versioned = e.g.versioned := by simp [Env.fresh]

/-- A new attempt's stop is the stop of the slot. -/
theorem Stops.of_fresh {s t : State} {e : Env} {cause : Nat} {lanes : Mask} {addr info : NMap Lane} {resume : Lane}
    (h : Stops (s.clearWait e) t e.fresh cause lanes addr info resume) : Stops s t e cause lanes addr info resume where
  group := by
    have hgroup := h.group
    simp only [Env.fresh_gpreds, Env.fresh_gframes, Env.fresh_gflight] at hgroup
    exact hgroup
  groups k hk := (h.groups k hk).trans ((sameBut_clearWait s e).groups k hk)
  cells := h.cells
  memory core team place := (h.memory core team place).trans ((sameBut_clearWait s e).memory core team place)

/-! ### The checks of a word at a new attempt -/

@[simp] theorem Env.fresh_names (e : Env) (r : Nat) : e.fresh.g.names e.src r = e.g.names e.src r := by
  simp only [Env.fresh]
  cases e.src <;> rfl

@[simp] theorem Env.fresh_liveLanes (e : Env) : e.fresh.g.liveLanes = e.g.liveLanes := by
  cases hs : e.src <;> simp [Env.fresh, Group.liveLanes, hs, Group.setSlot, Group.slot]

@[simp] theorem Env.fresh_formTrap (e : Env) (f : Form) (word : Lane) : e.fresh.formTrap f word = e.formTrap f word := by
  have hnames : e.fresh.g.names e.fresh.src = e.g.names e.src := funext e.fresh_names
  have hstream : e.fresh.streamTrap f word = e.streamTrap f word := by
    unfold Env.streamTrap
    rw [Env.fresh_src, Env.fresh_liveLanes, Env.fresh_activeOf]
  unfold Env.formTrap
  rw [hstream, hnames, Env.fresh_activeOf, Env.fresh_hints]

theorem Settled.fresh_group {s : State} {e : Env} (h : Settled s e) : (s.clearWait e).group? e.fresh.gid = some e.fresh.g :=
  (State.env?_some (State.env?_clearWait h.env)).1

theorem Settled.windows_fresh {s : State} {e : Env} (h : Settled s e) (src : Source) (c : Closes) : e.fresh.g.windowsHold src c = false := by
  rw [Group.windowsHold, Env.fresh_gdefers, h.settled, List.any_nil]

/-- A word that fails one of its checks stops the slot, where its form closes no window, is no barrier and does not go to the matrix unit. -/
theorem State.issue_of_formTrap {s : State} {e : Env} {f : Form} {word : Lane} {t : Trap} {run : Env → State → Verdict} (h : Settled s e)
    (hc : f.closes = .nothing) (hb : f.barrier = false) (hu : f.unit = false) (hr : f.runs = .program → e.src ≠ .handler)
    (ht : e.formTrap f word = some t) : s.issue f word run = .next (e.fresh.raise t (s.clearWait e)) := by
  have hruns : ¬ (f.runs = .program ∧ e.fresh.src = .handler) := fun hp => hr hp.1 hp.2
  have ht' : e.fresh.formTrap f word = some t := by rw [Env.fresh_formTrap, ht]
  unfold State.issue
  simp only [h.env, hc, hb, State.closeFor, State.env?_clearWait h.env, h.windows_fresh, hu, hruns, ht', Bool.false_eq_true, false_and,
    ↓reduceIte]

/-- A word whose failed check goes to the handler stops the slot over the lanes of the check. -/
theorem State.issue_formTrap_stops {s : State} {e : Env} {f : Form} {word : Lane} {t : Trap} {run : Env → State → Verdict} (h : Settled s e)
    (hc : f.closes = .nothing) (hb : f.barrier = false) (hu : f.unit = false) (hsrc : e.src ≠ .handler) (hs : e.Stoppable)
    (ht : e.formTrap f word = some t) (hf : ∀ debug, fateOf t.cause debug = .handler) (hcause : t.cause < 256) (hl : t.lane = none) :
    ∃ u, s.issue f word run = .next u ∧ Stops s u e t.cause t.lanes t.addr t.info e.stopPc := by
  have hstop : e.fresh.Stoppable := by rwa [Env.Stoppable, Env.fresh_garrivals, Env.fresh_gversioned]
  have hdefers : e.fresh.g.defers = [] := by rw [Env.fresh_gdefers, h.settled]
  exact ⟨_, State.issue_of_formTrap h hc hb hu (fun _ => hsrc) ht,
    Stops.of_fresh (Env.raise_stops h.fresh_group hdefers hstop hsrc (hf _) hcause hl none)⟩

/-- The trap of a failed check: its cause, over the lanes that are active under the guard (R166). -/
def Env.overActive (e : Env) (f : Form) (cause : Nat) (info : Lane) : Trap :=
  { cause := cause, lanes := maskOf (e.activeOf f.guard), info := inLanes (e.activeOf f.guard) info }

/-- The register names of a word (R69). -/
def Env.named (e : Env) (f : Form) : List Nat := f.regs ++ (if e.hints.imm = none then f.b.toList else [])

theorem Env.formTrap_eq (e : Env) (f : Form) (word : Lane) : e.formTrap f word = firstTrap
    [e.streamTrap f word,
     if f.accepts.imm && e.hints.imm.isSome && (f.imm11 ≠ 0 || f.b.getD 0 ≠ 0) then some (e.overActive f 0x01 word) else none,
     if e.hints.accepted f.accepts then none else some (e.overActive f 0x02 word),
     if (e.named f).all (e.g.names e.src) then none else some (e.overActive f 0x03 0)] := by
  have hnamed : e.named f = f.regs ++ (match f.b, e.hints.imm with
      | some r, none => [r]
      | _, _ => []) := by
    unfold Env.named
    cases f.b <;> cases e.hints.imm <;> rfl
  rw [hnamed]
  rfl

/-- A word whose stream may run it and whose replaced field is 0 is checked for its hints, then for its register names. -/
theorem Env.formTrap_of_field {e : Env} {f : Form} {word : Lane} (hstream : e.streamTrap f word = none)
    (hfield : e.hints.imm.isSome → f.imm11 = 0 ∧ f.b.getD 0 = 0) :
    e.formTrap f word =
      if e.hints.accepted f.accepts then
        if (e.named f).all (e.g.names e.src) then none else some (e.overActive f 0x03 0)
      else some (e.overActive f 0x02 word) := by
  have hpass : ¬ (f.accepts.imm && e.hints.imm.isSome && (f.imm11 ≠ 0 || f.b.getD 0 ≠ 0)) = true := by
    simp only [Bool.and_eq_true, not_and]
    intro h
    simp [hfield h.2]
  rw [Env.formTrap_eq, hstream, if_neg hpass]
  split
  · split <;> rfl
  · rfl

end Sys2Proof.Machine
end

section
/-! Hint words: they wait for the instruction that they bind to, and a fourth one stops the group (R66, R68, R71). -/

namespace Sys2Proof.Machine

/-- The group after its slot has taken a hint word. -/
def Group.tookHint (g : Group) (e : Env) (w : Word) : Group :=
  g.setSlot e.src { g.slot e.src with
    pc := e.slot.pc + 4
    life := if (g.slot e.src).life = .stalled then .ready else (g.slot e.src).life
    hints := (g.slot e.src).hints ++ [{ addr := e.slot.pc, word := w }] }

theorem hintWord_eq {s : State} {e : Env} (h : s.env? = some e) (hs : e.src ≠ .access) (w : Word) :
    hintWord w s =
      if 3 ≤ e.slot.hints.length then .next (e.raiseAtHint (e.slotTrap 0x02 (w.setWidth 64)) s)
      else .next ((s.onGroup e.gid fun g => g.tookHint e w).countIssue e false) := by
  unfold hintWord Group.tookHint
  cases hsrc : e.src
  case access => exact absurd hsrc hs
  all_goals simp only [h, hsrc]

/-- The five rows of hints, each with its word. -/
theorem exec_hint {i24 : BitVec 24} {r k o : BitVec 3} {b1 b2 b3 b4 b5 : BitVec 1} {l : BitVec 4} {i : Instr}
    (hi : i ∈ [Instr.himm i24, .himmhi i24, .hmod b1 r b2 b3 b4 o b5 k, .hsched b1 l, .hoff i24]) (s : State) :
    exec i s = hintWord (BitVec.ofNat 32 (encodeNat i)) s := by
  simp only [List.mem_cons, List.not_mem_nil, or_false] at hi
  rcases hi with rfl | rfl | rfl | rfl | rfl <;> rfl

theorem encodeNat_hint_lt {i24 : BitVec 24} {r k o : BitVec 3} {b1 b2 b3 b4 b5 : BitVec 1} {l : BitVec 4} {i : Instr}
    (hi : i ∈ [Instr.himm i24, .himmhi i24, .hmod b1 r b2 b3 b4 o b5 k, .hsched b1 l, .hoff i24]) : encodeNat i < 2 ^ 32 := by
  simp only [List.mem_cons, List.not_mem_nil, or_false] at hi
  rcases hi with rfl | rfl | rfl | rfl | rfl
  all_goals
    change word _ _ < _
    simp only [word, place]
    omega

theorem setWidth_ofNat_of_lt {n : Nat} (h : n < 2 ^ 32) : (BitVec.ofNat 32 n).setWidth 64 = BitVec.ofNat 64 n := by
  apply BitVec.eq_of_toNat_eq
  rw [BitVec.toNat_setWidth, BitVec.toNat_ofNat, BitVec.toNat_ofNat, Nat.mod_eq_of_lt h]

/-! ### A hint that waits -/

/-- The group after the issue of a hint word. -/
def Group.hinted (e : Env) (w : Word) (n : Nat) : Group := (e.g.tookHint e w).counted e false n

theorem Group.hinted_rest {e : Env} (h : e.g.defers = []) (w : Word) (n : Nat) : (Group.hinted e w n).rest = e.g.rest := by
  have hd : (Group.hinted e w n).defers = e.g.defers := by
    rw [Group.hinted, Group.counted_defers, Group.tookHint, Group.setSlot_defers, h, List.map_nil]
  have hrest : { (Group.hinted e w n).rest with defers := e.g.defers } = e.g.rest := by
    cases hs : e.src <;> simp [Group.hinted, Group.tookHint, Group.counted, Group.setSlot, Group.slot, hs, Group.rest]
  rw [← hrest, ← hd]
  rfl

theorem Group.hinted_preds (e : Env) (w : Word) (n : Nat) : (Group.hinted e w n).preds = e.g.preds := by
  cases hs : e.src <;> simp [Group.hinted, Group.tookHint, Group.counted, hs]

theorem Group.hinted_slot {e : Env} (hs : e.src ≠ .access) (hslot : e.slot = e.g.slot e.src) (w : Word) (n : Nat) :
    ((Group.hinted e w n).slot e.src).hints = e.slot.hints ++ [{ addr := e.slot.pc, word := w }] ∧
    ((Group.hinted e w n).slot e.src).pc = e.slot.pc + 4 ∧ ((Group.hinted e w n).slot e.src).mask = e.slot.mask := by
  rw [hslot]
  cases h : e.src
  case access => exact absurd h hs
  all_goals simp [Group.hinted, Group.tookHint, Group.counted, Group.setSlot, Group.slot, h, hslot]

theorem Group.hinted_slot_ne (e : Env) (w : Word) (n : Nat) {y : Source} (hy : y ≠ e.src) : (Group.hinted e w n).slot y = e.g.slot y := by
  cases hs : e.src <;> cases y <;>
    simp_all [Group.hinted, Group.tookHint, Group.counted, Group.setSlot, Group.slot]

/-- A hint word that a slot keeps. -/
theorem hintWord_waits {s : State} {e : Env} (h : Settled s e) (hs : e.src ≠ .access) (hlen : e.slot.hints.length < 3) (w : Word) :
    ∃ t, hintWord w s = .next t ∧ t.group? e.gid = some (Group.hinted e w (s.issueNo + 1)) ∧ SameBut s t e.gid := by
  obtain ⟨hg, -⟩ := State.env?_some h.env
  have htook : (s.onGroup e.gid fun g => g.tookHint e w).group? e.gid = some (e.g.tookHint e w) := by
    rw [State.group?_onGroup, hg, Option.map_some]
  have hdefers : (e.g.tookHint e w).defers = [] := by rw [Group.tookHint, Group.setSlot_defers, h.settled]
  rw [hintWord_eq h.env hs, if_neg (Nat.not_le_of_lt hlen)]
  exact ⟨_, rfl, State.group?_countIssue htook hdefers false,
    (sameBut_onGroup s e.gid _).trans (sameBut_countIssue htook hdefers false)⟩

/-! ### A fourth hint -/

theorem hintWord_stops {s : State} {e : Env} (h : Settled s e) (hs : e.src ≠ .access) (hlen : 3 ≤ e.slot.hints.length)
    (hh : e.src ≠ .handler) (hstop : e.Stoppable) (w : Word) :
    ∃ t g y, hintWord w s = .next t ∧ t.group? e.gid = some g ∧ g.life = .stopped ∧ g.stop = some y ∧
      y.record.cause.toNat % 2 ^ 8 = 0x02 ∧ y.record.mask = e.slot.mask.setWidth 64 ∧ y.record.info = inLanes e.lanes (w.setWidth 64) := by
  obtain ⟨hg, -⟩ := State.env?_some h.env
  obtain ⟨harrive, hversion⟩ := hstop
  obtain ⟨-, keep, hgroup⟩ := State.takeStop_drains (t := e.slotTrap 0x02 (w.setWidth 64)) hg h.settled harrive hversion rfl e.src
    e.slot.pc e.slot.pc true
  have hraise : e.raiseAtHint (e.slotTrap 0x02 (w.setWidth 64)) s =
      s.takeStop e.gid (some e.src) (e.slotTrap 0x02 (w.setWidth 64)) e.slot.pc e.slot.pc true := by
    unfold Env.raiseAtHint
    cases hsrc : e.src
    case handler => exact absurd hsrc hh
    all_goals rfl
  rw [hintWord_eq h.env hs, if_pos hlen, hraise]
  exact ⟨_, _, _, rfl, hgroup, Group.stoppedBy_life .., Group.stoppedBy_stop ..,
    toNat_causeWord_mod _ _ _ (show 2 < 256 by decide) rfl, rfl, rfl⟩

/-- Settles O10: each of the five rows is the same hint word's meaning, which waits or stops by the number of hints that wait already. -/
theorem hintsAccumulate : Obligations.HintsAccumulate := by
  unfold Obligations.HintsAccumulate
  intro s e h hs i24 r k o b1 b2 b3 b4 b5 l i hi
  rw [exec_hint hi]
  refine ⟨fun hlen => ?_, fun hlen hh hstop => ?_⟩
  · obtain ⟨t, ht, hgroup, hsame⟩ := hintWord_waits h hs hlen (BitVec.ofNat 32 (encodeNat i))
    obtain ⟨-, -, -, -, hslot, -⟩ := State.env?_some h.env
    obtain ⟨hhints, hpc, hmask⟩ := Group.hinted_slot hs hslot (BitVec.ofNat 32 (encodeNat i)) (s.issueNo + 1)
    exact ⟨t, ht, ⟨_, hgroup, Group.hinted_rest h.settled _ _, Group.hinted_preds .., hhints, hpc, hmask,
      fun y hy => Group.hinted_slot_ne e _ _ hy⟩, hsame.groups, fun c j => (hsame.cores c).2 j, hsame.memory⟩
  · rw [infoWord, ← setWidth_ofNat_of_lt (encodeNat_hint_lt hi)]
    exact hintWord_stops h hs hlen hh hstop _

end Sys2Proof.Machine
end

section
/-! ADD.T and a stop: refused hints and registers, and poison among its operands (R34, R66, R67, R99, R166, R171, R267). -/

namespace Sys2Proof.Machine

/-! ### A gang's kill -/

/-- A group of a gang that is to be killed, with the record of the stop that asks for it. -/
def State.DoomedAs (s : State) (gid : Nat) (r : TrapRecord) : Prop :=
  ∃ g, s.group? gid = some g ∧ g.life = .stopped ∧ g.stage = .doomed ∧ g.trap = r

/-- The cells of every register file are the same in two states. -/
def SameCells (s t : State) : Prop := ∀ c i, (t.core c).cell i = (s.core c).cell i

/-- What holds of a state with the request noted, and stays when a group halts and leaves its core's queue, holds after a kill is asked for. -/
theorem State.doom_induction {P : State → Prop} {s : State} (gang : Nat) (k : Kill) (hs : P s) (hgang : ∀ f, P s → P (s.onGang gang f))
    (hhalt : ∀ s gid, P s → P ((s.onGroup gid Group.halt).leaveQueue gid)) : P (s.doom gang k) := by
  unfold State.doom
  dsimp only
  split
  · exact hs
  · exact List.foldlRecOn _ _ (hgang _ hs) fun s h gid _ => hhalt s gid h

theorem Group.halt_doomed {g : Group} (hl : g.life = .stopped) : g.halt.life = .stopped ∧ g.halt.stage = .doomed ∧ g.halt.trap = g.trap := by
  rw [Group.halt, if_pos (Or.inr hl)]
  exact ⟨rfl, rfl, rfl⟩

theorem State.group?_leaveQueue (s : State) (gid k : Nat) : (s.leaveQueue gid).group? k = s.group? k := by
  unfold State.leaveQueue
  split <;> rfl

theorem State.DoomedAs.halt {s : State} {gid : Nat} {r : TrapRecord} (h : s.DoomedAs gid r) (k : Nat) :
    ((s.onGroup k Group.halt).leaveQueue k).DoomedAs gid r := by
  obtain ⟨g, hg, hlife, hstage, htrap⟩ := h
  by_cases hk : gid = k
  · subst hk
    obtain ⟨h1, h2, h3⟩ := Group.halt_doomed hlife
    exact ⟨g.halt, by rw [State.group?_leaveQueue, State.group?_onGroup, hg, Option.map_some], h1, h2, h3.trans htrap⟩
  · exact ⟨g, by rw [State.group?_leaveQueue, State.group?_onGroup_ne _ _ hk, hg], hlife, hstage, htrap⟩

theorem State.DoomedAs.doom {s : State} {gid : Nat} {r : TrapRecord} (h : s.DoomedAs gid r) (gang : Nat) (k : Kill) :
    (s.doom gang k).DoomedAs gid r :=
  State.doom_induction (P := fun s => s.DoomedAs gid r) gang k h (fun _ h => h) fun _ j h => h.halt j

theorem sameCells_leaveQueue (s : State) (gid : Nat) : SameCells s (s.leaveQueue gid) := by
  unfold State.leaveQueue
  split
  · exact fun _ _ => rfl
  · exact fun c i => ((sameValues_onCore s _ (fun c => c.sameValues_requests _) c).2 i).1

theorem sameCells_doom (s : State) (gang : Nat) (k : Kill) : SameCells s (s.doom gang k) :=
  State.doom_induction (P := SameCells s) gang k (fun _ _ => rfl) (fun _ h => h)
    fun t gid h c i => (sameCells_leaveQueue (t.onGroup gid Group.halt) gid c i).trans (h c i)

@[simp] theorem State.group?_dropVersion (s : State) (team gid : Nat) : (s.dropVersion team).group? gid = s.group? gid := rfl

@[simp] theorem State.core_dropVersion (s : State) (team c : Nat) : (s.dropVersion team).core c = s.core c := rfl

theorem State.DoomedAs.dropVersion {s : State} {gid : Nat} {r : TrapRecord} (h : s.DoomedAs gid r) (team : Nat) :
    (s.dropVersion team).DoomedAs gid r := by
  rwa [State.DoomedAs, State.group?_dropVersion]

/-- A stop that goes to its gang's kill dooms the group and changes no register. -/
theorem State.takeStop_dooms {s : State} {gid : Nat} {g : Group} {t : Trap} (hg : s.group? gid = some g) (hd : g.defers = [])
    (ha : g.arrivals = []) (h6 : t.cause ≠ 0x06) (hf : fateOf t.cause (s.team g.team).debug = .gang)
    (src : Source) (pc resume : Lane) (hinted : Bool) :
    (s.takeStop gid (some src) t pc resume hinted).DoomedAs gid (g.record src t pc resume hinted) ∧
      SameCells s (s.takeStop gid (some src) t pc resume hinted) := by
  have hfate : s.fateFor g t.cause = .gang := by rw [State.fateFor, hf, ite_self]
  rw [State.takeStop_eq hg ha h6, hfate]
  dsimp only
  rw [if_pos rfl]
  generalize hx : (⟨some src, g.record src t pc resume hinted, .gang⟩ : Stop) = x
  have hdefers : (g.stoppedBy src x pc).defers = [] := by rw [Group.stoppedBy_defers, hd]
  obtain ⟨keep, hgroup⟩ := State.group?_stopGroup s gid hdefers
  have hdoomed : (s.stopGroup gid (g.stoppedBy src x pc)).DoomedAs gid (g.record src t pc resume hinted) := by
    refine ⟨_, hgroup, Group.stoppedBy_life .., ?_, ?_⟩
    · exact (Group.stoppedBy_stage ..).trans (by rw [← hx, if_pos rfl])
    · exact (Group.stoppedBy_trap ..).trans (by rw [← hx, if_pos rfl])
  have hcells : SameCells s (s.stopGroup gid (g.stoppedBy src x pc)) := fun c i =>
    (((sameBut_stopGroup s gid hdefers).cores c).2 i).1
  split
  · refine ⟨(hdoomed.dropVersion _).doom _ _, fun c i => (sameCells_doom _ _ _ c i).trans ?_⟩
    rw [State.core_dropVersion]
    exact hcells c i
  · exact ⟨State.DoomedAs.doom hdoomed _ _, fun c i => (sameCells_doom _ _ _ c i).trans (hcells c i)⟩

/-! ### Poison -/

theorem getLsbD_maskOf (ls : List Nat) {l : Nat} (hl : l < 32) : (maskOf ls).getLsbD l = true ↔ l ∈ ls := by
  have hbit : ∀ k, (BitVec.ofNat 32 (2 ^ k)).getLsbD l = true ↔ l = k := fun k => by
    simp only [BitVec.getLsbD_ofNat, hl, decide_true, Bool.true_and, Nat.testBit_two_pow, decide_eq_true_eq]
    exact eq_comm
  have hfold : ∀ m : Mask, (ls.foldl (fun m l => m ||| BitVec.ofNat 32 (2 ^ l)) m).getLsbD l = true ↔ m.getLsbD l = true ∨ l ∈ ls := by
    induction ls with
    | nil => simp
    | cons k ls ih =>
      intro m
      rw [List.foldl_cons, ih, BitVec.getLsbD_or, Bool.or_eq_true, hbit, List.mem_cons, or_assoc]
  simpa [maskOf] using hfold 0

/-- A half that a read takes is poisoned. -/
def Env.Poisoned (e : Env) (r : Read) : Prop := e.core.cellPoison (32 * e.reg r.reg + r.phys) &&& r.halves ≠ 0

/-- A poisoned read makes the trap of cause 0x05, which hands exactly the lanes of the poisoned reads (R34, R171). -/
theorem Env.poisonTrap_of_poisoned {e : Env} {rs : List Read} (h : ∃ r ∈ rs, e.Poisoned r) :
    ∃ t, e.poisonTrap rs = some t ∧ t.cause = 0x05 ∧ t.lane = none ∧
      ∀ l < 32, t.lanes.getLsbD l = true ↔ ∃ r ∈ rs, r.lane = l ∧ e.Poisoned r := by
  have hne : ¬ (rs.filter fun r => (e.core.cellPoison (32 * e.reg r.reg + r.phys) &&& r.halves) != 0).isEmpty = true := by
    obtain ⟨r, hr, hbad⟩ := h
    rw [List.isEmpty_iff]
    exact List.ne_nil_of_mem (List.mem_filter.2 ⟨hr, bne_iff_ne.2 hbad⟩)
  unfold Env.poisonTrap
  dsimp only
  rw [if_neg hne]
  refine ⟨_, rfl, rfl, rfl, fun l hl => ?_⟩
  rw [getLsbD_maskOf _ hl]
  simp only [List.mem_map, List.mem_filter, bne_iff_ne, and_assoc, Env.Poisoned]
  exact exists_congr fun r => and_congr_right fun _ => and_comm

/-- A half of register r that holds an active sub-element of a lane is poisoned (R99). -/
def Env.BadHalf (e : Env) (r : Nat) (p : Option Nat) (w l : Nat) : Prop :=
  ∃ k ∈ e.copies, ∃ j < 64 / w, e.acts p w k l j = true ∧ e.core.cellPoison (e.cellOf k r l) &&& halfOf w j ≠ 0

theorem and_foldl_halves_ne_zero (x : BitVec 2) (w : Nat) (ss : List Nat) :
    x &&& ss.foldl (fun h s => h ||| halfOf w s) 0#2 ≠ 0 ↔ ∃ s ∈ ss, x &&& halfOf w s ≠ 0 := by
  have hfold : ∀ h : BitVec 2, x &&& ss.foldl (fun h s => h ||| halfOf w s) h ≠ 0 ↔ x &&& h ≠ 0 ∨ ∃ s ∈ ss, x &&& halfOf w s ≠ 0 := by
    induction ss with
    | nil => simp
    | cons s ss ih =>
      intro h
      have hor : ∀ x h k : BitVec 2, x &&& (h ||| k) ≠ 0 ↔ x &&& h ≠ 0 ∨ x &&& k ≠ 0 := by decide
      rw [List.foldl_cons, ih, hor, List.exists_mem_cons_iff, or_assoc]
  simpa using hfold 0

theorem Env.poisoned_subReads (e : Env) (r : Nat) (p : Option Nat) (w l : Nat) :
    (∃ x ∈ e.subReads r p w, x.lane = l ∧ e.Poisoned x) ↔ l ∈ e.lanes ∧ e.BadHalf r p w l := by
  have hcell : ∀ k, (∃ s ∈ e.subs p w k l, e.core.cellPoison (e.cellOf k r l) &&& halfOf w s ≠ 0) ↔
      ∃ j < 64 / w, e.acts p w k l j = true ∧ e.core.cellPoison (e.cellOf k r l) &&& halfOf w j ≠ 0 := fun k => by
    simp [Env.subs, activeSubs, Env.acts, and_assoc]
  constructor
  · rintro ⟨x, hx, rfl, hbad⟩
    obtain ⟨⟨k, m⟩, hkm, hread⟩ := List.mem_filterMap.1 hx
    obtain ⟨hk, hm⟩ := e.mem_cells.1 hkm
    dsimp only at hread
    split at hread
    · cases hread
    · cases hread
      exact ⟨hm, k, hk, (hcell k).1 ((and_foldl_halves_ne_zero _ w _).1 hbad)⟩
  · rintro ⟨hl, k, hk, hhalf⟩
    have hbad := (and_foldl_halves_ne_zero _ w _).2 ((hcell k).2 hhalf)
    have hne : ¬ (e.subs p w k l).foldl (fun h s => h ||| halfOf w s) 0#2 = 0 := fun h0 => hbad (by rw [h0]; exact BitVec.and_zero)
    exact ⟨_, List.mem_filterMap.2 ⟨(k, l), e.mem_cells.2 ⟨hk, hl⟩, if_neg hne⟩, rfl, hbad⟩

/-- The poisoned lanes of a and of b, where no immediate replaces it. -/
theorem Env.poisoned_operands (e : Env) (a b : Nat) (p : Option Nat) (w l : Nat) :
    (∃ x ∈ e.subReads a p w ++ e.bReads b p w, x.lane = l ∧ e.Poisoned x) ↔
      l ∈ e.lanes ∧ (e.BadHalf a p w l ∨ (e.hints.imm = none ∧ e.BadHalf b p w l)) := by
  have hb : (∃ x ∈ e.bReads b p w, x.lane = l ∧ e.Poisoned x) ↔ e.hints.imm = none ∧ l ∈ e.lanes ∧ e.BadHalf b p w l := by
    unfold Env.bReads
    cases e.hints.imm with
    | none => simpa using e.poisoned_subReads b p w l
    | some n => simp
  simp only [List.mem_append, or_and_right, exists_or, e.poisoned_subReads, hb]
  tauto

/-- A short-latency instruction that passes its checks and reads poison stops. -/
theorem State.compute_trap {s : State} {e : Env} {i : Instr} {f : Form} {reads : Env → List Read} {writes : Env → List CellWrite} {t : Trap}
    (h : Ready s e) (hf : Fits e f i) (hc : f.closes = .nothing) (hb : f.barrier = false) (hu : f.unit = false)
    (ht : e.poisonTrap (reads e.fresh) = some t) (h0 : t.cause ≠ 0) :
    s.compute i f reads writes = .next (e.fresh.raise t (s.clearWait e)) := by
  rw [State.compute, State.issue_of_ready h hc hb hu hf, Env.fresh_poisonTrap, ht]
  dsimp only
  rw [if_neg h0]

/-! ### ADD.T -/

theorem exec_ialuAdd (t : BitVec 3) (d a b : BitVec 6) (p : BitVec 3) (s : State) :
    exec (.ialuAdd t d a b p) s = intAB (.ialuAdd t d a b p) t.toNat d.toNat a.toNat b.toNat p.toNat true (· + ·) s := rfl

theorem Env.streamTrap_formAB {e : Env} (hsrc : e.src = .slotA ∨ e.src = .slotB) (p d a b : Nat) (acc : Accepts) (word : Lane) :
    e.streamTrap (formAB p d a b acc) word = none := by
  rcases hsrc with hs | hs <;> simp [Env.streamTrap, formAB, hs]

theorem Group.names_of_slot {g : Group} {src : Source} (hsrc : src = .slotA ∨ src = .slotB) (r : Nat) :
    g.names src r = decide (r < g.frameSize) := by
  rcases hsrc with rfl | rfl <;> rfl

/-- ADD.T with a failed check stops over its active lanes. -/
theorem ialuAdd_stops {s : State} {e : Env} {t : BitVec 3} {d a b : BitVec 6} {p : BitVec 3} (h : Settled s e)
    (hsrc : e.src = .slotA ∨ e.src = .slotB) (hs : e.Stoppable) {cause : Nat} {info : Lane}
    (ht : e.formTrap (formAB p.toNat d.toNat a.toNat b.toNat { sat := true }) (infoWord (.ialuAdd t d a b p)) =
      some (e.overActive (formAB p.toNat d.toNat a.toNat b.toNat { sat := true }) cause info))
    (hf : ∀ debug, fateOf cause debug = .handler) (hc : cause < 256) :
    ∃ u, exec (.ialuAdd t d a b p) s = .next u ∧
      Stops s u e cause (maskOf (e.active p.toNat)) [] (inLanes (e.active p.toNat) info) e.stopPc := by
  have hne : e.src ≠ .handler := by rcases hsrc with hs | hs <;> simp [hs]
  rw [exec_ialuAdd, intAB, State.compute]
  exact State.issue_formTrap_stops h rfl rfl rfl hne hs ht hf hc rfl

theorem ialuAdd_poisoned {s : State} {e : Env} {t : BitVec 3} {d a b : BitVec 6} {p : BitVec 3} (h : Settled s e)
    (hsrc : e.src = .slotA ∨ e.src = .slotB) (ha : e.g.arrivals = [])
    (hf : Fits e (formAB p.toNat d.toNat a.toNat b.toNat { sat := true }) (.ialuAdd t d a b p))
    (hbad : ∃ l ∈ e.lanes, e.BadHalf a.toNat (some p.toNat) (widthOf t.toNat) l) :
    ∃ u r, exec (.ialuAdd t d a b p) s = .next u ∧ u.DoomedAs e.gid r ∧ r.cause.toNat % 2 ^ 8 = 0x05 ∧
      (∀ l < 32, r.mask.getLsbD l = true ↔ l ∈ e.lanes ∧ (e.BadHalf a.toNat (some p.toNat) (widthOf t.toNat) l ∨
        (e.hints.imm = none ∧ e.BadHalf b.toNat (some p.toNat) (widthOf t.toNat) l))) ∧ SameCells s u := by
  have hread : ∃ x ∈ e.subReads a.toNat (some p.toNat) (widthOf t.toNat) ++ e.bReads b.toNat (some p.toNat) (widthOf t.toNat),
      e.Poisoned x := by
    obtain ⟨l, hl, hbad⟩ := hbad
    obtain ⟨x, hx, -, hp⟩ := (e.poisoned_operands _ b.toNat _ _ l).2 ⟨hl, Or.inl hbad⟩
    exact ⟨x, hx, hp⟩
  obtain ⟨trap, htrap, hcause, hlane, hlanes⟩ := Env.poisonTrap_of_poisoned hread
  have hexec : exec (.ialuAdd t d a b p) s = .next (e.fresh.raise trap (s.clearWait e)) := by
    rw [exec_ialuAdd]
    refine State.compute_trap h.ready hf rfl rfl rfl ?_ (by rw [hcause]; decide)
    rw [Env.fresh_subReads, Env.fresh_bReads, htrap]
  have hraise : e.fresh.raise trap (s.clearWait e) =
      (s.clearWait e).takeStop e.fresh.gid (some e.fresh.src) trap e.stopPc e.stopPc (!e.slot.hints.isEmpty) := by
    unfold Env.raise
    rcases hsrc with hs | hs <;> rw [Env.fresh_src, hs] <;> rfl
  have hdefers : e.fresh.g.defers = [] := by rw [Env.fresh_gdefers, h.settled]
  have harrivals : e.fresh.g.arrivals = [] := by rw [Env.fresh_garrivals, ha]
  obtain ⟨hdoomed, hcells⟩ := State.takeStop_dooms (t := trap) h.fresh_group hdefers harrivals (by rw [hcause]; decide)
    (by rw [hcause]; rfl) e.fresh.src e.stopPc e.stopPc (!e.slot.hints.isEmpty)
  refine ⟨_, _, hexec, hraise ▸ hdoomed, ?_, fun l hl => ?_, hraise ▸ hcells⟩
  · exact (toNat_causeWord_mod _ _ _ (by rw [hcause]; decide) hlane).trans hcause
  · rw [← e.poisoned_operands, ← hlanes l hl]
    show (trap.lanes.setWidth 64).getLsbD l = true ↔ _
    rw [BitVec.getLsbD_setWidth, decide_eq_true (by omega), Bool.true_and]

/-- Settles O19: a failed check stops the slot before its operands are read, and poison found among them asks for the gang's kill. -/
theorem formErrorsAndPoisonStop : Obligations.FormErrorsAndPoisonStop := by
  unfold Obligations.FormErrorsAndPoisonStop
  constructor
  · intro s e t d a b p h hsrc hs i act here hb
    have hform := Env.formTrap_of_field (word := infoWord i) (Env.streamTrap_formAB hsrc p.toNat d.toNat a.toNat b.toNat { sat := true } _)
      (fun hi => ⟨rfl, by rw [hb hi]; rfl⟩)
    refine ⟨fun hh => ?_, fun hh hn => ?_⟩
    · refine ialuAdd_stops h hsrc hs (hform.trans (if_neg ?_)) (fun _ => rfl) (by decide)
      rw [formAB, hh]
      decide
    · refine ialuAdd_stops h hsrc hs (hform.trans ((if_pos hh).trans (if_neg ?_))) (fun _ => rfl) (by decide)
      simp only [List.all_eq_true, Env.named, formAB, Group.names_of_slot hsrc, decide_eq_true_eq, not_forall, not_lt]
      rcases hn with hd | ha | ⟨hi, hb⟩
      · exact ⟨d.toNat, by simp, hd⟩
      · exact ⟨a.toNat, by simp, ha⟩
      · exact ⟨b.toNat, by simp [hi], hb⟩
  · intro s e t d a b p h hsrc ha hf w bad hbad
    obtain ⟨u, r, hexec, ⟨g, hg, hlife, hstage, htrap⟩, hcause, hmask, hcells⟩ := ialuAdd_poisoned h hsrc ha hf hbad
    subst htrap
    exact ⟨u, g, hexec, hg, hlife, hstage, hcause, hmask, hcells⟩

end Sys2Proof.Machine
end

section
/-! What the short-latency compute instructions share: unpoisoned operands, and completion where the meaning of the instruction is one
`State.compute` (R98 to R101). -/

namespace Sys2Proof.Machine

theorem widthOf_cases (t : Nat) : widthOf t = 8 ∨ widthOf t = 16 ∨ widthOf t = 32 ∨ widthOf t = 64 := by
  unfold widthOf
  split <;> decide

/-! ### Forms and reads -/

/-- A form that closes no window, is no barrier and does not go to the matrix unit. -/
structure Form.Plain (f : Form) : Prop where
  closes : f.closes = .nothing
  barrier : f.barrier = false
  unit : f.unit = false

theorem formAB_plain (p d a b : Nat) (acc : Accepts) : (formAB p d a b acc).Plain := ⟨rfl, rfl, rfl⟩
theorem formA_plain (p d a : Nat) (acc : Accepts) : (formA p d a acc).Plain := ⟨rfl, rfl, rfl⟩

/-- Every register that the list names is free of poison in the lanes of the slot. -/
def Env.AllClean (e : Env) (rs : List Nat) : Prop := ∀ r ∈ rs, e.Clean r

/-- No read of the list meets poison (R34). -/
def Env.ReadsClean (e : Env) (rs : List Read) : Prop := ∀ r ∈ rs, e.core.cellPoison (32 * e.reg r.reg + r.phys) = 0

section
variable {e : Env}

theorem Env.readsClean_nil : e.ReadsClean [] := fun _ h => nomatch h

theorem Env.ReadsClean.append {rs rs' : List Read} (h : e.ReadsClean rs) (h' : e.ReadsClean rs') : e.ReadsClean (rs ++ rs') :=
  fun r hr => (List.mem_append.1 hr).elim (h r) (h' r)

/-- Reads that name a clean register in lanes of the slot. -/
theorem Env.readsClean_of_cells {rs : List Read} (h : ∀ x ∈ rs, e.Clean x.reg ∧ ∃ k ∈ e.copies, ∃ l ∈ e.lanes, x.phys = e.phys k l) :
    e.ReadsClean rs := by
  intro x hx
  obtain ⟨hclean, k, hk, l, hl, hphys⟩ := h x hx
  rw [hphys]
  exact hclean k hk l hl

theorem Env.ReadsClean.subs {r : Nat} (h : e.Clean r) (p : Option Nat) (w : Nat) : e.ReadsClean (e.subReads r p w) :=
  Env.clean_subReads h p w

theorem Env.ReadsClean.b {b : Nat} (h : e.AllClean (e.orImm b)) (p : Option Nat) (w : Nat) : e.ReadsClean (e.bReads b p w) :=
  Env.clean_bReads (fun hi => h b (by simp [Env.orImm, hi])) p w

/-- Operands a and b. -/
theorem Env.ReadsClean.ab {a b : Nat} (h : e.AllClean (a :: e.orImm b)) (p : Option Nat) (w : Nat) :
    e.ReadsClean (e.subReads a p w ++ e.bReads b p w) :=
  (Env.ReadsClean.subs (h a List.mem_cons_self) p w).append (Env.ReadsClean.b (fun r hr => h r (List.mem_cons_of_mem _ hr)) p w)

/-- Operands a, b and d. -/
theorem Env.ReadsClean.abd {d a b : Nat} (h : e.AllClean (d :: a :: e.orImm b)) (p : Option Nat) (w : Nat) :
    e.ReadsClean (e.subReads a p w ++ e.bReads b p w ++ e.subReads d p w) :=
  (Env.ReadsClean.ab (fun r hr => h r (List.mem_cons_of_mem _ hr)) p w).append (Env.ReadsClean.subs (h d List.mem_cons_self) p w)

/-- Operand a, and d where the form reads it. -/
theorem Env.ReadsClean.da {d a : Nat} {readsD : Bool} (h : e.AllClean (a :: if readsD then [d] else [])) (p : Option Nat) (w : Nat) :
    e.ReadsClean (e.subReads a p w ++ if readsD then e.subReads d p w else []) := by
  refine (Env.ReadsClean.subs (h a List.mem_cons_self) p w).append ?_
  cases readsD with
  | false => exact Env.readsClean_nil
  | true => exact Env.ReadsClean.subs (h d (List.mem_cons_of_mem _ List.mem_cons_self)) p w

end

/-! ### Completion -/

theorem ComputesSubs.of_compute {i : Instr} {f : Form} {sources : Env → List Nat} {reads : Env → List Read} {d w : Nat} {p : Option Nat}
    {F : Env → Nat → Nat → Nat → Nat} (hexec : ∀ s, exec i s = s.compute i f reads fun e => e.subWrites d p w (F e)) (hf : f.Plain)
    (hw : w = 8 ∨ w = 16 ∨ w = 32 ∨ w = 64) (hreads : ∀ e : Env, e.AllClean (sources e) → e.ReadsClean (reads e.fresh)) :
    ComputesSubs i f sources d w (fun e => e.acts p w) (fun e => F e.fresh) := by
  intro s e h hfits hclean
  rw [hexec]
  exact State.compute_subs h hfits hf.closes hf.barrier hf.unit (hreads e hclean) hw

theorem ComputesLanes.of_compute {i : Instr} {f : Form} {sources : Env → List Nat} {reads : Env → List Read} {d : Nat} {p : Option Nat}
    {F : Env → Nat → Nat → Lane} (hexec : ∀ s, exec i s = s.compute i f reads fun e => e.laneWrites d p (F e)) (hf : f.Plain)
    (hreads : ∀ e : Env, e.AllClean (sources e) → e.ReadsClean (reads e.fresh)) :
    ComputesLanes i f sources d p (fun e => F e.fresh) := by
  intro s e h hfits hclean
  rw [hexec]
  exact State.compute_lanes h hfits hf.closes hf.barrier hf.unit (hreads e hclean)

theorem ComputesPred.of_compute {i : Instr} {f : Form} {sources : Env → List Nat} {reads : Env → List Read} {q w : Nat} {p : Option Nat}
    {F : Env → Nat → Nat → Nat → Bool} (hexec : ∀ s, exec i s = s.computePred i f q reads fun e => e.condWrites p w (F e)) (hf : f.Plain)
    (hw : w = 8 ∨ w = 16 ∨ w = 32 ∨ w = 64) (hreads : ∀ e : Env, e.AllClean (sources e) → e.ReadsClean (reads e.fresh)) :
    ComputesPred i f sources q p w (fun e => F e.fresh) := by
  intro s e h hfits hclean
  rw [hexec]
  exact State.computePred_conds h hfits hf.closes hf.barrier hf.unit (hreads e hclean) hw

/-- The same values, told otherwise: a value counts modulo the width. -/
theorem WritesSubs.congr {s t : State} {e : Env} {d w : Nat} {acts : Nat → Nat → Nat → Bool} {value value' : Nat → Nat → Nat → Nat}
    {x : Touch} (h : WritesSubs s t e d w acts value x) (hv : ∀ k l j, value k l j % 2 ^ w = value' k l j % 2 ^ w) :
    WritesSubs s t e d w acts value' x :=
  ⟨fun k hk l hl j hj ha => by rw [← hv]; exact h.active k hk l hl j hj ha, h.inactive, h.frame⟩

theorem ComputesSubs.congr {i : Instr} {f : Form} {sources : Env → List Nat} {d w : Nat} {acts : Env → Nat → Nat → Nat → Bool}
    {value value' : Env → Nat → Nat → Nat → Nat} (h : ComputesSubs i f sources d w acts value)
    (hv : ∀ e, Fits e f i → ∀ k l j, value e k l j % 2 ^ w = value' e k l j % 2 ^ w) : ComputesSubs i f sources d w acts value' := by
  intro s e hready hfits hclean
  obtain ⟨t, ht, hwrites⟩ := h s e hready hfits hclean
  exact ⟨t, ht, hwrites.congr (hv e hfits)⟩

end Sys2Proof.Machine
end

section
/-! Integer and float arithmetic and shifts, sub-element by sub-element (R104, R105, R108, R114, R115). -/

namespace Sys2Proof.Machine

/-- A form that takes no SAT has none bound (R70). -/
theorem Fits.not_sat {e : Env} {f : Form} {i : Instr} (h : Fits e f i) (hf : f.accepts.sat = false) : e.hints.sat = false := by
  obtain ⟨-, -, -, hsat, -⟩ := Hints.accepted_iff (Env.hints_accepted h)
  exact hsat hf

theorem storeInt_of_not_sat {sat : Bool} (h : sat = false) (t : Nat) (z : Int) : storeInt t sat z = lowBits (widthOf t) z := by
  rw [storeInt, h, if_neg Bool.false_ne_true]

/-! ### Integers -/

theorem intAB_computes {i : Instr} {t d a b p : Nat} {takesSat : Bool} {op : Int → Int → Int}
    (hexec : ∀ s, exec i s = intAB i t d a b p takesSat op s) :
    ComputesSubs i (formAB p d a b { sat := takesSat }) (fun e => a :: e.orImm b) d (widthOf t) (fun e => e.acts (some p) (widthOf t))
      (fun e k l j => storeInt t e.hints.sat (op (intOf t (subOf (widthOf t) j (e.val k a l))) (intOf t (e.bSub b (widthOf t) k l j)))) := by
  have h := ComputesSubs.of_compute (sources := fun e => a :: e.orImm b) hexec (formAB_plain ..) (widthOf_cases t)
    (fun e hclean => by simpa using Env.ReadsClean.ab hclean (some p) (widthOf t))
  simpa using h

theorem intDA_computes {i : Instr} {t d a p : Nat} {takesSat readsD : Bool} {op : Int → Int → Int}
    (hexec : ∀ s, exec i s = intDA i t d a p takesSat readsD op s) :
    ComputesSubs i (formA p d a { sat := takesSat }) (fun _ => a :: if readsD then [d] else []) d (widthOf t)
      (fun e => e.acts (some p) (widthOf t))
      (fun e k l j => storeInt t e.hints.sat
        (op (intOf t (subOf (widthOf t) j (e.val k d l))) (intOf t (subOf (widthOf t) j (e.val k a l))))) := by
  have h := ComputesSubs.of_compute (sources := fun _ => a :: if readsD then [d] else []) hexec (formA_plain ..) (widthOf_cases t)
    (fun e hclean => by simpa using Env.ReadsClean.da hclean (some p) (widthOf t))
  simpa using h

theorem mad_computes (t : BitVec 3) (d a b : BitVec 6) (p : BitVec 3) :
    ComputesSubs (.mad t d a b p) (formAB p.toNat d.toNat a.toNat b.toNat { sat := true })
      (fun e => d.toNat :: a.toNat :: e.orImm b.toNat) d.toNat (widthOf t.toNat) (fun e => e.acts (some p.toNat) (widthOf t.toNat))
      (fun e k l j => storeInt t.toNat e.hints.sat
        (intOf t.toNat (subOf (widthOf t.toNat) j (e.val k a.toNat l)) * intOf t.toNat (e.bSub b.toNat (widthOf t.toNat) k l j) +
          intOf t.toNat (subOf (widthOf t.toNat) j (e.val k d.toNat l)))) := by
  have h := ComputesSubs.of_compute (i := .mad t d a b p) (sources := fun e => d.toNat :: a.toNat :: e.orImm b.toNat) (fun _ => rfl)
    (formAB_plain ..) (widthOf_cases t.toNat)
    (fun e hclean => by simpa using Env.ReadsClean.abd hclean (some p.toNat) (widthOf t.toNat))
  simpa using h

@[simp] theorem Env.fresh_imm11 (e : Env) (i : BitVec 11) : e.fresh.imm11 i = e.imm11 i := rfl

theorem ialuiAdd_computes (t : BitVec 3) (d a : BitVec 6) (i : BitVec 11) :
    ComputesSubs (.ialuiAdd t d a i) { accepts := { imm := true, sat := true }, regs := [d.toNat, a.toNat], imm11 := i.toNat }
      (fun _ => [a.toNat]) d.toNat (widthOf t.toNat) (fun e => e.acts none (widthOf t.toNat))
      (fun e k l j => storeInt t.toNat e.hints.sat
        (intOf t.toNat (subOf (widthOf t.toNat) j (e.val k a.toNat l)) + intOf t.toNat ((e.imm11 i).toNat % 2 ^ widthOf t.toNat))) := by
  have h := ComputesSubs.of_compute (i := .ialuiAdd t d a i) (sources := fun _ => [a.toNat]) (fun _ => rfl) ⟨rfl, rfl, rfl⟩
    (widthOf_cases t.toNat)
    (fun e hclean => by simpa using Env.ReadsClean.subs (hclean a.toNat List.mem_cons_self) none (widthOf t.toNat))
  simpa using h

/-- Forms without SAT store the low bits of the exact result. -/
theorem ComputesSubs.lowBits {i : Instr} {f : Form} {sources : Env → List Nat} {d t : Nat} {acts : Env → Nat → Nat → Nat → Bool}
    {z z' : Env → Nat → Nat → Nat → Int}
    (h : ComputesSubs i f sources d (widthOf t) acts fun e k l j => storeInt t e.hints.sat (z e k l j)) (hf : f.accepts.sat = false)
    (hz : ∀ e k l j, z e k l j = z' e k l j) :
    ComputesSubs i f sources d (widthOf t) acts fun e k l j => Machine.lowBits (widthOf t) (z' e k l j) :=
  h.congr fun e hfits k l j => by rw [storeInt_of_not_sat (hfits.not_sat hf), hz]

/-! ### Floats -/

theorem floatAB_computes {i : Instr} {t d a b p : Nat} {op : Mode → Val → Val → Val} (hexec : ∀ s, exec i s = floatAB i t d a b p op s) :
    ComputesSubs i (formAB p d a b { re := true }) (fun e => a :: e.orImm b) d (widthOf t) (fun e => e.acts (some p) (widthOf t))
      (fun e k l j => roundVal t e.hints.mode (op e.hints.mode (decodeVal t (subOf (widthOf t) j (e.val k a l)))
        (decodeVal t (e.bSub b (widthOf t) k l j)))) := by
  have h := ComputesSubs.of_compute (sources := fun e => a :: e.orImm b) hexec (formAB_plain ..) (widthOf_cases t)
    (fun e hclean => by simpa using Env.ReadsClean.ab hclean (some p) (widthOf t))
  simpa using h

theorem floatABD_computes {i : Instr} {t d a b p : Nat} {op : Mode → Val → Val → Val → Val}
    (hexec : ∀ s, exec i s = floatABD i t d a b p op s) :
    ComputesSubs i (formAB p d a b { re := true }) (fun e => d :: a :: e.orImm b) d (widthOf t) (fun e => e.acts (some p) (widthOf t))
      (fun e k l j => roundVal t e.hints.mode (op e.hints.mode (decodeVal t (subOf (widthOf t) j (e.val k a l)))
        (decodeVal t (e.bSub b (widthOf t) k l j)) (decodeVal t (subOf (widthOf t) j (e.val k d l))))) := by
  have h := ComputesSubs.of_compute (sources := fun e => d :: a :: e.orImm b) hexec (formAB_plain ..) (widthOf_cases t)
    (fun e hclean => by simpa using Env.ReadsClean.abd hclean (some p) (widthOf t))
  simpa using h

theorem floatDA_computes {i : Instr} {t d a p : Nat} {readsD : Bool} {f : Mode → Nat → Nat → Nat}
    (hexec : ∀ s, exec i s = floatDA i t d a p readsD f s) :
    ComputesSubs i (formA p d a { re := true }) (fun _ => a :: if readsD then [d] else []) d (widthOf t)
      (fun e => e.acts (some p) (widthOf t))
      (fun e k l j => f e.hints.mode (subOf (widthOf t) j (e.val k d l)) (subOf (widthOf t) j (e.val k a l))) := by
  have h := ComputesSubs.of_compute (sources := fun _ => a :: if readsD then [d] else []) hexec (formA_plain ..) (widthOf_cases t)
    (fun e hclean => by simpa using Env.ReadsClean.da hclean (some p) (widthOf t))
  simpa using h

/-- Settles O5: each float instruction is one of three shared operations, which compute the exact value and round it once. -/
theorem floatArithmeticResults : Obligations.FloatArithmeticResults := by
  unfold Obligations.FloatArithmeticResults
  intro t d a b p
  exact ⟨floatAB_computes (op := Val.add) fun _ => rfl, floatAB_computes (op := fun m x y => Val.add m x y.neg) fun _ => rfl,
    floatAB_computes (op := fun _ => Val.mul) fun _ => rfl,
    floatABD_computes (op := fun m x y z => Val.add m (x.mul y) z) fun _ => rfl,
    floatABD_computes (op := fun m x y z => Val.add m (x.mul y) z.neg) fun _ => rfl,
    floatABD_computes (op := fun m x y z => Val.add m (x.mul y).neg z) fun _ => rfl,
    floatDA_computes (f := fun _ x y => minMaxFloat (8 + t.toNat) true x y) fun _ => rfl,
    floatDA_computes (f := fun _ x y => minMaxFloat (8 + t.toNat) false x y) fun _ => rfl,
    floatDA_computes (f := fun _ _ x => negFloat (8 + t.toNat) x) fun _ => rfl,
    floatDA_computes (f := fun _ _ x => absFloat (8 + t.toNat) x) fun _ => rfl,
    floatDA_computes (f := fun m _ x => roundVal (8 + t.toNat) m (rintVal m (decodeVal (8 + t.toNat) x))) fun _ => rfl⟩

/-! ### Shifts -/

theorem shift_computes {i : Instr} {t d a b p : Nat} {f : Nat → Nat → Nat} (hexec : ∀ s, exec i s = shift i t d a b p f s) :
    ComputesSubs i (formAB p d a b {}) (fun e => a :: e.orImm b) d (widthOf t) (fun e => e.acts (some p) (widthOf t))
      (fun e k l j => f (subOf (widthOf t) j (e.val k a l)) (e.bSub b (widthOf t) k l j)) := by
  have h := ComputesSubs.of_compute (sources := fun e => a :: e.orImm b) hexec (formAB_plain ..) (widthOf_cases t)
    (fun e hclean => by simpa using Env.ReadsClean.ab hclean (some p) (widthOf t))
  simpa using h

theorem intOf_bounds (t n : Nat) : -(2 ^ widthOf t : Nat) ≤ intOf t n ∧ intOf t n < (2 ^ widthOf t : Nat) := by
  have hlt : n % 2 ^ widthOf t < 2 ^ widthOf t := Nat.mod_lt _ (Nat.two_pow_pos _)
  unfold intOf signedOf
  split
  · split <;> omega
  · omega

/-- A quotient by a power of two of the bound or more is the sign: 0 or -1. -/
theorem ediv_eq_of_bounds {x m n : Int} (hmn : m ≤ n) (hlo : -m ≤ x) (hhi : x < m) : x / n = x / m := by
  rcases lt_or_ge x 0 with hneg | hpos
  · rw [Int.ediv_eq_neg_one_of_neg_of_le hneg (by omega), Int.ediv_eq_neg_one_of_neg_of_le hneg (by omega)]
  · rw [Int.ediv_eq_zero_of_lt hpos (by omega), Int.ediv_eq_zero_of_lt hpos hhi]

/-- A count of the width and above shifts as the width does (R108). -/
theorem shrSub_eq (t x c : Nat) : shrSub t x c = lowBits (widthOf t) (intOf t x / (2 ^ c : Nat)) := by
  obtain ⟨hlo, hhi⟩ := intOf_bounds t x
  rcases Nat.le_total c (widthOf t) with h | h
  · rw [shrSub, Nat.min_eq_left h]
  · rw [shrSub, Nat.min_eq_right h, ediv_eq_of_bounds (n := (2 ^ c : Nat)) ?_ hlo hhi]
    exact_mod_cast Nat.pow_le_pow_right (by decide) h

/-- Settles O3: a count of the width or more leaves 0, or the sign of an I type. -/
theorem shiftResults : Obligations.ShiftResults := by
  unfold Obligations.ShiftResults
  intro t d a b p
  constructor
  · refine (shift_computes fun _ => rfl).congr fun e _ k l j => ?_
    unfold shlSub
    split
    · exact Nat.mod_mod _ _
    · rfl
  · exact (shift_computes fun _ => rfl).congr fun e _ k l j => by rw [shrSub_eq]

end Sys2Proof.Machine
end

section
/-! Writes of chosen parts of a register: logic by bytes, conversion of the low sub-elements, and DOT4 (R107, R116, R117). -/

namespace Sys2Proof.Machine

/-! ### Parts of a lane -/

theorem getLsbD_foldl_subBits {w j i : Nat} (ss : List Nat) (hi : i < w) (h64 : w * j + i < 64) :
    (ss.foldl (fun m s => m ||| subBits w s) 0#64).getLsbD (w * j + i) = decide (j ∈ ss) := by
  have hbit : ∀ s, (subBits w s).getLsbD (w * j + i) = true ↔ s = j := by
    intro s
    simp only [subBits_getLsbD, h64, decide_true, Bool.true_and, Bool.and_eq_true, decide_eq_true_eq]
    constructor
    · rintro ⟨h1, h2⟩
      exact sub_disjoint hi h1 h2
    · rintro rfl
      omega
  rw [getLsbD_foldl_or, BitVec.getLsbD_zero, Bool.false_or, Bool.eq_iff_iff, List.any_eq_true, decide_eq_true_eq]
  simp only [hbit, exists_eq_right]

/-- A write of the bits of some sub-elements takes those from the value, and keeps the others. -/
theorem subOf_masked {w j : Nat} (ss : List Nat) (x v : Lane) (hj : w * j + w ≤ 64) :
    subOf w j ((x &&& ~~~(ss.foldl (fun m s => m ||| subBits w s) 0)) ||| (v &&& ss.foldl (fun m s => m ||| subBits w s) 0)) =
      if j ∈ ss then subOf w j v else subOf w j x := by
  refine Nat.eq_of_testBit_eq fun i => ?_
  rw [apply_ite (Nat.testBit · i), subOf_testBit, subOf_testBit, subOf_testBit]
  by_cases hi : i < w
  · have h64 : w * j + i < 64 := by omega
    have hbits := getLsbD_foldl_subBits ss hi h64
    by_cases hm : j ∈ ss <;> simp_all
  · simp [hi]

theorem subOf_foldl_subAt {w j : Nat} {ss : List Nat} (f : Nat → Nat) (hj : w * j + w ≤ 64) (hm : j ∈ ss) :
    subOf w j (ss.foldl (fun m s => m ||| subAt w s (f s)) 0) = f j % 2 ^ w := by
  have h := subOf_mergeSubs ss f 0 hj
  rwa [mergeSubs, subOf_masked ss _ _ hj, if_pos hm, if_pos hm] at h

theorem sub_fits {w j : Nat} (hw : w = 8 ∨ w = 16 ∨ w = 32 ∨ w = 64) (hj : j < 64 / w) : w * j + w ≤ 64 := by
  rcases hw with rfl | rfl | rfl | rfl <;> omega

/-! ### Writes of parts -/

/-- The write of the sub-elements `ss` of register d in each cell of the slot, with v the lane that they are taken from. -/
def Env.partWrites (e : Env) (d w : Nat) (ss : Nat → Nat → List Nat) (v : Nat → Nat → Lane) : List CellWrite :=
  e.cells.filterMap fun (k, l) =>
    if (ss k l).isEmpty then none
    else some { cell := e.cellOf k d l, bits := (ss k l).foldl (fun m s => m ||| subBits w s) 0, value := v k l }

theorem Env.cell_of_partWrites {e : Env} {d w : Nat} {ss : Nat → Nat → List Nat} {v : Nat → Nat → Lane} {x : CellWrite}
    (h : x ∈ e.partWrites d w ss v) : e.cellsOf d x.cell := by
  obtain ⟨⟨k, l⟩, hkl, hx⟩ := List.mem_filterMap.1 h
  obtain ⟨hk, hl⟩ := e.mem_cells.1 hkl
  dsimp only at hx
  split at hx
  · cases hx
  · cases hx
    exact ⟨k, hk, l, hl, rfl⟩

/-- What such a write leaves in a cell of d. -/
theorem Env.writeAll_partWrites (e : Env) (c : Core) (d w : Nat) (ss : Nat → Nat → List Nat) (v : Nat → Nat → Lane) {k l : Nat}
    (hk : k ∈ e.copies) (hl : l ∈ e.lanes) {j : Nat} (hw : w = 8 ∨ w = 16 ∨ w = 32 ∨ w = 64) (hj : j < 64 / w) :
    (j ∈ ss k l → subOf w j ((c.writeAll (e.partWrites d w ss v)).cell (e.cellOf k d l)) = subOf w j (v k l) ∧
      (c.writeAll (e.partWrites d w ss v)).cellPoison (e.cellOf k d l) &&& halfOf w j = 0) ∧
    (j ∉ ss k l → subOf w j ((c.writeAll (e.partWrites d w ss v)).cell (e.cellOf k d l)) = subOf w j (c.cell (e.cellOf k d l))) := by
  obtain ⟨hsome, hnone⟩ := Core.writeAll_cells e c d (fun x : Nat × Nat =>
      if (ss x.1 x.2).isEmpty then none
      else some { cell := e.cellOf x.1 d x.2, bits := (ss x.1 x.2).foldl (fun m s => m ||| subBits w s) 0, value := v x.1 x.2 })
    (fun k l x hx => by dsimp only at hx; split at hx <;> cases hx; rfl) hk hl
  dsimp only at hsome hnone
  by_cases hne : (ss k l).isEmpty = true
  · rw [List.isEmpty_iff.1 hne]
    exact ⟨fun h => (List.not_mem_nil h).elim, fun _ => congrArg (subOf w j) (hnone (if_pos hne))⟩
  · obtain ⟨hcell, hpoison⟩ := hsome _ (if_neg hne)
    have hsub := subOf_masked (ss k l) (c.cell (e.cellOf k d l)) (v k l) (sub_fits hw hj)
    refine ⟨fun hm => ⟨?_, ?_⟩, fun hm => ?_⟩
    · rw [if_pos hm] at hsub
      exact (congrArg (subOf w j) hcell).trans hsub
    · exact (congrArg (· &&& halfOf w j) hpoison).trans (halvesOf_subs hw _ hm hj _ _)
    · rw [if_neg hm] at hsub
      exact (congrArg (subOf w j) hcell).trans hsub

theorem ComputesSubs.of_parts {i : Instr} {f : Form} {sources : Env → List Nat} {reads : Env → List Read} {writes : Env → List CellWrite}
    {d w : Nat} {acts : Env → Nat → Nat → Nat → Bool} {value : Env → Nat → Nat → Nat → Nat} (ss : Env → Nat → Nat → List Nat)
    (v : Env → Nat → Nat → Lane) (hexec : ∀ s, exec i s = s.compute i f reads writes) (hf : f.Plain)
    (hw : w = 8 ∨ w = 16 ∨ w = 32 ∨ w = 64) (hreads : ∀ e : Env, e.AllClean (sources e) → e.ReadsClean (reads e.fresh))
    (hwrites : ∀ e : Env, writes e.fresh = e.partWrites d w (ss e) (v e))
    (hacts : ∀ e k l, ∀ j < 64 / w, j ∈ ss e k l ↔ acts e k l j = true)
    (hvalue : ∀ e k l, ∀ j < 64 / w, j ∈ ss e k l → subOf w j (v e k l) = value e k l j % 2 ^ w) :
    ComputesSubs i f sources d w acts value := by
  intro s e h hfits hclean
  rw [hexec, State.compute_next h hfits hf.closes hf.barrier hf.unit (hreads e hclean), hwrites]
  obtain ⟨hleaves, hcell⟩ := leaves_of_cells h (e.partWrites d w (ss e) (v e)) fun _ hx => Env.cell_of_partWrites hx
  refine ⟨_, rfl, fun k hk l hl j hj ha => ?_, fun k hk l hl j hj ha => ?_, hleaves⟩
  · have hm := (hacts e k l j hj).2 ha
    rw [(hcell _).1, (hcell _).2, ← hvalue e k l j hj hm]
    exact (e.writeAll_partWrites e.core d w (ss e) (v e) hk hl hw hj).1 hm
  · have hm : j ∉ ss e k l := fun hm => Bool.false_ne_true (ha.symm.trans ((hacts e k l j hj).1 hm))
    rw [(hcell _).1]
    exact (e.writeAll_partWrites e.core d w (ss e) (v e) hk hl hw hj).2 hm

/-! ### Logic -/

theorem getLsbD_ite_zero (c : Bool) (v : Lane) (i : Nat) : (if c then v else 0).getLsbD i = (c && v.getLsbD i) := by
  cases c <;> simp

theorem lopBits_getLsbD (t : BitVec 4) (a b : Lane) {i : Nat} (hi : i < 64) :
    (lopBits t.toNat a b).getLsbD i = t.getLsbD (2 * (a.getLsbD i).toNat + (b.getLsbD i).toNat) := by
  simp only [lopBits, BitVec.testBit_toNat, BitVec.getLsbD_or, getLsbD_ite_zero, BitVec.getLsbD_and, BitVec.getLsbD_not, hi, decide_true]
  cases a.getLsbD i <;> cases b.getLsbD i <;> simp

theorem byteBits_eq (g : Byte) : byteBits g = (activeSubs 8 g).foldl (fun m s => m ||| subBits 8 s) 0 := by
  simp [byteBits, activeSubs, List.foldl_filter]

theorem byteBits_eq_zero_iff (g : Byte) : byteBits g = 0 ↔ (activeSubs 8 g).isEmpty = true := by
  rw [byteBits_eq, List.isEmpty_iff]
  constructor
  · intro h
    refine List.eq_nil_iff_forall_not_mem.2 fun j hj => ?_
    have hlt : j < 8 := List.mem_range.1 (List.mem_filter.1 hj).1
    have hbit := getLsbD_foldl_subBits (w := 8) (j := j) (i := 0) (activeSubs 8 g) (by decide) (by omega)
    rw [decide_eq_true hj] at hbit
    exact absurd (hbit.symm.trans (congrArg (BitVec.getLsbD · _) h)) (by simp)
  · intro h
    rw [h]
    rfl

theorem Env.byteWrites_eq (e : Env) (d : Nat) (p : Option Nat) (f : Nat → Nat → Lane) :
    e.byteWrites d p f = e.partWrites d 8 (e.subs p 8) f := by
  refine List.filterMap_congr fun ⟨k, l⟩ _ => ?_
  exact if_congr (byteBits_eq_zero_iff _) rfl (by rw [byteBits_eq]; rfl)

/-- A form that writes the bytes whose guard bit is set. -/
theorem bytes_compute {i : Instr} {f : Form} {sources : Env → List Nat} {reads : Env → List Read} {d : Nat} {p : Option Nat}
    {v : Env → Nat → Nat → Lane} (hexec : ∀ s, exec i s = s.compute i f reads fun e => e.byteWrites d p (v e)) (hf : f.Plain)
    (hv : ∀ e : Env, v e.fresh = v e) (hreads : ∀ e : Env, e.AllClean (sources e) → e.ReadsClean (reads e.fresh)) :
    ComputesSubs i f sources d 8 (fun e => e.acts p 8) (fun e k l j => subOf 8 j (v e k l)) := by
  refine ComputesSubs.of_parts (fun e => e.subs p 8) v hexec hf (by decide) hreads (fun e => ?_) (fun e k l j hj => mem_activeSubs hj)
    (fun e k l j _ _ => (Nat.mod_mod _ _).symm)
  rw [Env.byteWrites_eq, hv]
  simp [Env.partWrites]

theorem lop_computes (t : BitVec 4) (d a b : BitVec 6) (p : BitVec 3) :
    ComputesSubs (.lop t d a b p) (formAB p.toNat d.toNat a.toNat b.toNat {})
      (fun e => (if lopReadsA t.toNat then [a.toNat] else []) ++ if lopReadsB t.toNat then e.orImm b.toNat else []) d.toNat 8
      (fun e => e.acts (some p.toNat) 8) (fun e k l j => subOf 8 j (lopBits t.toNat (e.val k a.toNat l) (e.bVal b.toNat k l))) := by
  refine bytes_compute (v := fun e k l => lopBits t.toNat (e.val k a.toNat l) (e.bVal b.toNat k l)) (fun _ => rfl) (formAB_plain ..)
    (fun e => by simp) fun e hclean => ?_
  simp only [Env.fresh_subReads, Env.fresh_bReads]
  refine Env.ReadsClean.append ?_ ?_
  · split
    · next h => exact Env.ReadsClean.subs (hclean _ (by simp [h])) _ _
    · exact Env.readsClean_nil
  · split
    · next h => exact Env.ReadsClean.b (fun r hr => hclean r (by simp [h, hr])) _ _
    · exact Env.readsClean_nil

theorem lopi_computes (t : BitVec 4) (d a : BitVec 6) (i : BitVec 11) :
    ComputesSubs (.lopi t d a i) { accepts := { imm := true }, regs := [d.toNat, a.toNat], imm11 := i.toNat }
      (fun _ => if lopReadsA t.toNat then [a.toNat] else []) d.toNat 8 (fun e => e.acts none 8)
      (fun e k l j => subOf 8 j (lopBits t.toNat (e.val k a.toNat l) (e.imm11 i))) := by
  refine bytes_compute (v := fun e k l => lopBits t.toNat (e.val k a.toNat l) (e.imm11 i)) (fun _ => rfl) ⟨rfl, rfl, rfl⟩
    (fun e => by simp) fun e hclean => ?_
  simp only [Env.fresh_subReads]
  split
  · next h => exact Env.ReadsClean.subs (hclean _ (by simp [h])) _ _
  · exact Env.readsClean_nil

/-! ### Conversion -/

theorem convertForm_computes {i : Instr} {wd t d a p : Nat} (f : Env → Nat → Nat) (hexec : ∀ s, exec i s = convertForm i wd t d a p f s)
    (hw : wd = 8 ∨ wd = 16 ∨ wd = 32 ∨ wd = 64) (hf : ∀ e : Env, f e.fresh = f e) :
    ComputesSubs i (formA p d a { re := true, sat := true }) (fun _ => [a]) d wd
      (fun e k l j => e.acts (some p) wd k l j && decide (j < min (64 / wd) (64 / widthOf t)))
      (fun e k l j => f e (subOf (widthOf t) j (e.val k a l))) := by
  refine ComputesSubs.of_parts (fun e k l => (e.subs (some p) wd k l).filter (· < min (64 / wd) (64 / widthOf t)))
    (fun e k l => ((e.subs (some p) wd k l).filter (· < min (64 / wd) (64 / widthOf t))).foldl
      (fun m x => m ||| subAt wd x (f e (subOf (widthOf t) x (e.val k a l)))) 0)
    hexec (formA_plain ..) hw (fun e hclean => ?_) (fun e => ?_) (fun e k l j hj => ?_) (fun e k l j hj hm => ?_)
  · refine Env.readsClean_of_cells fun x hx => ?_
    obtain ⟨⟨k, l⟩, hkl, hx⟩ := List.mem_filterMap.1 hx
    obtain ⟨hk, hl⟩ := e.mem_cells.1 (Env.fresh_cells e ▸ hkl)
    dsimp only at hx
    split at hx <;> cases hx
    exact ⟨hclean a List.mem_cons_self, k, hk, l, hl, Env.fresh_phys e k l⟩
  · simp [Env.partWrites, hf]
  · rw [List.mem_filter, Bool.and_eq_true, Env.subs, mem_activeSubs hj]
    rfl
  · exact subOf_foldl_subAt _ (sub_fits hw hj) hm

/-! ### DOT4 -/

theorem signedOf_emod (w n : Nat) : signedOf w n % (2 ^ w : Nat) = (n : Int) % (2 ^ w : Nat) := by
  rw [signedOf]
  split
  · rw [Int.natCast_mod, Int.emod_emod]
  · rw [Int.sub_emod_right, Int.natCast_mod, Int.emod_emod]

theorem cast_lowBits (w : Nat) (z : Int) : (Machine.lowBits w z : Int) = z % (2 ^ w : Nat) :=
  Int.toNat_of_nonneg (Int.emod_nonneg _ (by positivity))

/-- The integer forms of DOT4 add the products to the word modulo 2^32 (R116). -/
theorem dot4Word_emod {t : Nat} (ht : kindOf t ≠ .tapered) (m : Mode) (j : Nat) (x y z : Lane) :
    (dot4Word t m j x y z : Int) % 2 ^ 32 =
      (((List.range 4).map fun i => intOf t (subOf 8 (4 * j + i) x) * intOf t (subOf 8 (4 * j + i) y)).sum + subOf 32 j z) % 2 ^ 32 := by
  have hword : (if kindOf t = .int then signedOf 32 (subOf 32 j z) else (subOf 32 j z : Int)) % (2 ^ 32 : Nat) =
      (subOf 32 j z : Int) % (2 ^ 32 : Nat) := by
    split
    · exact signedOf_emod 32 _
    · rfl
  rw [dot4Word, if_neg ht, cast_lowBits, List.map_map]
  push_cast at hword ⊢
  rw [Int.emod_emod, Int.add_emod, hword, ← Int.add_emod]
  rfl

theorem dot4_computes (t : BitVec 4) (d a b : BitVec 6) (p : BitVec 3) :
    ComputesSubs (.dot4 t d a b p)
      { accepts := { neg := true, re := t = 12 }, guard := some p.toNat, regs := [d.toNat, a.toNat, b.toNat] }
      (fun _ => [a.toNat, b.toNat, d.toNat]) d.toNat 32 (fun e => e.acts (some p.toNat) 32)
      (fun e k l j => dot4Word t.toNat e.hints.mode j (e.val k a.toNat l) (e.val k b.toNat l) (e.val k d.toNat l)) := by
  have h := ComputesSubs.of_compute (i := .dot4 t d a b p) (sources := fun _ => [a.toNat, b.toNat, d.toNat]) (fun _ => rfl)
    ⟨rfl, rfl, rfl⟩ (by decide) fun e hclean => ?_
  · simpa using h
  · have hsubs : ∀ r ∈ [a.toNat, b.toNat, d.toNat], e.ReadsClean (e.subReads r (some p.toNat) 32) := fun r hr =>
      Env.ReadsClean.subs (hclean r hr) _ _
    simp only [Env.fresh_subReads]
    exact ((hsubs _ (by simp)).append (hsubs _ (by simp))).append (hsubs _ (by simp))

/-- Settles O6: a conversion writes the parts of d that are active and have a source, and DOT4 whole words. -/
theorem dotAndConversionResults : Obligations.DotAndConversionResults := by
  unfold Obligations.DotAndConversionResults
  intro t s d a b p f
  exact ⟨dot4_computes t d a b p, fun ht m j x y z => dot4Word_emod ht m j x y z,
    convertForm_computes (fun e x => convert t.toNat s.toNat e.hints.mode e.hints.sat x) (fun _ => rfl) (widthOf_cases _) fun _ => rfl,
    convertForm_computes (fun e x => convertFp8 (f = 1) s.toNat e.hints.mode e.hints.sat x) (fun _ => rfl) (by decide) fun _ => rfl⟩

end Sys2Proof.Machine
end

section
/-! Whole lanes: moves, bit fields, bit counts and rotates (R105, R109). -/

namespace Sys2Proof.Machine

theorem bitsAB_computes {i : Instr} {d a b p : Nat} {readsD : Bool} {f : Lane → Lane → Lane → Lane}
    (hexec : ∀ s, exec i s = bitsAB i d a b p readsD f s) :
    ComputesLanes i (formAB p d a b {}) (fun e => (if readsD then [d] else []) ++ a :: e.orImm b) d (some p)
      (fun e k l => f (e.val k d l) (e.val k a l) (e.bVal b k l)) := by
  have h := ComputesLanes.of_compute (sources := fun e => (if readsD then [d] else []) ++ a :: e.orImm b) hexec (formAB_plain ..)
    fun e hclean => ?_
  · simpa using h
  · simp only [Env.fresh_subReads, Env.fresh_bReads]
    refine Env.ReadsClean.append (Env.ReadsClean.ab (fun r hr => hclean r (List.mem_append_right _ hr)) _ _) ?_
    cases readsD with
    | false => exact Env.readsClean_nil
    | true => exact Env.ReadsClean.subs (hclean d List.mem_cons_self) _ _

theorem bitsA_computes {i : Instr} {d a p : Nat} {f : Lane → Lane} (hexec : ∀ s, exec i s = bitsA i d a p f s) :
    ComputesLanes i (formA p d a {}) (fun _ => [a]) d (some p) (fun e k l => f (e.val k a l)) := by
  have h := ComputesLanes.of_compute (sources := fun _ => [a]) hexec (formA_plain ..)
    fun e hclean => by simpa using Env.ReadsClean.subs (hclean a List.mem_cons_self) (some p) 64
  simpa using h

theorem movImm_computes (d : BitVec 6) (i : BitVec 11) :
    ComputesLanes (.movImm d i) { accepts := { imm := true }, regs := [d.toNat], imm11 := i.toNat } (fun _ => []) d.toNat none
      (fun e _ _ => e.imm11 i) :=
  ComputesLanes.of_compute (reads := fun _ => []) (F := fun e _ _ => e.imm11 i) (fun _ => rfl) ⟨rfl, rfl, rfl⟩ fun _ _ => Env.readsClean_nil

/-! ### Bit fields and bit counts -/

theorem bfiLane_getLsbD (d a b : Lane) {i : Nat} (hi : i < 64) :
    (bfiLane d a b).getLsbD i =
      if fieldPos b ≤ i ∧ i < fieldPos b + fieldLen b then a.getLsbD (i - fieldPos b) else d.getLsbD i := by
  have hmask : ((2 ^ fieldLen b - 1) * 2 ^ fieldPos b).testBit i = decide (fieldPos b ≤ i ∧ i < fieldPos b + fieldLen b) := by
    rw [Nat.testBit_mul_two_pow, Nat.testBit_two_pow_sub_one, Bool.decide_and]
    by_cases h : fieldPos b ≤ i
    · simp only [h, decide_true, Bool.true_and]
      exact decide_eq_decide.2 (by omega)
    · simp only [h, decide_false, Bool.false_and]
  simp only [bfiLane, BitVec.getLsbD_or, BitVec.getLsbD_and, BitVec.getLsbD_not, BitVec.getLsbD_ofNat, hi, decide_true, Bool.true_and, hmask]
  by_cases h : fieldPos b ≤ i ∧ i < fieldPos b + fieldLen b
  · have hlt : i - fieldPos b < fieldLen b := by omega
    simp [h, hlt, Nat.testBit_mul_two_pow, Nat.testBit_mod_two_pow, BitVec.testBit_toNat]
  · simp [h]

/-- The number of leading zeros of a row of bits: the bits before it are clear, and the one at it, if any, is set. -/
theorem leadingZeros_spec (f : Nat → Bool) (n : Nat) :
    (((List.range n).map f).takeWhile (!·)).length ≤ n ∧
    (∀ i < (((List.range n).map f).takeWhile (!·)).length, f i = false) ∧
    ((((List.range n).map f).takeWhile (!·)).length < n → f (((List.range n).map f).takeWhile (!·)).length = true) := by
  have hlen : (((List.range n).map f).takeWhile (!·)).length = ((List.range n).map f).findIdx id := by
    rw [List.takeWhile_eq_take_findIdx_not, List.length_take]
    simp only [Bool.not_not]
    exact Nat.min_eq_left List.findIdx_le_length
  rw [hlen]
  refine ⟨by simpa using List.findIdx_le_length (p := id) (xs := (List.range n).map f), fun i hi => ?_, fun hn => ?_⟩
  · simpa using List.not_of_lt_findIdx hi
  · simpa using List.findIdx_getElem (p := id) (xs := (List.range n).map f) (w := by simpa using hn)

theorem exists_getLsbD_of_ne_zero {v : Lane} (hv : v ≠ 0) : ∃ i < 64, v.getLsbD i = true := by
  by_contra h
  push Not at h
  exact hv (BitVec.eq_of_getLsbD_eq fun i hi => by simpa using h i hi)

theorem clzLane_spec {v : Lane} (hv : v ≠ 0) : v.toNat / 2 ^ (63 - (clzLane v).toNat) = 1 := by
  obtain ⟨hle, hclear, hset⟩ := leadingZeros_spec (fun i => v.getLsbD (63 - i)) 64
  unfold clzLane
  generalize (((List.range 64).map fun i => v.getLsbD (63 - i)).takeWhile (!·)).length = c at hle hclear hset ⊢
  have hc : c < 64 := by
    obtain ⟨i, hi, hbit⟩ := exists_getLsbD_of_ne_zero hv
    by_contra h
    have hzero := hclear (63 - i) (by omega)
    rw [Nat.sub_sub_self (by omega), hbit] at hzero
    cases hzero
  rw [BitVec.toNat_ofNat, Nat.mod_eq_of_lt (by omega)]
  refine Nat.eq_of_testBit_eq fun i => ?_
  rw [Nat.testBit_div_two_pow, BitVec.testBit_toNat, ← Nat.pow_zero 2, Nat.testBit_two_pow]
  rcases Nat.eq_zero_or_pos i with rfl | hpos
  · simpa using hset hc
  · rw [decide_eq_false (by omega)]
    rcases Nat.lt_or_ge c i with hci | hci
    · exact BitVec.getLsbD_of_ge v _ (by omega)
    · have hzero := hclear (c - i) (by omega)
      rwa [show 63 - (c - i) = i + (63 - c) by omega] at hzero

theorem ctzLane_spec {v : Lane} (hv : v ≠ 0) : v.toNat % 2 ^ ((ctzLane v).toNat + 1) = 2 ^ (ctzLane v).toNat := by
  obtain ⟨hle, hclear, hset⟩ := leadingZeros_spec v.getLsbD 64
  unfold ctzLane
  change v.toNat % 2 ^ ((BitVec.ofNat 64 (((List.range 64).map v.getLsbD).takeWhile (!·)).length).toNat + 1) =
    2 ^ (BitVec.ofNat 64 (((List.range 64).map v.getLsbD).takeWhile (!·)).length).toNat
  generalize (((List.range 64).map v.getLsbD).takeWhile (!·)).length = c at hle hclear hset ⊢
  have hc : c < 64 := by
    obtain ⟨i, hi, hbit⟩ := exists_getLsbD_of_ne_zero hv
    by_contra h
    exact Bool.false_ne_true ((hclear i (by omega)).symm.trans hbit)
  have hmod : c % 2 ^ 64 = c := Nat.mod_eq_of_lt (by omega)
  rw [BitVec.toNat_ofNat, hmod]
  refine Nat.eq_of_testBit_eq fun i => ?_
  rw [Nat.testBit_mod_two_pow, BitVec.testBit_toNat, Nat.testBit_two_pow]
  rcases Nat.lt_trichotomy i c with h | rfl | h
  · simp [hclear i h, h.ne']
  · simp [hset hc]
  · simp [show ¬ i < c + 1 by omega, h.ne]

/-- Settles O2: LOP writes the guarded bytes of its truth table, and each BITS form whole lanes. -/
theorem logicAndBitFieldResults : Obligations.LogicAndBitFieldResults := by
  unfold Obligations.LogicAndBitFieldResults
  refine ⟨⟨fun t a b i hi => lopBits_getLsbD t a b hi, fun t d a b p i => ⟨lop_computes t d a b p, lopi_computes t d a i, movImm_computes d i⟩⟩,
    fun d a b p => ?_⟩
  exact ⟨bitsAB_computes (readsD := false) (f := fun _ => bfxLane) fun _ => rfl,
    bitsAB_computes (readsD := false) (f := fun _ => bfxsLane) fun _ => rfl,
    bitsAB_computes (readsD := true) (f := bfiLane) fun _ => rfl,
    fun d a b i hi => bfiLane_getLsbD d a b hi,
    bitsA_computes fun _ => rfl, bitsA_computes fun _ => rfl, bitsA_computes fun _ => rfl, bitsA_computes (f := brevLane) fun _ => rfl,
    fun v hv => ⟨clzLane_spec hv, ctzLane_spec hv⟩, by decide, by decide,
    bitsAB_computes (readsD := false) (f := fun _ x c => x.rotateLeft (c.toNat % 64)) fun _ => rfl,
    bitsAB_computes (readsD := false) (f := fun _ x c => x.rotateRight (c.toNat % 64)) fun _ => rfl⟩

end Sys2Proof.Machine
end

section
/-! Compares, selection and predicate logic (R110 to R113). -/

namespace Sys2Proof.Machine

theorem cmp_computes (t : BitVec 4) (c q : BitVec 3) (a b : BitVec 6) (p : BitVec 3) :
    ComputesPred (.cmp t c q a b p) { accepts := { neg := true, imm := true }, guard := some p.toNat, regs := [a.toNat], b := some b.toNat }
      (fun e => a.toNat :: e.orImm b.toNat) q.toNat (some p.toNat) (widthOf t.toNat)
      (fun e k l j => compareSub t.toNat (condOf c.toNat) (subOf (widthOf t.toNat) j (e.val k a.toNat l))
        (e.bSub b.toNat (widthOf t.toNat) k l j)) := by
  have h := ComputesPred.of_compute (i := .cmp t c q a b p) (sources := fun e => a.toNat :: e.orImm b.toNat) (fun _ => rfl) ⟨rfl, rfl, rfl⟩
    (widthOf_cases t.toNat) fun e hclean => by simpa using Env.ReadsClean.ab hclean (some p.toNat) (widthOf t.toNat)
  simpa using h

theorem cmpi_computes (t : BitVec 4) (c q : BitVec 3) (a : BitVec 6) (i : BitVec 11) :
    ComputesPred (.cmpi t c q a i) { accepts := { imm := true }, regs := [a.toNat], imm11 := i.toNat } (fun _ => [a.toNat]) q.toNat none
      (widthOf t.toNat)
      (fun e k l j => compareSub t.toNat (condOf c.toNat) (subOf (widthOf t.toNat) j (e.val k a.toNat l))
        ((e.imm11 i).toNat % 2 ^ widthOf t.toNat)) := by
  have h := ComputesPred.of_compute (i := .cmpi t c q a i) (sources := fun _ => [a.toNat]) (fun _ => rfl) ⟨rfl, rfl, rfl⟩
    (widthOf_cases t.toNat) fun e hclean => by simpa using Env.ReadsClean.subs (hclean a.toNat List.mem_cons_self) none (widthOf t.toNat)
  simpa using h

theorem test_computes (t q : BitVec 3) (a m : BitVec 6) (p : BitVec 3) :
    ComputesPred (.test t q a m p) { accepts := { neg := true }, guard := some p.toNat, regs := [a.toNat] } (fun _ => [a.toNat]) q.toNat
      (some p.toNat) (widthOf (8 + t.toNat))
      (fun e k l j => classMatches (8 + t.toNat) m.toNat (subOf (widthOf (8 + t.toNat)) j (e.val k a.toNat l))) := by
  have h := ComputesPred.of_compute (i := .test t q a m p) (sources := fun _ => [a.toNat]) (fun _ => rfl) ⟨rfl, rfl, rfl⟩
    (widthOf_cases (8 + t.toNat))
    fun e hclean => by simpa using Env.ReadsClean.subs (hclean a.toNat List.mem_cons_self) (some p.toNat) (widthOf (8 + t.toNat))
  simpa using h

/-! ### Selection -/

/-- Reads of register r in the cells of the slot that have a chosen sub-element. -/
def Env.chosenReads (e : Env) (r w : Nat) (chosen : Nat → Nat → Nat → Bool) : List Read :=
  e.cells.filterMap fun (k, l) =>
    let h := ((List.range (64 / w)).filter (chosen k l)).foldl (fun h s => h ||| halfOf w s) 0#2
    if h = 0 then none else some { reg := r, lane := l, phys := e.phys k l, halves := h }

theorem Env.ReadsClean.chosen {e : Env} {r : Nat} (h : e.Clean r) (w : Nat) (chosen : Nat → Nat → Nat → Bool) :
    e.ReadsClean (e.chosenReads r w chosen) := by
  refine Env.readsClean_of_cells fun x hx => ?_
  obtain ⟨⟨k, l⟩, hkl, hx⟩ := List.mem_filterMap.1 hx
  obtain ⟨hk, hl⟩ := e.mem_cells.1 hkl
  dsimp only at hx
  split at hx <;> cases hx
  exact ⟨h, k, hk, l, hl, rfl⟩

@[simp] theorem Env.fresh_chosenReads (e : Env) (r w : Nat) (chosen : Nat → Nat → Nat → Bool) :
    e.fresh.chosenReads r w chosen = e.chosenReads r w chosen := by
  simp [Env.chosenReads]

@[simp] theorem Env.fresh_selects (e : Env) (p w k l j : Nat) : e.fresh.selects p w k l j = e.selects p w k l j := by
  simp [Env.selects]

theorem sel_computes (t : BitVec 4) (d a b : BitVec 6) (p : BitVec 3) :
    ComputesSubs (.sel t d a b p) { accepts := { neg := true, imm := true }, regs := [d.toNat, a.toNat], b := some b.toNat }
      (fun e => a.toNat :: e.orImm b.toNat) d.toNat (widthOf t.toNat) (fun e => e.acts none (widthOf t.toNat))
      (fun e k l j => if e.selects p.toNat (widthOf t.toNat) k l j then subOf (widthOf t.toNat) j (e.val k a.toNat l)
        else e.bSub b.toNat (widthOf t.toNat) k l j) := by
  have h := ComputesSubs.of_compute (i := .sel t d a b p) (sources := fun e => a.toNat :: e.orImm b.toNat)
    (reads := fun e => e.chosenReads a.toNat (widthOf t.toNat) (fun k l s => e.selects p.toNat (widthOf t.toNat) k l s == true) ++
      if e.hints.imm.isSome then [] else
        e.chosenReads b.toNat (widthOf t.toNat) (fun k l s => e.selects p.toNat (widthOf t.toNat) k l s == false))
    (fun _ => rfl) ⟨rfl, rfl, rfl⟩ (widthOf_cases t.toNat) fun e hclean => ?_
  · simpa using h
  · simp only [Env.fresh_chosenReads, Env.fresh_selects, Env.fresh_hints]
    refine Env.ReadsClean.append (Env.ReadsClean.chosen (hclean _ List.mem_cons_self) _ _) ?_
    split
    · exact Env.readsClean_nil
    · next himm =>
      have hb : b.toNat ∈ e.orImm b.toNat := by rw [Env.orImm, if_neg himm]; exact List.mem_cons_self
      exact Env.ReadsClean.chosen (hclean _ (List.mem_cons_of_mem _ hb)) _ _

/-! ### Predicate logic -/

theorem getLsbD_ite_zero_byte (c : Bool) (v : Byte) (i : Nat) : (if c then v else 0).getLsbD i = (c && v.getLsbD i) := by
  cases c <;> simp

theorem plopByte_getLsbD (t : BitVec 4) (a b : Byte) {i : Nat} (hi : i < 8) :
    (plopByte t.toNat a b).getLsbD i = t.getLsbD (2 * (a.getLsbD i).toNat + (b.getLsbD i).toNat) := by
  simp only [plopByte, BitVec.testBit_toNat, BitVec.getLsbD_or, getLsbD_ite_zero_byte, BitVec.getLsbD_and, BitVec.getLsbD_not, hi, decide_true]
  cases a.getLsbD i <;> cases b.getLsbD i <;> simp

/-- The predicate writes of PLOP. -/
def Env.plopWrites (e : Env) (t : BitVec 4) (pa pb p : BitVec 3) : List PredWrite :=
  e.cells.map fun (k, l) =>
    { phys := e.phys k l, mask := e.guard p.toNat k l,
      value := plopByte t.toNat (e.g.pred pa.toNat (e.phys k l)) (e.g.pred pb.toNat (e.phys k l)) }

@[simp] theorem Env.fresh_plopWrites (e : Env) (t : BitVec 4) (pa pb p : BitVec 3) : e.fresh.plopWrites t pa pb p = e.plopWrites t pa pb p := by
  simp [Env.plopWrites]

theorem plop_writes (t : BitVec 4) (pd pa pb p : BitVec 3) {s : State} {e : Env} (h : Ready s e)
    (hf : Fits e { accepts := { neg := true }, guard := some p.toNat } (.plop t pd pa pb p)) :
    ∃ u, exec (.plop t pd pa pb p) s = .next u ∧ Leaves s u e { preds := e.predsOf pd.toNat } ∧
      (pd ≠ 0 → ∀ g, u.group? e.gid = some g → ∀ k ∈ e.copies, ∀ l ∈ e.lanes, ∀ i < 8,
        (g.pred pd.toNat (e.phys k l)).getLsbD i =
          if (e.guard p.toNat k l).getLsbD i then
            t.getLsbD (2 * ((e.g.pred pa.toNat (e.phys k l)).getLsbD i).toNat + ((e.g.pred pb.toNat (e.phys k l)).getLsbD i).toNat)
          else (e.g.pred pd.toNat (e.phys k l)).getLsbD i) := by
  have hexec : exec (.plop t pd pa pb p) s =
      s.computePred (.plop t pd pa pb p) { accepts := { neg := true }, guard := some p.toNat } pd.toNat (fun _ => [])
        fun e => e.plopWrites t pa pb p := rfl
  rw [hexec, State.computePred_next (reads := fun _ => []) h hf rfl rfl rfl Env.readsClean_nil, Env.fresh_plopWrites]
  obtain ⟨hleaves, g0, hg0, hpreds⟩ := leaves_of_preds h pd.toNat (e.plopWrites t pa pb p) fun x hx hq => by
    obtain ⟨⟨k, l⟩, hkl, rfl⟩ := List.mem_map.1 hx
    obtain ⟨hk, hl⟩ := e.mem_cells.1 hkl
    exact ⟨hq, k, hk, l, hl, rfl⟩
  refine ⟨_, rfl, hleaves, fun hpd g hg k hk l hl i hi => ?_⟩
  cases hg0.symm.trans hg
  have hq : pd.toNat ≠ 0 := fun h0 => hpd (BitVec.eq_of_toNat_eq h0)
  have hone := Group.writePreds_one e.g hq (e.plopWrites t pa pb p) _ (List.mem_map.2 ⟨(k, l), e.mem_cells.2 ⟨hk, hl⟩, rfl⟩) fun x hx hphys => by
    obtain ⟨⟨k', l'⟩, hkl, rfl⟩ := List.mem_map.1 hx
    obtain ⟨rfl, rfl⟩ := e.phys_inj (e.mem_cells.1 hkl).1 hk hphys
    rfl
  dsimp only at hone
  have hsame : g0.pred pd.toNat (e.phys k l) = (e.g.writePreds pd.toNat (e.plopWrites t pa pb p)).pred pd.toNat (e.phys k l) := by
    simp only [Group.pred, hq, ↓reduceIte, hpreds]
  rw [hsame, hone]
  simp only [BitVec.getLsbD_or, BitVec.getLsbD_and, BitVec.getLsbD_not, plopByte_getLsbD _ _ _ hi, hi, decide_true, Bool.true_and]
  cases (e.guard p.toNat k l).getLsbD i <;> simp

/-- Settles O4: the compares write conditions, SEL sub-elements of either source, and PLOP the masked predicate bytes. -/
theorem compareAndPredicateResults : Obligations.CompareAndPredicateResults := by
  unfold Obligations.CompareAndPredicateResults
  refine ⟨fun t tf c q p a b m i => ⟨cmp_computes t c q a b p, cmpi_computes t c q a i, test_computes tf q a m p⟩,
    fun t d a b pd pa pb p => ⟨sel_computes t d a b p, fun s e h hf => plop_writes t pd pa pb p h hf⟩⟩

end Sys2Proof.Machine
end

section
/-! The widening forms: a pair of registers read as one 128-bit value, and its fields of twice the width (R106). -/

namespace Sys2Proof.Machine

/-! ### Sums of fields -/

/-- The fields that the listed places of width m hold, g giving each, as one number. -/
def fieldSum (m : Nat) (ss : List Nat) (g : Nat → Nat) : Nat := ss.foldl (fun n s => n + g s * 2 ^ (m * s)) 0

theorem fieldSum_range_succ (m n : Nat) (c : Nat → Bool) (g : Nat → Nat) :
    fieldSum m ((List.range (n + 1)).filter c) g =
      fieldSum m ((List.range n).filter c) g + (if c n then g n else 0) * 2 ^ (m * n) := by
  rw [fieldSum, fieldSum, List.range_succ, List.filter_append, List.foldl_append]
  cases h : c n <;> simp [h]

theorem fieldSum_lt {m : Nat} (c : Nat → Bool) {g : Nat → Nat} (hg : ∀ s, g s < 2 ^ m) (n : Nat) :
    fieldSum m ((List.range n).filter c) g < 2 ^ (m * n) := by
  induction n with
  | zero => simp [fieldSum]
  | succ n ih =>
    have hfield : (if c n then g n else 0) + 1 ≤ 2 ^ m := by
      split
      · exact hg n
      · exact Nat.two_pow_pos m
    have hmul := Nat.mul_le_mul_right (2 ^ (m * n)) hfield
    rw [Nat.add_mul, Nat.one_mul] at hmul
    rw [fieldSum_range_succ, Nat.mul_succ, Nat.pow_add, Nat.mul_comm (2 ^ (m * n))]
    omega

/-- Bit i of field j of a sum of fields. -/
theorem testBit_fieldSum {m : Nat} (c : Nat → Bool) {g : Nat → Nat} (hg : ∀ s, g s < 2 ^ m) {n j i : Nat} (hj : j < n) (hi : i < m) :
    (fieldSum m ((List.range n).filter c) g).testBit (m * j + i) = (c j && (g j).testBit i) := by
  induction n with
  | zero => exact absurd hj (Nat.not_lt_zero j)
  | succ n ih =>
    rw [fieldSum_range_succ, Nat.add_comm, Nat.mul_comm _ (2 ^ (m * n)), Nat.testBit_two_pow_mul_add _ (fieldSum_lt c hg n)]
    rcases Nat.lt_or_eq_of_le (Nat.le_of_lt_succ hj) with hlt | rfl
    · have hbelow := Nat.mul_le_mul_left m (Nat.succ_le_of_lt hlt)
      rw [Nat.mul_succ] at hbelow
      rw [if_pos (by omega), ih hlt]
    · rw [if_neg (by omega), Nat.add_sub_cancel_left]
      cases c j <;> simp

/-! ### A pair of registers -/

/-- Field j of twice the width w of the 128-bit value of a pair of lanes. -/
def pairField (w : Nat) (lo hi : Lane) (j : Nat) : Nat := (lo.toNat + hi.toNat * 2 ^ 64) / 2 ^ (2 * w * j) % 2 ^ (2 * w)

theorem testBit_pairField (w : Nat) (lo hi : Lane) (j i : Nat) :
    (pairField w lo hi j).testBit i =
      (decide (i < 2 * w) && if 2 * w * j + i < 64 then lo.getLsbD (2 * w * j + i) else hi.getLsbD (2 * w * j + i - 64)) := by
  rw [pairField, Nat.testBit_mod_two_pow, Nat.testBit_div_two_pow, Nat.add_comm lo.toNat, Nat.mul_comm hi.toNat,
    Nat.testBit_two_pow_mul_add _ lo.isLt, Nat.add_comm i]
  simp only [BitVec.testBit_toNat]

/-- A write of the chosen fields of a pair leaves them, and keeps the others. -/
theorem pairField_masked {w j : Nat} (hw : w = 8 ∨ w = 16 ∨ w = 32 ∨ w = 64) (hj : j < 64 / w) (b : Byte) {g : Nat → Nat}
    (hg : ∀ s, g s < 2 ^ (2 * w)) (lo hi : Lane) :
    let m := fieldSum (2 * w) (activeSubs w b) fun _ => 2 ^ (2 * w) - 1
    let x := fieldSum (2 * w) (activeSubs w b) g
    pairField w ((lo &&& ~~~BitVec.ofNat 64 m) ||| (BitVec.ofNat 64 x &&& BitVec.ofNat 64 m))
      ((hi &&& ~~~BitVec.ofNat 64 (m / 2 ^ 64)) ||| (BitVec.ofNat 64 (x / 2 ^ 64) &&& BitVec.ofNat 64 (m / 2 ^ 64))) j =
      if b.getLsbD (w / 8 * j) then g j else pairField w lo hi j := by
  intro m x
  refine Nat.eq_of_testBit_eq fun i => ?_
  rw [apply_ite (Nat.testBit · i), testBit_pairField, testBit_pairField]
  by_cases hi' : i < 2 * w
  · have h128 : 2 * w * j + i < 128 := by rcases hw with rfl | rfl | rfl | rfl <;> omega
    have hm : m.testBit (2 * w * j + i) = b.getLsbD (w / 8 * j) := by
      have hmask : ∀ s : Nat, 2 ^ (2 * w) - 1 < 2 ^ (2 * w) := fun _ => Nat.sub_lt (Nat.two_pow_pos _) Nat.one_pos
      exact (testBit_fieldSum (fun s => b.getLsbD (w / 8 * s)) hmask hj hi').trans (by rw [Nat.testBit_two_pow_sub_one, decide_eq_true hi', Bool.and_true])
    have hx : x.testBit (2 * w * j + i) = (b.getLsbD (w / 8 * j) && (g j).testBit i) :=
      testBit_fieldSum (fun s => b.getLsbD (w / 8 * s)) hg hj hi'
    generalize m = m at hm ⊢
    generalize x = x at hx ⊢
    by_cases h64 : 2 * w * j + i < 64
    · simp only [hi', h64, decide_true, Bool.true_and, ↓reduceIte, BitVec.getLsbD_or, BitVec.getLsbD_and, BitVec.getLsbD_not,
        BitVec.getLsbD_ofNat, hm, hx]
      cases b.getLsbD (w / 8 * j) <;> simp
    · have hhigh : 2 * w * j + i - 64 < 64 := by omega
      have hback : 2 * w * j + i - 64 + 64 = 2 * w * j + i := by omega
      simp only [hi', h64, hhigh, decide_true, Bool.true_and, ↓reduceIte, BitVec.getLsbD_or, BitVec.getLsbD_and, BitVec.getLsbD_not,
        BitVec.getLsbD_ofNat, Nat.testBit_div_two_pow, hback, hm, hx]
      cases b.getLsbD (w / 8 * j) <;> simp
  · have hzero : (g j).testBit i = false := Nat.testBit_lt_two_pow (lt_of_lt_of_le (hg j) (Nat.pow_le_pow_right (by decide) (by omega)))
    simp [hi', hzero]

/-! ### The writes of a pair -/

theorem Env.cellOf_inj (e : Env) {r k l k' l' : Nat} (hk : k ∈ e.copies) (hk' : k' ∈ e.copies) (h : e.cellOf k r l = e.cellOf k' r l') :
    k = k' ∧ l = l' :=
  e.phys_inj hk hk' (Nat.add_left_cancel h)

/-- The two writes of one cell of a pair d, d+1: the bits m of x, low and high. -/
def Env.pairWrite (e : Env) (d : Nat) (m x : Nat → Nat → Nat) (k l : Nat) : List CellWrite :=
  [{ cell := e.cellOf k d l, bits := BitVec.ofNat 64 (m k l), value := BitVec.ofNat 64 (x k l) },
   { cell := e.cellOf k (d + 1) l, bits := BitVec.ofNat 64 (m k l / 2 ^ 64), value := BitVec.ofNat 64 (x k l / 2 ^ 64) }]

/-- The writes of a pair in every cell of the slot; a write of no bit is none. -/
def Env.pairWrites (e : Env) (d : Nat) (m x : Nat → Nat → Nat) : List CellWrite :=
  e.cells.flatMap fun (k, l) => (e.pairWrite d m x k l).filter fun c => c.bits != 0

section
variable {e : Env} {d : Nat} {m x : Nat → Nat → Nat}
  (hapart : ∀ k ∈ e.copies, ∀ l ∈ e.lanes, ∀ k' ∈ e.copies, ∀ l' ∈ e.lanes, e.cellOf k d l ≠ e.cellOf k' (d + 1) l')

theorem Env.mem_pairWrites {c : CellWrite} :
    c ∈ e.pairWrites d m x ↔ ∃ k ∈ e.copies, ∃ l ∈ e.lanes, c ∈ e.pairWrite d m x k l ∧ c.bits ≠ 0 := by
  simp only [Env.pairWrites, List.mem_flatMap, Prod.exists, e.mem_cells, List.mem_filter, bne_iff_ne, and_assoc]
  exact exists_congr fun k => by rw [exists_and_left]

include hapart in
/-- The registers of the pair share no cell: a cell names its write. -/
theorem Env.pairWrite_inj {k l k' l' : Nat} (hk : k ∈ e.copies) (hl : l ∈ e.lanes) (hk' : k' ∈ e.copies) (hl' : l' ∈ e.lanes)
    {c c' : CellWrite} (hc : c ∈ e.pairWrite d m x k l) (hc' : c' ∈ e.pairWrite d m x k' l') (h : c.cell = c'.cell) : c = c' := by
  simp only [Env.pairWrite, List.mem_cons, List.not_mem_nil, or_false] at hc hc'
  rcases hc with rfl | rfl <;> rcases hc' with rfl | rfl
  · obtain ⟨rfl, rfl⟩ := e.cellOf_inj hk hk' h
    rfl
  · exact absurd h (hapart k hk l hl k' hk' l' hl')
  · exact absurd h.symm (hapart k' hk' l' hl' k hk l hl)
  · obtain ⟨rfl, rfl⟩ := e.cellOf_inj hk hk' h
    rfl

include hapart in
/-- What the writes of a pair leave in a cell of either register. -/
theorem Env.writeAll_pairWrites (c : Core) {k l : Nat} (hk : k ∈ e.copies) (hl : l ∈ e.lanes) {y : CellWrite}
    (hy : y ∈ e.pairWrite d m x k l) :
    (c.writeAll (e.pairWrites d m x)).cell y.cell = (c.cell y.cell &&& ~~~y.bits) ||| (y.value &&& y.bits) := by
  have hone : ∀ z ∈ e.pairWrites d m x, z.cell = y.cell → z = y := fun z hz hcell => by
    obtain ⟨k', hk', l', hl', hz, -⟩ := Env.mem_pairWrites.1 hz
    exact Env.pairWrite_inj hapart hk' hl' hk hl hz hy hcell
  by_cases h0 : y.bits = 0
  · have hnone : ∀ z ∈ e.pairWrites d m x, z.cell ≠ y.cell := fun z hz hcell => by
      obtain ⟨-, -, -, -, -, hbits⟩ := Env.mem_pairWrites.1 hz
      exact hbits (hone z hz hcell ▸ h0)
    rw [(Core.writeAll_ne c _ hnone).1, h0]
    change _ = (_ &&& ~~~0#64) ||| (_ &&& 0#64)
    rw [BitVec.not_zero, BitVec.and_allOnes, BitVec.and_zero, BitVec.or_zero]
  · exact (Core.writeAll_one c _ y (Env.mem_pairWrites.2 ⟨k, hk, l, hl, hy, h0⟩) hone).1

end

/-! ### The widening forms -/

theorem wideInt_lt (t x y : Nat) (z : Int) : wideInt t x y z < 2 ^ (2 * widthOf t) := by
  unfold wideInt
  split
  · exact Nat.mod_lt _ (Nat.two_pow_pos _)
  · have h := cast_lowBits (2 * widthOf t) z
    have hlt := Int.emod_lt_of_pos z (b := (2 ^ (2 * widthOf t) : Nat)) (by positivity)
    omega

/-- The stored field of sub-element j of a widening form. -/
def Env.wideField (e : Env) (t d a : Nat) (op : Int → Int → Int) (k l j : Nat) : Nat :=
  let x := subOf (widthOf t) j (e.val k d l)
  let y := subOf (widthOf t) j (e.val k a l)
  wideInt t x y (op (intOf t x) (intOf t y))

@[simp] theorem Env.fresh_wideField (e : Env) (t d a : Nat) (op : Int → Int → Int) : e.fresh.wideField t d a op = e.wideField t d a op := by
  funext k l j
  simp [Env.wideField]

/-- The bits of the active fields of a pair. -/
def Env.wideMask (e : Env) (t p k l : Nat) : Nat := fieldSum (2 * widthOf t) (e.subs (some p) (widthOf t) k l) fun _ => 2 ^ (2 * widthOf t) - 1

/-- The active fields of a widening form, in their places. -/
def Env.wideValue (e : Env) (t d a p : Nat) (op : Int → Int → Int) (k l : Nat) : Nat :=
  fieldSum (2 * widthOf t) (e.subs (some p) (widthOf t) k l) (e.wideField t d a op k l)

/-- The writes of a widening form. -/
def Env.wideWrites (e : Env) (t d a p : Nat) (op : Int → Int → Int) : List CellWrite :=
  e.pairWrites d (e.wideMask t p) (e.wideValue t d a p op)

@[simp] theorem Env.fresh_wideWrites (e : Env) (t d a p : Nat) (op : Int → Int → Int) :
    e.fresh.wideWrites t d a p op = e.wideWrites t d a p op := by
  simp [Env.wideWrites, Env.pairWrites, Env.pairWrite, Env.wideMask, Env.wideValue]

theorem intWide_writes {i : Instr} {t d a p : Nat} {op : Int → Int → Int} (hexec : ∀ s, exec i s = intWide i t d a p op s) {s : State}
    {e : Env} (h : Ready s e) (ha : e.Clean a) (hd : e.Clean d)
    (hapart : ∀ k ∈ e.copies, ∀ l ∈ e.lanes, ∀ k' ∈ e.copies, ∀ l' ∈ e.lanes, e.cellOf k d l ≠ e.cellOf k' (d + 1) l')
    (hf : Fits e { (formA p d a { sat := true }) with regs := [d, d + 1, a] } i) :
    ∃ u, exec i s = .next u ∧
      (∀ k ∈ e.copies, ∀ l ∈ e.lanes, ∀ j < 64 / widthOf t,
        pairField (widthOf t) ((u.core e.g.core).cell (e.cellOf k d l)) ((u.core e.g.core).cell (e.cellOf k (d + 1) l)) j =
          if e.acts (some p) (widthOf t) k l j then e.wideField t d a op k l j
          else pairField (widthOf t) (e.val k d l) (e.val k (d + 1) l) j) ∧
      Leaves s u e { cells := fun i => e.cellsOf d i ∨ e.cellsOf (d + 1) i } := by
  have hwrites : exec i s = s.compute i { (formA p d a { sat := true }) with regs := [d, d + 1, a] }
      (fun e => e.subReads a (some p) (widthOf t) ++ e.subReads d (some p) (widthOf t)) (fun e => e.wideWrites t d a p op) := hexec s
  have hclean : e.ReadsClean (e.subReads a (some p) (widthOf t) ++ e.subReads d (some p) (widthOf t)) :=
    (Env.ReadsClean.subs ha _ _).append (Env.ReadsClean.subs hd _ _)
  rw [hwrites, State.compute_next h hf rfl rfl rfl (by simp only [Env.fresh_subReads]; exact hclean), Env.fresh_wideWrites]
  obtain ⟨hleaves, hcell⟩ := leaves_of_cells h (e.wideWrites t d a p op) (cells := fun i => e.cellsOf d i ∨ e.cellsOf (d + 1) i)
    fun y hy => by
      obtain ⟨k, hk, l, hl, hy, -⟩ := Env.mem_pairWrites.1 hy
      simp only [Env.pairWrite, List.mem_cons, List.not_mem_nil, or_false] at hy
      rcases hy with rfl | rfl
      · exact Or.inl ⟨k, hk, l, hl, rfl⟩
      · exact Or.inr ⟨k, hk, l, hl, rfl⟩
  refine ⟨_, rfl, fun k hk l hl j hj => ?_, hleaves⟩
  have hwritten := fun y => Env.writeAll_pairWrites (m := e.wideMask t p) (x := e.wideValue t d a p op) hapart e.core hk hl (y := y)
  have hlo := hwritten _ List.mem_cons_self
  have hhi := hwritten _ (List.mem_cons_of_mem _ List.mem_cons_self)
  rw [(hcell _).1, (hcell _).1]
  refine (congrArg₂ (pairField (widthOf t) · · j) hlo hhi).trans ?_
  exact pairField_masked (widthOf_cases t) hj (e.guardOf (some p) k l) (fun _ => wideInt_lt ..) _ _

/-- Settles O1: the single-width forms store the low bits of the exact result, and the widening forms whole fields of the pair. -/
theorem integerResults : Obligations.IntegerResults := by
  unfold Obligations.IntegerResults
  refine ⟨fun t d a b p i => ?_, fun t d a p s e h ha hd hapart => ?_⟩
  · exact ⟨intAB_computes (op := (· + ·)) fun _ => rfl, intAB_computes (op := (· - ·)) fun _ => rfl,
      (intAB_computes (op := (· * ·)) fun _ => rfl).lowBits rfl fun _ _ _ _ => rfl,
      mad_computes t d a b p,
      (intDA_computes (readsD := true) (op := min) fun _ => rfl).lowBits rfl fun _ _ _ _ => rfl,
      (intDA_computes (readsD := true) (op := max) fun _ => rfl).lowBits rfl fun _ _ _ _ => rfl,
      intDA_computes (readsD := false) (op := fun _ x => -x) fun _ => rfl,
      (intDA_computes (readsD := false) (op := fun _ x => x.natAbs) fun _ => rfl).congr fun e _ k l j => by simp only [Int.natCast_natAbs],
      (intDA_computes (readsD := true) (op := fun x y => (x - y).natAbs) fun _ => rfl).lowBits rfl fun _ _ _ _ => Int.natCast_natAbs _,
      (intDA_computes (readsD := true) (op := fun x y => (x + y + 1) / 2) fun _ => rfl).lowBits rfl fun _ _ _ _ => rfl,
      (intDA_computes (readsD := true) (op := fun x y => x * y / (2 ^ widthOf t.toNat : Nat)) fun _ => rfl).lowBits rfl fun _ _ _ _ => rfl,
      ialuiAdd_computes t d a i⟩
  · exact ⟨intWide_writes (op := (· * ·)) (fun _ => rfl) h ha hd hapart, intWide_writes (op := (· + ·)) (fun _ => rfl) h ha hd hapart,
      intWide_writes (op := (· - ·)) (fun _ => rfl) h ha hd hapart⟩

end Sys2Proof.Machine
end

section
/-! The cross-lane instructions (R118 to R123). -/

namespace Sys2Proof.Machine

@[simp] theorem Env.fresh_width (e : Env) : e.fresh.width = e.width := by simp [Env.width]
@[simp] theorem Env.fresh_activeCopy (e : Env) (p k : Nat) : e.fresh.activeCopy p k = e.activeCopy p k := by simp [Env.activeCopy]
@[simp] theorem Env.fresh_taking (e : Env) (p w a k j : Nat) : e.fresh.taking p w a k j = e.taking p w a k j := by simp [Env.taking]

theorem Env.ReadsClean.cross {e : Env} {r : Nat} (h : e.Clean r) (p w : Nat) (takes : Nat → Nat → Bool) :
    e.ReadsClean (e.crossReads r p w takes) :=
  Env.clean_crossReads h p w takes

theorem Env.width_cases (e : Env) : e.width = 16 ∨ e.width = 32 := by
  unfold Env.width
  split
  · exact Or.inl rfl
  · exact Or.inr rfl

theorem Env.lt_of_mem_lanes {e : Env} {l : Nat} (h : l ∈ e.lanes) : l < 32 := List.mem_range.1 (List.mem_filter.1 h).1

/-! ### ROUTE -/

/-- A source element of ROUTE lies in a lane of the file, whether or not that lane is visible. -/
theorem routeFrom_lt (m : RouteMode) {n v l j : Nat} (w c : Nat) (imm : Bool) (hn : n = 1 ∨ n = 2 ∨ n = 4 ∨ n = 8) (hv : v = 16 ∨ v = 32)
    (hl : l < 32) (hj : j < n) : routeFrom m (n * v) n w (n * l + j) c imm < n * 32 := by
  have hpos : 0 < n := by omega
  have hvis : n * v ≤ n * 32 := Nat.mul_le_mul_left n (by omega)
  have hx : n * l + j < n * 32 := by
    have h := Nat.mul_le_mul_left n (Nat.succ_le_of_lt hl)
    rw [Nat.mul_succ] at h
    omega
  have hmod : ∀ y, y % (n * v) < n * 32 := fun y => lt_of_lt_of_le (Nat.mod_lt y (Nat.mul_pos hpos (by omega))) hvis
  cases m with
  | pick =>
    unfold routeFrom
    dsimp only
    split
    · rw [Nat.mul_div_cancel_left v hpos]
      have hlane : c % v < 32 := lt_of_lt_of_le (Nat.mod_lt c (by omega)) (by omega)
      have h := Nat.mul_le_mul_left n (Nat.succ_le_of_lt hlane)
      rw [Nat.mul_succ] at h
      have hrest := Nat.mod_lt (n * l + j) hpos
      omega
    · exact hmod c
  | slide =>
    unfold routeFrom
    dsimp only
    split
    · exact hx
    · omega
  | rot => exact hmod _
  | flip =>
    have hpow : ∃ k, n * 32 = 2 ^ k := by
      rcases hn with rfl | rfl | rfl | rfl
      exacts [⟨5, rfl⟩, ⟨6, rfl⟩, ⟨7, rfl⟩, ⟨8, rfl⟩]
    obtain ⟨k, hk⟩ := hpow
    rw [hk] at hx hmod ⊢
    exact Nat.xor_lt_two_pow hx (hmod c)

/-- The source element of ROUTE for sub-element j of a lane. -/
def Env.routeSource (e : Env) (m : RouteMode) (w b k l j : Nat) : Nat :=
  routeFrom m (64 / w * e.width) (64 / w) w (64 / w * l + j) (e.bSub b w k l j) e.hints.imm.isSome

@[simp] theorem Env.fresh_routeSource (e : Env) (m : RouteMode) (w b k l j : Nat) : e.fresh.routeSource m w b k l j = e.routeSource m w b k l j := by
  simp [Env.routeSource]

/-- The reads of ROUTE's source elements. -/
def Env.routeReads (e : Env) (m : RouteMode) (w a b p : Nat) : List Read :=
  e.cells.flatMap fun (k, l) => (e.subs (some p) w k l).map fun s =>
    { reg := a, lane := l, phys := e.phys k (e.routeSource m w b k l s / (64 / w)), halves := halfOf w (e.routeSource m w b k l s % (64 / w)) }

@[simp] theorem Env.fresh_routeReads (e : Env) (m : RouteMode) (w a b p : Nat) : e.fresh.routeReads m w a b p = e.routeReads m w a b p := by
  simp [Env.routeReads]

theorem Env.ReadsClean.route {e : Env} (m : RouteMode) {w : Nat} (a b p : Nat) (hw : w = 8 ∨ w = 16 ∨ w = 32 ∨ w = 64)
    (h : ∀ k ∈ e.copies, ∀ l < 32, e.core.cellPoison (e.cellOf k a l) = 0) : e.ReadsClean (e.routeReads m w a b p) := by
  intro x hx
  obtain ⟨⟨k, l⟩, hkl, hx⟩ := List.mem_flatMap.1 hx
  obtain ⟨j, hj, rfl⟩ := List.mem_map.1 hx
  obtain ⟨hk, hl⟩ := e.mem_cells.1 hkl
  have hn : 64 / w = 1 ∨ 64 / w = 2 ∨ 64 / w = 4 ∨ 64 / w = 8 := by rcases hw with rfl | rfl | rfl | rfl <;> decide
  have hlt := routeFrom_lt m w (e.bSub b w k l j) e.hints.imm.isSome hn e.width_cases (Env.lt_of_mem_lanes hl)
    (List.mem_range.1 (List.mem_filter.1 hj).1)
  exact h k hk _ (Nat.div_lt_of_lt_mul hlt)

theorem route_writes {i : Instr} (m : RouteMode) {t d a b p : Nat} (hexec : ∀ s, exec i s = route i m t d a b p s) {s : State} {e : Env}
    (h : Ready s e) (hf : Fits e (formAB p d a b {}) i) (ha : ∀ k ∈ e.copies, ∀ l < 32, e.core.cellPoison (e.cellOf k a l) = 0)
    (hb : e.AllClean (e.orImm b)) :
    ∃ u, exec i s = .next u ∧ WritesSubs s u e d (widthOf t) (e.acts (some p) (widthOf t)) fun k l j =>
      subOf (widthOf t) (e.routeSource m (widthOf t) b k l j % (64 / widthOf t))
        (e.val k a (e.routeSource m (widthOf t) b k l j / (64 / widthOf t))) := by
  have hroute : exec i s = s.compute i (formAB p d a b {}) (fun e => e.routeReads m (widthOf t) a b p ++ e.bReads b (some p) (widthOf t))
      (fun e => e.subWrites d (some p) (widthOf t) fun k l j =>
        subOf (widthOf t) (e.routeSource m (widthOf t) b k l j % (64 / widthOf t))
          (e.val k a (e.routeSource m (widthOf t) b k l j / (64 / widthOf t)))) := hexec s
  have hclean := (Env.ReadsClean.route m a b p (widthOf_cases t) ha).append (Env.ReadsClean.b hb (some p) (widthOf t))
  rw [hroute]
  have hwrites := State.compute_subs (d := d) (p := some p)
    (reads := fun e => e.routeReads m (widthOf t) a b p ++ e.bReads b (some p) (widthOf t)) (F := fun e k l j =>
      subOf (widthOf t) (e.routeSource m (widthOf t) b k l j % (64 / widthOf t))
        (e.val k a (e.routeSource m (widthOf t) b k l j / (64 / widthOf t)))) h hf rfl rfl rfl
    (by simp only [Env.fresh_routeReads, Env.fresh_bReads]; exact hclean) (widthOf_cases t)
  simpa using hwrites

/-! ### VOTE, REDUCE, SCAN and MATCH -/

theorem ComputesLanes.congr {i : Instr} {f : Form} {sources : Env → List Nat} {d : Nat} {p : Option Nat} {value value' : Env → Nat → Nat → Lane}
    (h : ComputesLanes i f sources d p value) (hv : ∀ e k l, value e k l = value' e k l) : ComputesLanes i f sources d p value' := by
  have hvalue : value = value' := funext fun e => funext fun k => funext (hv e k)
  rwa [← hvalue]

theorem vote_computes (o : BitVec 2) (d : BitVec 6) (q p : BitVec 3) :
    ComputesLanes (.vote o d q p) { accepts := { neg := true }, guard := some p.toNat, regs := [d.toNat] } (fun _ => []) d.toNat (some p.toNat)
      fun e k _ => voteResult o.toNat ((e.activeCopy p.toNat k).map fun m => (m, (e.g.pred q.toNat (e.phys k m)).getLsbD 0)) := by
  have h := ComputesLanes.of_compute (i := .vote o d q p) (sources := fun _ => []) (reads := fun _ => []) (fun _ => rfl) ⟨rfl, rfl, rfl⟩
    fun _ _ => Env.readsClean_nil
  simpa using h

theorem reduce_computes (t : BitVec 4) (d a : BitVec 6) (o p : BitVec 3) :
    ComputesSubs (.reduce t d a o p) { accepts := redAccepts t.toNat, guard := some p.toNat, regs := [d.toNat, a.toNat] }
      (fun _ => [a.toNat]) d.toNat (widthOf t.toNat) (fun e => e.acts (some p.toNat) (widthOf t.toNat))
      (fun e k _ j => (treeRoot (combine t.toNat o.toNat e.hints.mode) 5 (e.taking p.toNat (widthOf t.toNat) a.toNat k j)).getD 0) := by
  have h := ComputesSubs.of_compute (i := .reduce t d a o p) (sources := fun _ => [a.toNat]) (fun _ => rfl) ⟨rfl, rfl, rfl⟩
    (widthOf_cases t.toNat)
    fun e hclean => by simpa using Env.ReadsClean.cross (hclean _ List.mem_cons_self) p.toNat (widthOf t.toNat) fun _ _ => true
  simpa using h

theorem scan_computes (t : BitVec 4) (d a : BitVec 6) (x : BitVec 1) (o p : BitVec 3) :
    ComputesSubs (.scan t d a x o p) { accepts := redAccepts t.toNat, guard := some p.toNat, regs := [d.toNat, a.toNat] }
      (fun _ => [a.toNat]) d.toNat (widthOf t.toNat) (fun e => e.acts (some p.toNat) (widthOf t.toNat))
      (fun e k l j => (scanFold (combine t.toNat o.toNat e.hints.mode)
        ((e.taking p.toNat (widthOf t.toNat) a.toNat k j).take (if x = 1 then l else l + 1))).getD (scanIdentity t.toNat o.toNat)) := by
  have h := ComputesSubs.of_compute (i := .scan t d a x o p) (sources := fun _ => [a.toNat]) (fun _ => rfl) ⟨rfl, rfl, rfl⟩
    (widthOf_cases t.toNat)
    fun e hclean => by
      simpa using Env.ReadsClean.cross (hclean _ List.mem_cons_self) p.toNat (widthOf t.toNat) fun l m => decide (m < l) || (x = 0 && m == l)
  simpa using h

theorem matchB64_computes (d a : BitVec 6) (p : BitVec 3) :
    ComputesLanes (.matchB64 d a p) (formA p.toNat d.toNat a.toNat {}) (fun _ => [a.toNat]) d.toNat (some p.toNat) fun e k l =>
      (maskOf ((e.activeCopy p.toNat k).filter fun m => e.val k a.toNat m == e.val k a.toNat l)).setWidth 64 := by
  have h := ComputesLanes.of_compute (i := .matchB64 d a p) (sources := fun _ => [a.toNat]) (fun _ => rfl) (formA_plain ..)
    fun e hclean => by simpa using Env.ReadsClean.cross (hclean _ List.mem_cons_self) p.toNat 64 fun _ _ => true
  simpa using h

/-- Settles O7: a source element of ROUTE stands in some lane of the file, and the others combine the active lanes of the slot. -/
theorem crossLaneResults : Obligations.CrossLaneResults := by
  unfold Obligations.CrossLaneResults
  intro t d a b q p o3 o x
  refine ⟨fun s e h hf ha hb => route_writes .pick (fun _ => rfl) h hf ha hb, fun s e h hf ha hb => route_writes .slide (fun _ => rfl) h hf ha hb,
    fun s e h hf ha hb => route_writes .rot (fun _ => rfl) h hf ha hb, fun s e h hf ha hb => route_writes .flip (fun _ => rfl) h hf ha hb,
    (vote_computes o d q p).congr fun e k _ => ?_, reduce_computes t d a o3 p, scan_computes t d a x o3 p, matchB64_computes d a p⟩
  match o.toNat with
  | 0 => simp only [voteResult, List.all_map]; rfl
  | 1 => simp only [voteResult, List.any_map]; rfl
  | 2 => simp only [voteResult, List.filter_map, List.map_map, Function.comp_def, List.map_id']
  | _ + 3 => simp only [voteResult, List.all_map]; rfl

end Sys2Proof.Machine
end

section
/-! An instruction that is done, and has changed more than cells: the generators of its group, or its operations in flight (R53, R98, R128). -/

namespace Sys2Proof.Machine

/-! ### The group that goes on -/

/-- A group with other generators, operations in flight and deferred writes. -/
def Group.withUnits (g : Group) (keys ctrs : NMap Lane) (flight : List Op) (defers : List Deferred) : Group :=
  { g with keys := keys, ctrs := ctrs, flight := flight, defers := defers }

/-- A deferred write once an instruction has issued; one that the instruction has made itself keeps its window (R73). -/
def Env.counts (e : Env) (d : Deferred) : Deferred :=
  if d.src == e.src && e.g.defers.any (fun x => x.op == d.op) then { d with left := d.left - 1 } else d

/-- The group of a stream that has issued an instruction and goes on. -/
def Env.retired (e : Env) (n : Nat) : Group := (e.fresh.g.goesOn e.fresh).counted e.fresh true n

theorem Group.retired_withUnits (e : Env) (keys ctrs : NMap Lane) (flight : List Op) (defers : List Deferred) (n : Nat) :
    ((e.fresh.g.withUnits keys ctrs flight defers).goesOn e.fresh).counted e.fresh true n =
      (e.retired n).withUnits keys ctrs flight (defers.map e.fresh.counts) := by
  unfold Env.retired Group.counted Group.goesOn Group.withUnits Env.counts
  cases e.fresh.src <;> rfl

@[simp] theorem Env.counts_writes (e : Env) (d : Deferred) : (e.counts d).writes = d.writes := by
  unfold Env.counts
  split <;> rfl

theorem Env.map_counts_defers (e : Env) : e.g.defers.map e.fresh.counts = e.g.defers.map e.lowered := by
  refine List.map_congr_left fun d hd => ?_
  have hany : e.fresh.g.defers.any (fun x => x.op == d.op) = true :=
    List.any_eq_true.2 ⟨d, by rwa [Env.fresh_gdefers], beq_self_eq_true _⟩
  rw [Env.counts, hany]
  simp [Env.lowered]

theorem Group.withUnits_awaitsAfter {g : Group} {e : Env} {keys ctrs : NMap Lane} {flight : List Op} {defers : List Deferred}
    (h : ∀ d ∈ defers, d.writes = none ∨ (e.counts d).left ≠ 0) : (g.withUnits keys ctrs flight defers).AwaitsAfter e := by
  intro n d hd
  rw [Group.counted_defers] at hd
  obtain ⟨d', hd', rfl⟩ := List.mem_map.1 hd
  have hcount := h d' hd'
  rwa [← Env.counts_writes e] at hcount

theorem Ready.lowered_awaits {s : State} {e : Env} (h : Ready s e) : ∀ d ∈ e.g.defers, d.writes = none ∨ (e.fresh.counts d).left ≠ 0 := by
  intro d hd
  have hmap : e.fresh.counts d = e.lowered d := List.map_inj_left.1 (Env.map_counts_defers e) d hd
  rw [hmap]
  exact (h.windows d hd).2

theorem Advances.withUnits {e : Env} {n : Nat} {g : Group} (h : Advances e n g) (keys ctrs : NMap Lane) (flight : List Op)
    (defers : List Deferred) : Advances e n (g.withUnits keys ctrs flight defers) := by
  obtain ⟨hslot, hothers, haccess, hstream, hissued, hprefer⟩ := h
  refine ⟨fun hs => ?_, fun y hy => ?_, haccess, hstream, hissued, hprefer⟩
  · rw [← hslot hs]
    cases e.src <;> rfl
  · rw [← hothers y hy]
    cases y <;> rfl

@[simp] theorem Env.fresh_gkeys (e : Env) : e.fresh.g.keys = e.g.keys := by simp [Env.fresh]
@[simp] theorem Env.fresh_gctrs (e : Env) : e.fresh.g.ctrs = e.g.ctrs := by simp [Env.fresh]

/-! ### What such an instruction leaves -/

/-- The state before an instruction retires: only the units of its group, and its core beside the memories, have changed. -/
structure Before (s st : State) (e : Env) (keys ctrs : NMap Lane) (flight : List Op) (defers : List Deferred) : Prop where
  group : st.group? e.gid = some (e.fresh.g.withUnits keys ctrs flight defers)
  groups : ∀ k, k ≠ e.gid → st.group? k = s.group? k
  cores : ∀ c, c ≠ e.g.core → st.core c = s.core c
  memories : (st.core e.g.core).SameMemories e.core
  package : { st with groups := s.groups, cores := s.cores, nextId := s.nextId } = s

theorem Core.SameMemories.trans {a b c : Core} (h : a.SameMemories b) (k : b.SameMemories c) : a.SameMemories c := by
  obtain ⟨h1, h2, h3, h4, h5, h6, h7⟩ := h
  obtain ⟨k1, k2, k3, k4, k5, k6, k7⟩ := k
  exact ⟨h1.trans k1, h2.trans k2, h3.trans k3, h4.trans k4, h5.trans k5, h6.trans k6, h7.trans k7⟩

/-- What a core and a team see of memory does not depend on the next identifier either. -/
theorem State.view_congr_nextId {s t : State} (h : { t with groups := s.groups, cores := s.cores, issueNo := s.issueNo, nextId := s.nextId } = s)
    (hc : ∀ c, (t.core c).SameMemories (s.core c)) (core team place : Nat) :
    t.viewByte core team place = s.viewByte core team place ∧ t.viewBad core team place = s.viewBad core team place :=
  State.view_congr (t := { t with nextId := s.nextId }) h hc core team place

theorem Before.retire {s st : State} {e : Env} {keys ctrs : NMap Lane} {flight : List Op} {defers : List Deferred} {x : Touch}
    (h : Ready s e) (hb : Before s st e keys ctrs flight defers) (hd : ∀ d ∈ defers, d.writes = none ∨ (e.fresh.counts d).left ≠ 0)
    (hstate : x.state { st with groups := s.groups, cores := s.cores } = x.state s)
    (hcore : x.core (st.core e.g.core).rest = x.core e.core.rest)
    (hcells : ∀ i, ¬ x.cells i → (st.core e.g.core).cell i = e.core.cell i ∧ (st.core e.g.core).cellPoison i = e.core.cellPoison i)
    (hgroup : ∀ g : Group, g.rest = { e.g.rest with defers := e.g.defers.map e.lowered } →
      x.group (g.withUnits keys ctrs flight (defers.map e.fresh.counts)).rest = x.group g.rest) :
    Leaves s (st.retire e.fresh) e x ∧
      (st.retire e.fresh).group? e.gid = some ((e.retired (s.issueNo + 1)).withUnits keys ctrs flight (defers.map e.fresh.counts)) ∧
      (st.retire e.fresh).core e.g.core = (st.core e.g.core).counted e.src e.g.pipe := by
  obtain ⟨-, -, -, -, hslot, hcore0, -⟩ := State.env?_some h.env
  have hissue : st.issueNo = s.issueNo := by
    have hno := congrArg State.issueNo hb.package
    exact hno
  obtain ⟨hg, hgs, hc, hcs, hrest, hno⟩ := State.retire_leaves st (e := e.fresh) hb.group (Group.withUnits_awaitsAfter hd)
  rw [Group.retired_withUnits, hissue] at hg
  rw [Env.fresh_gcore, Env.fresh_gpipe, Env.fresh_src] at hc
  rw [Env.fresh_gcore] at hcs
  refine ⟨⟨?_, ?_, fun k hk => ?_, fun c hne => ?_, ?_, fun i hi => ?_, ⟨_, hg, ?_, ?_, fun i _ => ?_⟩, fun core team place => ?_⟩, hg, hc⟩
  · rw [← hstate]
    have hpackage := congrArg (fun y : State => { y with groups := s.groups, cores := s.cores }) hrest
    rw [← hissue]
    exact congrArg x.state hpackage
  · rw [hno, hissue]
  · rw [hgs k hk, hb.groups k hk]
  · rw [hcs c hne, hb.cores c hne]
  · rw [hc, Core.counted_rest, hcore]
  · rw [hc, Core.counted_cell, Core.counted_cellPoison]
    exact hcells i hi
  · exact (hgroup _ (Group.retired_rest e _)).trans (congrArg x.group (Group.retired_rest e _))
  · exact (Group.retired_advances e hslot _).withUnits ..
  · exact congrArg (NMap.get · 0 i) ((Group.retired_keeps_preds e.fresh.g e.fresh _).trans (Env.fresh_gpreds e))
  · have hsame : ∀ c, ((st.retire e.fresh).core c).SameMemories (s.core c) := fun c => by
      by_cases hne : c = e.g.core
      · subst hne
        rw [hc, ← hcore0]
        exact (Core.sameMemories_of_rest (Core.counted_rest ..)).trans hb.memories
      · rw [hcs c hne, hb.cores c hne]
        exact ⟨rfl, rfl, rfl, rfl, rfl, rfl, rfl⟩
    have hrest' := congrArg (fun y : State => { y with groups := s.groups, cores := s.cores, issueNo := s.issueNo, nextId := s.nextId }) hrest
    have hview := State.view_congr_nextId (t := st.retire e.fresh)
      (hrest'.trans (congrArg (fun y : State => { y with issueNo := s.issueNo }) hb.package)) hsame core team place
    exact ⟨fun _ => hview.1, fun _ => hview.2⟩

/-! ### Values in the cells -/

theorem WritesSubs.of_cells {s u : State} {e : Env} {d w : Nat} {p : Option Nat} {F : Nat → Nat → Nat → Nat} {x : Touch}
    (hw : w = 8 ∨ w = 16 ∨ w = 32 ∨ w = 64) (hframe : Leaves s u e { x with cells := e.cellsOf d })
    (hcell : ∀ i, (u.core e.g.core).cell i = (e.core.writeAll (e.subWrites d p w F)).cell i ∧
      (u.core e.g.core).cellPoison i = (e.core.writeAll (e.subWrites d p w F)).cellPoison i) :
    WritesSubs s u e d w (e.acts p w) F x := by
  have hparts := fun {k l} hk hl {j} hj => e.writeAll_partWrites e.core d w (e.subs p w)
    (fun k l => (e.subs p w k l).foldl (fun m s => m ||| subAt w s (F k l s)) 0) (k := k) (l := l) hk hl (j := j) hw hj
  refine ⟨fun k hk l hl j hj ha => ?_, fun k hk l hl j hj ha => ?_, hframe⟩
  · have hm : j ∈ e.subs p w k l := (mem_activeSubs hj).2 ha
    obtain ⟨hval, hpoison⟩ := (hparts hk hl hj).1 hm
    rw [(hcell _).1, (hcell _).2]
    exact ⟨hval.trans (subOf_foldl_subAt _ (sub_fits hw hj) hm), hpoison⟩
  · rw [(hcell _).1]
    exact (hparts hk hl hj).2 fun hm => Bool.false_ne_true (ha.symm.trans ((mem_activeSubs hj).1 hm))

theorem Env.cell_of_subWrites {e : Env} {d w : Nat} {p : Option Nat} {F : Nat → Nat → Nat → Nat} {y : CellWrite}
    (h : y ∈ e.subWrites d p w F) : e.cellsOf d y.cell :=
  Env.cell_of_partWrites (ss := e.subs p w) (v := fun k l => (e.subs p w k l).foldl (fun m s => m ||| subAt w s (F k l s)) 0) h

theorem Env.cell_of_laneWrites {e : Env} {d : Nat} {p : Option Nat} {F : Nat → Nat → Lane} {y : CellWrite} (h : y ∈ e.laneWrites d p F) :
    e.cellsOf d y.cell := by
  obtain ⟨⟨k, l⟩, hkl, hy⟩ := List.mem_filterMap.1 h
  obtain ⟨hk, hl⟩ := e.mem_cells.1 hkl
  dsimp only at hy
  split at hy <;> cases hy
  exact ⟨k, hk, l, hl, rfl⟩

theorem WritesLanes.of_cells {s u : State} {e : Env} {d : Nat} {p : Option Nat} {F : Nat → Nat → Lane} {x : Touch}
    (hframe : Leaves s u e { x with cells := e.cellsOf d })
    (hcell : ∀ i, (u.core e.g.core).cell i = (e.core.writeAll (e.laneWrites d p F)).cell i ∧
      (u.core e.g.core).cellPoison i = (e.core.writeAll (e.laneWrites d p F)).cellPoison i) :
    WritesLanes s u e d p F x := by
  have hlanes := fun {k l} hk hl => Core.writeAll_cells e e.core d (fun x : Nat × Nat =>
      if (e.guardOf p x.1 x.2).getLsbD 0 then
        some ({ cell := e.cellOf x.1 d x.2, bits := BitVec.allOnes 64, value := F x.1 x.2 } : CellWrite)
      else none)
    (fun k l y hy => by dsimp only at hy; split at hy <;> cases hy; rfl) (k := k) (l := l) hk hl
  refine ⟨fun k hk l hl ha => ?_, fun k hk l hl ha => ?_, hframe⟩
  · obtain ⟨hval, hpoison⟩ := (hlanes hk hl).1 _ (if_pos ha)
    rw [(hcell _).1, (hcell _).2]
    exact ⟨hval.trans (all_bits _ _), hpoison.trans (all_halves _)⟩
  · rw [(hcell _).1]
    exact (hlanes hk hl).2 (if_neg (by rw [ha]; exact Bool.false_ne_true))

end Sys2Proof.Machine
end

section
/-! The random generator: SEED, RAND and CATSAMPLE (R128 to R130). -/

namespace Sys2Proof.Machine

/-! ### Generators of the lanes -/

/-- Stores at several places leave v at a place where all of them store v, if one of them does or v stood there. -/
theorem get_foldl_store {α : Type} (place : α → Nat) (f : α → Lane) (l : List α) (m : NMap Lane) {i : Nat} {v : Lane}
    (hall : ∀ x ∈ l, place x = i → f x = v) (h : (∃ x ∈ l, place x = i) ∨ NMap.get m 0 i = v) :
    NMap.get (l.foldl (fun m x => NMap.store m 0 (place x) (f x)) m) 0 i = v := by
  induction l generalizing m with
  | nil => exact h.resolve_left fun ⟨_, hx, _⟩ => nomatch hx
  | cons a l ih =>
    refine ih _ (fun x hx => hall x (List.mem_cons_of_mem _ hx)) ?_
    by_cases ha : place a = i
    · rw [← ha, NMap.get_store_self, hall a List.mem_cons_self ha]
      exact Or.inr rfl
    · rw [NMap.get_store_ne _ _ _ (Ne.symm ha)]
      exact h.imp_left fun ⟨x, hx, hxi⟩ => ⟨x, (List.mem_cons.1 hx).resolve_left fun h => ha (h ▸ hxi), hxi⟩

/-- A generator advances by one where it is listed once. -/
theorem Group.get_advance (g : Group) {l : List Nat} (hl : l.Nodup) (i : Nat) :
    NMap.get (g.advance l).ctrs 0 i = NMap.get g.ctrs 0 i + if i ∈ l then 1 else 0 := by
  unfold Group.advance
  dsimp only
  generalize g.ctrs = m
  induction l generalizing m with
  | nil => simp
  | cons a l ih =>
    obtain ⟨ha, hl⟩ := List.nodup_cons.1 hl
    rw [List.foldl_cons, ih hl, NMap.get_store]
    by_cases hi : i = a
    · subst hi
      simp [ha]
    · simp [hi]

theorem Env.cells_nodup (e : Env) : e.cells.Nodup := by
  have hcopies : e.copies.Nodup := by
    unfold Env.copies
    split <;> decide
  exact hcopies.product (List.nodup_range.filter _)

/-- The lanes of the file that hold listed cells of the slot are listed once. -/
theorem Env.nodup_map_phys (e : Env) {l : List (Nat × Nat)} (hl : l.Nodup) (hcells : ∀ x ∈ l, x.1 ∈ e.copies) :
    (l.map fun x => e.phys x.1 x.2).Nodup :=
  hl.map_on fun x hx y hy h => by
    obtain ⟨h1, h2⟩ := e.phys_inj (hcells x hx) (hcells y hy) h
    exact Prod.ext h1 h2

@[simp] theorem Env.fresh_draw (e : Env) (i : Nat) : e.fresh.g.draw i = e.g.draw i := by simp [Group.draw]

/-! ### SEED -/

/-- The cells of listed lanes of the slot, master and shadow. -/
def Env.placesOf (e : Env) (ls : List Nat) : List (Nat × Nat) := ls.flatMap fun l => e.copies.map fun k => (k, l)

theorem Env.mem_placesOf {e : Env} {ls : List Nat} {k l : Nat} : (k, l) ∈ e.placesOf ls ↔ l ∈ ls ∧ k ∈ e.copies := by
  simp [Env.placesOf]

/-- The generators that SEED leaves: v gives each seeded lane's value. -/
def Env.seeded (e : Env) (ls : List Nat) (v : Nat → Lane) (m : NMap Lane) : NMap Lane :=
  (e.placesOf ls).foldl (fun m x => NMap.store m 0 (e.phys x.1 x.2) (v x.2)) m

theorem Env.get_seeded {e : Env} {ls : List Nat} (v : Nat → Lane) (m : NMap Lane) {k l : Nat} (hk : k ∈ e.copies) :
    NMap.get (e.seeded ls v m) 0 (e.phys k l) = if l ∈ ls then v l else NMap.get m 0 (e.phys k l) := by
  have hinj : ∀ x ∈ e.placesOf ls, e.phys x.1 x.2 = e.phys k l → x = (k, l) := fun x hx h => by
    obtain ⟨h1, h2⟩ := e.phys_inj (Env.mem_placesOf.1 hx).2 hk h
    exact Prod.ext h1 h2
  split
  · next hl =>
    refine get_foldl_store (fun x : Nat × Nat => e.phys x.1 x.2) (fun x => v x.2) _ m (fun x hx h => by rw [hinj x hx h]) ?_
    exact Or.inl ⟨(k, l), Env.mem_placesOf.2 ⟨hl, hk⟩, rfl⟩
  · next hl =>
    refine get_foldl_store (fun x : Nat × Nat => e.phys x.1 x.2) (fun x => v x.2) _ m (fun x hx h => ?_) (Or.inr rfl)
    rw [hinj x hx h] at hx
    exact absurd (Env.mem_placesOf.1 hx).1 hl

/-- The group after SEED: its generators alone are new. -/
theorem Group.seed_eq (e : Env) (ls : List Nat) (key ctr : Nat → Lane) (g : Group) :
    ls.foldl (fun g l => e.copies.foldl (fun g k =>
      { g with keys := NMap.store g.keys 0 (e.phys k l) (key l), ctrs := NMap.store g.ctrs 0 (e.phys k l) (ctr l) }) g) g =
      { g with keys := e.seeded ls key g.keys, ctrs := e.seeded ls ctr g.ctrs } := by
  have hflat : ∀ (l : List (Nat × Nat)) (g : Group), l.foldl (fun g x =>
      { g with keys := NMap.store g.keys 0 (e.phys x.1 x.2) (key x.2), ctrs := NMap.store g.ctrs 0 (e.phys x.1 x.2) (ctr x.2) }) g =
      { g with keys := l.foldl (fun m x => NMap.store m 0 (e.phys x.1 x.2) (key x.2)) g.keys
               ctrs := l.foldl (fun m x => NMap.store m 0 (e.phys x.1 x.2) (ctr x.2)) g.ctrs } := by
    intro l
    induction l with
    | nil => exact fun g => rfl
    | cons x l ih => exact fun g => by rw [List.foldl_cons, ih]; rfl
  rw [Env.seeded, Env.seeded, ← hflat, Env.placesOf, List.foldl_flatMap]
  simp only [List.foldl_map]

theorem Env.poisonTrap_none_of_readsClean {e : Env} {rs : List Read} (h : e.ReadsClean rs) : e.poisonTrap rs = none := e.poisonTrap_none rs h

theorem Env.ReadsClean.lanes {e : Env} {r : Nat} (h : e.Clean r) {ls : List Nat} (hls : ∀ l ∈ ls, l ∈ e.lanes) : e.ReadsClean (e.reads r ls) := by
  refine Env.readsClean_of_cells fun x hx => ?_
  obtain ⟨l, hl, hx⟩ := List.mem_flatMap.1 hx
  obtain ⟨k, hk, rfl⟩ := List.mem_map.1 hx
  exact ⟨h, k, hk, l, hls l hl, rfl⟩

theorem Env.mem_lanes_of_mem_active {e : Env} {p l : Nat} (h : l ∈ e.active p) : l ∈ e.lanes := (List.mem_filter.1 h).1

/-- A new attempt at an instruction, before it has changed anything. -/
theorem Before.clearWait {s : State} {e : Env} (h : s.env? = some e) :
    Before s (s.clearWait e) e e.fresh.g.keys e.fresh.g.ctrs e.fresh.g.flight e.fresh.g.defers where
  group := (State.env?_some (State.env?_clearWait h)).1
  groups k hk := (sameBut_clearWait s e).groups k hk
  cores _ _ := rfl
  memories := by
    obtain ⟨-, -, -, -, -, hcore, -⟩ := State.env?_some h
    rw [hcore]
    exact ⟨rfl, rfl, rfl, rfl, rfl, rfl, rfl⟩
  package := rfl

/-- The issuing group changed in its units alone. -/
theorem Before.onGroup {s st : State} {e : Env} {keys ctrs keys' ctrs' : NMap Lane} {flight flight' : List Op} {defers defers' : List Deferred}
    (hb : Before s st e keys ctrs flight defers) {f : Group → Group}
    (hf : f (e.fresh.g.withUnits keys ctrs flight defers) = e.fresh.g.withUnits keys' ctrs' flight' defers') :
    Before s (st.onGroup e.gid f) e keys' ctrs' flight' defers' where
  group := by rw [State.group?_onGroup, hb.group, Option.map_some, hf]
  groups k hk := (State.group?_onGroup_ne st f hk).trans (hb.groups k hk)
  cores := hb.cores
  memories := hb.memories
  package := hb.package

/-- Cells of the issuing group's core written. -/
theorem Before.writeCells {s st : State} {e : Env} {keys ctrs : NMap Lane} {flight : List Op} {defers : List Deferred}
    (hb : Before s st e keys ctrs flight defers) (ws : List CellWrite) :
    Before s (st.writeCells e.g.core ws) e keys ctrs flight defers where
  group := hb.group
  groups := hb.groups
  cores c hc := (State.core_onCore_ne st _ hc).trans (hb.cores c hc)
  memories := by
    rw [State.writeCells, State.core_onCore]
    exact (Core.sameMemories_of_rest (c := { (st.core e.g.core).writeAll ws with wrote := _ }) (Core.writeAll_rest _ ws)).trans hb.memories
  package := hb.package

/-- What an instruction leaves that has written cells and changed generators of its group. -/
theorem Before.retire_generators {s st : State} {e : Env} {keys ctrs : NMap Lane} (h : Ready s e)
    (hb : Before s st e keys ctrs e.fresh.g.flight e.fresh.g.defers) (cells : Nat → Prop) (f : Group → Group)
    (hnext : st.nextId = s.nextId) (hcore : (st.core e.g.core).rest = e.core.rest)
    (hcells : ∀ i, ¬ cells i → (st.core e.g.core).cell i = e.core.cell i ∧ (st.core e.g.core).cellPoison i = e.core.cellPoison i)
    (hf : ∀ g : Group, g.keys = e.g.keys → g.ctrs = e.g.ctrs → f { g with keys := keys, ctrs := ctrs } = f g) :
    Leaves s (st.retire e.fresh) e { cells := cells, group := f } ∧
      (∃ g, (st.retire e.fresh).group? e.gid = some g ∧ g.keys = keys ∧ g.ctrs = ctrs) ∧
      ∀ i, ((st.retire e.fresh).core e.g.core).cell i = (st.core e.g.core).cell i ∧
        ((st.retire e.fresh).core e.g.core).cellPoison i = (st.core e.g.core).cellPoison i := by
  have hpackage := hb.package
  rw [← hnext] at hpackage
  obtain ⟨hleaves, hgroup, hretired⟩ := hb.retire (x := { cells := cells, group := f }) h
    (by rw [Env.fresh_gdefers]; exact h.lowered_awaits) hpackage hcore hcells fun g hg => by
      have hunits : g.rest.flight = e.g.flight ∧ g.rest.defers = e.g.defers.map e.lowered ∧ g.rest.keys = e.g.keys ∧ g.rest.ctrs = e.g.ctrs := by
        rw [hg]
        exact ⟨rfl, rfl, rfl, rfl⟩
      obtain ⟨hflight, hdefers, hkeys, hctrs⟩ := hunits
      rw [Env.fresh_gflight, Env.fresh_gdefers, Env.map_counts_defers, ← hflight, ← hdefers]
      exact hf g.rest hkeys hctrs
  refine ⟨hleaves, ⟨_, hgroup, rfl, rfl⟩, fun i => ?_⟩
  rw [hretired, Core.counted_cell, Core.counted_cellPoison]
  exact ⟨rfl, rfl⟩

theorem seed_draws (a b : BitVec 6) (p : BitVec 3) {s : State} {e : Env} (h : Ready s e)
    (hf : Fits e { runs := .program, accepts := { neg := true }, guard := some p.toNat, regs := [a.toNat, b.toNat] } (.seed a b p))
    (ha : e.Clean a.toNat) (hb : e.Clean b.toNat) :
    ∃ u, exec (.seed a b p) s = .next u ∧ Leaves s u e { group := fun g => { g with keys := [], ctrs := [] } } ∧
      ∀ g, u.group? e.gid = some g → ∀ k ∈ e.copies, ∀ l ∈ e.lanes,
        NMap.get g.keys 0 (e.phys k l) = (if l ∈ e.active p.toNat then e.val 0 a.toNat l else NMap.get e.g.keys 0 (e.phys k l)) ∧
        NMap.get g.ctrs 0 (e.phys k l) = (if l ∈ e.active p.toNat then e.val 0 b.toNat l else NMap.get e.g.ctrs 0 (e.phys k l)) := by
  obtain ⟨-, -, -, -, -, hcore, -⟩ := State.env?_some h.env
  have hclean : e.ReadsClean (e.reads a.toNat (e.active p.toNat) ++ e.reads b.toNat (e.active p.toNat)) :=
    (Env.ReadsClean.lanes ha fun _ => Env.mem_lanes_of_mem_active).append (Env.ReadsClean.lanes hb fun _ => Env.mem_lanes_of_mem_active)
  have hexec : exec (.seed a b p) s = .next (((s.clearWait e).onGroup e.gid fun g =>
      { g with keys := e.seeded (e.active p.toNat) (e.val 0 a.toNat) g.keys
               ctrs := e.seeded (e.active p.toNat) (e.val 0 b.toNat) g.ctrs }).retire e.fresh) := by
    change execSeed a b p s = _
    rw [execSeed, State.issue_of_ready h rfl rfl rfl hf]
    simp only [Env.fresh_active, Env.fresh_reads, Env.fresh_poisonTrap, Env.poisonTrap_none_of_readsClean hclean, Env.fresh_copies,
      Env.fresh_phys, Env.fresh_val, Env.fresh_gid, Group.seed_eq]
  have hbefore := (Before.clearWait h.env).onGroup (keys' := e.seeded (e.active p.toNat) (e.val 0 a.toNat) e.fresh.g.keys)
    (ctrs' := e.seeded (e.active p.toNat) (e.val 0 b.toNat) e.fresh.g.ctrs) (flight' := e.fresh.g.flight) (defers' := e.fresh.g.defers)
    (f := fun g => { g with keys := e.seeded (e.active p.toNat) (e.val 0 a.toNat) g.keys
                            ctrs := e.seeded (e.active p.toNat) (e.val 0 b.toNat) g.ctrs }) rfl
  obtain ⟨hleaves, ⟨g', hgroup, hkeys, hctrs⟩, -⟩ := hbefore.retire_generators h (fun _ => False) (fun g => { g with keys := [], ctrs := [] })
    rfl (congrArg Core.rest hcore.symm) (fun i _ => by rw [hcore]; exact ⟨rfl, rfl⟩) fun _ _ _ => rfl
  refine ⟨_, hexec, hleaves, fun g hg k hk l _ => ?_⟩
  cases hgroup.symm.trans hg
  rw [hkeys, hctrs, Env.fresh_gkeys, Env.fresh_gctrs]
  exact ⟨Env.get_seeded _ _ hk, Env.get_seeded _ _ hk⟩

end Sys2Proof.Machine
end

section
/-! What the draws of RAND and CATSAMPLE write, and which generators they advance (R129, R130). -/

namespace Sys2Proof.Machine

/-- An instruction that writes cells of register d and advances listed generators. -/
theorem leaves_of_draws {s : State} {e : Env} (h : Ready s e) (d : Nat) (ws : List CellWrite) (hws : ∀ y ∈ ws, e.cellsOf d y.cell) (drawn : List Nat) :
    let u := (((s.clearWait e).writeCells e.g.core ws).onGroup e.gid fun g => g.advance drawn).retire e.fresh
    Leaves s u e { cells := e.cellsOf d, group := fun g => { g with ctrs := [] } } ∧
      (∃ g, u.group? e.gid = some g ∧ g.ctrs = (e.g.advance drawn).ctrs) ∧
      ∀ i, (u.core e.g.core).cell i = (e.core.writeAll ws).cell i ∧ (u.core e.g.core).cellPoison i = (e.core.writeAll ws).cellPoison i := by
  intro u
  obtain ⟨-, -, -, -, -, hcore, -⟩ := State.env?_some h.env
  have hbefore := ((Before.clearWait h.env).writeCells ws).onGroup (f := fun g => g.advance drawn) (keys' := e.fresh.g.keys)
    (ctrs' := (e.fresh.g.advance drawn).ctrs) (flight' := e.fresh.g.flight) (defers' := e.fresh.g.defers) rfl
  have hwritten : ∀ i, ((((s.clearWait e).writeCells e.g.core ws).onGroup e.gid fun g => g.advance drawn).core e.g.core).cell i =
        (e.core.writeAll ws).cell i ∧
      ((((s.clearWait e).writeCells e.g.core ws).onGroup e.gid fun g => g.advance drawn).core e.g.core).cellPoison i =
        (e.core.writeAll ws).cellPoison i := fun i => by
    rw [State.core_onGroup, State.writeCells, State.core_onCore, hcore]
    exact ⟨rfl, rfl⟩
  obtain ⟨hleaves, ⟨g, hgroup, -, hctrs⟩, hcell⟩ := hbefore.retire_generators h (e.cellsOf d) (fun g => { g with ctrs := [] })
    (by simp only [State.onGroup_nextId, State.writeCells, State.onCore_nextId, State.clearWait])
    (by rw [State.core_onGroup, State.writeCells, State.core_onCore, hcore]; exact Core.writeAll_rest _ ws)
    (fun i hi => by
      obtain ⟨hval, hpoison⟩ := hwritten i
      rw [hval, hpoison]
      exact Core.writeAll_ne e.core ws fun y hy hyi => hi (hyi ▸ hws y hy))
    (fun g hkeys _ => by rw [Env.fresh_gkeys, ← hkeys])
  refine ⟨hleaves, ⟨g, hgroup, ?_⟩, fun i => ?_⟩
  · rw [hctrs, Group.advance, Group.advance, Env.fresh_gctrs]
  · obtain ⟨hval, hpoison⟩ := hcell i
    exact ⟨hval.trans (hwritten i).1, hpoison.trans (hwritten i).2⟩

/-! ### RAND -/

/-- The lanes of the file that RAND draws in: those with an active sub-element. -/
def Env.drawing (e : Env) (p w : Nat) : List Nat :=
  (e.cells.filter fun x => !(e.subs (some p) w x.1 x.2).isEmpty).map fun x => e.phys x.1 x.2

theorem Env.drawing_nodup (e : Env) (p w : Nat) : (e.drawing p w).Nodup :=
  e.nodup_map_phys (e.cells_nodup.filter _) fun _ hx => (e.mem_cells.1 (List.mem_filter.1 hx).1).1

theorem Env.mem_drawing {e : Env} {p w k l : Nat} (hk : k ∈ e.copies) (hl : l ∈ e.lanes) :
    e.phys k l ∈ e.drawing p w ↔ (List.range (64 / w)).any (e.acts (some p) w k l) = true := by
  have hsubs : (!(e.subs (some p) w k l).isEmpty) = true ↔ (List.range (64 / w)).any (e.acts (some p) w k l) = true := by
    simp [Env.subs, activeSubs, Env.acts]
  rw [← hsubs]
  constructor
  · intro h
    obtain ⟨x, hx, hphys⟩ := List.mem_map.1 h
    obtain ⟨hcell, hne⟩ := List.mem_filter.1 hx
    obtain ⟨rfl, rfl⟩ := e.phys_inj (e.mem_cells.1 hcell).1 hk hphys
    exact hne
  · exact fun h => List.mem_map.2 ⟨(k, l), List.mem_filter.2 ⟨e.mem_cells.2 ⟨hk, hl⟩, h⟩, rfl⟩

theorem rand_draws (t : BitVec 4) (d : BitVec 6) (p : BitVec 3) {s : State} {e : Env} (h : Ready s e)
    (hf : Fits e { runs := .program, accepts := { neg := true }, guard := some p.toNat, regs := [d.toNat] } (.rand t d p)) :
    ∃ u, exec (.rand t d p) s = .next u ∧
      WritesSubs s u e d.toNat (widthOf t.toNat) (e.acts (some p.toNat) (widthOf t.toNat))
        (fun k l j => randValue t.toNat (subOf (widthOf t.toNat) j (e.g.draw (e.phys k l)))) { group := fun g => { g with ctrs := [] } } ∧
      ∀ g, u.group? e.gid = some g → ∀ k ∈ e.copies, ∀ l ∈ e.lanes, NMap.get g.ctrs 0 (e.phys k l) = NMap.get e.g.ctrs 0 (e.phys k l) +
        if (List.range (64 / widthOf t.toNat)).any (e.acts (some p.toNat) (widthOf t.toNat) k l) then 1 else 0 := by
  have hexec : exec (.rand t d p) s = .next ((((s.clearWait e).writeCells e.g.core (e.subWrites d.toNat (some p.toNat) (widthOf t.toNat)
      fun k l j => randValue t.toNat (subOf (widthOf t.toNat) j (e.g.draw (e.phys k l))))).onGroup e.gid
        fun g => g.advance (e.drawing p.toNat (widthOf t.toNat))).retire e.fresh) := by
    change execRand t d p s = _
    rw [execRand, State.issue_of_ready h rfl rfl rfl hf]
    simp only [Env.fresh_gcore, Env.fresh_subWrites, Env.fresh_phys, Env.fresh_draw, Env.fresh_gid, Env.fresh_cells, Env.fresh_subs]
    rfl
  obtain ⟨hleaves, ⟨g', hgroup, hctrs⟩, hcell⟩ := leaves_of_draws h d.toNat (e.subWrites d.toNat (some p.toNat) (widthOf t.toNat)
    fun k l j => randValue t.toNat (subOf (widthOf t.toNat) j (e.g.draw (e.phys k l)))) (fun _ => Env.cell_of_subWrites)
    (e.drawing p.toNat (widthOf t.toNat))
  refine ⟨_, hexec, WritesSubs.of_cells (widthOf_cases _) hleaves hcell, fun g hg k hk l hl => ?_⟩
  cases hgroup.symm.trans hg
  rw [hctrs, Group.get_advance _ (e.drawing_nodup ..)]
  exact congrArg _ (if_congr (Env.mem_drawing hk hl) rfl rfl)

/-! ### CATSAMPLE -/

/-- The sum of listed weights; one that is no weight counts as 0. -/
def sumWeights (els : List (Nat × Option Nat)) : Nat := (els.map fun x => x.2.getD 0).sum

/-- Whether the first n + 1 weights, with those before the list, pass u parts in 2^24 of the total (R130). -/
def passes (u total before : Nat) (els : List (Nat × Option Nat)) (n : Nat) : Bool :=
  decide (u * total < (before + sumWeights (els.take (n + 1))) * 2 ^ 24)

theorem passes_zero_before (u total : Nat) (els : List (Nat × Option Nat)) :
    passes u total 0 els = fun n => decide (u * total < sumWeights (els.take (n + 1)) * 2 ^ 24) := by
  funext n
  rw [passes, Nat.zero_add]

theorem passes_first (u total before : Nat) (x : Nat × Option Nat) (els : List (Nat × Option Nat)) :
    passes u total before (x :: els) 0 = decide ((before + x.2.getD 0) * 2 ^ 24 > u * total) := by
  rw [passes, sumWeights, List.take_succ_cons, List.take_zero, List.map_singleton, List.sum_singleton]

theorem passes_succ (u total before : Nat) (x : Nat × Option Nat) (els : List (Nat × Option Nat)) (n : Nat) :
    passes u total before (x :: els) (n + 1) = passes u total (before + x.2.getD 0) els n := by
  rw [passes, passes, sumWeights, List.take_succ_cons, List.map_cons, List.sum_cons, Nat.add_assoc, sumWeights]

/-- The category picked is the first element whose prefix sum passes, where one does. -/
theorem pickCategory_eq (u total before : Nat) (els : List (Nat × Option Nat)) (h : ∃ n < els.length, passes u total before els n = true) :
    pickCategory u total before (els.map fun x => (x.1, x.2.getD 0)) =
      some (els.getD ((List.range els.length).findIdx (passes u total before els)) (0, none)).1 := by
  induction els generalizing before with
  | nil => exact absurd h.choose_spec.1 (Nat.not_lt_zero _)
  | cons x els ih =>
    have hindex : (List.range (x :: els).length).findIdx (passes u total before (x :: els)) =
        bif passes u total before (x :: els) 0 then 0
        else (List.range els.length).findIdx (passes u total (before + x.2.getD 0) els) + 1 := by
      have hshift : passes u total before (x :: els) ∘ Nat.succ = passes u total (before + x.2.getD 0) els := by
        funext n
        rw [Function.comp_apply, Nat.succ_eq_add_one, passes_succ]
      rw [List.length_cons, List.range_succ_eq_map, List.findIdx_cons, List.findIdx_map, hshift]
    rw [hindex, List.map_cons, pickCategory, passes_first]
    by_cases hpass : (before + x.2.getD 0) * 2 ^ 24 > u * total
    · rw [if_pos hpass, decide_eq_true hpass, cond_true, List.getD_cons_zero]
    · have hrest : ∃ n < els.length, passes u total (before + x.2.getD 0) els n = true := by
        obtain ⟨n, hn, hp⟩ := h
        cases n with
        | zero => exact absurd (of_decide_eq_true ((passes_first ..).symm.trans hp)) hpass
        | succ n => exact ⟨n, Nat.lt_of_succ_lt_succ hn, (passes_succ ..).symm.trans hp⟩
      rw [if_neg hpass, ih _ hrest, decide_eq_false hpass, cond_false, List.getD_cons_succ]

/-- A draw of 24 bits passes at the last weight at the latest. -/
theorem exists_passes {u : Nat} (hu : u < 2 ^ 24) {els : List (Nat × Option Nat)} (h : sumWeights els ≠ 0) :
    ∃ n < els.length, passes u (sumWeights els) 0 els n = true := by
  have hlen : 0 < els.length := List.length_pos_of_ne_nil fun h0 => h (by rw [h0]; rfl)
  refine ⟨els.length - 1, by omega, decide_eq_true ?_⟩
  rw [Nat.sub_add_cancel hlen, List.take_length, Nat.zero_add, Nat.mul_comm (sumWeights els)]
  exact Nat.mul_lt_mul_of_pos_right hu (Nat.pos_of_ne_zero h)

/-- The elements that take part in CATSAMPLE, with their weights, in element order. -/
def Env.weights (e : Env) (ty p a k : Nat) : List (Nat × Option Nat) :=
  e.lanes.flatMap fun l =>
    (e.subs (some p) (widthOf ty) k l).map fun j => (64 / widthOf ty * l + j, weightOf ty (subOf (widthOf ty) j (e.val k a l)))

theorem Env.category_eq (e : Env) (ty p a l0 k : Nat) :
    e.category ty p a l0 k =
      if (e.weights ty p a k).any (fun x => x.2.isNone) || sumWeights (e.weights ty p a k) == 0 then BitVec.allOnes 64
      else BitVec.ofNat 64 ((e.weights ty p a k).getD ((List.range (e.weights ty p a k).length).findIdx
        fun n => decide ((e.g.draw (e.phys k l0)).toNat / 2 ^ 40 * sumWeights (e.weights ty p a k) <
          sumWeights ((e.weights ty p a k).take (n + 1)) * 2 ^ 24)) (0, none)).1 := by
  change (if (e.weights ty p a k).any (fun x => x.2.isNone) || sumWeights (e.weights ty p a k) == 0 then BitVec.allOnes 64
    else match pickCategory ((e.g.draw (e.phys k l0)).toNat / 2 ^ 40) (sumWeights (e.weights ty p a k)) 0
        ((e.weights ty p a k).map fun x => (x.1, x.2.getD 0)) with
      | some x => BitVec.ofNat 64 x
      | none => BitVec.allOnes 64) = _
  by_cases h0 : sumWeights (e.weights ty p a k) = 0
  · simp [h0]
  · have hu : (e.g.draw (e.phys k l0)).toNat / 2 ^ 40 < 2 ^ 24 := Nat.div_lt_of_lt_mul (e.g.draw (e.phys k l0)).isLt
    rw [pickCategory_eq _ _ _ _ (exists_passes hu h0), passes_zero_before]

@[simp] theorem Env.fresh_category (e : Env) (ty p a l0 k : Nat) : e.fresh.category ty p a l0 k = e.category ty p a l0 k := by
  simp [Env.category]

/-- The type code of CATSAMPLE's weights: F16 or F32. -/
def catType (t : BitVec 1) : Nat := if t = 1 then 10 else 8

/-- The lane of the file of each copy of a lane. -/
def Env.copiesAt (e : Env) (l : Nat) : List Nat := e.copies.map fun k => e.phys k l

theorem Env.copiesAt_nodup (e : Env) (l : Nat) : (e.copiesAt l).Nodup := by
  have hcopies : (e.copies.map fun k => (k, l)).Nodup := by
    unfold Env.copies
    split <;> simp
  have h := e.nodup_map_phys hcopies fun x hx => by
    obtain ⟨k, hk, rfl⟩ := List.mem_map.1 hx
    exact hk
  rwa [List.map_map] at h

theorem Env.mem_copiesAt {e : Env} {k l m : Nat} (hk : k ∈ e.copies) : e.phys k l ∈ e.copiesAt m ↔ m = l := by
  constructor
  · intro h
    obtain ⟨k', hk', hphys⟩ := List.mem_map.1 h
    exact (e.phys_inj hk' hk hphys).2
  · rintro rfl
    exact List.mem_map.2 ⟨k, hk, rfl⟩

section
variable {t : BitVec 1} {d a : BitVec 6} {p : BitVec 3} {s : State} {e : Env} (h : Ready s e)
  (hf : Fits e { runs := .program, accepts := { neg := true }, guard := some p.toNat, regs := [d.toNat, a.toNat] } (.catsample t d a p))
  (ha : e.Clean a.toNat)

include h hf ha in
theorem exec_catsample : exec (.catsample t d a p) s = .next (match e.active p.toNat with
    | [] => (s.clearWait e).retire e.fresh
    | l0 :: _ => (((s.clearWait e).writeCells e.g.core (e.laneWrites d.toNat (some p.toNat)
        fun k _ => e.category (catType t) p.toNat a.toNat l0 k)).onGroup e.gid fun g => g.advance (e.copiesAt l0)).retire e.fresh) := by
  have hclean : e.ReadsClean ((e.active p.toNat).flatMap fun l =>
      (e.subReads a.toNat (some p.toNat) (widthOf (catType t))).map fun r => { r with lane := l }) := by
    intro x hx
    obtain ⟨l, -, hx⟩ := List.mem_flatMap.1 hx
    obtain ⟨r, hr, rfl⟩ := List.mem_map.1 hx
    exact Env.ReadsClean.subs ha _ _ r hr
  have htrap := Env.poisonTrap_none_of_readsClean hclean
  change execCatsample t d a p s = _
  rw [execCatsample, State.issue_of_ready h rfl rfl rfl hf]
  simp only [Env.fresh_active, Env.fresh_subReads, Env.fresh_poisonTrap]
  rw [catType] at htrap ⊢
  rw [htrap]
  cases e.active p.toNat with
  | nil => rfl
  | cons l0 _ =>
    simp only [Env.fresh_gcore, Env.fresh_laneWrites, Env.fresh_category, Env.fresh_gid, Env.fresh_copies, Env.fresh_phys]
    rfl

include h hf ha in
/-- With no lane active CATSAMPLE changes nothing. -/
theorem catsample_idle (hnone : e.active p.toNat = []) :
    ∃ u, exec (.catsample t d a p) s = .next u ∧ Leaves s u e {} ∧ ∀ g, u.group? e.gid = some g → g.ctrs = e.g.ctrs := by
  obtain ⟨-, -, -, -, -, hcore, -⟩ := State.env?_some h.env
  obtain ⟨hleaves, ⟨g', hgroup, -, hctrs⟩, -⟩ := (Before.clearWait h.env).retire_generators h (fun _ => False) id rfl
    (congrArg Core.rest hcore.symm) (fun i _ => by rw [hcore]; exact ⟨rfl, rfl⟩)
    (fun g hkeys hctrs => by rw [Env.fresh_gkeys, Env.fresh_gctrs, ← hkeys, ← hctrs])
  refine ⟨_, exec_catsample h hf ha, ?_⟩
  rw [hnone]
  refine ⟨hleaves, fun g hg => ?_⟩
  cases hgroup.symm.trans hg
  rw [hctrs, Env.fresh_gctrs]

include h hf ha in
theorem catsample_draws {l0 : Nat} {ls : List Nat} (hactive : e.active p.toNat = l0 :: ls) :
    ∃ u, exec (.catsample t d a p) s = .next u ∧
      WritesLanes s u e d.toNat (some p.toNat) (fun k _ => e.category (catType t) p.toNat a.toNat l0 k)
        { group := fun g => { g with ctrs := [] } } ∧
      ∀ g, u.group? e.gid = some g → ∀ k ∈ e.copies, ∀ l,
        NMap.get g.ctrs 0 (e.phys k l) = NMap.get e.g.ctrs 0 (e.phys k l) + if l0 = l then 1 else 0 := by
  obtain ⟨hleaves, ⟨g', hgroup, hctrs⟩, hcell⟩ := leaves_of_draws h d.toNat (e.laneWrites d.toNat (some p.toNat)
    fun k _ => e.category (catType t) p.toNat a.toNat l0 k) (fun _ => Env.cell_of_laneWrites) (e.copiesAt l0)
  refine ⟨_, exec_catsample h hf ha, ?_⟩
  rw [hactive]
  refine ⟨WritesLanes.of_cells hleaves hcell, fun g hg k hk l => ?_⟩
  cases hgroup.symm.trans hg
  rw [hctrs, Group.get_advance _ (e.copiesAt_nodup l0)]
  exact congrArg _ (if_congr (Env.mem_copiesAt hk) rfl rfl)

end

/-- Settles O8: the three instructions change their group's generators, and RAND and CATSAMPLE write what the draws give. -/
theorem randomResults : Obligations.RandomResults := by
  unfold Obligations.RandomResults
  intro t t1 d a b p s e h
  refine ⟨fun hf ha hb => seed_draws a b p h hf ha hb, fun hf => rand_draws t d p h hf, fun hf ha => ?_⟩
  dsimp only
  rcases hactive : e.active p.toNat with _ | ⟨l0, ls⟩
  · obtain ⟨u, hu, hleaves, hctrs⟩ := catsample_idle h hf ha hactive
    refine ⟨u, hu, (if_pos rfl).mpr hleaves, fun g hg k _ l _ => ?_⟩
    rw [hctrs g hg]
    simp
  · obtain ⟨u, hu, hwrites, hctrs⟩ := catsample_draws h hf ha hactive
    refine ⟨u, hu, ?_, fun g hg k hk l _ => ?_⟩
    · rw [if_neg (List.cons_ne_nil _ _)]
      simp only [Env.category_eq] at hwrites
      exact hwrites
    · rw [hctrs g hg k hk l, List.head?_cons]
      exact congrArg _ (if_congr Option.some_inj.symm rfl rfl)

end Sys2Proof.Machine
end

section
/-! The special-function unit: what its instructions launch, and the start and the return of an operation (R124 to R127). -/

namespace Sys2Proof.Machine

/-! ### The result queue of a pipe -/

@[simp] theorem Core.sfuQueue_setSfuQueue (c : Core) (pipe : Nat) (q : List (Nat × Nat)) : (c.setSfuQueue pipe q).sfuQueue pipe = q := by
  unfold Core.setSfuQueue Core.sfuQueue
  split <;> rfl

@[simp] theorem Core.sfuQueue_counted (c : Core) (src : Source) (p pipe : Nat) : (c.counted src p).sfuQueue pipe = c.sfuQueue pipe := by
  cases src <;> rfl

/-- Replacing a queue leaves every field of a core but the two queues. -/
theorem Core.setSfuQueue_same (c : Core) (pipe : Nat) (q : List (Nat × Nat)) :
    { c.setSfuQueue pipe q with sfu0 := c.sfu0, sfu1 := c.sfu1 } = c := by
  unfold Core.setSfuQueue
  split <;> rfl

theorem Core.setSfuQueue_rf (c : Core) (pipe : Nat) (q : List (Nat × Nat)) : (c.setSfuQueue pipe q).rf = c.rf := by
  unfold Core.setSfuQueue
  split <;> rfl

@[simp] theorem Core.setSfuQueue_cell (c : Core) (pipe : Nat) (q : List (Nat × Nat)) (i : Nat) : (c.setSfuQueue pipe q).cell i = c.cell i := by
  rw [Core.cell, Core.cell, Core.setSfuQueue_rf]

@[simp] theorem Core.setSfuQueue_cellPoison (c : Core) (pipe : Nat) (q : List (Nat × Nat)) (i : Nat) :
    (c.setSfuQueue pipe q).cellPoison i = c.cellPoison i := by
  unfold Core.setSfuQueue
  split <;> rfl

theorem Core.setSfuQueue_sameMemories (c : Core) (pipe : Nat) (q : List (Nat × Nat)) : (c.setSfuQueue pipe q).SameMemories c := by
  unfold Core.setSfuQueue
  split <;> exact ⟨rfl, rfl, rfl, rfl, rfl, rfl, rfl⟩

/-! ### The state before an instruction retires, in steps -/

section
variable {s st : State} {e : Env} {keys ctrs : NMap Lane} {flight : List Op} {defers : List Deferred} (hb : Before s st e keys ctrs flight defers)

include hb in
/-- The issuing group's core changed beside the memories. -/
theorem Before.onCore {f : Core → Core} (hf : (f (st.core e.g.core)).SameMemories (st.core e.g.core)) :
    Before s (st.onCore e.g.core f) e keys ctrs flight defers where
  group := hb.group
  groups := hb.groups
  cores c hc := (State.core_onCore_ne st _ hc).trans (hb.cores c hc)
  memories := by
    rw [State.core_onCore]
    exact hf.trans hb.memories
  package := hb.package

include hb in
/-- An operation launched: it stands last among those in flight. -/
theorem Before.launchOp (p : Path) (src : Source) (w : Work) :
    Before s (st.launchOp e.gid p src w).1 e keys ctrs (flight ++ [⟨st.nextId, p, src, false, w⟩]) defers :=
  have hallotted : Before s { st with nextId := st.nextId + 1 } e keys ctrs flight defers :=
    ⟨hb.group, hb.groups, hb.cores, hb.memories, hb.package⟩
  hallotted.onGroup rfl

include hb in
theorem State.openWindow_eq (op : Nat) (src : Source) (n : Nat) (regs : List Nat) :
    st.openWindow e.gid op src n regs =
      (st.setGroup e.gid (e.fresh.g.withUnits keys ctrs flight (defers ++ [⟨op, src, n, regs, none, []⟩]))).onCore e.g.core fun c =>
        { c with wrote := NMap.put c.wrote e.g.pipe { op := some op, fresh := true } } := by
  rw [State.openWindow, hb.group, ← Env.fresh_gcore, ← Env.fresh_gpipe]
  rfl

include hb in
/-- A window opened: its deferred write is the group's last. -/
theorem Before.openWindow (op : Nat) (src : Source) (n : Nat) (regs : List Nat) :
    Before s (st.openWindow e.gid op src n regs) e keys ctrs flight (defers ++ [⟨op, src, n, regs, none, []⟩]) := by
  rw [State.openWindow_eq hb]
  have hset : Before s (st.setGroup e.gid (e.fresh.g.withUnits keys ctrs flight (defers ++ [⟨op, src, n, regs, none, []⟩]))) e keys ctrs
      flight (defers ++ [⟨op, src, n, regs, none, []⟩]) :=
    ⟨State.group?_setGroup .., fun k hk => (State.group?_setGroup_ne _ _ hk).trans (hb.groups k hk), hb.cores, hb.memories, hb.package⟩
  exact hset.onCore ⟨rfl, rfl, rfl, rfl, rfl, rfl, rfl⟩

end

theorem State.retire_nextId {st : State} {e : Env} {g : Group} (h : st.group? e.gid = some g) (hd : g.AwaitsAfter e) :
    (st.retire e).nextId = st.nextId := by
  obtain ⟨-, -, -, -, hrest, -⟩ := State.retire_leaves st h hd
  have hnext := congrArg State.nextId hrest
  exact hnext

/-! ### Launch -/

/-- The state in which an instruction of the special-function unit retires: ws are the writes of its result. -/
def State.sfuLaunched (s : State) (e : Env) (d : Nat) (times : Nat × Nat) (ws : List CellWrite) : State :=
  (((s.clearWait e).launchOp e.gid .sfu e.src (.sfu e.g.pipe times.1 times.2 none ws)).1.openWindow e.gid s.nextId e.src e.hints.la
    [e.reg d]).onCore e.g.core fun c => c.setSfuQueue e.g.pipe (c.sfuQueue e.g.pipe ++ [(e.gid, s.nextId)])

section
variable {s : State} {e : Env}

theorem Before.sfuLaunched (h : s.env? = some e) (d : Nat) (times : Nat × Nat) (ws : List CellWrite) :
    Before s (s.sfuLaunched e d times ws) e e.fresh.g.keys e.fresh.g.ctrs
      (e.fresh.g.flight ++ [⟨s.nextId, .sfu, e.src, false, .sfu e.g.pipe times.1 times.2 none ws⟩])
      (e.fresh.g.defers ++ [⟨s.nextId, e.src, e.hints.la, [e.reg d], none, []⟩]) :=
  (((Before.clearWait h).launchOp ..).openWindow ..).onCore (Core.setSfuQueue_sameMemories ..)

theorem State.sfuLaunched_core (h : s.env? = some e) (d : Nat) (times : Nat × Nat) (ws : List CellWrite) :
    ∃ w, (s.sfuLaunched e d times ws).core e.g.core =
      ({ e.core with wrote := w } : Core).setSfuQueue e.g.pipe (e.core.sfuQueue e.g.pipe ++ [(e.gid, s.nextId)]) := by
  obtain ⟨-, -, -, -, -, hcore, -⟩ := State.env?_some h
  refine ⟨NMap.put e.core.wrote e.g.pipe { op := some s.nextId, fresh := true }, ?_⟩
  rw [State.sfuLaunched, State.core_onCore, State.openWindow_eq ((Before.clearWait h).launchOp ..), State.core_onCore, hcore]
  rfl

theorem State.sfuLaunched_nextId (h : s.env? = some e) (d : Nat) (times : Nat × Nat) (ws : List CellWrite) :
    (s.sfuLaunched e d times ws).nextId = s.nextId + 1 := by
  rw [State.sfuLaunched, State.openWindow_eq ((Before.clearWait h).launchOp ..)]
  rfl

/-- An operation of the special-function unit is in flight: u is the state after its instruction, ws the writes of its result. -/
def Launched (s u : State) (e : Env) (d : Nat) (times : Nat × Nat) (ws : List CellWrite) : Prop :=
  u.nextId = s.nextId + 1 ∧ (u.core e.g.core).sfuQueue e.g.pipe = e.core.sfuQueue e.g.pipe ++ [(e.gid, s.nextId)] ∧
    (∀ g, u.group? e.gid = some g →
      g.flight = e.g.flight ++ [⟨s.nextId, .sfu, e.src, false, .sfu e.g.pipe times.1 times.2 none ws⟩] ∧
      g.defers = [⟨s.nextId, e.src, e.hints.la, [e.reg d], none, []⟩]) ∧
    Leaves s u e
      { group := fun g => { g with flight := [], defers := [] }
        core := fun c => { c with sfu0 := [], sfu1 := [] }
        state := fun s => { s with nextId := 0 } }

theorem launched_of_settled (h : Settled s e) (d : Nat) (times : Nat × Nat) (ws : List CellWrite) :
    Launched s ((s.sfuLaunched e d times ws).retire e.fresh) e d times ws := by
  have hb := Before.sfuLaunched h.env d times ws
  have hdefers : e.fresh.g.defers = [] := by rw [Env.fresh_gdefers, h.settled]
  rw [hdefers, List.nil_append] at hb
  have hcounts : e.fresh.counts ⟨s.nextId, e.src, e.hints.la, [e.reg d], none, []⟩ = ⟨s.nextId, e.src, e.hints.la, [e.reg d], none, []⟩ := by
    simp [Env.counts, h.settled]
  have hawaits : ∀ x ∈ [(⟨s.nextId, e.src, e.hints.la, [e.reg d], none, []⟩ : Deferred)], x.writes = none ∨ (e.fresh.counts x).left ≠ 0 := by
    rintro x hx
    rw [List.mem_singleton.1 hx]
    exact Or.inl rfl
  obtain ⟨w, hcore⟩ := State.sfuLaunched_core h.env d times ws
  obtain ⟨hleaves, hgroup, hretired⟩ := hb.retire (x :=
      { group := fun g => { g with flight := [], defers := [] }
        core := fun c => { c with sfu0 := [], sfu1 := [] }
        state := fun s => { s with nextId := 0 } }) h.ready hawaits
    (congrArg (fun y : State => { y with nextId := 0 }) hb.package)
    (by rw [hcore]; exact congrArg (fun c : Core => { c.rest with sfu0 := [], sfu1 := [] }) (Core.setSfuQueue_same { e.core with wrote := w } ..))
    (fun i _ => by rw [hcore, Core.setSfuQueue_cell, Core.setSfuQueue_cellPoison]; exact ⟨rfl, rfl⟩)
    (fun g hg => by
      have hkeys := congrArg Group.keys hg
      have hctrs := congrArg Group.ctrs hg
      rw [Env.fresh_gkeys, Env.fresh_gctrs, ← show g.keys = e.g.keys from hkeys, ← show g.ctrs = e.g.ctrs from hctrs]
      rfl)
  refine ⟨?_, ?_, fun g hg => ?_, hleaves⟩
  · rw [State.retire_nextId (e := e.fresh) hb.group (Group.withUnits_awaitsAfter hawaits), State.sfuLaunched_nextId h.env]
  · rw [hretired, hcore, Core.sfuQueue_counted, Core.sfuQueue_setSfuQueue]
  · cases hgroup.symm.trans hg
    rw [List.map_singleton, hcounts, Env.fresh_gflight]
    exact ⟨rfl, rfl⟩

/-- What the instructions of the unit share: one that may launch launches. -/
theorem State.sfuOp_launches {i : Instr} {f : Form} {d : Nat} {times : Nat × Nat} {reads : Env → List Read} {writes : Env → List CellWrite}
    (h : Settled s e) (hp : f.Plain) (hf : Fits e f i) (hreads : e.ReadsClean (reads e.fresh)) (hq : (e.core.sfuQueue e.g.pipe).length < 16)
    (hroom : e.room .sfu = true) :
    ∃ u, s.sfuOp i f d times reads writes = .next u ∧ Launched s u e d times (writes e.fresh) := by
  refine ⟨_, ?_, launched_of_settled h d times (writes e.fresh)⟩
  have hroom' : e.fresh.room .sfu = true := by
    rw [← hroom, Env.room, Env.room, Group.counter, Group.counter, Env.fresh_gflight]
  have hgo : ¬ (16 ≤ (e.core.sfuQueue e.g.pipe).length ∨ (!e.fresh.room .sfu) = true) := by
    rw [hroom']
    simpa using hq
  rw [State.sfuOp, State.issue_of_ready h.ready hp.closes hp.barrier hp.unit hf, Env.fresh_poisonTrap, Env.poisonTrap_none_of_readsClean hreads]
  simp only [Env.fresh_core, Env.fresh_gpipe, Env.fresh_gid, Env.fresh_src, Env.fresh_gcore, Env.fresh_reg, Env.fresh_hints]
  rw [if_neg hgo]
  rfl

theorem sfuA_launches {i : Instr} {op : SfuOp} {t d a p : Nat} (h : Settled s e) (ha : e.Clean a)
    (hq : (e.core.sfuQueue e.g.pipe).length < 16) (hroom : e.room .sfu = true) (hf : Fits e (formA p d a { re := true, la := true }) i) :
    ∃ u, sfuA i op t d a p s = .next u ∧ Launched s u e d (sfuTimes op.row t)
      (e.subWrites d (some p) (widthOf t) fun k l j => sfuUnary op t e.hints.mode (subOf (widthOf t) j (e.val k a l))) := by
  obtain ⟨u, hu, hlaunched⟩ := State.sfuOp_launches (times := sfuTimes op.row t) (reads := fun e => e.subReads a (some p) (widthOf t))
    (writes := fun e => e.subWrites d (some p) (widthOf t) fun k l j => sfuUnary op t e.hints.mode (subOf (widthOf t) j (e.val k a l)))
    h (formA_plain ..) hf (by rw [Env.fresh_subReads]; exact Env.ReadsClean.subs ha _ _) hq hroom
  simp only [Env.fresh_subWrites, Env.fresh_hints, Env.fresh_val] at hlaunched
  exact ⟨u, hu, hlaunched⟩

theorem sfuAB_launches {i : Instr} {row t d a b p : Nat} {rounds : Bool} {f : Mode → Nat → Nat → Nat} (h : Settled s e) (ha : e.Clean a)
    (hb : ∀ r ∈ e.orImm b, e.Clean r) (hq : (e.core.sfuQueue e.g.pipe).length < 16) (hroom : e.room .sfu = true)
    (hf : Fits e (formAB p d a b { re := rounds, la := true }) i) :
    ∃ u, sfuAB i row t d a b p rounds f s = .next u ∧ Launched s u e d (sfuTimes row t)
      (e.subWrites d (some p) (widthOf t) fun k l j => f e.hints.mode (subOf (widthOf t) j (e.val k a l)) (e.bSub b (widthOf t) k l j)) := by
  have hclean : e.ReadsClean (e.subReads a (some p) (widthOf t) ++ e.bReads b (some p) (widthOf t)) :=
    (Env.ReadsClean.subs ha _ _).append (Env.ReadsClean.b hb _ _)
  obtain ⟨u, hu, hlaunched⟩ := State.sfuOp_launches (times := sfuTimes row t)
    (reads := fun e => e.subReads a (some p) (widthOf t) ++ e.bReads b (some p) (widthOf t))
    (writes := fun e => e.subWrites d (some p) (widthOf t) fun k l j =>
      f e.hints.mode (subOf (widthOf t) j (e.val k a l)) (e.bSub b (widthOf t) k l j))
    h (formAB_plain ..) hf (by rw [Env.fresh_subReads, Env.fresh_bReads]; exact hclean) hq hroom
  simp only [Env.fresh_subWrites, Env.fresh_hints, Env.fresh_val, Env.fresh_bSub] at hlaunched
  exact ⟨u, hu, hlaunched⟩

end

/-! ### Start (R127 step 4) -/

section
variable {s : State} {gid op q n busy : Nat} {b : Option Nat} {ws : List CellWrite}

theorem State.work?_onOp (s : State) (gid op : Nat) (f : Work → Work) :
    (s.onGroup gid fun g => g.onOp op f).work? gid op = (s.work? gid op).map f := by
  have hfind : ∀ l : List Op, ((l.map fun o => if o.id = op then { o with work := f o.work } else o).find? fun o => o.id == op) =
      (l.find? fun o => o.id == op).map fun o => { o with work := f o.work } := fun l => by
    induction l with
    | nil => rfl
    | cons o l ih => by_cases ho : o.id = op <;> simp [ho, ih]
  unfold State.work?
  rw [State.group?_onGroup]
  cases s.group? gid with
  | none => rfl
  | some g =>
    rw [Option.map_some]
    dsimp only
    rw [Group.onOp, hfind, Option.map_map, Option.map_map]
    rfl

theorem State.group?_of_work? {w : Work} (h : s.work? gid op = some w) : ∃ g, s.group? gid = some g := by
  unfold State.work? at h
  split at h
  · cases h
  · next g hg => exact ⟨g, hg⟩

theorem execSfuStart_eq {core pipe : Nat} (hwork : s.work? gid op = some (.sfu q n busy b ws))
    (hfind : ((s.core core).sfuQueue pipe).find? (fun x => (s.sfuArrives x).isNone) = some (gid, op)) :
    exec (.sfuStart core pipe) s =
      if NMap.get (s.core core).sfuFree 0 pipe ≤ (s.core core).cycle.toNat then
        .next ((s.onGroup gid fun g => g.onOp op fun _ => .sfu q n busy (some ((s.core core).cycle.toNat + n)) ws).onCore core fun c =>
          { c with sfuFree := NMap.put c.sfuFree pipe (c.cycle.toNat + busy) })
      else .next s := by
  change execSfuStart core pipe s = _
  simp only [execSfuStart, hfind, hwork]

/-- The first operation that has not started starts once the unit is free. -/
theorem sfuStart_starts {core pipe : Nat} (hwork : s.work? gid op = some (.sfu q n busy b ws))
    (hfind : ((s.core core).sfuQueue pipe).find? (fun x => (s.sfuArrives x).isNone) = some (gid, op))
    (hfree : NMap.get (s.core core).sfuFree 0 pipe ≤ (s.core core).cycle.toNat) :
    ∃ u, exec (.sfuStart core pipe) s = .next u ∧ u.work? gid op = some (.sfu q n busy (some ((s.core core).cycle.toNat + n)) ws) ∧
      NMap.get (u.core core).sfuFree 0 pipe = (s.core core).cycle.toNat + busy ∧
      (∀ k, k ≠ gid → u.group? k = s.group? k) ∧ { u with groups := s.groups, cores := s.cores } = s := by
  refine ⟨_, (execSfuStart_eq hwork hfind).trans (if_pos hfree), ?_, ?_, fun k hk => ?_, rfl⟩
  · refine (State.work?_onOp ..).trans ?_
    rw [hwork, Option.map_some]
  · rw [State.core_onCore]
    exact NMap.get_put_self ..
  · exact State.group?_onGroup_ne s _ hk

end

/-! ### Return (R127 step 5) -/

theorem State.sfuFirst_mem (s : State) {queue : List (Nat × Nat)} {x : Nat × Nat} {m : Nat} (h : s.sfuFirst queue = some (x, m)) :
    x ∈ queue ∧ s.sfuArrives x = some m := by
  induction queue with
  | nil => cases h
  | cons y rest ih =>
    have hrest : s.sfuFirst rest = some (x, m) → x ∈ y :: rest ∧ s.sfuArrives x = some m := fun hr =>
      ⟨List.mem_cons_of_mem _ (ih hr).1, (ih hr).2⟩
    rw [State.sfuFirst] at h
    split at h
    · next hy hr =>
      split at h
      · cases h
        exact hrest hr
      · cases h
        exact ⟨List.mem_cons_self, hy⟩
    · next hy _ =>
      cases h
      exact ⟨List.mem_cons_self, hy⟩
    · exact hrest h

/-- The first result: every operation before it in the queue arrives later, and every one after it no earlier. -/
theorem State.sfuFirst_eq (s : State) {x : Nat × Nat} {cycle : Nat} (hx : s.sfuArrives x = some cycle) {before after : List (Nat × Nat)}
    (hbefore : ∀ y ∈ before, ∀ m, s.sfuArrives y = some m → cycle < m) (hafter : ∀ y ∈ after, ∀ m, s.sfuArrives y = some m → cycle ≤ m) :
    s.sfuFirst (before ++ x :: after) = some (x, cycle) := by
  induction before with
  | nil =>
    rw [List.nil_append, State.sfuFirst, hx]
    cases hfirst : s.sfuFirst after with
    | none => rfl
    | some r =>
      obtain ⟨hmem, harrives⟩ := s.sfuFirst_mem hfirst
      exact if_neg (Nat.not_lt.2 (hafter _ hmem _ harrives))
  | cons y before ih =>
    rw [List.cons_append, State.sfuFirst, ih fun z hz => hbefore z (List.mem_cons_of_mem _ hz)]
    cases harrives : s.sfuArrives y with
    | none => rfl
    | some m => exact if_pos (hbefore y List.mem_cons_self m harrives)

/-! The writes of a result reach the register whether or not a check of a lane has poisoned them. -/

theorem Core.writeAll_rf_congr {c d : Core} (h : c.rf = d.rf) (ws : List CellWrite) : (c.writeAll ws).rf = (d.writeAll ws).rf := by
  induction ws generalizing c d with
  | nil => exact h
  | cons w ws ih =>
    refine ih ?_
    unfold Core.write Core.cell
    rw [h]

theorem Core.writeAll_struck_rf (c : Core) (remap : Lane) (pipe phys : Nat) (ws : List CellWrite) :
    (c.writeAll (struck remap pipe phys ws)).rf = (c.writeAll ws).rf := by
  induction ws generalizing c with
  | nil => rfl
  | cons w ws ih =>
    refine (ih _).trans (Core.writeAll_rf_congr ?_ ws)
    dsimp only
    split <;> rfl

theorem Core.writeAll_hurt_rf (c : Core) (remap : Lane) (pipe : Nat) (x : Deferred) (ws : List CellWrite) :
    (c.writeAll (x.hurt remap pipe ws)).rf = (c.writeAll ws).rf := by
  unfold Deferred.hurt
  induction x.hit generalizing ws with
  | nil => rfl
  | cons phys hit ih => exact (ih _).trans (Core.writeAll_struck_rf ..)

/-- The deferred writes of a group once the result of one of them has arrived: a poisoned lane's writes stay poisoned. -/
def Group.arrived (g : Group) (remap : Lane) (op : Nat) (ws : List CellWrite) : List Deferred :=
  g.defers.map fun d => if d.op = op then { d with writes := some (d.hurt remap g.pipe ws) } else d

theorem State.settle_core_eq (st : State) {gid : Nat} {g : Group} (h : st.group? gid = some g) :
    (st.settle gid).core g.core = (st.core g.core).writeAll (settleList g.defers []).2 := by
  simp only [State.settle, h, State.core_onCore, State.core_setGroup]

theorem State.settle_setGroup_core (st : State) (gid : Nat) (g : Group) (f : Core → Core) :
    (((st.setGroup gid g).onCore g.core f).settle gid).core g.core = (f (st.core g.core)).writeAll (settleList g.defers []).2 := by
  rw [State.settle_core_eq ((st.setGroup gid g).onCore g.core f) (State.group?_setGroup st gid g), State.core_onCore, State.core_setGroup]

/-- A core with another note of what its pipes wrote. -/
def Core.noting (c : Core) (w : NMap Wrote) : Core := { c with wrote := w }

theorem State.arrive_core (st : State) {gid : Nat} {g : Group} (h : st.group? gid = some g) (op : Nat) (ws : List CellWrite) :
    ∃ w, (st.arrive gid op ws).core g.core =
      ((st.core g.core).noting w).writeAll (settleList (g.arrived (st.core g.core).laneremap op ws) []).2 := by
  rw [State.arrive, h]
  have hsettled := State.settle_setGroup_core st gid { g with defers := g.arrived (st.core g.core).laneremap op ws }
  by_cases hlast : (NMap.get (st.core g.core).wrote {} g.pipe : Wrote).op = some op
  · exact ⟨_, (hsettled _).trans (congrArg (fun c : Core => c.writeAll _) (if_pos hlast))⟩
  · exact ⟨(st.core g.core).wrote, (hsettled _).trans (congrArg (fun c : Core => c.writeAll _) (if_neg hlast))⟩

/-- The group's one deferred write, its window closed, is made when its result arrives. -/
theorem Group.settle_arrived_sole {g : Group} {op : Nat} {src : Source} {regs hit : List Nat}
    (hdefers : g.defers = [⟨op, src, 0, regs, none, hit⟩]) (hregs : ∀ r ∈ regs, r < 2048) (remap : Lane) (ws : List CellWrite) :
    (settleList (g.arrived remap op ws) []).2 = Deferred.hurt remap g.pipe ⟨op, src, 0, regs, none, hit⟩ ws := by
  have hall : regs.all (decide <| · < 2048) = true := List.all_eq_true.2 fun r hr => decide_eq_true (hregs r hr)
  rw [Group.arrived, hdefers, List.map_singleton, if_pos rfl, settleList]
  simp [hall, settleList]

theorem State.arrive_group_ne (st : State) {gid k : Nat} (h : k ≠ gid) (op : Nat) (ws : List CellWrite) :
    (st.arrive gid op ws).group? k = st.group? k := by
  unfold State.arrive
  split
  · rfl
  · exact (State.settle_group_ne _ h).trans (State.group?_setGroup_ne st _ h)

theorem State.arrive_rest (st : State) (gid op : Nat) (ws : List CellWrite) :
    { st.arrive gid op ws with groups := st.groups, cores := st.cores } = st := by
  unfold State.arrive
  split
  · rfl
  · exact congrArg (fun y : State => { y with groups := st.groups, cores := st.cores }) (State.settle_rest ..)

theorem Core.sfuQueue_of_rest {c d : Core} (h : c.rest = d.rest) (pipe : Nat) : c.sfuQueue pipe = d.sfuQueue pipe := by
  have h0 := congrArg Core.sfu0 h
  have h1 := congrArg Core.sfu1 h
  unfold Core.sfuQueue
  exact if_congr Iff.rfl h0 h1

section
variable {s : State} {gid op q n busy core pipe : Nat} {b : Option Nat} {ws : List CellWrite}

/-- The core of a pipe whose result has left its queue. -/
def Core.sfuReturned (c : Core) (pipe gid op : Nat) : Core :=
  (c.setSfuQueue pipe ((c.sfuQueue pipe).filter (· != (gid, op)))).noting (NMap.put c.wrote pipe { op := some op })

theorem Core.sfuReturned_rf (c : Core) (pipe gid op : Nat) : (c.sfuReturned pipe gid op).rf = c.rf :=
  Core.setSfuQueue_rf ..

theorem execSfuResult_eq {cycle : Nat} (hwork : s.work? gid op = some (.sfu q n busy b ws))
    (hfirst : s.sfuFirst ((s.core core).sfuQueue pipe) = some ((gid, op), cycle)) :
    exec (.sfuResult core pipe) s =
      if (s.core core).cycle.toNat < cycle then .next s
      else .next (((s.onCore core fun c => c.sfuReturned pipe gid op).arrive gid op ws).onGroup gid fun g => g.finish op) := by
  change execSfuResult core pipe s = _
  simp only [execSfuResult, hfirst, hwork]
  rfl

/-- The first result leaves its queue, and a deferred write that waits for nothing else is made. -/
theorem sfuResult_returns {cycle : Nat} (hwork : s.work? gid op = some (.sfu q n busy b ws))
    (hfirst : s.sfuFirst ((s.core core).sfuQueue pipe) = some ((gid, op), cycle)) (hcycle : ¬ (s.core core).cycle.toNat < cycle)
    (hcore : ∀ g, s.group? gid = some g → g.core = core) :
    ∃ u, exec (.sfuResult core pipe) s = .next u ∧ (u.core core).sfuQueue pipe = ((s.core core).sfuQueue pipe).filter (· != (gid, op)) ∧
      (∀ g src regs hit, s.group? gid = some g → g.defers = [⟨op, src, 0, regs, none, hit⟩] → (∀ r ∈ regs, r < 2048) →
        ∀ i, (u.core core).cell i = ((s.core core).writeAll ws).cell i) ∧
      (∀ k, k ≠ gid → u.group? k = s.group? k) ∧ { u with groups := s.groups, cores := s.cores } = s := by
  obtain ⟨g, hg⟩ := State.group?_of_work? hwork
  cases hcore g hg
  obtain ⟨w, harrived⟩ := (s.onCore g.core fun c => c.sfuReturned pipe gid op).arrive_core hg op ws
  rw [State.core_onCore] at harrived
  refine ⟨_, (execSfuResult_eq hwork hfirst).trans (if_neg hcycle), ?_, fun g' src regs hit hg' hdefers hregs i => ?_, fun k hk => ?_, ?_⟩
  · rw [State.core_onGroup, harrived, Core.sfuQueue_of_rest (Core.writeAll_rest ..)]
    exact Core.sfuQueue_setSfuQueue ..
  · cases hg.symm.trans hg'
    rw [State.core_onGroup, harrived, Group.settle_arrived_sole hdefers hregs, Core.cell, Core.cell, Core.writeAll_hurt_rf,
      Core.writeAll_rf_congr (c := ((s.core g.core).sfuReturned pipe gid op).noting w) (Core.sfuReturned_rf ..) ws]
  · exact (State.group?_onGroup_ne _ _ hk).trans (State.arrive_group_ne _ hk ..)
  · exact congrArg (fun y : State => { y with groups := s.groups, cores := s.cores }) (State.arrive_rest ..)

end

/-- Settles O9: the instructions of the unit share one launch, and a pipe's operations start and return one by one. -/
theorem specialFunctionResults : Obligations.SpecialFunctionResults := by
  unfold Obligations.SpecialFunctionResults
  refine ⟨fun t d a b p s e h ha hq hroom => ?_, fun core pipe s gid op q n busy b ws => ?_⟩
  · intro launches unary binary
    have hunary : ∀ i op, (∀ s, exec i s = sfuA i op (8 + t.toNat) d.toNat a.toNat p.toNat s) → unary i op := fun i op hexec hf => by
      rw [hexec]
      exact sfuA_launches h ha hq hroom hf
    have hbinary : ∀ i row ty rounds f, (∀ s, exec i s = sfuAB i row ty d.toNat a.toNat b.toNat p.toNat rounds f s) →
        binary i row ty rounds (f e.hints.mode) := fun i row ty rounds f hexec hb hf => by
      rw [hexec]
      exact sfuAB_launches h ha hb hq hroom hf
    exact ⟨hunary _ _ fun _ => rfl, hunary _ _ fun _ => rfl, hunary _ _ fun _ => rfl, hunary _ _ fun _ => rfl,
      hunary _ _ fun _ => rfl, hunary _ _ fun _ => rfl, hunary _ _ fun _ => rfl, hunary _ _ fun _ => rfl,
      hbinary _ _ _ _ (fun m => sfuDiv (8 + t.toNat) m) fun _ => rfl, hbinary _ _ _ _ (fun _ => intDiv t.toNat) fun _ => rfl,
      hbinary _ _ _ _ (fun _ => intRem t.toNat) fun _ => rfl⟩
  · intro c hwork
    refine ⟨fun hfind => ?_, fun before after cycle hqueue hb hbefore hafter hcore => ?_⟩
    · split
      · next hbusy => exact (execSfuStart_eq hwork hfind).trans (if_neg (Nat.not_le.2 hbusy))
      · next hfree => exact sfuStart_starts hwork hfind (Nat.not_lt.1 hfree)
    · have harrives : s.sfuArrives (gid, op) = some cycle := by rw [State.sfuArrives, hwork, hb]
      have hfirst : s.sfuFirst (c.sfuQueue pipe) = some ((gid, op), cycle) := hqueue ▸ s.sfuFirst_eq harrives hbefore hafter
      split
      · next hearly => exact (execSfuResult_eq hwork hfirst).trans (if_pos hearly)
      · next hlate => exact sfuResult_returns hwork hfirst hlate hcore

end Sys2Proof.Machine
end

section
/-! A settled stream's word: its windows close at once, and the rest of its meaning is given a state that differs in nothing that it can see
(R36, R73, R76). -/

namespace Sys2Proof.Machine

/-- The state in which the word of a settled stream is carried out: only the note of what the slot waited for is gone. -/
structure Opened (s st : State) (e : Env) : Prop where
  env : st.env? = some e.fresh
  group : st.group? e.gid = some e.fresh.g
  groups : ∀ k, k ≠ e.gid → st.group? k = s.group? k
  cores : ∀ c, st.core c = s.core c
  package : { st with groups := s.groups, cores := s.cores } = s

theorem State.core_closeWindows {s : State} {gid : Nat} {g : Group} (hg : s.group? gid = some g) (h : g.defers = []) (p : Source → Bool) (c : Nat) :
    (s.closeWindows gid p).core c = s.core c := by
  have hset : (s.onGroup gid fun g => { g with defers := g.defers.map fun d => if p d.src then { d with left := 0 } else d }).group? gid = some g := by
    rw [State.group?_onGroup, hg, Option.map_some, h, List.map_nil, ← h]
  rw [State.closeWindows, State.settle_core _ hset (Group.awaits_of_defers_nil h), State.core_onGroup]

/-- Two states with the same actor whose teams, cores and acting group agree give the actor the same environment. -/
theorem State.env?_congr {s t : State} {e : Env} (h : s.env? = some e) (hgroup : t.group? e.gid = s.group? e.gid) (hcore : t.core e.g.core = s.core e.g.core)
    (hpackage : { t with groups := s.groups, cores := s.cores } = s) : t.env? = some e := by
  obtain ⟨hg, hmay, hgid, hsrc, hslot, hc, hwho, hhints⟩ := State.env?_some h
  have hactor : t.actor = s.actor := (congrArg State.actor hpackage :)
  have hteams : t.teams = s.teams := (congrArg State.teams hpackage :)
  rw [hg] at hgroup
  rw [State.env?, State.envAt, hactor, ← hgid, ← hsrc, hgroup]
  dsimp only
  rw [if_pos hmay, hcore, ← hc, ← hslot, ← hhints]
  have hwhoOf : t.whoOf e.g (e.src == .handler) = s.whoOf e.g (e.src == .handler) := by simp only [State.whoOf, State.team, hteams]
  rw [hwhoOf, ← hwho]

theorem State.closeWindows_rest (s : State) (gid : Nat) (p : Source → Bool) :
    { s.closeWindows gid p with groups := s.groups, cores := s.cores } = s :=
  congrArg (fun x : State => { x with groups := s.groups, cores := s.cores }) (State.settle_rest (s.onGroup gid _) gid)

theorem Settled.env?_closeFor {s : State} {e : Env} (h : Settled s e) (c : Closes) : (s.closeFor e c).env? = some e := by
  obtain ⟨hg, -⟩ := State.env?_some h.env
  have hclose : ∀ p, (s.closeWindows e.gid p).env? = some e := fun p =>
    State.env?_congr h.env ((State.group?_closeWindows hg h.settled p).trans hg.symm) (State.core_closeWindows hg h.settled p _) (State.closeWindows_rest ..)
  cases c with
  | nothing => exact h.env
  | own => exact hclose _
  | both => exact hclose _

theorem Settled.opened {s : State} {e : Env} (h : Settled s e) (c : Closes) : Opened s ((s.closeFor e c).clearWait e) e := by
  obtain ⟨hg, -⟩ := State.env?_some h.env
  have henv := State.env?_clearWait (h.env?_closeFor c)
  have hclose : ∀ p, (∀ k, k ≠ e.gid → (s.closeWindows e.gid p).group? k = s.group? k) ∧ (∀ c, (s.closeWindows e.gid p).core c = s.core c) ∧
      { s.closeWindows e.gid p with groups := s.groups, cores := s.cores } = s := fun p =>
    ⟨(sameBut_closeWindows hg h.settled p).groups, State.core_closeWindows hg h.settled p, State.closeWindows_rest ..⟩
  have hall : (∀ k, k ≠ e.gid → (s.closeFor e c).group? k = s.group? k) ∧ (∀ k, (s.closeFor e c).core k = s.core k) ∧
      { s.closeFor e c with groups := s.groups, cores := s.cores } = s := by
    cases c with
    | nothing => exact ⟨fun _ _ => rfl, fun _ => rfl, rfl⟩
    | own => exact hclose _
    | both => exact hclose _
  obtain ⟨hgroups, hcores, hpackage⟩ := hall
  exact ⟨henv, (State.env?_some henv).1, fun k hk => ((sameBut_clearWait _ e).groups k hk).trans (hgroups k hk), hcores, hpackage⟩

/-- What a verdict of the rest of a meaning comes to, as the issue of a word takes it. -/
def Env.answer (e : Env) (st : State) : Verdict → State
  | .trap t r => if t.cause = 0 then st.stall e else e.raise t st r
  | .wait s => s.stall e
  | .next s => s.retire e
  | .jump s => s

/-- A word of a settled stream that passes its checks is carried out in an opened state. -/
theorem State.issue_of_settled {s : State} {e : Env} {f : Form} {i : Instr} (h : Settled s e) (hb : f.barrier = false) (hu : f.unit = false)
    (hf : Fits e f i) (run : Env → State → Verdict) :
    ∃ st, Opened s st e ∧ s.issue f (infoWord i) run = .next (e.fresh.answer st (run e.fresh st)) := by
  have hopened := h.opened f.closes
  refine ⟨_, hopened, ?_⟩
  have hruns : ¬ (f.runs = .program ∧ e.fresh.src = .handler) := fun hp => hf.stream hp.1 hp.2
  have hform : e.fresh.formTrap f (infoWord i) = none := by rw [Env.fresh_formTrap, hf.form]
  unfold State.issue
  simp only [h.env, hb, hopened.env, h.windows_fresh, hu, hruns, hform, Bool.false_eq_true, false_and, ↓reduceIte]
  cases run e.fresh ((s.closeFor e f.closes).clearWait e) <;> rfl

namespace Opened

variable {s st : State} {e : Env} (h : Opened s st e)
include h

theorem issueNo : st.issueNo = s.issueNo := (congrArg State.issueNo h.package :)
theorem teams : st.teams = s.teams := (congrArg State.teams h.package :)
theorem mem : st.mem = s.mem := (congrArg State.mem h.package :)
theorem nextId : st.nextId = s.nextId := (congrArg State.nextId h.package :)

theorem team (k : Nat) : st.team k = s.team k := by simp only [State.team, h.teams]

theorem before (hs : s.env? = some e) : Before s st e e.fresh.g.keys e.fresh.g.ctrs e.fresh.g.flight e.fresh.g.defers where
  group := h.group
  groups := h.groups
  cores c _ := h.cores c
  memories := by
    obtain ⟨-, -, -, -, -, hcore, -⟩ := State.env?_some hs
    rw [hcore, h.cores]
    exact ⟨rfl, rfl, rfl, rfl, rfl, rfl, rfl⟩
  package := congrArg (fun x : State => { x with nextId := s.nextId }) h.package

theorem sameBut : SameBut s st e.gid where
  package := congrArg (fun x : State => { x with issueNo := s.issueNo }) h.package
  groups := h.groups
  cores c := by rw [h.cores]; exact Core.SameValues.refl _

/-- A stop in the opened state is a stop of the slot. -/
theorem stops {t : State} {cause : Nat} {lanes : Mask} {addr info : NMap Lane} {resume : Lane}
    (hstop : Stops st t e.fresh cause lanes addr info resume) : Stops s t e cause lanes addr info resume where
  group := by
    have hgroup := hstop.group
    simp only [Env.fresh_gpreds, Env.fresh_gframes, Env.fresh_gflight] at hgroup
    exact hgroup
  groups k hk := (hstop.groups k hk).trans (h.groups k hk)
  cells c i := by
    have hcells := hstop.cells c i
    rwa [h.cores] at hcells
  memory core team place := (hstop.memory core team place).trans (h.sameBut.memory core team place)

end Opened

end Sys2Proof.Machine
end

section
/-! Software stops: TRAP, BKPT, and words that are no instruction (R66, R67, R163, R166 to R171). -/

namespace Sys2Proof.Machine

/-! ### Lanes and guards of a stop -/

theorem maskOf_lanesOf (m : Mask) : maskOf (lanesOf m) = m := by
  refine BitVec.eq_of_getLsbD_eq fun l hl => Bool.eq_iff_iff.2 ?_
  rw [getLsbD_maskOf _ hl, lanesOf, List.mem_filter, List.mem_range]
  exact and_iff_right hl

/-- A word of major 0 has no guard (R61). -/
theorem wordGuard_of_lt {w : Nat} (h : w < 2 ^ 27) : wordGuard w = none := by
  have hmajor : w / 2 ^ 27 % 32 = 0 := by rw [Nat.div_eq_of_lt h]
  unfold wordGuard
  rw [hmajor]
  simp

theorem toNat_infoWord {i : Instr} (h : encodeNat i < 2 ^ 27) : (infoWord i).toNat = encodeNat i := by
  rw [infoWord, BitVec.toNat_ofNat, Nat.mod_eq_of_lt (by omega)]

theorem encodeNat_illegal_lt (c : BitVec 21) : encodeNat (.illegal c) < 2 ^ 27 := by
  have hword : encodeNat (.illegal c) = 0 + c.toNat * 2 ^ 0 := rfl
  have hc := c.isLt
  omega

theorem encodeNat_crwr_lt (r : BitVec 6) (n : BitVec 8) : encodeNat (.crwr r n) < 2 ^ 27 := by
  have hword : encodeNat (.crwr r n) = 0x800000 + n.toNat * 2 ^ 7 + r.toNat * 2 ^ 15 := rfl
  have hr := r.isLt
  have hn := n.isLt
  omega

/-! ### Stops that do not end the gang -/

/-- A stop of a settled program stream whose fate is not its gang's. -/
theorem Env.raise_stops_of_fate {s : State} {e : Env} {t : Trap} (hg : s.group? e.gid = some e.g) (hd : e.g.defers = []) (hs : e.Stoppable)
    (hsrc : e.src ≠ .handler) (hf : fateOf t.cause (s.team e.g.team).debug ≠ .gang) (hc : t.cause < 256) (hl : t.lane = none)
    (resume : Option Lane) :
    Stops s (e.raise t s resume) e t.cause t.lanes t.addr t.info (resume.getD e.stopPc) := by
  obtain ⟨ha, hv⟩ := hs
  have hraise : e.raise t s resume = s.takeStop e.gid (some e.src) t e.stopPc (resume.getD e.stopPc) (!e.slot.hints.isEmpty) := by
    unfold Env.raise
    cases h : e.src
    case handler => exact absurd h hsrc
    all_goals rfl
  have hfate : s.fateFor e.g t.cause ≠ .gang := by rwa [State.fateFor, hv, if_neg Bool.false_ne_true]
  have h6 : t.cause ≠ 0x06 := fun h => hf (by rw [h]; rfl)
  obtain ⟨keep, hgroup⟩ := State.group?_stopGroup s e.gid (g := e.g.stoppedBy e.src
    ⟨some e.src, e.g.record e.src t e.stopPc (resume.getD e.stopPc) (!e.slot.hints.isEmpty), s.fateFor e.g t.cause⟩ e.stopPc)
    (by rw [Group.stoppedBy_defers, hd])
  have hsame := sameBut_stopGroup s e.gid (g := e.g.stoppedBy e.src
    ⟨some e.src, e.g.record e.src t e.stopPc (resume.getD e.stopPc) (!e.slot.hints.isEmpty), s.fateFor e.g t.cause⟩ e.stopPc)
    (by rw [Group.stoppedBy_defers, hd])
  rw [hraise, State.takeStop_eq hg ha h6]
  dsimp only
  rw [if_neg hfate]
  refine ⟨⟨_, _, hgroup, Group.stoppedBy_life .., by simp [hfate], Group.stoppedBy_stop .., rfl, ?_, rfl, rfl, rfl, rfl, rfl, ?_,
    Group.stoppedBy_preds .., Group.stoppedBy_frames .., Group.stoppedBy_flight ..⟩, hsame.groups, fun c i => (hsame.cores c).2 i, hsame.memory⟩
  · show (causeWord _ _ _ _).toNat = _
    rw [toNat_causeWord _ _ _ hc hl, hv]
    cases e.slot.hints <;> simp
  · exact Group.stoppedBy_slot_pc e.g e.src _ _

section
variable {s st : State} {e : Env}

/-- A stop of the rest of a meaning, in the state that it is given. -/
theorem Opened.raise (h : Opened s st e) (hs : Settled s e) (hstop : e.Stoppable) (hsrc : e.src ≠ .handler) {t : Trap}
    (hf : ∀ debug, fateOf t.cause debug ≠ .gang) (hc : t.cause < 256) (h0 : t.cause ≠ 0) (hl : t.lane = none) (resume : Option Lane) :
    Stops s (e.fresh.answer st (.trap t resume)) e t.cause t.lanes t.addr t.info (resume.getD e.stopPc) := by
  have hfresh : e.fresh.Stoppable := by rwa [Env.Stoppable, Env.fresh_garrivals, Env.fresh_gversioned]
  have hdefers : e.fresh.g.defers = [] := by rw [Env.fresh_gdefers, hs.settled]
  rw [Env.answer, if_neg h0]
  exact h.stops (Env.raise_stops_of_fate h.group hdefers hfresh hsrc (hf _) hc hl resume)

theorem Source.ne_handler_of_slot {src : Source} (h : src = .slotA ∨ src = .slotB) : src ≠ .handler := by
  rintro rfl
  simp at h

/-- TRAP and BKPT (R163). -/
theorem softStop_stops (h : Settled s e) (hstop : e.Stoppable) {i : Instr} (hsrc : e.src ≠ .handler)
    (hf : Fits e { closes := .both, runs := .program } i) {cause : Nat} (hcause : cause = 0x20 ∨ cause = 0x21) (c : BitVec 21) :
    ∃ t, softStop i cause c s = .next t ∧
      Stops s t e cause e.slot.mask [] (inLanes (List.range e.width) (c.setWidth 64)) (e.slot.pc + 4) := by
  obtain ⟨st, hopened, hissue⟩ := State.issue_of_settled h rfl rfl hf fun e _ =>
    .trap { cause := cause, lanes := e.slot.mask, info := inLanes (List.range e.width) (c.setWidth 64) } (some (e.slot.pc + 4))
  have hfate : ∀ debug, fateOf cause debug ≠ .gang := fun debug => by rcases hcause with rfl | rfl <;> cases debug <;> decide
  have hwidth : e.fresh.width = e.width := by rw [Env.width, Env.width, Env.fresh_gprot]
  have hlt : cause < 256 := by omega
  have hne : cause ≠ 0 := by omega
  have hraise := hopened.raise h hstop hsrc (t := { cause := cause, lanes := e.slot.mask, info := inLanes (List.range e.width) (c.setWidth 64) })
    hfate hlt hne rfl (some (e.slot.pc + 4))
  rw [← hwidth] at hraise
  exact ⟨_, hissue, hwidth ▸ hraise⟩

/-- The trap of a word that is no instruction: the lanes that are active under its guard (log 54). -/
def Env.noInstruction (e : Env) (word : Lane) : Trap :=
  let m := maskOf (e.activeOf (wordGuard word.toNat))
  { cause := 0x01, lanes := m, info := inLanes (lanesOf m) word }

/-- A word that is no instruction stops a settled program stream over the lanes of its guard (R66; log 54). -/
theorem illegalWord_stops (h : Settled s e) (hsrc : e.src = .slotA ∨ e.src = .slotB) (hstop : e.Stoppable) (word : Lane) :
    ∃ t, s.illegalWord word = .next t ∧ Stops s t e 0x01 (maskOf (e.activeOf (wordGuard word.toNat))) []
      (inLanes (lanesOf (maskOf (e.activeOf (wordGuard word.toNat)))) word) e.stopPc := by
  obtain ⟨hg, -⟩ := State.env?_some h.env
  have haccess : e.src ≠ .access := by rintro ha; simp [ha] at hsrc
  have hwindows : e.g.windowsHold e.src .nothing = false := by rw [Group.windowsHold, h.settled, List.any_nil]
  refine ⟨e.raise (e.noInstruction word) s, ?_, ?_⟩
  · simp only [State.illegalWord, h.env, hwindows, haccess, Bool.false_eq_true, ↓reduceIte]
    rfl
  · exact Env.raise_stops_of_fate (t := e.noInstruction word) hg h.settled hstop (Source.ne_handler_of_slot hsrc) (show Fate.handler ≠ .gang by decide)
      (show 0x01 < 256 by decide) rfl none

/-- A word that is no instruction and has no guard stops it over the lanes of the slot. -/
theorem illegalWord_stops_of_lt (h : Settled s e) (hsrc : e.src = .slotA ∨ e.src = .slotB) (hstop : e.Stoppable) {word : Lane}
    (hw : word.toNat < 2 ^ 27) :
    ∃ t, s.illegalWord word = .next t ∧ Stops s t e 0x01 e.slot.mask [] (inLanes e.lanes word) e.stopPc := by
  have hstops := illegalWord_stops h hsrc hstop word
  rwa [wordGuard_of_lt hw, Env.activeOf, Env.lanes, maskOf_lanesOf] at hstops

end

/-- Settles O18: TRAP and BKPT stop behind their word, and every word that is no instruction stops at the slot's first hint or at itself. -/
theorem softwareStops : Obligations.SoftwareStops := by
  unfold Obligations.SoftwareStops
  intro s e c w h hsrc hstop here
  have hhandler := Source.ne_handler_of_slot hsrc
  refine ⟨fun hf => softStop_stops h hstop hhandler hf (.inl rfl) c, fun hf => softStop_stops h hstop hhandler hf (.inr rfl) c, ?_, fun hw => ?_⟩
  · refine illegalWord_stops_of_lt h hsrc hstop ?_
    rw [toNat_infoWord (encodeNat_illegal_lt c)]
    exact encodeNat_illegal_lt c
  · have hword : (w.setWidth 64 : Lane).toNat = w.toNat := by
      rw [BitVec.toNat_setWidth, Nat.mod_eq_of_lt (by have := w.isLt; omega)]
    have hexec : exec (.wordNotAnInstruction w) s = s.illegalWord (w.setWidth 64) := by
      change execWordNotAnInstruction w s = _
      rw [execWordNotAnInstruction, if_neg (fun hk => hw hk.1), decide_eq_false hw]
    have hstops := illegalWord_stops h hsrc hstop (w.setWidth 64)
    rw [hword] at hstops
    rwa [hexec]

end Sys2Proof.Machine
end

section
/-! Instructions of a settled stream that are done at once: what they leave where they change nothing, or fields of their group alone. -/

namespace Sys2Proof.Machine

/-- A change of a group beside its slots, its predicates and what an issue counts. -/
structure Group.Aside (f : Group → Group) : Prop where
  slot : ∀ g src, (f g).slot src = g.slot src
  stream : ∀ g, (f g).accessPc = g.accessPc ∧ (f g).accessLife = g.accessLife
  order : ∀ g, (f g).issued = g.issued ∧ (f g).prefer = g.prefer
  preds : ∀ g, (f g).preds = g.preds
  defers : ∀ g, (f g).defers = g.defers
  retired : ∀ g e n, ((f g).goesOn e).counted e true n = f ((g.goesOn e).counted e true n)

theorem Group.aside_id : Group.Aside id := ⟨fun _ _ => rfl, fun _ => ⟨rfl, rfl⟩, fun _ => ⟨rfl, rfl⟩, fun _ => rfl, fun _ => rfl, fun _ _ _ => rfl⟩

theorem Advances.aside {f : Group → Group} (hf : Group.Aside f) {e : Env} {n : Nat} {g : Group} (h : Advances e n g) : Advances e n (f g) where
  slot hs := (hf.slot g _).trans (h.slot hs)
  others y hy := (hf.slot g y).trans (h.others y hy)
  access hs := (hf.stream g).1.trans (h.access hs)
  stream := (hf.stream g).2.trans h.stream
  issued := (hf.order g).1.trans h.issued
  prefer := (hf.order g).2.trans h.prefer

/-- The state before an instruction retires that has changed its group alone. -/
structure Regrouped (s st : State) (e : Env) (f : Group → Group) : Prop where
  group : st.group? e.gid = some (f e.fresh.g)
  groups : ∀ k, k ≠ e.gid → st.group? k = s.group? k
  cores : ∀ c, st.core c = s.core c
  package : { st with groups := s.groups, cores := s.cores } = s

section
variable {s st : State} {e : Env}

theorem Opened.regrouped (h : Opened s st e) : Regrouped s st e id := ⟨h.group, h.groups, h.cores, h.package⟩

theorem Opened.onGroup (h : Opened s st e) {f φ : Group → Group} (hf : f e.fresh.g = φ e.fresh.g) : Regrouped s (st.onGroup e.gid f) e φ where
  group := by rw [State.group?_onGroup, h.group, Option.map_some, hf]
  groups k hk := (State.group?_onGroup_ne _ _ hk).trans (h.groups k hk)
  cores := h.cores
  package := h.package

theorem Regrouped.issueNo {f : Group → Group} (h : Regrouped s st e f) : st.issueNo = s.issueNo := (congrArg State.issueNo h.package :)

/-- The group, the cores and the rest of the package once an instruction is done that has changed its group alone. -/
theorem Regrouped.retire {f : Group → Group} (h : Regrouped s st e f) (hs : Settled s e) (hf : Group.Aside f) :
    (st.retire e.fresh).group? e.gid = some (f (e.retired (s.issueNo + 1))) ∧ (∀ k, k ≠ e.gid → (st.retire e.fresh).group? k = s.group? k) ∧
      (∀ c, (st.retire e.fresh).core c = if c = e.g.core then e.core.counted e.src e.g.pipe else s.core c) ∧
      { st.retire e.fresh with groups := s.groups, cores := s.cores, issueNo := s.issueNo } = s ∧
      (st.retire e.fresh).issueNo = s.issueNo + 1 := by
  obtain ⟨-, -, -, -, -, hcore, -⟩ := State.env?_some hs.env
  have hawaits : (f e.fresh.g).AwaitsAfter e.fresh := fun n => Group.awaits_of_defers_nil <| by
    rw [Group.counted_defers, hf.defers, Env.fresh_gdefers, hs.settled, List.map_nil]
  obtain ⟨hg, hgs, hc, hcs, hrest, hno⟩ := State.retire_leaves st (e := e.fresh) h.group hawaits
  rw [hf.retired, h.issueNo, Env.fresh_gid] at hg
  rw [Env.fresh_gcore, Env.fresh_gpipe, Env.fresh_src, h.cores, ← hcore] at hc
  rw [Env.fresh_gcore] at hcs
  refine ⟨hg, fun k hk => (hgs k hk).trans (h.groups k hk), fun c => ?_, ?_, by rw [hno, h.issueNo]⟩
  · split
    · next hne => rw [hne, hc]
    · next hne => rw [hcs c hne, h.cores]
  · have hretired := congrArg (fun y : State => { y with groups := s.groups, cores := s.cores, issueNo := s.issueNo }) hrest
    exact (hretired.trans (congrArg (fun y : State => { y with issueNo := s.issueNo }) h.package) :)

/-- What an instruction that has changed its group alone leaves once it is done; x forgets the change. -/
theorem Regrouped.leaves {f : Group → Group} (h : Regrouped s st e f) (hs : Settled s e) (hf : Group.Aside f) {x : Group → Group}
    (hx : ∀ g : Group, x (f g).rest = x g.rest) : Leaves s (st.retire e.fresh) e { group := x } := by
  obtain ⟨-, -, -, -, hslot, hcore, -⟩ := State.env?_some hs.env
  obtain ⟨hg, hgs, hcores, hpackage, hno⟩ := h.retire hs hf
  have hc : (st.retire e.fresh).core e.g.core = e.core.counted e.src e.g.pipe := by rw [hcores, if_pos rfl]
  refine ⟨hpackage, hno, hgs, fun c hne => ?_, ?_, fun i _ => ?_, ⟨_, hg, ?_, ?_, fun i _ => ?_⟩, fun core team place => ?_⟩
  · rw [hcores, if_neg hne]
  · rw [hc, Core.counted_rest]
  · rw [hc, Core.counted_cell, Core.counted_cellPoison]
    exact ⟨rfl, rfl⟩
  · exact (hx _).trans (congrArg x (Group.retired_rest e _))
  · exact (Group.retired_advances e hslot _).aside hf
  · refine congrArg (NMap.get · 0 i) ((hf.preds _).trans ?_)
    exact (Group.retired_keeps_preds e.fresh.g e.fresh _).trans (Env.fresh_gpreds e)
  · have hsame : ∀ c, ((st.retire e.fresh).core c).SameMemories (s.core c) := fun c => by
      rw [hcores]
      split
      · next hne =>
        rw [hne, ← hcore]
        exact Core.sameMemories_of_rest (Core.counted_rest ..)
      · exact ⟨rfl, rfl, rfl, rfl, rfl, rfl, rfl⟩
    have hview := State.view_congr hpackage hsame core team place
    exact ⟨fun _ => hview.1, fun _ => hview.2⟩

/-- What an instruction that has changed nothing leaves once it is done. -/
theorem Opened.leaves (h : Opened s st e) (hs : Settled s e) : Leaves s (st.retire e.fresh) e {} :=
  h.regrouped.leaves hs Group.aside_id fun _ => rfl

end

end Sys2Proof.Machine
end

section
/-! NOP and the control registers (R52, R53, R161, R169, R202). -/

namespace Sys2Proof.Machine

/-! ### The lowest lane of a slot -/

theorem Env.lanes_ne_nil {e : Env} (h : e.slot.mask ≠ 0) : e.lanes ≠ [] := fun hnil => h <| by
  have hmask := maskOf_lanesOf e.slot.mask
  rw [Env.lanes] at hnil
  rw [← hmask, hnil]
  rfl

theorem Env.lowest_mem_lanes {e : Env} (h : e.slot.mask ≠ 0) : e.lowest ∈ e.lanes := by
  have hne := Env.lanes_ne_nil h
  change e.lanes.headD 0 ∈ e.lanes
  cases hl : e.lanes with
  | nil => exact absurd hl hne
  | cons l ls => exact List.mem_cons_self

/-- A register without poison has none in the lowest lane of an occupied slot. -/
theorem Env.ReadsClean.lowest {e : Env} {r : Nat} (h : e.Clean r) (hm : e.slot.mask ≠ 0) : e.ReadsClean (e.readLowest r) :=
  Env.ReadsClean.lanes h fun l hl => by rw [List.mem_singleton.1 hl]; exact Env.lowest_mem_lanes hm

/-- Registers that agree with their shadows in a lane raise no silent-data trap there. -/
theorem Env.silentTrap_none {e : Env} {lanes : List Nat} {differs : Nat → Bool} (h : e.g.prot = true → ∀ l ∈ lanes, differs l = false) :
    e.silentTrap lanes differs = none := by
  unfold Env.silentTrap
  split
  · next hp =>
    have hnil : lanes.filter differs = [] := List.filter_eq_nil_iff.2 fun l hl => by simp [h hp l hl]
    rw [hnil]
    rfl
  · rfl

@[simp] theorem Env.fresh_pairDiffers (e : Env) (r : Nat) (bits : Lane) (l : Nat) : e.fresh.pairDiffers r bits l = e.pairDiffers r bits l := by
  simp [Env.pairDiffers]

@[simp] theorem Env.fresh_silentTrap (e : Env) (lanes : List Nat) (differs : Nat → Bool) : e.fresh.silentTrap lanes differs = e.silentTrap lanes differs := by
  simp [Env.silentTrap]

theorem Env.pairDiffers_of_eq {e : Env} {r l : Nat} (h : e.val 0 r l = e.val 1 r l) (bits : Lane) : e.pairDiffers r bits l = false := by
  simp [Env.pairDiffers, h]

/-! ### The count of LIVE groups -/

/-- A change of an entry of a rising map leaves the number of entries that pass a test which the change does not touch. -/
theorem NMap.length_filter_put {α : Type} {m : NMap α} {lo k : Nat} {v x : α} (hr : NMap.risesFrom lo m = true) (h : NMap.find m k = some v)
    {p : Nat × α → Bool} (hp : p (k, x) = p (k, v)) : ((NMap.put m k x).filter p).length = (m.filter p).length := by
  induction m generalizing lo with
  | nil => cases h
  | cons y m ih =>
    obtain ⟨j, w⟩ := y
    simp only [NMap.risesFrom, Bool.and_eq_true] at hr
    by_cases hj : j = k
    · subst hj
      simp only [NMap.find, ↓reduceIte, Option.some.injEq] at h
      subst h
      simp only [NMap.put, lt_irrefl, ↓reduceIte, List.filter_cons, hp]
      split <;> rfl
    · simp only [NMap.find, hj, ↓reduceIte] at h
      have hlt : ¬ k < j := fun hkj => by
        have habove : ∀ {n : Nat} {m : NMap α}, NMap.risesFrom n m = true → k < n → NMap.find m k = none := fun {n m} => by
          induction m generalizing n with
          | nil => exact fun _ _ => rfl
          | cons y m ih =>
            intro hr hk
            simp only [NMap.risesFrom, Bool.and_eq_true, decide_eq_true_eq] at hr
            rw [NMap.find, if_neg (by omega), ih hr.2 (by omega)]
        rw [habove hr.2 (by omega)] at h
        cases h
      have hrest := ih hr.2 h
      simp only [NMap.put, hlt, Ne.symm hj, ↓reduceIte, List.filter_cons]
      split <;> simp [hrest]

theorem State.occ_clearWait {s : State} {e : Env} (hg : s.group? e.gid = some e.g) (hr : NMap.rises s.groups = true) (c : Nat) :
    (s.clearWait e).occ c = s.occ c := by
  rw [State.occ, State.occ, State.clearWait, State.onGroup, NMap.changeIf]
  rw [State.group?] at hg
  rw [hg]
  exact NMap.length_filter_put hr hg (by simp)

/-! ### Values of the control registers -/

/-- Numbers and values of the control registers (R52, R169, R202). -/
def State.controls (s : State) (e : Env) : List (Nat × (Nat → Lane)) :=
  let g := e.g
  let t := s.team g.team
  let nat (v : Nat) : Nat → Lane := fun _ => BitVec.ofNat 64 v
  let is (v : Lane) : Nat → Lane := fun _ => v
  [(0x00, fun l => BitVec.ofNat 64 l), (0x01, nat g.index), (0x02, nat t.rank), (0x03, nat g.core), (0x04, nat g.role), (0x05, is g.lrec),
   (0x06, is g.pbase), (0x07, is g.psize), (0x08, nat g.depth), (0x09, nat g.div.length), (0x0A, is (e.slot.mask.setWidth 64)),
   (0x0B, is g.inflight), (0x0C, is g.qstat), (0x0D, is (g.qdir.setWidth 64)), (0x0E, is s.time), (0x0F, is e.core.cycle),
   (0x20, is g.trap.cause), (0x21, is g.trap.pc), (0x22, is g.trap.resume), (0x23, is g.trap.mask),
   (0x24, fun l => NMap.get g.trap.addr 0 l), (0x25, fun l => NMap.get g.trap.info 0 l), (0x26, is g.task), (0x27, is g.hwin),
   (0x40, is e.core.laneremap), (0x41, nat g.number), (0x42, nat (chipPlace g.core t.scratch)), (0x43, nat t.ssize),
   (0x44, is (s.balWord g.core)), (0x45, is (t.balClass.setWidth 64)), (0x46, is e.core.balStat),
   (0x47, nat (if g.tiles = 0 then 0 else chipPlace g.core (0x200000 + 8192 * g.tile0))),
   (0x48, nat (if g.accs = 0 then 0 else chipPlace g.core (0x400000 + 16384 * g.acc0)))]

theorem NMap.mem_of_find {α : Type} {m : NMap α} {k : Nat} {v : α} (h : NMap.find m k = some v) : (k, v) ∈ m := by
  induction m with
  | nil => cases h
  | cons y m ih =>
    rw [NMap.find] at h
    split at h
    · next hk =>
      cases h
      rw [← hk]
      exact List.mem_cons_self
    · exact List.mem_cons_of_mem _ (ih h)

/-- A new attempt of a slot reads the control registers as they were. -/
theorem State.control_fresh {s : State} {e : Env} (hg : s.group? e.gid = some e.g) (hr : NMap.rises s.groups = true) (n l : Nat) :
    (s.clearWait e).control e.fresh n l = s.control e n l := by
  have hbal : (s.clearWait e).balWord e.fresh.g.core = s.balWord e.g.core := by
    rw [Env.fresh_gcore, State.balWord, State.balWord, State.occ_clearWait hg hr]
    rfl
  simp only [State.control, hbal]
  obtain ⟨gid, src, g, slot, core, who, hints⟩ := e
  cases src <;> rfl

/-- Every control register of the table is assigned, and holds its value. -/
theorem State.control_of_mem {s : State} {e : Env} (h : s.env? = some e) {x : Nat × (Nat → Lane)}
    (hx : x ∈ s.controls e) : assigned x.1 = true ∧ ∀ l, s.control e x.1 l = some (x.2 l) := by
  obtain ⟨-, -, -, -, -, hcore, -⟩ := State.env?_some h
  revert x
  simp [State.controls, State.control, assigned, hcore]

/-! ### The instructions -/

section
variable {s : State} {e : Env}

theorem nop_leaves (h : Settled s e) (x : BitVec 21) (hf : Fits e {} (.nop x)) : ∃ u, exec (.nop x) s = .next u ∧ Leaves s u e {} := by
  obtain ⟨st, hopened, hissue⟩ := State.issue_of_settled h rfl rfl hf fun _ st => .next st
  exact ⟨_, hissue, hopened.leaves h⟩

theorem crrd_writes (h : Settled s e) (d : BitVec 6) (n : BitVec 8) (hf : Fits e { regs := [d.toNat] } (.crrd d n))
    (hr : NMap.rises s.groups = true) {v : Nat → Lane} (hv : NMap.find (s.controls e) n.toNat = some v) :
    ∃ u, exec (.crrd d n) s = .next u ∧ WritesLanes s u e d.toNat none fun _ l => v l := by
  obtain ⟨hg, -⟩ := State.env?_some h.env
  obtain ⟨hassigned, hcontrol⟩ := State.control_of_mem h.env (NMap.mem_of_find hv)
  have hwrites : (e.fresh.laneWrites d.toNat none fun _ l => ((s.clearWait e).control e.fresh n.toNat l).getD 0) =
      e.laneWrites d.toNat none fun _ l => v l := by
    simp only [Env.fresh_laneWrites, State.control_fresh hg hr, hcontrol, Option.getD_some]
  obtain ⟨hleaves, hcells⟩ := leaves_of_cells h.ready (e.laneWrites d.toNat none fun _ l => v l) fun w hw => Env.cell_of_laneWrites hw
  refine ⟨_, ?_, WritesLanes.of_cells (x := {}) hleaves hcells⟩
  change execCrrd d n s = _
  rw [execCrrd, if_pos hassigned, State.issue_of_ready h.ready rfl rfl rfl hf]
  dsimp only
  rw [hwrites]

/-- What CRWR of a number of the handler's does to its group (R169, R173). -/
def Group.writeControl (n : BitVec 8) (v : Lane) (g : Group) : Group :=
  if n = 0x22 then { g with trap := { g.trap with resume := v } } else { g with hwin := v &&& 0x38 }

theorem Group.aside_writeControl (n : BitVec 8) (v : Lane) : Group.Aside (Group.writeControl n v) := by
  unfold Group.writeControl
  split
  · refine ⟨fun g src => ?_, fun _ => ⟨rfl, rfl⟩, fun _ => ⟨rfl, rfl⟩, fun _ => rfl, fun _ => rfl, fun g e n => ?_⟩
    · cases src <;> rfl
    · unfold Group.counted Group.goesOn
      cases e.src <;> rfl
  · refine ⟨fun g src => ?_, fun _ => ⟨rfl, rfl⟩, fun _ => ⟨rfl, rfl⟩, fun _ => rfl, fun _ => rfl, fun g e n => ?_⟩
    · cases src <;> rfl
    · unfold Group.counted Group.goesOn
      cases e.src <;> rfl

@[simp] theorem Env.retired_trap (e : Env) (n : Nat) : (e.retired n).trap = e.g.trap := by
  unfold Env.retired Group.counted Group.goesOn
  cases hs : e.src <;> simp [Env.fresh, hs, Group.setSlot]

@[simp] theorem Env.retired_hwin (e : Env) (n : Nat) : (e.retired n).hwin = e.g.hwin := by
  unfold Env.retired Group.counted Group.goesOn
  cases hs : e.src <;> simp [Env.fresh, hs, Group.setSlot]

theorem crwr_writes (h : Settled s e) (r : BitVec 6) {n : BitVec 8} (hn : n = 0x22 ∨ n = 0x27)
    (hf : Fits e { runs := .supervisor, regs := [r.toNat] } (.crwr r n)) (hclean : e.Clean r.toNat) (hm : e.slot.mask ≠ 0)
    (hagree : e.g.prot = true → e.val 0 r.toNat e.lowest = e.val 1 r.toNat e.lowest) :
    ∃ t, exec (.crwr r n) s = .next t ∧ Leaves s t e { group := fun g => { g with trap := {}, hwin := 0 } } ∧
      ∀ g, t.group? e.gid = some g → g.trap = (if n = 0x22 then { e.g.trap with resume := e.scalar r.toNat } else e.g.trap) ∧
        g.hwin = (if n = 0x27 then e.scalar r.toNat &&& 0x38 else e.g.hwin) := by
  have hpoison : e.poisonTrap (e.readLowest r.toNat) = none := Env.poisonTrap_none_of_readsClean (Env.ReadsClean.lowest hclean hm)
  have hsilent : e.silentTrap [e.lowest] (e.pairDiffers r.toNat (BitVec.allOnes 64)) = none := Env.silentTrap_none fun hp l hl => by
    rw [List.mem_singleton.1 hl]
    exact Env.pairDiffers_of_eq (hagree hp) _
  obtain ⟨st, hopened, hissue⟩ := State.issue_of_settled h rfl rfl hf fun e st =>
    match firstTrap [e.poisonTrap (e.readLowest r.toNat), e.silentTrap [e.lowest] (e.pairDiffers r.toNat (BitVec.allOnes 64))] with
    | some t => .trap t none
    | none => .next (st.onGroup e.gid (Group.writeControl n (e.scalar r.toNat)))
  have hnone : firstTrap [e.fresh.poisonTrap (e.fresh.readLowest r.toNat),
      e.fresh.silentTrap [e.fresh.lowest] (e.fresh.pairDiffers r.toNat (BitVec.allOnes 64))] = none := by
    have hpairs : e.fresh.pairDiffers r.toNat (BitVec.allOnes 64) = e.pairDiffers r.toNat (BitVec.allOnes 64) := funext fun l => Env.fresh_pairDiffers ..
    rw [Env.fresh_poisonTrap, Env.fresh_readLowest, Env.fresh_silentTrap, Env.fresh_lowest, hpairs, hpoison, hsilent]
    rfl
  rw [hnone] at hissue
  dsimp only at hissue
  rw [Env.fresh_gid, Env.fresh_scalar] at hissue
  have haside := Group.aside_writeControl n (e.scalar r.toNat)
  have hregrouped := hopened.onGroup (f := Group.writeControl n (e.scalar r.toNat)) rfl
  refine ⟨_, ?_, hregrouped.leaves h haside fun g => ?_, fun g hg => ?_⟩
  · change execCrwr r n s = _
    rw [execCrwr, if_pos hn]
    exact hissue
  · unfold Group.writeControl
    split <;> rfl
  · cases hg.symm.trans (hregrouped.retire h haside).1
    unfold Group.writeControl
    rcases hn with rfl | rfl <;> simp

theorem crwr_stops (h : Settled s e) (hsrc : e.src = .slotA ∨ e.src = .slotB) (hstop : e.Stoppable) (r : BitVec 6) (n : BitVec 8) :
    ∃ t, exec (.crwr r n) s = .next t ∧ Stops s t e 0x01 e.slot.mask [] (inLanes e.lanes (infoWord (.crwr r n))) e.stopPc := by
  have hword : (infoWord (.crwr r n)).toNat < 2 ^ 27 := by
    rw [toNat_infoWord (encodeNat_crwr_lt r n)]
    exact encodeNat_crwr_lt r n
  have hexec : exec (.crwr r n) s = execCrwr r n s := rfl
  by_cases hn : n = 0x22 ∨ n = 0x27
  · have htrap : e.formTrap { runs := .supervisor, regs := [r.toNat] } (infoWord (.crwr r n)) =
        some (e.slotTrap 0x01 (infoWord (.crwr r n))) := by
      have hstream : e.streamTrap { runs := .supervisor, regs := [r.toNat] } (infoWord (.crwr r n)) =
          some (e.slotTrap 0x01 (infoWord (.crwr r n))) := by
        unfold Env.streamTrap Env.slotTrap
        rcases hsrc with hs | hs <;> simp [hs, Env.activeOf, Env.lanes, maskOf_lanesOf]
      rw [Env.formTrap_eq, hstream]
      rfl
    obtain ⟨u, hu, hstops⟩ := State.issue_formTrap_stops h rfl rfl rfl (Source.ne_handler_of_slot hsrc) hstop htrap (fun _ => rfl)
      (show 0x01 < 256 by decide) rfl
    exact ⟨u, by rw [hexec, execCrwr, if_pos hn]; exact hu, hstops⟩
  · rw [hexec, execCrwr, if_neg hn]
    exact illegalWord_stops_of_lt h hsrc hstop hword

end

/-- Settles O16: NOP and CRRD change nothing but what they write, and CRWR is the handler's alone. -/
theorem controlRegisterResults : Obligations.ControlRegisterResults := by
  unfold Obligations.ControlRegisterResults
  refine ⟨fun s e x d n h => ?_, fun s e r n h => ?_⟩
  · intro g t nat is table
    exact ⟨nop_leaves h x, fun hf hr v hv => crrd_writes h d n hf hr hv⟩
  · exact ⟨fun _ hn hf hclean hm hagree => crwr_writes h r hn hf hclean hm hagree, fun hsrc hstop => crwr_stops h hsrc hstop r n⟩

end Sys2Proof.Machine
end

section
/-! A return with a join entry that expects no lane (R39 step 6, R138). -/

namespace Sys2Proof.Machine

/-- An armed entry of depth 0 that expects no lane. -/
def lanelessJoin : Join := { armed := true, expected := 0, arrived := 1, pc := 0x10000, depth := 0 }

/-- A program slot at RET, one call deep, with that entry alone in its join table. -/
def lanelessState : State :=
  { (State.reset.placeWord (encodeNat .ret)).onGroup 1 fun g =>
      { g with frames := { link := 0x10020, own := 1, base := 8, size := 16, grans := [8] } :: g.frames, joins := [(0, lanelessJoin)] } with
    actor := { gid := 1, src := .slotA } }

/-- What the statement asks of the slot before its RET. -/
def returnsToLink (e : Env) : Bool := decide <|
  e.gid = 1 ∧ e.g.defers = [] ∧ e.formTrap { closes := .own, runs := .program } (infoWord .ret) = none ∧ e.src = .slotA ∧ e.g.depth = 1 ∧
    (e.g.frames[0]?).map (badTarget ·.link) = some false ∧ e.g.frameReq = none ∧ (e.g.slot e.src.other).life = .empty ∧ e.g.div = [] ∧
    e.g.joins = [(0, lanelessJoin)] ∧ ∀ f ∈ e.g.frames.drop 1, f.spilled = false

theorem lanelessState_returnsToLink : lanelessState.env?.any returnsToLink = true := by decide +kernel

/-- The join entries of group 1 after an instruction. -/
def joinsAfter (i : Instr) (s : State) : Option (NMap Join) := match exec i s with
  | .next t => (t.group? 1).map (·.joins)
  | _ => none

theorem joinsAfter_lanelessState : joinsAfter .ret lanelessState = some [] := by decide +kernel

/-- Refutes O14: every armed entry of the depth returned to or less is said to stand as before, but a return completes joins, which
disarms an entry that expects no lane (R39 step 6). -/
theorem not_returnResults : ¬ Obligations.ReturnResults := by
  unfold Obligations.ReturnResults
  intro h
  obtain ⟨e, he, hreturns⟩ := (Option.any_eq_true ..).1 lanelessState_returnsToLink
  obtain ⟨hgid, hdefers, hform, hsrc, hdepth, hlink, hreq, hother, hdiv, hjoins, hspilled⟩ := of_decide_eq_true hreturns
  obtain ⟨f, hf, hgood⟩ := Option.map_eq_some_iff.1 hlink
  have hret := (h lanelessState e 0 ⟨he, hdefers⟩).1
  rw [hdepth] at hret
  obtain ⟨t, g, ht, hg, -, -, -, -, -, -, -, hkept, -⟩ := hret ⟨hform, fun _ => by rw [hsrc]; decide⟩ f Nat.one_pos hf hreq
    (by rw [hother]; simp) (by rw [hdiv]; simp) (by rw [hjoins]; simp [lanelessJoin]) hgood hspilled
  have hnone : g.joins = [] := by
    have hafter := joinsAfter_lanelessState
    rw [joinsAfter, ht] at hafter
    dsimp only at hafter
    rw [← hgid, hg] at hafter
    exact Option.some.inj hafter
  have hstands := hkept (0, lanelessJoin) (by rw [hjoins]; exact List.mem_singleton_self _) rfl (Nat.le_refl 0)
  rw [hnone] at hstands
  exact absurd hstands List.not_mem_nil

end Sys2Proof.Machine
end

section
/-! What an access at a home leaves unchanged: everything but the bytes and marks of memory, of the caches and of the on-chip memories, the
lines and transfers of the caches, and the fault records (R317 to R322, R329, R337). -/

namespace Sys2Proof.Machine

/-- A core without its on-chip memories. -/
def Core.outside (c : Core) : Core :=
  { c with scratch := [], tile := [], acc := [], scratchPoison := [], tilePoison := [], accPoison := [] }

/-- The package without what an access at a home may change, its cores without their on-chip memories, and the rings but that of the fault
records. -/
def State.outside (s : State) : State × (Nat → Core) × (Nat → Ring) :=
  ({ s with mem := [], l2 := [], poison := [], l2bad := [], l2ways := [], crowded := [], hbmQueue := [], l1Tags := [], adobeLines := []
            adobeLost := [], adobeWriters := [], host := { s.host with rings := [] }, cores := [] },
   fun c => (s.core c).outside, fun n => if n = 1 then {} else s.host.ring n)

section
variable {s t : State} (h : t.outside = s.outside)
include h

theorem State.groups_of_outside : t.groups = s.groups := (congrArg (fun x => x.1.groups) h :)
theorem State.teams_of_outside : t.teams = s.teams := (congrArg (fun x => x.1.teams) h :)
theorem State.pins_of_outside : t.pins = s.pins := (congrArg (fun x => x.1.pins) h :)
theorem State.versions_of_outside : t.versions = s.versions := (congrArg (fun x => x.1.versions) h :)
theorem State.core_of_outside (c : Nat) : (t.core c).outside = (s.core c).outside := (congrArg (fun x => x.2.1 c) h :)
theorem State.group?_of_outside (k : Nat) : t.group? k = s.group? k := by simp only [State.group?, State.groups_of_outside h]
theorem State.team_of_outside (k : Nat) : t.team k = s.team k := by simp only [State.team, State.teams_of_outside h]
theorem State.l1_of_outside (c : Nat) : (t.core c).l1 = (s.core c).l1 := (congrArg Core.l1 (State.core_of_outside h c) :)
theorem State.cell_of_outside (c i : Nat) : (t.core c).cell i = (s.core c).cell i :=
  (congrArg (fun k : Core => k.cell i) (State.core_of_outside h c) :)
theorem State.cellPoison_of_outside (c i : Nat) : (t.core c).cellPoison i = (s.core c).cellPoison i :=
  (congrArg (fun k : Core => k.cellPoison i) (State.core_of_outside h c) :)

end

/-- A change of a core's on-chip memories. -/
theorem State.onCore_outside (s : State) (c : Nat) {f : Core → Core} (h : (f (s.core c)).outside = (s.core c).outside) :
    (s.onCore c f).outside = s.outside := by
  refine Prod.ext rfl (Prod.ext (funext fun j => ?_) rfl)
  by_cases hj : j = c
  · subst hj
    exact (congrArg Core.outside (State.core_onCore ..)).trans h
  · exact congrArg Core.outside (State.core_onCore_ne s f hj)

@[simp] theorem State.setChipByte_outside (s : State) (p : Nat) (b : Byte) : (s.setChipByte p b).outside = s.outside := by
  unfold State.setChipByte
  refine State.onCore_outside s _ ?_
  split
  · rfl
  · split <;> rfl

@[simp] theorem State.setMemByte_outside (s : State) (p : Nat) (b : Byte) : (s.setMemByte p b).outside = s.outside := by
  unfold State.setMemByte
  split <;> rfl

@[simp] theorem State.setHomeByte_outside (s : State) (p : Nat) (b : Byte) : (s.setHomeByte p b).outside = s.outside := by
  unfold State.setHomeByte
  split
  · exact State.setChipByte_outside s p b
  · split
    · exact State.setMemByte_outside s p b
    · rfl

@[simp] theorem State.setHomePoison_outside (s : State) (p : Nat) (b : BitVec 2) : (s.setHomePoison p b).outside = s.outside := by
  unfold State.setHomePoison
  split
  · rfl
  · split <;> rfl

theorem Core.setMark_outside (off : Nat) (bad : Bool) (c : Core) : (c.setMark off bad).outside = c.outside := by
  unfold Core.setMark
  split
  · rfl
  · split <;> rfl

@[simp] theorem State.setHomeBad_outside (s : State) (p : Nat) (b : Bool) : (s.setHomeBad p b).outside = s.outside := by
  by_cases h : isChip p = true
  · rw [State.setHomeBad_eq_onCore s b h]
    exact State.onCore_outside s _ (Core.setMark_outside ..)
  · rw [State.setHomeBad, if_neg h, State.setHomePoison_outside]

@[simp] theorem State.reinstall_outside (s : State) (l : Nat) : (s.reinstall l).outside = s.outside := by
  unfold State.reinstall
  split
  · exact foldl_view _ _ (fun s _ => State.setHomeBad_outside s _ _) _ _
  · rfl

@[simp] theorem State.noteWriter_outside (s : State) (l : Nat) (a : Access) : (s.noteWriter l a).outside = s.outside := by
  unfold State.noteWriter
  split <;> rfl

/-- A record for ring 1. -/
theorem State.sendUnit_outside (s : State) (kind : Nat) (detail : List (Nat × Nat)) : (s.sendUnit kind detail).outside = s.outside := by
  refine Prod.ext rfl (Prod.ext rfl (funext fun n => ?_))
  show (if n = 1 then _ else _) = if n = 1 then _ else _
  split
  · rfl
  · next hn => simp only [State.sendUnit, State.send, State.onRing, HostPort.ring, NMap.get, NMap.find_put_ne _ _ hn]

@[simp] theorem State.reportAccess_outside (s : State) (p : Nat) (a : Access) : (s.reportAccess p a).outside = s.outside := by
  unfold State.reportAccess
  split
  · exact State.sendUnit_outside ..
  · rfl

@[simp] theorem State.noteAccess_outside (s : State) (p : Nat) (a : Access) : (s.noteAccess p a).outside = s.outside := by
  unfold State.noteAccess
  split
  · exact State.reportAccess_outside s p a
  · rfl

@[simp] theorem State.noteFrame_outside (s : State) (p : Nat) (a : Access) : (s.noteFrame p a).outside = s.outside := by
  unfold State.noteFrame
  split
  · exact State.reportAccess_outside s _ a
  · rfl

@[simp] theorem State.touchWay_outside (s : State) (p : Nat) (a : Access) : (s.touchWay p a).outside = s.outside := by
  unfold State.touchWay
  dsimp only
  split
  · rfl
  · split <;> rfl

@[simp] theorem State.takeWay_outside (s : State) (l : Nat) (a : Access) : (s.takeWay l a).outside = s.outside := rfl

theorem State.install_outside_of_isAdobe (s : State) (p : Nat) (a : Access) (h : isAdobe p = true) : (s.install p a).outside = s.outside := by
  unfold State.install
  rw [if_pos h]
  dsimp only
  have hnoted : ((s.reinstall (lineOf p)).noteWriter (lineOf p) a).outside = s.outside := by simp
  generalize (s.reinstall (lineOf p)).noteWriter (lineOf p) a = u at hnoted ⊢
  split
  · split <;> simp [hnoted]
  · split
    · exact hnoted
    · split
      · rw [State.touchWay_outside, State.noteFrame_outside]
        exact hnoted
      · exact hnoted

@[simp] theorem State.install_outside (s : State) (p : Nat) (a : Access) : (s.install p a).outside = s.outside := by
  by_cases h : isAdobe p = true
  · exact State.install_outside_of_isAdobe s p a h
  · unfold State.install
    rw [if_neg h]
    split <;> simp

@[simp] theorem State.giveUp_outside (s : State) (l : Nat) (k : Option Nat) : (s.giveUp l k).outside = s.outside := rfl

@[simp] theorem State.writeHome_outside (s : State) (place : Nat) (bytes : List Byte) (bad : Bool) (a : Access) (k : Option Nat) :
    (s.writeHome place bytes bad a k).outside = s.outside := by
  unfold State.writeHome
  dsimp only
  rw [apply_ite State.outside, foldl_view _ _ (fun s _ => State.giveUp_outside s _ k), ite_self]
  refine (foldl_view _ _ (fun s w => ?_) _ _).trans ((foldl_view _ _ (fun s _ => State.setHomeByte_outside s _ _) _ _).trans
    (foldl_view _ _ (fun s _ => State.install_outside s _ _) _ _))
  split
  · exact State.setHomeBad_outside s _ _
  · split
    · exact State.setHomeBad_outside s _ _
    · split
      · rfl
      · exact State.setHomePoison_outside s _ _

@[simp] theorem State.landWrite_outside (s : State) (c : Nat) (w : L1Write) : (s.landWrite c w).outside = s.outside :=
  State.writeHome_outside ..

@[simp] theorem State.l1Use_outside (s : State) (c l p : Nat) : (s.l1Use c l p).outside = s.outside := by
  unfold State.l1Use
  dsimp only
  split
  · rfl
  · split
    · rfl
    · split <;> rfl

@[simp] theorem State.readIn_outside (s : State) (gid : Nat) (g : Group) (p k : Nat) : (s.readIn gid g p k).outside = s.outside := by
  unfold State.readIn
  split
  · rfl
  · split <;> simp

/-! ### Drains -/

/-- A core with other writes in its L1. -/
def Core.withL1 (c : Core) (l : List L1Write) : Core := { c with l1 := l }

/-- A core's L1 holds other writes, and what it has given up has reached its home. -/
theorem State.landed_outside (s : State) (c : Nat) (l : List L1Write) (left : List L1Write) :
    (l.foldl (fun s w => s.landWrite c w) (s.setCore c ((s.core c).withL1 left))).outside =
      (s.setCore c ((s.core c).withL1 left)).outside := foldl_view _ _ (fun s _ => State.landWrite_outside s _ _) _ _

theorem State.drainAll_outside (s : State) (c : Nat) : (s.drainAll c).outside = (s.setCore c ((s.core c).withL1 [])).outside :=
  State.landed_outside ..

/-- What a release at cluster scope or wider leaves: the pins of its team and the writes in its core's L1 are gone (R351, R356). -/
structure Released (s t : State) (g : Group) : Prop where
  groups : t.groups = s.groups
  teams : t.teams = s.teams
  versions : t.versions = s.versions
  cells : ∀ c i, (t.core c).cell i = (s.core c).cell i ∧ (t.core c).cellPoison i = (s.core c).cellPoison i
  others : ∀ c, c ≠ g.core → (t.core c).l1 = (s.core c).l1
  l1 : (t.core g.core).l1 = []
  pins : t.pins = s.pins.filter fun p => p.team != g.team

theorem State.release_released (s : State) (g : Group) {scope : Nat} (h : 2 ≤ scope) : Released s (s.release g scope) g := by
  rw [State.release, if_neg (Nat.not_lt.2 h)]
  have hout := State.drainAll_outside s g.core
  have hcore : ∀ c, c ≠ g.core → (s.setCore g.core ((s.core g.core).withL1 [])).core c = s.core c := fun c hc => State.core_setCore_ne _ _ hc
  have hself : (s.setCore g.core ((s.core g.core).withL1 [])).core g.core = (s.core g.core).withL1 [] := State.core_setCore ..
  refine ⟨(State.groups_of_outside hout :), (State.teams_of_outside hout :), (State.versions_of_outside hout :), fun c i => ?_, fun c hc => ?_,
    ?_, ?_⟩
  · refine ⟨(State.cell_of_outside hout c i).trans ?_, (State.cellPoison_of_outside hout c i).trans ?_⟩
    all_goals
      by_cases hc : c = g.core
      · rw [hc, hself]
        rfl
      · rw [hcore c hc]
  · exact (State.l1_of_outside hout c).trans (by rw [hcore c hc])
  · exact (State.l1_of_outside hout _).trans (by rw [hself]; rfl)
  · have hpins := State.pins_of_outside hout
    exact congrArg (List.filter fun p : Pin => p.team != g.team) hpins

end Sys2Proof.Machine
end

section
/-! FENCE and WAIT (R150, R151): a slot that waits, and what a wide fence leaves. -/

namespace Sys2Proof.Machine

/-! ### A slot that waits -/

/-- A slot stands STALLED at its word, and nothing but it has changed. -/
structure Stalled (s t : State) (e : Env) : Prop where
  group : ∃ g, t.group? e.gid = some g ∧ (g.slot e.src).life = .stalled ∧ (g.slot e.src).pc = e.slot.pc ∧
    (g.slot e.src).hints = e.slot.hints ∧ (g.slot e.src).mask = e.slot.mask ∧ g.preds = e.g.preds
  groups : ∀ k, k ≠ e.gid → t.group? k = s.group? k
  cores : ∀ c, t.core c = s.core c
  package : { t with groups := s.groups, cores := s.cores } = s

/-- A change of a group that leaves where a slot stands. -/
structure Group.Stands (f : Group → Group) (src : Source) : Prop where
  slot : ∀ g, ((f g).slot src).pc = (g.slot src).pc ∧ ((f g).slot src).hints = (g.slot src).hints ∧ ((f g).slot src).mask = (g.slot src).mask
  preds : ∀ g, (f g).preds = g.preds

theorem Group.stands_id (src : Source) : Group.Stands id src := ⟨fun _ => ⟨rfl, rfl, rfl⟩, fun _ => rfl⟩

/-- What `State.memWait` does to its group. -/
def Group.noteMemory (src : Source) (on : Bool) (g : Group) : Group := g.setSlot src { g.slot src with onMemory := on }

theorem Group.stands_noteMemory (src : Source) (on : Bool) : Group.Stands (Group.noteMemory src on) src := by
  cases src <;> exact ⟨fun _ => ⟨rfl, rfl, rfl⟩, fun _ => rfl⟩

theorem Env.fresh_slot_src {s : State} {e : Env} (hs : s.env? = some e) : e.fresh.g.slot e.src = e.fresh.slot := by
  obtain ⟨-, -, -, -, hslot, -⟩ := State.env?_some hs
  exact (Group.slot_setSlot_fresh e.g e.src).trans (by rw [← hslot]; rfl)

section
variable {s st : State} {e : Env} {f : Group → Group}

/-- A slot that waits before its word has changed anything but where its wait is counted. -/
theorem Regrouped.stalled (h : Regrouped s st e f) (hs : s.env? = some e) (hf : Group.Stands f e.src) (hsrc : e.src ≠ .access) :
    Stalled s (st.stall e.fresh) e := by
  have hstall : (st.stall e.fresh).group? e.gid =
      some ((f e.fresh.g).setSlot e.src { (f e.fresh.g).slot e.src with life := .stalled }) := by
    rw [State.stall, Env.fresh_gid, State.group?_onGroup, h.group, Env.fresh_src]
    revert hsrc
    cases e.src <;> intro hsrc <;> first | rfl | exact absurd rfl hsrc
  refine ⟨⟨_, hstall, ?_⟩, fun k hk => (State.group?_onGroup_ne _ _ hk).trans (h.groups k hk), h.cores, h.package⟩
  obtain ⟨hpc, hhints, hmask⟩ := hf.slot e.fresh.g
  rw [Env.fresh_slot_src hs] at hpc hhints hmask
  rw [Group.slot_setSlot _ _ _ hsrc, Group.setSlot_preds, hf.preds, Env.fresh_gpreds]
  exact ⟨rfl, hpc, hhints, hmask, rfl⟩

theorem Opened.stalled (h : Opened s st e) (hs : s.env? = some e) (hsrc : e.src ≠ .access) : Stalled s (st.stall e.fresh) e :=
  h.regrouped.stalled hs (Group.stands_id e.src) hsrc

theorem Opened.memWait_stalled (h : Opened s st e) (hs : s.env? = some e) (hsrc : e.src ≠ .access) (on : Bool) :
    Stalled s ((st.memWait e.fresh on).stall e.fresh) e :=
  (h.onGroup (f := Group.noteMemory e.src on) rfl).stalled hs (Group.stands_noteMemory e.src on) hsrc

end

/-! ### FENCE (R150) -/

section
variable {s st : State} {e : Env}

theorem State.canDrain_congr {t : State} (hcore : ∀ c, t.core c = s.core c) (hpins : t.pins = s.pins) (c : Nat) : t.canDrain c = s.canDrain c := by
  simp only [State.canDrain, State.drainHeld, hcore, hpins]

theorem Opened.allPerformed (h : Opened s st e) (scope : Nat) : st.allPerformed e.fresh.g scope = s.allPerformed e.g scope := by
  simp only [State.allPerformed, Env.fresh_gflight, Env.fresh_gcore, State.canDrain_congr h.cores (congrArg State.pins h.package :)]

theorem State.allPerformed_iff {g : Group} {scope : Nat} : s.allPerformed g scope = true ↔
    (∀ o ∈ g.flight, o.finished = true ∨ o.work.isAccess = false) ∧ (scope < 2 ∨ s.canDrain g.core = true) := by
  simp [State.allPerformed]

/-- FENCE of a settled stream: it is done, with what a release at its scope brings, or it waits. -/
theorem fence_answers (h : Settled s e) {c : BitVec 3} (hf : Fits e { closes := .own } (.fence c)) :
    ∃ st, Opened s st e ∧ exec (.fence c) s = .next (if s.allPerformed e.g c.toNat then
        (if 2 ≤ c.toNat then (st.release e.fresh.g c.toNat).notIdempotent e.g.team else st.release e.fresh.g c.toNat).retire e.fresh
      else st.stall e.fresh) := by
  obtain ⟨st, hopened, hissue⟩ := State.issue_of_settled h rfl rfl hf fun e st =>
    if st.allPerformed e.g c.toNat then
      let st := st.release e.g c.toNat
      .next (if 2 ≤ c.toNat then st.notIdempotent e.g.team else st)
    else .wait st
  refine ⟨st, hopened, ?_⟩
  have hexec : exec (.fence c) s = execFence c s := rfl
  rw [hexec, execFence, hissue]
  dsimp only
  rw [hopened.allPerformed, Env.fresh_gteam]
  split <;> rfl

theorem fence_narrow (h : Settled s e) {c : BitVec 3} (hf : Fits e { closes := .own } (.fence c))
    (hdone : ∀ o ∈ e.g.flight, o.finished = true ∨ o.work.isAccess = false) (hc : c.toNat < 2) :
    ∃ t, exec (.fence c) s = .next t ∧ Leaves s t e {} := by
  obtain ⟨st, hopened, hexec⟩ := fence_answers h hf
  rw [if_pos (State.allPerformed_iff.2 ⟨hdone, Or.inl hc⟩), if_neg (Nat.not_le.2 hc), State.release, if_pos hc] at hexec
  exact ⟨_, hexec, hopened.leaves h⟩

/-- A team that has been changed not to be idempotent is not. -/
theorem State.team_notIdempotent (s : State) (k : Nat) : ((s.notIdempotent k).team k).idempotent = false := by
  unfold State.notIdempotent State.onTeam State.team NMap.get
  dsimp only
  rw [NMap.find_changeIf_self]
  cases NMap.find s.teams k <;> rfl

/-- What a FENCE at cluster scope or wider leaves. -/
theorem fence_wide (h : Settled s e) {c : BitVec 3} (hf : Fits e { closes := .own } (.fence c))
    (hdone : ∀ o ∈ e.g.flight, o.finished = true ∨ o.work.isAccess = false) (hc : 2 ≤ c.toNat) (hdrain : s.canDrain e.g.core = true)
    (hsrc : e.src ≠ .access) :
    ∃ t g, exec (.fence c) s = .next t ∧ (t.core e.g.core).l1 = [] ∧ (∀ p ∈ t.pins, p.team ≠ e.g.team) ∧
      (t.team e.g.team).idempotent = false ∧ t.group? e.gid = some g ∧ (g.slot e.src).pc = e.slot.pc + 4 ∧ g.preds = e.g.preds ∧
      (∀ i, (t.core e.g.core).cell i = e.core.cell i) ∧ ∀ k, k ≠ e.gid → t.group? k = s.group? k := by
  obtain ⟨-, -, -, -, hslot, hcore, -⟩ := State.env?_some h.env
  obtain ⟨st, hopened, hexec⟩ := fence_answers h hf
  rw [if_pos (State.allPerformed_iff.2 ⟨hdone, Or.inr hdrain⟩), if_pos hc] at hexec
  have hreleased := State.release_released st e.fresh.g hc
  have hgroups : ∀ k, ((st.release e.fresh.g c.toNat).notIdempotent e.g.team).group? k = st.group? k := fun k => by
    rw [State.notIdempotent, State.group?, State.onTeam_groups, hreleased.groups, State.group?]
  obtain ⟨hg, hgs, hc, -, hrest, -⟩ := State.retire_leaves ((st.release e.fresh.g c.toNat).notIdempotent e.g.team) (e := e.fresh)
    ((hgroups e.gid).trans hopened.group) fun n => Group.awaits_of_defers_nil <| by
      rw [Group.counted_defers, Env.fresh_gdefers, h.settled, List.map_nil]
  rw [Env.fresh_gcore] at hc
  have hpins := congrArg State.pins hrest
  have hteams := congrArg State.teams hrest
  refine ⟨_, _, hexec, ?_, fun p hp => ?_, ?_, hg, ?_, ?_, fun i => ?_, fun k hk => ?_⟩
  · rw [hc]
    have hl1 := hreleased.l1
    rw [Env.fresh_gcore] at hl1
    exact (congrArg Core.l1 (Core.counted_rest ..) :).trans hl1
  · dsimp only at hpins
    rw [hpins, State.notIdempotent, State.onTeam_pins, hreleased.pins, Env.fresh_gteam] at hp
    simpa using (List.mem_filter.1 hp).2
  · dsimp only at hteams
    rw [State.team, hteams]
    exact State.team_notIdempotent _ _
  · exact congrArg Slot.pc ((Group.retired_advances e hslot _).slot hsrc)
  · exact (Group.retired_keeps_preds e.fresh.g e.fresh _).trans (Env.fresh_gpreds e)
  · rw [hc, Core.counted_cell, hcore, ← hopened.cores]
    exact (hreleased.cells ..).1
  · exact ((hgs k hk).trans (hgroups k)).trans (hopened.groups k hk)

theorem fence_waits (h : Settled s e) {c : BitVec 3} (hf : Fits e { closes := .own } (.fence c)) (hsrc : e.src ≠ .access)
    (hopen : ¬ ∀ o ∈ e.g.flight, o.finished = true ∨ o.work.isAccess = false) :
    ∃ t, exec (.fence c) s = .next t ∧ Stalled s t e := by
  obtain ⟨st, hopened, hexec⟩ := fence_answers h hf
  rw [if_neg fun hall => hopen (State.allPerformed_iff.1 hall).1] at hexec
  exact ⟨_, hexec, hopened.stalled h.env hsrc⟩

/-! ### WAIT (R151) -/

/-- WAIT of a settled stream: it is done where its counter is low enough, and it waits where it is not. -/
theorem wait_answers (h : Settled s e) {r : BitVec 6} {n : BitVec 3} (hf : Fits e { closes := .own, regs := [r.toNat] } (.wait r n))
    (hclean : e.Clean r.toNat) (hm : e.slot.mask ≠ 0) :
    ∃ st on, Opened s st e ∧ exec (.wait r n) s = .next (if e.g.counter (pathOf n.toNat) ≤ (e.scalar r.toNat).toNat then st.retire e.fresh
      else (st.memWait e.fresh on).stall e.fresh) := by
  have hpoison : e.poisonTrap (e.readLowest r.toNat) = none := Env.poisonTrap_none_of_readsClean (Env.ReadsClean.lowest hclean hm)
  obtain ⟨st, hopened, hissue⟩ := State.issue_of_settled h rfl rfl hf fun e st =>
    match e.poisonTrap (e.readLowest r.toNat) with
    | some x => .trap x none
    | none => if e.g.counter (pathOf n.toNat) ≤ (e.scalar r.toNat).toNat then .next st
        else .wait (st.memWait e (n.toNat == 0 || n.toNat == 1 || n.toNat == 2 || n.toNat == 4))
  refine ⟨st, n.toNat == 0 || n.toNat == 1 || n.toNat == 2 || n.toNat == 4, hopened, ?_⟩
  have hexec : exec (.wait r n) s = _ := hissue
  rw [hexec]
  have hcounter : e.fresh.g.counter (pathOf n.toNat) = e.g.counter (pathOf n.toNat) := by simp [Group.counter]
  rw [Env.fresh_poisonTrap, Env.fresh_readLowest, hpoison, hcounter, Env.fresh_scalar]
  dsimp only
  split <;> rfl

end

/-- Settles O30: a fence and a WAIT are done at once or wait, and a wide fence releases. -/
theorem fenceAndWait : Obligations.FenceAndWait := by
  unfold Obligations.FenceAndWait
  intro s e c h hsrc done stalls
  have hstalls : ∀ i, (∃ t, exec i s = .next t ∧ Stalled s t e) → stalls i := by
    rintro i ⟨t, ht, ⟨g, hg, hlife, hpc, hhints, -, hpreds⟩, hgroups, hcores, hpackage⟩
    exact ⟨t, g, ht, hg, hlife, hpc, hhints, hpreds, hcores, (congrArg State.mem hpackage :), (congrArg State.l2 hpackage :), hgroups⟩
  refine ⟨fun hf => ⟨fence_narrow h hf, fun hdone hc hdrain => fence_wide h hf hdone hc hdrain hsrc, fun hopen => hstalls _ (fence_waits h hf hsrc hopen)⟩,
    fun r n hf hclean hm => ?_⟩
  obtain ⟨st, on, hopened, hexec⟩ := wait_answers h hf hclean hm
  refine ⟨fun hlow => ?_, fun hhigh => hstalls _ ?_⟩
  · rw [if_pos hlow] at hexec
    exact ⟨_, hexec, hopened.leaves h⟩
  · rw [if_neg (Nat.not_le.2 hhigh)] at hexec
    exact ⟨_, hexec, hopened.memWait_stalled h.env hsrc on⟩

end Sys2Proof.Machine
end

section
/-! The scalars of the access stream and the shape registers (R50, R51, R152 to R160). -/

namespace Sys2Proof.Machine

/-! ### The access stream (R153, R155, R156) -/

/-- What the access stream does to a scalar (R155). -/
def Group.setScalar (d : BitVec 4) (v : Lane) (g : Group) : Group := { g with y := NMap.store g.y 0 d.toNat v }

theorem Group.aside_setScalar (d : BitVec 4) (v : Lane) : Group.Aside (Group.setScalar d v) := by
  refine ⟨fun g src => ?_, fun _ => ⟨rfl, rfl⟩, fun _ => ⟨rfl, rfl⟩, fun _ => rfl, fun _ => rfl, fun g e n => ?_⟩
  · cases src <;> rfl
  · unfold Group.counted Group.goesOn
    cases e.src <;> rfl

@[simp] theorem Env.fresh_y (e : Env) : e.fresh.g.y = e.g.y := by simp [Env.fresh]
@[simp] theorem Env.fresh_shapes (e : Env) : e.fresh.g.shapes = e.g.shapes := by simp [Env.fresh]
@[simp] theorem Env.fresh_shape (e : Env) (k : Nat) : e.fresh.g.shape k = e.g.shape k := by simp [Group.shape]
@[simp] theorem Env.retired_y (e : Env) (n : Nat) : (e.retired n).y = e.g.y := (congrArg Group.y (Group.retired_rest e n) :)
@[simp] theorem Env.retired_shapes (e : Env) (n : Nat) : (e.retired n).shapes = e.g.shapes := (congrArg Group.shapes (Group.retired_rest e n) :)

section
variable {s st : State} {e : Env}

theorem streamOp_opened (h : Settled s e) {i : Instr} (hf : Fits e { runs := .stream, accepts := { any := false } } i) (f : Group → Group) :
    ∃ st, Opened s st e ∧ s.streamOp i f = .next ((st.onGroup e.gid f).retire e.fresh) :=
  State.issue_of_settled h rfl rfl hf fun e st => .next (st.onGroup e.gid f)

/-- An instruction of the access stream that writes one scalar. -/
theorem streamOp_setScalar (h : Settled s e) {i : Instr} (hf : Fits e { runs := .stream, accepts := { any := false } } i) {f : Group → Group}
    (hexec : exec i s = s.streamOp i f) {d : BitVec 4} {v : Lane} (hv : f e.fresh.g = Group.setScalar d v e.fresh.g) :
    ∃ t g, exec i s = .next t ∧ Leaves s t e { group := fun g => { g with y := [] } } ∧ t.group? e.gid = some g ∧
      ∀ r, NMap.get g.y 0 r = if r = d.toNat then v else NMap.get e.g.y 0 r := by
  obtain ⟨st, hopened, hnext⟩ := streamOp_opened h hf f
  have hregrouped := hopened.onGroup hv
  refine ⟨_, _, hexec.trans hnext, hregrouped.leaves h (Group.aside_setScalar d v) fun g => rfl,
    (hregrouped.retire h (Group.aside_setScalar d v)).1, fun r => ?_⟩
  rw [Group.setScalar, NMap.get_store, Env.retired_y]

theorem yopHwait_answers (h : Settled s e) {a : BitVec 4} (hf : Fits e { runs := .stream, accepts := { any := false } } (.yopHwait a)) :
    ∃ st, Opened s st e ∧ exec (.yopHwait a) s = .next (if shRank (e.g.shape a.toNat) = 0 then st.stall e.fresh else st.retire e.fresh) := by
  obtain ⟨st, hopened, hissue⟩ := State.issue_of_settled h rfl rfl hf fun e st =>
    if shRank (e.g.shape a.toNat) = 0 then .wait st else .next st
  refine ⟨st, hopened, ?_⟩
  have hexec : exec (.yopHwait a) s = _ := hissue
  rw [hexec, Env.fresh_shape]
  split <;> rfl

/-- The access stream that waits stands STALLED at its word. -/
theorem Opened.stream_stalled (h : Opened s st e) (hsrc : e.src = .access) :
    ∃ g, (st.stall e.fresh).group? e.gid = some g ∧ g.accessLife = .stalled ∧ g.accessPc = e.g.accessPc ∧
      ∀ k, (st.stall e.fresh).core k = s.core k := by
  refine ⟨{ e.fresh.g with accessLife := .stalled }, ?_, rfl, ?_, h.cores⟩
  · rw [State.stall, Env.fresh_gid, State.group?_onGroup, h.group, Env.fresh_src, hsrc]
    rfl
  · dsimp only
    rw [Env.fresh, hsrc]
    rfl

/-- Where the branch of an access stream leads. -/
def Env.branchPc (e : Env) (o : BitVec 11) : Lane := e.g.accessPc + BitVec.ofInt 64 (4 * o.toInt)

/-- The branch is taken to a good target, or the stream goes on. -/
theorem ybr_answers (h : Settled s e) (hsrc : e.src = .access) {a b : BitVec 4} {c : BitVec 3} {o : BitVec 11}
    (hf : Fits e { runs := .stream, accepts := { any := false } } (.ybr a b c o)) :
    ∃ st, Opened s st e ∧
      (ybrHolds c.toNat (NMap.get e.g.y 0 a.toNat).toInt (NMap.get e.g.y 0 b.toNat).toInt = true → badTarget (e.branchPc o) = false →
        exec (.ybr a b c o) s = .next ((st.issued e.fresh).onGroup e.gid fun g => { g with accessPc := e.branchPc o, accessLife := .running })) ∧
      (ybrHolds c.toNat (NMap.get e.g.y 0 a.toNat).toInt (NMap.get e.g.y 0 b.toNat).toInt = false →
        exec (.ybr a b c o) s = .next (st.retire e.fresh)) := by
  obtain ⟨-, -, -, -, hslot, -⟩ := State.env?_some h.env
  obtain ⟨st, hopened, hissue⟩ := State.issue_of_settled h rfl rfl hf fun e st =>
    if ybrHolds c.toNat (NMap.get e.g.y 0 a.toNat).toInt (NMap.get e.g.y 0 b.toNat).toInt then
      match targetTrap (lanesOf e.g.liveLanes) (e.target o.toInt) with
      | some t => .trap t none
      | none => .jump ((st.issued e).onGroup e.gid fun g => { g with accessPc := e.target o.toInt, accessLife := .running })
    else .next st
  have hexec : exec (.ybr a b c o) s = _ := hissue
  have htarget : e.fresh.target o.toInt = e.branchPc o := by rw [Env.target, Env.fresh_pc, hslot, hsrc]; rfl
  rw [Env.fresh_y, htarget] at hexec
  refine ⟨st, hopened, fun hholds hgood => ?_, fun hfails => ?_⟩
  · rw [hexec, if_pos hholds, targetTrap, hgood, Bool.and_false, if_neg Bool.false_ne_true]
    rfl
  · rw [hexec, hfails]
    rfl

theorem Opened.ybr_jumps (h : Opened s st e) (hs : Settled s e) (pc : Lane) :
    ∃ g, ((st.issued e.fresh).onGroup e.gid fun g => { g with accessPc := pc, accessLife := .running }).group? e.gid = some g ∧
      g.accessPc = pc ∧ g.accessLife = .running ∧ g.y = e.g.y ∧
      ∀ j, j ≠ e.gid → ((st.issued e.fresh).onGroup e.gid fun g => { g with accessPc := pc, accessLife := .running }).group? j = s.group? j := by
  have hcount : (st.issued e.fresh).group? e.gid = some (e.fresh.g.counted e.fresh true (st.issueNo + 1)) :=
    State.group?_countIssue (e := e.fresh) h.group (by rw [Env.fresh_gdefers]; exact hs.settled) true
  refine ⟨_, by rw [State.group?_onGroup, hcount]; rfl, rfl, rfl, ?_, fun j hj => ?_⟩
  · have hy : (e.fresh.g.counted e.fresh true (st.issueNo + 1)).y = e.fresh.g.y := by
      unfold Group.counted
      cases e.fresh.src <;> rfl
    exact hy.trans (Env.fresh_y e)
  · rw [State.group?_onGroup_ne _ _ hj]
    exact (State.countIssue_group_ne st e.fresh true hj).trans (h.groups j hj)

/-- ADONE leaves its stream DONE at the next word. -/
theorem adone_done (h : Settled s e) (hsrc : e.src = .access) (hf : Fits e { runs := .stream, accepts := { any := false } } .adone) :
    ∃ t g, exec .adone s = .next t ∧ t.group? e.gid = some g ∧ g.accessLife = .done ∧ g.y = e.g.y ∧ g.accessPc = e.g.accessPc + 4 ∧
      t.mem = s.mem ∧ ∀ j, j ≠ e.gid → t.group? j = s.group? j := by
  obtain ⟨st, hopened, hnext⟩ := streamOp_opened h hf fun g => { g with accessLife := .done }
  have hgroup : (st.onGroup e.gid fun g => { g with accessLife := .done }).group? e.gid = some { e.fresh.g with accessLife := .done } := by
    rw [State.group?_onGroup, hopened.group]
    rfl
  obtain ⟨hg, hgs, -, -, hrest, -⟩ := State.retire_leaves _ (e := e.fresh) hgroup fun n => Group.awaits_of_defers_nil <| by
    rw [Group.counted_defers]
    exact List.map_eq_nil_iff.2 ((Env.fresh_gdefers e).trans h.settled)
  have hmem := congrArg State.mem hrest
  refine ⟨_, _, hnext, hg, ?_, ?_, ?_, (hmem :).trans hopened.mem, fun j hj => (hgs j hj).trans
    ((State.group?_onGroup_ne _ _ hj).trans (hopened.groups j hj))⟩
  · rw [Group.counted, Group.goesOn, Env.fresh_src, hsrc]
    rfl
  · rw [Group.counted, Group.goesOn, Env.fresh_src, hsrc]
    exact Env.fresh_y e
  · rw [Group.counted, Group.goesOn, Env.fresh_src, hsrc, Env.fresh, hsrc]
    rfl

end

/-! ### The bits of a shape (R50, R51) -/

/-- A field of 512 bits replaced. -/
def putField (sh : BitVec 512) (lo w v : Nat) : BitVec 512 := (sh &&& ~~~BitVec.ofNat 512 ((2 ^ w - 1) * 2 ^ lo)) ||| BitVec.ofNat 512 (v * 2 ^ lo)

theorem getLsbD_putField (sh : BitVec 512) {lo w v i : Nat} (hv : v < 2 ^ w) (hi : i < 512) :
    (putField sh lo w v).getLsbD i = if lo ≤ i ∧ i < lo + w then v.testBit (i - lo) else sh.getLsbD i := by
  simp only [putField, BitVec.getLsbD_or, BitVec.getLsbD_and, BitVec.getLsbD_not, BitVec.getLsbD_ofNat, hi, decide_true, Bool.true_and,
    Nat.testBit_mul_two_pow, Nat.testBit_two_pow_sub_one]
  by_cases hlo : lo ≤ i
  · by_cases hw : i < lo + w
    · have hin : i - lo < w := by omega
      simp [hlo, hw, hin]
    · have hout : ¬ i - lo < w := by omega
      have hzero : v.testBit (i - lo) = false := Nat.testBit_lt_two_pow (hv.trans_le (Nat.pow_le_pow_right (by decide) (by omega)))
      simp [hlo, hw, hout, hzero]
  · simp [hlo]

theorem getLsbD_shapeDefined (sh : BitVec 512) {i : Nat} (hi : i < 512) :
    (shapeDefined sh).getLsbD i = if i < 21 ∨ (32 ≤ i ∧ i < 56) then false else sh.getLsbD i := by
  have hmask : ((2 ^ 24 - 1) * 2 ^ 32 + (2 ^ 21 - 1)).testBit i = decide (i < 21 ∨ (32 ≤ i ∧ i < 56)) := by
    rw [Nat.mul_comm, Nat.testBit_two_pow_mul_add _ (by decide), Nat.testBit_two_pow_sub_one, Nat.testBit_two_pow_sub_one]
    split
    · simp only [decide_eq_decide]
      omega
    · simp only [decide_eq_decide]
      omega
  simp only [shapeDefined, BitVec.getLsbD_and, BitVec.getLsbD_not, BitVec.getLsbD_ofNat, hi, decide_true, Bool.true_and, hmask]
  by_cases hreserved : i < 21 ∨ (32 ≤ i ∧ i < 56) <;> simp [hreserved]

/-- The first bit and the width of a selector's field, for HRD and HWR. -/
theorem shapeField_cases (sel : Nat) : (shapeField sel).1 =
      (if sel = 0 then (448, 64) else if sel ≤ 5 then (288 + 32 * (sel - 1), 32) else if sel ≤ 10 then (88 + 40 * (sel - 6), 40)
        else if sel = 11 then (56, 32) else (21, 11) : Nat × Nat).1 ∧
    (shapeField sel).2.1 =
      (if sel = 0 then (448, 64) else if sel ≤ 5 then (288 + 32 * (sel - 1), 32) else if sel ≤ 10 then (88 + 40 * (sel - 6), 40)
        else if sel = 11 then (56, 32) else (21, 11) : Nat × Nat).2 ∧
    (shapeField sel).2.2 = decide (6 ≤ sel ∧ sel ≤ 10) := by
  unfold shapeField
  split
  · next h => exact ⟨rfl, rfl, by simp [h]⟩
  · split
    · next h => exact ⟨rfl, rfl, (decide_eq_false (by omega)).symm⟩
    · split
      · next h => exact ⟨rfl, rfl, (decide_eq_true (by omega)).symm⟩
      · split <;> exact ⟨rfl, rfl, (decide_eq_false (by omega)).symm⟩

/-- The words of a shape, as HWR of selector 13 replaces them. -/
def putWords (val : Nat → Lane) (src : List Nat) (sh : BitVec 512) : BitVec 512 :=
  src.foldl (fun sh l => putField sh (64 * l) 64 (val l).toNat) sh

theorem getLsbD_putWords (val : Nat → Lane) (src : List Nat) (sh : BitVec 512) {i : Nat} (hi : i < 512) :
    (putWords val src sh).getLsbD i = if i / 64 ∈ src then (val (i / 64)).getLsbD (i % 64) else sh.getLsbD i := by
  induction src generalizing sh with
  | nil => rfl
  | cons l src ih =>
    rw [putWords, List.foldl_cons, ← putWords, ih, getLsbD_putField sh (val l).isLt hi]
    by_cases hsrc : i / 64 ∈ src
    · simp [hsrc]
    · by_cases hl : i / 64 = l
      · have hin : 64 * l ≤ i ∧ i < 64 * l + 64 := by omega
        have hbit : i - 64 * l = i % 64 := by omega
        rw [if_neg hsrc, if_pos hin, if_pos (hl ▸ List.mem_cons_self), hbit, hl]
        rfl
      · have hout : ¬ (64 * l ≤ i ∧ i < 64 * l + 64) := by omega
        rw [if_neg hsrc, if_neg hout, if_neg (by simp [hl, hsrc])]

theorem getLsbD_writeShape (sh : BitVec 512) (sel : Nat) (x : Lane) {i : Nat} (hi : i < 512) :
    (writeShape sh sel x).getLsbD i =
      if (shapeField sel).1 ≤ i ∧ i < (shapeField sel).1 + (shapeField sel).2.1 then
        (if sel = 12 then x >>> 21 else x).getLsbD (i - (shapeField sel).1) else sh.getLsbD i := by
  have hwrite : writeShape sh sel x = putField sh (shapeField sel).1 (shapeField sel).2.1
      (if sel = 12 then x.toNat / 2 ^ 21 % 2 ^ 11 else x.toNat % 2 ^ (shapeField sel).2.1) := rfl
  have hwidth : sel = 12 → (shapeField sel).2.1 = 11 := by
    rintro rfl
    rfl
  rw [hwrite, getLsbD_putField sh ?_ hi]
  · refine if_ctx_congr Iff.rfl (fun hin => ?_) fun _ => rfl
    have hbelow : i - (shapeField sel).1 < (shapeField sel).2.1 := by omega
    split
    · next h12 =>
      rw [hwidth h12] at hbelow
      rw [Nat.testBit_mod_two_pow, decide_eq_true hbelow, Bool.true_and, Nat.testBit_div_two_pow, BitVec.getLsbD_ushiftRight, Nat.add_comm]
      rfl
    · rw [Nat.testBit_mod_two_pow, decide_eq_true hbelow, Bool.true_and]
      rfl
  · split
    · next h12 =>
      rw [hwidth h12]
      exact Nat.mod_lt _ (by decide)
    · exact Nat.mod_lt _ (Nat.two_pow_pos _)

/-! ### HRD (R159) -/

section
variable {s st : State} {e : Env}

theorem hrd_writes (h : Settled s e) {d : BitVec 6} {k c : BitVec 4} {p : BitVec 3}
    (hf : Fits e { accepts := { neg := true }, guard := some p.toNat, regs := [d.toNat] } (.hrd d k p c)) (hc : c ≠ 13) :
    ∃ t, exec (.hrd d k p c) s = .next t ∧ WritesLanes s t e d.toNat (some p.toNat) fun _ _ => readShape (e.g.shape k.toNat) c.toNat := by
  obtain ⟨t, ht, hwrites⟩ := State.compute_lanes (i := .hrd d k p c) (reads := fun _ => []) (d := d.toNat) (p := some p.toNat)
    (F := fun e _ _ => readShape (e.g.shape k.toNat) c.toNat) h.ready hf rfl rfl rfl fun _ hr => nomatch hr
  refine ⟨t, ?_, ?_⟩
  · have hexec : exec (.hrd d k p c) s = execHrd d k p c s := rfl
    simp only [hexec, execHrd, if_neg hc, ht]
  · rwa [Env.fresh_shape] at hwrites

/-- What HRD of selector 13 writes to a lane. -/
def Env.shapeWord (e : Env) (d k p : Nat) (x : Nat × Nat) : Option CellWrite :=
  if x.2 < 8 ∧ (e.guard p x.1 x.2).getLsbD 0 then
    some { cell := e.cellOf x.1 d x.2, bits := BitVec.allOnes 64, value := BitVec.ofNat 64 ((e.g.shape k).toNat / 2 ^ (64 * x.2)) }
  else none

theorem Env.shapeWord_cell {e : Env} {d k p m l : Nat} {y : CellWrite} (h : e.shapeWord d k p (m, l) = some y) : y.cell = e.cellOf m d l := by
  unfold Env.shapeWord at h
  split at h <;> cases h
  rfl

theorem hrd_words (h : Settled s e) {d : BitVec 6} {k c : BitVec 4} {p : BitVec 3}
    (hf : Fits e { accepts := { neg := true }, guard := some p.toNat, regs := [d.toNat] } (.hrd d k p c)) (hc : c = 13) :
    ∃ t, exec (.hrd d k p c) s = .next t ∧ Leaves s t e { cells := e.cellsOf d.toNat } ∧
      ∀ m ∈ e.copies, ∀ l ∈ e.lanes, (t.core e.g.core).cell (e.cellOf m d.toNat l) =
        if l < 8 ∧ (e.guard p.toNat m l).getLsbD 0 then (e.g.shape k.toNat).extractLsb' (64 * l) 64 else e.val m d.toNat l := by
  have hwrites : e.fresh.cells.filterMap (e.fresh.shapeWord d.toNat k.toNat p.toNat) = e.cells.filterMap (e.shapeWord d.toNat k.toNat p.toNat) := by
    simp only [Env.fresh_cells]
    refine List.filterMap_congr fun x _ => ?_
    simp only [Env.shapeWord, Env.fresh_guard, Env.fresh_cellOf, Env.fresh_shape]
  have hcells : ∀ y ∈ e.cells.filterMap (e.shapeWord d.toNat k.toNat p.toNat), e.cellsOf d.toNat y.cell := fun y hy => by
    obtain ⟨⟨m, l⟩, hml, hy⟩ := List.mem_filterMap.1 hy
    obtain ⟨hm, hl⟩ := e.mem_cells.1 hml
    exact ⟨m, hm, l, hl, Env.shapeWord_cell hy⟩
  obtain ⟨hleaves, hvalues⟩ := leaves_of_cells h.ready _ hcells
  have hnext := State.compute_next (i := .hrd d k p c) (reads := fun _ => []) (writes := fun e => e.cells.filterMap (e.shapeWord d.toNat k.toNat p.toNat))
    h.ready hf rfl rfl rfl fun _ hr => nomatch hr
  rw [hwrites] at hnext
  refine ⟨_, ?_, hleaves, fun m hm l hl => ?_⟩
  · have hexec : exec (.hrd d k p c) s = execHrd d k p c s := rfl
    simp only [hexec, execHrd, if_pos hc]
    exact hnext
  · obtain ⟨hsome, hnone⟩ := Core.writeAll_cells e e.core d.toNat (e.shapeWord d.toNat k.toNat p.toNat) (fun _ _ _ => Env.shapeWord_cell) hm hl
    rw [(hvalues _).1]
    by_cases hactive : l < 8 ∧ (e.guard p.toNat m l).getLsbD 0
    · rw [(hsome _ (if_pos hactive)).1, if_pos hactive]
      rw [BitVec.not_allOnes, BitVec.and_zero, BitVec.zero_or, BitVec.and_allOnes, BitVec.extractLsb', Nat.shiftRight_eq_div_pow]
    · rw [hnone (if_neg hactive), if_neg hactive]
      rfl

/-! ### HWR (R159, R160) -/

theorem Env.zero_mem_copies (e : Env) : 0 ∈ e.copies := by
  unfold Env.copies
  split <;> exact List.mem_cons_self

/-- What HWR does to its group: the shape, and what a copy of it must wait for. -/
def Group.setShape (k : Nat) (new : BitVec 512) (g : Group) : Group :=
  { g with
    shapes := NMap.store g.shapes 0 k (shapeDefined new)
    shapeAfter := NMap.put g.shapeAfter k ((g.flight.filter fun o => o.work.isMemory && o.src != .access).map fun o => o.id) }

theorem Group.aside_setShape (k : Nat) (new : BitVec 512) : Group.Aside (Group.setShape k new) := by
  refine ⟨fun g src => ?_, fun _ => ⟨rfl, rfl⟩, fun _ => ⟨rfl, rfl⟩, fun _ => rfl, fun _ => rfl, fun g e n => ?_⟩
  · cases src <;> rfl
  · unfold Group.counted Group.goesOn
    cases e.src <;> rfl

/-- The lanes that HWR takes its source from. -/
def Env.shapeLanes (e : Env) (p : Nat) (c : BitVec 4) : List Nat :=
  if c = 13 then (e.active p).filter (fun l => decide (l < 8)) else (e.active p).take 1

/-- The shape that HWR writes, before its reserved bits go. -/
def Env.newShape (e : Env) (d k p : Nat) (c : BitVec 4) : BitVec 512 :=
  (e.shapeLanes p c).foldl (fun sh l => if c = 13 then putField sh (64 * l) 64 (e.val 0 d l).toNat else writeShape sh c.toNat (e.val 0 d l))
    (e.g.shape k)

theorem Env.shapeLanes_active {p : Nat} {c : BitVec 4} {l : Nat} (h : l ∈ e.shapeLanes p c) : l ∈ e.active p := by
  unfold Env.shapeLanes at h
  split at h
  · exact (List.mem_filter.1 h).1
  · exact List.mem_of_mem_take h

theorem hwr_answers (h : Settled s e) {d : BitVec 6} {k c : BitVec 4} {p : BitVec 3}
    (hf : Fits e { accepts := { neg := true }, guard := some p.toNat, regs := [d.toNat] } (.hwr d k p c)) (hclean : e.Clean d.toNat) :
    ∃ st, Opened s st e ∧ exec (.hwr d k p c) s = .next ((if (e.shapeLanes p.toNat c).isEmpty then st
      else st.onGroup e.gid (Group.setShape k.toNat (e.newShape d.toNat k.toNat p.toNat c))).retire e.fresh) := by
  obtain ⟨st, hopened, hissue⟩ := State.issue_of_settled h rfl rfl hf fun e st =>
    match e.poisonTrap ((e.shapeLanes p.toNat c).flatMap fun l => [{ reg := d.toNat, lane := l, phys := e.phys 0 l, halves := shapeHalves c.toNat }]) with
    | some t => .trap t none
    | none => .next (if (e.shapeLanes p.toNat c).isEmpty then st
        else st.onGroup e.gid (Group.setShape k.toNat (e.newShape d.toNat k.toNat p.toNat c)))
  have hexec : exec (.hwr d k p c) s = _ := hissue
  have hlanes : e.fresh.shapeLanes p.toNat c = e.shapeLanes p.toNat c := by simp [Env.shapeLanes]
  have hnew : e.fresh.newShape d.toNat k.toNat p.toNat c = e.newShape d.toNat k.toNat p.toNat c := by
    simp only [Env.newShape, hlanes, Env.fresh_val, Env.fresh_shape]
  have hpoison : e.poisonTrap ((e.shapeLanes p.toNat c).flatMap fun l =>
      [{ reg := d.toNat, lane := l, phys := e.phys 0 l, halves := shapeHalves c.toNat }]) = none :=
    Env.poisonTrap_none_of_readsClean <| Env.readsClean_of_cells fun x hx => by
      obtain ⟨l, hl, hx⟩ := List.mem_flatMap.1 hx
      cases List.mem_singleton.1 hx
      exact ⟨hclean, 0, e.zero_mem_copies, l, Env.mem_lanes_of_mem_active (Env.shapeLanes_active hl), rfl⟩
  refine ⟨st, hopened, ?_⟩
  rw [hexec, hlanes, hnew]
  simp only [Env.fresh_poisonTrap, Env.fresh_phys, hpoison]
  rfl

/-- The shapes after HWR. -/
theorem hwr_writes (h : Settled s e) {d : BitVec 6} {k c : BitVec 4} {p : BitVec 3}
    (hf : Fits e { accepts := { neg := true }, guard := some p.toNat, regs := [d.toNat] } (.hwr d k p c)) (hclean : e.Clean d.toNat) :
    ∃ t g, exec (.hwr d k p c) s = .next t ∧ Leaves s t e { group := fun g => { g with shapes := [], shapeAfter := [] } } ∧
      t.group? e.gid = some g ∧ (∀ j, j ≠ k.toNat → g.shape j = e.g.shape j) ∧
      g.shape k.toNat = if (e.shapeLanes p.toNat c).isEmpty then e.g.shape k.toNat else shapeDefined (e.newShape d.toNat k.toNat p.toNat c) := by
  obtain ⟨st, hopened, hexec⟩ := hwr_answers h hf hclean
  split at hexec
  · next hnone =>
    have haside := Group.aside_id
    obtain ⟨hg, -⟩ := hopened.regrouped.retire h haside
    have hshape : ∀ j, (id (e.retired (s.issueNo + 1))).shape j = e.g.shape j := fun j => by rw [id, Group.shape, Env.retired_shapes, Group.shape]
    refine ⟨_, _, hexec, hopened.regrouped.leaves h haside fun g => rfl, hg, fun j _ => hshape j, ?_⟩
    rw [if_pos hnone, hshape]
  · next hsome =>
    have haside := Group.aside_setShape k.toNat (e.newShape d.toNat k.toNat p.toNat c)
    have hregrouped := hopened.onGroup (f := Group.setShape k.toNat (e.newShape d.toNat k.toNat p.toNat c)) rfl
    obtain ⟨hg, -⟩ := hregrouped.retire h haside
    refine ⟨_, _, hexec, hregrouped.leaves h haside fun g => rfl, hg, fun j hj => ?_, ?_⟩
    · rw [Group.setShape, Group.shape, NMap.get_store_ne _ _ _ hj, Env.retired_shapes, Group.shape]
    · rw [if_neg hsome, Group.setShape, Group.shape, NMap.get_store_self]

end

/-- HRD gives a field as a number of lanes. -/
theorem readShape_eq (sh : BitVec 512) (c : BitVec 4) :
    let f : Nat × Nat :=
      if c.toNat = 0 then (448, 64) else if c.toNat ≤ 5 then (288 + 32 * (c.toNat - 1), 32)
      else if c.toNat ≤ 10 then (88 + 40 * (c.toNat - 6), 40) else if c.toNat = 11 then (56, 32) else (21, 11)
    let v := sh.toNat / 2 ^ f.1 % 2 ^ f.2
    readShape sh c.toNat = if 6 ≤ c.toNat ∧ c.toNat ≤ 10 then BitVec.ofInt 64 (if v < 2 ^ 39 then (v : Int) else v - 2 ^ 40)
      else if c = 12 then BitVec.ofNat 64 (v * 2 ^ 21) else BitVec.ofNat 64 v := by
  intro f v
  obtain ⟨hlo, hw, hsigned⟩ := shapeField_cases c.toNat
  have hv : sh.toNat / 2 ^ (shapeField c.toNat).1 % 2 ^ (shapeField c.toNat).2.1 = v := by rw [hlo, hw]
  have h12 : c.toNat = 12 ↔ c = 12 := ⟨fun h => BitVec.eq_of_toNat_eq h, fun h => by rw [h]; rfl⟩
  unfold readShape
  simp only [hsigned, hv, h12, decide_eq_true_eq]
  refine if_ctx_congr Iff.rfl (fun hsel => congrArg (BitVec.ofInt 64) ?_) fun _ => rfl
  have hwidth : (shapeField c.toNat).2.1 = 40 := by
    rw [hw, if_neg (by omega), if_neg (by omega), if_pos hsel.2]
  rw [hwidth] at hv ⊢
  have hlt : v < 2 ^ 40 := hv ▸ Nat.mod_lt _ (by decide)
  rw [signedOf, Nat.mod_eq_of_lt hlt]
  rfl

/-- Settles O34: the scalars and the PC of the access stream, and the fields of shape registers. -/
theorem scalarAndShapeResults : Obligations.ScalarAndShapeResults := by
  unfold Obligations.ScalarAndShapeResults
  refine ⟨fun s e d a o b k c i9 t11 h hsrc => ?_, fun s e d k c p h => ?_⟩
  · intro fits y x writes op
    have hop : ∀ u v, yopValue o.toNat u v = op u v := fun u v => by
      unfold yopValue
      split <;> rename_i ho <;> simp only [op, ho]
    refine ⟨fun hf => ?_, fun hf => ?_, fun hf => ?_, fun hf => ?_, fun hf => ?_, fun hf => adone_done h hsrc hf⟩
    · have hwrites := streamOp_setScalar (d := d) (v := yopValue o.toNat (y a) (y b)) h hf rfl (by rw [Group.setScalar]; simp only [Env.fresh_y]; rfl)
      rwa [hop] at hwrites
    · have hwrites := streamOp_setScalar (d := d) (v := yopValue o.toNat (y a) (BitVec.ofInt 64 i9.toInt)) h hf rfl (by rw [Group.setScalar]; simp only [Env.fresh_y]; rfl)
      rwa [hop] at hwrites
    · exact streamOp_setScalar h hf rfl (by rw [Env.fresh_shape]; rfl)
    · obtain ⟨st, hopened, hexec⟩ := yopHwait_answers h hf
      refine ⟨fun hrank => ?_, fun hrank => ?_⟩
      · rw [if_neg hrank] at hexec
        exact ⟨_, hexec, hopened.leaves h⟩
      · rw [if_pos hrank] at hexec
        obtain ⟨g, hstalled⟩ := hopened.stream_stalled hsrc
        exact ⟨_, g, hexec, hstalled⟩
    · intro u v holds target
      have hholds : ybrHolds c.toNat u v = true ↔ holds := by
        unfold ybrHolds
        split <;> rename_i hc <;> simp [holds, hc]
      obtain ⟨st, hopened, htaken, hfalls⟩ := ybr_answers h hsrc hf
      refine ⟨fun hc hgood => ?_, fun hc => ?_⟩
      · obtain ⟨g, hjump⟩ := hopened.ybr_jumps h target
        exact ⟨_, g, htaken (hholds.2 hc) hgood, hjump⟩
      · exact ⟨_, hfalls (Bool.eq_false_iff.2 fun hb => hc (hholds.1 hb)), hopened.leaves h⟩
  · intro form sh field reserved lo w
    refine ⟨fun hf => ⟨fun hc => ?_, fun hc => hrd_words h hf hc⟩, fun hf hclean => ?_⟩
    · obtain ⟨t, ht, hwrites⟩ := hrd_writes h hf hc
      rw [readShape_eq] at hwrites
      exact ⟨t, ht, hwrites⟩
    · obtain ⟨t, g, ht, hleaves, hg, hothers, hshape⟩ := hwr_writes h hf hclean
      refine ⟨t, g, ht, hleaves, hg, hothers, fun hnone => ?_, fun hc hall => ?_, fun hc hsome i hi => ?_, fun hc l rest hl i hi => ?_⟩
      · rw [hshape, if_pos (by simp [Env.shapeLanes, hnone])]
      · have hempty : (e.active p.toNat).filter (fun l => decide (l < 8)) = [] := List.filter_eq_nil_iff.2 fun l hl => by simpa using hall l hl
        rw [hshape, Env.shapeLanes, if_pos hc, hempty]
        rfl
      · obtain ⟨l, hl, hlow⟩ := hsome
        have hlanes : e.shapeLanes p.toNat c = (e.active p.toNat).filter fun l => decide (l < 8) := if_pos hc
        have hne : ¬ (e.shapeLanes p.toNat c).isEmpty = true := by
          rw [hlanes, List.isEmpty_iff, List.filter_eq_nil_iff]
          exact fun hall => hall l hl (decide_eq_true hlow)
        have hnew : e.newShape d.toNat k.toNat p.toNat c = putWords (e.val 0 d.toNat) (e.shapeLanes p.toNat c) sh := by
          simp only [Env.newShape, if_pos hc]
          rfl
        have hmem : i / 64 ∈ e.shapeLanes p.toNat c ↔ i / 64 ∈ e.active p.toNat := by
          rw [hlanes, List.mem_filter, decide_eq_true_eq, and_iff_left (by omega)]
        rw [hshape, if_neg hne, getLsbD_shapeDefined _ hi, hnew, getLsbD_putWords _ _ _ hi]
        simp only [hmem]
        rfl
      · have hsel : c ≠ 13 := fun h13 => absurd hc (by rw [h13]; decide)
        have hlanes : e.shapeLanes p.toNat c = [l] := by rw [Env.shapeLanes, if_neg hsel, hl]; rfl
        have hnew : e.newShape d.toNat k.toNat p.toNat c = writeShape sh c.toNat (e.val 0 d.toNat l) := by
          simp only [Env.newShape, hlanes, if_neg hsel]
          rfl
        obtain ⟨hlo, hw, -⟩ := shapeField_cases c.toNat
        have h12 : c.toNat = 12 ↔ c = 12 := ⟨fun h => BitVec.eq_of_toNat_eq h, fun h => by rw [h]; rfl⟩
        rw [hshape, hlanes, if_neg (by simp), getLsbD_shapeDefined _ hi, hnew, getLsbD_writeShape _ _ _ hi, hlo, hw]
        simp only [h12]
        rfl

end Sys2Proof.Machine
end

section
/-! The join table (R39): what completing its entries does, where none is due and where one is. -/

namespace Sys2Proof.Machine

/-! ### Completing joins (R39 steps 5 and 6) -/

/-- An entry whose lanes have all arrived at the current depth. -/
def Join.Due (j : Join) (depth : Nat) : Prop := j.armed = true ∧ j.expected ≠ 0 ∧ j.arrived = j.expected ∧ j.depth = depth

/-- What is done for one entry. -/
def Group.completeJoin (g : Group) (k : Nat) : Group :=
  if !(g.join k).armed then g
  else if (g.join k).expected = 0 then g.setJoin k {}
  else if (g.join k).arrived = (g.join k).expected ∧ (g.join k).depth = g.depth then
    (g.setJoin k {}).placeMerged (g.join k).expected ((g.join k).pc + 4)
  else g

theorem Group.completeJoins_eq (g : Group) : g.completeJoins = (List.range 16).foldl Group.completeJoin g := rfl

/-- An entry without lanes is disarmed. -/
def Join.swept (j : Join) : Join := if j.armed = true ∧ j.expected = 0 then {} else j

theorem Join.swept_swept (j : Join) : j.swept.swept = j.swept := by
  by_cases hj : j.armed = true ∧ j.expected = 0
  · have hswept : j.swept = {} := if_pos hj
    rw [hswept]
    rfl
  · have hswept : j.swept = j := if_neg hj
    rw [hswept, hswept]

/-- An armed entry stands in the table. -/
theorem Group.join_mem {g : Group} {k : Nat} (h : (g.join k).armed = true) : (k, g.join k) ∈ g.joins := by
  unfold Group.join NMap.get at h ⊢
  cases hfind : NMap.find g.joins k with
  | none => rw [hfind] at h; cases h
  | some j => exact NMap.mem_of_find hfind

theorem Group.setJoin_empty (g : Group) (k : Nat) : g.setJoin k {} = { g with joins := NMap.del g.joins k } := by
  rw [Group.setJoin, NMap.store, if_pos rfl]

/-- Of a table of entries that are not due, completing the entries of some keys leaves a part: those without lanes are disarmed. -/
theorem Group.completeJoin_quiet (ks : List Nat) (g : Group) (h : ∀ x ∈ g.joins, x.1 ∈ ks → ¬ x.2.Due g.depth) :
    ∃ J, ks.foldl Group.completeJoin g = { g with joins := J } ∧ (∀ x ∈ J, x ∈ g.joins) ∧
      ∀ k, NMap.get J {} k = if k ∈ ks then (g.join k).swept else g.join k := by
  induction ks generalizing g with
  | nil => exact ⟨g.joins, rfl, fun _ hx => hx, fun _ => rfl⟩
  | cons k ks ih =>
    have hstep : ∃ J, g.completeJoin k = { g with joins := J } ∧ (∀ x ∈ J, x ∈ g.joins) ∧
        ∀ i, NMap.get J {} i = if i = k then (g.join i).swept else g.join i := by
      by_cases harmed : (g.join k).armed = true
      · by_cases hempty : (g.join k).expected = 0
        · refine ⟨NMap.del g.joins k, ?_, fun x hx => (List.mem_filter.1 hx).1, fun i => ?_⟩
          · rw [Group.completeJoin, harmed, Bool.not_true, if_neg Bool.false_ne_true, if_pos hempty, Group.setJoin_empty]
          · split
            · next hi => rw [hi, NMap.get, NMap.find_del_self, Join.swept, if_pos ⟨harmed, hempty⟩, Option.getD_none]
            · next hi => rw [NMap.get, NMap.find_del_ne _ hi, Group.join, NMap.get]
        · refine ⟨g.joins, ?_, fun x hx => hx, fun i => ?_⟩
          · have hdue : ¬ ((g.join k).arrived = (g.join k).expected ∧ (g.join k).depth = g.depth) := fun hdue =>
              h _ (Group.join_mem harmed) List.mem_cons_self ⟨harmed, hempty, hdue⟩
            rw [Group.completeJoin, harmed, Bool.not_true, if_neg Bool.false_ne_true, if_neg hempty, if_neg hdue]
          · split
            · next hi => rw [hi, Join.swept, if_neg fun hboth => hempty hboth.2, Group.join]
            · rfl
      · refine ⟨g.joins, ?_, fun x hx => hx, fun i => ?_⟩
        · rw [Group.completeJoin, Bool.eq_false_iff.2 harmed, Bool.not_false, if_pos rfl]
        · split
          · next hi => rw [hi, Join.swept, if_neg fun hboth => harmed hboth.1, Group.join]
          · rfl
    obtain ⟨J, hJ, hsub, hget⟩ := hstep
    obtain ⟨K, hK, hsubK, hgetK⟩ := ih { g with joins := J } fun x hx hks => h x (hsub x hx) (List.mem_cons_of_mem _ hks)
    refine ⟨K, by rw [List.foldl_cons, hJ, hK], fun x hx => hsub x (hsubK x hx), fun i => ?_⟩
    have hjoin : Group.join { g with joins := J } i = if i = k then (g.join i).swept else g.join i := hget i
    rw [hgetK, hjoin]
    by_cases hi : i = k
    · rw [if_pos hi, Join.swept_swept, ite_self, if_pos (hi ▸ List.mem_cons_self)]
    · rw [if_neg hi]
      simp only [List.mem_cons, hi, false_or]

theorem Group.completeJoins_quiet (g : Group) (h : ∀ x ∈ g.joins, ¬ x.2.Due g.depth) :
    ∃ J, g.completeJoins = { g with joins := J } ∧ (∀ x ∈ J, x ∈ g.joins) ∧ ∀ k < 16, NMap.get J {} k = (g.join k).swept := by
  obtain ⟨J, hJ, hsub, hget⟩ := Group.completeJoin_quiet (List.range 16) g fun x hx _ => h x hx
  exact ⟨J, hJ, hsub, fun k hk => by rw [hget, if_pos (List.mem_range.2 hk)]⟩

/-! ### The merged lanes of a join (R39 step 5) -/

/-- No pop is due: there is no record, or no slot is free for one. -/
def Group.Popped (g : Group) : Prop := g.div = [] ∨ (g.a.life ≠ .empty ∧ g.b.life ≠ .empty)

theorem Group.Popped.popSlots {g : Group} (h : g.Popped) : g.popSlots = g := by
  have hpop : ∀ src, src = .slotA ∨ src = .slotB → g.popSlot src = g := fun src hsrc => by
    rw [Group.popSlot]
    split
    · rfl
    · next hdiv =>
      obtain ⟨ha, hb⟩ := h.resolve_left fun hnil => by rw [hnil] at hdiv; cases hdiv
      rw [if_neg]
      rcases hsrc with rfl | rfl
      · exact fun hall => ha hall.1
      · exact fun hall => hb hall.1
  rw [Group.popSlots, hpop .slotA (Or.inl rfl), hpop .slotB (Or.inr rfl)]

theorem Group.Popped.badPop {g : Group} (h : g.Popped) : g.badPop = none := by
  rw [Group.badPop]
  split
  · rfl
  · next hdiv =>
    obtain ⟨ha, hb⟩ := h.resolve_left fun hnil => by rw [hnil] at hdiv; cases hdiv
    rw [if_neg ha, if_neg hb, ite_self]

/-- What placing merged lanes leaves: a slot with them, the other or a record for the lanes that stood there, and nothing else changed. -/
structure Group.Placed (g h : Group) (s : Slot) : Prop where
  slot : h.a = s ∨ h.b = s
  popped : g.div = [] → h.Popped
  joins : h.joins = g.joins
  preds : h.preds = g.preds
  frames : h.frames = g.frames
  life : h.life = g.life
  defers : g.defers = [] → h.defers = []

/-- A push that makes room for merged lanes. -/
theorem Group.placed_push (g : Group) (s : Slot) (hs : s.life ≠ .empty) (src : Source) (hsrc : src = .slotA ∨ src = .slotB)
    (hother : (g.slot src.other).life ≠ .empty) : g.Placed ((g.pushSlot src).setSlot src s) s := by
  rcases hsrc with rfl | rfl
  · exact ⟨Or.inl rfl, fun _ => Or.inr ⟨hs, hother⟩, rfl, rfl, rfl, rfl, fun hd => by
      show List.map _ g.defers = []
      rw [hd, List.map_nil]⟩
  · exact ⟨Or.inr rfl, fun _ => Or.inr ⟨hother, hs⟩, rfl, rfl, rfl, rfl, fun hd => by
      show List.map _ g.defers = []
      rw [hd, List.map_nil]⟩

theorem Group.placeMerged_placed (g : Group) (mask : Mask) (pc : Lane) : g.Placed (g.placeMerged mask pc) (freshSlot pc mask) := by
  have hs : (freshSlot pc mask).life ≠ .empty := by simp [freshSlot]
  unfold Group.placeMerged
  dsimp only
  split
  · exact ⟨Or.inl rfl, Or.inl, rfl, rfl, rfl, rfl, id⟩
  · next ha =>
    split
    · exact ⟨Or.inr rfl, Or.inl, rfl, rfl, rfl, rfl, id⟩
    · next hb =>
      split
      · exact Group.placed_push g _ hs .slotB (Or.inr rfl) ha
      · split
        · exact Group.placed_push g _ hs .slotA (Or.inl rfl) hb
        · split
          · exact Group.placed_push g _ hs .slotA (Or.inl rfl) hb
          · exact Group.placed_push g _ hs .slotB (Or.inr rfl) ha

theorem Group.depth_of_frames {g h : Group} (hf : h.frames = g.frames) : h.depth = g.depth := by rw [Group.depth, Group.depth, hf]

/-- Of a table in which one entry is due, that entry is disarmed and its lanes have a slot. -/
theorem Group.completeJoins_due (g : Group) {k : Nat} (hk : k < 16) (hdue : (g.join k).Due g.depth)
    (h : ∀ x ∈ g.joins, x.1 ≠ k → ¬ x.2.Due g.depth) (hdiv : g.div = []) (hdefers : g.defers = []) :
    let back := freshSlot ((g.join k).pc + 4) (g.join k).expected
    ∃ u, g.completeJoins = u ∧ (u.a = back ∨ u.b = back) ∧ u.Popped ∧ u.join k = {} ∧ u.preds = g.preds ∧ u.frames = g.frames ∧ u.life = g.life ∧
      u.defers = [] := by
  intro back
  obtain ⟨before, after, hrange⟩ := List.append_of_mem (List.mem_range.2 hk)
  have hnodup : (before ++ k :: after).Nodup := hrange ▸ List.nodup_range
  obtain ⟨-, hafter, hbefore⟩ := List.nodup_append.1 hnodup
  have hbefore : k ∉ before := fun hin => hbefore k hin k List.mem_cons_self rfl
  have hafter : k ∉ after := (List.nodup_cons.1 hafter).1
  obtain ⟨J, hJ, hsub, hget⟩ := Group.completeJoin_quiet before g fun x hx hks =>
    h x hx fun hxk => hbefore (hxk ▸ hks)
  have hjoin : Group.join { g with joins := J } k = g.join k := (hget k).trans (if_neg hbefore)
  have hstep : Group.completeJoin { g with joins := J } k = Group.placeMerged { g with joins := NMap.del J k } (g.join k).expected ((g.join k).pc + 4) := by
    obtain ⟨harmed, hexpected, harrived, hdepth⟩ := hdue
    rw [Group.completeJoin, hjoin, harmed, Bool.not_true, if_neg Bool.false_ne_true, if_neg hexpected, if_pos ⟨harrived, hdepth⟩, Group.setJoin_empty]
  have hplaced := Group.placeMerged_placed { g with joins := NMap.del J k } (g.join k).expected ((g.join k).pc + 4)
  generalize Group.placeMerged { g with joins := NMap.del J k } (g.join k).expected ((g.join k).pc + 4) = v at hstep hplaced
  obtain ⟨hslot, hpopped, hjoins, hpreds, hframes, hlife, hvdefers⟩ := hplaced
  obtain ⟨K, hK, -, hgetK⟩ := Group.completeJoin_quiet after v fun x hx hks => by
    rw [hjoins] at hx
    rw [Group.depth_of_frames hframes]
    exact h x (hsub x (List.mem_filter.1 hx).1) fun hxk => hafter (hxk ▸ hks)
  refine ⟨{ v with joins := K }, by rw [Group.completeJoins_eq, hrange, List.foldl_append, hJ, List.foldl_cons, hstep, hK], hslot, hpopped hdiv, ?_, hpreds, hframes,
    hlife, hvdefers hdefers⟩
  refine (hgetK k).trans ?_
  rw [if_neg hafter, Group.join, hjoins, NMap.get, NMap.find_del_self, Option.getD_none]

end Sys2Proof.Machine
end

section
/-! EXIT (R135): what is left of the group, and the return from a depth without lanes. -/

namespace Sys2Proof.Machine

/-- Between two states every register cell and every other group stands. -/
structure Apart (s t : State) (gid : Nat) : Prop where
  cells : SameCells s t
  groups : ∀ k, k ≠ gid → t.group? k = s.group? k

theorem Apart.trans {s t u : State} {gid : Nat} (h : Apart s t gid) (k : Apart t u gid) : Apart s u gid :=
  ⟨fun c i => (k.cells c i).trans (h.cells c i), fun j hj => (k.groups j hj).trans (h.groups j hj)⟩

theorem apart_of_cores {s t : State} {gid : Nat} (hc : ∀ c, t.core c = s.core c) (hg : ∀ k, k ≠ gid → t.group? k = s.group? k) : Apart s t gid :=
  ⟨fun c i => by rw [hc], hg⟩

theorem SameBut.apart {s t : State} {gid : Nat} (h : SameBut s t gid) : Apart s t gid := ⟨fun c i => ((h.cores c).2 i).1, h.groups⟩

/-! ### Pops, ends and returns of a group without deferred writes -/

section
variable {st : State} {gid : Nat} {g : Group} (hg : st.group? gid = some g) (hd : g.defers = [])
include hg

theorem State.endIfDone_stays (h : g.noLanes = false) : st.endIfDone gid = st := by
  rw [State.endIfDone, hg]
  dsimp only
  rw [h, Bool.false_and, if_neg Bool.false_ne_true]

theorem State.endIfDone_ends (h : g.noLanes = true) (hl : g.life = .live) :
    (st.endIfDone gid).group? gid = some { g with life := .draining, accessLife := .done } ∧ (∀ c, (st.endIfDone gid).core c = st.core c) ∧
      ∀ k, k ≠ gid → (st.endIfDone gid).group? k = st.group? k := by
  rw [State.endIfDone, hg]
  dsimp only
  rw [h, hl, Bool.true_and, if_pos (by decide)]
  exact ⟨State.group?_setGroup .., fun _ => rfl, fun k hk => State.group?_setGroup_ne _ _ hk⟩

include hd

theorem State.pops_stays (hp : g.Popped) (h : g.noLanes = false) :
    (st.pops gid).group? gid = some g ∧ (∀ c, (st.pops gid).core c = st.core c) ∧ ∀ k, k ≠ gid → (st.pops gid).group? k = st.group? k := by
  have hset : (st.setGroup gid g).group? gid = some g := State.group?_setGroup ..
  have hpops : st.pops gid = (st.setGroup gid g).settle gid := by
    rw [State.pops, hg]
    dsimp only
    rw [hp.popSlots, hp.badPop, State.endIfDone_stays hset h]
  rw [hpops]
  exact ⟨State.settle_group _ hset (Group.awaits_of_defers_nil hd), fun c => State.settle_core _ hset (Group.awaits_of_defers_nil hd) c,
    fun k hk => (State.settle_group_ne _ hk).trans (State.group?_setGroup_ne _ _ hk)⟩

theorem State.pops_ends (hp : g.Popped) (h : g.noLanes = true) (hl : g.life = .live) :
    (st.pops gid).group? gid = some { g with life := .draining, accessLife := .done } ∧ (∀ c, (st.pops gid).core c = st.core c) ∧
      ∀ k, k ≠ gid → (st.pops gid).group? k = st.group? k := by
  have hset : (st.setGroup gid g).group? gid = some g := State.group?_setGroup ..
  obtain ⟨hend, hcores, hgroups⟩ := State.endIfDone_ends hset h hl
  have hpops : st.pops gid = ((st.setGroup gid g).endIfDone gid).settle gid := by
    rw [State.pops, hg]
    dsimp only
    rw [hp.popSlots, hp.badPop]
  rw [hpops]
  exact ⟨State.settle_group _ hend (Group.awaits_of_defers_nil hd), fun c => (State.settle_core _ hend (Group.awaits_of_defers_nil hd) c).trans (hcores c),
    fun k hk => (State.settle_group_ne _ hk).trans ((hgroups k hk).trans (State.group?_setGroup_ne _ _ hk))⟩

end

/-- What a group leaves at the depths above one. -/
def Group.left (g : Group) (t : Nat) : Group :=
  { g with frames := g.frames.drop (g.depth - t), joins := NMap.keep g.joins fun _ j => !(j.armed && decide (t < j.depth)) }

theorem mem_insertSorted {n x : Nat} {l : List Nat} : x ∈ insertSorted n l ↔ x = n ∨ x ∈ l := by
  induction l with
  | nil => simp [insertSorted]
  | cons m l ih =>
    unfold insertSorted
    split
    · simp
    · simp only [List.mem_cons, ih]
      tauto

theorem mem_insertAll {ns l : List Nat} {x : Nat} : x ∈ insertAll ns l ↔ x ∈ ns ∨ x ∈ l := by
  unfold insertAll
  induction ns generalizing l with
  | nil => simp
  | cons n ns ih =>
    simp only [List.foldl_cons, ih, mem_insertSorted, List.mem_cons]
    tauto

section
variable {st : State} {gid : Nat} {g : Group} (hg : st.group? gid = some g) (hd : g.defers = [])
include hg hd

/-- Leaving depths: the frames above go, with their granules (R138, R139). -/
theorem State.leaveTo_leaves (t : Nat) :
    (st.leaveTo gid t).group? gid = some (g.left t) ∧ Apart st (st.leaveTo gid t) gid ∧
      ∀ x ∈ (g.frames.take (g.depth - t)).flatMap (·.grans), (st.core g.core).withdrawn.contains x = false →
        x ∈ ((st.leaveTo gid t).core g.core).free := by
  have hleave : st.leaveTo gid t = (st.setGroup gid (g.left t)).freeGranules gid g.core ((g.frames.take (g.depth - t)).flatMap (·.grans)) := by
    rw [State.leaveTo, hg]
    dsimp only
    rw [hd, List.filter_nil, ← hd]
    rfl
  rw [hleave, State.freeGranules]
  refine ⟨?_, ⟨fun c i => ?_, fun k hk => ?_⟩, fun x hx hw => ?_⟩
  · have hnone : (g.left t).defers = [] := hd
    rw [State.group?_onGroup, State.group?_onCore, State.group?_setGroup, Option.map_some, hnone, List.filter_nil, ← hnone]
  · rw [State.core_onGroup]
    by_cases hc : c = g.core
    · rw [hc, State.core_onCore]
      rfl
    · rw [State.core_onCore_ne _ _ hc, State.core_setGroup]
  · rw [State.group?_onGroup_ne _ _ hk, State.group?_onCore, State.group?_setGroup_ne _ _ hk]
  · rw [State.core_onGroup, State.core_onCore, State.core_setGroup]
    exact mem_insertAll.2 (Or.inl (List.mem_filter.2 ⟨hx, by rw [hw]; rfl⟩))

/-- The group once a return is done that reloads nothing: a slot HELD with its depth goes on (R36, R48). -/
theorem State.comeBack_returns (src : Source) (hrefill : g.nextRefill = none) (hl : g.life = .live) (hdiv : g.div = [])
    (hquiet : ∀ x ∈ g.joins, ¬ x.2.Due g.depth) (hstay : g.releaseHeld.a.life ≠ .empty ∨ g.releaseHeld.b.life ≠ .empty) :
    ∃ J, (st.comeBack gid src (.refill none)).group? gid = some { g.releaseHeld with frameReq := none, joins := J } ∧
      (∀ c, (st.comeBack gid src (.refill none)).core c = st.core c) ∧
      ∀ k, k ≠ gid → (st.comeBack gid src (.refill none)).group? k = st.group? k := by
  obtain ⟨J, hJ, -, -⟩ := Group.completeJoins_quiet (({ g with frameReq := none } : Group).releaseHeld) fun x hx => hquiet x hx
  have hgo : st.goOnReturn gid src (.refill none) =
      (st.onGroup gid fun g => (({ g with frameReq := none } : Group).releaseHeld).completeJoins).pops gid := by
    rw [State.goOnReturn, hg]
    dsimp only
    rw [hrefill]
    dsimp only
    rw [if_pos hl]
    rfl
  have hset : (st.onGroup gid fun g => (({ g with frameReq := none } : Group).releaseHeld).completeJoins).group? gid =
      some { g.releaseHeld with frameReq := none, joins := J } := by
    rw [State.group?_onGroup, hg, Option.map_some, hJ]
    rfl
  have hlanes : Group.noLanes { g.releaseHeld with frameReq := none, joins := J } = false := by
    rcases hstay with h | h <;> simp [Group.noLanes, h]
  obtain ⟨hgroup, hcores, hgroups⟩ := State.pops_stays hset hd (Or.inl hdiv) hlanes
  rw [← hgo] at hgroup hcores hgroups
  have hcome : st.comeBack gid src (.refill none) = st.goOnReturn gid src (.refill none) := by
    rw [State.comeBack, State.refillAtOnce, hgroup]
  rw [hcome]
  exact ⟨J, hgroup, hcores, fun k hk => (hgroups k hk).trans (State.group?_onGroup_ne _ _ hk)⟩

end

/-! ### The group without the lanes that exit (R39 step 4, R135) -/

theorem Group.nextRefill_none {g : Group} (h : ∀ f ∈ g.frames, f.spilled = false) : g.nextRefill = none := by
  unfold Group.nextRefill
  split
  · rfl
  · next f below hframes =>
    rw [if_neg (by rw [h f (by rw [hframes]; exact List.mem_cons_self)]; exact Bool.false_ne_true)]
    split
    · split
      · next x hx =>
        rw [h x (by rw [hframes]; exact List.mem_cons_of_mem _ (List.mem_of_getElem? hx)), Bool.false_and, if_neg Bool.false_ne_true]
      · rfl
    · rfl

theorem Group.slot_releaseHeld {g : Group} {src : Source} (hsrc : src = .slotA ∨ src = .slotB) :
    g.releaseHeld.slot src = if (g.slot src).life = .held ∧ (g.slot src).tag = g.depth then { g.slot src with life := .ready } else g.slot src := by
  rcases hsrc with rfl | rfl <;> rfl

/-- A group with another join table. -/
def Group.withJoins (g : Group) (J : NMap Join) : Group := { g with joins := J }

/-- An armed entry without the lanes that exit. -/
def Join.gone (m : Mask) (j : Join) : Join := if j.armed then { j with expected := j.expected &&& ~~~m, arrived := j.arrived &&& ~~~m } else j

/-- What is done for an EXIT of lanes before joins complete. -/
def Group.exits (e : Env) (m : Mask) (g : Group) : Group :=
  (g.exitJoins m).setSlot e.src (if e.slot.mask &&& ~~~m = 0 then {} else
    { g.slot e.src with life := .ready, pc := e.slot.pc + 4, mask := e.slot.mask &&& ~~~m, hints := [] })

/-- The group of a stream that has issued an EXIT of lanes, before joins complete. -/
def Env.exited (e : Env) (m : Mask) (n : Nat) : Group := (e.fresh.g.counted e.fresh true n).exits e m

/-- What follows once joins have completed: a return from a depth without lanes, or the pops that are due. -/
def State.afterExit (st : State) (gid : Nat) (src : Source) : State :=
  match st.group? gid with
  | none => st
  | some g =>
    if g.depth ≠ 0 && g.emptyAt g.depth then
      if g.noLanes then (st.leaveTo gid (g.returnDepth g.depth)).endIfDone gid
      else (st.leaveTo gid (g.returnDepth g.depth)).comeBack gid src (.refill none)
    else st.pops gid

theorem State.afterExit_jump (st : State) (gid : Nat) (src : Source) :
    (match st.group? gid with
      | none => Verdict.jump st
      | some g =>
        if g.depth ≠ 0 && g.emptyAt g.depth then
          if g.noLanes then .jump ((st.leaveTo gid (g.returnDepth g.depth)).endIfDone gid)
          else .jump ((st.leaveTo gid (g.returnDepth g.depth)).comeBack gid src (.refill none))
        else .jump (st.pops gid)) = .jump (st.afterExit gid src) := by
  unfold State.afterExit
  cases st.group? gid with
  | none => rfl
  | some g =>
    dsimp only
    split
    · split <;> rfl
    · rfl

theorem Source.slot_of_program {e : Env} {i : Instr} {f : Form} (hf : Fits e f i) (hruns : f.runs = .program) :
    e.src = .slotA ∨ e.src = .slotB := by
  have hstream : e.streamTrap f (infoWord i) = none := (Env.formTrap_none hf.form).1
  have hhandler := hf.stream hruns
  unfold Env.streamTrap at hstream
  rw [hruns] at hstream
  cases hsrc : e.src with
  | slotA => exact Or.inl rfl
  | slotB => exact Or.inr rfl
  | handler => exact absurd hsrc hhandler
  | access => rw [hsrc] at hstream; cases hstream

theorem NMap.get_map {α : Type} (m : NMap α) (f : α → α) (d : α) (hf : f d = d) (k : Nat) :
    NMap.get (m.map fun x => (x.1, f x.2)) d k = f (NMap.get m d k) := by
  unfold NMap.get
  induction m with
  | nil => exact hf.symm
  | cons e m ih =>
    obtain ⟨j, y⟩ := e
    rw [List.map_cons, NMap.find, NMap.find]
    dsimp only
    split
    · rfl
    · exact ih

/-- What is known of the group after an EXIT of lanes, before joins complete. -/
structure Env.Exited (e : Env) (m : Mask) (x : Group) : Prop where
  core : x.core = e.g.core
  life : x.life = e.g.life
  preds : x.preds = e.g.preds
  frames : x.frames = e.g.frames
  frameReq : x.frameReq = e.g.frameReq
  div : x.div = e.g.div
  defers : x.defers = e.g.defers
  joins : x.joins = e.g.joins.map fun y => (y.1, y.2.gone m)
  other : x.slot e.src.other = e.g.slot e.src.other
  rest : e.slot.mask &&& ~~~m ≠ 0 → (x.slot e.src).life = .ready ∧ (x.slot e.src).pc = e.slot.pc + 4 ∧ (x.slot e.src).mask = e.slot.mask &&& ~~~m
  none : e.slot.mask &&& ~~~m = 0 → x.slot e.src = {}

theorem Env.exited_exited {e : Env} (hsrc : e.src = .slotA ∨ e.src = .slotB) (hd : e.g.defers = []) (m : Mask) (n : Nat) :
    e.Exited m (e.exited m n) := by
  have hcounted : (e.fresh.g.counted e.fresh true n).defers = [] := by rw [Group.counted_defers, Env.fresh_gdefers, hd, List.map_nil]
  rcases hsrc with hs | hs
  · unfold Env.exited Group.exits
    unfold Group.counted Env.fresh at hcounted ⊢
    simp only [hs, Group.setSlot, Group.exitJoins, Group.slot, Source.other] at hcounted ⊢
    refine ⟨rfl, rfl, rfl, rfl, rfl, rfl, hcounted.trans hd.symm, rfl, by simp only [hs, Source.other, Group.slot],
      fun hrest => ?_, fun hrest => ?_⟩
    · simp only [hs, Group.slot]
      rw [if_neg hrest]
      exact ⟨rfl, rfl, rfl⟩
    · simp only [hs, Group.slot]
      rw [if_pos hrest]
  · unfold Env.exited Group.exits
    unfold Group.counted Env.fresh at hcounted ⊢
    simp only [hs, Group.setSlot, Group.exitJoins, Group.slot, Source.other] at hcounted ⊢
    refine ⟨rfl, rfl, rfl, rfl, rfl, rfl, hcounted.trans hd.symm, rfl, by simp only [hs, Source.other, Group.slot],
      fun hrest => ?_, fun hrest => ?_⟩
    · simp only [hs, Group.slot]
      rw [if_neg hrest]
      exact ⟨rfl, rfl, rfl⟩
    · simp only [hs, Group.slot]
      rw [if_pos hrest]

theorem Join.due_gone {m : Mask} {j : Join} {d : Nat} : (j.gone m).Due d ↔
    j.armed = true ∧ (j.gone m).expected ≠ 0 ∧ (j.gone m).arrived = (j.gone m).expected ∧ j.depth = d := by
  have hkeeps : (j.gone m).armed = j.armed ∧ (j.gone m).depth = j.depth := by
    unfold Join.gone
    split <;> exact ⟨rfl, rfl⟩
  rw [Join.Due, hkeeps.1, hkeeps.2]

/-! ### Depths without lanes (R39, R135) -/

section
variable {g : Group} {src : Source} (hsrc : src = .slotA ∨ src = .slotB)
include hsrc

theorem Group.emptyAt_depth_false (h : (g.slot src).life = .ready ∨ (g.slot src).life = .stalled) : g.emptyAt g.depth = false := by
  rcases hsrc with rfl | rfl <;> rcases h with h | h <;> simp only [Group.slot] at h <;> simp [Group.emptyAt, h]

theorem Group.noLanes_false (h : (g.slot src).life ≠ .empty) : g.noLanes = false := by
  rcases hsrc with rfl | rfl <;> simp only [Group.slot] at h <;> simp [Group.noLanes, h]

variable (hempty : (g.slot src).life = .empty)
include hempty

theorem Group.emptyAt_held (hheld : (g.slot src.other).life = .held) : g.emptyAt (g.slot src.other).tag = false := by
  rcases hsrc with rfl | rfl <;> simp only [Group.slot, Source.other] at hempty hheld ⊢ <;> simp [Group.emptyAt, hempty, hheld]

variable (hdiv : g.div = []) (harrived : ∀ x ∈ g.joins, x.2.arrived = 0)
include hdiv harrived

theorem Group.emptyAt_true {d : Nat} (hother : (g.slot src.other).life = .empty ∨ ((g.slot src.other).life = .held ∧ (g.slot src.other).tag ≠ d)) :
    g.emptyAt d = true := by
  have hjoins : ∀ k j, (k, j) ∈ g.joins → j.armed = true → j.depth = d → j.arrived = 0 := fun _ _ hx _ _ => harrived _ hx
  rcases hsrc with rfl | rfl <;> simp only [Group.slot, Source.other] at hempty hother <;> rcases hother with h | ⟨h, htag⟩
  all_goals simpa [Group.emptyAt, *] using hjoins

theorem Group.noLanes_true (hother : (g.slot src.other).life = .empty) : g.noLanes = true := by
  have hjoins : ∀ k j, (k, j) ∈ g.joins → j.arrived = 0 := fun _ _ hx => harrived _ hx
  rcases hsrc with rfl | rfl <;> simp only [Group.slot, Source.other] at hempty hother
  all_goals simpa [Group.noLanes, *] using hjoins

end

theorem Group.returnDepth_eq {g : Group} {t : Nat} (ht : g.emptyAt t = false) (n : Nat) (hn : t < n) (h : ∀ d, t < d → d < n → g.emptyAt d = true) :
    g.returnDepth n = t := by
  induction n with
  | zero => exact absurd hn (Nat.not_lt_zero t)
  | succ n ih =>
    rw [Group.returnDepth]
    rcases Nat.lt_or_eq_of_le (Nat.le_of_lt_succ hn) with hlt | heq
    · rw [if_pos (h n hlt (Nat.lt_succ_self n))]
      exact ih hlt fun d hd hdn => h d hd (Nat.lt_succ_of_lt hdn)
    · rw [← heq, if_neg (by rw [ht]; exact Bool.false_ne_true)]

/-! ### EXIT (R135) -/

section
variable {s : State} {e : Env} {p : BitVec 3}

/-- EXIT counts its issue, takes its lanes out of the join entries and completes joins, before what is due then. -/
theorem exit_answers (h : Settled s e)
    (hf : Fits e { closes := .own, runs := .program, accepts := { neg := true }, guard := some p.toNat } (.exit p)) :
    ∃ st n, exec (.exit p) s = .next (st.afterExit e.gid e.src) ∧
      st.group? e.gid = some (e.exited (maskOf (e.active p.toNat)) n).completeJoins ∧ Apart s st e.gid ∧
      (st.core e.g.core).withdrawn = e.core.withdrawn := by
  obtain ⟨-, -, -, -, -, hcore, -⟩ := State.env?_some h.env
  obtain ⟨st, hopened, hissue⟩ := State.issue_of_settled h rfl rfl hf fun e st =>
    .jump (((st.issued e).onGroup e.gid fun g => (g.exits e (maskOf (e.active p.toNat))).completeJoins).afterExit e.gid e.src)
  have hdefers : e.fresh.g.defers = [] := by rw [Env.fresh_gdefers, h.settled]
  have hcount : (st.issued e.fresh).group? e.gid = some (e.fresh.g.counted e.fresh true (st.issueNo + 1)) :=
    State.group?_countIssue (e := e.fresh) hopened.group hdefers true
  have hsame := sameBut_countIssue (e := e.fresh) hopened.group hdefers true
  refine ⟨(st.issued e.fresh).onGroup e.gid fun g => (g.exits e.fresh (maskOf (e.fresh.active p.toNat))).completeJoins, st.issueNo + 1, ?_, ?_,
    (hopened.sameBut.apart.trans hsame.apart).trans ((sameBut_onGroup _ e.gid _).apart), ?_⟩
  · refine Eq.trans ?_ hissue
    have hexec : exec (.exit p) s = execExit p s := rfl
    rw [hexec, execExit]
    exact congrArg _ (funext fun e => funext fun st => State.afterExit_jump _ e.gid e.src)
  · rw [State.group?_onGroup, hcount, Option.map_some, Env.fresh_active]
    rfl
  · rw [State.core_onGroup]
    have hcounted := State.countIssue_core st (e := e.fresh) hopened.group fun n => Group.awaits_of_defers_nil <| by
      rw [Group.counted_defers, hdefers, List.map_nil]
    rw [Env.fresh_gcore] at hcounted
    rw [State.issued, hcounted, hopened.cores, hcore]
    exact (congrArg Core.withdrawn (Core.counted_rest ..) :)

/-- What every EXIT is said to leave, whatever comes of the group. -/
def ExitAnswers (s : State) (e : Env) (i : Instr) (post : State → Group → Prop) : Prop :=
  ∃ t g, exec i s = .next t ∧ t.group? e.gid = some g ∧ g.preds = e.g.preds ∧ post t g ∧
    (∀ c i, (t.core c).cell i = (s.core c).cell i) ∧ ∀ gid, gid ≠ e.gid → t.group? gid = s.group? gid

theorem Source.other_slot {src : Source} (h : src = .slotA ∨ src = .slotB) :
    (src.other = .slotA ∨ src.other = .slotB) ∧ src.other.other = src ∧ src.other ≠ src := by
  rcases h with rfl | rfl
  · exact ⟨Or.inr rfl, rfl, by decide⟩
  · exact ⟨Or.inl rfl, rfl, by decide⟩

theorem Env.live_of_slot (hs : s.env? = some e) (hsrc : e.src = .slotA ∨ e.src = .slotB) : e.g.life = .live := by
  obtain ⟨-, hmay, -⟩ := State.env?_some hs
  rcases hsrc with h | h <;> rw [h] at hmay <;> simp only [Group.mayIssue, Bool.and_eq_true, beq_iff_eq] at hmay
  · exact hmay.1.1.1
  · exact hmay.1.1.1

/-- A change of a group outside its slots. -/
theorem Group.slot_congr {g h : Group} {src : Source} (hsrc : src = .slotA ∨ src = .slotB) (ha : h.a = g.a) (hb : h.b = g.b) :
    h.slot src = g.slot src := by
  rcases hsrc with rfl | rfl
  · exact ha
  · exact hb

section
variable (h : Settled s e) (hf : Fits e { closes := .own, runs := .program, accepts := { neg := true }, guard := some p.toNat } (.exit p))
  (hdiv : e.g.div = [])
include h hf

/-- EXIT where no entry completes. -/
theorem exit_quiet (hdue : ∀ x ∈ e.g.joins, ¬ (x.2.gone (maskOf (e.active p.toNat))).Due e.g.depth) :
    ∃ st x J, exec (.exit p) s = .next (st.afterExit e.gid e.src) ∧ st.group? e.gid = some (x.withJoins J) ∧
      e.Exited (maskOf (e.active p.toNat)) x ∧ (∀ y ∈ J, ∃ z ∈ e.g.joins, y.2 = z.2.gone (maskOf (e.active p.toNat))) ∧
      (∀ k < 16, NMap.get J {} k = ((e.g.join k).gone (maskOf (e.active p.toNat))).swept) ∧ Apart s st e.gid ∧
      (st.core e.g.core).withdrawn = e.core.withdrawn := by
  obtain ⟨st, n, hexec, hgroup, happart, hwithdrawn⟩ := exit_answers h hf
  have hx := Env.exited_exited (Source.slot_of_program hf rfl) h.settled (maskOf (e.active p.toNat)) n
  generalize e.exited (maskOf (e.active p.toNat)) n = x at hgroup hx
  have hfrom : ∀ y ∈ x.joins, ∃ z ∈ e.g.joins, y.2 = z.2.gone (maskOf (e.active p.toNat)) := fun y hy => by
    rw [hx.joins] at hy
    obtain ⟨z, hz, rfl⟩ := List.mem_map.1 hy
    exact ⟨z, hz, rfl⟩
  obtain ⟨J, hJ, hsub, hget⟩ := Group.completeJoins_quiet x fun y hy => by
    obtain ⟨z, hz, hyz⟩ := hfrom y hy
    rw [Group.depth_of_frames hx.frames, hyz]
    exact hdue z hz
  rw [hJ] at hgroup
  refine ⟨st, x, J, hexec, hgroup, hx, fun y hy => hfrom y (hsub y hy), fun k hk => (hget k hk).trans (congrArg Join.swept ?_), happart, hwithdrawn⟩
  rw [Group.join, hx.joins]
  exact NMap.get_map e.g.joins (Join.gone (maskOf (e.active p.toNat))) {} rfl k

include hdiv

/-- EXIT where no entry completes and a lane is left at the depth. -/
theorem exit_continues (hdue : ∀ x ∈ e.g.joins, ¬ (x.2.gone (maskOf (e.active p.toNat))).Due e.g.depth)
    (hleft : e.slot.mask &&& ~~~maskOf (e.active p.toNat) ≠ 0 ∨ (e.g.slot e.src.other).life = .ready ∨ (e.g.slot e.src.other).life = .stalled) :
    ExitAnswers s e (.exit p) fun _ g => ∃ x, e.Exited (maskOf (e.active p.toNat)) x ∧ g.slot e.src = x.slot e.src ∧
      g.slot e.src.other = x.slot e.src.other ∧ g.life = .live ∧
      ∀ k < 16, g.join k = ((e.g.join k).gone (maskOf (e.active p.toNat))).swept := by
  have hsrc := Source.slot_of_program hf rfl
  obtain ⟨hother, -⟩ := Source.other_slot hsrc
  obtain ⟨st, x, J, hexec, hgroup, hx, -, hget, happart, -⟩ := exit_quiet h hf hdue
  have hstands : ∃ sl, (sl = .slotA ∨ sl = .slotB) ∧ ((x.slot sl).life = .ready ∨ (x.slot sl).life = .stalled) := by
    rcases hleft with hrest | hlife
    · exact ⟨e.src, hsrc, Or.inl (hx.rest hrest).1⟩
    · exact ⟨e.src.other, hother, by rw [hx.other]; exact hlife⟩
  obtain ⟨sl, hsl, hlife⟩ := hstands
  have hslot : ∀ {src : Source}, src = .slotA ∨ src = .slotB → (x.withJoins J).slot src = x.slot src := fun hs => Group.slot_congr hs rfl rfl
  have hdepth : (x.withJoins J).emptyAt (x.withJoins J).depth = false :=
    Group.emptyAt_depth_false hsl (by rw [hslot hsl]; exact hlife)
  have hlanes : (x.withJoins J).noLanes = false := Group.noLanes_false hsl <| by
    rw [hslot hsl]
    rcases hlife with hl | hl <;> rw [hl] <;> decide
  have hafter : st.afterExit e.gid e.src = st.pops e.gid := by
    rw [State.afterExit, hgroup]
    dsimp only
    rw [hdepth, Bool.and_false, if_neg Bool.false_ne_true]
  obtain ⟨hg, hcores, hgroups⟩ := State.pops_stays hgroup (hx.defers.trans h.settled) (Or.inl (hx.div.trans hdiv)) hlanes
  rw [← hafter] at hg hcores hgroups
  obtain ⟨hcells, hothers⟩ := happart.trans (apart_of_cores hcores hgroups)
  refine ⟨_, _, hexec, hg, hx.preds, ⟨x, hx, hslot hsrc, hslot hother, hx.life.trans (Env.live_of_slot h.env hsrc), hget⟩, hcells, hothers⟩

/-- EXIT of the last lanes of a group. -/
theorem exit_ends (hgone : e.slot.mask &&& ~~~maskOf (e.active p.toNat) = 0) (hempty : (e.g.slot e.src.other).life = .empty)
    (harrived : ∀ x ∈ e.g.joins, (x.2.gone (maskOf (e.active p.toNat))).arrived = 0) :
    ExitAnswers s e (.exit p) fun _ g => g.slot e.src.other = e.g.slot e.src.other ∧ (g.slot e.src).life = .empty ∧ g.life = .draining ∧
      g.accessLife = .done := by
  have hsrc := Source.slot_of_program hf rfl
  obtain ⟨hother, -⟩ := Source.other_slot hsrc
  obtain ⟨st, x, J, hexec, hgroup, hx, hfrom, -, happart, -⟩ := exit_quiet h hf fun y hy hdue => hdue.2.1 (by rw [← hdue.2.2.1, harrived y hy])
  have hslot : ∀ {src : Source} {g : Group}, g.a = x.a → g.b = x.b → src = .slotA ∨ src = .slotB → g.slot src = x.slot src :=
    fun ha hb hs => Group.slot_congr hs ha hb
  have hnone : ∀ y ∈ J, y.2.arrived = 0 := fun y hy => by
    obtain ⟨z, hz, hyz⟩ := hfrom y hy
    rw [hyz, harrived z hz]
  have hgap : ((x.withJoins J).slot e.src).life = .empty := by rw [hslot (g := x.withJoins J) rfl rfl hsrc, hx.none hgone]
  have hfree : ((x.withJoins J).slot e.src.other).life = .empty := by rw [hslot (g := x.withJoins J) rfl rfl hother, hx.other, hempty]
  have hdivx : x.div = [] := hx.div.trans hdiv
  have hlive : x.life = .live := hx.life.trans (Env.live_of_slot h.env hsrc)
  have hlanes := Group.noLanes_true hsrc hgap hdivx hnone hfree
  have hends : ∃ g, (st.afterExit e.gid e.src).group? e.gid = some g ∧ Apart st (st.afterExit e.gid e.src) e.gid ∧ g.a = x.a ∧ g.b = x.b ∧
      g.preds = x.preds ∧ g.life = .draining ∧ g.accessLife = .done := by
    rw [State.afterExit, hgroup]
    dsimp only
    by_cases hdepth : ((x.withJoins J).depth ≠ 0 && (x.withJoins J).emptyAt (x.withJoins J).depth) = true
    · rw [if_pos hdepth, if_pos hlanes]
      obtain ⟨hleft, happart, -⟩ := State.leaveTo_leaves hgroup (hx.defers.trans h.settled)
        ((x.withJoins J).returnDepth (x.withJoins J).depth)
      have hstill : ((x.withJoins J).left ((x.withJoins J).returnDepth (x.withJoins J).depth)).noLanes = true :=
        Group.noLanes_true hsrc ((congrArg Slot.life (Group.slot_congr hsrc rfl rfl)).trans hgap) hdivx
          (fun y hy => hnone y (List.mem_filter.1 hy).1) ((congrArg Slot.life (Group.slot_congr hother rfl rfl)).trans hfree)
      obtain ⟨hg, hcores, hgroups⟩ := State.endIfDone_ends hleft hstill hlive
      exact ⟨_, hg, happart.trans (apart_of_cores hcores hgroups), rfl, rfl, rfl, rfl, rfl⟩
    · rw [if_neg hdepth]
      obtain ⟨hg, hcores, hgroups⟩ := State.pops_ends hgroup (hx.defers.trans h.settled) (Or.inl hdivx) hlanes hlive
      exact ⟨_, hg, apart_of_cores hcores hgroups, rfl, rfl, rfl, rfl, rfl⟩
  obtain ⟨g, hg, hafter, ha, hb, hpreds, hlife, haccess⟩ := hends
  obtain ⟨hcells, hothers⟩ := happart.trans hafter
  refine ⟨_, g, hexec, hg, hpreds.trans hx.preds, ⟨(hslot ha hb hother).trans hx.other, ?_, hlife, haccess⟩, hcells, hothers⟩
  rw [hslot ha hb hsrc, hx.none hgone]

/-- EXIT where one entry then completes. -/
theorem exit_completes {k : Nat} (hk : k < 16) (hdue : ((e.g.join k).gone (maskOf (e.active p.toNat))).Due e.g.depth)
    (hothers : ∀ x ∈ e.g.joins, x.1 ≠ k → ¬ (x.2.gone (maskOf (e.active p.toNat))).Due e.g.depth) :
    let back := freshSlot ((e.g.join k).pc + 4) ((e.g.join k).gone (maskOf (e.active p.toNat))).expected
    ExitAnswers s e (.exit p) fun _ g => g.join k = {} ∧ (g.a = back ∨ g.b = back) ∧ g.life = .live := by
  intro back
  have hsrc := Source.slot_of_program hf rfl
  obtain ⟨st, n, hexec, hgroup, happart, -⟩ := exit_answers h hf
  have hx := Env.exited_exited hsrc h.settled (maskOf (e.active p.toNat)) n
  generalize e.exited (maskOf (e.active p.toNat)) n = x at hgroup hx
  have hjoin : x.join k = (e.g.join k).gone (maskOf (e.active p.toNat)) := by
    rw [Group.join, hx.joins]
    exact NMap.get_map e.g.joins (Join.gone (maskOf (e.active p.toNat))) {} rfl k
  have hpc : (x.join k).pc = (e.g.join k).pc := by
    rw [hjoin, Join.gone]
    split <;> rfl
  have hdepth := Group.depth_of_frames hx.frames
  obtain ⟨u, hu, hslot, hpopped, hnone, hpreds, hframes, hlife, hdefers⟩ := Group.completeJoins_due x hk (by rw [hjoin, hdepth]; exact hdue)
    (fun y hy hyk => by
      rw [hx.joins] at hy
      obtain ⟨z, hz, rfl⟩ := List.mem_map.1 hy
      rw [hdepth]
      exact hothers z hz hyk) (hx.div.trans hdiv) (hx.defers.trans h.settled)
  rw [hpc, hjoin] at hslot
  rw [hu] at hgroup
  have hready : ∃ sl, (sl = .slotA ∨ sl = .slotB) ∧ (u.slot sl).life = .ready := by
    rcases hslot with hs | hs
    · exact ⟨.slotA, Or.inl rfl, congrArg Slot.life hs⟩
    · exact ⟨.slotB, Or.inr rfl, congrArg Slot.life hs⟩
  obtain ⟨sl, hsl, hready⟩ := hready
  have hafter : st.afterExit e.gid e.src = st.pops e.gid := by
    rw [State.afterExit, hgroup]
    dsimp only
    rw [Group.emptyAt_depth_false hsl (Or.inl hready), Bool.and_false, if_neg Bool.false_ne_true]
  obtain ⟨hg, hcores, hgroups⟩ := State.pops_stays hgroup hdefers hpopped (Group.noLanes_false hsl (by rw [hready]; decide))
  rw [← hafter] at hg hcores hgroups
  obtain ⟨hcells, hrest⟩ := happart.trans (apart_of_cores hcores hgroups)
  exact ⟨_, u, hexec, hg, hpreds.trans hx.preds, ⟨hnone, hslot, (hlife.trans hx.life).trans (Env.live_of_slot h.env hsrc)⟩, hcells, hrest⟩

/-- EXIT of the last lanes at a depth, above that of a HELD slot whose frames are in the file. -/
theorem exit_returns (hgone : e.slot.mask &&& ~~~maskOf (e.active p.toNat) = 0)
    (hheld : (e.g.slot e.src.other).life = .held) (htag : (e.g.slot e.src.other).tag < e.g.depth)
    (harrived : ∀ x ∈ e.g.joins, (x.2.gone (maskOf (e.active p.toNat))).arrived = 0)
    (hframes : ∀ f ∈ e.g.frames.drop (e.g.depth - (e.g.slot e.src.other).tag), f.spilled = false) :
    ExitAnswers s e (.exit p) fun t g => g.frames = e.g.frames.drop (e.g.depth - (e.g.slot e.src.other).tag) ∧
      g.slot e.src.other = { e.g.slot e.src.other with life := .ready } ∧ (g.slot e.src).life = .empty ∧ g.life = .live ∧
      ∀ x ∈ (e.g.frames.take (e.g.depth - (e.g.slot e.src.other).tag)).flatMap (·.grans), e.core.withdrawn.contains x = false →
        x ∈ (t.core e.g.core).free := by
  have hsrc := Source.slot_of_program hf rfl
  obtain ⟨hother, -⟩ := Source.other_slot hsrc
  obtain ⟨st, x, J, hexec, hgroup, hx, hfrom, -, happart, hwithdrawn⟩ := exit_quiet h hf fun y hy hdue =>
    hdue.2.1 (by rw [← hdue.2.2.1, harrived y hy])
  have hnone : ∀ y ∈ J, y.2.arrived = 0 := fun y hy => by
    obtain ⟨z, hz, hyz⟩ := hfrom y hy
    rw [hyz, harrived z hz]
  have hgap : (x.withJoins J).slot e.src = {} := (Group.slot_congr hsrc rfl rfl).trans (hx.none hgone)
  have hwaits : (x.withJoins J).slot e.src.other = e.g.slot e.src.other := (Group.slot_congr hother rfl rfl).trans hx.other
  have hdivx : (x.withJoins J).div = [] := hx.div.trans hdiv
  have hdepth : (x.withJoins J).depth = e.g.depth := Group.depth_of_frames hx.frames
  have hempty : ∀ d, d ≠ (e.g.slot e.src.other).tag → (x.withJoins J).emptyAt d = true := fun d hd =>
    Group.emptyAt_true hsrc (by rw [hgap]) hdivx hnone (Or.inr (by rw [hwaits]; exact ⟨hheld, fun htag => hd htag.symm⟩))
  have hreturn : (x.withJoins J).returnDepth (x.withJoins J).depth = (e.g.slot e.src.other).tag := by
    rw [hdepth]
    refine Group.returnDepth_eq ?_ _ htag fun d hd _ => hempty d (Nat.ne_of_gt hd)
    have hat := Group.emptyAt_held (g := x.withJoins J) hsrc (by rw [hgap]) (by rw [hwaits]; exact hheld)
    rwa [hwaits] at hat
  have hafter : st.afterExit e.gid e.src = (st.leaveTo e.gid (e.g.slot e.src.other).tag).comeBack e.gid e.src (.refill none) := by
    have hlanes : (x.withJoins J).noLanes = false := Group.noLanes_false hother (by rw [hwaits, hheld]; decide)
    have hbelow : decide ((x.withJoins J).depth ≠ 0) = true := decide_eq_true (by rw [hdepth]; omega)
    rw [State.afterExit, hgroup]
    dsimp only
    rw [hbelow, hempty _ (by rw [hdepth]; omega), Bool.and_self, if_pos rfl, if_neg (by rw [hlanes]; exact Bool.false_ne_true), hreturn]
  obtain ⟨hleft, hleaves, hfree⟩ := State.leaveTo_leaves hgroup (hx.defers.trans h.settled) (e.g.slot e.src.other).tag
  have hyframes : ((x.withJoins J).left (e.g.slot e.src.other).tag).frames = e.g.frames.drop (e.g.depth - (e.g.slot e.src.other).tag) := by
    rw [← hdepth, ← hx.frames]
    rfl
  have hydepth : ((x.withJoins J).left (e.g.slot e.src.other).tag).depth = (e.g.slot e.src.other).tag := by
    rw [Group.depth, hyframes, List.length_drop]
    unfold Group.depth at htag ⊢
    omega
  have hyslot : ∀ {src : Source}, src = .slotA ∨ src = .slotB →
      ((x.withJoins J).left (e.g.slot e.src.other).tag).slot src = (x.withJoins J).slot src := fun hs => Group.slot_congr hs rfl rfl
  have hygap : ((x.withJoins J).left (e.g.slot e.src.other).tag).releaseHeld.slot e.src = {} := by
    rw [Group.slot_releaseHeld hsrc, hyslot hsrc, hgap, if_neg fun hb => nomatch hb.1]
  have hywaits : ((x.withJoins J).left (e.g.slot e.src.other).tag).releaseHeld.slot e.src.other = { e.g.slot e.src.other with life := .ready } := by
    rw [Group.slot_releaseHeld hother, hyslot hother, hwaits, if_pos ⟨hheld, hydepth.symm⟩]
  have hylife : ((x.withJoins J).left (e.g.slot e.src.other).tag).life = .live := hx.life.trans (Env.live_of_slot h.env hsrc)
  have hyrest : ((x.withJoins J).left (e.g.slot e.src.other).tag).div = [] ∧ ((x.withJoins J).left (e.g.slot e.src.other).tag).defers = [] ∧
      ((x.withJoins J).left (e.g.slot e.src.other).tag).preds = e.g.preds := ⟨hdivx, hx.defers.trans h.settled, hx.preds⟩
  have hyarrived : ∀ z ∈ ((x.withJoins J).left (e.g.slot e.src.other).tag).joins, z.2.arrived = 0 := fun z hz => hnone z (List.mem_filter.1 hz).1
  generalize (x.withJoins J).left (e.g.slot e.src.other).tag = y at hleft hyframes hydepth hygap hywaits hylife hyrest hyarrived
  obtain ⟨hydiv, hydefers, hypreds⟩ := hyrest
  have hystays : y.releaseHeld.a.life ≠ .empty ∨ y.releaseHeld.b.life ≠ .empty := by
    have hready : (y.releaseHeld.slot e.src.other).life ≠ .empty := by rw [hywaits]; exact fun hlife => nomatch hlife
    rcases hother with ho | ho <;> rw [ho] at hready
    · exact Or.inl hready
    · exact Or.inr hready
  obtain ⟨K, hg, hcores, hgroups⟩ := State.comeBack_returns hleft hydefers e.src
    (Group.nextRefill_none fun f hin => hframes f (by rwa [← hyframes])) hylife hydiv
    (fun z hz hdue => hdue.2.1 (by rw [← hdue.2.2.1, hyarrived z hz])) hystays
  rw [← hafter] at hg hcores hgroups
  obtain ⟨hcells, hothers⟩ := (happart.trans hleaves).trans (apart_of_cores hcores hgroups)
  refine ⟨_, _, hexec, hg, hypreds, ⟨hyframes, ?_, ?_, hylife, fun z hz hw => ?_⟩, hcells, hothers⟩
  · exact (Group.slot_congr hother rfl rfl).trans hywaits
  · exact congrArg Slot.life ((Group.slot_congr hsrc rfl rfl).trans hygap)
  · rw [hcores, ← hx.core]
    refine hfree z ?_ ?_
    · rwa [hdepth, show (x.withJoins J).frames = e.g.frames from hx.frames]
    · rwa [show (x.withJoins J).core = e.g.core from hx.core, hwithdrawn]

end

end

/-- Settles O15: the lanes that EXIT takes go, and with them what only they kept. -/
theorem exitResults : Obligations.ExitResults := by
  unfold Obligations.ExitResults
  intro s e p h hf hdiv m rest other gone due answers
  have hsrc := Source.slot_of_program hf rfl
  have hgone : ∀ j : Join, gone j = j.gone m := fun j => rfl
  have hdue : ∀ j : Join, (j.gone m).Due e.g.depth ↔ due j := fun j => Join.due_gone
  refine ⟨fun hquiet hleft => ?_, fun k hk hk' hothers => ?_, fun hrest _ hheld htag harrived hframes => ?_⟩
  · have hquiet : ∀ x ∈ e.g.joins, ¬ (x.2.gone m).Due e.g.depth := fun x hx hd => hquiet x hx ((hdue _).1 hd)
    by_cases hstays : rest ≠ 0 ∨ other.life = .ready ∨ other.life = .stalled
    · obtain ⟨t, g, ht, hg, hpreds, ⟨x, hx, hslot, hother, hlive, hjoins⟩, hcells, hgroups⟩ := exit_continues h hf hdiv hquiet hstays
      refine ⟨t, g, ht, hg, hpreds, ⟨hother.trans hx.other, ?_, fun _ k hk => ?_⟩, hcells, hgroups⟩
      · by_cases hr : rest ≠ 0
        · obtain ⟨hlife, hpc, hmask⟩ := hx.rest hr
          rw [if_pos hr, hslot]
          exact ⟨hlife, hpc, hmask, hlive⟩
        · have hlife := hstays.resolve_left hr
          have hnot : other.life ≠ .empty := by rcases hlife with hl | hl <;> rw [hl] <;> decide
          rw [if_neg hr, if_neg hnot, hslot, hx.none (not_not.1 hr)]
          exact ⟨rfl, hlive⟩
      · have harmed : ((e.g.join k).gone m).armed = (e.g.join k).armed := by
          unfold Join.gone
          split <;> rfl
        rw [hjoins k hk, Join.swept, harmed]
        rfl
    · obtain ⟨hr, hlife⟩ := not_or.1 hstays
      obtain ⟨hnready, hnstalled⟩ := not_or.1 hlife
      obtain ⟨hempty, harrived⟩ := ((hleft.resolve_left hr).resolve_left hnready).resolve_left hnstalled
      obtain ⟨t, g, ht, hg, hpreds, ⟨hother, hslot, hdraining, haccess⟩, hcells, hgroups⟩ := exit_ends h hf hdiv (not_not.1 hr) hempty harrived
      refine ⟨t, g, ht, hg, hpreds, ⟨hother, ?_, fun hany => absurd hany (by simp [not_not.1 hr, hempty])⟩, hcells, hgroups⟩
      rw [if_neg hr, if_pos hempty]
      exact ⟨hslot, hdraining, haccess⟩
  · exact exit_completes h hf hdiv hk ((hdue _).2 hk') fun x hx hxk hd => hothers x hx hxk ((hdue _).1 hd)
  · exact exit_returns h hf hdiv hrest hheld htag harrived hframes

end Sys2Proof.Machine
end

section
/-! Translations, version lines and accesses at homes see nothing of the slots of groups: of a group they know whose fault records name it and
what atomics it has in flight (R149, R326, R335, R356, R380). -/

namespace Sys2Proof.Machine

/-- A group without its slots. -/
def Group.told (g : Group) : Group := { g with a := {}, b := {}, h := {}, accessPc := 0 }

/-- Two groups maps that agree but for slots. -/
structure Alike (G H : NMap Group) : Prop where
  find : ∀ k, (NMap.find H k).map Group.told = (NMap.find G k).map Group.told
  any : ∀ f : Group → Bool, (H.any fun x => f x.2.told) = G.any fun x => f x.2.told

theorem Group.told_setSlot (g : Group) (src : Source) (x : Slot) : (g.setSlot src x).told = g.told := by cases src <;> rfl

theorem NMap.any_put {α : Type} (m : NMap α) {k : Nat} {v x : α} (p : α → Bool) (hk : NMap.find m k = some v) (hp : p x = p v) :
    ((NMap.put m k x).any fun y => p y.2) = m.any fun y => p y.2 := by
  induction m with
  | nil => cases hk
  | cons y m ih =>
    obtain ⟨j, u⟩ := y
    rw [NMap.put]
    rw [NMap.find] at hk
    split
    · next hlt =>
      rw [if_neg (by omega)] at hk
      have hmem : (m.any fun y => p y.2) = (p v || m.any fun y => p y.2) := by
        cases hv : p v with
        | false => rw [Bool.false_or]
        | true => rw [Bool.true_or, List.any_eq_true]; exact ⟨_, NMap.mem_of_find hk, hv⟩
      rw [List.any_cons, List.any_cons, hp, hmem]
      cases p v <;> cases p u <;> rfl
    · split
      · next hlt heq =>
        rw [if_pos heq.symm] at hk
        cases hk
        rw [List.any_cons, List.any_cons, hp]
      · next hlt hne =>
        rw [if_neg fun h => hne h.symm] at hk
        rw [List.any_cons, List.any_cons, ih hk]

theorem alike_changeIf (m : NMap Group) (k : Nat) {f : Group → Group} (hf : ∀ g, (f g).told = g.told) : Alike m (NMap.changeIf m k f) := by
  refine ⟨fun j => ?_, fun p => ?_⟩
  · by_cases hj : j = k
    · rw [hj, NMap.find_changeIf_self]
      cases NMap.find m k with
      | none => rfl
      | some g => exact congrArg some (hf g)
    · rw [NMap.find_changeIf_ne _ _ hj]
  · unfold NMap.changeIf
    cases hk : NMap.find m k with
    | none => rfl
    | some g => exact NMap.any_put m (fun g => p g.told) hk (congrArg p (hf g))

/-- The state with other groups. -/
def State.withGroups (s : State) (G : NMap Group) : State := { s with groups := G }

/-- What a change of the state does is the same whatever the slots of groups hold, and it leaves the groups. -/
structure Blind (f : State → State) : Prop where
  commutes : ∀ s G, Alike s.groups G → f (s.withGroups G) = (f s).withGroups G
  groups : ∀ s, (f s).groups = s.groups

namespace Blind

theorem id : Blind fun s => s := ⟨fun _ _ _ => rfl, fun _ => rfl⟩

theorem comp {f g : State → State} (hf : Blind f) (hg : Blind g) : Blind fun s => f (g s) :=
  ⟨fun s G hG => by rw [hg.commutes s G hG, hf.commutes _ G (by rw [hg.groups]; exact hG)], fun s => (hf.groups _).trans (hg.groups s)⟩

theorem ite {c : State → Bool} {f g : State → State} (hc : ∀ s G, Alike s.groups G → c (s.withGroups G) = c s) (hf : Blind f) (hg : Blind g) :
    Blind fun s => if c s then f s else g s := by
  refine ⟨fun s G hG => ?_, fun s => ?_⟩
  · rw [hc s G hG]
    split
    · exact hf.commutes s G hG
    · exact hg.commutes s G hG
  · split
    · exact hf.groups s
    · exact hg.groups s

theorem foldl {α : Type} {f : State → α → State} (h : ∀ a, Blind fun s => f s a) (l : List α) : Blind fun s => l.foldl f s := by
  induction l with
  | nil => exact Blind.id
  | cons a l ih => exact ih.comp (h a)

/-- A change that does not read the groups. -/
theorem of_commutes {f : State → State} (h : ∀ s G, f (s.withGroups G) = (f s).withGroups G) (hg : ∀ s, (f s).groups = s.groups) : Blind f :=
  ⟨fun s G _ => h s G, hg⟩

/-- What is chosen by a value that does not depend on slots. -/
theorem bind {α : Type} {c : State → α} {f : α → State → State} (hc : ∀ s G, Alike s.groups G → c (s.withGroups G) = c s) (hf : ∀ a, Blind (f a)) :
    Blind fun s => f (c s) s :=
  ⟨fun s G hG => by rw [hc s G hG]; exact (hf _).commutes s G hG, fun s => (hf _).groups s⟩

end Blind

/-! ### Accesses at homes -/

theorem blind_sendUnit (kind : Nat) (detail : List (Nat × Nat)) : Blind fun s => s.sendUnit kind detail := .of_commutes (fun _ _ => rfl) fun _ => rfl

theorem faultFields_alike (s : State) {G : NMap Group} (hG : Alike s.groups G) (gid : Option Nat) :
    (match gid.bind (s.withGroups G).group? with
      | some g => (s.withGroups G).faultFields g
      | none => []) = (match gid.bind s.group? with
      | some g => s.faultFields g
      | none => []) := by
  cases gid with
  | none => rfl
  | some k =>
    have hfind := hG.find k
    show (match NMap.find G k with | some g => s.faultFields g | none => []) = match NMap.find s.groups k with | some g => s.faultFields g | none => []
    cases hH : NMap.find G k with
    | none =>
      rw [hH] at hfind
      cases hS : NMap.find s.groups k with
      | none => rfl
      | some g => rw [hS] at hfind; cases hfind
    | some h =>
      rw [hH] at hfind
      cases hS : NMap.find s.groups k with
      | none => rw [hS] at hfind; cases hfind
      | some g =>
        rw [hS] at hfind
        have htold := Option.some.inj hfind
        exact (congrArg s.faultFields htold :)

theorem blind_reportAccess (p : Nat) (a : Access) : Blind fun s => s.reportAccess p a :=
  .ite (fun _ _ _ => rfl) (.bind (f := fun fields s => s.sendUnit 0x19 (fields ++ [(72, p)])) (fun s _ hG => faultFields_alike s hG a.by') fun fields =>
    blind_sendUnit 0x19 (fields ++ [(72, p)])) .id

theorem blind_noteAccess (p : Nat) (a : Access) : Blind fun s => s.noteAccess p a :=
  .ite (fun _ _ _ => rfl) (blind_reportAccess p a) .id

theorem blind_noteFrame (p : Nat) (a : Access) : Blind fun s => s.noteFrame p a :=
  .ite (fun _ _ _ => rfl) (.bind (c := fun s => (s.memPlace p).getD 0) (f := fun q s => s.reportAccess q a) (fun _ _ _ => rfl) fun q =>
    blind_reportAccess q a) .id

theorem blind_noteWriter (l : Nat) (a : Access) : Blind fun s => s.noteWriter l a := by
  refine .of_commutes (fun s G => ?_) fun s => ?_
  · unfold State.noteWriter
    split <;> rfl
  · unfold State.noteWriter
    split <;> rfl

theorem blind_touchWay (p : Nat) (a : Access) : Blind fun s => s.touchWay p a := by
  refine .of_commutes (fun s G => ?_) fun s => State.groups_of_outside (State.touchWay_outside s p a)
  unfold State.touchWay
  dsimp only
  have hways : (s.withGroups G).l2ways = s.l2ways := rfl
  have hkey : (s.withGroups G).wayKey (lineOf p) = s.wayKey (lineOf p) := rfl
  have hqueue : (s.withGroups G).hbmQueue = s.hbmQueue := rfl
  rw [hways, hkey, hqueue]
  split
  · rfl
  · split <;> rfl

theorem blind_takeWay (l : Nat) (a : Access) : Blind fun s => s.takeWay l a := .of_commutes (fun _ _ => rfl) fun _ => rfl

theorem blind_setHomePoison (p : Nat) (b : BitVec 2) : Blind fun s => s.setHomePoison p b := by
  refine .of_commutes (fun s G => ?_) fun s => State.groups_of_outside (State.setHomePoison_outside s p b)
  unfold State.setHomePoison
  have hword : (s.withGroups G).wordInL2 p = s.wordInL2 p := rfl
  have hpoison : (s.withGroups G).memPoison p = s.memPoison p := rfl
  rw [hword, hpoison]
  split
  · rfl
  · split <;> rfl

theorem blind_setHomeBad (p : Nat) (b : Bool) : Blind fun s => s.setHomeBad p b := by
  by_cases h : isChip p = true
  · simp only [State.setHomeBad, if_pos h]
    exact .of_commutes (fun _ _ => rfl) fun _ => rfl
  · simp only [State.setHomeBad, if_neg h]
    exact blind_setHomePoison p _

theorem blind_setHomeByte (p : Nat) (b : Byte) : Blind fun s => s.setHomeByte p b := by
  by_cases h : isChip p = true
  · simp only [State.setHomeByte, if_pos h]
    exact .of_commutes (fun _ _ => rfl) fun _ => rfl
  · by_cases hh : isHost p = true
    · simp only [State.setHomeByte, if_neg h, if_pos hh]
      exact .ite (fun _ _ _ => rfl) .id (.of_commutes (fun _ _ => rfl) fun _ => rfl)
    · simp only [State.setHomeByte, if_neg h, if_neg hh]
      exact .of_commutes (fun _ _ => rfl) fun _ => rfl

theorem blind_reinstall (l : Nat) : Blind fun s => s.reinstall l :=
  .ite (fun _ _ _ => rfl) ((Blind.foldl (fun i => blind_setHomeBad (128 * l + 8 * i) true) (List.range 16)).comp
    (.of_commutes (f := fun s => { s with adobeLost := NMap.store s.adobeLost false l false }) (fun _ _ => rfl) fun _ => rfl)) .id

theorem blind_install (p : Nat) (a : Access) : Blind fun s => s.install p a := by
  by_cases h : isAdobe p = true
  · have hmiss : Blind fun s => (s.noteFrame p a).touchWay p a := (blind_touchWay p a).comp (blind_noteFrame p a)
    have hpresent : Blind fun s : State =>
        { s with adobeLines := NMap.put s.adobeLines (lineOf p) true, crowded := s.wayKey (lineOf p) :: s.crowded } :=
      .of_commutes (fun _ _ => rfl) fun _ => rfl
    have hback : Blind fun s : State => if (s.backing p).isSome then (s.noteFrame p a).touchWay p a else s := .ite (fun _ _ _ => rfl) hmiss .id
    have hrest : Blind fun s : State => if s.unreserved.contains (lineOf p) then
          (if (NMap.find s.l2 p).isNone && (s.backing p).isSome then (s.noteFrame p a).touchWay p a else s.takeWay (lineOf p) a)
        else if NMap.get s.adobeLines false (lineOf p) then s
        else (fun s : State => if (s.backing p).isSome then (s.noteFrame p a).touchWay p a else s)
          { s with adobeLines := NMap.put s.adobeLines (lineOf p) true, crowded := s.wayKey (lineOf p) :: s.crowded } :=
      .ite (fun _ _ _ => rfl) (.ite (fun _ _ _ => rfl) hmiss (blind_takeWay _ a))
        (.ite (fun _ _ _ => rfl) .id (hback.comp hpresent))
    simp only [State.install, if_pos h]
    exact hrest.comp ((blind_noteWriter _ a).comp (blind_reinstall _))
  · by_cases hh : isHbm p = true
    · simp only [State.install, if_neg h, if_pos hh]
      exact (blind_touchWay p a).comp (blind_noteAccess p a)
    · simp only [State.install, if_neg h, if_neg hh]
      exact .id

theorem blind_giveUp (l : Nat) (k : Option Nat) : Blind fun s => s.giveUp l k := .of_commutes (fun _ _ => rfl) fun _ => rfl

theorem blind_writeHome (p : Nat) (bytes : List Byte) (bad : Bool) (a : Access) (k : Option Nat) : Blind fun s => s.writeHome p bytes bad a k := by
  have hinstall : Blind fun s => (firstInLines p bytes.length).foldl (fun s q => s.install q { a with write := true }) s :=
    .foldl (fun q => blind_install q _) _
  have hbytes : Blind fun s => (bytes.zipIdx p).foldl (fun s e => s.setHomeByte e.2 e.1) s := .foldl (fun e : Byte × Nat => blind_setHomeByte e.2 e.1) _
  have hgive : Blind fun s => (firstInLines p bytes.length).foldl (fun s q => s.giveUp (lineOf q) k) s :=
    .foldl (fun q => blind_giveUp (lineOf q) k) _
  have hmarks : ∀ marks : Nat → BitVec 2, Blind fun s => (((spread p bytes.length).map (· / 8)).dedup).foldl (fun s w =>
      if bad then s.setHomeBad (8 * w) true
      else if p ≤ 8 * w ∧ 8 * w + 8 ≤ p + bytes.length then s.setHomeBad (8 * w) false
      else if isChip p then s
      else s.setHomePoison (8 * w) (marks (8 * w))) s := fun marks => by
    refine .foldl (fun w => ?_) _
    split
    · exact blind_setHomeBad ..
    · split
      · exact blind_setHomeBad ..
      · split
        · exact .id
        · exact blind_setHomePoison ..
  have hwords : Blind fun s => (((spread p bytes.length).map (· / 8)).dedup).foldl (fun t w =>
      if bad then t.setHomeBad (8 * w) true
      else if p ≤ 8 * w ∧ 8 * w + 8 ≤ p + bytes.length then t.setHomeBad (8 * w) false
      else if isChip p then t
      else t.setHomePoison (8 * w) (s.homePoison (8 * w))) ((bytes.zipIdx p).foldl (fun s e => s.setHomeByte e.2 e.1) s) :=
    .bind (c := fun s q => s.homePoison q) (fun _ _ _ => rfl) fun marks => (hmarks marks).comp hbytes
  unfold State.writeHome
  dsimp only
  by_cases hchip : isChip p = true
  · simp only [if_pos hchip]
    have hall := hwords.comp hinstall
    simp only [if_pos hchip] at hall
    exact hall
  · simp only [if_neg hchip]
    have hall := hgive.comp (hwords.comp hinstall)
    simp only [if_neg hchip] at hall
    exact hall

theorem blind_landWrite (c : Nat) (w : L1Write) : Blind fun s => s.landWrite c w :=
  .bind (c := fun s => s.trafficOf w.team) (f := fun traffic s => s.writeHome w.place w.bytes w.bad { traffic := traffic, policy := w.cache, by' := some w.gid } (some c))
    (fun _ _ _ => rfl) fun _ => blind_writeHome ..

theorem blind_drainRange (c lo n : Nat) : Blind fun s => s.drainRange c lo n := by
  have hland : ∀ l : List L1Write, Blind fun s => l.foldl (fun s w => s.landWrite c w) s := fun l => .foldl (fun w => blind_landWrite c w) l
  have hset : Blind fun s => s.setCore c { s.core c with l1 := (s.core c).l1.flatMap fun w => w.beside (lo / 128 * 128) ((lo + n + 127) / 128 * 128) } :=
    .of_commutes (fun _ _ => rfl) fun _ => rfl
  exact .bind (c := fun s => (s.core c).l1.flatMap fun w => w.within (lo / 128 * 128) ((lo + n + 127) / 128 * 128))
    (f := fun l s => l.foldl (fun s w => s.landWrite c w)
      (s.setCore c { s.core c with l1 := (s.core c).l1.flatMap fun w => w.beside (lo / 128 * 128) ((lo + n + 127) / 128 * 128) }))
    (fun _ _ _ => rfl) fun l => (hland l).comp hset

/-! ### Translations (R326) -/

theorem blind_onCore (c : Nat) (f : Core → Core) : Blind fun s => s.onCore c f := .of_commutes (fun _ _ => rfl) fun _ => rfl

theorem blind_dropTags (cs : List Nat) (lo n : Nat) : Blind fun s => s.dropTags cs lo n := .of_commutes (fun _ _ => rfl) fun _ => rfl

/-- The entries of a core's share for another page of the frame of an entry (R248). -/
def TlbEntry.clashes (e x : TlbEntry) : Bool :=
  decide (x.frame < e.frame + e.bytes) && decide (e.frame < x.frame + x.bytes) && !(x.ctx == e.ctx && x.page == e.page)

/-- What a fill does for one core of the plot: the lines of the entries that clash are written back and given up, and the entries go. -/
def State.dropClashes (s : State) (core : Nat) (e : TlbEntry) (c : Nat) (tlb : List TlbEntry) : State :=
  if tlb.any e.clashes then
    ((tlb.filter e.clashes).foldl (fun s x => s.dropTags (plotCores (plotOf core)) x.frame x.bytes)
      ((plotCores (plotOf core)).foldl (fun s c' => (tlb.filter e.clashes).foldl (fun s x => s.drainRange c' x.frame x.bytes) s) s)).onCore c
        fun k => { k with tlb := k.tlb.filter fun x => !e.clashes x }
  else s

theorem State.tlbFill_eq (s : State) (c : Nat) (e : TlbEntry) :
    s.tlbFill c e = ((plotCores (plotOf c)).foldl (fun s c' => s.dropClashes c e c' (s.core c').tlb) s).onCore c
      fun k => { k with tlb := (e :: k.tlb.filter fun x => !(x.ctx == e.ctx && x.page == e.page)).take 512 } := by
  unfold State.tlbFill State.dropClashes TlbEntry.clashes
  rfl

theorem blind_dropClashes (core : Nat) (e : TlbEntry) (c : Nat) (tlb : List TlbEntry) : Blind fun s => s.dropClashes core e c tlb := by
  have hrange : ∀ c', Blind fun s : State => (tlb.filter e.clashes).foldl (fun s x => s.drainRange c' x.frame x.bytes) s := fun c' =>
    Blind.foldl (fun x : TlbEntry => blind_drainRange c' x.frame x.bytes) (tlb.filter e.clashes)
  have hdrain : Blind fun s : State =>
      (plotCores (plotOf core)).foldl (fun s c' => (tlb.filter e.clashes).foldl (fun s x => s.drainRange c' x.frame x.bytes) s) s :=
    Blind.foldl hrange (plotCores (plotOf core))
  have hdrop : Blind fun s : State => (tlb.filter e.clashes).foldl (fun s x => s.dropTags (plotCores (plotOf core)) x.frame x.bytes) s :=
    Blind.foldl (fun x : TlbEntry => blind_dropTags (plotCores (plotOf core)) x.frame x.bytes) (tlb.filter e.clashes)
  unfold State.dropClashes
  exact .ite (fun _ _ _ => rfl) ((blind_onCore c _).comp (hdrop.comp hdrain)) .id

theorem blind_tlbFill (c : Nat) (e : TlbEntry) : Blind fun s => s.tlbFill c e := by
  have hcores : Blind fun s : State => (plotCores (plotOf c)).foldl (fun s c' => s.dropClashes c e c' (s.core c').tlb) s :=
    Blind.foldl (fun c' => .bind (c := fun s => (s.core c').tlb) (f := fun tlb s => s.dropClashes c e c' tlb) (fun _ _ _ => rfl) fun tlb =>
      blind_dropClashes c e c' tlb) (plotCores (plotOf c))
  simp only [State.tlbFill_eq]
  exact (blind_onCore c _).comp hcores

theorem blind_pteOr (addr mask : Nat) : Blind fun s => s.pteOr addr mask :=
  .bind (c := fun s => bytesOf (Nat.lor (s.homeNum addr 8) mask) 8) (f := fun bytes s => s.writeHome addr bytes false) (fun _ _ _ => rfl) fun _ =>
    blind_writeHome ..

theorem State.homeNum_withGroups (s : State) (G : NMap Group) (p n : Nat) : (s.withGroups G).homeNum p n = s.homeNum p n := rfl

theorem State.pteGood_withGroups (s : State) (G : NMap Group) (p : Pte) (addr level : Nat) :
    (s.withGroups G).pteGood p addr level = s.pteGood p addr level := by
  have hcont : (s.withGroups G).contAgrees addr = s.contAgrees addr := by simp only [State.contAgrees, State.homeNum_withGroups]
  simp only [State.pteGood, hcont]

theorem State.walkFrom_zero (s : State) (va table : Nat) : s.walkFrom va 0 table =
    if !(Pte.mk (s.homeNum (pteAddr table 0 va) 8)).bit 0 then .missing 0
    else if !s.pteGood ⟨s.homeNum (pteAddr table 0 va) 8⟩ (pteAddr table 0 va) 0 then .malformed
    else if (Pte.mk (s.homeNum (pteAddr table 0 va) 8)).bit 1 then .leaf (pteAddr table 0 va) 0 ⟨s.homeNum (pteAddr table 0 va) 8⟩
    else .malformed := rfl

theorem State.walkFrom_succ (s : State) (va l table : Nat) : s.walkFrom va (l + 1) table =
    if !(Pte.mk (s.homeNum (pteAddr table (l + 1) va) 8)).bit 0 then .missing (l + 1)
    else if !s.pteGood ⟨s.homeNum (pteAddr table (l + 1) va) 8⟩ (pteAddr table (l + 1) va) (l + 1) then .malformed
    else if (Pte.mk (s.homeNum (pteAddr table (l + 1) va) 8)).bit 1 then
      .leaf (pteAddr table (l + 1) va) (l + 1) ⟨s.homeNum (pteAddr table (l + 1) va) 8⟩
    else s.walkFrom va l (Pte.mk (s.homeNum (pteAddr table (l + 1) va) 8)).frame := rfl

theorem State.walkFrom_withGroups (s : State) (G : NMap Group) (va level table : Nat) :
    (s.withGroups G).walkFrom va level table = s.walkFrom va level table := by
  induction level generalizing table with
  | zero => rw [State.walkFrom_zero, State.walkFrom_zero, State.homeNum_withGroups, State.pteGood_withGroups]
  | succ l ih => simp only [State.walkFrom_succ, State.homeNum_withGroups, State.pteGood_withGroups, ih]

theorem State.walkEntries_withGroups (s : State) (G : NMap Group) (va level table : Nat) :
    (s.withGroups G).walkEntries va level table = s.walkEntries va level table := by
  induction level generalizing table with
  | zero => simp only [State.walkEntries, State.homeNum_withGroups, State.pteGood_withGroups]
  | succ l ih => simp only [State.walkEntries, State.homeNum_withGroups, State.pteGood_withGroups, ih]

/-- A lane of an atomic between its read and its write stands in what a group has in flight. -/
theorem State.halfOn_alike (s : State) {G : NMap Group} (hG : Alike s.groups G) (team : Option Nat) (line : Nat) :
    (s.withGroups G).halfOn team line = s.halfOn team line :=
  hG.any fun g => some g.team != team && g.flight.any fun o => match o.work with
    | .atomic _ _ _ _ _ ls => ls.any fun a => a.half && !a.done && lineOf a.place == line
    | _ => false

theorem State.pinnedAgainst_alike (s : State) {G : NMap Group} (hG : Alike s.groups G) (team : Option Nat) (line : Nat) :
    (s.withGroups G).pinnedAgainst team line = s.pinnedAgainst team line := by
  rw [State.pinnedAgainst, State.pinnedAgainst, State.halfOn_alike s hG]
  rfl

theorem State.walkHeld_alike (s : State) {G : NMap Group} (hG : Alike s.groups G) (root va : Nat) :
    (s.withGroups G).walkHeld root va = s.walkHeld root va := by
  simp only [State.walkHeld, State.walkEntries_withGroups, State.pinnedAgainst_alike s hG]

theorem State.walk_withGroups (s : State) (G : NMap Group) (root va : Nat) : (s.withGroups G).walk root va = s.walk root va :=
  State.walkFrom_withGroups ..

theorem State.lookup_alike (s : State) {G : NMap Group} (hG : Alike s.groups G) (core ctx root va : Nat) :
    (s.withGroups G).lookup core ctx root va = s.lookup core ctx root va := by
  have hhit : (s.withGroups G).tlbHit core ctx va = s.tlbHit core ctx va := rfl
  simp only [State.lookup, hhit, State.walkHeld_alike s hG, State.walk_withGroups]

theorem State.pageCheck_alike (s : State) {G : NMap Group} (hG : Alike s.groups G) (who : Who) (va n : Nat) (k : AccKind) :
    (s.withGroups G).pageCheck who va n k = s.pageCheck who va n k := by
  simp only [State.pageCheck, State.lookup_alike s hG, State.walkHeld_alike s hG]

theorem State.chipCheck_alike (s : State) {G : NMap Group} (hG : Alike s.groups G) (who : Who) (va n : Nat) (k : AccKind) :
    (s.withGroups G).chipCheck who va n k = s.chipCheck who va n k := by
  have hteam : ∀ t, (s.withGroups G).team t = s.team t := fun _ => rfl
  have hrank : ∀ t r, (s.withGroups G).rankTeam t r = s.rankTeam t r := fun _ _ => rfl
  have hallot : ∀ c o, (s.withGroups G).allotmentAt c o = s.allotmentAt c o := fun _ _ => rfl
  simp only [State.chipCheck, State.pageCheck_alike s hG, hteam, hrank, hallot]

theorem State.check_alike (s : State) {G : NMap Group} (hG : Alike s.groups G) (who : Who) (va n align : Nat) (k : AccKind) :
    (s.withGroups G).check who va n align k = s.check who va n align k := by
  simp only [State.check, State.chipCheck_alike s hG, State.pageCheck_alike s hG]

theorem State.checkLanes_alike (s : State) {G : NMap Group} (hG : Alike s.groups G) (who : Who) (addrs : List (Nat × Nat)) (n align : Nat)
    (k : AccKind) : (s.withGroups G).checkLanes who addrs n align k = s.checkLanes who addrs n align k := by
  simp only [State.checkLanes, State.check_alike s hG]

/-- What a walk does once it has its answer. -/
def State.filled (s : State) (core ctx va : Nat) (write : Bool) (hit : Option TlbEntry) (walk : Walk) (entries : List Nat) : State :=
  match hit with
  | some e =>
    if write && !e.dirty then
      match walk with
      | .leaf addr _ _ => (s.pteOr addr 0x180).tlbFill core { e with dirty := true }
      | _ => s.tlbFill core { e with dirty := true }
    else (plotCores (plotOf core)).foldl (fun s c => s.onCore c fun k =>
      if k.tlb.contains e then { k with tlb := e :: k.tlb.filter (· != e) } else k) s
  | none => match walk with
    | .leaf addr level p =>
      ((entries.foldl (fun s a => s.install a) s).pteOr addr (if write then 0x180 else 0x80)).tlbFill core
        { tlbOf ctx va level p with dirty := p.bit 8 || write }
    | _ => s

theorem State.walkFill_eq (s : State) (core ctx root va : Nat) (write : Bool) : s.walkFill core ctx root va write =
    s.filled core ctx va write (s.tlbHit core ctx va) (s.walk root va) (s.walkEntries (va % 2 ^ 57) 4 root) := rfl

theorem blind_filled (core ctx va : Nat) (write : Bool) (hit : Option TlbEntry) (walk : Walk) (entries : List Nat) :
    Blind fun s => s.filled core ctx va write hit walk entries := by
  unfold State.filled
  cases hit with
  | some e =>
    dsimp only
    refine .ite (fun _ _ _ => rfl) ?_ (.foldl (fun c => blind_onCore c _) _)
    cases walk with
    | leaf addr _ _ => exact (blind_tlbFill ..).comp (blind_pteOr ..)
    | missing => exact blind_tlbFill ..
    | malformed => exact blind_tlbFill ..
  | none =>
    cases walk with
    | leaf addr level q => exact (blind_tlbFill ..).comp ((blind_pteOr ..).comp (.foldl (fun a => blind_install a _) _))
    | missing => exact .id
    | malformed => exact .id

theorem blind_walkFill (core ctx root va : Nat) (write : Bool) : Blind fun s => s.walkFill core ctx root va write := by
  simp only [State.walkFill_eq]
  exact .bind (c := fun s => (s.tlbHit core ctx va, s.walk root va, s.walkEntries (va % 2 ^ 57) 4 root))
    (f := fun x s => s.filled core ctx va write x.1 x.2.1 x.2.2)
    (fun s G _ => Prod.ext rfl (Prod.ext (State.walk_withGroups ..) (State.walkEntries_withGroups ..))) fun x => blind_filled ..

theorem blind_touch (who : Who) (va : Nat) (k : AccKind) : Blind fun s => s.touch who va k := by
  unfold State.touch
  split
  · exact .id
  · exact blind_walkFill ..

theorem blind_touchLanes (who : Who) (addrs : List (Nat × Nat)) (k : AccKind) : Blind fun s => s.touchLanes who addrs k :=
  .foldl (fun a : Nat × Nat => blind_touch who a.2 k) addrs

/-! ### Version lines (R335) -/

theorem blind_versionLine (team line : Nat) : Blind fun s => s.versionLine team line :=
  .ite (fun _ _ _ => rfl) .id (.of_commutes (fun _ _ => rfl) fun _ => rfl)

theorem blind_reserveVersions (g : Group) (places : List (Nat × Nat)) : Blind fun s => s.reserveVersions g places := by
  unfold State.reserveVersions
  split
  · exact .foldl (fun l => blind_versionLine g.team l) _
  · exact .id

end Sys2Proof.Machine
end

section
/-! Memory instructions at issue (R53, R140 to R148): the state that the translations leave has the stream's environment again, and the new
operation stands last in flight. -/

namespace Sys2Proof.Machine

/-! ### What translations and version lines leave of the issuing stream -/

/-- What the environment of a stream depends on beside its core: the actor, the groups and who makes its accesses; the next identifier; the host's
port, with every ring but that of the fault records; and the registers. -/
def State.kept (s : State) : (Actor × Nat × NMap Group × (Group → Bool → Who)) × HostPort × (Nat → Ring) × (Nat → Nat → Lane) :=
  ((s.actor, s.nextId, s.groups, s.whoOf), { s.host with rings := [] }, fun n => if n = 1 then {} else s.host.ring n, fun c i => (s.core c).cell i)

theorem State.kept_of_outside {s t : State} (h : t.outside = s.outside) : t.kept = s.kept := by
  have hactor : t.actor = s.actor := (congrArg (fun x => x.1.actor) h :)
  have hnext : t.nextId = s.nextId := (congrArg (fun x => x.1.nextId) h :)
  have hwho : t.whoOf = s.whoOf := by
    funext g b
    simp only [State.whoOf, State.team_of_outside h]
  have hhost : { t.host with rings := [] } = { s.host with rings := [] } := (congrArg (fun x => x.1.host) h :)
  have hrings : (fun n => if n = 1 then {} else t.host.ring n) = fun n => if n = 1 then {} else s.host.ring n := (congrArg (fun x => x.2.2) h :)
  have hcells : (fun c i => (t.core c).cell i) = fun c i => (s.core c).cell i := funext fun c => funext fun i => State.cell_of_outside h c i
  rw [State.kept, State.kept, hactor, hnext, hwho, State.groups_of_outside h, hhost, hrings, hcells]

section
variable {s t : State} (h : t.kept = s.kept)
include h

theorem State.actor_of_kept : t.actor = s.actor := (congrArg (fun x => x.1.1) h :)
theorem State.nextId_of_kept : t.nextId = s.nextId := (congrArg (fun x => x.1.2.1) h :)
theorem State.groups_of_kept : t.groups = s.groups := (congrArg (fun x => x.1.2.2.1) h :)
theorem State.whoOf_of_kept : t.whoOf = s.whoOf := (congrArg (fun x => x.1.2.2.2) h :)
theorem State.host_of_kept : { t.host with rings := [] } = { s.host with rings := [] } := (congrArg (fun x => x.2.1) h :)
theorem State.cell_of_kept (c i : Nat) : (t.core c).cell i = (s.core c).cell i := (congrArg (fun x => x.2.2.2 c i) h :)

theorem State.ring_of_kept {n : Nat} (hn : n ≠ 1) : t.host.ring n = s.host.ring n := by
  have hring := congrArg (fun x => x.2.2.1 n) h
  simp only [State.kept, if_neg hn] at hring
  exact hring

end

/-- A change of the state that leaves these. -/
def Keeps (f : State → State) : Prop := ∀ s, (f s).kept = s.kept

theorem Keeps.comp {f g : State → State} (hf : Keeps f) (hg : Keeps g) : Keeps fun s => f (g s) := fun s => (hf _).trans (hg s)

theorem Keeps.foldl {α : Type} {f : State → α → State} (h : ∀ a, Keeps fun s => f s a) (l : List α) : Keeps fun s => l.foldl f s :=
  foldl_view State.kept f (fun s a => h a s) l

theorem keeps_onCore (c : Nat) (f : Core → Core) (h : ∀ k i, (f k).cell i = k.cell i) : Keeps fun s => s.onCore c f := fun s => by
  refine Prod.ext rfl (Prod.ext rfl (Prod.ext rfl (funext fun j => funext fun i => ?_)))
  by_cases hj : j = c
  · subst hj
    exact (congrArg (fun k : Core => k.cell i) (State.core_onCore ..)).trans (h _ i)
  · exact congrArg (fun k : Core => k.cell i) (State.core_onCore_ne s f hj)

theorem State.kept_withL1 (s : State) (c : Nat) (l : List L1Write) : (s.setCore c ((s.core c).withL1 l)).kept = s.kept :=
  keeps_onCore c (fun k => k.withL1 l) (fun _ _ => rfl) s

/-- A core with another share of the TLB. -/
def Core.onTlb (f : List TlbEntry → List TlbEntry) (k : Core) : Core := { k with tlb := f k.tlb }

theorem keeps_onTlb (c : Nat) (f : List TlbEntry → List TlbEntry) : Keeps fun s => s.onCore c (Core.onTlb f) := keeps_onCore c _ fun _ _ => rfl

theorem keeps_drainRange (c lo n : Nat) : Keeps fun s => s.drainRange c lo n := fun s =>
  (State.kept_of_outside (State.landed_outside s c _ _)).trans (State.kept_withL1 ..)

theorem keeps_dropTags (cs : List Nat) (lo n : Nat) : Keeps fun s => s.dropTags cs lo n := fun _ => rfl

theorem keeps_dropClashes (core : Nat) (e : TlbEntry) (c : Nat) (tlb : List TlbEntry) : Keeps fun s => s.dropClashes core e c tlb := by
  have hrange : ∀ c', Keeps fun s : State => (tlb.filter e.clashes).foldl (fun s x => s.drainRange c' x.frame x.bytes) s := fun c' =>
    Keeps.foldl (fun x : TlbEntry => keeps_drainRange c' x.frame x.bytes) (tlb.filter e.clashes)
  have hdrain : Keeps fun s : State =>
      (plotCores (plotOf core)).foldl (fun s c' => (tlb.filter e.clashes).foldl (fun s x => s.drainRange c' x.frame x.bytes) s) s :=
    Keeps.foldl hrange (plotCores (plotOf core))
  have hdrop : Keeps fun s : State => (tlb.filter e.clashes).foldl (fun s x => s.dropTags (plotCores (plotOf core)) x.frame x.bytes) s :=
    Keeps.foldl (fun x : TlbEntry => keeps_dropTags (plotCores (plotOf core)) x.frame x.bytes) (tlb.filter e.clashes)
  intro s
  dsimp only
  unfold State.dropClashes
  split
  · exact (keeps_onTlb c fun l => l.filter fun x => !e.clashes x).comp (hdrop.comp hdrain) s
  · rfl

theorem keeps_tlbFill (c : Nat) (e : TlbEntry) : Keeps fun s => s.tlbFill c e := by
  have hcores : Keeps fun s : State => (plotCores (plotOf c)).foldl (fun s c' => s.dropClashes c e c' (s.core c').tlb) s :=
    Keeps.foldl (fun c' s => keeps_dropClashes c e c' _ s) (plotCores (plotOf c))
  simp only [State.tlbFill_eq]
  exact (keeps_onTlb c fun l => (e :: l.filter fun x => !(x.ctx == e.ctx && x.page == e.page)).take 512).comp hcores

theorem keeps_pteOr (addr mask : Nat) : Keeps fun s => s.pteOr addr mask := fun _ => State.kept_of_outside (State.writeHome_outside ..)

theorem keeps_install (p : Nat) (a : Access) : Keeps fun s => s.install p a := fun _ => State.kept_of_outside (State.install_outside ..)

theorem keeps_filled (core ctx va : Nat) (write : Bool) (hit : Option TlbEntry) (walk : Walk) (entries : List Nat) :
    Keeps fun s => s.filled core ctx va write hit walk entries := by
  unfold State.filled
  cases hit with
  | some e =>
    dsimp only
    split
    · cases walk with
      | leaf addr _ _ => exact (keeps_tlbFill core _).comp (keeps_pteOr addr _)
      | missing => exact keeps_tlbFill core _
      | malformed => exact keeps_tlbFill core _
    · exact Keeps.foldl (fun c => keeps_onCore c _ fun k i => by split <;> rfl) (plotCores (plotOf core))
  | none =>
    cases walk with
    | leaf addr level q => exact (keeps_tlbFill core _).comp ((keeps_pteOr addr _).comp (Keeps.foldl (fun a => keeps_install a {}) entries))
    | missing => exact fun _ => rfl
    | malformed => exact fun _ => rfl

theorem keeps_touch (who : Who) (va : Nat) (k : AccKind) : Keeps fun s => s.touch who va k := by
  unfold State.touch
  split
  · exact fun _ => rfl
  · exact fun s => by
      dsimp only
      rw [State.walkFill_eq]
      exact keeps_filled _ _ _ _ _ _ _ s

theorem keeps_touchLanes (who : Who) (addrs : List (Nat × Nat)) (k : AccKind) : Keeps fun s => s.touchLanes who addrs k :=
  Keeps.foldl (fun a : Nat × Nat => keeps_touch who a.2 k) addrs

theorem keeps_versionLine (team line : Nat) : Keeps fun s => s.versionLine team line := by
  intro s
  dsimp only
  unfold State.versionLine
  split
  · rfl
  · have hteam : ∀ t, ((s.onTeam team fun t => { t with vcount := t.vcount + 1 }).team t).ctx = (s.team t).ctx ∧
        ((s.onTeam team fun t => { t with vcount := t.vcount + 1 }).team t).ptroot = (s.team t).ptroot ∧
        ((s.onTeam team fun t => { t with vcount := t.vcount + 1 }).team t).ftpool = (s.team t).ftpool := fun t => by
      unfold State.onTeam State.team NMap.get
      dsimp only
      by_cases ht : t = team
      · subst ht
        rw [NMap.find_changeIf_self]
        cases NMap.find s.teams t <;> exact ⟨rfl, rfl, rfl⟩
      · rw [NMap.find_changeIf_ne _ _ ht]
        exact ⟨rfl, rfl, rfl⟩
    have hwho : (s.onTeam team fun t => { t with vcount := t.vcount + 1 }).whoOf = s.whoOf := by
      funext g b
      obtain ⟨hctx, hroot, hpool⟩ := hteam g.team
      simp only [State.whoOf, hctx, hroot, hpool]
    exact Prod.ext (Prod.ext rfl (Prod.ext rfl (Prod.ext rfl hwho))) rfl

theorem keeps_reserveVersions (g : Group) (places : List (Nat × Nat)) : Keeps fun s => s.reserveVersions g places := by
  unfold State.reserveVersions
  split
  · exact Keeps.foldl (fun l => keeps_versionLine g.team l) _
  · exact fun _ => rfl

/-! ### The stream after its translations -/

/-- A stream with its core as a state has it. -/
def Env.at (e : Env) (s1 : State) : Env := { e with core := s1.core e.g.core }

section
variable {s s1 : State} {e : Env} (h : Ready s e) (hkept : s1.kept = s.kept)
include h hkept

/-- The stream may still issue. -/
theorem Ready.at : Ready s1 (e.at s1) := by
  obtain ⟨hg, hmay, hgid, hsrc, hslot, -, hwho, hhints⟩ := State.env?_some h.env
  have hactor : s1.actor = s.actor := State.actor_of_kept hkept
  have hgroups : s1.groups = s.groups := State.groups_of_kept hkept
  have hwhoOf : s1.whoOf = s.whoOf := State.whoOf_of_kept hkept
  have hg1 : s1.group? e.gid = some e.g := by rw [State.group?, hgroups]; exact hg
  refine ⟨?_, h.windows⟩
  rw [State.env?, State.envAt, hactor, ← hgid, ← hsrc, hg1]
  dsimp only
  rw [if_pos hmay, hwhoOf, ← hwho, ← hslot, ← hhints]
  rfl

/-- A new attempt at the instruction, after its translations. -/
theorem Before.translated : Before s1 (s1.withGroups (s.clearWait e).groups) (e.at s1) e.fresh.g.keys e.fresh.g.ctrs e.fresh.g.flight e.fresh.g.defers where
  group := (State.env?_some (State.env?_clearWait h.env)).1
  groups k hk := by
    have hgroups : s1.groups = s.groups := State.groups_of_kept hkept
    have hothers := (sameBut_clearWait s e).groups k hk
    rw [State.group?, State.group?] at hothers
    rw [State.group?, State.group?, hgroups]
    exact hothers
  cores _ _ := rfl
  memories := ⟨rfl, rfl, rfl, rfl, rfl, rfl, rfl⟩
  package := rfl

end

/-! ### An operation launched -/

/-- A memory instruction that has put an operation in flight, with or without a window behind it, is done. -/
theorem launches_of_before {s1 st : State} {e : Env} {p : Path} {w : Work} {regs : List (List Nat × Nat)} (h : Ready s1 e)
    (hfresh : ∀ x ∈ e.g.defers, x.op < s1.nextId)
    (hb : Before s1 st e e.fresh.g.keys e.fresh.g.ctrs (e.fresh.g.flight ++ [⟨s1.nextId, p, e.src, false, w⟩])
      (e.fresh.g.defers ++ regs.map fun r => ⟨s1.nextId, e.src, r.2, r.1, none, []⟩))
    (hcore : (st.core e.g.core).rest = e.core.rest)
    (hcells : ∀ i, (st.core e.g.core).cell i = e.core.cell i ∧ (st.core e.g.core).cellPoison i = e.core.cellPoison i) :
    Launches s1 (st.retire e.fresh) e p w regs := by
  obtain ⟨-, -, -, -, -, hcore1, -⟩ := State.env?_some h.env
  have hnew : (regs.map fun r => (⟨s1.nextId, e.src, r.2, r.1, none, []⟩ : Deferred)).map e.fresh.counts =
      regs.map fun r => ⟨s1.nextId, e.src, r.2, r.1, none, []⟩ := by
    refine (List.map_map ..).trans (List.map_congr_left fun r _ => if_neg ?_)
    rw [Env.fresh_gdefers, Bool.and_eq_true, List.any_eq_true]
    rintro ⟨-, x, hx, hop⟩
    exact absurd (hfresh x hx) (by rw [beq_iff_eq.1 hop]; exact Nat.lt_irrefl _)
  have hdefers : (e.fresh.g.defers ++ regs.map fun r => (⟨s1.nextId, e.src, r.2, r.1, none, []⟩ : Deferred)).map e.fresh.counts =
      e.g.defers.map e.lowered ++ regs.map fun r => ⟨s1.nextId, e.src, r.2, r.1, none, []⟩ := by
    rw [List.map_append, Env.fresh_gdefers, Env.map_counts_defers, hnew]
  obtain ⟨hleaves, hgroup, -⟩ := hb.retire (x := { group := fun g => { g with flight := [], defers := [] }, state := fun s => { s with nextId := 0 } }) h
    (fun d hd => by
      rcases List.mem_append.1 hd with hold | hmade
      · rw [Env.fresh_gdefers] at hold
        exact h.lowered_awaits d hold
      · obtain ⟨r, -, rfl⟩ := List.mem_map.1 hmade
        exact Or.inl rfl)
    (congrArg (fun x : State => { x with nextId := 0 }) hb.package :) hcore (fun i _ => hcells i) fun g hg => by
      have hunits : g.rest.keys = e.g.keys ∧ g.rest.ctrs = e.g.ctrs := by
        rw [hg]
        exact ⟨rfl, rfl⟩
      obtain ⟨hkeys, hctrs⟩ := hunits
      rw [Env.fresh_gkeys, Env.fresh_gctrs, ← hkeys, ← hctrs]
      rfl
  have hat : { e with core := s1.core e.g.core } = e := by rw [← hcore1]
  refine ⟨?_, _, hgroup, ?_, ?_, hdefers⟩
  · rw [LeavesAfter, hat]
    exact hleaves
  · show List.map _ (e.fresh.g.flight ++ _) = _
    rw [List.map_append, Env.fresh_gflight]
    rfl
  · show (e.fresh.g.flight ++ _).getLast? = _
    rw [List.getLast?_append, List.getLast?_singleton]
    rfl

end Sys2Proof.Machine
end

section
/-! LD, LDA and ST (R140 to R144): checked addresses put an operation in flight, and nothing else changes. -/

namespace Sys2Proof.Machine

section
variable {s s1 : State} {e : Env} (h : Ready s e) (hkept : s1.kept = s.kept) (hold : ∀ x ∈ e.g.defers, x.op < s.nextId)
include h hkept hold

/-- An operation in flight without a window. -/
theorem launches_launchOp (p : Path) (w : Work) :
    Launches s1 (((s1.withGroups (s.clearWait e).groups).launchOp e.gid p e.src w).1.retire e.fresh) e p w [] := by
  have hnext : s1.nextId = s.nextId := State.nextId_of_kept hkept
  have hb := (Before.translated h hkept).launchOp p e.src w
  refine launches_of_before (e := e.at s1) (regs := []) (h.at hkept) (by rw [hnext]; exact hold) ?_ rfl fun _ => ⟨rfl, rfl⟩
  rw [List.map_nil, List.append_nil]
  exact hb

/-- An operation in flight behind a window. -/
theorem launches_openWindow (p : Path) (w : Work) (n : Nat) (regs : List Nat) :
    Launches s1 ((((s1.withGroups (s.clearWait e).groups).launchOp e.gid p e.src w).1.openWindow e.gid s1.nextId e.src n regs).retire e.fresh) e p w
      [(regs, n)] := by
  have hnext : s1.nextId = s.nextId := State.nextId_of_kept hkept
  have hb := (Before.translated h hkept).launchOp p e.src w
  have hcore : (((s1.withGroups (s.clearWait e).groups).launchOp e.gid p e.src w).1.openWindow e.gid s1.nextId e.src n regs).core (e.at s1).g.core =
      { s1.core e.g.core with wrote := NMap.put (s1.core e.g.core).wrote e.g.pipe { op := some s1.nextId, fresh := true } } :=
    (congrArg (fun st : State => st.core e.g.core) (State.openWindow_eq hb s1.nextId e.src n regs)).trans (State.core_onCore ..)
  exact launches_of_before (e := e.at s1) (regs := [(regs, n)]) (h.at hkept) (by rw [hnext]; exact hold) (hb.openWindow s1.nextId e.src n regs) (by rw [hcore]; rfl) fun i => by
    rw [hcore]; exact ⟨rfl, rfl⟩

end

section
variable {s : State} {e : Env}

/-- A ready stream's word whose form closes no window is carried out in an opened state. -/
theorem Ready.opened (h : Ready s e) : Opened s (s.clearWait e) e where
  env := State.env?_clearWait h.env
  group := (State.env?_some (State.env?_clearWait h.env)).1
  groups := (sameBut_clearWait s e).groups
  cores _ := rfl
  package := rfl

theorem clearWait_eq (s : State) (e : Env) : s.clearWait e = s.withGroups (s.clearWait e).groups := rfl

theorem clearWait_alike (s : State) (e : Env) : Alike s.groups (s.clearWait e).groups :=
  alike_changeIf _ _ fun g => Group.told_setSlot g _ _

theorem checkLanes_clearWait (who : Who) (addrs : List (Nat × Nat)) (n align : Nat) (k : AccKind) :
    (s.clearWait e).checkLanes who addrs n align k = s.checkLanes who addrs n align k :=
  State.checkLanes_alike s (clearWait_alike s e) who addrs n align k

theorem touchLanes_clearWait (who : Who) (addrs : List (Nat × Nat)) (k : AccKind) :
    (s.clearWait e).touchLanes who addrs k = (s.touchLanes who addrs k).withGroups (s.clearWait e).groups :=
  (blind_touchLanes who addrs k).commutes s _ (clearWait_alike s e)

@[simp] theorem Env.fresh_addresses (e : Env) (b : Nat) (ls : List Nat) : e.fresh.addresses b ls = e.addresses b ls := by
  simp [Env.addresses, Env.offset]

@[simp] theorem Env.fresh_acquireHeld (e : Env) : e.fresh.acquireHeld = e.acquireHeld := by simp [Env.acquireHeld]

@[simp] theorem Env.fresh_counter (e : Env) (p : Path) : e.fresh.g.counter p = e.g.counter p := by simp [Group.counter]

@[simp] theorem Env.fresh_room (e : Env) (p : Path) : e.fresh.room p = e.room p := by rw [Env.room, Env.room, Env.fresh_counter]

@[simp] theorem Env.fresh_laneAcc (e : Env) (d : Nat) : e.fresh.laneAcc d = e.laneAcc d := by
  funext a
  simp [Env.laneAcc]

theorem Env.active_lanes (e : Env) (p : Nat) : ∀ l ∈ e.active p, l ∈ e.lanes := fun _ hl => List.mem_of_mem_filter hl

/-- A stream that runs program words and has its word checked is not the access stream. -/
theorem Fits.src_ne_access {f : Form} {i : Instr} (hf : Fits e f i) (hruns : f.runs ≠ .stream) : e.src ≠ .access := by
  have hstream := (Env.formTrap_none hf.form).1
  intro hsrc
  revert hstream hruns
  cases hform : f.runs <;> simp [Env.streamTrap, hform, hsrc]

/-- What a load does once its base and its addresses are good. -/
theorem loadOp_answers (h : Ready s e) {i : Instr} {la d b p w : Nat} (acquire : Option Nat)
    (hf : Fits e { accepts := { neg := true, cache := true, offset := true }, guard := some p, regs := [d, b] } i) {places : List (Nat × Nat × Nat)}
    (hplaces : s.checkLanes e.who (e.addresses b (e.active p)) (2 ^ (w % 4)) (2 ^ (w % 4)) .read = .ok places) (hclean : e.Clean b) :
    loadOp i la d b p w acquire s = .next (if !e.room .ld || e.acquireHeld then (s.clearWait e).stall e.fresh else
      (((((s.touchLanes e.who (e.addresses b (e.active p)) .read).withGroups (s.clearWait e).groups).launchOp e.gid .ld e.src
        (.load (2 ^ (w % 4)) (decide (4 ≤ w)) (places.map (e.laneAcc d)) acquire (e.hints.cache.getD 0))).1.openWindow e.gid
          (s.touchLanes e.who (e.addresses b (e.active p)) .read).nextId e.src la [e.reg d]).retire e.fresh)) := by
  have hpoison : e.poisonTrap (e.reads b (e.active p)) = none := Env.poisonTrap_none_of_readsClean (Env.ReadsClean.lanes hclean (e.active_lanes p))
  rw [loadOp, State.issue_of_ready h rfl rfl rfl hf]
  cases hwait : !e.room .ld || e.acquireHeld <;>
  simp only [Env.fresh_active, Env.fresh_addresses, Env.fresh_reads, Env.fresh_poisonTrap, hpoison, Env.fresh_who, checkLanes_clearWait, hplaces,
    Env.fresh_room, Env.fresh_acquireHeld, Env.fresh_laneAcc, Env.fresh_gid, Env.fresh_src, Env.fresh_hints, Env.fresh_reg, touchLanes_clearWait, hwait] <;> rfl

theorem loadOp_launches (h : Ready s e) (hold : ∀ x ∈ e.g.defers, x.op < s.nextId) {i : Instr} {la d b p w : Nat} (acquire : Option Nat)
    (hf : Fits e { accepts := { neg := true, cache := true, offset := true }, guard := some p, regs := [d, b] } i) {places : List (Nat × Nat × Nat)}
    (hplaces : s.checkLanes e.who (e.addresses b (e.active p)) (2 ^ (w % 4)) (2 ^ (w % 4)) .read = .ok places) (hclean : e.Clean b)
    (hexec : exec i s = loadOp i la d b p w acquire s) :
    (e.g.counter .ld < 63 → e.acquireHeld = false → ∃ t, exec i s = .next t ∧ Launches (s.touchLanes e.who (e.addresses b (e.active p)) .read) t e .ld
      (.load (2 ^ (w % 4)) (decide (4 ≤ w)) (places.map (e.laneAcc d)) acquire (e.hints.cache.getD 0)) [([e.reg d], la)]) ∧
    (63 ≤ e.g.counter .ld ∨ e.acquireHeld = true → Stalls i s e) := by
  rw [loadOp_answers h acquire hf hplaces hclean] at hexec
  refine ⟨fun hroom hheld => ⟨_, hexec, ?_⟩, fun hfull => ?_⟩
  · rw [if_neg (by simp [Env.room, hroom, hheld])]
    exact launches_openWindow h (keeps_touchLanes _ _ _ s) hold .ld _ la [e.reg d]
  · rw [if_pos (by rcases hfull with hcounter | hheld <;> simp [Env.room, *])] at hexec
    obtain ⟨⟨g, hg, hlife, hpc, hhints, hmask, hpreds⟩, hgroups, hcores, -⟩ := h.opened.stalled h.env (hf.src_ne_access nofun)
    exact ⟨_, g, hexec, hg, hlife, hpc, hhints, hmask, hpreds, fun c i => by rw [hcores], hgroups⟩

end

/-- Settles O24: both loads put their lanes in flight or wait. -/
theorem loadIssue : Obligations.LoadIssue := by
  unfold Obligations.LoadIssue
  intro s e l d b p w c h hold n addrs form places hplaces hclean launches
  exact ⟨fun hf => loadOp_launches h hold none hf hplaces hclean rfl, fun hf => loadOp_launches h hold (some c.toNat) hf hplaces hclean rfl⟩

/-! ### ST (R144) -/

section
variable {s : State} {e : Env}

theorem Env.ReadsClean.halves {r : Nat} (h : e.Clean r) {ls : List Nat} (hls : ∀ l ∈ ls, l ∈ e.lanes) (b : BitVec 2) : e.ReadsClean (e.reads r ls b) := by
  refine Env.readsClean_of_cells fun x hx => ?_
  obtain ⟨l, hl, hx⟩ := List.mem_flatMap.1 hx
  obtain ⟨k, hk, rfl⟩ := List.mem_map.1 hx
  exact ⟨h, k, hk, l, hls l hl, rfl⟩

/-- What the lanes of a new access reach does not depend on their operands or registers. -/
theorem spans_of_places (places : List (Nat × Nat × Nat)) (n : Nat) {f g : Nat × Nat × Nat → LaneAcc}
    (h : ∀ x, (f x).image = (g x).image ∧ (f x).place = (g x).place) :
    ((places.map f).filter fun a => !a.image).map (fun a => (a.place, n)) = ((places.map g).filter fun a => !a.image).map fun a => (a.place, n) := by
  rw [List.filter_map, List.filter_map, List.map_map, List.map_map]
  have hfilter : ((fun a : LaneAcc => !a.image) ∘ f) = (fun a : LaneAcc => !a.image) ∘ g := funext fun x => congrArg (!·) (h x).1
  rw [hfilter]
  exact List.map_congr_left fun x _ => congrArg (·, n) (h x).2

/-- A store with good sources and addresses is in flight (R144). -/
theorem store_answers (h : Ready s e) {i : Instr} {r b p n : Nat}
    (hf : Fits e { accepts := { neg := true, cache := true, offset := true }, guard := some p, regs := [r, b] } i) {places : List (Nat × Nat × Nat)}
    (hplaces : s.checkLanes e.who (e.addresses b (e.active p)) n n .write = .ok places) (hr : e.Clean r) (hb : e.Clean b)
    (hprot : e.g.prot = true → ∀ l ∈ e.active p, e.val 0 b l = e.val 1 b l ∧ e.pairDiffers r (lowMask n) l = false)
    (hover : e.overflowTrap s (e.addresses b (e.active p)) (((places.map (e.laneAcc 0)).filter fun a => !a.image).map fun a => (a.place, n)) = none)
    (hroom : e.g.counter .st < 63) (hheld : e.acquireHeld = false) :
    storeOp i r b p n none s = .next (((((s.touchLanes e.who (e.addresses b (e.active p)) .write).reserveVersions e.g
      (((places.map (e.laneAcc 0)).filter fun a => !a.image).map fun a => (a.place, n))).withGroups (s.clearWait e).groups).launchOp e.gid .st e.src
        (.store n none (e.hints.cache.getD 0) (places.map fun y => { e.laneAcc r y with operand := e.val 0 r y.1 &&& lowMask n }))).1.retire e.fresh) := by
  have hpoison : e.poisonTrap (e.reads r (e.active p) (if n = 8 then 3 else 1) ++ e.reads b (e.active p)) = none :=
    Env.poisonTrap_none_of_readsClean ((Env.ReadsClean.halves hr (e.active_lanes p) _).append (Env.ReadsClean.lanes hb (e.active_lanes p)))
  have hsilent : e.silentTrap (e.active p) (fun l => e.pairDiffers b (BitVec.allOnes 64) l || e.pairDiffers r (lowMask n) l) = none :=
    Env.silentTrap_none fun hp l hl => by
      obtain ⟨hbase, hsource⟩ := hprot hp l hl
      rw [Env.pairDiffers_of_eq hbase, hsource, Bool.or_self]
  have hwait : (!e.room .st || e.acquireHeld) = false := by simp [Env.room, hroom, hheld]
  have hoverflow : e.fresh.overflowTrap (s.clearWait e) (e.addresses b (e.active p))
      (((places.map (e.laneAcc 0)).filter fun a => !a.image).map fun a => (a.place, n)) = none := by
    rw [← hover]
    unfold Env.overflowTrap
    rw [Env.fresh_gversioned, Env.fresh_gteam]
    rfl
  have hspans := spans_of_places places n (f := fun y => { e.laneAcc r y with operand := e.val 0 r y.1 &&& lowMask n }) (g := e.laneAcc 0)
    fun _ => ⟨rfl, rfl⟩
  have hreserve : ((s.touchLanes e.who (e.addresses b (e.active p)) .write).withGroups (s.clearWait e).groups).reserveVersions e.fresh.g
      (((places.map (e.laneAcc 0)).filter fun a => !a.image).map fun a => (a.place, n)) =
      ((s.touchLanes e.who (e.addresses b (e.active p)) .write).reserveVersions e.g
        (((places.map (e.laneAcc 0)).filter fun a => !a.image).map fun a => (a.place, n))).withGroups (s.clearWait e).groups := by
    rw [← (blind_reserveVersions e.g _).commutes _ _ (by rw [(blind_touchLanes ..).groups]; exact clearWait_alike s e), State.reserveVersions,
      State.reserveVersions, Env.fresh_gversioned, Env.fresh_gteam]
  rw [storeOp, State.issue_of_ready h rfl rfl rfl hf]
  simp only [Env.fresh_active, Env.fresh_addresses, Env.fresh_reads, Env.fresh_poisonTrap, hpoison, Env.fresh_silentTrap, Env.fresh_pairDiffers,
    hsilent, firstTrap, Env.fresh_who, checkLanes_clearWait, hplaces, Env.fresh_laneAcc, hoverflow, Env.fresh_room, Env.fresh_acquireHeld, hwait,
    Env.fresh_val, hspans, touchLanes_clearWait, hreserve, Env.fresh_gid, Env.fresh_src, Env.fresh_hints]
  rfl

end

/-- Settles O26: a store with good sources and addresses is in flight. -/
theorem storeResults : Obligations.StoreResults := by
  unfold Obligations.StoreResults
  intro s e r b p w h hold hf n addrs places hplaces hr hb hprot lines hover hroom hheld s1
  have hkept : s1.kept = s.kept := ((keeps_reserveVersions e.g lines).comp (keeps_touchLanes e.who addrs .write)) s
  exact ⟨_, store_answers h hf hplaces hr hb hprot hover hroom hheld, launches_launchOp h hkept hold .st _⟩

end Sys2Proof.Machine
end

section
/-! What a core sees of memory as its L1 drains, takes writes, and writes at homes (R317, R347 to R351). -/

namespace Sys2Proof.Machine

/-! ### Bytes of waiting writes -/

theorem l1Byte_singleton (y : Nat) (w : L1Write) :
    l1Byte y [w] = if w.place ≤ y ∧ y < w.place + w.bytes.length then some (w.bytes.getD (y - w.place) 0) else none := rfl

theorem l1Byte_cons (y : Nat) (w : L1Write) (l : List L1Write) : l1Byte y (w :: l) = (l1Byte y l).or (l1Byte y [w]) := by
  rw [l1Byte_singleton, l1Byte]
  cases l1Byte y l <;> rfl

theorem l1Byte_append (y : Nat) (l k : List L1Write) : l1Byte y (l ++ k) = (l1Byte y k).or (l1Byte y l) := by
  induction l with
  | nil => exact Option.or_none.symm
  | cons w l ih => rw [List.cons_append, l1Byte_cons, ih, l1Byte_cons y w l, Option.or_assoc]

/-- Of a waiting write, a drain of a range takes the bytes in the range. -/
theorem l1Byte_within (w : L1Write) (lo hi y : Nat) :
    l1Byte y (w.within lo hi) = if lo ≤ y ∧ y < hi then l1Byte y [w] else none := by
  unfold L1Write.within
  split
  · rw [l1Byte_singleton, l1Byte_singleton]
    simp only [List.length_drop, List.length_take]
    by_cases hin : lo ≤ y ∧ y < hi
    · by_cases hw : w.place ≤ y ∧ y < w.place + w.bytes.length
      · rw [if_pos hin, if_pos hw, if_pos (by omega), List.getD_eq_getElem?_getD, List.getD_eq_getElem?_getD, List.getElem?_drop,
          List.getElem?_take_of_lt (by omega), show lo - w.place + (y - max w.place lo) = y - w.place by omega]
      · rw [if_pos hin, if_neg hw, if_neg (by omega)]
    · rw [if_neg hin, if_neg (by omega)]
  · rw [l1Byte_singleton]
    split
    · rw [if_neg (by omega)]; rfl
    · rfl

/-- It leaves the bytes beside the range. -/
theorem l1Byte_beside (w : L1Write) {lo hi : Nat} (h : lo ≤ hi) (y : Nat) :
    l1Byte y (w.beside lo hi) = if lo ≤ y ∧ y < hi then none else l1Byte y [w] := by
  unfold L1Write.beside
  split
  · rw [l1Byte_append]
    have hleft : l1Byte y (if w.place < lo then [{ w with bytes := w.bytes.take (lo - w.place) }] else []) =
        if y < lo then l1Byte y [w] else none := by
      split
      · rw [l1Byte_singleton, l1Byte_singleton]
        simp only [List.length_take]
        by_cases hy : y < lo
        · by_cases hw : w.place ≤ y ∧ y < w.place + w.bytes.length
          · rw [if_pos hy, if_pos hw, if_pos (by omega), List.getD_eq_getElem?_getD, List.getD_eq_getElem?_getD, List.getElem?_take_of_lt (by omega)]
          · rw [if_pos hy, if_neg hw, if_neg (by omega)]
        · rw [if_neg hy, if_neg (by omega)]
      · rw [l1Byte_singleton]
        split
        · rw [if_neg (by omega)]; rfl
        · rfl
    have hright : l1Byte y (if hi < w.place + w.bytes.length then [{ w with place := hi, bytes := w.bytes.drop (hi - w.place) }] else []) =
        if hi ≤ y then l1Byte y [w] else none := by
      split
      · rw [l1Byte_singleton, l1Byte_singleton]
        simp only [List.length_drop]
        by_cases hy : hi ≤ y
        · by_cases hw : y < w.place + w.bytes.length
          · rw [if_pos hy, if_pos (by omega), if_pos (by omega), List.getD_eq_getElem?_getD, List.getD_eq_getElem?_getD, List.getElem?_drop,
              show hi - w.place + (y - hi) = y - w.place by omega]
          · rw [if_pos hy, if_neg (by omega), if_neg (by omega)]
        · rw [if_neg hy, if_neg (by omega)]
      · rw [l1Byte_singleton]
        split
        · rw [if_neg (by omega)]; rfl
        · rfl
    rw [hleft, hright]
    by_cases hlo : y < lo
    · rw [if_pos hlo, if_neg (by omega), if_neg (by omega), Option.none_or]
    · by_cases hhi : hi ≤ y
      · rw [if_neg hlo, if_pos hhi, if_neg (by omega), Option.or_none]
      · rw [if_neg hlo, if_neg hhi, if_pos (by omega), Option.or_none]
  · rw [l1Byte_singleton]
    split
    · rw [if_neg (by omega)]
    · exact (ite_self none).symm

theorem l1Byte_flatMap_within (l : List L1Write) (lo hi y : Nat) :
    l1Byte y (l.flatMap fun w => w.within lo hi) = if lo ≤ y ∧ y < hi then l1Byte y l else none := by
  induction l with
  | nil => exact (ite_self none).symm
  | cons w l ih =>
    rw [List.flatMap_cons, l1Byte_append, ih, l1Byte_within, l1Byte_cons y w l]
    split <;> rfl

theorem l1Byte_flatMap_beside (l : List L1Write) {lo hi : Nat} (h : lo ≤ hi) (y : Nat) :
    l1Byte y (l.flatMap fun w => w.beside lo hi) = if lo ≤ y ∧ y < hi then none else l1Byte y l := by
  induction l with
  | nil => exact (ite_self none).symm
  | cons w l ih =>
    rw [List.flatMap_cons, l1Byte_append, ih, l1Byte_beside w h, l1Byte_cons y w l]
    split <;> rfl

/-! ### Writes reach their homes -/

/-- A byte that L2 holds, where it lies in adobe space. -/
def State.Held (s : State) (y : Nat) : Prop := isAdobe y = true → (NMap.find s.l2 y).isSome = true

/-- A byte that a core's L1 or L2 holds, where it lies in adobe space. -/
def State.Present (s : State) (c y : Nat) : Prop := isAdobe y = true → (l1Byte y (s.core c).l1).isSome = true ∨ (NMap.find s.l2 y).isSome = true

theorem State.present_of_not_isAdobe (s : State) (c : Nat) {y : Nat} (h : isAdobe y = false) : s.Present c y := fun ha => by rw [h] at ha; cases ha

theorem State.l2_eq_of_homeStore {s t : State} (h : t.homeStore = s.homeStore) : t.l2 = s.l2 := congrArg (fun x => x.2.1) h

theorem State.held_setHomeByte {s : State} {y : Nat} (h : s.Held y) (p : Nat) (b : Byte) : (s.setHomeByte p b).Held y := fun ha => by
  by_cases hp : y = p
  · subst hp
    rw [State.find_l2_setHomeByte_self s b ha]
    rfl
  · rw [State.find_l2_setHomeByte_ne s b hp]
    exact h ha

theorem State.held_setHomeRun {s : State} {y : Nat} (h : s.Held y) (place : Nat) (bytes : List Byte) : (s.setHomeRun place bytes).Held y := by
  induction bytes generalizing s place with
  | nil => exact h
  | cons b bytes ih => exact ih (State.held_setHomeByte h place b) (place + 1)

theorem State.held_setHomeRun_inside (s : State) (place : Nat) (bytes : List Byte) {y : Nat} (h : place ≤ y ∧ y < place + bytes.length) :
    (s.setHomeRun place bytes).Held y := by
  induction bytes generalizing s place with
  | nil => rw [List.length_nil] at h; omega
  | cons b bytes ih =>
    by_cases hy : y = place
    · subst hy
      exact State.held_setHomeRun (fun ha => by rw [State.find_l2_setHomeByte_self s b ha]; rfl) _ bytes
    · exact ih _ _ ⟨by omega, by rw [List.length_cons] at h; omega⟩

theorem State.held_of_homeStore {s t : State} (h : t.homeStore = s.homeStore) {y : Nat} (hy : s.Held y) : t.Held y := fun ha => by
  rw [State.l2_eq_of_homeStore h]
  exact hy ha

section
variable (s : State) (place : Nat) (bytes : List Byte) (bad : Bool) (a : Access) (k : Option Nat) {y : Nat}

theorem State.held_writeHome {s : State} (h : s.Held y) : (s.writeHome place bytes bad a k).Held y := by
  obtain ⟨s0, hs0, hrun⟩ := State.writeHome_homeStore s place bytes bad a k
  exact State.held_of_homeStore hrun (State.held_setHomeRun (State.held_of_homeStore hs0 h) place bytes)

theorem State.held_writeHome_inside (h : place ≤ y ∧ y < place + bytes.length) : (s.writeHome place bytes bad a k).Held y := by
  obtain ⟨s0, -, hrun⟩ := State.writeHome_homeStore s place bytes bad a k
  exact State.held_of_homeStore hrun (State.held_setHomeRun_inside s0 place bytes h)

theorem State.homeByte_writeHome_held {s : State} (hy : s.Held y) (h : y < place ∨ place + bytes.length ≤ y) :
    (s.writeHome place bytes bad a k).homeByte y = s.homeByte y := by
  obtain ⟨s0, hs0, hrun⟩ := State.writeHome_homeStore s place bytes bad a k
  rw [State.homeByte_eq_of_homeStore hrun, State.homeByte_setHomeRun_beside s0 place bytes h (State.held_of_homeStore hs0 hy),
    State.homeByte_eq_of_homeStore hs0]

theorem State.homeByte_writeHome_inside (h : place ≤ y ∧ y < place + bytes.length) :
    (s.writeHome place bytes bad a k).homeByte y = bytes.getD (y - place) 0 := by
  have hj : y - place < bytes.length := by omega
  have hbyte := State.homeByte_writeHome s place bytes bad a k hj
  rw [show place + (y - place) = y by omega] at hbyte
  rw [hbyte, List.getD_eq_getElem?_getD, List.getElem?_eq_getElem hj]
  rfl

end

/-- Writes of a core's L1, applied at their homes in order. -/
def State.land (s : State) (c : Nat) (ws : List L1Write) : State := ws.foldl (fun s w => s.landWrite c w) s

theorem State.land_homes (s : State) (c : Nat) (ws : List L1Write) {y : Nat}
    (h : isAdobe y = true → (l1Byte y ws).isSome = true ∨ (NMap.find s.l2 y).isSome = true) :
    (s.land c ws).homeByte y = (l1Byte y ws).getD (s.homeByte y) ∧ (s.land c ws).Held y := by
  induction ws generalizing s with
  | nil =>
    have hland : s.land c [] = s := rfl
    rw [hland, show l1Byte y [] = none from rfl, Option.getD_none]
    exact ⟨rfl, fun ha => (h ha).resolve_left nofun⟩
  | cons w ws ih =>
    show ((s.landWrite c w).land c ws).homeByte y = _ ∧ ((s.landWrite c w).land c ws).Held y
    rw [l1Byte_cons] at h ⊢
    cases hrest : l1Byte y ws with
    | some b =>
      rw [hrest] at ih
      rw [Option.some_or, Option.getD_some]
      obtain ⟨hbyte, hheld⟩ := ih (s.landWrite c w) fun _ => Or.inl Option.isSome_some
      exact ⟨hbyte, hheld⟩
    | none =>
      rw [hrest] at ih h
      rw [Option.none_or] at h ⊢
      rw [l1Byte_singleton] at h ⊢
      split
      · next hin =>
        obtain ⟨hbyte, hheld⟩ := ih (s.landWrite c w) fun ha => Or.inr (State.held_writeHome_inside s w.place w.bytes w.bad _ _ hin ha)
        exact ⟨hbyte.trans (State.homeByte_writeHome_inside s w.place w.bytes w.bad _ _ hin), hheld⟩
      · next hout =>
        rw [if_neg hout] at h
        have hs : s.Held y := fun ha => (h ha).resolve_left nofun
        obtain ⟨hbyte, hheld⟩ := ih (s.landWrite c w) fun ha => Or.inr (State.held_writeHome w.place w.bytes w.bad _ _ hs ha)
        exact ⟨hbyte.trans (State.homeByte_writeHome_held w.place w.bytes w.bad _ _ hs (by omega)), hheld⟩

/-! ### What a core sees -/

/-- A byte as its core sees it where no version line holds it. -/
def State.seen (s : State) (c y : Nat) : Byte := (l1Byte y (s.core c).l1).getD (s.homeByte y)

theorem State.viewByte_eq_seen (s : State) (c team : Nat) {y : Nat} (h : isChip y = false) :
    s.viewByte c team y = (s.versionByte team y).getD (s.seen c y) := by
  rw [State.viewByte, h, State.seen]
  cases s.versionByte team y with
  | some b => rfl
  | none => cases l1Byte y (s.core c).l1 <;> rfl

theorem State.homeStore_withL1 (s : State) (c : Nat) (l : List L1Write) : (s.setCore c ((s.core c).withL1 l)).homeStore = s.homeStore := by
  simp only [State.homeStore, Prod.mk.injEq]
  refine ⟨rfl, rfl, rfl, rfl, funext fun j => ?_⟩
  by_cases hj : j = c
  · subst hj
    rw [State.core_setCore]
    rfl
  · rw [State.core_setCore_ne _ _ hj]

/-- The writes that a core's L1 has given up have reached their homes, and others stay. -/
def State.split (s : State) (c : Nat) (gone left : List L1Write) : State := (s.setCore c ((s.core c).withL1 left)).land c gone

theorem State.split_outside (s : State) (c : Nat) (gone left : List L1Write) :
    (s.split c gone left).outside = (s.setCore c ((s.core c).withL1 left)).outside := State.landed_outside s c gone left

theorem State.split_l1 (s : State) (c : Nat) (gone left : List L1Write) : ((s.split c gone left).core c).l1 = left :=
  (State.l1_of_outside (State.split_outside s c gone left) c).trans (by rw [State.core_setCore]; rfl)

theorem State.split_seen (s : State) (c : Nat) {gone left : List L1Write} {y : Nat} (h : s.Present c y)
    (hsplit : l1Byte y (s.core c).l1 = (l1Byte y left).or (l1Byte y gone)) :
    (s.split c gone left).seen c y = s.seen c y ∧ (s.split c gone left).Present c y := by
  rw [State.Present, hsplit] at h
  rw [State.seen, State.seen, State.Present, State.split_l1, hsplit]
  cases hleft : l1Byte y left with
  | some b =>
    rw [Option.some_or, Option.getD_some, Option.getD_some]
    exact ⟨rfl, fun _ => Or.inl Option.isSome_some⟩
  | none =>
    rw [hleft, Option.none_or] at h
    obtain ⟨hbyte, hheld⟩ := State.land_homes (s.setCore c ((s.core c).withL1 left)) c gone h
    rw [State.homeByte_eq_of_homeStore (State.homeStore_withL1 ..)] at hbyte
    exact ⟨hbyte, fun ha => Or.inr (hheld ha)⟩

theorem State.drainRange_eq_split (s : State) (c lo n : Nat) : s.drainRange c lo n =
    s.split c ((s.core c).l1.flatMap fun w => w.within (lo / 128 * 128) ((lo + n + 127) / 128 * 128))
      ((s.core c).l1.flatMap fun w => w.beside (lo / 128 * 128) ((lo + n + 127) / 128 * 128)) := rfl

theorem State.drainAll_eq_split (s : State) (c : Nat) : s.drainAll c = s.split c (s.core c).l1 [] := rfl

theorem State.drainAll_seen (s : State) (c : Nat) {y : Nat} (h : s.Present c y) :
    (s.drainAll c).seen c y = s.seen c y ∧ (s.drainAll c).Present c y := State.split_seen s c h (Option.none_or ..).symm

theorem lines_le (lo n : Nat) : lo / 128 * 128 ≤ (lo + n + 127) / 128 * 128 := by omega

theorem State.drainRange_seen (s : State) (c lo n : Nat) {y : Nat} (h : s.Present c y) :
    (s.drainRange c lo n).seen c y = s.seen c y ∧ (s.drainRange c lo n).Present c y := by
  rw [State.drainRange_eq_split]
  refine State.split_seen s c h ?_
  rw [l1Byte_flatMap_within, l1Byte_flatMap_beside _ (lines_le lo n)]
  split
  · rw [Option.none_or]
  · rw [Option.or_none]

/-- Bytes of the lines of a range drained no longer wait. -/
theorem State.l1Byte_drainRange (s : State) (c lo n : Nat) (y : Nat) : l1Byte y ((s.drainRange c lo n).core c).l1 =
    if lo / 128 * 128 ≤ y ∧ y < (lo + n + 127) / 128 * 128 then none else l1Byte y (s.core c).l1 := by
  rw [State.drainRange_eq_split, State.split_l1, l1Byte_flatMap_beside _ (lines_le lo n)]

theorem State.versionByte_congr {s t : State} (h : t.versions = s.versions) (team y : Nat) : t.versionByte team y = s.versionByte team y := by
  simp only [State.versionByte, h]

theorem State.drainRange_versions (s : State) (c lo n : Nat) : (s.drainRange c lo n).versions = s.versions :=
  (congrArg (fun x => x.1.versions) (State.split_outside s c _ _) :)

end Sys2Proof.Machine
end

section
/-! Writes of a group without version lines: a write at a home or in the L1 is seen by its core, and every other byte is as before (R144,
R317, R347 to R351). -/

namespace Sys2Proof.Machine

/-! ### What writes leave unchanged -/

/-- The package outside its memories, but for the writes that wait in one core's L1. -/
def State.apart (s : State) (c : Nat) : State × (Nat → Core) × (Nat → Ring) :=
  (s.outside.1, fun j => if j = c then (s.core j).outside.withL1 [] else (s.core j).outside, s.outside.2.2)

theorem State.apart_of_outside {s t : State} (h : t.outside = s.outside) (c : Nat) : t.apart c = s.apart c := by
  refine Prod.ext (show t.outside.1 = s.outside.1 from congrArg Prod.fst h) (Prod.ext (funext fun j => ?_) (congrArg (fun x => x.2.2) h))
  have hcore : (t.core j).outside = (s.core j).outside := State.core_of_outside h j
  simp only [State.apart, hcore]

theorem State.onCore_apart (s : State) (c : Nat) (f : Core → Core) (h : ∀ k, (f k).outside.withL1 [] = k.outside.withL1 []) :
    (s.onCore c f).apart c = s.apart c := by
  refine Prod.ext rfl (Prod.ext (funext fun j => ?_) rfl)
  simp only [State.apart]
  by_cases hj : j = c
  · subst hj
    rw [if_pos rfl, if_pos rfl, State.core_onCore, h]
  · rw [if_neg hj, if_neg hj, State.core_onCore_ne _ _ hj]

theorem State.split_apart (s : State) (c : Nat) (gone left : List L1Write) : (s.split c gone left).apart c = s.apart c :=
  (State.apart_of_outside (State.split_outside s c gone left) c).trans (State.onCore_apart s c (fun k => k.withL1 left) fun _ => rfl)

section
variable {s t : State} {c : Nat} (h : t.apart c = s.apart c)
include h

theorem State.groups_of_apart : t.groups = s.groups := (congrArg (fun x => x.1.groups) h :)
theorem State.teams_of_apart : t.teams = s.teams := (congrArg (fun x => x.1.teams) h :)
theorem State.pins_of_apart : t.pins = s.pins := (congrArg (fun x => x.1.pins) h :)
theorem State.versions_of_apart : t.versions = s.versions := (congrArg (fun x => x.1.versions) h :)
theorem State.group?_of_apart (k : Nat) : t.group? k = s.group? k := by simp only [State.group?, State.groups_of_apart h]

theorem State.core_of_apart (j : Nat) : (t.core j).outside.withL1 [] = (s.core j).outside.withL1 [] := by
  have hj := congrArg (fun x => x.2.1 j) h
  simp only [State.apart] at hj
  split at hj
  · exact hj
  · rw [hj]

theorem State.core_of_apart_ne {j : Nat} (hj : j ≠ c) : (t.core j).outside = (s.core j).outside := by
  have hcore := congrArg (fun x => x.2.1 j) h
  simp only [State.apart, if_neg hj] at hcore
  exact hcore

end

/-! ### One write -/

/-- The writes that wait in a core's L1 are to HBM4E and host memory. -/
def State.OffChip (s : State) (c : Nat) : Prop := ∀ w ∈ (s.core c).l1, w.place + w.bytes.length ≤ chipBase

theorem l1Byte_eq_none {l : List L1Write} {y : Nat} (h : ∀ w ∈ l, y < w.place ∨ w.place + w.bytes.length ≤ y) : l1Byte y l = none := by
  induction l with
  | nil => rfl
  | cons w l ih =>
    have hw := h w List.mem_cons_self
    rw [l1Byte_cons, ih fun x hx => h x (List.mem_cons_of_mem w hx), l1Byte_singleton, if_neg (by omega)]
    rfl

/-- What a core sees without version lines is what its teams see without them. -/
theorem State.OffChip.viewByte_eq_seen {s : State} {c : Nat} (h : s.OffChip c) {team : Nat} (hv : ∀ v ∈ s.versions, v.team ≠ team) (y : Nat) :
    s.viewByte c team y = s.seen c y := by
  cases hy : isChip y with
  | true =>
    have hchip := of_decide_eq_true hy
    have hnone : l1Byte y (s.core c).l1 = none := l1Byte_eq_none fun w hw => Or.inr ((h w hw).trans hchip)
    rw [State.viewByte, State.seen, hnone, if_pos hy, Option.getD_none, State.homeByte, if_pos hy]
  | false =>
    have hversion : s.versionByte team y = none := by
      rw [State.versionByte, List.find?_eq_none.2 fun v hvs => by simp [hv v hvs]]
    rw [State.viewByte_eq_seen s c team hy, hversion]
    rfl

/-- A core has written bytes at a place. -/
structure Writes (s t : State) (c place : Nat) (bytes : List Byte) : Prop where
  beside : ∀ y, s.Present c y → y < place ∨ place + bytes.length ≤ y → t.seen c y = s.seen c y ∧ t.Present c y
  inside : ∀ y, place ≤ y ∧ y < place + bytes.length → t.seen c y = bytes.getD (y - place) 0 ∧ t.Present c y
  offChip : s.OffChip c → t.OffChip c
  apart : t.apart c = s.apart c

theorem L1Write.beside_offChip {w v : L1Write} {lo hi : Nat} (h : w.place + w.bytes.length ≤ chipBase) (hv : v ∈ w.beside lo hi) :
    v.place + v.bytes.length ≤ chipBase := by
  unfold L1Write.beside at hv
  split at hv
  · rcases List.mem_append.1 hv with hleft | hright
    · split at hleft
      · rw [List.mem_singleton.1 hleft]
        simp only [List.length_take]
        omega
      · cases hleft
    · split at hright
      · rw [List.mem_singleton.1 hright]
        simp only [List.length_drop]
        omega
      · cases hright
  · rwa [List.mem_singleton.1 hv]

theorem State.drainRange_offChip {s : State} {c : Nat} (h : s.OffChip c) (lo n : Nat) : (s.drainRange c lo n).OffChip c := by
  intro w hw
  rw [State.drainRange_eq_split, State.split_l1] at hw
  obtain ⟨x, hx, hin⟩ := List.mem_flatMap.1 hw
  exact L1Write.beside_offChip (h x hx) hin

theorem State.writeHome_seen (s : State) (c place : Nat) (bytes : List Byte) (bad : Bool) (a : Access) (k : Option Nat) {y : Nat} (h : s.Present c y)
    (hy : y < place ∨ place + bytes.length ≤ y) :
    (s.writeHome place bytes bad a k).seen c y = s.seen c y ∧ (s.writeHome place bytes bad a k).Present c y := by
  have hl1 : ((s.writeHome place bytes bad a k).core c).l1 = (s.core c).l1 := State.l1_of_outside (State.writeHome_outside ..) c
  rw [State.seen, State.seen, State.Present, hl1]
  rw [State.Present] at h
  cases hwaits : l1Byte y (s.core c).l1 with
  | some b =>
    rw [Option.getD_some, Option.getD_some]
    exact ⟨rfl, fun _ => Or.inl Option.isSome_some⟩
  | none =>
    rw [hwaits] at h
    have hheld : s.Held y := fun ha => (h ha).resolve_left nofun
    exact ⟨State.homeByte_writeHome_held place bytes bad a k hheld hy, fun ha => Or.inr (State.held_writeHome place bytes bad a k hheld ha)⟩

/-- A write that a core takes into its L1. -/
theorem appended_writes (s : State) (c line cache : Nat) (w : L1Write) (hw : w.place + w.bytes.length ≤ chipBase) :
    Writes s ((s.l1Use c line cache).onCore c fun k => k.withL1 (k.l1 ++ [w])) c w.place w.bytes := by
  have hout : (s.l1Use c line cache).outside = s.outside := State.l1Use_outside ..
  have huse : (s.l1Use c line cache).homeStore = s.homeStore := by
    unfold State.l1Use
    dsimp only
    split
    · rfl
    · split
      · rfl
      · split <;> rfl
  have hstore : ((s.l1Use c line cache).onCore c fun k => k.withL1 (k.l1 ++ [w])).homeStore = s.homeStore :=
    (State.onCore_homeStore _ c (fun k => k.withL1 (k.l1 ++ [w])) fun _ => ⟨rfl, rfl, rfl⟩).trans huse
  have hl1 : (((s.l1Use c line cache).onCore c fun k => k.withL1 (k.l1 ++ [w])).core c).l1 = (s.core c).l1 ++ [w] := by
    rw [State.core_onCore, Core.withL1, State.l1_of_outside hout c]
  refine ⟨fun y hy hbeside => ?_, fun y hy => ?_, fun hoff v hv => ?_, ?_⟩
  · have hbyte : l1Byte y ((s.core c).l1 ++ [w]) = l1Byte y (s.core c).l1 := by
      rw [l1Byte_append, l1Byte_singleton, if_neg (by omega), Option.none_or]
    rw [State.seen, State.seen, State.Present, hl1, hbyte, State.homeByte_eq_of_homeStore hstore, State.l2_eq_of_homeStore hstore]
    exact ⟨rfl, hy⟩
  · have hbyte : l1Byte y ((s.core c).l1 ++ [w]) = some (w.bytes.getD (y - w.place) 0) := by
      rw [l1Byte_append, l1Byte_singleton, if_pos hy, Option.some_or]
    rw [State.seen, State.Present, hl1, hbyte]
    exact ⟨rfl, fun _ => Or.inl Option.isSome_some⟩
  · rw [hl1] at hv
    rcases List.mem_append.1 hv with hold | hnew
    · exact hoff v hold
    · rwa [List.mem_singleton.1 hnew]
  · exact (State.onCore_apart _ c (fun k => k.withL1 (k.l1 ++ [w])) fun _ => rfl).trans (State.apart_of_outside hout c)

section
variable {s : State} {gid : Nat} {g : Group} (hg : g.versioned = false)
include hg

theorem State.writeAtHome_eq (place : Nat) (bytes : List Byte) (cache : Nat) (image bad : Bool) :
    s.writeAtHome gid g place bytes cache image bad =
      (s.drainRange g.core place bytes.length).writeHome place bytes bad (s.accessOf gid g cache) := by
  rw [State.writeAtHome, hg, Bool.and_false]
  rfl

/-- A write at a home. -/
theorem writeAtHome_writes (place : Nat) (bytes : List Byte) (cache : Nat) (image bad : Bool) :
    Writes s (s.writeAtHome gid g place bytes cache image bad) g.core place bytes := by
  rw [State.writeAtHome_eq hg]
  have hout : ((s.drainRange g.core place bytes.length).writeHome place bytes bad (s.accessOf gid g cache)).outside =
      (s.drainRange g.core place bytes.length).outside := State.writeHome_outside ..
  have hl1 := State.l1_of_outside hout g.core
  refine ⟨fun y hy hbeside => ?_, fun y hy => ?_, fun hoff w hw => ?_, ?_⟩
  · obtain ⟨hseen, hpresent⟩ := State.drainRange_seen s g.core place bytes.length hy
    obtain ⟨hseen', hpresent'⟩ := State.writeHome_seen _ g.core place bytes bad (s.accessOf gid g cache) none hpresent hbeside
    exact ⟨hseen'.trans hseen, hpresent'⟩
  · have hwaits : l1Byte y ((s.drainRange g.core place bytes.length).core g.core).l1 = none := by
      rw [State.l1Byte_drainRange, if_pos (by omega)]
    rw [State.seen, hl1, hwaits]
    exact ⟨State.homeByte_writeHome_inside _ place bytes bad _ none hy, fun ha => Or.inr (State.held_writeHome_inside _ place bytes bad _ none hy ha)⟩
  · rw [hl1] at hw
    exact State.drainRange_offChip hoff place bytes.length w hw
  · exact (State.apart_of_outside hout g.core).trans (State.split_apart s g.core _ _)

/-- A write on its own core. -/
theorem writeOwn_writes (op place : Nat) (bytes : List Byte) (cache : Nat) (image bad : Bool)
    (h : isChip place = true ∨ place + bytes.length ≤ chipBase) :
    Writes s (s.writeOwn gid g op place bytes cache image bad) g.core place bytes := by
  unfold State.writeOwn
  split
  · exact writeAtHome_writes hg place bytes cache image bad
  · next hcond =>
    have hplace : place + bytes.length ≤ chipBase := h.resolve_left fun hc => hcond (by simp [hc])
    exact appended_writes s g.core (lineOf place) cache _ hplace

end

/-! ### The lanes of a store -/

/-- The lanes of a store have written their operands, one after the other. -/
structure Stored (s t : State) (c n : Nat) (ls : List LaneAcc) : Prop where
  beside : ∀ y, s.Present c y → (∀ a ∈ ls, y < a.place ∨ a.place + n ≤ y) → t.seen c y = s.seen c y ∧ t.Present c y
  last : ∀ before a after, ls = before ++ a :: after → (∀ y ∈ after, meets (a.place, n) (y.place, n) = false) → ∀ j, j < n →
    t.seen c (a.place + j) = (bytesOf a.operand.toNat n).getD j 0
  offChip : s.OffChip c → t.OffChip c
  apart : t.apart c = s.apart c

theorem Stored.nil (s : State) (c n : Nat) : Stored s s c n [] :=
  ⟨fun _ hy _ => ⟨rfl, hy⟩, fun before _ _ h => (by cases before <;> cases h), fun h => h, rfl⟩

theorem meets_false {a b n : Nat} (h : meets (a, n) (b, n) = false) {j : Nat} (hj : j < n) : a + j < b ∨ b + n ≤ a + j := by
  simp only [meets, Bool.and_eq_false_iff, decide_eq_false_iff_not] at h
  omega

theorem Stored.cons {s t u : State} {c n : Nat} {a : LaneAcc} {ls : List LaneAcc} (hw : Writes s t c a.place (bytesOf a.operand.toNat n))
    (hs : Stored t u c n ls) : Stored s u c n (a :: ls) := by
  have hlength : (bytesOf a.operand.toNat n).length = n := length_bytesOf ..
  refine ⟨fun y hy hall => ?_, fun before b after heq hafter j hj => ?_, fun hoff => hs.offChip (hw.offChip hoff), hs.apart.trans hw.apart⟩
  · obtain ⟨hseen, hpresent⟩ := hw.beside y hy (by rw [hlength]; exact hall a List.mem_cons_self)
    obtain ⟨hseen', hpresent'⟩ := hs.beside y hpresent fun b hb => hall b (List.mem_cons_of_mem a hb)
    exact ⟨hseen'.trans hseen, hpresent'⟩
  · cases before with
    | nil =>
      cases heq
      obtain ⟨hseen, hpresent⟩ := hw.inside (a.place + j) (by rw [hlength]; omega)
      rw [show a.place + j - a.place = j by omega] at hseen
      exact (hs.beside _ hpresent fun b hb => meets_false (hafter b hb) hj).1.trans hseen
    | cons x before =>
      cases heq
      exact hs.last before b after rfl hafter j hj

theorem storeLanes_stored {g : Group} (hg : g.versioned = false) (gid op n scope cache : Nat) (ls : List LaneAcc) (s : State)
    (h : ∀ a ∈ ls, a.got = [] ∧ (isChip a.place = true ∨ a.place + n ≤ chipBase)) :
    Stored s (s.storeLanes gid g op n scope cache ls) g.core n ls := by
  induction ls generalizing s with
  | nil => exact Stored.nil s g.core n
  | cons a ls ih =>
    obtain ⟨hgot, hplace⟩ := h a List.mem_cons_self
    have hstep : s.storeLanes gid g op n scope cache (a :: ls) = (if scope < 2 then s.writeOwn gid g op a.place (bytesOf a.operand.toNat n) cache a.image
        else s.writeAtHome gid g a.place (bytesOf a.operand.toNat n) cache a.image).storeLanes gid g op n scope cache ls := by
      rw [State.storeLanes, List.foldl_cons, LaneAcc.writes, hgot]
      rfl
    rw [hstep]
    refine Stored.cons ?_ (ih _ fun b hb => h b (List.mem_cons_of_mem a hb))
    split
    · exact writeOwn_writes hg op a.place _ cache a.image false (by rw [length_bytesOf]; exact hplace)
    · exact writeAtHome_writes hg a.place _ cache a.image false

end Sys2Proof.Machine
end

section
/-! STORE_PERFORMED and drains (R144, R145, R346 to R351, R355). -/

namespace Sys2Proof.Machine

/-! ### Operations that finish -/

theorem mem_of_mem_lowerPaths {l : List Op} {held : List Path} {o : Op} (h : o ∈ lowerPaths l held) : o ∈ l := by
  induction l generalizing held with
  | nil => exact h
  | cons x l ih =>
    rw [lowerPaths] at h
    split at h
    · exact List.mem_cons_of_mem x (ih h)
    · rcases List.mem_cons.1 h with heq | hmem
      · exact List.mem_cons.2 (Or.inl heq)
      · exact List.mem_cons_of_mem x (ih hmem)

theorem Group.finished_of_finish (g : Group) (op : Nat) {o : Op} (h : o ∈ (g.finish op).flight) (hid : o.id = op) : o.finished = true := by
  obtain ⟨x, -, rfl⟩ := List.mem_map.1 (mem_of_mem_lowerPaths h)
  by_cases hx : x.id = op
  · rw [if_pos hx]
  · rw [if_neg hx] at hid
    exact absurd hid hx

theorem State.landed_finish {s : State} {gid : Nat} {g : Group} (h : s.group? gid = some g) (op : Nat) :
    (s.onGroup gid fun g => g.finish op).landed gid op :=
  ⟨g.finish op, by rw [State.group?_onGroup, h]; rfl, fun _ ho => g.finished_of_finish op ho⟩

section
variable {s : State} {gid op : Nat} {g : Group} {w : Work} (h : s.flying gid op g w)
include h

/-- The operation is in flight. -/
theorem State.flying_mem : ∃ o ∈ g.flight, o.id = op ∧ o.work = w ∧ o.finished = false := by
  obtain ⟨hg, hwork, hopen⟩ := h
  rw [State.work?, hg] at hwork
  obtain ⟨o, ho, rfl⟩ := Option.map_eq_some_iff.1 hwork
  have hid : o.id = op := by simpa using List.find?_some ho
  exact ⟨o, List.mem_of_find?_eq_some ho, hid, rfl, hopen o (List.mem_of_find?_eq_some ho) hid⟩

theorem State.flying_not_over : g.over op = false := by
  obtain ⟨o, ho, hid, -, hopen⟩ := State.flying_mem h
  exact List.all_eq_false.2 ⟨o, ho, by simp [hid, hopen]⟩

end

/-! ### What is seen of written bytes -/

theorem State.view_eq_bytesOf {s : State} {core team place v n : Nat} (h : ∀ j, j < n → s.viewByte core team (place + j) = (bytesOf v n).getD j 0) :
    s.view core team place n = bytesOf v n := by
  rw [State.view, spread, List.map_map]
  refine List.ext_getElem (by simp) fun j hj hj' => ?_
  rw [List.getElem_map, List.getElem_range]
  have hlt : j < n := by simpa using hj
  exact (h j hlt).trans (by rw [List.getD_eq_getElem?_getD, List.getElem?_eq_getElem hj']; rfl)

theorem State.readHome_eq_bytesOf {s : State} {place v n : Nat} (h : ∀ j, j < n → s.homeByte (place + j) = (bytesOf v n).getD j 0) :
    s.readHome place n = bytesOf v n := by
  rw [State.readHome, spread, List.map_map]
  refine List.ext_getElem (by simp) fun j hj hj' => ?_
  rw [List.getElem_map, List.getElem_range]
  have hlt : j < n := by simpa using hj
  exact (h j hlt).trans (by rw [List.getD_eq_getElem?_getD, List.getElem?_eq_getElem hj']; rfl)

/-! ### What a performed store leaves -/

section
variable {s u : State} {gid op n cache : Nat} {ls : List LaneAcc} {g : Group}

/-- Bytes of a group's team on its core after a performed store whose lanes wrote from a state that showed it the same. -/
structure Performed (s t : State) (gid op n : Nat) (ls : List LaneAcc) (g : Group) : Prop where
  landed : t.landed gid op
  groups : ∀ k, k ≠ gid → t.group? k = s.group? k
  last : ∀ before a after, ls = before ++ a :: after → (∀ y ∈ after, meets (a.place, n) (y.place, n) = false) →
    t.view g.core g.team a.place n = bytesOf a.operand.toNat n
  beside : ∀ y, isChip y = false → isAdobe y = false → (∀ a ∈ ls, y < a.place ∨ a.place + n ≤ y) →
    t.viewByte g.core g.team y = s.viewByte g.core g.team y

theorem Performed.of_stored {s0 : State} (hs : s.group? gid = some g) (hv : ∀ v ∈ s.versions, v.team ≠ g.team) (hoff : s.OffChip g.core)
    (hgroups0 : s0.groups = s.groups) (hversions0 : s0.versions = s.versions) (hoff0 : s0.OffChip g.core) (hseen0 : ∀ y, isAdobe y = false → s0.seen g.core y = s.seen g.core y)
    (hstored : Stored s0 u g.core n ls) {t : State} (hgroups : t.groups = (u.onGroup gid fun g => g.finish op).groups)
    (hview : ∀ c team y, t.viewByte c team y = u.viewByte c team y) : Performed s t gid op n ls g := by
  have hv0 : ∀ v ∈ s0.versions, v.team ≠ g.team := by rw [hversions0]; exact hv
  have hvu : ∀ v ∈ u.versions, v.team ≠ g.team := by rw [State.versions_of_apart hstored.apart]; exact hv0
  have hug : ∀ k, u.group? k = s.group? k := fun k => (State.group?_of_apart hstored.apart k).trans (by rw [State.group?, hgroups0]; rfl)
  have hu := fun y => (hstored.offChip hoff0).viewByte_eq_seen hvu y
  refine ⟨?_, fun k hk => ?_, fun before a after heq hafter => ?_, fun y _ hy hbeside => ?_⟩
  · obtain ⟨g', hg', hfinished⟩ := State.landed_finish ((hug gid).trans hs) op
    exact ⟨g', by rw [State.group?, hgroups]; exact hg', hfinished⟩
  · rw [State.group?, hgroups]
    exact (State.group?_onGroup_ne u _ hk).trans (hug k)
  · refine State.view_eq_bytesOf fun j hj => ?_
    rw [hview, hu]
    exact hstored.last before a after heq hafter j hj
  · rw [hview, hu, hoff.viewByte_eq_seen hv, ← hseen0 y hy]
    exact (hstored.beside y (State.present_of_not_isAdobe s0 g.core hy) hbeside).1

end

/-- A release at cluster scope or wider shows its core what it showed before. -/
theorem State.release_seen (s : State) (g : Group) {scope : Nat} (h : 2 ≤ scope) {y : Nat} (hy : isAdobe y = false) :
    (s.release g scope).seen g.core y = s.seen g.core y := by
  rw [State.release, if_neg (Nat.not_lt.2 h)]
  exact (State.drainAll_seen s g.core (State.present_of_not_isAdobe s g.core hy)).1

theorem State.offChip_of_l1_nil {s : State} {c : Nat} (h : (s.core c).l1 = []) : s.OffChip c := fun w hw => by
  rw [h] at hw
  cases hw

/-- Writes at homes do not wait in the L1. -/
theorem storeLanes_wide_l1 {g : Group} (hg : g.versioned = false) (gid op n cache : Nat) {scope : Nat} (hscope : 2 ≤ scope) (ls : List LaneAcc) (s : State)
    (hgot : ∀ a ∈ ls, a.got = []) (h : (s.core g.core).l1 = []) : ((s.storeLanes gid g op n scope cache ls).core g.core).l1 = [] := by
  induction ls generalizing s with
  | nil => exact h
  | cons a ls ih =>
    have hstep : s.storeLanes gid g op n scope cache (a :: ls) =
        (s.writeAtHome gid g a.place (bytesOf a.operand.toNat n) cache a.image).storeLanes gid g op n scope cache ls := by
      rw [State.storeLanes, List.foldl_cons, LaneAcc.writes, hgot a List.mem_cons_self, List.foldl_cons, if_neg (Nat.not_lt.2 hscope)]
      rfl
    rw [hstep]
    refine ih _ (fun b hb => hgot b (List.mem_cons_of_mem a hb)) ?_
    rw [State.writeAtHome_eq hg, State.l1_of_outside (State.writeHome_outside ..) g.core, State.drainRange_eq_split, State.split_l1, h]
    rfl

/-- A narrow access pins each of its lines. -/
theorem State.pinLanes_pins (s : State) (g : Group) {scope : Nat} (h : scope < 2) (ls : List LaneAcc) :
    (∀ p ∈ s.pins, p ∈ (s.pinLanes g scope ls).pins) ∧ ∀ a ∈ ls, isChip a.place = false → a.image = false →
      { core := g.core, team := g.team, line := lineOf a.place } ∈ (s.pinLanes g scope ls).pins := by
  rw [State.pinLanes, if_pos h]
  refine ⟨fun p hp => List.mem_append_left _ hp, fun a ha hchip himage => ?_⟩
  by_cases hold : s.pins.any (fun p => p.core == g.core && p.team == g.team && p.line == lineOf a.place) = true
  · obtain ⟨p, hp, heq⟩ := List.any_eq_true.1 hold
    simp only [Bool.and_eq_true, beq_iff_eq] at heq
    obtain ⟨⟨hcore, hteam⟩, hline⟩ := heq
    refine List.mem_append_left _ ?_
    rw [← hcore, ← hteam, ← hline]
    exact hp
  · refine List.mem_append_right _ (List.mem_map.2 ⟨lineOf a.place, List.mem_filter.2 ⟨List.mem_dedup.2 (List.mem_map.2 ⟨a, ?_, rfl⟩), ?_⟩, rfl⟩)
    · exact List.mem_filter.2 ⟨ha, by simp [hchip, himage]⟩
    · simpa using hold

/-- A release whose earlier accesses are performed, with an L1 that may drain. -/
theorem State.mayRelease_of {s : State} {g : Group} {op scope : Nat} (hearlier : ¬ ∃ o ∈ g.before op, o.finished = false ∧ o.work.isMemory = true)
    (hdrain : scope < 2 ∨ s.canDrain g.core = true) : s.mayRelease g op scope = true := by
  rw [State.mayRelease, Bool.and_eq_true]
  refine ⟨List.all_eq_true.2 fun o ho => ?_, by rcases hdrain with hlt | hcan <;> simp [*]⟩
  cases hopen : o.finished with
  | true => rfl
  | false =>
    cases hmemory : o.work.isMemory with
    | true => exact absurd ⟨o, ho, hopen, hmemory⟩ hearlier
    | false => rfl

/-- A release that an earlier access holds back. -/
theorem State.mayRelease_held {s : State} {g : Group} {op scope : Nat} (hearlier : ∃ o ∈ g.before op, o.finished = false ∧ o.work.isMemory = true) :
    s.mayRelease g op scope = false := by
  obtain ⟨o, ho, hopen, hmemory⟩ := hearlier
  rw [State.mayRelease, List.all_eq_false.2 ⟨o, ho, by simp [hopen, hmemory]⟩, Bool.false_and]

/-! ### STORE_PERFORMED -/

section
variable {s : State} {gid op n cache : Nat} {ls : List LaneAcc} {g : Group} {release : Option Nat}

/-- STORE_PERFORMED of a store in flight none of whose lanes is performed. -/
theorem execStorePerformed_eq (h : s.flying gid op g (.store n release cache ls)) (hdone : ∀ a ∈ ls, a.done = false) :
    exec (.storePerformed gid op) s = match s.performLanes gid g op n release cache ls with
      | (t, true) => .next (t.onGroup gid fun g => g.finish op)
      | (t, false) => .next t := by
  obtain ⟨hg, hwork, -⟩ := id h
  have hall : ls.filter (fun a => !a.done) = ls := List.filter_eq_self.2 fun a ha => by simp [hdone a ha]
  change execStorePerformed gid op s = _
  rw [execStorePerformed, hg]
  dsimp only
  rw [State.flying_not_over h, State.performStore, hg, hwork]
  dsimp only
  rw [hall]
  rfl

section
variable (h : s.flying gid op g (.store n release cache ls))
  (hls : ∀ a ∈ ls, a.done = false ∧ a.got = [] ∧ s.pinnedFrom g.team a.place n = false ∧ (isChip a.place = true ∨ a.place + n ≤ chipBase))
include h hls

theorem release_waits {scope : Nat} (hrelease : release = some scope) (hearlier : ∃ o ∈ g.before op, o.finished = false ∧ o.work.isMemory = true) :
    exec (.storePerformed gid op) s = .next s := by
  subst hrelease
  have hmay := State.mayRelease_held (s := s) (scope := s.pinScope g scope ls) hearlier
  rw [execStorePerformed_eq h fun a ha => (hls a ha).1, State.performLanes, hmay]
  rfl

theorem release_answers {scope : Nat} (hrelease : release = some scope)
    (hearlier : ¬ ∃ o ∈ g.before op, o.finished = false ∧ o.work.isMemory = true) (hmayPin : s.mayPin g (s.pinScope g scope ls) ls = true)
    (hdrain : s.pinScope g scope ls < 2 ∨ s.canDrain g.core = true) (hroom : 2 ≤ s.pinScope g scope ls ∨ s.ownTakes g cache ls = true) :
    exec (.storePerformed gid op) s = .next ((((s.release g (s.pinScope g scope ls)).storeLanes gid g op n (s.pinScope g scope ls) cache ls).pinLanes g
      (s.pinScope g scope ls) ls).onGroup gid fun g => g.finish op) := by
  subst hrelease
  have hmay := State.mayRelease_of hearlier hdrain
  have hpinned : ls.all (fun a => !s.pinnedFrom g.team a.place n) = true := List.all_eq_true.2 fun a ha => by
    obtain ⟨-, -, hpinned, -⟩ := hls a ha
    rw [hpinned]
    rfl
  have htakes : (decide (2 ≤ s.pinScope g scope ls) || s.ownTakes g cache ls) = true := by rcases hroom with hle | htake <;> simp [*]
  rw [execStorePerformed_eq h fun a ha => (hls a ha).1, State.performLanes, hmay, hpinned, hmayPin, htakes]
  rfl

variable (hg : g.versioned = false) (hv : ∀ v ∈ s.versions, v.team ≠ g.team) (hoff : s.OffChip g.core)
include hg hv hoff

theorem plainStore_performs (hrelease : release = none) (hheld : ∀ a ∈ ls, g.held op [(a.place, n)] = false) (hroom : s.ownTakes g cache ls = true) :
    ∃ t, exec (.storePerformed gid op) s = .next t ∧ Performed s t gid op n ls g ∧ t.pins = s.pins := by
  subst hrelease
  have hmay : ls.all (s.mayStore g op n) = true := List.all_eq_true.2 fun a ha => by
    obtain ⟨-, hgot, hpinned, -⟩ := hls a ha
    rw [State.mayStore, LaneAcc.left, hgot]
    simp only [hheld a ha, hpinned, Bool.not_false, Bool.and_self]
  have hstored := storeLanes_stored hg gid op n 0 cache ls s fun a ha => by
    obtain ⟨-, hgot, -, hplace⟩ := hls a ha
    exact ⟨hgot, hplace⟩
  have hexec := execStorePerformed_eq h fun a ha => (hls a ha).1
  rw [State.performLanes, hmay, hroom] at hexec
  exact ⟨_, hexec, Performed.of_stored h.1 hv hoff rfl rfl hoff (fun _ _ => rfl) hstored rfl fun _ _ _ => rfl, (State.pins_of_apart hstored.apart :)⟩

theorem narrowRelease_performs {scope : Nat} (hrelease : release = some scope)
    (hearlier : ¬ ∃ o ∈ g.before op, o.finished = false ∧ o.work.isMemory = true) (hscope : s.pinScope g scope ls < 2)
    (hmayPin : s.mayPin g (s.pinScope g scope ls) ls = true) (hroom : s.ownTakes g cache ls = true) :
    ∃ t, exec (.storePerformed gid op) s = .next t ∧ Performed s t gid op n ls g ∧ (∀ p ∈ s.pins, p ∈ t.pins) ∧
      ∀ a ∈ ls, isChip a.place = false → a.image = false → { core := g.core, team := g.team, line := lineOf a.place } ∈ t.pins := by
  have hexec := release_answers h hls hrelease hearlier hmayPin (Or.inl hscope) (Or.inr hroom)
  rw [State.release, if_pos hscope] at hexec
  have hstored := storeLanes_stored hg gid op n (s.pinScope g scope ls) cache ls s fun a ha => by
    obtain ⟨-, hgot, -, hplace⟩ := hls a ha
    exact ⟨hgot, hplace⟩
  have hpins := (s.storeLanes gid g op n (s.pinScope g scope ls) cache ls).pinLanes_pins g hscope ls
  rw [State.pins_of_apart hstored.apart] at hpins
  have hpin : ∀ u : State, (u.pinLanes g (s.pinScope g scope ls) ls).groups = u.groups ∧
      ∀ c team y, (u.pinLanes g (s.pinScope g scope ls) ls).viewByte c team y = u.viewByte c team y := fun u => by
    rw [State.pinLanes, if_pos hscope]
    exact ⟨rfl, fun _ _ _ => rfl⟩
  refine ⟨_, hexec, Performed.of_stored h.1 hv hoff rfl rfl hoff (fun _ _ => rfl) hstored ?_ fun c team y => (hpin _).2 c team y, hpins⟩
  show NMap.changeIf (State.pinLanes _ g _ ls).groups _ _ = _
  rw [(hpin _).1]
  rfl

theorem wideRelease_performs {scope : Nat} (hrelease : release = some scope)
    (hearlier : ¬ ∃ o ∈ g.before op, o.finished = false ∧ o.work.isMemory = true) (hscope : 2 ≤ s.pinScope g scope ls)
    (hdrain : s.canDrain g.core = true) :
    ∃ t, exec (.storePerformed gid op) s = .next t ∧ Performed s t gid op n ls g ∧ (t.core g.core).l1 = [] ∧ (∀ p ∈ t.pins, p.team ≠ g.team) ∧
      ∀ before a after, ls = before ++ a :: after → (∀ y ∈ after, meets (a.place, n) (y.place, n) = false) →
        t.readHome a.place n = bytesOf a.operand.toNat n := by
  have hexec := release_answers h hls hrelease hearlier (by rw [State.mayPin]; simp [hscope]) (Or.inr hdrain) (Or.inl hscope)
  rw [State.pinLanes, if_neg (Nat.not_lt.2 hscope)] at hexec
  obtain ⟨hgroups, -, hversions, -, -, hl1, hpins⟩ := s.release_released g hscope
  have hoff0 : (s.release g (s.pinScope g scope ls)).OffChip g.core := State.offChip_of_l1_nil hl1
  have hstored := storeLanes_stored hg gid op n (s.pinScope g scope ls) cache ls (s.release g (s.pinScope g scope ls)) fun a ha => by
    obtain ⟨-, hgot, -, hplace⟩ := hls a ha
    exact ⟨hgot, hplace⟩
  have hempty := storeLanes_wide_l1 hg gid op n cache hscope ls (s.release g (s.pinScope g scope ls)) (fun a ha => (hls a ha).2.1) hl1
  refine ⟨_, hexec, Performed.of_stored h.1 hv hoff hgroups hversions hoff0 (fun y hy => s.release_seen g hscope hy) hstored rfl fun _ _ _ => rfl,
    hempty, fun p hp => ?_, fun before a after heq hafter => State.readHome_eq_bytesOf fun j hj => ?_⟩
  · have hmem : p ∈ s.pins.filter fun p => p.team != g.team := by
      rw [← hpins, ← State.pins_of_apart hstored.apart]
      exact hp
    simpa using (List.mem_filter.1 hmem).2
  · have hlast := hstored.last before a after heq hafter j hj
    rw [State.seen, hempty] at hlast
    exact hlast

end

end

/-- Settles O27: performed stores are seen by their core, releases wait, drain or pin, and a drain leaves the core's view. -/
theorem storeReachesHome : Obligations.StoreReachesHome := by
  unfold Obligations.StoreReachesHome
  refine ⟨?_, fun s c lo n team y hchip hadobe _ => ⟨?_, fun hlo hhi => ?_⟩⟩
  · intro s gid op n cache release ls g h hg hv hls hoff earlier last performs
    have hperforms : ∀ post : State → Prop, (∃ t, exec (.storePerformed gid op) s = .next t ∧ Performed s t gid op n ls g ∧ post t) → performs post := by
      rintro post ⟨t, ht, ⟨hlanded, hgroups, hlast, hbeside⟩, hpost⟩
      exact ⟨t, ht, hlanded, hpost, hgroups, fun a ⟨before, after, heq, hafter⟩ => hlast before a after heq hafter, hbeside⟩
    refine ⟨fun hrelease hheld hroom => hperforms _ (plainStore_performs h hls hg hv hoff hrelease hheld hroom), fun scope hrelease =>
      ⟨release_waits h hls hrelease, fun hearlier hscope hmayPin hroom =>
        hperforms _ (narrowRelease_performs h hls hg hv hoff hrelease hearlier hscope hmayPin hroom), fun hearlier hscope hdrain => hperforms _ ?_⟩⟩
    obtain ⟨t, ht, hperformed, hl1, hpins, hhome⟩ := wideRelease_performs h hls hg hv hoff hrelease hearlier hscope hdrain
    exact ⟨t, ht, hperformed, hl1, hpins, fun a ⟨before, after, heq, hafter⟩ => hhome before a after heq hafter⟩
  · rw [State.viewByte_eq_seen _ c team hchip, State.viewByte_eq_seen _ c team hchip,
      State.versionByte_congr (State.drainRange_versions s c lo n), (State.drainRange_seen s c lo n (State.present_of_not_isAdobe s c hadobe)).1]
  · rw [State.l1Byte_drainRange, if_pos (by omega)]

end Sys2Proof.Machine
end

section
/-! The result of a memory operation arrives at the registers of its lanes (R74, R143, R148). -/

namespace Sys2Proof.Machine

/-- The cells of a lane's result: its register, and the shadow in protected launch mode. -/
def LaneAcc.cells (prot : Bool) (a : LaneAcc) : List Nat := if prot then [a.cell, a.cell + 1] else [a.cell]

theorem laneResult_cells (prot : Bool) (a : LaneAcc) (v : Lane) : (laneResult prot a v).map (·.cell) = a.cells prot := by
  rw [laneResult, List.map_map]
  exact List.map_id _

theorem laneResults_cells (prot : Bool) (ls : List LaneAcc) (v : LaneAcc → Lane) :
    (ls.flatMap fun a => laneResult prot a (v a)).map (·.cell) = ls.flatMap (LaneAcc.cells prot) := by
  rw [List.map_flatMap]
  exact List.flatMap_congr fun a _ => laneResult_cells prot a (v a)

theorem merge_allOnes {n : Nat} (x v : BitVec n) : (x &&& ~~~(BitVec.allOnes n)) ||| (v &&& BitVec.allOnes n) = v := by
  rw [BitVec.not_allOnes, BitVec.and_zero, BitVec.and_allOnes, BitVec.zero_or]

/-- The lanes' results as a core holds them once all are written. -/
theorem Core.writeAll_laneResults (c : Core) (prot : Bool) (ls : List LaneAcc) (v : LaneAcc → Lane) (h : (ls.flatMap (LaneAcc.cells prot)).Nodup)
    {a : LaneAcc} (ha : a ∈ ls) {i : Nat} (hi : i ∈ a.cells prot) :
    (c.writeAll (ls.flatMap fun a => laneResult prot a (v a))).cell i = v a ∧
      (c.writeAll (ls.flatMap fun a => laneResult prot a (v a))).cellPoison i = if a.bad then 3 else 0 := by
  have hw : ({ cell := i, bits := BitVec.allOnes 64, value := v a, poison := if a.bad then 3 else 0 } : CellWrite) ∈
      ls.flatMap fun a => laneResult prot a (v a) := List.mem_flatMap.2 ⟨a, ha, List.mem_map.2 ⟨i, hi, rfl⟩⟩
  rw [← laneResults_cells prot ls v] at h
  obtain ⟨hcell, hpoison⟩ := Core.writeAll_one c _ _ hw fun x hx heq => List.inj_on_of_nodup_map h hx hw heq
  have hall : halvesOf (BitVec.allOnes 64) = BitVec.allOnes 2 := by decide
  rw [hall] at hpoison
  exact ⟨hcell.trans (merge_allOnes ..), hpoison.trans (merge_allOnes ..)⟩

section
variable {u : State} {gid op : Nat} {g : Group} {src : Source} {regs : List Nat}

/-- A state in which the result of an operation has arrived and the operation has finished. -/
def State.finishWith (u : State) (gid op : Nat) (ws : List CellWrite) : State := (u.arrive gid op ws).onGroup gid fun g => g.finish op

theorem State.arrive_eq (h : u.group? gid = some g) (op : Nat) (ws : List CellWrite) :
    ∃ (g' : Group) (f : Core → Core), g'.core = g.core ∧ u.arrive gid op ws = ((u.setGroup gid g').onCore g.core f).settle gid := by
  rw [State.arrive, h]
  dsimp only
  refine ⟨_, _, ?_, rfl⟩
  rfl

theorem State.settle_eq {s : State} (h : s.group? gid = some g) : s.settle gid =
    (s.setGroup gid { g with defers := (settleList g.defers []).1 }).onCore g.core fun c => c.writeAll (settleList g.defers []).2 := by
  rw [State.settle, h]

theorem State.arrive_group (h : u.group? gid = some g) (op : Nat) (ws : List CellWrite) : ∃ g', (u.arrive gid op ws).group? gid = some g' := by
  obtain ⟨g', f, -, heq⟩ := State.arrive_eq h op ws
  have hg' : ((u.setGroup gid g').onCore g.core f).group? gid = some g' := (State.group?_onCore ..).trans (State.group?_setGroup ..)
  rw [heq, State.settle_eq hg']
  exact ⟨_, (State.group?_onCore ..).trans (State.group?_setGroup ..)⟩

theorem State.arrive_core_ne (h : u.group? gid = some g) (op : Nat) (ws : List CellWrite) {k : Nat} (hk : k ≠ g.core) :
    (u.arrive gid op ws).core k = u.core k := by
  obtain ⟨g', f, hcore, heq⟩ := State.arrive_eq h op ws
  have hg' : ((u.setGroup gid g').onCore g.core f).group? gid = some g' := (State.group?_onCore ..).trans (State.group?_setGroup ..)
  rw [heq, State.settle_eq hg', State.core_onCore_ne _ _ (by rw [hcore]; exact hk)]
  exact State.core_onCore_ne _ _ hk

theorem State.finishWith_landed (h : u.group? gid = some g) (ws : List CellWrite) : (u.finishWith gid op ws).landed gid op := by
  obtain ⟨g', hg'⟩ := State.arrive_group h op ws
  exact State.landed_finish hg' op

theorem State.finishWith_group_ne (ws : List CellWrite) {k : Nat} (h : k ≠ gid) : (u.finishWith gid op ws).group? k = u.group? k :=
  (State.group?_onGroup_ne _ _ h).trans (State.arrive_group_ne u h op ws)

theorem State.finishWith_rest (ws : List CellWrite) : { u.finishWith gid op ws with groups := u.groups, cores := u.cores } = u :=
  congrArg (fun y : State => { y with groups := u.groups, cores := u.cores }) (State.arrive_rest u gid op ws)

theorem State.finishWith_core_ne (h : u.group? gid = some g) (ws : List CellWrite) {k : Nat} (hk : k ≠ g.core) :
    (u.finishWith gid op ws).core k = u.core k := State.arrive_core_ne h op ws hk

/-- The group's one deferred write is made. -/
theorem State.finishWith_core (h : u.group? gid = some g) (hdefers : g.defers = [⟨op, src, 0, regs, none, []⟩]) (hregs : ∀ r ∈ regs, r < 2048)
    (ws : List CellWrite) : ∃ w, (u.finishWith gid op ws).core g.core = ((u.core g.core).noting w).writeAll ws := by
  obtain ⟨w, harrived⟩ := u.arrive_core h op ws
  rw [Group.settle_arrived_sole hdefers hregs] at harrived
  exact ⟨w, harrived⟩

theorem State.finishWith_memories (h : u.group? gid = some g) (hdefers : g.defers = [⟨op, src, 0, regs, none, []⟩]) (hregs : ∀ r ∈ regs, r < 2048)
    (ws : List CellWrite) (c : Nat) : ((u.finishWith gid op ws).core c).SameMemories (u.core c) := by
  by_cases hc : c = g.core
  · obtain ⟨w, hcore⟩ := State.finishWith_core h hdefers hregs ws
    rw [hc, hcore]
    exact Core.sameMemories_of_rest (Core.writeAll_rest ..)
  · rw [State.finishWith_core_ne h ws hc]
    exact ⟨rfl, rfl, rfl, rfl, rfl, rfl, rfl⟩

theorem State.finishWith_view (h : u.group? gid = some g) (hdefers : g.defers = [⟨op, src, 0, regs, none, []⟩]) (hregs : ∀ r ∈ regs, r < 2048)
    (ws : List CellWrite) (c team y : Nat) : (u.finishWith gid op ws).viewByte c team y = u.viewByte c team y := by
  have hrest : { u.finishWith gid op ws with groups := u.groups, cores := u.cores, issueNo := u.issueNo } = u :=
    congrArg (fun y : State => { y with issueNo := u.issueNo }) (State.finishWith_rest (u := u) (gid := gid) (op := op) ws)
  exact (State.view_congr hrest (State.finishWith_memories h hdefers hregs ws) c team y).1

/-- Registers once the results of lanes have arrived. -/
theorem State.finishWith_cells (h : u.group? gid = some g) (hdefers : g.defers = [⟨op, src, 0, regs, none, []⟩]) (hregs : ∀ r ∈ regs, r < 2048)
    (ls : List LaneAcc) (v : LaneAcc → Lane) (hnodup : (ls.flatMap (LaneAcc.cells g.prot)).Nodup) :
    let t := u.finishWith gid op (ls.flatMap fun a => laneResult g.prot a (v a))
    (∀ a ∈ ls, ∀ i ∈ a.cells g.prot, (t.core g.core).cell i = v a ∧ (t.core g.core).cellPoison i = if a.bad then 3 else 0) ∧
      ∀ i, i ∉ ls.flatMap (LaneAcc.cells g.prot) → (t.core g.core).cell i = (u.core g.core).cell i := by
  obtain ⟨w, hcore⟩ := State.finishWith_core h hdefers hregs (ls.flatMap fun a => laneResult g.prot a (v a))
  intro t
  rw [hcore]
  refine ⟨fun a ha i hi => Core.writeAll_laneResults _ g.prot ls v hnodup ha hi, fun i hi => ?_⟩
  refine (Core.writeAll_ne _ _ fun x hx heq => hi ?_).1.trans rfl
  rw [← laneResults_cells g.prot ls v]
  exact List.mem_map.2 ⟨x, hx, heq⟩

end

/-! ### Lanes replaced -/

/-- Every lane of a list is replaced by what has been made of it. -/
theorem foldl_putLane {ls xs : List LaneAcc} (hxs : (xs.map fun a => a.lane) = ls.map fun a => a.lane) (h : (ls.map fun a => a.lane).Nodup) :
    xs.foldl (fun l a => putLane a l) ls = xs := by
  have hgen : ∀ (done rest xs : List LaneAcc), ((xs.map fun a => a.lane) = rest.map fun a => a.lane) → (∀ a ∈ done, ∀ b ∈ rest, a.lane ≠ b.lane) →
      (rest.map fun a => a.lane).Nodup → xs.foldl (fun l a => putLane a l) (done ++ rest) = done ++ xs := fun done rest => by
    induction rest generalizing done with
    | nil =>
      intro xs hxs _ _
      cases xs with
      | nil => rfl
      | cons x xs => cases hxs
    | cons b rest ih =>
      intro xs hxs hapart hnodup
      rw [List.map_cons, List.nodup_cons] at hnodup
      obtain ⟨hnot, hnodup⟩ := hnodup
      cases xs with
      | nil => cases hxs
      | cons x xs =>
        rw [List.map_cons, List.map_cons, List.cons.injEq] at hxs
        obtain ⟨hlane, hxs⟩ := hxs
        have hput : putLane x (done ++ b :: rest) = (done ++ [x]) ++ rest := by
          have hdone : done.map (fun y => if y.lane = x.lane then x else y) = done :=
            (List.map_congr_left fun y hy => if_neg (by rw [hlane]; exact hapart y hy b List.mem_cons_self)).trans (List.map_id done)
          have hrest : rest.map (fun y => if y.lane = x.lane then x else y) = rest :=
            (List.map_congr_left fun y hy => if_neg (by
              rw [hlane]
              exact fun heq => hnot (List.mem_map.2 ⟨y, hy, heq⟩))).trans (List.map_id rest)
          rw [putLane, List.map_append, List.map_cons, hdone, hrest, if_pos hlane.symm, List.append_assoc]
          rfl
        rw [List.foldl_cons, hput, ih (done ++ [x]) xs hxs ?_ hnodup, List.append_assoc]
        · rfl
        · intro y hy z hz
          rcases List.mem_append.1 hy with hold | hnew
          · exact hapart y hold z (List.mem_cons_of_mem b hz)
          · rw [List.mem_singleton.1 hnew, hlane]
            exact fun heq => hnot (List.mem_map.2 ⟨z, hz, heq.symm⟩)
  exact hgen [] ls xs hxs (fun _ hx => nomatch hx) h

end Sys2Proof.Machine
end

section
/-! LOAD_RETURN and PINNED_RETRY of a load (R142, R143, R145, R355, R356). -/

namespace Sys2Proof.Machine

/-! ### What reaching a line leaves unchanged -/

/-- A fold of operations each of which leaves a part of the state, for the elements of its list. -/
theorem foldl_view_mem {α β : Type} (view : State → β) (f : State → α → State) (l : List α) (h : ∀ s, ∀ a ∈ l, view (f s a) = view s) (s : State) :
    view (l.foldl f s) = view s := by
  induction l generalizing s with
  | nil => rfl
  | cons a l ih =>
    rw [List.foldl_cons, ih fun s b hb => h s b (List.mem_cons_of_mem a hb), h s a List.mem_cons_self]

theorem State.reportAccess_cores (s : State) (p : Nat) (a : Access) : (s.reportAccess p a).cores = s.cores := by
  unfold State.reportAccess
  split <;> rfl

theorem State.noteAccess_cores (s : State) (p : Nat) (a : Access) : (s.noteAccess p a).cores = s.cores := by
  unfold State.noteAccess
  split
  · exact State.reportAccess_cores s p a
  · rfl

theorem State.noteFrame_cores (s : State) (p : Nat) (a : Access) : (s.noteFrame p a).cores = s.cores := by
  unfold State.noteFrame
  split
  · exact State.reportAccess_cores s _ a
  · rfl

theorem State.noteWriter_cores (s : State) (l : Nat) (a : Access) : (s.noteWriter l a).cores = s.cores := by
  unfold State.noteWriter
  split <;> rfl

theorem State.touchWay_cores (s : State) (p : Nat) (a : Access) : (s.touchWay p a).cores = s.cores := by
  unfold State.touchWay
  dsimp only
  split
  · rfl
  · split <;> rfl

theorem State.setHomePoison_cores (s : State) (p : Nat) (b : BitVec 2) : (s.setHomePoison p b).cores = s.cores := by
  unfold State.setHomePoison
  split
  · rfl
  · split <;> rfl

theorem State.setHomeBad_cores (s : State) {p : Nat} (b : Bool) (h : ¬ isChip p = true) : (s.setHomeBad p b).cores = s.cores := by
  rw [State.setHomeBad, if_neg h]
  exact State.setHomePoison_cores s p _

theorem State.reinstall_cores (s : State) {p : Nat} (h : isAdobe p = true) : (s.reinstall (lineOf p)).cores = s.cores := by
  have hrange := isAdobe_iff.1 h
  unfold State.reinstall
  split
  · refine foldl_view_mem State.cores _ _ (fun s i hi => State.setHomeBad_cores s true ?_) _
    have hlt := List.mem_range.1 hi
    rw [isChip_iff, lineOf]
    omega
  · rfl

theorem State.install_cores (s : State) (p : Nat) (a : Access) : (s.install p a).cores = s.cores := by
  unfold State.install
  by_cases h : isAdobe p = true
  · have hnoted : ((s.reinstall (lineOf p)).noteWriter (lineOf p) a).cores = s.cores := (State.noteWriter_cores ..).trans (State.reinstall_cores s h)
    rw [if_pos h]
    dsimp only
    generalize (s.reinstall (lineOf p)).noteWriter (lineOf p) a = u at hnoted ⊢
    split
    · split
      · rw [State.touchWay_cores, State.noteFrame_cores, hnoted]
      · exact hnoted
    · split
      · exact hnoted
      · split
        · rw [State.touchWay_cores, State.noteFrame_cores]
          exact hnoted
        · exact hnoted
  · rw [if_neg h]
    split
    · rw [State.touchWay_cores, State.noteAccess_cores]
    · rfl

theorem State.l1Use_cores (s : State) (c l p : Nat) : (s.l1Use c l p).cores = s.cores := by
  unfold State.l1Use
  dsimp only
  split
  · rfl
  · split
    · rfl
    · split <;> rfl

theorem State.l1Use_homeStore (s : State) (c l p : Nat) : (s.l1Use c l p).homeStore = s.homeStore := by
  unfold State.l1Use
  dsimp only
  split
  · rfl
  · split
    · rfl
    · split <;> rfl

/-- Lines have been reached for reads: marks and tags may have changed, and no core and no byte at a home has. -/
structure Reached (s t : State) : Prop where
  outside : t.outside = s.outside
  cores : t.cores = s.cores
  home : t.homeStore = s.homeStore

theorem Reached.refl (s : State) : Reached s s := ⟨rfl, rfl, rfl⟩

theorem Reached.trans {s t u : State} (h : Reached s t) (h' : Reached t u) : Reached s u :=
  ⟨h'.outside.trans h.outside, h'.cores.trans h.cores, h'.home.trans h.home⟩

theorem State.install_reached (s : State) (p : Nat) (a : Access) : Reached s (s.install p a) :=
  ⟨State.install_outside s p a, State.install_cores s p a, State.install_homeStore s p a⟩

theorem State.l1Use_reached (s : State) (c l p : Nat) : Reached s (s.l1Use c l p) :=
  ⟨State.l1Use_outside s c l p, State.l1Use_cores s c l p, State.l1Use_homeStore s c l p⟩

theorem State.reachLane_reached (s : State) (gid : Nat) (g : Group) (cache : Nat) (a : LaneAcc) : Reached s (s.reachLane gid g cache a) := by
  unfold State.reachLane State.readIn
  split
  · exact State.install_reached s _ _
  · split
    · exact Reached.refl s
    · split
      · exact State.l1Use_reached s _ _ _
      · exact (State.install_reached s _ _).trans (State.l1Use_reached _ _ _ _)

theorem reachLanes_reached (s : State) (gid : Nat) (g : Group) (cache : Nat) (ls : List LaneAcc) :
    Reached s (ls.foldl (fun s a => s.reachLane gid g cache a) s) := by
  induction ls generalizing s with
  | nil => exact Reached.refl s
  | cons a ls ih => exact (State.reachLane_reached s gid g cache a).trans (ih _)

/-- What is seen of a byte depends on the homes, the version lines and the writes that wait in the L1. -/
theorem State.viewByte_congr {s t : State} {c : Nat} (hhome : t.homeStore = s.homeStore) (hversions : t.versions = s.versions)
    (hl1 : (t.core c).l1 = (s.core c).l1) (team y : Nat) : t.viewByte c team y = s.viewByte c team y := by
  cases hy : isChip y with
  | true =>
    have hbyte := State.homeByte_eq_of_homeStore hhome y
    rw [State.homeByte, State.homeByte, if_pos hy, if_pos hy] at hbyte
    rw [State.viewByte, State.viewByte, if_pos hy, if_pos hy, hbyte]
  | false =>
    rw [State.viewByte_eq_seen _ c team hy, State.viewByte_eq_seen _ c team hy, State.versionByte_congr hversions, State.seen, State.seen, hl1,
      State.homeByte_eq_of_homeStore hhome]

/-! ### The lanes of a load -/

/-- The state that the lanes of a load are read in: an acquire that would pin a 65th line is read at the home slices (R355). -/
def State.drained (s : State) (g : Group) (n : Nat) (acquire : Option Nat) (ls : List LaneAcc) : State :=
  if acquire.isSome && acquire != some (s.loadScope g acquire ls) then ls.foldl (fun s a => s.drainRange g.core a.place n) s else s

/-- The state that a load leaves before its results arrive. -/
def State.loaded (s : State) (gid : Nat) (g : Group) (n : Nat) (acquire : Option Nat) (cache : Nat) (ls : List LaneAcc) : State :=
  let t := ls.foldl (fun s a => s.reachLane gid g cache a) (s.drained g n acquire ls)
  if acquire.isSome then t.pinLanes g (s.loadScope g acquire ls) ls else t

theorem State.loadLanes_eq (s : State) (gid : Nat) (g : Group) (n : Nat) (acquire : Option Nat) (cache : Nat) (ls : List LaneAcc) :
    s.loadLanes gid g n acquire cache ls = (s.loaded gid g n acquire cache ls, ls.map fun a => (s.drained g n acquire ls).readLane g n a) := rfl

theorem State.drained_apart (s : State) (g : Group) (n : Nat) (acquire : Option Nat) (ls : List LaneAcc) :
    (s.drained g n acquire ls).apart g.core = s.apart g.core := by
  unfold State.drained
  split
  · exact foldl_view (fun s : State => s.apart g.core) _ (fun s a => State.split_apart s g.core _ _) ls s
  · rfl

theorem State.pinLanes_fields (s : State) (g : Group) (scope : Nat) (ls : List LaneAcc) :
    (s.pinLanes g scope ls).groups = s.groups ∧ (s.pinLanes g scope ls).cores = s.cores ∧ (s.pinLanes g scope ls).versions = s.versions ∧
      (s.pinLanes g scope ls).homeStore = s.homeStore := by
  unfold State.pinLanes
  split <;> exact ⟨rfl, rfl, rfl, rfl⟩

section
variable (s : State) (gid : Nat) (g : Group) (n : Nat) (acquire : Option Nat) (cache : Nat) (ls : List LaneAcc)

/-- The lines are reached from the state that the lanes are read in, and then pinned. -/
theorem State.loaded_fields :
    (s.loaded gid g n acquire cache ls).groups = s.groups ∧ (s.loaded gid g n acquire cache ls).cores = (s.drained g n acquire ls).cores ∧
      (s.loaded gid g n acquire cache ls).versions = s.versions ∧
      (s.loaded gid g n acquire cache ls).homeStore = (s.drained g n acquire ls).homeStore := by
  obtain ⟨hout, hcores, hhome⟩ := reachLanes_reached (s.drained g n acquire ls) gid g cache ls
  have hapart := s.drained_apart g n acquire ls
  obtain ⟨hpgroups, hpcores, hpversions, hphome⟩ := (ls.foldl (fun s a => s.reachLane gid g cache a) (s.drained g n acquire ls)).pinLanes_fields g
    (s.loadScope g acquire ls) ls
  have hgroups := (State.groups_of_outside hout).trans (State.groups_of_apart hapart)
  have hversions := (State.versions_of_outside hout).trans (State.versions_of_apart hapart)
  unfold State.loaded
  dsimp only
  split
  · exact ⟨hpgroups.trans hgroups, hpcores.trans hcores, hpversions.trans hversions, hphome.trans hhome⟩
  · exact ⟨hgroups, hcores, hversions, hhome⟩

theorem State.loaded_cell (j i : Nat) : ((s.loaded gid g n acquire cache ls).core j).cell i = (s.core j).cell i := by
  obtain ⟨-, hcores, -, -⟩ := s.loaded_fields gid g n acquire cache ls
  have hcore : (s.loaded gid g n acquire cache ls).core j = (s.drained g n acquire ls).core j := by rw [State.core, hcores]; rfl
  have hapart := State.core_of_apart (s.drained_apart g n acquire ls) j
  rw [hcore]
  exact (congrArg (fun k : Core => k.cell i) hapart :)

/-- The pins that a load leaves. -/
theorem State.loaded_pins : (acquire = none → (s.loaded gid g n acquire cache ls).pins = s.pins) ∧ ∀ x, acquire = some x →
    if s.pinScope g x ls < 2 then (∀ p ∈ s.pins, p ∈ (s.loaded gid g n acquire cache ls).pins) ∧
      ∀ a ∈ ls, isChip a.place = false → a.image = false →
        { core := g.core, team := g.team, line := lineOf a.place } ∈ (s.loaded gid g n acquire cache ls).pins
    else (s.loaded gid g n acquire cache ls).pins = s.pins := by
  have hout := (reachLanes_reached (s.drained g n acquire ls) gid g cache ls).outside
  have hpins := (State.pins_of_outside hout).trans (State.pins_of_apart (s.drained_apart g n acquire ls))
  unfold State.loaded
  refine ⟨fun hacquire => ?_, fun x hacquire => ?_⟩
  · subst hacquire
    exact hpins
  · subst hacquire
    dsimp only [Option.isSome_some, State.loadScope]
    rw [if_pos rfl]
    split
    · next hscope =>
      have hpinned := (ls.foldl (fun s a => s.reachLane gid g cache a) (s.drained g n (some x) ls)).pinLanes_pins g hscope ls
      rw [hpins] at hpinned
      exact hpinned
    · next hscope =>
      rw [State.pinLanes, if_neg hscope]
      exact hpins

end

/-! ### What a lane reads -/

/-- A lane's read keeps its lane number. -/
theorem State.readLane_lane (s : State) (g : Group) (n : Nat) (a : LaneAcc) : (s.readLane g n a).lane = a.lane := by
  unfold State.readLane LaneAcc.reads
  split <;> rfl

theorem State.readLane_cell (s : State) (g : Group) (n : Nat) (a : LaneAcc) : (s.readLane g n a).cell = a.cell := by
  unfold State.readLane LaneAcc.reads
  split <;> rfl

/-- A lane's read keeps its register. -/
theorem State.readLane_cells (s : State) (g : Group) (n : Nat) (a : LaneAcc) (prot : Bool) : (s.readLane g n a).cells prot = a.cells prot := by
  unfold State.readLane LaneAcc.reads
  split <;> rfl

/-- What a lane none of whose bytes has been read reads. -/
theorem State.readLane_value (s : State) (g : Group) (n : Nat) {a : LaneAcc} (h : a.got = []) :
    (s.readLane g n a).value = BitVec.ofNat 64 (if a.image then s.homeNum a.place n else numOf (s.view g.core g.team a.place n)) ∧
      (s.readLane g n a).bad = if a.image then (spread a.place n).any s.homeBad else s.viewAnyBad g.core g.team a.place n := by
  unfold State.readLane LaneAcc.reads
  rw [h]
  cases a.image <;> exact ⟨rfl, Bool.or_false _⟩

/-! ### The answers -/

section
variable {s : State} {gid op n cache : Nat} {sg : Bool} {acquire : Option Nat} {ls : List LaneAcc} {g : Group} {i : Instr}
  (h : s.flying gid op g (.load n sg ls acquire cache)) (hls : ∀ a ∈ ls, a.done = false ∧ a.got = [])
  (hi : i ∈ [Instr.loadReturn gid op, .pinnedRetry gid op])
include hls

theorem laneSpans_waiting {n : Nat} : laneSpans n ls = ls.map fun a => (a.place, n) := by
  have hall : ls.filter (fun a => !a.done) = ls := List.filter_eq_self.2 fun a ha => by simp [(hls a ha).1]
  rw [laneSpans, hall, List.map_eq_flatMap]
  exact List.flatMap_congr fun a ha => by rw [LaneAcc.left, (hls a ha).2]

include h hi

theorem execLoadReturn_eq : exec i s =
    if (!g.held op (ls.map fun a => (a.place, n)) && !(ls.any fun a => s.pinnedFrom g.team a.place n)) && s.mayAcquire g acquire ls then
      .next ((s.loaded gid g n acquire cache ls).finishWith gid op
        (((ls.map fun a => (s.drained g n acquire ls).readLane g n a).foldl (fun l a => putLane a l) ls).flatMap fun a =>
          laneResult g.prot a (extendLoad n sg a.value)))
    else .next s := by
  obtain ⟨hg, hwork, -⟩ := id h
  have hall : ls.filter (fun a => !a.done) = ls := List.filter_eq_self.2 fun a ha => by simp [(hls a ha).1]
  have hpinned : (ls.any fun a => !a.done && s.pinnedFrom g.team a.place n) = ls.any fun a => s.pinnedFrom g.team a.place n := by
    rw [Bool.eq_iff_iff, List.any_eq_true, List.any_eq_true]
    exact exists_congr fun a => and_congr_right fun ha => by rw [(hls a ha).1, Bool.not_false, Bool.true_and]
  have hmay : s.mayLoad g op n ls = (!g.held op (ls.map fun a => (a.place, n)) && !(ls.any fun a => s.pinnedFrom g.team a.place n)) := by
    rw [State.mayLoad, State.flying_not_over h, laneSpans_waiting hls, hpinned]
    rfl
  have hreturn : exec i s = execLoadReturn gid op s := by
    rcases List.mem_cons.1 hi with rfl | hi
    · rfl
    · rw [List.mem_singleton.1 hi]
      change execPinnedRetry gid op s = _
      rw [execPinnedRetry, hwork]
  rw [hreturn, execLoadReturn, hg, hwork]
  dsimp only
  rw [hall, hmay, State.loadLanes_eq]
  rfl

theorem load_waits (hheld : (∃ a ∈ ls, s.pinnedFrom g.team a.place n = true) ∨ g.held op (ls.map fun a => (a.place, n)) = true) :
    exec i s = .next s := by
  have hmay : (!g.held op (ls.map fun a => (a.place, n)) && !(ls.any fun a => s.pinnedFrom g.team a.place n)) = false := by
    rcases hheld with ⟨a, ha, hpinned⟩ | hheld
    · rw [List.any_eq_true.2 ⟨a, ha, hpinned⟩, Bool.not_true, Bool.and_false]
    · rw [hheld, Bool.not_true, Bool.false_and]
  rw [execLoadReturn_eq h hls hi, hmay, Bool.false_and]
  rfl

theorem load_returns (hpinned : ∀ a ∈ ls, s.pinnedFrom g.team a.place n = false) (hheld : g.held op (ls.map fun a => (a.place, n)) = false)
    (hmay : s.mayAcquire g acquire ls = true) (hlanes : (ls.map fun a => a.lane).Nodup) :
    exec i s = .next ((s.loaded gid g n acquire cache ls).finishWith gid op
      ((ls.map fun a => (s.drained g n acquire ls).readLane g n a).flatMap fun a => laneResult g.prot a (extendLoad n sg a.value))) := by
  have hnone : (ls.any fun a => s.pinnedFrom g.team a.place n) = false := List.any_eq_false.2 fun a ha => by rw [hpinned a ha]; exact Bool.false_ne_true
  have hsame : ((ls.map fun a => (s.drained g n acquire ls).readLane g n a).map fun a => a.lane) = ls.map fun a => a.lane := by
    rw [List.map_map]
    exact List.map_congr_left fun a _ => State.readLane_lane ..
  rw [execLoadReturn_eq h hls hi, hheld, hnone, hmay, foldl_putLane hsame hlanes]
  rfl

end

/-- An acquire at its own scope reads its lanes where they are. -/
theorem State.drained_eq_self {s : State} {g : Group} {n : Nat} {acquire : Option Nat} {ls : List LaneAcc}
    (h : ∀ x, acquire = some x → s.pinScope g x ls = x) : s.drained g n acquire ls = s := by
  unfold State.drained
  cases acquire with
  | none => rfl
  | some x =>
    rw [State.loadScope, h x rfl, bne_self_eq_false, Bool.and_false]
    rfl

/-- Settles O25: a load that may be performed writes what its group sees, and one that may not waits. -/
theorem loadReturns : Obligations.LoadReturns := by
  unfold Obligations.LoadReturns
  intro s gid op n cache sg acquire ls g src regs h hls cells seen bad i hi
  refine ⟨load_waits h hls hi, fun hpinned hheld hmay hdefers hregs hnodup hlanes => ?_⟩
  have hcells : (ls.map fun a => (s.drained g n acquire ls).readLane g n a).flatMap (LaneAcc.cells g.prot) = ls.flatMap cells := by
    rw [List.flatMap_map]
    exact List.flatMap_congr fun a _ => State.readLane_cells ..
  obtain ⟨hgroups, hcores, hversions, hhome⟩ := s.loaded_fields gid g n acquire cache ls
  have hu : (s.loaded gid g n acquire cache ls).group? gid = some g := by rw [State.group?, hgroups]; exact h.1
  obtain ⟨hresults, hothers⟩ := State.finishWith_cells hu hdefers hregs (ls.map fun a => (s.drained g n acquire ls).readLane g n a)
    (fun a => extendLoad n sg a.value) (by rw [hcells]; exact hnodup)
  obtain ⟨hplain, hpins⟩ := s.loaded_pins gid g n acquire cache ls
  have hkeeps := congrArg State.pins (State.finishWith_rest (u := s.loaded gid g n acquire cache ls) (gid := gid) (op := op)
    ((ls.map fun a => (s.drained g n acquire ls).readLane g n a).flatMap fun a => laneResult g.prot a (extendLoad n sg a.value)))
  dsimp only at hkeeps
  refine ⟨_, load_returns h hls hi hpinned hheld hmay hlanes, State.finishWith_landed hu _, fun hscope => ⟨fun a ha c hc => ?_, fun k hk => ?_, fun core team place => ?_⟩,
    fun c hc => ?_, fun k hk => ?_, ?_⟩
  · have ha' := List.mem_map_of_mem (f := fun a => (s.drained g n acquire ls).readLane g n a) ha
    obtain ⟨hcell, hpoison⟩ := hresults _ ha' c (by rw [State.readLane_cells]; exact hc)
    rw [State.drained_eq_self hscope] at hcell hpoison ⊢
    obtain ⟨hvalue, hbad⟩ := State.readLane_value s g n (hls a ha).2
    rw [hvalue] at hcell
    rw [hbad] at hpoison
    exact ⟨hcell, hpoison⟩
  · rw [State.finishWith_core_ne hu _ hk, State.core, hcores, State.drained_eq_self hscope]
    rfl
  · rw [State.finishWith_view hu hdefers hregs]
    rw [State.drained_eq_self hscope] at hhome hcores
    exact State.viewByte_congr hhome hversions (by rw [State.core, hcores]; rfl) team place
  · exact (hothers c (by rw [hcells]; exact hc)).trans (s.loaded_cell gid g n acquire cache ls g.core c)
  · exact (State.finishWith_group_ne _ hk).trans (by rw [State.group?, hgroups]; rfl)
  · cases hacquire : acquire with
    | none =>
      subst hacquire
      exact hkeeps.trans (hplain rfl)
    | some x =>
      have hx := hpins x hacquire
      subst hacquire
      dsimp only
      rw [hkeeps]
      exact hx

end Sys2Proof.Machine
end

section
/-! ATOMIC_PERFORMED (R148, R149, R351, R355). -/

namespace Sys2Proof.Machine

/-! ### Numbers of bytes -/

theorem numOf_bytesOf (v n : Nat) : numOf (bytesOf v n) = v % 256 ^ n := by
  induction n generalizing v with
  | zero => rw [Nat.pow_zero, Nat.mod_one]; rfl
  | succ n ih =>
    have hpow : 256 ^ (n + 1) = 256 * 256 ^ n := Nat.pow_succ'
    rw [bytesOf, numOf, ih, BitVec.toNat_ofNat, hpow]
    exact (Nat.mod_mul (x := v) (a := 256) (b := 256 ^ n)).symm

theorem numOf_lt (l : List Byte) : numOf l < 256 ^ l.length := by
  induction l with
  | nil => exact Nat.one_pos
  | cons b l ih =>
    rw [numOf, List.length_cons, Nat.pow_succ']
    have hb : b.toNat < 256 := b.isLt
    omega

theorem pow_256 (n : Nat) : 256 ^ n = 2 ^ (8 * n) := by rw [Nat.pow_mul]

/-! ### Places of a lane's size -/

/-- The number that a core sees at a place, where no version line holds it. -/
def State.num (s : State) (c n p : Nat) : Nat := numOf ((spread p n).map (s.seen c))

theorem State.num_congr {s t : State} {c n p : Nat} (h : ∀ j, j < n → t.seen c (p + j) = s.seen c (p + j)) : t.num c n p = s.num c n p := by
  refine congrArg numOf (List.map_congr_left fun y hy => ?_)
  obtain ⟨j, hj, rfl⟩ := List.mem_map.1 hy
  exact h j (List.mem_range.1 hj)

theorem State.num_lt (s : State) (c n p : Nat) : s.num c n p < 2 ^ (8 * n) := by
  have hlt := numOf_lt ((spread p n).map (s.seen c))
  rw [List.length_map, spread, List.length_map, List.length_range, pow_256] at hlt
  exact hlt

/-- A place of an atomic: aligned to its size, and none in adobe space. -/
structure Sited (n p : Nat) : Prop where
  size : n = 4 ∨ n = 8
  aligned : p % n = 0
  notAdobe : isAdobe p = false

theorem Sited.isAdobe {n p : Nat} (h : Sited n p) {j : Nat} (hj : j < n) : isAdobe (p + j) = false := by
  obtain ⟨hsize, haligned, hna⟩ := h
  rw [Bool.eq_false_iff, Ne, isAdobe_iff] at hna ⊢
  rcases hsize with rfl | rfl <;> omega

theorem Sited.fits {n p : Nat} (h : Sited n p) : isChip p = true ∨ p + n ≤ chipBase := by
  obtain ⟨hsize, haligned, -⟩ := h
  by_cases hchip : isChip p = true
  · exact Or.inl hchip
  · rw [isChip_iff] at hchip
    rw [chipBase]
    rcases hsize with rfl | rfl <;> omega

/-- Two places of an atomic are the same or share no byte. -/
theorem Sited.apart {n p q : Nat} (hp : Sited n p) (hq : Sited n q) (h : p ≠ q) {j : Nat} (hj : j < n) : p + j < q ∨ q + n ≤ p + j := by
  obtain ⟨hsize, hpa, -⟩ := hp
  obtain ⟨-, hqa, -⟩ := hq
  rcases hsize with rfl | rfl <;> omega

theorem Sited.present {n p : Nat} (h : Sited n p) (s : State) (c : Nat) {j : Nat} (hj : j < n) : s.Present c (p + j) :=
  State.present_of_not_isAdobe s c (h.isAdobe hj)

/-! ### Reads before a write -/

theorem Reached.seen {s t : State} (h : Reached s t) (c y : Nat) : t.seen c y = s.seen c y := by
  rw [State.seen, State.seen, State.homeByte_eq_of_homeStore h.home, State.core, h.cores]
  rfl

theorem Reached.present {s t : State} (h : Reached s t) {c y : Nat} (hy : s.Present c y) : t.Present c y := by
  rw [State.Present, State.l2_eq_of_homeStore h.home, State.core, h.cores]
  exact hy

theorem Writes.afterReads {s t u : State} {c place : Nat} {bytes : List Byte} (h : Reached s t) (hw : Writes t u c place bytes) :
    Writes s u c place bytes where
  beside y hy hbeside := by
    obtain ⟨hseen, hpresent⟩ := hw.beside y (h.present hy) hbeside
    exact ⟨hseen.trans (h.seen c y), hpresent⟩
  inside := hw.inside
  offChip hoff := hw.offChip fun w hw => hoff w (by rw [State.core, h.cores] at hw; exact hw)
  apart := hw.apart.trans (State.apart_of_outside h.outside c)

theorem Writes.afterDrain {s u : State} {c lo n place : Nat} {bytes : List Byte} (hw : Writes (s.drainRange c lo n) u c place bytes) :
    Writes s u c place bytes where
  beside y hy hbeside := by
    obtain ⟨hseen, hpresent⟩ := State.drainRange_seen s c lo n hy
    obtain ⟨hseen', hpresent'⟩ := hw.beside y hpresent hbeside
    exact ⟨hseen'.trans hseen, hpresent'⟩
  inside := hw.inside
  offChip hoff := hw.offChip (State.drainRange_offChip hoff lo n)
  apart := hw.apart.trans (State.split_apart s c _ _)

/-! ### One lane -/

/-- The value that a lane of an atomic leaves at its place. -/
def atomStep (k : AtomOp) (n m : Nat) (a : LaneAcc) : Nat := atomNew k (8 * n) m a.operand.toNat a.swap.toNat % 2 ^ (8 * n)

/-- A lane that has still to be performed, in a group without version lines, at a place that no image shows. -/
structure AtomLane (n : Nat) (a : LaneAcc) : Prop where
  half : a.half = false
  got : a.got = []
  image : a.image = false
  sited : Sited n a.place

section
variable {s : State} {gid id n scope cache : Nat} {g : Group} {k : AtomOp} {a : LaneAcc} (ha : AtomLane n a)
include ha

/-- The state in which a lane of an atomic reads. -/
def State.atomRead (s : State) (g : Group) (n scope : Nat) (a : LaneAcc) : State := if scope < 2 then s else s.drainRange g.core a.place n

omit ha in
theorem State.atomRead_apart (s : State) (g : Group) (n scope : Nat) (a : LaneAcc) : (s.atomRead g n scope a).apart g.core = s.apart g.core := by
  unfold State.atomRead
  split
  · rfl
  · exact State.split_apart s g.core _ _

omit ha in
theorem State.atomRead_offChip (h : s.OffChip g.core) : (s.atomRead g n scope a).OffChip g.core := by
  unfold State.atomRead
  split
  · exact h
  · exact State.drainRange_offChip h _ _

omit ha in
theorem State.atomRead_seen (s : State) (g : Group) (n scope : Nat) (a : LaneAcc) {y : Nat} (hy : isAdobe y = false) :
    (s.atomRead g n scope a).seen g.core y = s.seen g.core y := by
  unfold State.atomRead
  split
  · rfl
  · exact (State.drainRange_seen s g.core a.place n (State.present_of_not_isAdobe s g.core hy)).1

theorem State.atomLane_eq : s.atomLane gid g id k n scope cache a =
    (if scope < 2 then (s.reachLane gid g cache a).writeOwn gid g id a.place
        (bytesOf (atomNew k (8 * n) ((s.atomRead g n scope a).readLane g n a).value.toNat a.operand.toNat a.swap.toNat) n) cache a.image
      else ((s.drainRange g.core a.place n).install a.place ((s.drainRange g.core a.place n).accessOf gid g cache)).writeAtHome gid g a.place
        (bytesOf (atomNew k (8 * n) ((s.atomRead g n scope a).readLane g n a).value.toNat a.operand.toNat a.swap.toNat) n) cache a.image,
      (s.atomRead g n scope a).readLane g n a) := by
  unfold State.atomLane State.atomRead
  rw [ha.half, ha.image]
  by_cases hscope : scope < 2
  · simp only [hscope, decide_true, Bool.not_false, Bool.and_self, ↓reduceIte, Bool.false_eq_true]
  · simp only [hscope, decide_false, Bool.false_and, ↓reduceIte, Bool.false_eq_true]

/-- A lane reads the number that its core sees. -/
theorem State.atomLane_value (hv : ∀ v ∈ s.versions, v.team ≠ g.team) (hoff : s.OffChip g.core) :
    ((s.atomRead g n scope a).readLane g n a).value = BitVec.ofNat 64 (s.num g.core n a.place) := by
  have hapart := State.atomRead_apart s g n scope a
  have hseen := (State.atomRead_offChip (n := n) (scope := scope) (a := a) hoff).viewByte_eq_seen (team := g.team) (by
    rw [State.versions_of_apart hapart]
    exact hv)
  rw [((s.atomRead g n scope a).readLane_value g n ha.got).1, ha.image, State.view, State.num]
  refine congrArg (fun l => BitVec.ofNat 64 (numOf l)) (List.map_congr_left fun y hy => ?_)
  obtain ⟨j, hj, rfl⟩ := List.mem_map.1 hy
  exact (hseen _).trans (State.atomRead_seen s g n scope a (ha.sited.isAdobe (List.mem_range.1 hj)))

theorem State.atomLane_writes (hg : g.versioned = false) : Writes s (s.atomLane gid g id k n scope cache a).1 g.core a.place
    (bytesOf (atomNew k (8 * n) ((s.atomRead g n scope a).readLane g n a).value.toNat a.operand.toNat a.swap.toNat) n) := by
  rw [State.atomLane_eq ha]
  dsimp only
  split
  · exact Writes.afterReads (State.reachLane_reached s gid g cache a) (writeOwn_writes hg id a.place _ cache a.image false (by
      rw [length_bytesOf]
      exact ha.sited.fits))
  · exact Writes.afterDrain (Writes.afterReads (State.install_reached _ _ _) (writeAtHome_writes hg a.place _ cache a.image false))

/-- Each place of an atomic after one lane's step. -/
theorem State.atomLane_num (hg : g.versioned = false) (hv : ∀ v ∈ s.versions, v.team ≠ g.team) (hoff : s.OffChip g.core) {p : Nat} (hp : Sited n p) :
    (s.atomLane gid g id k n scope cache a).1.num g.core n p =
      if a.place = p then atomStep k n (s.num g.core n p) a else s.num g.core n p := by
  have hw := State.atomLane_writes (s := s) (gid := gid) (id := id) (scope := scope) (cache := cache) (k := k) ha hg
  rw [State.atomLane_value ha hv hoff] at hw
  split
  · next hplace =>
    subst hplace
    have hnum : s.num g.core n a.place % 2 ^ 64 = s.num g.core n a.place := Nat.mod_eq_of_lt <| (s.num_lt g.core n a.place).trans_le <| by
      rcases hp.size with rfl | rfl <;> decide
    rw [BitVec.toNat_ofNat, hnum] at hw
    rw [atomStep, ← pow_256, ← numOf_bytesOf, State.num, spread, List.map_map]
    refine congrArg numOf (List.ext_getElem (by simp) fun j hj hj' => ?_)
    have hlt : j < n := by simpa using hj
    have hin := (hw.inside (a.place + j) (by rw [length_bytesOf]; omega)).1
    rw [show a.place + j - a.place = j by omega, List.getD_eq_getElem?_getD, List.getElem?_eq_getElem hj', Option.getD_some] at hin
    rw [List.getElem_map, List.getElem_range]
    exact hin
  · next hplace =>
    refine State.num_congr fun j hj => (hw.beside (p + j) (hp.present s g.core hj) ?_).1
    rw [length_bytesOf]
    exact hp.apart ha.sited (fun h => hplace h.symm) hj

theorem State.atomLane_l1 (hg : g.versioned = false) (hscope : 2 ≤ scope) (h : (s.core g.core).l1 = []) :
    ((s.atomLane gid g id k n scope cache a).1.core g.core).l1 = [] := by
  have hdrained : ((s.drainRange g.core a.place n).core g.core).l1 = [] := by
    rw [State.drainRange_eq_split, State.split_l1, h]
    rfl
  have hinstalled := State.l1_of_outside (State.install_outside (s.drainRange g.core a.place n) a.place ((s.drainRange g.core a.place n).accessOf gid g cache))
    g.core
  rw [State.atomLane_eq ha]
  dsimp only
  rw [if_neg (Nat.not_lt.2 hscope), State.writeAtHome_eq hg, State.l1_of_outside (State.writeHome_outside ..) g.core, State.drainRange_eq_split,
    State.split_l1, hinstalled, hdrained]
  rfl

end

/-! ### All lanes -/

/-- The number at a place once the lanes that reach it have each made their step. -/
def atomSteps (k : AtomOp) (n p : Nat) (ls : List LaneAcc) (m : Nat) : Nat := (ls.filter fun a => a.place == p).foldl (atomStep k n) m

theorem atomSteps_cons (k : AtomOp) (n p : Nat) (a : LaneAcc) (ls : List LaneAcc) (m : Nat) :
    atomSteps k n p (a :: ls) m = atomSteps k n p ls (if a.place = p then atomStep k n m a else m) := by
  rw [atomSteps, List.filter_cons]
  by_cases h : a.place = p
  · rw [if_pos (beq_iff_eq.2 h), if_pos h]
    rfl
  · rw [if_neg (by simpa using h), if_neg h]
    rfl

/-- The lanes of an atomic have made their steps one after the other; xs are the lanes with their old values. -/
structure Atomed (s t : State) (c n scope : Nat) (k : AtomOp) (ls xs : List LaneAcc) : Prop where
  lanes : (xs.map fun x => (x.lane, x.cell)) = ls.map fun a => (a.lane, a.cell)
  old : ∀ before a after, ls = before ++ a :: after → ∃ x ∈ xs, x.cell = a.cell ∧ x.value = BitVec.ofNat 64 (atomSteps k n a.place before (s.num c n a.place))
  num : ∀ p, Sited n p → t.num c n p = atomSteps k n p ls (s.num c n p)
  beside : ∀ y, s.Present c y → (∀ a ∈ ls, y < a.place ∨ a.place + n ≤ y) → t.seen c y = s.seen c y ∧ t.Present c y
  offChip : t.OffChip c
  apart : t.apart c = s.apart c
  l1 : 2 ≤ scope → (s.core c).l1 = [] → (t.core c).l1 = []

theorem atomLanes_atomed {g : Group} {gid id n scope cache : Nat} {k : AtomOp} (hg : g.versioned = false) (ls : List LaneAcc)
    (hls : ∀ a ∈ ls, AtomLane n a) (s : State) (hv : ∀ v ∈ s.versions, v.team ≠ g.team) (hoff : s.OffChip g.core) :
    Atomed s (s.atomLanes gid g id k n scope cache ls).1 g.core n scope k ls (s.atomLanes gid g id k n scope cache ls).2 := by
  induction ls generalizing s with
  | nil =>
    exact ⟨rfl, fun before _ _ h => (by cases before <;> cases h), fun _ _ => rfl, fun _ hy _ => ⟨rfl, hy⟩, hoff, rfl, fun _ h => h⟩
  | cons a ls ih =>
    have ha := hls a List.mem_cons_self
    have hw := State.atomLane_writes (s := s) (gid := gid) (id := id) (scope := scope) (cache := cache) (k := k) ha hg
    have hnum := fun {p} (hp : Sited n p) => State.atomLane_num (s := s) (gid := gid) (id := id) (scope := scope) (cache := cache) (k := k) ha hg hv hoff hp
    have hrest := ih (fun b hb => hls b (List.mem_cons_of_mem a hb)) (s.atomLane gid g id k n scope cache a).1
      (by rw [State.versions_of_apart hw.apart]; exact hv) (hw.offChip hoff)
    have hold : (s.atomLane gid g id k n scope cache a).2 = (s.atomRead g n scope a).readLane g n a := by rw [State.atomLane_eq ha]
    have hlanes : s.atomLanes gid g id k n scope cache (a :: ls) =
        (((s.atomLane gid g id k n scope cache a).1.atomLanes gid g id k n scope cache ls).1,
          (s.atomLane gid g id k n scope cache a).2 :: ((s.atomLane gid g id k n scope cache a).1.atomLanes gid g id k n scope cache ls).2) := rfl
    have hl1 := State.atomLane_l1 (s := s) (gid := gid) (id := id) (scope := scope) (cache := cache) (k := k) ha hg
    rw [hlanes]
    dsimp only
    generalize (s.atomLane gid g id k n scope cache a).1 = t at hw hnum hrest hl1
    refine ⟨?_, fun before b after heq => ?_, fun p hp => ?_, fun y hy hall => ?_, hrest.offChip, hrest.apart.trans hw.apart, fun hscope h => ?_⟩
    · rw [List.map_cons, List.map_cons, hrest.lanes, hold, State.readLane_lane, State.readLane_cell]
    · cases before with
      | nil =>
        cases heq
        refine ⟨_, List.mem_cons_self, ?_, ?_⟩
        · rw [hold, State.readLane_cell]
        · rw [hold]
          exact State.atomLane_value ha hv hoff
      | cons c before =>
        cases heq
        obtain ⟨x, hx, hcell, hvalue⟩ := hrest.old before b after rfl
        rw [hnum (hls b (by simp)).sited] at hvalue
        exact ⟨x, List.mem_cons_of_mem _ hx, hcell, by rw [hvalue, atomSteps_cons]⟩
    · rw [hrest.num p hp, hnum hp, atomSteps_cons]
    · obtain ⟨hseen, hpresent⟩ := hw.beside y hy (by rw [length_bytesOf]; exact hall a List.mem_cons_self)
      obtain ⟨hseen', hpresent'⟩ := hrest.beside y hpresent fun b hb => hall b (List.mem_cons_of_mem a hb)
      exact ⟨hseen'.trans hseen, hpresent'⟩
    · exact hrest.l1 hscope (hl1 hscope h)

/-! ### ATOMIC_PERFORMED -/

/-- The state that an atomic leaves before its results arrive. -/
def State.atomicDone (s : State) (gid : Nat) (g : Group) (op : Nat) (k : AtomOp) (n order scope cache : Nat) (ls : List LaneAcc) : State :=
  let t := ((if order == 2 || order == 3 then s.release g scope else s).atomLanes gid g op k n scope cache ls).1
  if order = 0 then t else t.pinLanes g scope ls

/-- The lanes of an atomic with their old values. -/
def State.atomicOld (s : State) (gid : Nat) (g : Group) (op : Nat) (k : AtomOp) (n order scope cache : Nat) (ls : List LaneAcc) : List LaneAcc :=
  ((if order == 2 || order == 3 then s.release g scope else s).atomLanes gid g op k n scope cache ls).2

section
variable {s : State} {gid op n order scope cache : Nat} {k : AtomOp} {ls : List LaneAcc} {g : Group}
  (h : s.flying gid op g (.atomic k n order scope cache ls)) (hdone : ∀ a ∈ ls, a.done = false)
include h hdone

theorem execAtomicPerformed_eq : exec (.atomicPerformed gid op) s =
    if s.mayAtom gid g op n order (s.atomScope g order scope ls) cache ls then
      .next ((s.atomicDone gid g op k n order (s.atomScope g order scope ls) cache ls).finishWith gid op
        (((s.atomicOld gid g op k n order (s.atomScope g order scope ls) cache ls).foldl (fun l a => putLane a l) ls).flatMap fun a =>
          laneResult g.prot a a.value))
    else .next s := by
  obtain ⟨hg, hwork, -⟩ := id h
  have hall : ls.filter (fun a => !a.done) = ls := List.filter_eq_self.2 fun a ha => by simp [hdone a ha]
  change execAtomicPerformed gid op s = _
  rw [execAtomicPerformed, hg]
  dsimp only
  rw [State.flying_not_over h, State.performAtomic, hg, hwork]
  dsimp only
  rw [hall, State.performAtom]
  cases s.mayAtom gid g op n order (s.atomScope g order scope ls) cache ls <;> rfl

theorem atomic_waits (hreleases : order = 2 ∨ order = 3) (hearlier : ∃ o ∈ g.before op, o.finished = false ∧ o.work.isMemory = true) :
    exec (.atomicPerformed gid op) s = .next s := by
  have hmay : s.mayAtom gid g op n order (s.atomScope g order scope ls) cache ls = false := by
    have horder : (order == 2 || order == 3) = true := by rcases hreleases with rfl | rfl <;> rfl
    rw [State.mayAtom, horder, State.mayRelease_held hearlier]
    rfl
  rw [execAtomicPerformed_eq h hdone, hmay]
  rfl

/-- Nothing keeps the lanes of an atomic from being performed. -/
structure AtomFree (s : State) (gid op n order cache at' : Nat) (ls : List LaneAcc) (g : Group) : Prop where
  release : order = 2 ∨ order = 3 → (¬ ∃ o ∈ g.before op, o.finished = false ∧ o.work.isMemory = true) ∧ (2 ≤ at' → s.canDrain g.core = true)
  held : g.held op (ls.map fun a => (a.place, n)) = false
  barred : s.atomBarred gid g op n at' ls = false
  pinned : ∀ a ∈ ls, s.pinnedFrom g.team a.place n = false
  pins : order ≠ 0 → s.mayPin g at' ls = true
  room : 2 ≤ at' ∨ s.ownTakes g cache ls = true

omit h in
theorem AtomFree.may {at' : Nat} (hfree : AtomFree s gid op n order cache at' ls g) (hgot : ∀ a ∈ ls, a.got = []) :
    s.mayAtom gid g op n order at' cache ls = true := by
  obtain ⟨hrelease, hheld, hbarred, hpinned, hpins, hroom⟩ := hfree
  have hrel : (!(order == 2 || order == 3) || s.mayRelease g op at') = true := by
    by_cases horder : order = 2 ∨ order = 3
    · obtain ⟨hearlier, hdrain⟩ := hrelease horder
      rw [State.mayRelease_of hearlier (or_iff_not_imp_left.2 fun hlt => hdrain (Nat.not_lt.1 hlt)), Bool.or_true]
    · have hno : (order == 2 || order == 3) = false := by simpa [not_or] using horder
      rw [hno]
      rfl
  have hspans : laneSpans n ls = ls.map fun a => (a.place, n) := laneSpans_waiting fun a ha => ⟨hdone a ha, hgot a ha⟩
  have hall : (ls.all fun a => !s.pinnedFrom g.team a.place n) = true := List.all_eq_true.2 fun a ha => by rw [hpinned a ha]; rfl
  have hpin : (order == 0 || s.mayPin g at' ls) = true := by
    by_cases horder : order = 0
    · rw [horder]
      rfl
    · rw [hpins horder, Bool.or_true]
  have htakes : (decide (2 ≤ at') || s.ownTakes g cache ls) = true := by rcases hroom with hle | htake <;> simp [*]
  rw [State.mayAtom, hrel, hspans, hheld, hbarred, hall, hpin, htakes]
  rfl

end

/-! ### What a performed atomic leaves -/

section
variable {s : State} {gid op n order at' cache : Nat} {k : AtomOp} {ls : List LaneAcc} {g : Group}

/-- The state in which the lanes of an atomic make their steps: after the release side of a release. -/
def State.atomStart (s : State) (g : Group) (order at' : Nat) : State := if order == 2 || order == 3 then s.release g at' else s

theorem State.atomStart_fields (s : State) (g : Group) (order at' : Nat) :
    (s.atomStart g order at').groups = s.groups ∧ (s.atomStart g order at').versions = s.versions ∧
      (∀ j i, ((s.atomStart g order at').core j).cell i = (s.core j).cell i) ∧
      (∀ y, isAdobe y = false → (s.atomStart g order at').seen g.core y = s.seen g.core y) ∧
      (s.OffChip g.core → (s.atomStart g order at').OffChip g.core) := by
  unfold State.atomStart
  split
  · by_cases hat : at' < 2
    · rw [State.release, if_pos hat]
      exact ⟨rfl, rfl, fun _ _ => rfl, fun _ _ => rfl, fun h => h⟩
    · have hreleased := s.release_released g (Nat.not_lt.1 hat)
      exact ⟨hreleased.groups, hreleased.versions, fun j i => (hreleased.cells j i).1, fun y hy => s.release_seen g (Nat.not_lt.1 hat) hy,
        fun _ => State.offChip_of_l1_nil hreleased.l1⟩
  · exact ⟨rfl, rfl, fun _ _ => rfl, fun _ _ => rfl, fun h => h⟩

/-- The lanes' steps, and the pins of an acquire or release side. -/
theorem State.atomicDone_fields (s : State) (gid : Nat) (g : Group) (op : Nat) (k : AtomOp) (n order at' cache : Nat) (ls : List LaneAcc) :
    let t := ((s.atomStart g order at').atomLanes gid g op k n at' cache ls).1
    let u := s.atomicDone gid g op k n order at' cache ls
    u.groups = t.groups ∧ u.cores = t.cores ∧ u.versions = t.versions ∧ u.homeStore = t.homeStore := by
  intro t u
  have hu : u = if order = 0 then t else t.pinLanes g at' ls := rfl
  rw [hu]
  split
  · exact ⟨rfl, rfl, rfl, rfl⟩
  · exact t.pinLanes_fields g at' ls

theorem State.atomicDone_pins (s : State) (gid : Nat) (g : Group) (op : Nat) (k : AtomOp) (n order at' cache : Nat) (ls : List LaneAcc)
    (ht : ((s.atomStart g order at').atomLanes gid g op k n at' cache ls).1.pins = (s.atomStart g order at').pins) :
    let u := s.atomicDone gid g op k n order at' cache ls
    (order = 0 → u.pins = s.pins) ∧
      (order ≠ 0 → at' < 2 → ∀ a ∈ ls, isChip a.place = false → a.image = false → { core := g.core, team := g.team, line := lineOf a.place } ∈ u.pins) ∧
      (order = 2 ∨ order = 3 → 2 ≤ at' → ∀ p ∈ u.pins, p.team ≠ g.team) := by
  intro u
  have hu : u = if order = 0 then ((s.atomStart g order at').atomLanes gid g op k n at' cache ls).1
    else ((s.atomStart g order at').atomLanes gid g op k n at' cache ls).1.pinLanes g at' ls := rfl
  refine ⟨fun horder => ?_, fun horder hat => ?_, fun horder hat => ?_⟩
  · rw [hu, if_pos horder, ht, State.atomStart, horder]
    rfl
  · rw [hu, if_neg horder]
    exact (State.pinLanes_pins _ g hat ls).2
  · have hrelease : s.atomStart g order at' = s.release g at' := if_pos (by rcases horder with rfl | rfl <;> rfl)
    have hno : order ≠ 0 := by rcases horder with rfl | rfl <;> decide
    rw [hu, if_neg hno, State.pinLanes, if_neg (Nat.not_lt.2 hat), ht, hrelease, (s.release_released g hat).pins]
    exact fun p hp => by simpa using (List.mem_filter.1 hp).2

/-- The old values stand in the lanes' registers in the order of the lanes. -/
theorem cells_of_lanes {ls xs : List LaneAcc} (h : (xs.map fun x => (x.lane, x.cell)) = ls.map fun a => (a.lane, a.cell)) (prot : Bool) :
    (xs.map fun x => x.lane) = (ls.map fun a => a.lane) ∧ xs.flatMap (LaneAcc.cells prot) = ls.flatMap (LaneAcc.cells prot) := by
  have hlanes := congrArg (List.map Prod.fst) h
  have hcells := congrArg (List.flatMap fun x : Nat × Nat => if prot then [x.2, x.2 + 1] else [x.2]) h
  rw [List.map_map, List.map_map] at hlanes
  rw [List.flatMap_map, List.flatMap_map] at hcells
  exact ⟨hlanes, hcells⟩

theorem numOf_view {t u : State} {c team : Nat} (h : ∀ y, t.viewByte c team y = u.seen c y) (p n : Nat) : numOf (t.view c team p n) = u.num c n p :=
  congrArg numOf (List.map_congr_left fun y _ => h y)

/-- An atomic that may be performed. -/
theorem atomic_performs {scope : Nat} {src : Source} {regs : List Nat} (h : s.flying gid op g (.atomic k n order scope cache ls))
    (hat : at' = s.atomScope g order scope ls) (hdone : ∀ a ∈ ls, a.done = false) (hls : ∀ a ∈ ls, AtomLane n a)
    (hg : g.versioned = false) (hv : ∀ v ∈ s.versions, v.team ≠ g.team) (hoff : s.OffChip g.core)
    (hfree : AtomFree s gid op n order cache at' ls g) (hlanes : (ls.map fun a => a.lane).Nodup) (hcells : (ls.flatMap (LaneAcc.cells g.prot)).Nodup)
    (hdefers : g.defers = [⟨op, src, 0, regs, none, []⟩]) (hregs : ∀ r ∈ regs, r < 2048) :
    ∃ t, exec (.atomicPerformed gid op) s = .next t ∧ t.landed gid op ∧
      (∀ before a after, ls = before ++ a :: after →
        (∀ i ∈ a.cells g.prot, (t.core g.core).cell i = BitVec.ofNat 64 (atomSteps k n a.place before (numOf (s.view g.core g.team a.place n)))) ∧
        numOf (t.view g.core g.team a.place n) = atomSteps k n a.place ls (numOf (s.view g.core g.team a.place n))) ∧
      (∀ i, i ∉ ls.flatMap (LaneAcc.cells g.prot) → (t.core g.core).cell i = (s.core g.core).cell i) ∧
      (∀ y, isAdobe y = false → (∀ a ∈ ls, y < a.place ∨ a.place + n ≤ y) → t.viewByte g.core g.team y = s.viewByte g.core g.team y) ∧
      (∀ j, j ≠ gid → t.group? j = s.group? j) ∧
      (order = 2 ∨ order = 3 → 2 ≤ at' → (t.core g.core).l1 = [] ∧ ∀ p ∈ t.pins, p.team ≠ g.team) ∧
      (order ≠ 0 → at' < 2 → ∀ a ∈ ls, isChip a.place = false → a.image = false →
        { core := g.core, team := g.team, line := lineOf a.place } ∈ t.pins) ∧
      (order = 0 → t.pins = s.pins) := by
  obtain ⟨hgroups0, hversions0, hcells0, hseen0, hoff0⟩ := s.atomStart_fields g order at'
  have hv0 : ∀ v ∈ (s.atomStart g order at').versions, v.team ≠ g.team := by rw [hversions0]; exact hv
  have hatomed := atomLanes_atomed (gid := gid) (id := op) (scope := at') (cache := cache) (k := k) hg ls hls (s.atomStart g order at') hv0 (hoff0 hoff)
  obtain ⟨hgroups, hcores, hversions, hhome⟩ := s.atomicDone_fields gid g op k n order at' cache ls
  obtain ⟨hrelaxed, hpins, hreleased⟩ := s.atomicDone_pins gid g op k n order at' cache ls (State.pins_of_apart hatomed.apart)
  obtain ⟨hsame, hflat⟩ := cells_of_lanes hatomed.lanes g.prot
  have hexec := execAtomicPerformed_eq h hdone
  rw [← hat, hfree.may hdone fun a ha => (hls a ha).got, if_pos rfl] at hexec
  have hold : s.atomicOld gid g op k n order at' cache ls = ((s.atomStart g order at').atomLanes gid g op k n at' cache ls).2 := rfl
  rw [hold, foldl_putLane hsame hlanes] at hexec
  have hu : (s.atomicDone gid g op k n order at' cache ls).group? gid = some g := by
    rw [State.group?, hgroups, State.groups_of_apart hatomed.apart, hgroups0]
    exact h.1
  have hview : ∀ y, (State.finishWith (s.atomicDone gid g op k n order at' cache ls) gid op
      (((s.atomStart g order at').atomLanes gid g op k n at' cache ls).2.flatMap fun a => laneResult g.prot a a.value)).viewByte g.core g.team y =
      ((s.atomStart g order at').atomLanes gid g op k n at' cache ls).1.seen g.core y := fun y => by
    rw [State.finishWith_view hu hdefers hregs, State.viewByte_congr hhome hversions (by rw [State.core, hcores]; rfl)]
    exact hatomed.offChip.viewByte_eq_seen (by rw [State.versions_of_apart hatomed.apart]; exact hv0) y
  have hnum0 : ∀ p, Sited n p → (s.atomStart g order at').num g.core n p = numOf (s.view g.core g.team p n) := fun p hp => by
    rw [numOf_view (hoff.viewByte_eq_seen hv)]
    exact State.num_congr fun j hj => hseen0 _ (hp.isAdobe hj)
  obtain ⟨hresults, hothers⟩ := State.finishWith_cells hu hdefers hregs ((s.atomStart g order at').atomLanes gid g op k n at' cache ls).2
    (fun a => a.value) (by rw [hflat]; exact hcells)
  have hkeeps := congrArg State.pins (State.finishWith_rest (u := s.atomicDone gid g op k n order at' cache ls) (gid := gid) (op := op)
    (((s.atomStart g order at').atomLanes gid g op k n at' cache ls).2.flatMap fun a => laneResult g.prot a a.value))
  dsimp only at hkeeps
  refine ⟨_, hexec, State.finishWith_landed hu _, fun before a after heq => ⟨fun i hi => ?_, ?_⟩, fun i hi => ?_, fun y hy hbeside => ?_, fun j hj => ?_,
    fun horder hwide => ⟨?_, fun p hp => ?_⟩, fun horder hnarrow a ha hchip himage => ?_, fun horder => ?_⟩
  · obtain ⟨x, hx, hcell, hvalue⟩ := hatomed.old before a after heq
    have hix : i ∈ x.cells g.prot := by
      rw [LaneAcc.cells, hcell]
      exact hi
    rw [(hresults x hx i hix).1, hvalue, hnum0 _ (hls a (by rw [heq]; simp)).sited]
  · rw [numOf_view hview, hatomed.num _ (hls a (by rw [heq]; simp)).sited, hnum0 _ (hls a (by rw [heq]; simp)).sited]
  · rw [hothers i (by rw [hflat]; exact hi), State.core, hcores, ← hcells0]
    exact (congrArg (fun c : Core => c.cell i) (State.core_of_apart hatomed.apart g.core) :)
  · rw [hview, (hatomed.beside y (State.present_of_not_isAdobe _ g.core hy) hbeside).1, hseen0 y hy, hoff.viewByte_eq_seen hv]
  · rw [State.finishWith_group_ne _ hj, State.group?, hgroups, State.groups_of_apart hatomed.apart, hgroups0]
    rfl
  · have hrelease : s.atomStart g order at' = s.release g at' := if_pos (by rcases horder with rfl | rfl <;> rfl)
    have hempty := hatomed.l1 hwide (by rw [hrelease]; exact (s.release_released g hwide).l1)
    rw [(State.finishWith_memories hu hdefers hregs _ g.core).1, State.core, hcores]
    exact hempty
  · exact hreleased horder hwide p (hkeeps ▸ hp)
  · rw [hkeeps]
    exact hpins horder hnarrow a ha hchip himage
  · exact hkeeps.trans (hrelaxed horder)

end

/-- Settles O29: an atomic's lanes make their steps in order, each with the value before it. -/
theorem atomicResults : Obligations.AtomicResults := by
  unfold Obligations.AtomicResults
  intro s gid op n order scope cache k ls g src regs h releases earlier at' cells step seen
  refine ⟨fun hreleases hearlier hdone => atomic_waits h hdone hreleases hearlier,
    fun hg hv hn hls hbarred hpins hoff hlanes hcells hrelease hheld hroom hdefers hregs => ?_⟩
  have hatomLanes : ∀ a ∈ ls, AtomLane n a := fun a ha => by
    obtain ⟨-, hhalf, hgot, haligned, hadobe, himage, -⟩ := hls a ha
    exact ⟨hhalf, hgot, himage, hn, haligned, hadobe⟩
  have hunpinned : ∀ a ∈ ls, s.pinnedFrom g.team a.place n = false := fun a ha => by
    obtain ⟨-, -, -, -, -, -, hpinned⟩ := hls a ha
    exact hpinned
  have hfree : AtomFree s gid op n order cache at' ls g := ⟨hrelease, hheld, hbarred, hunpinned, hpins, hroom⟩
  obtain ⟨t, ht, hlanded, hvalues, hothers, hbeside, hgroups, hreleased, hpinned, hrelaxed⟩ := atomic_performs h rfl (fun a ha => (hls a ha).1)
    hatomLanes hg hv hoff hfree hlanes hcells hdefers hregs
  exact ⟨t, ht, hlanded, hvalues, hothers, fun y _ hy hall => hbeside y hy hall, hgroups, hreleased,
    fun horder hnarrow a ha hchip => hpinned horder hnarrow a ha hchip (hatomLanes a ha).image, hrelaxed⟩

end Sys2Proof.Machine
end

section
/-! SYSCALL (R38, R43, R54, R162, R380). -/

namespace Sys2Proof.Machine

/-! ### The hardware's accesses to private memory -/

theorem keeps_writeHome (p : Nat) (bytes : List Byte) (bad : Bool) (a : Access) (k : Option Nat) : Keeps fun s => s.writeHome p bytes bad a k := fun _ =>
  State.kept_of_outside (State.writeHome_outside ..)

theorem keeps_writeLeaf (addr : Nat) (l : Leaf) : Keeps fun s => s.writeLeaf addr l := by
  unfold State.writeLeaf
  split
  · exact Keeps.foldl (fun i => keeps_writeHome (addr / 128 * 128 + 8 * i) (bytesOf (l.bits + 0x20 + l.frame + 4096 * i) 8) false {} none) (List.range 16)
  · exact keeps_writeHome addr _ false {} none

theorem keeps_takeFrame (pool : Nat) : Keeps fun s => (s.takeFrame pool).1 := by
  intro s
  unfold State.takeFrame
  dsimp only
  split
  · rfl
  · exact keeps_writeHome _ _ _ _ _ s

theorem keeps_firstTouch (root pool va : Nat) : Keeps fun s => (s.firstTouch root pool va).1 := by
  intro s
  unfold State.firstTouch
  dsimp only
  split
  · have htake := keeps_takeFrame pool s
    dsimp only at htake
    split
    · next heq =>
      rw [heq] at htake
      exact (keeps_writeLeaf _ _ _).trans htake
    · rfl
  · rfl

theorem keeps_ensure (root pool va n : Nat) : Keeps fun s => s.ensure root pool va n := by
  unfold State.ensure
  refine Keeps.foldl (fun p s => ?_) (pieces (n / 4096 + 2) va n)
  dsimp only
  split
  · rfl
  · split
    · exact keeps_firstTouch root pool p.1 s
    · rfl

theorem keeps_touchRange (who : Who) (va n : Nat) (k : AccKind) : Keeps fun s => s.touchRange who va n k :=
  Keeps.foldl (fun p : Nat × Nat => keeps_touch who p.1 k) (pieces (n / 4096 + 2) va n)

theorem keeps_setHomePoison (p : Nat) (b : BitVec 2) : Keeps fun s => s.setHomePoison p b := fun _ => State.kept_of_outside (State.setHomePoison_outside ..)

theorem keeps_privWrite (g : Group) (off : Nat) (segs : List (Nat × Nat)) (n : Nat) (xs : List (Nat × BitVec 2)) :
    Keeps fun s => s.privWrite g off segs n xs := by
  have hdrain : Keeps fun s : State => segs.foldl (fun s e => s.drainRange g.core e.1 e.2) s :=
    Keeps.foldl (fun e : Nat × Nat => keeps_drainRange g.core e.1 e.2) segs
  have hwrite : Keeps fun s : State => (xs.zipIdx 0).foldl (fun s e =>
      if e.1.2 = 0 then s.writeHome (segPlace segs (n * e.2)) (bytesOf e.1.1 n) false
      else (s.writeHome (segPlace segs (n * e.2)) (bytesOf e.1.1 n) false).setHomePoison (segPlace segs (n * e.2)) e.1.2) s := by
    refine Keeps.foldl (fun e => ?_) (xs.zipIdx 0)
    split
    · exact fun s => keeps_writeHome _ _ _ _ _ s
    · exact (keeps_setHomePoison _ _).comp (keeps_writeHome _ _ _ _ _)
  intro s
  exact (keeps_touchRange _ _ _ _ _).trans ((hwrite.comp hdrain) s)

/-! ### The stacks of a stopped group -/

/-- The records of a group's stacks have been written: the host's port, the registers and the other groups are as they were, and of the group
only which records memory was given has changed. -/
structure Shows (s t : State) (gid : Nat) : Prop where
  group : ∀ g, s.group? gid = some g → ∃ shown, t.group? gid = some { g with shown := shown }
  groups : ∀ k, k ≠ gid → t.group? k = s.group? k
  host : { t.host with rings := [] } = { s.host with rings := [] }
  rings : ∀ n, n ≠ 1 → t.host.ring n = s.host.ring n
  cells : ∀ c i, (t.core c).cell i = (s.core c).cell i

theorem Shows.of_kept {s t : State} (h : t.kept = s.kept) (gid : Nat) : Shows s t gid := by
  have hgroup : ∀ k, t.group? k = s.group? k := fun k => by rw [State.group?, State.groups_of_kept h]; rfl
  exact ⟨fun g hg => ⟨g.shown, (hgroup gid).trans hg⟩, fun k _ => hgroup k, State.host_of_kept h, fun n hn => State.ring_of_kept h hn,
    State.cell_of_kept h⟩

theorem Shows.trans {s t u : State} {gid : Nat} (h : Shows s t gid) (h' : Shows t u gid) : Shows s u gid where
  group g hg := by
    obtain ⟨_, hg'⟩ := h.group g hg
    obtain ⟨shown, hg''⟩ := h'.group _ hg'
    exact ⟨shown, hg''⟩
  groups k hk := (h'.groups k hk).trans (h.groups k hk)
  host := h'.host.trans h.host
  rings n hn := (h'.rings n hn).trans (h.rings n hn)
  cells c i := (h'.cells c i).trans (h.cells c i)

theorem Shows.onGroup (s : State) (gid : Nat) (f : List Nat → List Nat) : Shows s (s.onGroup gid fun g => { g with shown := f g.shown }) gid where
  group g hg := ⟨f g.shown, by rw [State.group?_onGroup, hg]; rfl⟩
  groups k hk := State.group?_onGroup_ne s _ hk
  host := rfl
  rings _ _ := rfl
  cells _ _ := rfl

theorem Shows.foldl {α : Type} {gid : Nat} {f : State → α → State} (h : ∀ s a, Shows s (f s a) gid) (l : List α) (s : State) : Shows s (l.foldl f s) gid := by
  induction l generalizing s with
  | nil => exact Shows.of_kept rfl gid
  | cons a l ih => exact (h s a).trans (ih _)

theorem State.showRecord_shows (s : State) (gid : Nat) (g : Group) (off bits : Nat) : Shows s (s.showRecord gid g off bits) gid := by
  have hensure := Shows.of_kept (keeps_ensure (s.hwWho g).root (s.hwWho g).pool (g.pbase.toNat + off) 16 s) gid
  dsimp only at hensure
  unfold State.showRecord
  dsimp only
  generalize s.ensure (s.hwWho g).root (s.hwWho g).pool (g.pbase.toNat + off) 16 = u at hensure
  split
  · next segs _ =>
    have hwrite := Shows.of_kept (keeps_privWrite g off segs 16 [(bits, 0)] u) gid
    exact (hensure.trans hwrite).trans (Shows.onGroup _ gid fun l => off :: l)
  · exact hensure

theorem State.writeStacks_shows (s : State) (gid : Nat) : Shows s (s.writeStacks gid) gid := by
  unfold State.writeStacks
  split
  · exact Shows.of_kept rfl gid
  · next g hg =>
    have hclear : Shows s (s.setGroup gid { g with shown := [] }) gid := by
      refine ⟨fun g' hg' => ⟨[], ?_⟩, fun k hk => State.group?_setGroup_ne s _ hk, rfl, fun _ _ => rfl, fun _ _ => rfl⟩
      cases hg.symm.trans hg'
      exact State.group?_setGroup ..
    exact (hclear.trans (Shows.foldl (fun s e => State.showRecord_shows s gid g _ _) _ _)).trans
      (Shows.foldl (fun s e => State.showRecord_shows s gid g _ _) _ _)

/-! ### SYSCALL -/

section
variable {s st : State} {e : Env}

/-- The slot of a group that parks behind its SYSCALL, while the group stops. -/
def Group.parked (src : Source) (pc : Lane) (g : Group) : Group :=
  { g.setSlot src { g.slot src with life := .parked, pc := pc, hints := [] } with life := .stopped, stage := .running }

/-- The record of a system call (R162, R380). -/
def State.syscallRecord (s : State) (e : Env) (c : BitVec 21) (tag : Nat) : HostRec :=
  { tagged := true, bytes := recordBytes 128
      ([recordHeader 0x01 0 tag, (8, c.toNat), (16, s.taskWord e.g), (24, s.groupIdentity e.g), (32, e.slot.mask.toNat)] ++
        (((List.range 8).map fun i => e.g.frameSize - 8 + i).zipIdx 0).map fun x => (64 + 8 * x.2, (e.scalar x.1).toNat)) }

/-- The slot of a group has parked, and the group waits under a tag. -/
def State.parks (st : State) (e : Env) : State := (st.drawTag e.gid (some e.src)).1.onGroup e.gid (Group.parked e.src (e.slot.pc + 4))

/-- The state in which the stacks of a group that has made a system call are written. -/
def State.syscalled (st : State) (e : Env) (c : BitVec 21) : State :=
  (((st.issued e).parks e).send 0 (((st.issued e).parks e).syscallRecord e c (st.issued e).freeTag)).withdraw e.gid

theorem State.syscallRecord_congr (hteams : st.teams = s.teams) (hgangs : st.gangs = s.gangs) (c : BitVec 21) (tag : Nat) :
    st.syscallRecord e c tag = s.syscallRecord e c tag := by
  simp only [State.syscallRecord, State.taskWord, State.groupIdentity, State.team, State.gang, hteams, hgangs]

@[simp] theorem Env.fresh_frameSize (e : Env) : e.fresh.g.frameSize = e.g.frameSize := by simp [Group.frameSize]

theorem State.syscallRecord_fresh (s : State) (e : Env) (c : BitVec 21) (tag : Nat) : s.syscallRecord e.fresh c tag = s.syscallRecord e c tag := by
  have htask : s.taskWord e.fresh.g = s.taskWord e.g := by
    have hname : e.fresh.g.task = e.g.task := by cases hsrc : e.src <;> simp [Env.fresh, hsrc, Group.setSlot]
    rw [State.taskWord, State.taskWord, Env.fresh_gteam, hname]
  have hidentity : s.groupIdentity e.fresh.g = s.groupIdentity e.g := by
    have hnumber : e.fresh.g.number = e.g.number := by simp [Env.fresh]
    rw [State.groupIdentity, State.groupIdentity, Env.fresh_gteam, Env.fresh_gcore, hnumber]
  simp only [State.syscallRecord, htask, hidentity, Env.fresh_frameSize, Env.fresh_scalar, Env.fresh_mask]

/-- SYSCALL of a settled stream. -/
theorem syscall_answers (h : Settled s e) {c : BitVec 21} (hf : Fits e { closes := .both, runs := .program } (.syscall c)) (hm : e.slot.mask ≠ 0) :
    ∃ st, Opened s st e ∧
      (e.g.syscalls = true → e.g.arrivals = [] → (∀ r ∈ (List.range 8).map fun i => e.g.frameSize - 8 + i, e.Clean r) →
        (e.g.prot → ∀ r ∈ (List.range 8).map fun i => e.g.frameSize - 8 + i, e.val 0 r e.lowest = e.val 1 r e.lowest) →
        exec (.syscall c) s = .next ((st.syscalled e.fresh c).writeStacks e.gid)) ∧
      (e.g.syscalls = false → exec (.syscall c) s = .next (e.fresh.answer st (.trap (e.fresh.slotTrap 0x04) none))) := by
  obtain ⟨st, hopened, hissue⟩ := State.issue_of_settled h rfl rfl hf fun e st =>
    let args := (List.range 8).map fun i => e.g.frameSize - 8 + i
    match firstTrap [if e.g.syscalls then none else some (e.slotTrap 0x04), e.poisonTrap (args.flatMap fun r => e.readLowest r),
        e.silentTrap [e.lowest] fun l => args.any fun r => e.pairDiffers r (BitVec.allOnes 64) l] with
    | some t => .trap t none
    | none => if !e.g.arrivals.isEmpty then .wait st else .jump ((st.syscalled e c).writeStacks e.gid)
  have hexec : exec (.syscall c) s = _ := hissue
  refine ⟨st, hopened, fun hcalls harrivals hclean hprot => ?_, fun hcalls => ?_⟩
  · have hpoison : e.poisonTrap (((List.range 8).map fun i => e.g.frameSize - 8 + i).flatMap fun r => e.readLowest r) = none :=
      Env.poisonTrap_none_of_readsClean <| Env.readsClean_of_cells fun x hx => by
        obtain ⟨r, hr, hx⟩ := List.mem_flatMap.1 hx
        obtain ⟨l, hl, hx⟩ := List.mem_flatMap.1 hx
        obtain ⟨k, hk, rfl⟩ := List.mem_map.1 hx
        rw [List.mem_singleton.1 hl]
        exact ⟨hclean r hr, k, hk, e.lowest, Env.lowest_mem_lanes hm, rfl⟩
    have hsilent : e.silentTrap [e.lowest] (fun l => ((List.range 8).map fun i => e.g.frameSize - 8 + i).any fun r =>
        e.pairDiffers r (BitVec.allOnes 64) l) = none := Env.silentTrap_none fun hp l hl => by
      rw [List.mem_singleton.1 hl]
      exact List.any_eq_false.2 fun r hr => by rw [Env.pairDiffers_of_eq (hprot hp r hr)]; exact Bool.false_ne_true
    have hcalls' : e.fresh.g.syscalls = true := by rw [← hcalls]; simp [Env.fresh]
    rw [hexec]
    simp only [hcalls', ↓reduceIte, Env.fresh_frameSize, Env.fresh_readLowest, Env.fresh_poisonTrap, hpoison, Env.fresh_lowest, Env.fresh_silentTrap,
      Env.fresh_pairDiffers, hsilent, Env.fresh_garrivals, harrivals]
    rfl
  · have hcalls' : e.fresh.g.syscalls = false := by rw [← hcalls]; simp [Env.fresh]
    rw [hexec]
    simp only [hcalls', Bool.false_eq_true, ↓reduceIte]
    rfl

/-- A group that waits under a tag. -/
def Group.tagged (g : Group) (tag : Nat) : Group := { g with tag := some tag }

/-- A group whose slot has parked. -/
theorem State.parks_group {g : Group} (h : st.group? e.gid = some g) :
    (st.parks e).group? e.gid = some (Group.parked e.src (e.slot.pc + 4) (g.tagged st.freeTag)) := by
  have hdrawn : (st.drawTag e.gid (some e.src)).1.group? e.gid = some (g.tagged st.freeTag) := by
    refine (State.group?_onGroup ..).trans ?_
    exact congrArg (Option.map fun g : Group => g.tagged st.freeTag) h
  rw [State.parks, State.group?_onGroup, hdrawn]
  rfl

theorem State.parks_group_ne (st : State) (e : Env) {k : Nat} (h : k ≠ e.gid) : (st.parks e).group? k = st.group? k :=
  (State.group?_onGroup_ne _ _ h).trans (State.group?_onGroup_ne _ _ h)

theorem State.parks_host (st : State) (e : Env) : (st.parks e).host =
    { st.host with tags := st.host.tags ++ [(st.freeTag, e.gid, some e.src)], nextTag := (st.freeTag + 1) % 2 ^ 32 } := rfl

theorem State.parks_view (st : State) (e : Env) (core team y : Nat) : (st.parks e).viewByte core team y = st.viewByte core team y :=
  State.viewByte_congr rfl rfl rfl team y

theorem Group.parked_fields {src : Source} (h : src ≠ .access) (pc : Lane) (g : Group) :
    (Group.parked src pc g).life = .stopped ∧ ((Group.parked src pc g).slot src).life = .parked ∧ ((Group.parked src pc g).slot src).pc = pc ∧
      (Group.parked src pc g).tag = g.tag ∧ (Group.parked src pc g).frames = g.frames ∧ (Group.parked src pc g).preds = g.preds := by
  cases src <;> first | exact ⟨rfl, rfl, rfl, rfl, rfl, rfl⟩ | exact absurd rfl h

/-- What SYSCALL leaves before the stacks are written. -/
structure Syscalled (s u : State) (e : Env) (c : BitVec 21) : Prop where
  group : ∃ g, u.group? e.gid = some g ∧ g.life = .stopped ∧ (g.slot e.src).life = .parked ∧ (g.slot e.src).pc = e.slot.pc + 4 ∧
    g.tag = some s.freeTag ∧ g.frames = e.g.frames ∧ g.preds = e.g.preds
  groups : ∀ k, k ≠ e.gid → u.group? k = s.group? k
  tags : u.host.tags = s.host.tags ++ [(s.freeTag, e.gid, some e.src)]
  ring : (u.host.ring 0).waiting = (s.host.ring 0).waiting ++ [s.syscallRecord e c s.freeTag]
  cells : ∀ c i, (u.core c).cell i = (s.core c).cell i
  memory : ∀ core team place, u.viewByte core team place = s.viewByte core team place

/-- The count of an issue leaves a group's frames and predicates. -/
theorem Group.counted_keeps (g : Group) (e : Env) (b : Bool) (n : Nat) : (g.counted e b n).frames = g.frames ∧ (g.counted e b n).preds = g.preds := by
  unfold Group.counted
  cases e.src <;> exact ⟨rfl, rfl⟩

/-- A record sent to the host's first ring changes no group, no register and no byte. -/
theorem State.send_fields (st : State) (r : HostRec) : (st.send 0 r).groups = st.groups ∧ (st.send 0 r).host.tags = st.host.tags ∧
    ((st.send 0 r).host.ring 0).waiting = (st.host.ring 0).waiting ++ [r] ∧ (∀ c, (st.send 0 r).core c = st.core c) ∧
    (st.send 0 r).homeStore = st.homeStore ∧ (st.send 0 r).versions = st.versions := by
  refine ⟨rfl, rfl, ?_, fun _ => rfl, rfl, rfl⟩
  have hring : (st.send 0 r).host.ring 0 = { st.host.ring 0 with waiting := (st.host.ring 0).waiting ++ [r] } := NMap.get_put_self ..
  rw [hring]

theorem Opened.syscalled (h : Opened s st e) (hs : Settled s e) (hsrc : e.src ≠ .access) (c : BitVec 21) :
    Syscalled s (st.syscalled e.fresh c) e c := by
  have hdefers : e.fresh.g.defers = [] := by rw [Env.fresh_gdefers, hs.settled]
  have hissued : (st.issued e.fresh).group? e.gid = some (e.fresh.g.counted e.fresh true (st.issueNo + 1)) := State.group?_countIssue (e := e.fresh) h.group hdefers true
  have hcounted : SameBut s (st.issued e.fresh) e.gid := h.sameBut.trans (sameBut_countIssue (e := e.fresh) h.group hdefers true)
  have hteams : (st.issued e.fresh).teams = s.teams := (congrArg State.teams hcounted.package :)
  have hgangs : (st.issued e.fresh).gangs = s.gangs := (congrArg State.gangs hcounted.package :)
  have hhost : (st.issued e.fresh).host = s.host := (congrArg State.host hcounted.package :)
  have hversions : (st.issued e.fresh).versions = s.versions := (congrArg State.versions hcounted.package :)
  have hfree : (st.issued e.fresh).freeTag = s.freeTag := by simp only [State.freeTag, hhost]
  have hrecord : ((st.issued e.fresh).parks e.fresh).syscallRecord e.fresh c (st.issued e.fresh).freeTag = s.syscallRecord e c s.freeTag := by
    rw [hfree, State.syscallRecord_fresh, State.syscallRecord_congr (st := (st.issued e.fresh).parks e.fresh) hteams hgangs]
  have hparked := State.parks_group (e := e.fresh) hissued
  obtain ⟨hgroups, htags, hring, hcores, hhome, hversions'⟩ := ((st.issued e.fresh).parks e.fresh).send_fields (s.syscallRecord e c s.freeTag)
  rw [hfree] at hparked
  have hsent : (((st.issued e.fresh).parks e.fresh).send 0 (s.syscallRecord e c s.freeTag)).group? e.gid =
      some (Group.parked e.src (e.slot.pc + 4) ((e.fresh.g.counted e.fresh true (st.issueNo + 1)).tagged s.freeTag)) := by
    rw [State.group?, hgroups]
    exact hparked
  obtain ⟨keep, hwithdrawn⟩ := State.group?_withdraw hsent
  have hsame := sameBut_withdraw hsent
  have hport : ((((st.issued e.fresh).parks e.fresh).send 0 (s.syscallRecord e c s.freeTag)).withdraw e.gid).host =
      (((st.issued e.fresh).parks e.fresh).send 0 (s.syscallRecord e c s.freeTag)).host :=
    (congrArg State.host hsame.package :)
  obtain ⟨hlife, hslot, hpc, htag, hframes, hpreds⟩ := Group.parked_fields hsrc (e.slot.pc + 4)
    ((e.fresh.g.counted e.fresh true (st.issueNo + 1)).tagged s.freeTag)
  obtain ⟨hcframes, hcpreds⟩ := Group.counted_keeps e.fresh.g e.fresh true (st.issueNo + 1)
  rw [State.syscalled, hrecord, Env.fresh_gid]
  refine ⟨⟨_, hwithdrawn, hlife, ?_, ?_, htag, (hframes.trans hcframes).trans (Env.fresh_gframes e),
    (hpreds.trans hcpreds).trans (Env.fresh_gpreds e)⟩, fun k hk => ?_, ?_, ?_, fun c i => ?_, fun core team place => ?_⟩
  · rw [← hslot]
    cases e.src <;> rfl
  · rw [← hpc]
    cases e.src <;> rfl
  · rw [hsame.groups k hk, State.group?, hgroups]
    exact (State.parks_group_ne _ e.fresh hk).trans (hcounted.groups k hk)
  · rw [hport, htags, State.parks_host, hhost, hfree]
    rfl
  · rw [hport, hring, State.parks_host, hhost]
    rfl
  · rw [((hsame.cores c).2 i).1, hcores]
    exact ((hcounted.cores c).2 i).1
  · rw [hsame.memory, State.viewByte_congr hhome hversions' (by rw [hcores])]
    exact (State.parks_view ..).trans (hcounted.memory core team place)

end

/-- Settles O17: a system call parks its slot behind one record, or stops its group where the launch does not permit it. -/
theorem systemCallParks : Obligations.SystemCallParks := by
  unfold Obligations.SystemCallParks
  intro s e c h hf hm args
  obtain ⟨st, hopened, hcall, hrefused⟩ := syscall_answers h hf hm
  refine ⟨fun hcalls harrivals hclean hprot => ?_, fun hcalls hstop => ?_⟩
  · obtain ⟨⟨g, hg, hlife, hslot, hpc, htag, hframes, hpreds⟩, hgroups, htags, hring, hcells, hmemory⟩ :=
      hopened.syscalled h (hf.src_ne_access nofun) c
    have hshows := State.writeStacks_shows (st.syscalled e.fresh c) e.gid
    obtain ⟨shown, hshown⟩ := hshows.group g hg
    refine ⟨_, _, hcall hcalls harrivals hclean hprot, hshown, hlife, ?_, ?_, htag, hframes, hpreds, ?_, ?_, fun c i => (hshows.cells c i).trans (hcells c i),
      fun k hk => (hshows.groups k hk).trans (hgroups k hk), _, rfl, hmemory⟩
    · rw [← hslot]
      cases e.src <;> rfl
    · rw [← hpc]
      cases e.src <;> rfl
    · exact (congrArg HostPort.tags hshows.host :).trans htags
    · rw [hshows.rings 0 (by decide)]
      exact hring
  · exact ⟨_, hrefused hcalls, hopened.raise h hstop (hf.stream rfl) (show ∀ debug, fateOf 0x04 debug ≠ .gang by decide) (show 0x04 < 256 by decide) (show 0x04 ≠ 0 by decide) rfl none⟩

end Sys2Proof.Machine
end

section
/-! The frame of a management command (R381): a record that holds an opcode and its operand words is taken as what the command's run
comes to. -/

namespace Sys2Proof.Machine

/-! ### Operand words of a record -/

/-- The number that operand words make, the first in its low 64 bits. -/
def wordsNum : List Nat → Nat
  | [] => 0
  | w :: ws => w % 2 ^ 64 + 2 ^ 64 * wordsNum ws

theorem commandRecord_foldl (ws : List Nat) (k a : Nat) :
    (ws.zipIdx k).foldl (fun n (e : Nat × Nat) => n + e.1 % 2 ^ 64 * 2 ^ (64 * e.2)) a = a + 2 ^ (64 * k) * wordsNum ws := by
  induction ws generalizing k a with
  | nil => rfl
  | cons w ws ih =>
    rw [List.zipIdx_cons, List.foldl_cons, ih, wordsNum]
    ring

theorem commandRecord_eq (op : Nat) (ws : List Nat) : commandRecord op ws = op + 2 ^ 64 * wordsNum ws := by
  rw [commandRecord, commandRecord_foldl, Nat.zero_add]

theorem wordsNum_div (ws : List Nat) {i : Nat} (h : i < ws.length) : wordsNum ws / 2 ^ (64 * i) % 2 ^ 64 = ws[i] % 2 ^ 64 := by
  induction ws generalizing i with
  | nil => exact absurd h (Nat.not_lt_zero i)
  | cons w ws ih =>
    cases i with
    | zero => simp [wordsNum, Nat.add_mod]
    | succ i =>
      have hdiv : wordsNum (w :: ws) / 2 ^ 64 = wordsNum ws := by
        rw [wordsNum, Nat.add_mul_div_left _ _ (Nat.two_pow_pos 64), Nat.div_eq_of_lt (Nat.mod_lt _ (Nat.two_pow_pos 64)), Nat.zero_add]
      rw [show 64 * (i + 1) = 64 + 64 * i by ring, pow_add, ← Nat.div_div_eq_div_mul, hdiv]
      exact ih (Nat.lt_of_succ_lt_succ h)

theorem commandRecord_opcode {op : Nat} (h : op < 256) (ws : List Nat) : commandRecord op ws % 256 = op := by
  rw [commandRecord_eq]
  omega

/-- The operand words of a record are those that it was made of. -/
theorem operandsOf_commandRecord {op : Nat} (h : op < 256) {ws : List Nat} (hws : ∀ w ∈ ws, w < 2 ^ 64) :
    operandsOf (commandRecord op ws) ws.length = ws := by
  refine List.ext_getElem (by simp [operandsOf]) fun i hi hi' => ?_
  have hdiv : commandRecord op ws / 2 ^ 64 = wordsNum ws := by
    rw [commandRecord_eq]
    omega
  simp only [operandsOf, List.getElem_map, List.getElem_range]
  rw [show 64 * (i + 1) = 64 + 64 * i by ring, pow_add, ← Nat.div_div_eq_div_mul,
    hdiv, wordsNum_div ws hi', Nat.mod_eq_of_lt (hws _ (List.getElem_mem hi'))]

/-! ### What a command comes to -/

/-- The outcome of a run: it stays at the head of the ring, or its completion record is due. -/
def CommandEnd.outcome : CommandEnd → Host.Outcome State Fault Refusal
  | .waits s => .next s
  | .ends status result s => .next (s.takeCommand.completeCommand status result)

/-- A command whose record is the next one runs, or is a bad operand where an operand is too wide. -/
theorem State.command_of_commands {s : State} {op : Nat} {operands : List (BitVec 64 × Nat)} (run : State → CommandEnd) (hop : op < 256)
    (h : s.Commands op (operands.map fun o => o.1.toNat)) :
    s.command op operands run =
      (if operands.any (fun o => decide (2 ^ o.2 ≤ o.1.toNat)) then badOperand s else run s).outcome := by
  have hwords : operandsOf (commandRecord op (operands.map fun o => o.1.toNat)) operands.length = operands.map fun o => o.1.toNat := by
    have hof := operandsOf_commandRecord (ws := operands.map fun o => o.1.toNat) hop fun w hw => by
      obtain ⟨o, -, rfl⟩ := List.mem_map.mp hw
      exact o.1.isLt
    rwa [List.length_map] at hof
  have hnext : s.nextCommand = some (commandRecord op (operands.map fun o => o.1.toNat)) := h
  rw [State.command, hnext]
  dsimp only
  rw [if_neg (by rw [hwords, commandRecord_opcode hop]; simp)]
  by_cases hwide : operands.any (fun o => decide (2 ^ o.2 ≤ o.1.toNat)) = true
  · rw [if_pos (Or.inr hwide), if_pos hwide]
    rfl
  · rw [if_neg (by simpa using hwide), if_neg hwide]
    cases run s <;> rfl

/-- A run that ends is a command done. -/
theorem CommandDone.of_ends {i : Instr} {s s1 : State} {status result : Nat} {e : CommandEnd} (hexec : exec i s = e.outcome)
    (he : e = .ends status result s1) : CommandDone i s status result s1 := by
  rw [CommandDone, hexec, he, CommandEnd.outcome]

/-- A run that waits leaves its command at the head of the ring. -/
theorem exec_of_waits {i : Instr} {s s1 : State} {e : CommandEnd} (hexec : exec i s = e.outcome) (he : e = .waits s1) :
    exec i s = .next s1 := by
  rw [hexec, he, CommandEnd.outcome]

/-! ### The rings of a completion -/

theorem HostPort.ring_onRing_self (s : State) (n : Nat) (f : Ring → Ring) : (s.onRing n f).host.ring n = f (s.host.ring n) :=
  NMap.get_put_self _ _ _ _

theorem HostPort.ring_onRing_ne (s : State) {n k : Nat} (f : Ring → Ring) (h : k ≠ n) : (s.onRing n f).host.ring k = s.host.ring k := by
  rw [State.onRing, HostPort.ring, NMap.get, NMap.find_put_ne _ _ h]
  rfl

/-- Completing a command moves ring 3 on and puts one record behind those of ring 2 (R380). -/
theorem State.complete_results (s : State) (status result : Nat) :
    ((s.takeCommand.completeCommand status result).host.ring 3).cidx = (s.host.ring 3).cidx + 1 ∧
    ((s.takeCommand.completeCommand status result).host.ring 2).waiting = (s.host.ring 2).waiting ++
      [{ tagged := false, bytes := recordBytes 64 [recordHeader 0x21 status 0, (16, result), (24, s.now)] }] ∧
    { s.takeCommand.completeCommand status result with host := s.host } = s := by
  refine ⟨?_, ?_, rfl⟩
  · rw [State.completeCommand, State.send, HostPort.ring_onRing_ne _ _ (by decide), State.takeCommand, HostPort.ring_onRing_self]
  · rw [State.completeCommand, State.send, HostPort.ring_onRing_self, State.takeCommand, HostPort.ring_onRing_ne _ _ (by decide)]
    rfl

end Sys2Proof.Machine

end

section
/-! The commands that set a table, the time and mappings, and those that empty caches: SETCTXT, SETQT, MAP, UNMAP, INVAL, ICINV, TIMESET
and the opcodes that are none (R341, R342, R363, R381, R390). -/

namespace Sys2Proof.Machine

/-! ### Widths of operands -/

section
variable {s : State} {op : Nat} {operands : List (BitVec 64 × Nat)} (run : State → CommandEnd) (hop : op < 256)
  (h : s.Commands op (operands.map fun o => o.1.toNat))
include hop h

/-- Operands of their widths: the command runs. -/
theorem State.command_runs (hw : ∀ o ∈ operands, o.1.toNat < 2 ^ o.2) : s.command op operands run = (run s).outcome := by
  rw [State.command_of_commands run hop h, if_neg]
  rw [List.any_eq_true]
  rintro ⟨o, ho, hwide⟩
  exact absurd (hw o ho) (Nat.not_lt.2 (of_decide_eq_true hwide))

/-- An operand wider than its width is a bad operand. -/
theorem State.command_wide {o : BitVec 64 × Nat} (ho : o ∈ operands) (hwide : 2 ^ o.2 ≤ o.1.toNat) :
    s.command op operands run = (badOperand s).outcome := by
  rw [State.command_of_commands run hop h, if_pos (List.any_eq_true.2 ⟨o, ho, decide_eq_true hwide⟩)]

end

/-! ### SETCTXT, SETQT -/

/-- A command that sets a table's address: 57 bits, at a multiple of 64. -/
theorem table_results {i : Instr} {op : Nat} {s : State} {pa : BitVec 64} {set : State → State} (hop : op < 256)
    (hexec : exec i s = s.command op [(pa, 57)] fun st => if pa.toNat % 64 ≠ 0 then badOperand st else doneWith 0 (set st))
    (h : s.Commands op [pa.toNat]) :
    (pa.toNat % 64 = 0 → pa.toNat < 2 ^ 57 → CommandDone i s 0 0 (set s)) ∧
    ((pa.toNat % 64 ≠ 0 ∨ 2 ^ 57 ≤ pa.toNat) → CommandDone i s 0x81 0 s) := by
  by_cases hw : pa.toNat < 2 ^ 57
  · rw [State.command_runs _ hop (operands := [(pa, 57)]) h fun o ho => by rwa [List.mem_singleton.mp ho]] at hexec
    exact ⟨fun halign _ => .of_ends hexec (if_neg (not_not.2 halign)), fun hbad => .of_ends hexec (if_pos (hbad.resolve_right (Nat.not_le.2 hw)))⟩
  · rw [State.command_wide _ hop (operands := [(pa, 57)]) h (List.mem_singleton_self _) (Nat.not_lt.1 hw)] at hexec
    exact ⟨fun _ hnarrow => absurd hnarrow hw, fun _ => .of_ends hexec rfl⟩

section
variable {s : State} {pa : BitVec 64}

theorem setctxt_results (h : s.Commands 1 [pa.toNat]) :
    (pa.toNat % 64 = 0 → pa.toNat < 2 ^ 57 → CommandDone (.setctxt pa) s 0 0 { s with host := { s.host with ctxTable := pa.toNat } }) ∧
    ((pa.toNat % 64 ≠ 0 ∨ 2 ^ 57 ≤ pa.toNat) → CommandDone (.setctxt pa) s 0x81 0 s) :=
  table_results (set := fun st => { st with host := { st.host with ctxTable := pa.toNat } }) (by decide) rfl h

theorem setqt_results (h : s.Commands 2 [pa.toNat]) :
    (pa.toNat % 64 = 0 → pa.toNat < 2 ^ 57 → CommandDone (.setqt pa) s 0 0 { s with host := { s.host with queueTable := pa.toNat } }) ∧
    ((pa.toNat % 64 ≠ 0 ∨ 2 ^ 57 ≤ pa.toNat) → CommandDone (.setqt pa) s 0x81 0 s) :=
  table_results (set := fun st => { st with host := { st.host with queueTable := pa.toNat } }) (by decide) rfl h

end

/-! ### MAP and UNMAP -/

/-- What a mapping comes to: its word, or a refusal where that is all ones. -/
theorem mapEnd_done {i : Instr} {s : State} {r : State × Lane} (hexec : exec i s = (mapEnd r).outcome) :
    (r.2 ≠ BitVec.allOnes 64 → CommandDone i s 0 r.2.toNat r.1) ∧ (r.2 = BitVec.allOnes 64 → CommandDone i s 0x80 (2 ^ 64 - 1) r.1) := by
  refine ⟨fun hne => .of_ends hexec (if_neg hne), fun heq => .of_ends hexec ?_⟩
  rw [mapEnd, if_pos heq, heq]
  rfl

/-- A mapping waits where it is held, and else comes to its word. -/
theorem mapping_results {i : Instr} {s : State} {r : State × Lane} {context line : Bool}
    (hexec : exec i s = (if context || line then CommandEnd.waits s else mapEnd r).outcome) :
    (¬ (context = true ∨ line = true) → (r.2 ≠ BitVec.allOnes 64 → CommandDone i s 0 r.2.toNat r.1) ∧
      (r.2 = BitVec.allOnes 64 → CommandDone i s 0x80 (2 ^ 64 - 1) r.1)) ∧
    (context = true ∨ line = true → exec i s = .next s) := by
  refine ⟨fun hheld => mapEnd_done ?_, fun hheld => exec_of_waits hexec (if_pos (Bool.or_eq_true_iff.2 hheld))⟩
  rw [hexec, if_neg (mt Bool.or_eq_true_iff.1 hheld)]

section
variable {s : State} {ctx va attr kind : BitVec 64} (hctx : ctx.toNat < 2 ^ 8)
include hctx

section
variable (h : s.Commands 3 [ctx.toNat, va.toNat, attr.toNat, kind.toNat]) (hkind : kind.toNat < 2 ^ 3)
include h hkind

theorem exec_map : exec (.map ctx va attr kind) s = (if kind.toNat < 1 ∨ 3 < kind.toNat then badOperand s
    else if s.contextHeld ctx.toNat || s.mapHeld none ctx.toNat (s.contextRoot ctx.toNat) (s.contextPool ctx.toNat) va.toNat kind.toNat then .waits s
    else mapEnd (s.mapPage ctx.toNat (s.contextRoot ctx.toNat) (s.contextPool ctx.toNat) va.toNat kind.toNat attr.toNat)).outcome := by
  show execMap ctx va attr kind s = _
  refine State.command_runs _ (by decide) (operands := [(ctx, 8), (va, 64), (attr, 64), (kind, 3)]) h fun o ho => ?_
  simp only [List.mem_cons, List.not_mem_nil, or_false] at ho
  rcases ho with rfl | rfl | rfl | rfl
  exacts [hctx, va.isLt, attr.isLt, hkind]

theorem map_badKind (hk : kind.toNat = 0 ∨ 3 < kind.toNat) : CommandDone (.map ctx va attr kind) s 0x81 0 s :=
  .of_ends (exec_map hctx h hkind) (if_pos (by omega))

theorem map_results (hlo : 1 ≤ kind.toNat) (hhi : kind.toNat ≤ 3) (r : State × Lane)
    (hr : s.mapPage ctx.toNat (s.contextRoot ctx.toNat) (s.contextPool ctx.toNat) va.toNat kind.toNat attr.toNat = r) :
    (¬ (s.contextHeld ctx.toNat = true ∨ s.mapHeld none ctx.toNat (s.contextRoot ctx.toNat) (s.contextPool ctx.toNat) va.toNat kind.toNat = true) →
      (r.2 ≠ BitVec.allOnes 64 → CommandDone (.map ctx va attr kind) s 0 r.2.toNat r.1) ∧
      (r.2 = BitVec.allOnes 64 → CommandDone (.map ctx va attr kind) s 0x80 (2 ^ 64 - 1) r.1)) ∧
    (s.contextHeld ctx.toNat = true ∨ s.mapHeld none ctx.toNat (s.contextRoot ctx.toNat) (s.contextPool ctx.toNat) va.toNat kind.toNat = true →
      exec (.map ctx va attr kind) s = .next s) := by
  have hexec := exec_map hctx h hkind
  rw [if_neg (by omega), hr] at hexec
  exact mapping_results hexec

end

theorem exec_unmap (h : s.Commands 4 [ctx.toNat, va.toNat]) : exec (.unmap ctx va) s =
    (if s.contextHeld ctx.toNat || s.mapHeld none ctx.toNat (s.contextRoot ctx.toNat) (s.contextPool ctx.toNat) va.toNat 4 then .waits s
    else mapEnd (s.mapPage ctx.toNat (s.contextRoot ctx.toNat) (s.contextPool ctx.toNat) va.toNat 4 0)).outcome := by
  show execUnmap ctx va s = _
  refine State.command_runs _ (by decide) (operands := [(ctx, 8), (va, 64)]) h fun o ho => ?_
  simp only [List.mem_cons, List.not_mem_nil, or_false] at ho
  rcases ho with rfl | rfl
  exacts [hctx, va.isLt]

theorem unmap_results (h : s.Commands 4 [ctx.toNat, va.toNat]) (r : State × Lane)
    (hr : s.mapPage ctx.toNat (s.contextRoot ctx.toNat) (s.contextPool ctx.toNat) va.toNat 4 0 = r) :
    (¬ (s.contextHeld ctx.toNat = true ∨ s.mapHeld none ctx.toNat (s.contextRoot ctx.toNat) (s.contextPool ctx.toNat) va.toNat 4 = true) →
      (r.2 ≠ BitVec.allOnes 64 → CommandDone (.unmap ctx va) s 0 r.2.toNat r.1) ∧
      (r.2 = BitVec.allOnes 64 → CommandDone (.unmap ctx va) s 0x80 (2 ^ 64 - 1) r.1)) ∧
    (s.contextHeld ctx.toNat = true ∨ s.mapHeld none ctx.toNat (s.contextRoot ctx.toNat) (s.contextPool ctx.toNat) va.toNat 4 = true →
      exec (.unmap ctx va) s = .next s) := by
  have hexec := exec_unmap hctx h
  rw [hr] at hexec
  exact mapping_results hexec

end

/-! ### INVAL -/

theorem State.drainFree_apart (s : State) (c : Nat) : (s.drainFree c).apart c = s.apart c := State.split_apart ..

/-- Draining leaves what a core translates. -/
theorem State.drainFrees_tlb (s : State) (k : Nat) : (s.drainFrees.core k).tlb = (s.core k).tlb :=
  foldl_view (fun t : State => (t.core k).tlb) State.drainFree
    (fun t c => (congrArg Core.tlb (State.core_of_apart (t.drainFree_apart c) k) :)) _ s

/-- Takes what an invalidation covers out of one core's TLB and record cache. -/
def State.dropCovered (x : Covers) (s : State) (c : Nat) : State :=
  s.onCore c fun k => { k with
    tlb := k.tlb.filter fun e => !x.hits e.ctx e.page e.bytes
    records := k.records.filter fun r => !x.hits (s.team r.team).ctx r.va.toNat 192 }

/-- The cores whose TLB may still hold something covered are among those that are to be visited. -/
theorem dropCovered_tlb (x : Covers) (cs : List Nat) (s : State)
    (h : ∀ k e, e ∈ (s.core k).tlb → k ∈ cs ∨ x.hits e.ctx e.page e.bytes = false) (k : Nat) (e : TlbEntry)
    (he : e ∈ ((cs.foldl (State.dropCovered x) s).core k).tlb) : x.hits e.ctx e.page e.bytes = false := by
  induction cs generalizing s with
  | nil => exact (h k e he).resolve_left List.not_mem_nil
  | cons c cs ih =>
    refine ih (s.dropCovered x c) (fun j d hd => ?_) he
    by_cases hj : j = c
    · rw [hj, State.dropCovered, State.core_onCore] at hd
      exact Or.inr (by simpa using (List.mem_filter.mp hd).2)
    · rw [State.dropCovered, State.core_onCore_ne _ _ hj] at hd
      exact (h j d hd).imp_left fun hmem => (List.mem_cons.mp hmem).resolve_left hj

theorem State.mem_keys_of_tlb {s : State} {k : Nat} {e : TlbEntry} (h : e ∈ (s.core k).tlb) : k ∈ NMap.keys s.cores := by
  rw [State.core, NMap.get] at h
  cases hfind : NMap.find s.cores k with
  | none =>
    rw [hfind] at h
    exact absurd h List.not_mem_nil
  | some c => exact List.mem_map.2 ⟨(k, c), NMap.mem_of_find hfind, rfl⟩

/-- After an invalidation no TLB holds a translation that it covers (R341). -/
theorem State.invalidate_tlb (s : State) (x : Covers) (k : Nat) (e : TlbEntry) (he : e ∈ ((s.invalidate x).core k).tlb) :
    x.hits e.ctx e.page e.bytes = false := by
  refine dropCovered_tlb x (NMap.keys s.cores) _ (fun j d hd => Or.inl ?_) k e he
  have hdrained : d ∈ (s.drainFrees.core j).tlb := hd
  rw [State.drainFrees_tlb] at hdrained
  exact State.mem_keys_of_tlb hdrained

section
variable {s : State} {kind ctx va len : BitVec 64} {x : Covers} (hctx : ctx.toNat < 2 ^ 8)
  (h : s.Commands 5 [kind.toNat, ctx.toNat, va.toNat, len.toNat]) (hkind : kind.toNat < 3)
  (halign : kind.toNat = 0 → va.toNat % 4096 = 0 ∧ len.toNat % 4096 = 0)
  (hx : x = { ctx := if kind.toNat = 2 then none else some ctx.toNat, range := if kind.toNat = 0 then some (va.toNat, len.toNat) else none })
include hctx h hkind halign hx

theorem exec_inval : exec (.inval kind ctx va len) s =
    (if s.copiesWithin x || s.writesHeld x then CommandEnd.waits s else doneWith 0 (s.invalidate x)).outcome := by
  have hrun := State.command_runs (fun st => if 2 < kind.toNat ∨ (kind.toNat = 0 ∧ (va.toNat % 4096 ≠ 0 ∨ len.toNat % 4096 ≠ 0)) then badOperand st
      else if st.copiesWithin x || st.writesHeld x then CommandEnd.waits st else doneWith 0 (st.invalidate x))
    (by decide) (operands := [(kind, 2), (ctx, 8), (va, 64), (len, 64)]) h fun o ho => by
      simp only [List.mem_cons, List.not_mem_nil, or_false] at ho
      rcases ho with rfl | rfl | rfl | rfl
      exacts [Nat.lt_succ_of_lt hkind, hctx, va.isLt, len.isLt]
  rw [if_neg (by omega)] at hrun
  rw [← hrun, hx]
  rfl

theorem inval_results :
    (s.copiesWithin x = false → s.writesHeld x = false → CommandDone (.inval kind ctx va len) s 0 0 (s.invalidate x) ∧
      ∀ k e, e ∈ ((s.invalidate x).core k).tlb → x.hits e.ctx e.page e.bytes = false) ∧
    (s.copiesWithin x = true ∨ s.writesHeld x = true → exec (.inval kind ctx va len) s = .next s) := by
  have hexec := exec_inval hctx h hkind halign hx
  refine ⟨fun hcopies hwrites => ⟨.of_ends hexec (if_neg ?_), s.invalidate_tlb x⟩, fun hheld => exec_of_waits hexec (if_pos (Bool.or_eq_true_iff.2 hheld))⟩
  rw [hcopies, hwrites]
  decide

end

/-! ### ICINV -/

/-- A core without its instruction cache. -/
def Core.coldCode (k : Core) : Core := { k with icache := [], icodes := [] }

/-- Draining leaves the registers of every core. -/
theorem drainAll_cell (cs : List Nat) (s : State) (c i : Nat) : ((cs.foldl State.drainAll s).core c).cell i = (s.core c).cell i :=
  foldl_view (fun t : State => (t.core c).cell i) State.drainAll
    (fun t b => (congrArg (fun k : Core => k.cell i) (State.core_of_apart (State.split_apart t b (t.core b).l1 []) c) :)) cs s

/-- The state after an ICINV. -/
def State.coldCodes (s : State) : State := { s with cores := s.cores.map fun (e : Nat × Core) => (e.1, e.2.coldCode) }

theorem State.core_coldCodes (s : State) (c : Nat) : s.coldCodes.core c = (s.core c).coldCode := by
  have hcold : ({} : Core).coldCode = {} := by simp only [Core.coldCode]
  exact NMap.get_map s.cores Core.coldCode {} hcold c

theorem exec_icinv {s : State} (h : s.Commands 6 []) : exec .icinv s =
    (if s.groups.any (fun e => e.2.writesOut) || !(NMap.keys s.cores).all s.canDrain || !s.host.posted.isEmpty then .waits s
    else doneWith 0 ((NMap.keys s.cores).foldl State.drainAll s).coldCodes).outcome := by
  show execIcinv s = _
  exact State.command_runs _ (by decide) (operands := []) h fun o ho => absurd ho List.not_mem_nil

theorem icinv_results {s : State} (h : s.Commands 6 []) (hout : ∀ e ∈ s.groups, e.2.writesOut = false)
    (hdrain : ∀ c ∈ NMap.keys s.cores, s.canDrain c = true) (hposted : s.host.posted = []) :
    ∃ s1, CommandDone .icinv s 0 0 s1 ∧ (∀ c, (s1.core c).icache = [] ∧ (s1.core c).icodes = []) ∧
      ∀ c, (∀ i, (s1.core c).cell i = (s.core c).cell i) := by
  have hgroups : s.groups.any (fun e => e.2.writesOut) = false := List.any_eq_false.2 fun e he => by rw [hout e he]; decide
  have hgo : ¬ (s.groups.any (fun e => e.2.writesOut) || !(NMap.keys s.cores).all s.canDrain || !s.host.posted.isEmpty) = true := by
    rw [hgroups, List.all_eq_true.2 hdrain, hposted]
    decide
  refine ⟨((NMap.keys s.cores).foldl State.drainAll s).coldCodes, .of_ends (exec_icinv h) (if_neg hgo), fun c => ?_, fun c i => ?_⟩
  · rw [State.core_coldCodes]
    exact ⟨rfl, rfl⟩
  · rw [State.core_coldCodes]
    exact drainAll_cell _ s c i

/-! ### TIMESET -/

/-- What the clusters' waiting times leave unchanged. -/
theorem State.noteEligible_fields (s : State) : s.noteEligible.time = s.time ∧ s.noteEligible.groups = s.groups ∧ s.noteEligible.mem = s.mem ∧
    s.noteEligible.cores = s.cores := by
  have hview : (fun t : State => (t.time, t.groups, t.mem, t.cores)) s.noteEligible = (s.time, s.groups, s.mem, s.cores) := by
    refine foldl_view (fun t : State => (t.time, t.groups, t.mem, t.cores)) _ (fun t e => ?_) s.launches s
    split
    · rfl
    · refine foldl_view (fun t : State => (t.time, t.groups, t.mem, t.cores)) _ (fun t c => ?_) e.2.unplaced t
      split <;> rfl
  simpa using hview

theorem exec_timeset {s : State} {time : BitVec 64} (h : s.Commands 12 [time.toNat]) : exec (.timeset time) s =
    (if time.toNat < s.now then badOperand s else doneWith 0 (State.noteEligible { s with time := time })).outcome := by
  show execTimeset time s = _
  exact State.command_runs _ (by decide) (operands := [(time, 64)]) h fun o ho => by
    rw [List.mem_singleton.mp ho]
    exact time.isLt

theorem timeset_results {s : State} {time : BitVec 64} (h : s.Commands 12 [time.toNat]) :
    (time.toNat < s.now → CommandDone (.timeset time) s 0x81 0 s) ∧
    (s.now ≤ time.toNat → ∃ s1, CommandDone (.timeset time) s 0 0 s1 ∧ s1.time = time ∧ s1.groups = s.groups ∧ s1.mem = s.mem ∧ s1.cores = s.cores) :=
  ⟨fun hlt => .of_ends (exec_timeset h) (if_pos hlt), fun hle =>
    ⟨_, .of_ends (exec_timeset h) (if_neg (Nat.not_lt.2 hle)), State.noteEligible_fields { s with time := time }⟩⟩

/-! ### Opcodes that are none -/

theorem commandBadOpcode_refused {s : State} {op : Byte} {record : Nat} (h : s.nextCommand = some record) (hop : record % 256 = op.toNat)
    (hnone : op = 0 ∨ 12 < op.toNat) : CommandDone (.commandBadOpcode op) s 0x81 0 s := by
  show execCommandBadOpcode op s = _
  rw [execCommandBadOpcode, h]
  exact if_pos ⟨hop, hnone⟩

end Sys2Proof.Machine

end

section
/-! RESUME and KILL: the gangs that they name are to be killed, and they end when these are killed and reported (R175, R266, R267, R381). -/

namespace Sys2Proof.Machine

/-! ### What a kill's request leaves unchanged -/

/-- A core that no group has asked for granules. -/
def Core.quiet (k : Core) : Core := { k with requests := [] }

/-- The package without its groups and gangs, its cores without the requests for granules. -/
def State.calm (s : State) : State × (Nat → Core) := ({ s with groups := [], gangs := [], cores := [] }, fun c => (s.core c).quiet)

section
variable {s t : State} (h : t.calm = s.calm)
include h

theorem State.teams_of_calm : t.teams = s.teams := (congrArg (fun x => x.1.teams) h :)
theorem State.host_of_calm : t.host = s.host := (congrArg (fun x => x.1.host) h :)
theorem State.mem_of_calm : t.mem = s.mem := (congrArg (fun x => x.1.mem) h :)
theorem State.core_of_calm (c : Nat) : (t.core c).quiet = (s.core c).quiet := (congrArg (fun x => x.2 c) h :)
theorem State.cell_of_calm (c i : Nat) : (t.core c).cell i = (s.core c).cell i :=
  (congrArg (fun k : Core => k.cell i) (State.core_of_calm h c) :)

end

theorem State.onGroup_calm (s : State) (gid : Nat) (f : Group → Group) : (s.onGroup gid f).calm = s.calm := rfl
theorem State.onGang_calm (s : State) (g : Nat) (f : Gang → Gang) : (s.onGang g f).calm = s.calm := rfl

theorem State.onCore_calm (s : State) (c : Nat) (f : Core → Core) (hf : ∀ k, (f k).quiet = k.quiet) : (s.onCore c f).calm = s.calm := by
  refine Prod.ext rfl (funext fun j => ?_)
  show ((s.onCore c f).core j).quiet = (s.core j).quiet
  by_cases hj : j = c
  · rw [hj, State.core_onCore, hf]
  · rw [State.core_onCore_ne _ _ hj]

theorem State.leaveQueue_calm (s : State) (gid : Nat) : (s.leaveQueue gid).calm = s.calm := by
  unfold State.leaveQueue
  split
  · rfl
  · exact State.onCore_calm _ _ _ fun _ => rfl

theorem State.leaveQueue_gangs (s : State) (gid : Nat) : (s.leaveQueue gid).gangs = s.gangs := by
  unfold State.leaveQueue
  split <;> rfl

/-- The groups of a gang stop. -/
def State.haltGroup (s : State) (gid : Nat) : State := (s.onGroup gid Group.halt).leaveQueue gid

theorem haltGroups_calm (l : List Nat) (s : State) : (l.foldl State.haltGroup s).calm = s.calm :=
  foldl_view State.calm State.haltGroup (fun t gid => (State.leaveQueue_calm _ gid).trans (State.onGroup_calm t gid _)) l s

theorem haltGroups_gangs (l : List Nat) (s : State) : (l.foldl State.haltGroup s).gangs = s.gangs :=
  foldl_view State.gangs State.haltGroup (fun t gid => State.leaveQueue_gangs (t.onGroup gid Group.halt) gid) l s

/-- A gang with its kill asked for. -/
def Gang.marked (k : Kill) (g : Gang) : Gang := { g with kill := some k }

/-- A request for a kill that nothing precedes: the gang is marked and its groups stop; one that comes too late changes nothing. -/
theorem State.doom_cases (s : State) (gang : Nat) (k : Kill) :
    s.doom gang k = s ∨ ∃ l : List Nat, s.doom gang k = l.foldl State.haltGroup (s.onGang gang (Gang.marked k)) := by
  rw [State.doom]
  dsimp only
  split
  · exact Or.inl rfl
  · exact Or.inr ⟨_, rfl⟩

theorem State.doom_calm (s : State) (gang : Nat) (k : Kill) : (s.doom gang k).calm = s.calm := by
  obtain hdoom | ⟨l, hdoom⟩ := s.doom_cases gang k
  · rw [hdoom]
  · rw [hdoom, haltGroups_calm, State.onGang_calm]

/-- A gang with a team that has not ended, and no kill yet, is marked. -/
theorem State.doom_gangs {s : State} {gang : Nat} (k : Kill) (hkill : (s.gang gang).kill = none) (hteams : s.gangTeams gang ≠ []) :
    (s.doom gang k).gangs = (s.onGang gang (Gang.marked k)).gangs := by
  have hbusy : ¬ ((s.gang gang).kill.isSome ||
      ((s.gangTeams gang).isEmpty && !(s.versions.any fun v => (s.gang gang).teams.contains v.team))) = true := by
    rw [hkill, List.isEmpty_eq_false_iff.2 hteams]
    simp
  rw [State.doom]
  dsimp only
  rw [if_neg hbusy]
  exact haltGroups_gangs _ (s.onGang gang (Gang.marked k))

/-! ### Gangs -/

theorem State.gang_onGang_ne (s : State) {g j : Nat} (f : Gang → Gang) (h : j ≠ g) : (s.onGang g f).gang j = s.gang j := by
  rw [State.gang, State.onGang, NMap.get, NMap.find_changeIf_ne _ _ h]
  rfl

/-- A gang with teams exists, and changes. -/
theorem State.gang_onGang {s : State} {g : Nat} (f : Gang → Gang) (h : s.gangTeams g ≠ []) : (s.onGang g f).gang g = f (s.gang g) := by
  have hteams : (s.gang g).teams ≠ [] := fun hnil => h (by rw [State.gangTeams, hnil]; rfl)
  rw [State.gang, State.onGang, NMap.get, NMap.find_changeIf_self]
  rw [State.gang, NMap.get] at hteams ⊢
  cases hfind : NMap.find s.gangs g with
  | none => rw [hfind] at hteams; exact absurd rfl hteams
  | some x => rfl

theorem State.gang_of_gangs {s t : State} (h : t.gangs = s.gangs) (g : Nat) : t.gang g = s.gang g := by rw [State.gang, h]; rfl

theorem State.gangTeams_congr {s t : State} {g : Nat} (hteams : t.teams = s.teams) (hgang : (t.gang g).teams = (s.gang g).teams) :
    t.gangTeams g = s.gangTeams g := by
  rw [State.gangTeams, hgang]
  simp only [State.team, hteams]
  rfl

theorem State.doom_gang {s : State} {gang : Nat} (k : Kill) (hkill : (s.gang gang).kill = none) (hteams : s.gangTeams gang ≠ []) :
    (s.doom gang k).gang gang = (s.gang gang).marked k :=
  (State.gang_of_gangs (State.doom_gangs k hkill hteams) gang).trans (State.gang_onGang _ hteams)

theorem State.doom_gang_ne (s : State) {gang j : Nat} (k : Kill) (h : j ≠ gang) : (s.doom gang k).gang j = s.gang j := by
  obtain hdoom | ⟨l, hdoom⟩ := s.doom_cases gang k
  · rw [hdoom]
  · rw [hdoom, State.gang_of_gangs (haltGroups_gangs l _), State.gang_onGang_ne _ _ h]

/-! ### Ends of commands that kill -/

/-- A command whose gangs are asked for ends with the run that finds them killed and reported. -/
theorem killAll_results {i : Instr} {s : State} {gangs named : List Nat} {doom : State → State} (hkilling : s.host.killing = some gangs)
    (hexec : exec i s = (s.killAll named doom).outcome) :
    ((∀ x ∈ gangs, s.reported x = true) → CommandDone i s 0 0 { s with host := { s.host with killing := none } }) ∧
    ((∃ x ∈ gangs, s.reported x = false) → exec i s = .next s) := by
  rw [State.killAll, hkilling] at hexec
  dsimp only at hexec
  constructor
  · intro hall
    exact .of_ends hexec (if_pos (List.all_eq_true.2 hall))
  · rintro ⟨x, hx, hout⟩
    refine exec_of_waits hexec (if_neg fun hall => ?_)
    rw [List.all_eq_true.1 hall x hx] at hout
    cases hout

/-- A host that waits for gangs to be killed. -/
def State.awaiting (gangs : List Nat) (s : State) : State := { s with host := { s.host with killing := some gangs } }

theorem State.killAll_first {s : State} (gangs : List Nat) (doom : State → State) (hkilling : s.host.killing = none) :
    s.killAll gangs doom = .waits ((doom s).awaiting gangs) := by
  rw [State.killAll, hkilling]
  rfl

/-! ### RESUME -/

/-- What a run of RESUME comes to. -/
def State.resumeEnd (tag action : BitVec 64) (s : State) : CommandEnd :=
  if action ≠ 0 ∧ action ≠ 2 then badOperand s
  else if s.host.killing.isSome then s.killAll [] id
  else match s.waiting tag.toNat with
    | some (gid, g, none) =>
      let s := s.dropTag tag.toNat
      if action = 2 then s.killAll [(s.team g.team).gang] fun s =>
        (s.onGroup gid fun g => { g with tag := none }).doom (s.team g.team).gang { cause := g.trap.cause.toNat % 256, group := some gid }
      else doneWith 0 (
        if badTarget g.trap.resume then s.doubleFault gid 0x0E 0
        else if g.life = .saved then s.onGroup gid fun g => { g with resumed := true, tag := none }
        else s.resumeGroup gid)
    | _ => refused s

section
variable {s : State} {tag action : BitVec 64}

theorem exec_resume (h : s.Commands 7 [tag.toNat, action.toNat]) (htag : tag.toNat < 2 ^ 32) (haction : action.toNat < 2 ^ 2) :
    exec (.resume tag action) s = (s.resumeEnd tag action).outcome := by
  show execResume tag action s = _
  refine State.command_runs (State.resumeEnd tag action) (by decide) (operands := [(tag, 32), (action, 2)]) h fun o ho => ?_
  simp only [List.mem_cons, List.not_mem_nil, or_false] at ho
  rcases ho with rfl | rfl
  exacts [htag, haction]

theorem State.resumeEnd_badAction (h : action = 1 ∨ action = 3) : s.resumeEnd tag action = badOperand s := by
  refine if_pos ?_
  rcases h with rfl | rfl <;> decide

theorem State.resumeEnd_killing {gangs : List Nat} (haction : action = 2) (h : s.host.killing = some gangs) :
    s.resumeEnd tag action = s.killAll [] id := by
  rw [State.resumeEnd, if_neg (by rw [haction]; decide), if_pos (by rw [h]; rfl)]

section
variable (hkilling : s.host.killing = none) (haction : action = 0 ∨ action = 2)
include hkilling haction

theorem State.resumeEnd_unknown (h : s.waiting tag.toNat = none) : s.resumeEnd tag action = refused s := by
  rw [State.resumeEnd, if_neg (by rcases haction with rfl | rfl <;> decide), if_neg (by rw [hkilling]; decide), h]

theorem State.resumeEnd_known {gid : Nat} {g : Group} (h : s.waiting tag.toNat = some (gid, g, none)) : s.resumeEnd tag action =
    if action = 2 then (s.dropTag tag.toNat).killAll [(s.team g.team).gang] fun t =>
      (t.onGroup gid fun g => { g with tag := none }).doom (s.team g.team).gang { cause := g.trap.cause.toNat % 256, group := some gid }
    else doneWith 0 (
      if badTarget g.trap.resume then (s.dropTag tag.toNat).doubleFault gid 0x0E 0
      else if g.life = .saved then (s.dropTag tag.toNat).onGroup gid fun g => { g with resumed := true, tag := none }
      else (s.dropTag tag.toNat).resumeGroup gid) := by
  rw [State.resumeEnd, if_neg (by rcases haction with rfl | rfl <;> decide), if_neg (by rw [hkilling]; decide), h]
  rfl

end

/-- A gang that has a group under a TAG is not to be killed yet. -/
theorem State.kill_of_waiting {x : Nat × Group × Option Source} (h : s.waiting tag.toNat = some x) :
    (s.gang (s.team x.2.1.team).gang).kill = none := by
  rw [State.waiting] at h
  split at h
  · cases h
  · split at h
    · cases h
    · split at h
      · cases h
      · next g _ =>
        split at h
        · cases h
        · next hkill =>
          cases h
          simpa using hkill

/-- RESUME with action 2: the gang is to be killed for its group's cause, and the command waits for it. -/
theorem resume_kills {gid : Nat} {g : Group} (h : s.Commands 7 [tag.toNat, action.toNat]) (htag : tag.toNat < 2 ^ 32) (haction : action = 2)
    (hkilling : s.host.killing = none) (hwaiting : s.waiting tag.toNat = some (gid, g, none)) (hteams : s.gangTeams (s.team g.team).gang ≠ []) :
    ∃ t, exec (.resume tag action) s = .next t ∧ t.host.killing = some [(s.team g.team).gang] ∧ t.host.ring 3 = s.host.ring 3 ∧
      (t.gang (s.team g.team).gang).kill = some { cause := g.trap.cause.toNat % 256, group := some gid } := by
  have hexec := exec_resume h htag (by rw [haction]; decide)
  rw [State.resumeEnd_known hkilling (Or.inr haction) hwaiting, if_pos haction, State.killAll_first _ _ (by exact hkilling)] at hexec
  refine ⟨_, hexec, rfl, ?_, ?_⟩
  · have hhost := State.host_of_calm (State.doom_calm ((s.dropTag tag.toNat).onGroup gid fun g => { g with tag := none }) (s.team g.team).gang
      { cause := g.trap.cause.toNat % 256, group := some gid })
    exact congrArg (fun x => x.ring 3) hhost
  · have hkill : (s.gang (s.team g.team).gang).kill = none := State.kill_of_waiting hwaiting
    have hgang := State.doom_gang (s := (s.dropTag tag.toNat).onGroup gid fun g => { g with tag := none })
      { cause := g.trap.cause.toNat % 256, group := some gid } hkill hteams
    exact congrArg Gang.kill hgang

/-- RESUME with action 0 of a known group whose resume address is good. -/
theorem resume_resumes {gid : Nat} {g : Group} (h : s.Commands 7 [tag.toNat, action.toNat]) (htag : tag.toNat < 2 ^ 32) (haction : action = 0)
    (hkilling : s.host.killing = none) (hwaiting : s.waiting tag.toNat = some (gid, g, none)) (htarget : badTarget g.trap.resume = false) :
    CommandDone (.resume tag action) s 0 0 (if g.life = .saved then (s.dropTag tag.toNat).onGroup gid fun g => { g with resumed := true, tag := none }
      else (s.dropTag tag.toNat).resumeGroup gid) := by
  have hexec := exec_resume h htag (by rw [haction]; decide)
  rw [State.resumeEnd_known hkilling (Or.inl haction) hwaiting, if_neg (by rw [haction]; decide)] at hexec
  refine .of_ends hexec ?_
  rw [if_neg (by rw [htarget]; decide)]
  rfl

theorem resume_results (h : s.Commands 7 [tag.toNat, action.toNat]) (htag : tag.toNat < 2 ^ 32) (haction : action.toNat < 2 ^ 2) :
    ((action = 1 ∨ action = 3) → CommandDone (.resume tag action) s 0x81 0 s) ∧
    (s.host.killing = none → ((action = 0 ∨ action = 2) → s.waiting tag.toNat = none → CommandDone (.resume tag action) s 0x80 0 s) ∧
      ∀ gid g, s.waiting tag.toNat = some (gid, g, none) →
        (action = 0 → badTarget g.trap.resume = false → g.life ≠ .saved →
          CommandDone (.resume tag action) s 0 0 ((s.dropTag tag.toNat).resumeGroup gid)) ∧
        (action = 0 → badTarget g.trap.resume = false → g.life = .saved → CommandDone (.resume tag action) s 0 0
          ((s.dropTag tag.toNat).onGroup gid fun g => { g with resumed := true, tag := none })) ∧
        (action = 2 → s.gangTeams (s.team g.team).gang ≠ [] → ∃ t, exec (.resume tag action) s = .next t ∧
          t.host.killing = some [(s.team g.team).gang] ∧ t.host.ring 3 = s.host.ring 3 ∧
          (t.gang (s.team g.team).gang).kill = some { cause := g.trap.cause.toNat % 256, group := some gid })) ∧
    ∀ gangs, action = 2 → s.host.killing = some gangs →
      ((∀ x ∈ gangs, s.reported x = true) → CommandDone (.resume tag action) s 0 0 { s with host := { s.host with killing := none } }) ∧
      ((∃ x ∈ gangs, s.reported x = false) → exec (.resume tag action) s = .next s) := by
  have hexec := exec_resume h htag haction
  refine ⟨fun hbad => .of_ends hexec (State.resumeEnd_badAction hbad), fun hkilling => ⟨fun hgood hnone => ?_, fun gid g hwaiting => ⟨?_, ?_, ?_⟩⟩,
    fun gangs haction2 hkilling => killAll_results hkilling (by rw [hexec, State.resumeEnd_killing haction2 hkilling])⟩
  · exact .of_ends hexec (State.resumeEnd_unknown hkilling hgood hnone)
  · intro ha htarget hlife
    have hdone := resume_resumes h htag ha hkilling hwaiting htarget
    rwa [if_neg hlife] at hdone
  · intro ha htarget hlife
    have hdone := resume_resumes h htag ha hkilling hwaiting htarget
    rwa [if_pos hlife] at hdone
  · exact fun ha hteams => resume_kills h htag ha hkilling hwaiting hteams

end

end Sys2Proof.Machine

end

section
/-! KILL takes the gangs of a task's launches: each that is not being killed is to be killed with cause 0x33 (R266, R267). -/

namespace Sys2Proof.Machine

/-- The kill that KILL asks for (R266). -/
def hostKill : Kill := { cause := 0x33, group := none }

/-! ### One gang -/

/-- A dead gang's record goes to ring 1, and it is not placed again. -/
theorem State.reportDead_eq (s : State) (gang : Nat) :
    ∃ r, s.reportDead gang = (s.send 1 r).onGang gang fun g => { g with again := none } := ⟨_, rfl⟩

/-- What KILL's request for one gang leaves unchanged. -/
structure Spared (s t : State) : Prop where
  teams : t.teams = s.teams
  mem : t.mem = s.mem
  ring : t.host.ring 3 = s.host.ring 3
  cells : ∀ c i, (t.core c).cell i = (s.core c).cell i

theorem Spared.refl (s : State) : Spared s s := ⟨rfl, rfl, rfl, fun _ _ => rfl⟩

theorem Spared.trans {s t u : State} (h : Spared s t) (h' : Spared t u) : Spared s u :=
  ⟨h'.teams.trans h.teams, h'.mem.trans h.mem, h'.ring.trans h.ring, fun c i => (h'.cells c i).trans (h.cells c i)⟩

theorem spared_of_calm {s t : State} (h : t.calm = s.calm) : Spared s t where
  teams := State.teams_of_calm h
  mem := State.mem_of_calm h
  ring := by rw [State.host_of_calm h]
  cells := State.cell_of_calm h

theorem State.reportDead_spared (s : State) (gang : Nat) : Spared s (s.reportDead gang) := by
  obtain ⟨r, hr⟩ := s.reportDead_eq gang
  rw [hr]
  have hring : (s.send 1 r).host.ring 3 = s.host.ring 3 := HostPort.ring_onRing_ne s _ (by decide)
  exact ⟨rfl, rfl, hring, fun _ _ => rfl⟩

/-- What KILL does to one gang. -/
inductive Taken (s : State) (gang : Nat) : State → Prop where
  | same : (s.gang gang).killed = true ∨ (s.gang gang).kill ≠ none → Taken s gang s
  | dead : (s.gang gang).killed = true → Taken s gang (s.reportDead gang)
  | again : (s.gang gang).killed = false → Taken s gang (s.onGang gang (Gang.marked hostKill))
  | asked : (s.gang gang).killed = false → (s.gang gang).kill = none → Taken s gang (s.doom gang hostKill)

theorem State.killGang_taken (s : State) (gang : Nat) : Taken s gang (s.killGang gang) := by
  rw [State.killGang]
  split
  · next hkilled =>
    split
    · exact .dead hkilled
    · exact .same (Or.inl hkilled)
  · next hkilled =>
    rw [Bool.not_eq_true] at hkilled
    split
    · next hkill => exact .asked hkilled hkill
    · next old hkill =>
      split
      · exact .again hkilled
      · exact .same (Or.inr (by rw [hkill]; exact Option.some_ne_none old))

theorem State.killGang_spared (s : State) (gang : Nat) : Spared s (s.killGang gang) := by
  have htaken := State.killGang_taken s gang
  generalize s.killGang gang = t at htaken ⊢
  cases htaken with
  | same => exact .refl s
  | dead => exact State.reportDead_spared s gang
  | again => exact spared_of_calm (State.onGang_calm s gang _)
  | asked => exact spared_of_calm (State.doom_calm s gang _)

theorem State.killGang_gang_ne (s : State) {gang j : Nat} (h : j ≠ gang) : (s.killGang gang).gang j = s.gang j := by
  have htaken := State.killGang_taken s gang
  generalize s.killGang gang = t at htaken ⊢
  cases htaken with
  | same => rfl
  | dead =>
    obtain ⟨r, hr⟩ := s.reportDead_eq gang
    rw [hr, State.gang_onGang_ne _ _ h]
    rfl
  | again => exact State.gang_onGang_ne s _ h
  | asked => exact State.doom_gang_ne s _ h

/-- A gang that can be killed: it has a team that has not ended, and its kill has not been carried out. -/
def State.Killable (s : State) (gang : Nat) : Prop := (s.gang gang).killed = false ∧ s.gangTeams gang ≠ []

/-- A killable gang keeps its kill, or has that of the command. -/
theorem State.killGang_gang {s : State} {gang : Nat} (h : s.Killable gang) :
    ∃ k, (s.killGang gang).gang gang = (s.gang gang).marked k ∧ (k = hostKill ∨ (s.gang gang).kill = some k) := by
  obtain ⟨hkilled, hteams⟩ := h
  cases hkill : (s.gang gang).kill with
  | none =>
    refine ⟨hostKill, ?_, Or.inl rfl⟩
    rw [← State.doom_gang hostKill hkill hteams, State.killGang]
    rw [if_neg (by rw [hkilled]; decide), hkill]
    rfl
  | some old =>
    rw [State.killGang]
    rw [if_neg (by rw [hkilled]; decide), hkill]
    dsimp only
    split
    · exact ⟨hostKill, State.gang_onGang _ hteams, Or.inl rfl⟩
    · refine ⟨old, ?_, Or.inr rfl⟩
      rw [Gang.marked, ← hkill]

theorem State.killGang_killable {s : State} {j : Nat} (h : s.Killable j) (gang : Nat) : (s.killGang gang).Killable j := by
  have hteams := (State.killGang_spared s gang).teams
  by_cases hj : j = gang
  · subst hj
    obtain ⟨k, hk, -⟩ := State.killGang_gang h
    exact ⟨by rw [hk]; exact h.1, by rw [State.gangTeams_congr hteams (by rw [hk]; rfl)]; exact h.2⟩
  · have hgang := State.killGang_gang_ne s hj
    exact ⟨by rw [hgang]; exact h.1, by rw [State.gangTeams_congr hteams (by rw [hgang])]; exact h.2⟩

/-! ### Many gangs -/

theorem killGangs_spared (l : List Nat) (s : State) : Spared s (l.foldl State.killGang s) := by
  induction l generalizing s with
  | nil => exact .refl s
  | cons k l ih => exact (State.killGang_spared s k).trans (ih _)

/-- A killable gang that is taken, or was to be killed before, is to be killed. -/
theorem killGangs_kill_isSome {j : Nat} (l : List Nat) (s : State) (h : s.Killable j) (hj : j ∈ l ∨ (s.gang j).kill.isSome = true) :
    ((l.foldl State.killGang s).gang j).kill.isSome = true := by
  induction l generalizing s with
  | nil => exact hj.resolve_left List.not_mem_nil
  | cons k l ih =>
    refine ih _ (State.killGang_killable h k) ?_
    by_cases hjk : j = k
    · subst hjk
      obtain ⟨kill, hkill, -⟩ := State.killGang_gang h
      exact Or.inr (by rw [hkill]; rfl)
    · rw [State.killGang_gang_ne s hjk]
      exact hj.imp_left fun hmem => (List.mem_cons.mp hmem).resolve_left hjk

/-- A killable gang that nothing else was to kill has no kill but that of the command. -/
theorem killGangs_kill {j : Nat} (l : List Nat) (s : State) (h : s.Killable j) (hj : ∀ k, (s.gang j).kill = some k → k = hostKill) (k : Kill)
    (hk : ((l.foldl State.killGang s).gang j).kill = some k) : k = hostKill := by
  induction l generalizing s with
  | nil => exact hj k hk
  | cons g l ih =>
    refine ih _ (State.killGang_killable h g) (fun x hx => ?_) hk
    by_cases hjg : j = g
    · subst hjg
      obtain ⟨kill, hkill, hcase⟩ := State.killGang_gang h
      rw [hkill, Gang.marked, Option.some.injEq] at hx
      exact hx ▸ hcase.elim id (hj kill)
    · rw [State.killGang_gang_ne s hjg] at hx
      exact hj x hx

/-! ### KILL -/

/-- A gang of a task's launches, on a cluster or on any. -/
def State.Named (s : State) (task cluster : BitVec 64) (e : Nat × Gang) : Prop :=
  (NMap.get s.launches {} e.2.launch).task = task.toNat ∧ (cluster = BitVec.allOnes 64 ∨ e.2.cluster = cluster.toNat)

/-- The gangs that KILL names. -/
def State.named (s : State) (task cluster : BitVec 64) : NMap Gang :=
  s.gangs.filter fun e => (NMap.get s.launches {} e.2.launch).task == task.toNat && (cluster == BitVec.allOnes 64 || e.2.cluster == cluster.toNat)

theorem State.mem_named {s : State} {task cluster : BitVec 64} {e : Nat × Gang} :
    e ∈ s.named task cluster ↔ e ∈ s.gangs ∧ s.Named task cluster e := by
  rw [State.named, List.mem_filter, Bool.and_eq_true, Bool.or_eq_true, beq_iff_eq, beq_iff_eq, beq_iff_eq, State.Named]

theorem State.mem_keys_named {s : State} {task cluster : BitVec 64} {k : Nat} :
    k ∈ NMap.keys (s.named task cluster) ↔ ∃ e ∈ s.gangs, s.Named task cluster e ∧ e.1 = k := by
  rw [NMap.keys, List.mem_map]
  simp only [State.mem_named, and_assoc]

theorem NMap.find_isSome_of_mem {α : Type} {m : NMap α} {e : Nat × α} (h : e ∈ m) : (NMap.find m e.1).isSome = true := by
  induction m with
  | nil => exact absurd h List.not_mem_nil
  | cons x m ih =>
    rw [NMap.find]
    split
    · rfl
    · next hne => exact ih ((List.mem_cons.mp h).resolve_left fun heq => hne (by rw [heq]))

/-- A gang whose number no other has is the one that is found. -/
theorem State.gang_of_unique {s : State} {e : Nat × Gang} (he : e ∈ s.gangs) (hunique : ∀ x ∈ s.gangs, x.1 = e.1 → x = e) :
    s.gang e.1 = e.2 := by
  have hfound : (NMap.find s.gangs e.1).isSome = true := NMap.find_isSome_of_mem he
  obtain ⟨v, hv⟩ := Option.isSome_iff_exists.1 hfound
  have heq := hunique (e.1, v) (NMap.mem_of_find hv) rfl
  rw [State.gang, NMap.get, hv, ← heq]
  rfl

section
variable {s : State} {task cluster : BitVec 64} (h : s.Commands 8 [task.toNat, cluster.toNat]) (htask : task.toNat < 2 ^ 32)
  (hcluster : cluster = BitVec.allOnes 64 ∨ cluster.toNat < 2 ^ 32)
include h htask hcluster

theorem exec_kill : exec (.kill task cluster) s = (if s.host.killing.isSome then s.killAll [] id
    else if (s.named task cluster).isEmpty then refused s
    else s.killAll (NMap.keys (s.named task cluster)) fun t => (NMap.keys (s.named task cluster)).foldl State.killGang t).outcome := by
  have hrun := State.command_runs (fun st => if cluster ≠ BitVec.allOnes 64 ∧ 2 ^ 32 ≤ cluster.toNat then badOperand st
      else if st.host.killing.isSome then st.killAll [] id
      else if (st.named task cluster).isEmpty then refused st
      else st.killAll (NMap.keys (st.named task cluster)) fun t => (NMap.keys (st.named task cluster)).foldl State.killGang t)
    (by decide) (operands := [(task, 32), (cluster, 64)]) h fun o ho => by
      simp only [List.mem_cons, List.not_mem_nil, or_false] at ho
      rcases ho with rfl | rfl
      exacts [htask, cluster.isLt]
  rw [if_neg fun hbad => hcluster.elim hbad.1 (Nat.not_lt.2 hbad.2)] at hrun
  rw [← hrun]
  rfl

theorem kill_unknown (hkilling : s.host.killing = none) (hnone : ∀ e ∈ s.gangs, ¬ s.Named task cluster e) :
    CommandDone (.kill task cluster) s 0x80 0 s := by
  refine .of_ends (exec_kill h htask hcluster) ?_
  have hempty : (s.named task cluster).isEmpty = true := by
    rw [List.isEmpty_iff, List.eq_nil_iff_forall_not_mem]
    exact fun e he => hnone e (State.mem_named.1 he).1 (State.mem_named.1 he).2
  rw [if_neg (by rw [hkilling]; decide), if_pos hempty]
  rfl

theorem kill_kills (hkilling : s.host.killing = none) (hsome : ∃ e ∈ s.gangs, s.Named task cluster e) :
    ∃ t gangs, exec (.kill task cluster) s = .next t ∧ t.host.killing = some gangs ∧
      (∀ k, k ∈ gangs ↔ ∃ e ∈ s.gangs, s.Named task cluster e ∧ e.1 = k) ∧ t.host.ring 3 = s.host.ring 3 ∧
      (∀ e ∈ s.gangs, s.Named task cluster e → e.2.killed = false → s.gangTeams e.1 ≠ [] → (∀ x ∈ s.gangs, x.1 = e.1 → x = e) →
        ((t.gang e.1).kill).isSome = true) ∧
      (∀ e ∈ s.gangs, (s.gang e.1).kill = none → s.gangTeams e.1 ≠ [] → s.Named task cluster e → e.2.killed = false →
        (∀ x ∈ s.gangs, x.1 = e.1 → x = e) → (t.gang e.1).kill = some { cause := 0x33, group := none }) ∧ t.mem = s.mem ∧
      ∀ c i, (t.core c).cell i = (s.core c).cell i := by
  have hexec := exec_kill h htask hcluster
  have hfull : ¬ (s.named task cluster).isEmpty = true := by
    obtain ⟨e, he, hnamed⟩ := hsome
    rw [List.isEmpty_iff]
    exact List.ne_nil_of_mem (State.mem_named.2 ⟨he, hnamed⟩)
  rw [if_neg (by rw [hkilling]; decide), if_neg hfull, State.killAll_first _ _ hkilling] at hexec
  have hspared := killGangs_spared (NMap.keys (s.named task cluster)) s
  have hmarked : ∀ e ∈ s.gangs, s.Named task cluster e → e.2.killed = false → s.gangTeams e.1 ≠ [] → (∀ x ∈ s.gangs, x.1 = e.1 → x = e) →
      (((NMap.keys (s.named task cluster)).foldl State.killGang s).gang e.1).kill.isSome = true := fun e he hnamed hkilled hteams hunique =>
    killGangs_kill_isSome _ s ⟨by rw [State.gang_of_unique he hunique, hkilled], hteams⟩ (Or.inl (State.mem_keys_named.2 ⟨e, he, hnamed, rfl⟩))
  refine ⟨_, _, hexec, rfl, fun k => State.mem_keys_named, hspared.ring, hmarked, ?_, hspared.mem, hspared.cells⟩
  intro e he hkill hteams hnamed hkilled hunique
  obtain ⟨k, hk⟩ := Option.isSome_iff_exists.1 (hmarked e he hnamed hkilled hteams hunique)
  have hkhost := killGangs_kill _ s ⟨by rw [State.gang_of_unique he hunique, hkilled], hteams⟩ (by rw [hkill]; exact fun k hk => nomatch hk) k hk
  exact hk.trans (by rw [hkhost, hostKill])

theorem kill_results :
    (s.host.killing = none → ((∀ e ∈ s.gangs, ¬ s.Named task cluster e) → CommandDone (.kill task cluster) s 0x80 0 s) ∧
      ((∃ e ∈ s.gangs, s.Named task cluster e) → ∃ t gangs, exec (.kill task cluster) s = .next t ∧ t.host.killing = some gangs ∧
        (∀ k, k ∈ gangs ↔ ∃ e ∈ s.gangs, s.Named task cluster e ∧ e.1 = k) ∧ t.host.ring 3 = s.host.ring 3 ∧
        (∀ e ∈ s.gangs, s.Named task cluster e → e.2.killed = false → s.gangTeams e.1 ≠ [] → (∀ x ∈ s.gangs, x.1 = e.1 → x = e) →
          ((t.gang e.1).kill).isSome = true) ∧
        (∀ e ∈ s.gangs, (s.gang e.1).kill = none → s.gangTeams e.1 ≠ [] → s.Named task cluster e → e.2.killed = false →
          (∀ x ∈ s.gangs, x.1 = e.1 → x = e) → (t.gang e.1).kill = some { cause := 0x33, group := none }) ∧ t.mem = s.mem ∧
        ∀ c i, (t.core c).cell i = (s.core c).cell i)) ∧
    ∀ gangs, s.host.killing = some gangs →
      ((∀ x ∈ gangs, s.reported x = true) → CommandDone (.kill task cluster) s 0 0 { s with host := { s.host with killing := none } }) ∧
      ((∃ x ∈ gangs, s.reported x = false) → exec (.kill task cluster) s = .next s) := by
  refine ⟨fun hkilling => ⟨kill_unknown h htask hcluster hkilling, kill_kills h htask hcluster hkilling⟩, fun gangs hkilling => ?_⟩
  have hexec := exec_kill h htask hcluster
  rw [if_pos (by rw [hkilling]; rfl)] at hexec
  exact killAll_results hkilling hexec

end

end Sys2Proof.Machine

end

section
/-! SYSRET puts a system call's result in the lanes of the slot that waits for it (R162, R381). -/

namespace Sys2Proof.Machine

/-! ### What keeps the registers of every core -/

/-- The registers of every core are as before, and a group exists that has no deferred write. -/
structure Unwritten (s : State) (gid : Nat) (t : State) : Prop where
  cells : ∀ c i, (t.core c).cell i = (s.core c).cell i
  settled : ∃ g, t.group? gid = some g ∧ g.defers = []

section
variable {s t : State} {gid : Nat}

theorem Unwritten.setGroup (h : Unwritten s gid t) {g : Group} (hd : g.defers = []) : Unwritten s gid (t.setGroup gid g) :=
  ⟨h.cells, g, State.group?_setGroup .., hd⟩

theorem Unwritten.onGroup (h : Unwritten s gid t) (f : Group → Group) (hf : ∀ g, g.defers = [] → (f g).defers = []) :
    Unwritten s gid (t.onGroup gid f) := by
  obtain ⟨g, hg, hd⟩ := h.settled
  exact ⟨h.cells, f g, by rw [State.group?_onGroup, hg]; rfl, hf g hd⟩

theorem Unwritten.settle (h : Unwritten s gid t) : Unwritten s gid (t.settle gid) := by
  obtain ⟨g, hg, hd⟩ := h.settled
  have hawaits := Group.awaits_of_defers_nil hd
  exact ⟨fun c i => by rw [State.settle_core t hg hawaits, h.cells], g, State.settle_group t hg hawaits, hd⟩

theorem Unwritten.endIfDone (h : Unwritten s gid t) : Unwritten s gid (t.endIfDone gid) := by
  obtain ⟨g, hg, hd⟩ := h.settled
  rw [State.endIfDone, hg]
  dsimp only
  split
  · have hset := h.setGroup (g := { g with life := .draining, accessLife := .done }) hd
    exact ⟨hset.cells, hset.settled⟩
  · exact h

/-- A stop of a group without deferred writes, other than for silent data, keeps the registers of every core. -/
theorem Unwritten.takeStop (h : Unwritten s gid t) (src : Source) {x : Trap} (hx : x.cause ≠ 0x06) (pc resume : Lane) (hinted : Bool) :
    SameCells s (t.takeStop gid (some src) x pc resume hinted) := by
  obtain ⟨g, hg, hd⟩ := h.settled
  by_cases ha : g.arrivals = []
  · rw [State.takeStop_eq hg ha hx]
    generalize hstop : (⟨some src, g.record src x pc resume hinted, t.fateFor g x.cause⟩ : Stop) = stop
    have hstopped : SameCells s (t.stopGroup gid (g.stoppedBy src stop pc)) := fun c i =>
      (((sameBut_stopGroup t gid ((Group.stoppedBy_defers ..).trans hd)).cores c).2 i).1.trans (h.cells c i)
    dsimp only
    split
    · refine fun c i => (sameCells_doom _ _ _ c i).trans ?_
      split
      · exact hstopped c i
      · exact hstopped c i
    · exact hstopped
  · rw [State.takeStop, hg]
    dsimp only
    rw [if_pos (by rw [Bool.not_eq_true', List.isEmpty_eq_false_iff]; exact ha)]
    exact h.cells

theorem Group.popSlot_defers (g : Group) (src : Source) : (g.popSlot src).defers = g.defers := by
  unfold Group.popSlot
  split
  · rfl
  · split
    · exact Group.setSlot_defers ..
    · rfl

/-- The pops that are due keep the registers of every core. -/
theorem Unwritten.pops (h : Unwritten s gid t) : SameCells s (t.pops gid) := by
  obtain ⟨g, hg, hd⟩ := h.settled
  have hpopped : Unwritten s gid (((t.setGroup gid g.popSlots).endIfDone gid).settle gid) :=
    (h.setGroup (by rw [Group.popSlots, Group.popSlot_defers, Group.popSlot_defers, hd])).endIfDone.settle
  rw [State.pops, hg]
  dsimp only
  split
  · exact hpopped.takeStop _ (Nat.ne_of_beq_eq_false rfl) _ _ _
  · exact hpopped.cells

end

/-! ### The result of a system call -/

/-- The writes of a result to a register in lanes of the file. -/
def resultWrites (r : Nat) (ls : List Nat) (v : Lane) : List CellWrite :=
  ls.map fun l => { cell := 32 * r + l, bits := BitVec.allOnes 64, value := v }

theorem Core.cell_resultWrites (k : Core) (r : Nat) {ls : List Nat} (v : Lane) {l : Nat} (h : l ∈ ls) :
    (k.writeAll (resultWrites r ls v)).cell (32 * r + l) = v := by
  have hone := (Core.writeAll_one k (resultWrites r ls v) { cell := 32 * r + l, bits := BitVec.allOnes 64, value := v }
    (List.mem_map.2 ⟨l, h, rfl⟩) fun x hx hcell => by
      obtain ⟨j, -, rfl⟩ := List.mem_map.mp hx
      dsimp only at hcell
      rw [hcell]).1
  dsimp only at hone
  rwa [BitVec.not_allOnes, BitVec.and_zero, BitVec.zero_or, BitVec.and_allOnes] at hone

theorem Group.mem_physLanes {g : Group} {src : Source} {l x : Nat} (hl : l ∈ lanesOf (g.slot src).mask)
    (hx : if g.prot then x = 2 * l ∨ x = 2 * l + 1 else x = l) : x ∈ g.physLanes src := by
  refine List.mem_flatMap.2 ⟨l, hl, ?_⟩
  split at hx
  · next hprot => simpa [hprot] using hx
  · next hprot => simpa [hprot] using hx

/-- A slot's register is that of the current frame. -/
theorem Group.regOf_program {g : Group} {src : Source} (h : src = .slotA ∨ src = .slotB) {n r : Nat} (hr : frameReg g.frames n = some r) :
    g.regOf src n = r := by
  rcases h with rfl | rfl <;> exact congrArg (fun o => Option.getD o 0) hr

/-- A group whose slot's system call is answered. -/
def Group.answered (src : Source) (g : Group) : Group := { g.setSlot src { g.slot src with life := .ready } with life := .live, tag := none }

theorem Group.answered_fields (src : Source) (g : Group) : (g.answered src).defers = g.defers ∧ (g.answered src).frameReq = g.frameReq :=
  ⟨Group.setSlot_defers .., Group.setSlot_frameReq ..⟩

/-- Reading the stacks back changes the group's stacks only. -/
theorem State.readStacks_group {s : State} {gid : Nat} {g : Group} (hg : s.group? gid = some g) :
    ∃ x, s.readStacks gid = s.setGroup gid x ∧ x.defers = g.defers ∧ x.frameReq = g.frameReq := by
  rw [State.readStacks, hg]
  exact ⟨_, rfl, rfl, rfl⟩

theorem State.rejoin_of_no_request {s : State} {gid : Nat} {g : Group} (hg : s.group? gid = some g) (hreq : g.frameReq = none) :
    s.rejoin gid = s := by
  rw [State.rejoin, hg]
  dsimp only
  rw [hreq]

/-- A group that goes on after a system call keeps the registers of every core. -/
theorem answered_cell {w : State} {gid : Nat} {g : Group} (src : Source) (hg : w.group? gid = some g) (hd : g.defers = [])
    (hreq : g.frameReq = none) (c i : Nat) :
    ((((((w.onGroup gid (Group.answered src)).readStacks gid).rejoin gid).pops gid).core c).cell i) = (w.core c).cell i := by
  obtain ⟨hdefers, hrequest⟩ := g.answered_fields src
  have hanswered : (w.onGroup gid (Group.answered src)).group? gid = some (g.answered src) := by rw [State.group?_onGroup, hg]; rfl
  obtain ⟨x, hread, hxd, hxreq⟩ := State.readStacks_group hanswered
  have hbefore : Unwritten w gid (w.onGroup gid (Group.answered src)) := ⟨fun _ _ => rfl, _, hanswered, hdefers.trans hd⟩
  rw [hread, State.rejoin_of_no_request (State.group?_setGroup ..) (hxreq.trans (hrequest.trans hreq))]
  exact (hbefore.setGroup (hxd.trans (hdefers.trans hd))).pops c i

theorem State.deliver_eq (s : State) (gid : Nat) {g : Group} (src : Source) (v : Lane) {r : Nat}
    (hr : frameReg g.frames (g.frameSize - 8) = some r) : s.deliver gid g src v =
      ((((s.onCore g.core fun k => k.writeAll (resultWrites r (g.physLanes src) v)).onGroup gid (Group.answered src)).readStacks gid).rejoin
        gid).pops gid := by
  rw [State.deliver, hr]
  rfl

theorem deliver_cell {s : State} {gid : Nat} {g : Group} {src : Source} (v : Lane) (hg : s.group? gid = some g) (hd : g.defers = [])
    (hreq : g.frameReq = none) {r : Nat} (hr : frameReg g.frames (g.frameSize - 8) = some r) {x : Nat} (hx : x ∈ g.physLanes src) :
    ((s.deliver gid g src v).core g.core).cell (32 * r + x) = v := by
  have hgw : (s.onCore g.core fun k => k.writeAll (resultWrites r (g.physLanes src) v)).group? gid = some g := hg
  rw [State.deliver_eq s gid src v hr, answered_cell src hgw hd hreq, State.core_onCore, Core.cell_resultWrites _ _ _ hx]

/-! ### SYSRET -/

/-- What a run of SYSRET comes to. -/
def State.sysretEnd (tag result : BitVec 64) (s : State) : CommandEnd :=
  match s.waiting tag.toNat with
  | some (gid, g, some src) =>
    if g.life = .saved then doneWith 0 ((s.dropTag tag.toNat).onGroup gid fun g => { g with sysret := some result, tag := none })
    else if (s.core g.core).requests.any fun r => r.gid == gid then .waits s
    else doneWith 0 ((s.dropTag tag.toNat).deliver gid g src result)
  | _ => refused s

theorem State.group?_of_waiting {s : State} {tag gid : Nat} {g : Group} {src : Option Source} (h : s.waiting tag = some (gid, g, src)) :
    s.group? gid = some g := by
  rw [State.waiting] at h
  split at h
  · cases h
  · split at h
    · cases h
    · split at h
      · cases h
      · next hg =>
        split at h
        · cases h
        · cases h
          exact hg

section
variable {s : State} {tag result : BitVec 64} (h : s.Commands 9 [tag.toNat, result.toNat]) (htag : tag.toNat < 2 ^ 32)
include h htag

theorem exec_sysret : exec (.sysret tag result) s = (s.sysretEnd tag result).outcome := by
  show execSysret tag result s = _
  refine State.command_runs (State.sysretEnd tag result) (by decide) (operands := [(tag, 32), (result, 64)]) h fun o ho => ?_
  simp only [List.mem_cons, List.not_mem_nil, or_false] at ho
  rcases ho with rfl | rfl
  exacts [htag, result.isLt]

theorem sysret_results :
    (s.waiting tag.toNat = none → CommandDone (.sysret tag result) s 0x80 0 s) ∧
    ∀ gid g src, s.waiting tag.toNat = some (gid, g, some src) → g.life ≠ .saved → (src = .slotA ∨ src = .slotB) → g.frameReq = none → g.defers = [] →
      (∀ r ∈ (s.core g.core).requests, r.gid ≠ gid) → (frameReg g.frames (g.frameSize - 8)).isSome = true →
      ∃ s1, CommandDone (.sysret tag result) s 0 0 s1 ∧ (∀ l ∈ lanesOf (g.slot src).mask, ∀ x, (if g.prot then x = 2 * l ∨ x = 2 * l + 1 else x = l) →
        (s1.core g.core).cell (32 * g.regOf src (g.frameSize - 8) + x) = result) := by
  have hexec := exec_sysret h htag
  refine ⟨fun hnone => .of_ends hexec (by rw [State.sysretEnd, hnone]; rfl), ?_⟩
  intro gid g src hwaiting hlife hsrc hreq hd hrequests hreg
  obtain ⟨r, hr⟩ := Option.isSome_iff_exists.1 hreg
  have hquiet : ¬ ((s.core g.core).requests.any fun r => r.gid == gid) = true := by
    rw [List.any_eq_true]
    rintro ⟨x, hx, hgid⟩
    exact hrequests x hx (beq_iff_eq.1 hgid)
  refine ⟨(s.dropTag tag.toNat).deliver gid g src result, .of_ends hexec ?_, fun l hl x hx => ?_⟩
  · rw [State.sysretEnd, hwaiting]
    dsimp only
    rw [if_neg hlife, if_neg hquiet]
    rfl
  · have hwaited : s.group? gid = some g := State.group?_of_waiting hwaiting
    have hgroup : (s.dropTag tag.toNat).group? gid = some g := hwaited
    rw [Group.regOf_program hsrc hr]
    exact deliver_cell result hgroup hd hreq hr (Group.mem_physLanes hl hx)

end

end Sys2Proof.Machine

end

section
/-! DIEON: a die comes back with fresh cores, whatever its return moves to new homes (R316, R337, R381, R391). -/

namespace Sys2Proof.Machine

/-! ### What the moves of lines and queues leave unchanged -/

/-- Whether a die is out of service, and why, and its failed rails. -/
def Die.service (d : Die) : Bool × Bool × List Nat := (d.offline, d.thermal, d.failedRails)

/-- The tests, the service of every die, and every core outside its memories and the requests of its groups. -/
def State.standing (s : State) : List TestUnit × (Nat → Bool × Bool × List Nat) × (Nat → Core) :=
  (s.tests, fun d => (s.die d).service, fun c => (s.core c).outside.quiet)

theorem State.tests_of_standing {s t : State} (h : t.standing = s.standing) : t.tests = s.tests := congrArg Prod.fst h

theorem State.standing_of_outside {s t : State} (h : t.outside = s.outside) : t.standing = s.standing := by
  have hdies : t.dies = s.dies := congrArg (fun x => x.1.dies) h
  have htests : t.tests = s.tests := congrArg (fun x => x.1.tests) h
  refine Prod.ext htests (Prod.ext (funext fun d => ?_) (funext fun c => congrArg Core.quiet (State.core_of_outside h c)))
  simp only [State.standing, State.die, hdies]

theorem State.standing_of_calm {s t : State} (h : t.calm = s.calm) : t.standing = s.standing := by
  have hdies : t.dies = s.dies := congrArg (fun x => x.1.dies) h
  have htests : t.tests = s.tests := congrArg (fun x => x.1.tests) h
  refine Prod.ext htests (Prod.ext (funext fun d => ?_) (funext fun c => congrArg Core.outside (State.core_of_calm h c)))
  simp only [State.standing, State.die, hdies]

theorem State.die_onDie_ne (s : State) {d j : Nat} (f : Die → Die) (h : j ≠ d) : (s.onDie d f).die j = s.die j :=
  NMap.get_put_ne _ _ _ h

/-- A change of a die's queue slots. -/
theorem State.onDie_standing (s : State) (d : Nat) {f : Die → Die} (hf : ∀ k, (f k).service = k.service) : (s.onDie d f).standing = s.standing := by
  refine Prod.ext rfl (Prod.ext (funext fun j => ?_) rfl)
  show ((s.onDie d f).die j).service = (s.die j).service
  by_cases hj : j = d
  · rw [hj, State.die_onDie, hf]
  · rw [State.die_onDie_ne _ _ hj]

/-! ### Queues -/

theorem State.setMapped_standing (s : State) (q : Nat) (on : Bool) : (s.setMapped q on).standing = s.standing :=
  State.standing_of_outside (State.writeHome_outside ..)

theorem State.setPending_standing (s : State) (q : Nat) : (s.setPending q).standing = s.standing := by
  unfold State.setPending
  dsimp only
  refine (State.onDie_standing _ _ fun k => ?_).trans (State.standing_of_outside (State.writeHome_outside ..))
  rfl

theorem State.rehome_standing (s : State) : s.rehome.standing = s.standing := by
  refine foldl_view State.standing _ (fun s d => foldl_view State.standing _ (fun s x => ?_) _ s) [0, 1, 2, 3] s
  have hdropped : ((s.onDie d fun k => { k with slots := k.slots.filter fun y => y.queue != x.queue }).setMapped x.queue false).standing =
      s.standing := (State.setMapped_standing _ _ _).trans (State.onDie_standing s d fun _ => rfl)
  dsimp only
  split
  · exact (State.setPending_standing _ _).trans hdropped
  · exact hdropped

/-! ### Lines -/

theorem State.writeBack_standing (s : State) (line : Nat) (k : Option Traffic) : (s.writeBack line k).standing = s.standing := by
  unfold State.writeBack
  split
  · rfl
  · next pa _ =>
    have hreported : (if s.dirtyLine line then s.reportAccess pa else s).standing = s.standing := by
      split
      · exact State.standing_of_outside (State.reportAccess_outside ..)
      · rfl
    refine (foldl_view State.standing (fun (s : State) (e : Nat × Byte) => s.setMemByte (pa + e.1 % 128) e.2)
      (fun t e => State.standing_of_outside (State.setMemByte_outside ..)) _ _).trans ?_
    split
    · exact hreported
    · exact hreported

theorem State.leaveWay_standing (s : State) (line : Nat) : (s.leaveWay line).standing = s.standing := rfl
theorem State.forgetLine_standing (s : State) (line : Nat) : (s.forgetLine line).standing = s.standing := rfl

theorem State.standing_withL2 (s : State) (l2 : NMap Byte) : { s with l2 := l2 }.standing = s.standing := rfl

theorem State.holdWhole_standing (s : State) (line : Nat) : (s.holdWhole line).standing = s.standing := by
  unfold State.holdWhole
  exact State.standing_withL2 s _

theorem State.setBacking_standing (s : State) (place e : Nat) : (s.setBacking place e).standing = s.standing := by
  unfold State.setBacking
  exact (State.standing_of_outside (State.writeHome_outside ..)).trans
    (foldl_view State.standing State.holdWhole State.holdWhole_standing _ s)

theorem State.takeFrame_standing (s : State) (pool : Nat) : (s.takeFrame pool).1.standing = s.standing := by
  unfold State.takeFrame
  dsimp only
  split
  · rfl
  · exact State.standing_of_outside (State.writeHome_outside ..)

/-- A late frame is taken only where the page asks for one. -/
theorem State.lateFrame_standing (s : State) (a : Adobe) (x : State × Option Nat)
    (hx : (if s.pageFb a then s.takeFrame (s.contextPool a.ctx) else (s, none)) = x) : x.1.standing = s.standing := by
  rw [← hx]
  split
  · exact State.takeFrame_standing ..
  · rfl

theorem State.mustLeave_standing (s : State) (line : Nat) : (s.mustLeave line).standing = s.standing := by
  unfold State.mustLeave
  dsimp only
  split
  · rfl
  · split
    · exact (State.leaveWay_standing _ _).trans (State.writeBack_standing ..)
    · split
      · rfl
      · next a _ =>
        have hframe := State.lateFrame_standing s a _ rfl
        split
        · exact (State.leaveWay_standing _ _).trans ((State.writeBack_standing ..).trans ((State.setBacking_standing ..).trans hframe))
        · refine (State.standing_of_outside (State.sendUnit_outside ..)).trans ?_
          exact hframe

theorem State.reReserve_standing (s : State) (lines : List Nat) : (s.reReserve lines).standing = s.standing := by
  refine foldl_view State.standing _ (fun s l => ?_) lines _
  dsimp only
  split
  · split <;> rfl
  · split
    · exact State.mustLeave_standing s l
    · rfl

/-- Version lines that move doom at most their gangs. -/
theorem State.moveVersions_standing (s : State) (moved lost : Nat → Bool) : (s.moveVersions moved lost).standing = s.standing := by
  unfold State.moveVersions
  generalize ((s.versions.filter fun v => !moved v.line).map fun v => s.setKey v.line) = held
  generalize s.versions = l
  induction l generalizing s held with
  | nil => rfl
  | cons v l ih =>
    rw [List.foldl_cons]
    dsimp only
    split
    · exact (ih _ _).trans (State.standing_of_calm (State.doom_calm ..))
    · split
      · exact (ih _ _).trans rfl
      · exact ih _ _

theorem State.rehash_standing (s : State) (moved lost : Nat → Bool) : (s.rehash moved lost).standing = s.standing := by
  unfold State.rehash
  refine (State.moveVersions_standing _ _ _).trans ((State.reReserve_standing _ _).trans ?_)
  exact foldl_view State.standing (fun (s : State) l => s.writeBack l) (fun t l => State.writeBack_standing ..) _ s

/-! ### DIEON -/

/-- A die in service. -/
def Die.inService (d : Die) : Die := { d with offline := false, thermal := false, failedRails := [] }

/-- The package with a die back in service, its cores as at a cold start. -/
def State.restarted (s : State) (d : Nat) : State := (s.onDie d Die.inService).freshDie d

theorem State.die_restarted (s : State) (d : Nat) : (s.restarted d).die d = (s.die d).inService := State.die_onDie ..

theorem NMap.find_keep_none {α : Type} {m : NMap α} {p : Nat → α → Bool} {k : Nat} (h : ∀ v, p k v = false) : NMap.find (NMap.keep m p) k = none := by
  cases hfind : NMap.find (NMap.keep m p) k with
  | none => rfl
  | some v =>
    have hmem := (List.mem_filter.mp (NMap.mem_of_find hfind)).2
    rw [h v] at hmem
    cases hmem

theorem State.core_restarted (s : State) {d c : Nat} (h : dieOf c = d) : (s.restarted d).core c = {} := by
  rw [State.restarted, State.freshDie, State.core, NMap.get, NMap.find_keep_none fun v => by rw [h, bne_self_eq_false]]
  rfl

/-- Units of a die, but its L2 ways, whose failure is lasting (R394). -/
def State.failedUnits (s : State) (d : Nat) : List FaultUnit :=
  (s.tests.filter fun t => t.lasting && unitDie t.unit == d && (match t.unit with
    | .l2Way _ _ _ => false
    | _ => true)).map fun (t : TestUnit) => t.unit

/-- What a run of DIEON comes to. -/
def State.dieonEnd (d : Nat) (s : State) : CommandEnd :=
  if !(s.die d).offline then refused s
  else if s.teams.any fun e => dieOf e.2.core == d && (e.2.life == .live || e.2.life == .saving) then .waits s
  else doneWith 0 ((((s.restarted d).rehome.homesBack s).failedUnits d).foldl State.applyVerdict ((s.restarted d).rehome.homesBack s))

theorem State.homesBack_standing (s : State) (d : Nat) : ((s.restarted d).rehome.homesBack s).standing = (s.restarted d).standing :=
  (State.rehash_standing _ _ _).trans (State.rehome_standing _)

theorem State.failedUnits_eq_nil {s : State} {d : Nat} (h : ∀ x ∈ s.tests, x.lasting = true → unitDie x.unit ≠ d) : s.failedUnits d = [] := by
  rw [State.failedUnits, List.map_eq_nil_iff, List.filter_eq_nil_iff]
  intro x hx hbad
  rw [Bool.and_eq_true, Bool.and_eq_true, beq_iff_eq] at hbad
  exact h x hx hbad.1.1 hbad.1.2

/-- A die that no live team holds is restarted; without lasting failures of its units no verdict applies. -/
theorem State.dieonEnd_restarts {s : State} {d : Nat} (hoff : (s.die d).offline = true)
    (hteams : ∀ e ∈ s.teams, dieOf e.2.core = d → e.2.life ≠ .live ∧ e.2.life ≠ .saving)
    (htests : ∀ x ∈ s.tests, x.lasting = true → unitDie x.unit ≠ d) :
    s.dieonEnd d = doneWith 0 ((s.restarted d).rehome.homesBack s) := by
  have hfree : ¬ (s.teams.any fun e => dieOf e.2.core == d && (e.2.life == .live || e.2.life == .saving)) = true := by
    rw [List.any_eq_true]
    rintro ⟨e, he, hheld⟩
    rw [Bool.and_eq_true, Bool.or_eq_true, beq_iff_eq, beq_iff_eq, beq_iff_eq] at hheld
    exact hheld.2.elim (hteams e he hheld.1).1 (hteams e he hheld.1).2
  have hkept : ((s.restarted d).rehome.homesBack s).tests = s.tests := State.tests_of_standing (s := s.restarted d) (State.homesBack_standing s d)
  rw [State.dieonEnd, if_neg (by rw [hoff]; decide), if_neg hfree, State.failedUnits_eq_nil (by rwa [hkept]), List.foldl_nil]

theorem Core.free_of_outside_quiet {k j : Core} (h : k.outside.quiet = j.outside.quiet) : k.free = j.free := (congrArg Core.free h :)

section
variable {s : State} {die : BitVec 64} (h : s.Commands 10 [die.toNat]) (hdie : die.toNat < 4)
include h hdie

theorem exec_dieon : exec (.dieon die) s = (s.dieonEnd die.toNat).outcome := by
  show execDieon die s = _
  refine State.command_runs (State.dieonEnd die.toNat) (by decide) (operands := [(die, 2)]) h fun o ho => ?_
  rw [List.mem_singleton.mp ho]
  exact hdie

theorem dieon_results :
    ((s.die die.toNat).offline = false → CommandDone (.dieon die) s 0x80 0 s) ∧
    ((s.die die.toNat).offline = true → (∀ e ∈ s.teams, dieOf e.2.core = die.toNat → e.2.life ≠ .live ∧ e.2.life ≠ .saving) →
      (∀ x ∈ s.tests, x.lasting = true → unitDie x.unit ≠ die.toNat) →
      ∃ s1, CommandDone (.dieon die) s 0 0 s1 ∧ (s1.die die.toNat).offline = false ∧ (s1.die die.toNat).thermal = false ∧
        (s1.die die.toNat).failedRails = [] ∧
        ∀ c, dieOf c = die.toNat → (s1.core c).l1 = [] ∧ (s1.core c).icache = [] ∧ (s1.core c).icodes = [] ∧
          (s1.core c).free = ({} : Core).free ∧ ∀ i, (s1.core c).cell i = 0) := by
  have hexec := exec_dieon h hdie
  refine ⟨fun hon => .of_ends hexec (if_pos (by rw [hon]; decide)), fun hoff hteams htests =>
    ⟨(s.restarted die.toNat).rehome.homesBack s, .of_ends hexec (State.dieonEnd_restarts hoff hteams htests), ?_⟩⟩
  have hstanding := State.homesBack_standing s die.toNat
  generalize (s.restarted die.toNat).rehome.homesBack s = t at hstanding ⊢
  have hservice : (t.die die.toNat).service = (s.die die.toNat).inService.service := by
    rw [← State.die_restarted]
    exact congrArg (fun x => x.2.1 die.toNat) hstanding
  refine ⟨congrArg Prod.fst hservice, congrArg (fun x => x.2.1) hservice, congrArg (fun x => x.2.2) hservice, fun c hc => ?_⟩
  have hcore : (t.core c).outside.quiet = ({} : Core).outside.quiet := by
    rw [← State.core_restarted s hc]
    exact congrArg (fun x => x.2.2 c) hstanding
  exact ⟨congrArg Core.l1 hcore, congrArg Core.icache hcore, congrArg Core.icodes hcore, Core.free_of_outside_quiet hcore,
    fun i => congrArg (fun k : Core => k.cell i) hcore⟩

end

end Sys2Proof.Machine

end

section
/-! ATTEST and its report (R392), and the statement about all management commands. -/

namespace Sys2Proof.Machine

/-! ### ATTEST -/

/-- The record of an ATTEST, its nonce above the opcode's word. -/
theorem attestRecord_eq (n a : Nat) : 11 + n * 2 ^ 64 + a * 2 ^ 320 = 11 + 2 ^ 64 * (n + 2 ^ 256 * a) := by
  rw [show (320 : Nat) = 64 + 256 from rfl, pow_add, Nat.mul_add, Nat.add_assoc, Nat.mul_comm n, Nat.mul_comm a, Nat.mul_assoc]

theorem attestRecord_operands (nonce : BitVec 256) (addr : BitVec 64) :
    let record := 11 + nonce.toNat * 2 ^ 64 + addr.toNat * 2 ^ 320
    record % 256 = 11 ∧ record / 2 ^ 64 % 2 ^ 256 = nonce.toNat ∧ record / 2 ^ 320 % 2 ^ 64 = addr.toNat := by
  intro record
  have hrecord : record = 11 + 2 ^ 64 * (nonce.toNat + 2 ^ 256 * addr.toNat) := attestRecord_eq ..
  have hhigh : record / 2 ^ 64 = nonce.toNat + 2 ^ 256 * addr.toNat := by
    rw [hrecord, Nat.add_mul_div_left _ _ (Nat.two_pow_pos 64), Nat.div_eq_of_lt (by decide), Nat.zero_add]
  refine ⟨by omega, ?_, ?_⟩
  · rw [hhigh, Nat.add_mul_mod_self_left, Nat.mod_eq_of_lt nonce.isLt]
  · rw [show (320 : Nat) = 64 + 256 from rfl, pow_add, ← Nat.div_div_eq_div_mul, hhigh, Nat.add_mul_div_left _ _ (Nat.two_pow_pos 256),
      Nat.div_eq_of_lt nonce.isLt, Nat.zero_add, Nat.mod_eq_of_lt addr.isLt]

/-- A host that awaits a report. -/
def State.attesting (nonce : BitVec 256) (addr : BitVec 64) (s : State) : State := { s with host := { s.host with attest := some (nonce, addr) } }

section
variable {s : State} {nonce : BitVec 256} {addr : BitVec 64} (h : s.nextCommand = some (11 + nonce.toNat * 2 ^ 64 + addr.toNat * 2 ^ 320))
include h

theorem exec_attest : exec (.attest nonce addr) s = if s.host.attest.isSome then .next s else .next (s.takeCommand.attesting nonce addr) := by
  obtain ⟨hop, hnonce, haddr⟩ := attestRecord_operands nonce addr
  show execAttest nonce addr s = _
  rw [execAttest, h]
  dsimp only
  rw [if_neg (by rw [hop, hnonce, haddr]; simp), if_neg (not_not.2 rfl)]
  rfl

theorem attest_results :
    (s.host.attest = none → ∃ t, exec (.attest nonce addr) s = .next t ∧ t.host.attest = some (nonce, addr) ∧
      (t.host.ring 3).cidx = (s.host.ring 3).cidx + 1 ∧ { t with host := s.host } = s) ∧
    (s.host.attest ≠ none → exec (.attest nonce addr) s = .next s) := by
  have hexec := exec_attest h
  constructor
  · intro hnone
    rw [hnone, if_neg (by decide)] at hexec
    have hring : (s.takeCommand.host.ring 3).cidx = (s.host.ring 3).cidx + 1 := by rw [State.takeCommand, HostPort.ring_onRing_self]
    exact ⟨_, hexec, rfl, hring, rfl⟩
  · intro hsome
    rw [hexec, if_pos (Option.isSome_iff_ne_none.2 hsome)]

end

/-! ### The report -/

/-- Bytes read where a write put them. -/
theorem State.readHome_writeHome_middle (s : State) (p : Nat) (before bytes after : List Byte) (bad : Bool) (a : Access) (k : Option Nat) :
    (s.writeHome p (before ++ (bytes ++ after)) bad a k).readHome (p + before.length) bytes.length = bytes := by
  refine List.ext_getElem (by simp [State.readHome, spread]) fun j hj hj' => ?_
  have hlen : before.length + j < (before ++ (bytes ++ after)).length := by
    rw [List.length_append, List.length_append]
    omega
  simp only [State.readHome, spread, List.getElem_map, List.getElem_range]
  rw [Nat.add_assoc, State.homeByte_writeHome s p _ bad a k hlen, List.getElem_append_right (Nat.le_add_right ..),
    List.getElem_append_left (by omega)]
  simp

/-- The state after a report whose bytes are given. -/
def State.afterReport (s : State) (p : Nat) (bytes : List Byte) : State :=
  State.completeCommand { s.writeHome p bytes false with host := { (s.writeHome p bytes false).host with attest := none } } 0 0

/-- The signed report. -/
def State.signedReport (s : State) (nonce : BitVec 256) : List Byte :=
  s.report nonce ++ (List.range 7856).map (Config.signatureByte (s.report nonce))

theorem State.length_signedReport (s : State) (nonce : BitVec 256) : (s.signedReport nonce).length = 8000 := by
  simp [State.signedReport, State.report]

theorem exec_attestReport {s : State} {nonce : BitVec 256} {addr : BitVec 64} (h : s.host.attest = some (nonce, addr)) :
    exec .attestReport s = .next (s.afterReport (hostBase + addr.toNat % hostBase) (s.signedReport nonce)) := by
  show execAttestReport s = _
  rw [execAttestReport, h]
  rfl

theorem State.time_of_outside {s t : State} (h : t.outside = s.outside) : t.time = s.time := (congrArg (fun x => x.1.time) h :)
theorem State.ring_of_outside {s t : State} (h : t.outside = s.outside) {n : Nat} (hn : n ≠ 1) : t.host.ring n = s.host.ring n := by
  have hring := congrArg (fun x => x.2.2 n) h
  simpa only [State.outside, if_neg hn] using hring

theorem State.homeByte_reported (s : State) (p : Nat) (bytes : List Byte) (y : Nat) :
    (s.afterReport p bytes).homeByte y = (s.writeHome p bytes false).homeByte y := rfl

theorem State.readHome_reported (s : State) (p : Nat) (bytes : List Byte) (q n : Nat) :
    (s.afterReport p bytes).readHome q n = (s.writeHome p bytes false).readHome q n := rfl

theorem State.ring_reported (s : State) (p : Nat) (bytes : List Byte) : ((s.afterReport p bytes).host.ring 2).waiting = (s.host.ring 2).waiting ++
    [{ tagged := false, bytes := recordBytes 64 [recordHeader 0x21 0 0, (16, 0), (24, s.now)] }] := by
  have hout : (s.writeHome p bytes false).outside = s.outside := State.writeHome_outside ..
  rw [State.afterReport, State.completeCommand, State.send, HostPort.ring_onRing_self]
  generalize s.writeHome p bytes false = t at hout ⊢
  have hring : t.host.ring 2 = s.host.ring 2 := State.ring_of_outside hout (by decide)
  have hnow : t.now = s.now := by rw [State.now, State.time_of_outside hout]; rfl
  rw [← hring, ← hnow]
  rfl

theorem attestReport_results {s : State} {nonce : BitVec 256} {addr : BitVec 64} (h : s.host.attest = some (nonce, addr)) (p : Nat)
    (hp : p = hostBase + addr.toNat % hostBase) :
    ∃ t, exec .attestReport s = .next t ∧ t.host.attest = none ∧ t.readHome p 32 = bytesOf nonce.toNat 32 ∧
      t.readHome (p + 128) 8 = bytesOf s.now 8 ∧ t.readHome (p + 136) 8 = bytesOf (s.host.pkgId.toNat + if s.warm then 2 ^ 16 else 0) 8 ∧
      (∀ y, isAdobe y = false → y < p ∨ p + 8000 ≤ y → t.homeByte y = s.homeByte y) ∧ (t.host.ring 2).waiting = (s.host.ring 2).waiting ++
        [{ tagged := false, bytes := recordBytes 64 [recordHeader 0x21 0 0, (16, 0), (24, s.now)] }] := by
  rw [exec_attestReport h, ← hp]
  refine ⟨_, rfl, rfl, ?_, ?_, ?_, fun y hy hbeside => ?_, State.ring_reported ..⟩
  · rw [State.readHome_reported]
    have hread := s.readHome_writeHome_middle p [] (bytesOf nonce.toNat 32)
      (bytesOf Config.firmwareDigest.toNat 32 ++ bytesOf Config.bitstreamDigest.toNat 32 ++ bytesOf Config.fuseDigest.toNat 32 ++ bytesOf s.now 8 ++
        bytesOf (s.host.pkgId.toNat + if s.warm then 2 ^ 16 else 0) 8 ++ (List.range 7856).map (Config.signatureByte (s.report nonce))) false {} none
    rw [length_bytesOf] at hread
    simpa only [State.signedReport, State.report, List.append_assoc, List.nil_append, List.length_nil, Nat.add_zero] using hread
  · rw [State.readHome_reported]
    have hread := s.readHome_writeHome_middle p
      (bytesOf nonce.toNat 32 ++ bytesOf Config.firmwareDigest.toNat 32 ++ bytesOf Config.bitstreamDigest.toNat 32 ++ bytesOf Config.fuseDigest.toNat 32)
      (bytesOf s.now 8) (bytesOf (s.host.pkgId.toNat + if s.warm then 2 ^ 16 else 0) 8 ++
        (List.range 7856).map (Config.signatureByte (s.report nonce))) false {} none
    simpa only [State.signedReport, State.report, List.append_assoc, List.length_append, length_bytesOf] using hread
  · rw [State.readHome_reported]
    have hread := s.readHome_writeHome_middle p
      (bytesOf nonce.toNat 32 ++ bytesOf Config.firmwareDigest.toNat 32 ++ bytesOf Config.bitstreamDigest.toNat 32 ++
        bytesOf Config.fuseDigest.toNat 32 ++ bytesOf s.now 8)
      (bytesOf (s.host.pkgId.toNat + if s.warm then 2 ^ 16 else 0) 8)
      ((List.range 7856).map (Config.signatureByte (s.report nonce))) false {} none
    simpa only [State.signedReport, State.report, List.append_assoc, List.length_append, length_bytesOf] using hread
  · rw [State.homeByte_reported]
    exact State.homeByte_writeHome_beside s p _ false {} none hy (by rwa [State.length_signedReport])

/-! ### The statement -/

/-- Settles O51, command by command: each is the command frame of R381 around a run whose end is known. -/
theorem commandResults : Obligations.CommandResults := by
  unfold Obligations.CommandResults
  refine ⟨State.complete_results, fun s pa => ⟨setctxt_results, setqt_results⟩, ?_, fun s => icinv_results, fun s tag action => resume_results,
    fun s task cluster h htask hcluster => kill_results h htask hcluster, fun s tag result => sysret_results, fun s die h hdie => dieon_results h hdie,
    fun s nonce addr => ⟨attest_results, fun h => attestReport_results h _ rfl⟩, fun s time => timeset_results,
    fun s op record => commandBadOpcode_refused⟩
  intro s ctx va attr kind len c root ends held hctx
  refine ⟨fun h hkind => ⟨fun hlo hhi => map_results hctx h hkind hlo hhi _ rfl, map_badKind hctx h hkind⟩, fun h => unmap_results hctx h _ rfl,
    fun h hkind halign => inval_results hctx h hkind halign rfl⟩

end Sys2Proof.Machine

end
